-- ==== Sys2Proof/Word.lean ====
section
/-! DEFINITION. Word types of the Tlamir (R7, R35) and the register-number types of its encodings (R41, R45). -/

namespace Sys2Proof

/-- A 32-bit register or instruction word. -/
abbrev Word := BitVec 32

/-- A 64-bit value, an address of a register pair (R111) or a lane mask (R18). -/
abbrev DWord := BitVec 64

/-- A byte of memory. -/
abbrev Byte := BitVec 8

/-- One bit per lane slot of a group, bit `l` for lane `l` (R17). -/
abbrev LaneMask := BitVec 64

/-- A lane register field: v0 to v119, and q0 to q7 as 120 to 127 (R41). -/
abbrev VReg := BitVec 7

/-- A uniform register field of 8 bits, g0 to g255 (R45). -/
abbrev GReg := BitVec 8

/-- The 6-bit b field of GRF, g0 to g63 (R45). -/
abbrev GReg6 := BitVec 6

/-- The 10-bit fields of GX, g0 to g1023 (R45). -/
abbrev GReg10 := BitVec 10

/-- A predicate p0 to p127 (R41). -/
abbrev PReg := BitVec 7

/-- A uniform predicate gp0 to gp15 (R45). -/
abbrev GPReg := BitVec 4

/-- A convergence register cv0 to cv15 (R46). -/
abbrev CvNum := BitVec 4

/-- A tile t0 to t31 or a shape slot sh0 to sh31 (R46). -/
abbrev TileNum := BitVec 5

end Sys2Proof
end

