-- ==== Sys2Proof/Syntax.lean ====
section
/-! DEFINITION. The instruction set as one inductive: a constructor for every row of spec/opcode_table.json, with the
operand fields of the formats of R40, R44 and R46, and the codes those fields take (R47 to R50). -/

namespace Sys2Proof

/-- The f codes of IADD and ISUB (R336). -/
inductive Sat where | wrap | sats | satn
  deriving DecidableEq, Repr

/-- The f codes of IMUL (R342). -/
inductive MulPart where | lo | hiS | hiN
  deriving DecidableEq, Repr

/-- The type codes f of FADD to FMAX (R326). -/
inductive FType where | f32 | bf16x2 | f16x2
  deriving DecidableEq, Repr

/-- Rounding modes, FPCTL.RM and the rounding field of CVT (R36, R51). -/
inductive Rm where | rn | rz | dn | up
  deriving DecidableEq, Repr

/-- The conditions of ICMP (R49). -/
inductive ICond where | eq | ne | ltS | leS | gtS | geS | ltN | geN
  deriving DecidableEq, Repr

/-- The conditions of FCMP (R49). -/
inductive FCond where | eq | ne | lt | le | gt | ge | un | num
  deriving DecidableEq, Repr

/-- The f codes of SHFL (R370). -/
inductive Shfl where | idx | up | down | xor
  deriving DecidableEq, Repr

/-- The f codes of VSCAN (R385). -/
inductive Scan where | addExcl | addIncl | maxIncl | minIncl
  deriving DecidableEq, Repr

/-- The f codes of VRED (R384). -/
inductive Red where | add | maxS | minS | faddExact
  deriving DecidableEq, Repr

/-- The access sizes of LM and LW (R43). -/
inductive Size where | b32 | b64 | b128 | b16
  deriving DecidableEq, Repr

/-- The order codes (R47). -/
inductive Order where | none | acq | rel | ar
  deriving DecidableEq, Repr

/-- The scope codes 0 to 5 (R47). -/
inductive Scope where | grp | team | core | clu | dev | sys
  deriving DecidableEq, Repr

/-- The atomic operations (R50). -/
inductive AOp where
  | add | minS | minN | maxS | maxN | and | or | xor | exch | cas | addX64 | faddF32
  deriving DecidableEq, Repr

/-- The type codes 0x0 to 0xE (R48). -/
inductive Ty where
  | s32 | n32 | f32 | bf16 | f16 | s16 | n16 | s8 | n8 | s4 | e4m3 | e5m2 | e2m1 | cb2 | s64
  deriving DecidableEq, Repr

/-- The policies of ROUTE (R199). -/
inductive Policy where | stall | drop | spill
  deriving DecidableEq, Repr

/-- The access codes of register maps (R8). -/
inductive Access where | ro | rw | wo | w1c
  deriving DecidableEq, Repr

/-- Why an instruction fetch fails (R312). -/
inductive FetchCause where | pageAbsent | permission
  deriving DecidableEq, Repr

/-- What a debugger session asks for (R286). -/
inductive DebugAct where
  | hold | release | stopGroup (gid : Nat) | stopTeam (team : Nat) | stopAll | cancel (gid : Nat) | resume (gid : Nat)
  deriving DecidableEq, Repr

/-- The policy values that OP 0x20 loads, times in microseconds (R232, R299), with AGE and the weights of input ports of the
network, each by the port's number (R268). -/
structure PolicyArgs where
  timeSlice : Nat
  starve : Nat
  starve2 : Nat
  preempt : Bool
  capWatts : Nat
  ownPlacement : Bool
  age : Nat
  weights : List (Nat × Nat)
  deriving DecidableEq, Repr

/-- One peer slot of the system map (R273). -/
structure PeerArgs where
  slot : Nat
  enabled : Bool
  dev : BitVec 12
  memSize : Nat
  links : BitVec 16
  deriving DecidableEq, Repr

/-- What waits to be placed (R237): a team of a launch by its index, the copy of it (0 where it runs once, R280), or a saved
team. -/
inductive Waiter where
  | team (launch index copy : Nat)
  | saved (id : Nat)
  deriving DecidableEq, Repr

/-- A team of a launch by its index, and the copy of it (0 where it runs once, R280). -/
structure TeamRef where
  launch : Nat
  index : Nat
  copy : Nat
  deriving DecidableEq, Repr

/-- What an access that arrives from a peer does (R274): a load of so many bytes, a store, an atomic, an addition of a TRED,
or an active message of a domain to a cluster's handler id, which may be a release. -/
inductive BusAccess where
  | load (n : Nat)
  | store
  | atomic (op : AOp)
  | tredAdd
  | message (dom clu hid : Nat) (words : List Word) (rel : Bool)
  deriving DecidableEq, Repr

/-- An access that arrives over a Traverse link: the device that asks, and what for. -/
structure PeerAccess where
  dev : Nat
  kind : BusAccess
  deriving DecidableEq, Repr

/-- One constructor for each row of spec/opcode_table.json: rows 1 to 186 are instructions with an encoding
(R40, R44), the others the device events that chapter 95 lists as steps, which have none. -/
inductive Instr where
  /-- IADD_LANE: R336. -/
  | iaddLane (g : Bool) (f : Sat) (d a b : VReg)
  /-- IADD_UNIFORM: R336. -/
  | iaddUniform (f : Sat) (d a : GReg) (b : GReg6)
  /-- ISUB_LANE: R336. -/
  | isubLane (g : Bool) (f : Sat) (d a b : VReg)
  /-- ISUB_UNIFORM: R336. -/
  | isubUniform (f : Sat) (d a : GReg) (b : GReg6)
  /-- IADDI_LANE: R337. -/
  | iaddiLane (g : Bool) (d a : VReg) (imm : BitVec 10)
  /-- IADDI_UNIFORM: R337. -/
  | iaddiUniform (d a : GReg) (imm : BitVec 9)
  /-- IMUL_LANE: R342. -/
  | imulLane (g : Bool) (f : MulPart) (d a b : VReg)
  /-- IMUL_UNIFORM: R342. -/
  | imulUniform (f : MulPart) (d a : GReg) (b : GReg6)
  /-- IMAD_LANE: R340. -/
  | imadLane (g : Bool) (d a b : VReg)
  /-- IMAD_UNIFORM: R340. -/
  | imadUniform (d a b : GReg)
  /-- IMIN_LANE: R341; nat is .n. -/
  | iminLane (g : Bool) (nat : Bool) (d a b : VReg)
  /-- IMIN_UNIFORM: R341; nat is .n. -/
  | iminUniform (nat : Bool) (d a b : GReg)
  /-- IMAX_LANE: R341; nat is .n. -/
  | imaxLane (g : Bool) (nat : Bool) (d a b : VReg)
  /-- IMAX_UNIFORM: R341; nat is .n. -/
  | imaxUniform (nat : Bool) (d a b : GReg)
  /-- AND_LANE: R306. -/
  | andLane (g : Bool) (d a b : VReg)
  /-- OR_LANE: R306. -/
  | orLane (g : Bool) (d a b : VReg)
  /-- XOR_LANE: R306. -/
  | xorLane (g : Bool) (d a b : VReg)
  /-- ANDN_LANE: R306. -/
  | andnLane (g : Bool) (d a b : VReg)
  /-- AND_UNIFORM: R306. -/
  | andUniform (d a : GReg) (b : GReg6)
  /-- OR_UNIFORM: R306. -/
  | orUniform (d a : GReg) (b : GReg6)
  /-- XOR_UNIFORM: R306. -/
  | xorUniform (d a : GReg) (b : GReg6)
  /-- ANDN_UNIFORM: R306. -/
  | andnUniform (d a : GReg) (b : GReg6)
  /-- SHL_LANE: R371. -/
  | shlLane (g : Bool) (d a b : VReg)
  /-- SHR_N_LANE: R371. -/
  | shrNLane (g : Bool) (d a b : VReg)
  /-- SHR_S_LANE: R371. -/
  | shrSLane (g : Bool) (d a b : VReg)
  /-- ROT_LANE: R371. -/
  | rotLane (g : Bool) (d a b : VReg)
  /-- SHL_UNIFORM: R371. -/
  | shlUniform (d a : GReg) (b : GReg6)
  /-- SHR_N_UNIFORM: R371. -/
  | shrNUniform (d a : GReg) (b : GReg6)
  /-- SHR_S_UNIFORM: R371. -/
  | shrSUniform (d a : GReg) (b : GReg6)
  /-- ROT_UNIFORM: R371. -/
  | rotUniform (d a : GReg) (b : GReg6)
  /-- POPC_LANE: R359. -/
  | popcLane (g : Bool) (d a : VReg)
  /-- CLZ_LANE: R317. -/
  | clzLane (g : Bool) (d a : VReg)
  /-- BREV_LANE: R313. -/
  | brevLane (g : Bool) (d a : VReg)
  /-- IABS_LANE: R335. -/
  | iabsLane (g : Bool) (d a : VReg)
  /-- INEG_LANE: R335. -/
  | inegLane (g : Bool) (d a : VReg)
  /-- POPC_UNIFORM: R359. -/
  | popcUniform (d a : GReg)
  /-- CLZ_UNIFORM: R317. -/
  | clzUniform (d a : GReg)
  /-- BREV_UNIFORM: R313. -/
  | brevUniform (d a : GReg)
  /-- IABS_UNIFORM: R335. -/
  | iabsUniform (d a : GReg)
  /-- INEG_UNIFORM: R335. -/
  | inegUniform (d a : GReg)
  /-- BFX_LANE: R311; len is the length less one. -/
  | bfxLane (g : Bool) (d a : VReg) (len pos : BitVec 5)
  /-- BFXS_LANE: R311; len is the length less one. -/
  | bfxsLane (g : Bool) (d a : VReg) (len pos : BitVec 5)
  /-- BFI_LANE: R311. -/
  | bfiLane (g : Bool) (d a b : VReg)
  /-- BFX_UNIFORM: R311. -/
  | bfxUniform (d a b : GReg)
  /-- BFXS_UNIFORM: R311. -/
  | bfxsUniform (d a b : GReg)
  /-- BFI_UNIFORM: R311. -/
  | bfiUniform (d a b : GReg)
  /-- LEA_LANE: R348. -/
  | leaLane (g : Bool) (d a b : VReg) (sh : BitVec 3)
  /-- LEA_UNIFORM: R348. -/
  | leaUniform (d a : GReg) (b : GReg6) (sh : BitVec 3)
  /-- MOVK_LANE: R353. -/
  | movkLane (g : Bool) (d : VReg) (imm : BitVec 16)
  /-- MOVK_HI_LANE: R353. -/
  | movkHiLane (g : Bool) (d : VReg) (imm : BitVec 16)
  /-- MOVK_UNIFORM: R353. -/
  | movkUniform (d : GReg) (imm : BitVec 16)
  /-- MOVK_HI_UNIFORM: R353. -/
  | movkHiUniform (d : GReg) (imm : BitVec 16)
  /-- FADD: R326, R327. -/
  | fadd (g : Bool) (t : FType) (d a b : VReg)
  /-- FSUB: R326, R327. -/
  | fsub (g : Bool) (t : FType) (d a b : VReg)
  /-- FMUL: R326, R327. -/
  | fmul (g : Bool) (t : FType) (d a b : VReg)
  /-- FMA: R326, R327. -/
  | fma (g : Bool) (t : FType) (d a b : VReg)
  /-- FMIN: R326, R327. -/
  | fmin (g : Bool) (t : FType) (d a b : VReg)
  /-- FMAX: R326, R327. -/
  | fmax (g : Bool) (t : FType) (d a b : VReg)
  /-- FABS: R324, R325. -/
  | fabs (g : Bool) (d a : VReg)
  /-- FNEG: R324, R325. -/
  | fneg (g : Bool) (d a : VReg)
  /-- FRND_RN: R324, R325. -/
  | frndRn (g : Bool) (d a : VReg)
  /-- FRND_RZ: R324, R325. -/
  | frndRz (g : Bool) (d a : VReg)
  /-- FRND_DN: R324, R325. -/
  | frndDn (g : Bool) (d a : VReg)
  /-- FRND_UP: R324, R325. -/
  | frndUp (g : Bool) (d a : VReg)
  /-- FRCP: R331. -/
  | frcp (g : Bool) (d a : VReg)
  /-- FRSQ: R331. -/
  | frsq (g : Bool) (d a : VReg)
  /-- FSQRT: R331. -/
  | fsqrt (g : Bool) (d a : VReg)
  /-- FEXP2: R331. -/
  | fexp2 (g : Bool) (d a : VReg)
  /-- FLOG2: R331. -/
  | flog2 (g : Bool) (d a : VReg)
  /-- CVT: R319, R320. -/
  | cvt (g : Bool) (d a : VReg) (src dst : Ty) (rm : Rm)
  /-- CVTS_E4M3_PACK: R321, R88. -/
  | cvtsE4m3Pack (g : Bool) (d a b : VReg) (bsel : BitVec 2)
  /-- CVTS_E4M3_UNPACK: R321, R88. -/
  | cvtsE4m3Unpack (g : Bool) (d a b : VReg) (bsel : BitVec 2)
  /-- CVTS_E5M2_PACK: R321, R88. -/
  | cvtsE5m2Pack (g : Bool) (d a b : VReg) (bsel : BitVec 2)
  /-- CVTS_E5M2_UNPACK: R321, R88. -/
  | cvtsE5m2Unpack (g : Bool) (d a b : VReg) (bsel : BitVec 2)
  /-- CVTS_E2M1_PACK: R321, R88. -/
  | cvtsE2m1Pack (g : Bool) (d a b : VReg) (bsel : BitVec 2)
  /-- CVTS_E2M1_UNPACK: R321, R88. -/
  | cvtsE2m1Unpack (g : Bool) (d a b : VReg) (bsel : BitVec 2)
  /-- ICMP_LANE: R338. -/
  | icmpLane (g : Bool) (c : ICond) (p : PReg) (a b : VReg)
  /-- ICMP_UNIFORM: R338. -/
  | icmpUniform (c : ICond) (p : GPReg) (a b : GReg)
  /-- FCMP: R328. -/
  | fcmp (g : Bool) (c : FCond) (p : PReg) (a b : VReg)
  /-- PAND_LANE: R357. -/
  | pandLane (g : Bool) (p a b : PReg)
  /-- POR_LANE: R357. -/
  | porLane (g : Bool) (p a b : PReg)
  /-- PXOR_LANE: R357. -/
  | pxorLane (g : Bool) (p a b : PReg)
  /-- PANDN_LANE: R357. -/
  | pandnLane (g : Bool) (p a b : PReg)
  /-- PORN_LANE: R357. -/
  | pornLane (g : Bool) (p a b : PReg)
  /-- PAND_UNIFORM: R357. -/
  | pandUniform (p a b : GPReg)
  /-- POR_UNIFORM: R357. -/
  | porUniform (p a b : GPReg)
  /-- PXOR_UNIFORM: R357. -/
  | pxorUniform (p a b : GPReg)
  /-- PANDN_UNIFORM: R357. -/
  | pandnUniform (p a b : GPReg)
  /-- PORN_UNIFORM: R357. -/
  | pornUniform (p a b : GPReg)
  /-- GSEL: R332. -/
  | gsel (g : Bool) (p : PReg) (neg : Bool)
  /-- SEL: R368. -/
  | sel (d a b : VReg)
  /-- PPACK: R360. -/
  | ppack (g : Bool) (d : VReg) (q : BitVec 2)
  /-- PUNPACK: R360. -/
  | punpack (g : Bool) (a : VReg) (q : BitVec 2)
  /-- SHFL: R370. -/
  | shfl (g : Bool) (f : Shfl) (d a b : VReg)
  /-- VSCAN: R385. -/
  | vscan (g : Bool) (f : Scan) (d a : VReg)
  /-- VBAL: R383. -/
  | vbal (g : Bool) (d : VReg) (p : PReg)
  /-- VRED: R384. -/
  | vred (g : Bool) (f : Red) (d a : VReg)
  /-- LD_LANE: R345, R346. -/
  | ldLane (g : Bool) (sz : Size) (o : Order) (sc : Scope) (d base : VReg) (off : BitVec 3)
  /-- LD_UNIFORM: R345, R346. -/
  | ldUniform (o : Order) (sc : Scope) (d base : GReg) (off : BitVec 4)
  /-- ST_LANE: R375; d is the data. -/
  | stLane (g : Bool) (sz : Size) (o : Order) (sc : Scope) (d base : VReg) (off : BitVec 3)
  /-- ST_UNIFORM: R375; d is the data. -/
  | stUniform (o : Order) (sc : Scope) (d base : GReg) (off : BitVec 4)
  /-- LDQ: R347. -/
  | ldq (g : Bool) (sc : Scope) (q : VReg) (base : VReg) (off : BitVec 3)
  /-- PREF: R361. -/
  | pref (g : Bool) (sc : Scope) (base : VReg) (off : BitVec 3)
  /-- BRA_LANE: R312. -/
  | braLane (g : Bool) (p : PReg) (neg : Bool) (off : BitVec 16)
  /-- BRA_UNIFORM: R312. -/
  | braUniform (p : GPReg) (neg : Bool) (off : BitVec 20)
  /-- JMP_LANE: R343. -/
  | jmpLane (g : Bool) (a : VReg)
  /-- JMP_UNIFORM: R343. -/
  | jmpUniform (a : GReg)
  /-- CALL_LANE: R315. -/
  | callLane (g : Bool) (d a : VReg)
  /-- CALL_UNIFORM: R315. -/
  | callUniform (d a : GReg)
  /-- NOP: R355. -/
  | nop (g : Bool)
  /-- EXIT: R323. -/
  | exit (g : Bool)
  /-- YIELD: R387. -/
  | yield (g : Bool)
  /-- SPAWN: R20, R372; n is the argument count less one. -/
  | spawn (g : Bool) (a b : VReg) (n : BitVec 3)
  /-- RJSET: R76. -/
  | rjset (g : Bool) (cv : CvNum)
  /-- RJWAIT: R77. -/
  | rjwait (g : Bool) (cv : CvNum)
  /-- TRAP: R381. -/
  | trap (g : Bool) (code : BitVec 10)
  /-- BRK: R314. -/
  | brk (g : Bool)
  /-- ATOM: R307; wide is b64. -/
  | atom (g : Bool) (op : AOp) (wide : Bool) (o : Order) (sc : Scope) (ord : Bool) (d a b : VReg) (imm : BitVec 9)
  /-- ATOM_UNIFORM: R307. -/
  | atomUniform (op : AOp) (wide : Bool) (o : Order) (sc : Scope) (ord : Bool) (c a b : GReg)
  /-- RED: R362. -/
  | red (g : Bool) (op : AOp) (wide : Bool) (o : Order) (sc : Scope) (ord : Bool) (a b : VReg) (imm : BitVec 9)
  /-- CPA: R318. -/
  | cpa (g : Bool) (sz : Size) (nb : Bool) (d a : VReg) (h : BitVec 9)
  /-- STCMP: R376. -/
  | stcmp (g : Bool) (wide : Bool) (o : Order) (sc : Scope) (ord neg : Bool) (a b : VReg) (p : PReg)
  /-- HLD: R333, R334. -/
  | hld (g : Bool) (sz : Size) (d a b : VReg) (imm : BitVec 9)
  /-- HST: R333, R334. -/
  | hst (g : Bool) (sz : Size) (a b c : VReg) (imm : BitVec 9)
  /-- AMSEND: R193, R305. -/
  | amsend (g : Bool) (rel sys addr : Bool) (a b c : VReg)
  /-- RTRET: R203, R367. -/
  | rtret (g : Bool) (rel : Bool) (a b : VReg)
  /-- MOVX: R354. -/
  | movx (d a : GReg10)
  /-- BCAST: R310. -/
  | bcast (d : VReg) (a : GReg)
  /-- PICK: R358. -/
  | pick (d : GReg) (a : VReg) (lane : BitVec 6)
  /-- FENCE: R329, R330. -/
  | fence (o : Order) (sc : Scope)
  /-- WAIT: R386. -/
  | wait (ld st cp tl : BitVec 6)
  /-- TRET: R250, R382. -/
  | tret 
  /-- ENTER: R284. -/
  | enter (id : BitVec 16)
  /-- LEAVE: R284. -/
  | leave (id : BitVec 16)
  /-- SREAD: R373. -/
  | sread (lane : Bool) (d : GReg) (n : BitVec 6)
  /-- SWRITE: R373. -/
  | swrite (lane : Bool) (a : GReg) (n : BitVec 6)
  /-- BINIT: R309. -/
  | binit (a b : GReg)
  /-- BARV: R309. -/
  | barv (exp : Bool) (d a b : GReg)
  /-- BWAIT: R309. -/
  | bwait (a b : GReg)
  /-- BEXP: R309. -/
  | bexp (a b : GReg)
  /-- BINVAL: R309. -/
  | binval (a : GReg)
  /-- ORDREL: R356. -/
  | ordrel 
  /-- SHLD: R369. -/
  | shld (cv : CvNum) (t : TileNum) (a : GReg)
  /-- SHEV: R369. -/
  | shev (cv : CvNum) (t : TileNum)
  /-- TLD: R378. -/
  | tld (cv : CvNum) (bh : Bool) (t : TileNum) (a b c : GReg)
  /-- TST: R378. -/
  | tst (cv : CvNum) (t : TileNum) (a b c : GReg)
  /-- MLDB: R349, R350. -/
  | mldb (cv : CvNum) (ty : Ty) (sc lt : Bool) (mask : BitVec 4) (a b c : GReg)
  /-- MMA: R351, R352. -/
  | mma (cv : CvNum) (ty : Ty) (mode : BitVec 4) (sc rv h : Bool) (t : TileNum) (a b : GReg) (v : VReg)
  /-- TOPEN: R379, R380. -/
  | topen (cv : CvNum) (auto : Bool) (t : TileNum) (a : GReg)
  /-- TREAD: R379, R380. -/
  | tread (cv : CvNum) (ty : Ty) (h : Bool) (t : TileNum) (a b : GReg)
  /-- TREAD_STAT: R379, R380. -/
  | treadStat (cv : CvNum) (t : TileNum) (c : GReg)
  /-- TRED: R379, R380. -/
  | tred (cv : CvNum) (h : Bool) (t : TileNum) (a b c : GReg)
  /-- ATTN: R166, R308; mode 0. -/
  | attn (cv : CvNum) (ty : Ty) (nb : Bool) (a b c : GReg)
  /-- ATTN_MAXIMA: R167; mode 1. -/
  | attnMaxima (cv : CvNum) (nb : Bool) (a b c : GReg)
  /-- ATTN_GIVEN: R167; mode 2. -/
  | attnGiven (cv : CvNum) (nb : Bool) (a b c : GReg)
  /-- ATTN_FINISH: R167; mode 3. -/
  | attnFinish (cv : CvNum) (ty : Ty) (nb : Bool) (a b c : GReg)
  /-- KVAPP: R162. -/
  | kvapp (cv : CvNum) (a b c : GReg)
  /-- KVFORK: R163. -/
  | kvfork (cv : CvNum) (a b c : GReg)
  /-- KVDROP: R164. -/
  | kvdrop (cv : CvNum) (a : GReg)
  /-- CINS: R179. -/
  | cins (cv : CvNum) (ord : Bool) (c : GReg) (v : VReg)
  /-- CMRG: R181. -/
  | cmrg (cv : CvNum) (bound : Bool) (c : GReg)
  /-- CRD_CENT: R182. -/
  | crdCent (cv : CvNum) (v : VReg) (a : GReg)
  /-- CRD_SUM: R182. -/
  | crdSum (cv : CvNum) (v : VReg) (a : GReg)
  /-- CRD_CNT: R182. -/
  | crdCnt (cv : CvNum) (c a : GReg)
  /-- CRD_STAT: R182. -/
  | crdStat (cv : CvNum) (c : GReg)
  /-- CCFG: R177. -/
  | ccfg (cv : CvNum) (a : GReg)
  /-- CCFG_KEEP: R177. -/
  | ccfgKeep (cv : CvNum) (a : GReg)
  /-- CCFG_FREE: R177. -/
  | ccfgFree (cv : CvNum)
  /-- SSMLD: R189. -/
  | ssmld (cv : CvNum) (a : GReg)
  /-- SSMSCAN: R188. -/
  | ssmscan (cv : CvNum) (t : TileNum) (a b : GReg)
  /-- SSMSTEP: R188. -/
  | ssmstep (cv : CvNum) (t : TileNum) (a b : GReg)
  /-- SSMST: R189. -/
  | ssmst (cv : CvNum) (a : GReg)
  /-- SSMST_FREE: R189. -/
  | ssmstFree (cv : CvNum) (a : GReg)
  /-- ROUTE: R199, R364. -/
  | route (cv : CvNum) (bf16 : Bool) (pol : Policy) (k : BitVec 2) (h nb rv : Bool) (t : TileNum) (a b c : GReg) (v : VReg)
  /-- RTBIND: R198. -/
  | rtbind (cv : CvNum) (a b : GReg)
  /-- RTRD: R207. -/
  | rtrd (cv : CvNum) (v : VReg) (c a : GReg)
  /-- RTRD_FREE: R207. -/
  | rtrdFree (cv : CvNum) (v : VReg) (c a : GReg)
  /-- SVRD: R227. -/
  | svrd (cv : CvNum) (c a : GReg)
  /-- SVWR: R227. -/
  | svwr (cv : CvNum) (a b : GReg)
  /-- SVCLR: R227. -/
  | svclr (cv : CvNum) (a : GReg)
  /-- SVSAVE: R228. -/
  | svsave (cv : CvNum) (slice : Bool) (a b : GReg)
  /-- SVLOAD: R228. -/
  | svload (cv : CvNum) (slice : Bool) (a b : GReg)
  /-- AMBIND: R195. -/
  | ambind (cv : CvNum) (a b : GReg)
  /-- AMBIND_ALL: R195. -/
  | ambindAll (cv : CvNum) (a b : GReg)
  /-- AMBIND_INBOX: R195. -/
  | ambindInbox (cv : CvNum) (a : GReg)
  /-- AMBIND_NONE: R195. -/
  | ambindNone (cv : CvNum) (a : GReg)
  -- Events: steps of the device and of the host that no word encodes.
  /-- ILLEGAL_OP: R58. -/
  | illegalOp 
  /-- INSTRUCTION_FETCH_FAULT: R312. -/
  | instructionFetchFault (cause : FetchCause)
  /-- FIBRE_AGED: R71. -/
  | fibreAged (gid : Nat)
  /-- BIN_TIMER_EXPIRY: R22. -/
  | binTimerExpiry (core bin : Nat)
  /-- BIN_LAUNCH: R22. -/
  | binLaunch (core bin : Nat)
  /-- OVERFLOW_REDELIVERY: R23. -/
  | overflowRedelivery (owner core : Nat)
  /-- AM_ARRIVAL: R194. -/
  | amArrival (i : Nat)
  /-- PEER_PORT_TRANSFER: R37. -/
  | peerPortTransfer (gid port : Nat)
  /-- LOAD_COMPLETION: R132; the lanes whose access is performed. -/
  | loadCompletion (gid seq : Nat) (lanes : LaneMask)
  /-- STORE_PERFORMED: R132; the lanes whose access is performed. -/
  | storePerformed (gid seq : Nat) (lanes : LaneMask)
  /-- LDQ_FILL: R347. -/
  | ldqFill (gid seq : Nat)
  /-- SERVICE_GROUP_ATOMIC: R148. -/
  | serviceGroupAtomic (cluster : Nat)
  /-- SECTOR_LANDING: R140. -/
  | sectorLanding (team i : Nat)
  /-- CPA_LINE_TRANSFER: R318. -/
  | cpaLineTransfer (gid seq : Nat)
  /-- TLD_COMPLETE: R103, R132. -/
  | tldComplete (core cmd : Nat)
  /-- TST_COMPLETE: R103, R132. -/
  | tstComplete (core cmd : Nat)
  /-- MLDB_COMPLETE: R103, R132. -/
  | mldbComplete (core cmd : Nat)
  /-- MMA_COMPLETE: R103, R132. -/
  | mmaComplete (core cmd : Nat)
  /-- TRED_COMPLETE: R103, R132. -/
  | tredComplete (core cmd : Nat)
  /-- ENGINE_COMMAND_COMPLETE: R103, R132. -/
  | engineCommandComplete (core cmd : Nat)
  /-- KV_ACCEPT: R160. -/
  | kvAccept 
  /-- ATTN_PHASE1: R170. -/
  | attnPhase1 (id : Nat)
  /-- ATTN_PHASE2: R171. -/
  | attnPhase2 (id : Nat)
  /-- ATTN_COMPLETE: R173. -/
  | attnComplete (id : Nat)
  /-- ROUTE_ACCEPT: R200. -/
  | routeAccept (core : Nat)
  /-- ROUTE_PAIR_SEND: R202. -/
  | routePairSend (core ent : Nat)
  /-- ROUTE_SPILL_REPLAY: R388. -/
  | routeSpillReplay (core ent : Nat)
  /-- ROUTE_RETURN: R204. -/
  | routeReturn (i : Nat)
  /-- DROP_NOTICE: R205. -/
  | dropNotice (i : Nat)
  /-- ROUTE_TIMEOUT: R205. -/
  | routeTimeout (core ent : Nat)
  /-- ORDERED_WINDOW_OPEN: R151. -/
  | orderedWindowOpen (launch : Nat)
  /-- PREFETCH_LAND: R218. -/
  | prefetchLand (core slot : Nat)
  /-- SLICE_BANK_SWITCH: R214. -/
  | sliceBankSwitch (slice owner : Nat)
  /-- ECC_PATROL: R123. -/
  | eccPatrol (line : Nat)
  /-- DRAIN_END: R252. -/
  | drainEnd (owner : Nat)
  /-- DRAIN_TIMEOUT: R252. -/
  | drainTimeout (owner : Nat)
  /-- CORE_DUMP: R256. -/
  | coreDump (owner : Nat)
  /-- DOMAIN_RESET: R260. -/
  | domainReset (dom : Nat)
  /-- WATCHDOG: R255. -/
  | watchdog (owner detail : Nat)
  /-- GROUP_RETIRE: R29. -/
  | groupRetire (gid : Nat)
  /-- LAUNCH_END: R30. -/
  | launchEnd (launch : Nat)
  /-- DOORBELL: R233. -/
  | doorbell (dom : Nat)
  /-- QUEUE_PULL: R233. -/
  | queuePull (owner q : Nat)
  /-- DEPENDENCE_RECHECK: R234. -/
  | dependenceRecheck 
  /-- LAUNCH_BEGIN: R233. -/
  | launchBegin (owner q : Nat)
  /-- FENCE_RECORD_COMPLETE: R234. -/
  | fenceRecordComplete (owner q : Nat)
  /-- TEAM_PLACEMENT: R237; one core for each group, or empty for the default heuristic. -/
  | teamPlacement (team : TeamRef) (cores : List Nat)
  /-- STARVATION_LIMIT: R237. -/
  | starvationLimit (who : Waiter) (cluster : Nat)
  /-- SECOND_STARVATION_LIMIT: R237. -/
  | secondStarvationLimit (cluster : Nat) (victims : List Nat)
  /-- TIME_SLICE_EXPIRY: R232. -/
  | timeSliceExpiry (team : Nat) (chosen : Bool)
  /-- PREEMPTION: R240. -/
  | preemption (team : Nat)
  /-- PREEMPTION_SAVE: R240. -/
  | preemptionSave (team : Nat)
  /-- RESUME: R241. -/
  | resume (saved : Nat) (cores : List Nat)
  /-- TWIN_COMPARE: R282. -/
  | twinCompare (launch team : Nat)
  /-- TRACE_SAMPLE: R288. -/
  | traceSample (core dom : Nat)
  /-- PACKET_URGENT: R268. -/
  | packetUrgent (i : Nat)
  /-- ROUTER_POWER_DOWN: R270. -/
  | routerPowerDown (r : Nat)
  /-- ROUTER_WAKE: R270. -/
  | routerWake (r : Nat)
  /-- ROUTER_WAKE_END: R270. -/
  | routerWakeEnd (r : Nat)
  /-- C_PACKET_MERGE: R272. -/
  | cPacketMerge (i j : Nat)
  /-- LINK_DOWN: R275. -/
  | linkDown (k : Nat)
  /-- LINK_UP: R275. -/
  | linkUp (k : Nat)
  /-- CREATE_CONTEXT: R296 OP 0x01. -/
  | createContext (mgmt : Bool) (dom seq : Nat) (desc : Nat)
  /-- DESTROY_CONTEXT: R296 OP 0x02. -/
  | destroyContext (mgmt : Bool) (dom seq : Nat) (owner : Nat)
  /-- PAGE_ABSENT_REPLY: R245, OP 0x03. -/
  | pageAbsentReply (mgmt : Bool) (dom seq : Nat) (gid : Nat) (resolved : Bool)
  /-- INSTALL_HANDLER_TABLE: R247, OP 0x04. -/
  | installHandlerTable (mgmt : Bool) (dom seq : Nat) (table : List Word)
  /-- DUMP_CONFIGURATION: R256, OP 0x05. -/
  | dumpConfiguration (mgmt : Bool) (dom seq : Nat) (en : Bool) (base size : Nat)
  /-- ACKNOWLEDGE_DUMP_READY: R256, OP 0x06. -/
  | acknowledgeDumpReady (mgmt : Bool) (dom seq : Nat)
  /-- REPLAY_SETTING: R261, OP 0x07. -/
  | replaySetting (mgmt : Bool) (dom seq : Nat) (n : Nat)
  /-- RESTART_QUEUES: R261, OP 0x08. -/
  | restartQueues (mgmt : Bool) (dom seq : Nat)
  /-- TRACE_RING: R287, OP 0x09. -/
  | traceRing (mgmt : Bool) (dom seq : Nat) (base size mask period : Nat)
  /-- DEBUGGER_HOLD_STOP_RESUME: R286, OP 0x0A. -/
  | debuggerHoldStopResume (mgmt : Bool) (dom seq : Nat) (act : DebugAct)
  /-- PROFILING_SESSION: R292, OP 0x0B. -/
  | profilingSession (mgmt : Bool) (dom seq : Nat) (device : Bool) (events : List Nat) (pc kernel : Nat) (snapshot : Option Nat)
  /-- EVENT_RING: R297, OP 0x0C. -/
  | eventRing (mgmt : Bool) (dom seq : Nat) (base size : Nat)
  /-- FIRMWARE_POLICY: R232, OP 0x20. -/
  | firmwarePolicy (mgmt : Bool) (dom seq : Nat) (p : PolicyArgs)
  /-- SYSTEM_MAP: R273, OP 0x21. -/
  | systemMap (mgmt : Bool) (dom seq : Nat) (dev : BitVec 12) (slots : List PeerArgs)
  /-- FIRMWARE_LOAD: R298, OP 0x22. -/
  | firmwareLoad (mgmt : Bool) (dom seq : Nat) (image : List Byte)
  /-- PHYSICAL_RANGES: R123, OP 0x23. -/
  | physicalRanges (mgmt : Bool) (dom seq : Nat) (target : Nat) (ranges : List (Nat × Nat))
  /-- DEVICE_RESET_RELEASE: R298. -/
  | deviceResetRelease 
  /-- MEMORY_TRAINING: R298. -/
  | memoryTraining (fail : BitVec 12)
  /-- POWER_THROTTLE: R299. -/
  | powerThrottle (die : BitVec 2) (current temp : Bool)
  /-- REGISTER_WRITE: R8. -/
  | registerWrite (offset len : Nat) (value : DWord)
  /-- ROUTER_POWER_DOWN_COMMIT: R270. -/
  | routerPowerDownCommit (r : Nat)
  /-- REMOTE_ACCESS: R274. -/
  | remoteAccess (acc : PeerAccess) (wide : Bool) (pa : Nat) (data : List Byte)
  /-- HOST_MEMORY_ACCESS: R294. -/
  | hostMemoryAccess (write : Bool) (pa : Nat) (data : List Byte)
  /-- POWER_CAP: R299. -/
  | powerCap (steps : Nat)
  /-- CONTEXT_MIGRATION: R293. -/
  | contextMigration (dom : Nat) (present : List Nat)
  /-- PAGE_UNMAP: R116. -/
  | pageUnmap (core page : Nat)
  deriving DecidableEq, Repr

/-- Whether a row is an event, a step that no instruction word encodes. -/
def Instr.isEvent : Instr → Bool
  | .illegalOp .. => true
  | .instructionFetchFault .. => true
  | .fibreAged .. => true
  | .binTimerExpiry .. => true
  | .binLaunch .. => true
  | .overflowRedelivery .. => true
  | .amArrival .. => true
  | .peerPortTransfer .. => true
  | .loadCompletion .. => true
  | .storePerformed .. => true
  | .ldqFill .. => true
  | .serviceGroupAtomic .. => true
  | .sectorLanding .. => true
  | .cpaLineTransfer .. => true
  | .tldComplete .. => true
  | .tstComplete .. => true
  | .mldbComplete .. => true
  | .mmaComplete .. => true
  | .tredComplete .. => true
  | .engineCommandComplete .. => true
  | .kvAccept .. => true
  | .attnPhase1 .. => true
  | .attnPhase2 .. => true
  | .attnComplete .. => true
  | .routeAccept .. => true
  | .routePairSend .. => true
  | .routeSpillReplay .. => true
  | .routeReturn .. => true
  | .dropNotice .. => true
  | .routeTimeout .. => true
  | .orderedWindowOpen .. => true
  | .prefetchLand .. => true
  | .sliceBankSwitch .. => true
  | .eccPatrol .. => true
  | .drainEnd .. => true
  | .drainTimeout .. => true
  | .coreDump .. => true
  | .domainReset .. => true
  | .watchdog .. => true
  | .groupRetire .. => true
  | .launchEnd .. => true
  | .doorbell .. => true
  | .queuePull .. => true
  | .dependenceRecheck .. => true
  | .launchBegin .. => true
  | .fenceRecordComplete .. => true
  | .teamPlacement .. => true
  | .starvationLimit .. => true
  | .secondStarvationLimit .. => true
  | .timeSliceExpiry .. => true
  | .preemption .. => true
  | .preemptionSave .. => true
  | .resume .. => true
  | .twinCompare .. => true
  | .traceSample .. => true
  | .packetUrgent .. => true
  | .routerPowerDown .. => true
  | .routerWake .. => true
  | .routerWakeEnd .. => true
  | .cPacketMerge .. => true
  | .linkDown .. => true
  | .linkUp .. => true
  | .createContext .. => true
  | .destroyContext .. => true
  | .pageAbsentReply .. => true
  | .installHandlerTable .. => true
  | .dumpConfiguration .. => true
  | .acknowledgeDumpReady .. => true
  | .replaySetting .. => true
  | .restartQueues .. => true
  | .traceRing .. => true
  | .debuggerHoldStopResume .. => true
  | .profilingSession .. => true
  | .eventRing .. => true
  | .firmwarePolicy .. => true
  | .systemMap .. => true
  | .firmwareLoad .. => true
  | .physicalRanges .. => true
  | .deviceResetRelease .. => true
  | .memoryTraining .. => true
  | .powerThrottle .. => true
  | .registerWrite .. => true
  | .routerPowerDownCommit .. => true
  | .remoteAccess .. => true
  | .hostMemoryAccess .. => true
  | .powerCap .. => true
  | .contextMigration .. => true
  | .pageUnmap .. => true
  | .iaddLane .. => false
  | .iaddUniform .. => false
  | .isubLane .. => false
  | .isubUniform .. => false
  | .iaddiLane .. => false
  | .iaddiUniform .. => false
  | .imulLane .. => false
  | .imulUniform .. => false
  | .imadLane .. => false
  | .imadUniform .. => false
  | .iminLane .. => false
  | .iminUniform .. => false
  | .imaxLane .. => false
  | .imaxUniform .. => false
  | .andLane .. => false
  | .orLane .. => false
  | .xorLane .. => false
  | .andnLane .. => false
  | .andUniform .. => false
  | .orUniform .. => false
  | .xorUniform .. => false
  | .andnUniform .. => false
  | .shlLane .. => false
  | .shrNLane .. => false
  | .shrSLane .. => false
  | .rotLane .. => false
  | .shlUniform .. => false
  | .shrNUniform .. => false
  | .shrSUniform .. => false
  | .rotUniform .. => false
  | .popcLane .. => false
  | .clzLane .. => false
  | .brevLane .. => false
  | .iabsLane .. => false
  | .inegLane .. => false
  | .popcUniform .. => false
  | .clzUniform .. => false
  | .brevUniform .. => false
  | .iabsUniform .. => false
  | .inegUniform .. => false
  | .bfxLane .. => false
  | .bfxsLane .. => false
  | .bfiLane .. => false
  | .bfxUniform .. => false
  | .bfxsUniform .. => false
  | .bfiUniform .. => false
  | .leaLane .. => false
  | .leaUniform .. => false
  | .movkLane .. => false
  | .movkHiLane .. => false
  | .movkUniform .. => false
  | .movkHiUniform .. => false
  | .fadd .. => false
  | .fsub .. => false
  | .fmul .. => false
  | .fma .. => false
  | .fmin .. => false
  | .fmax .. => false
  | .fabs .. => false
  | .fneg .. => false
  | .frndRn .. => false
  | .frndRz .. => false
  | .frndDn .. => false
  | .frndUp .. => false
  | .frcp .. => false
  | .frsq .. => false
  | .fsqrt .. => false
  | .fexp2 .. => false
  | .flog2 .. => false
  | .cvt .. => false
  | .cvtsE4m3Pack .. => false
  | .cvtsE4m3Unpack .. => false
  | .cvtsE5m2Pack .. => false
  | .cvtsE5m2Unpack .. => false
  | .cvtsE2m1Pack .. => false
  | .cvtsE2m1Unpack .. => false
  | .icmpLane .. => false
  | .icmpUniform .. => false
  | .fcmp .. => false
  | .pandLane .. => false
  | .porLane .. => false
  | .pxorLane .. => false
  | .pandnLane .. => false
  | .pornLane .. => false
  | .pandUniform .. => false
  | .porUniform .. => false
  | .pxorUniform .. => false
  | .pandnUniform .. => false
  | .pornUniform .. => false
  | .gsel .. => false
  | .sel .. => false
  | .ppack .. => false
  | .punpack .. => false
  | .shfl .. => false
  | .vscan .. => false
  | .vbal .. => false
  | .vred .. => false
  | .ldLane .. => false
  | .ldUniform .. => false
  | .stLane .. => false
  | .stUniform .. => false
  | .ldq .. => false
  | .pref .. => false
  | .braLane .. => false
  | .braUniform .. => false
  | .jmpLane .. => false
  | .jmpUniform .. => false
  | .callLane .. => false
  | .callUniform .. => false
  | .nop .. => false
  | .exit .. => false
  | .yield .. => false
  | .spawn .. => false
  | .rjset .. => false
  | .rjwait .. => false
  | .trap .. => false
  | .brk .. => false
  | .atom .. => false
  | .atomUniform .. => false
  | .red .. => false
  | .cpa .. => false
  | .stcmp .. => false
  | .hld .. => false
  | .hst .. => false
  | .amsend .. => false
  | .rtret .. => false
  | .movx .. => false
  | .bcast .. => false
  | .pick .. => false
  | .fence .. => false
  | .wait .. => false
  | .tret .. => false
  | .enter .. => false
  | .leave .. => false
  | .sread .. => false
  | .swrite .. => false
  | .binit .. => false
  | .barv .. => false
  | .bwait .. => false
  | .bexp .. => false
  | .binval .. => false
  | .ordrel .. => false
  | .shld .. => false
  | .shev .. => false
  | .tld .. => false
  | .tst .. => false
  | .mldb .. => false
  | .mma .. => false
  | .topen .. => false
  | .tread .. => false
  | .treadStat .. => false
  | .tred .. => false
  | .attn .. => false
  | .attnMaxima .. => false
  | .attnGiven .. => false
  | .attnFinish .. => false
  | .kvapp .. => false
  | .kvfork .. => false
  | .kvdrop .. => false
  | .cins .. => false
  | .cmrg .. => false
  | .crdCent .. => false
  | .crdSum .. => false
  | .crdCnt .. => false
  | .crdStat .. => false
  | .ccfg .. => false
  | .ccfgKeep .. => false
  | .ccfgFree .. => false
  | .ssmld .. => false
  | .ssmscan .. => false
  | .ssmstep .. => false
  | .ssmst .. => false
  | .ssmstFree .. => false
  | .route .. => false
  | .rtbind .. => false
  | .rtrd .. => false
  | .rtrdFree .. => false
  | .svrd .. => false
  | .svwr .. => false
  | .svclr .. => false
  | .svsave .. => false
  | .svload .. => false
  | .ambind .. => false
  | .ambindAll .. => false
  | .ambindInbox .. => false
  | .ambindNone .. => false

end Sys2Proof
end

