-- ==== Sys2Proof/WellFormed.lean ====
section
/-! DEFINITION. Which instructions the encoding admits: the register classes, pairs, ranges and code restrictions
that the decoder checks in step 1 of R59 (R41, R43, R45, R48, R50 to R55). Checks against the kernel's register
counts (step 2) depend on the state and stand in Machine/Operands.lean. -/

namespace Sys2Proof

/-- A lane register that is not a queue port (R41). -/
def VReg.plain (r : VReg) : Bool := r.toNat < 120

/-- A queue port number (R15). -/
def VReg.isPort (r : VReg) : Bool := 120 ≤ r.toNat

/-- An even lane register that starts a pair (R43, R52). -/
def VReg.pair (r : VReg) : Bool := r.toNat < 120 && r.toNat % 2 == 0

/-- An even uniform register that starts a pair (R7, R45). -/
def GReg.pair (r : GReg) : Bool := r.toNat % 2 == 0

/-- The register alignment of an access size: one register, an even pair or a quad (R43). -/
def VReg.fits (sz : Size) (r : VReg) : Bool :=
  match sz with
  | .b32 => r.plain
  | .b16 => r.plain
  | .b64 => r.pair
  | .b128 => r.plain && r.toNat % 4 == 0

/-- The sizes that each atomic operation lists (R50). -/
def AOp.sizeOk (op : AOp) (wide : Bool) : Bool :=
  match op with
  | .addX64 => wide
  | .faddF32 => !wide
  | _ => true

/-- Whether the operand of a lane atomic is a pair: b64 operands are, and add.x64 takes a pair (R307). -/
def atomOperandOk (op : AOp) (wide : Bool) (b : VReg) : Bool :=
  match op with
  | .cas => if wide then b.pair && b.toNat + 3 < 120 else b.plain && b.toNat + 1 < 120
  | _ => if wide then b.pair else b.plain

/-- The same for a uniform atomic, whose registers end at g255 (R45, R307). -/
def atomUOperandOk (op : AOp) (wide : Bool) (b : GReg) : Bool :=
  match op with
  | .cas => if wide then b.pair && b.toNat + 3 < 256 else b.toNat + 1 < 256
  | _ => if wide then b.pair else true

/-- Loads accept no order, .acq and .ar (R43, R345). -/
def Order.forLoad : Order → Bool
  | .rel => false
  | _ => true

/-- Stores accept no order, .rel and .ar (R43, R375). -/
def Order.forStore : Order → Bool
  | .acq => false
  | _ => true

/-- The type codes CVT accepts: 0x0 to 0x8 and 0xE (R48). -/
def Ty.forCvt : Ty → Bool
  | .s32 | .n32 | .f32 | .bf16 | .f16 | .s16 | .n16 | .s8 | .n8 | .s64 => true
  | _ => false

/-- The A types of MMA (R102). -/
def Ty.forA : Ty → Bool
  | .s4 | .s8 | .e2m1 | .e4m3 | .e5m2 | .bf16 | .f16 => true
  | _ => false

/-- The B types of MLDB (R102). -/
def Ty.forB : Ty → Bool
  | .s4 | .s8 | .e2m1 | .e4m3 | .e5m2 | .bf16 | .cb2 => true
  | _ => false

/-- The types TREAD accepts (R379). -/
def Ty.forTread : Ty → Bool
  | .s32 | .n32 | .f32 | .bf16 | .f16 | .s16 | .n16 | .s8 | .n8 | .e4m3 | .e5m2 | .s64 => true
  | _ => false

/-- The output types of ATTN (R166). -/
def Ty.forO : Ty → Bool
  | .f32 | .bf16 | .f16 => true
  | _ => false

/-- A CVT operand: .s64 takes an even pair, any other type one register or a queue port (R41, R319). -/
def cvtRegOk (t : Ty) (r : VReg) : Bool :=
  match t with
  | .s64 => r.pair
  | _ => true

/-- The numbers of the special registers that exist (R36): the others are reserved. -/
def srExists (n : BitVec 6) : Bool := n.toNat ≤ 0x12 || (0x18 ≤ n.toNat && n.toNat ≤ 0x1F)

/-- The special registers that SWRITE may name: FPCTL, PFDIST, QBIND and TRAPREC0 to TRAPREC7 (R36). -/
def srWritable (n : BitVec 6) : Bool :=
  n.toNat == 0x0E || n.toNat == 0x10 || n.toNat == 0x11 || (0x18 ≤ n.toNat && n.toNat ≤ 0x1F)

/-- The 64-bit special registers, PATHMASK and KARG (R36, R373). -/
def srWide (n : BitVec 6) : Bool := n.toNat == 0x04 || n.toNat == 0x0F

/-- The register field of SREAD and SWRITE: with L the low 7 bits name a lane register and bit 7 is zero (R54); a
64-bit register takes an even one (R373). -/
def srRegOk (lane : Bool) (wide : Bool) (r : GReg) : Bool :=
  (!lane || r.toNat < 120) && (!wide || r.toNat % 2 == 0)

/-- The tiles that an MMA of a mode writes end at t31 (R101, R351). -/
def mmaTilesOk (mode : BitVec 4) (t : TileNum) : Bool :=
  if mode.toNat == 4 then t.toNat + 3 < 32 else if mode.toNat == 5 then t.toNat + 1 < 32 else true

/-- The scale register field of MMA (R351): zero without .sc; with it v, and v+1 for .f4x1, are not queue ports. -/
def mmaScaleOk (mode : BitVec 4) (sc : Bool) (v : VReg) : Bool :=
  if sc then (if mode.toNat == 6 then v.toNat + 1 < 120 else v.plain) else v == 0

/-- The encoding checks of each instruction (R58, R59 step 1). Events have no encoding. -/
def Instr.wf : Instr → Bool
  | .cvt _ d a src dst _ => src.forCvt && dst.forCvt && src != dst && cvtRegOk src a && cvtRegOk dst d
  | .vbal _ d _ => d.pair
  | .ldLane _ sz o _ d base _ => o.forLoad && d.fits sz && base.pair
  | .ldUniform o _ _ base _ => o.forLoad && base.pair
  | .stLane _ sz o _ d base _ => o.forStore && d.fits sz && base.pair
  | .stUniform o _ _ base _ => o.forStore && base.pair
  | .ldq _ _ q base _ => q.isPort && base.pair
  | .pref _ sc base _ => (sc == .grp || sc == .clu) && base.pair
  | .jmpLane _ a => a.plain
  | .callLane _ d a => d.plain && a.plain
  | .spawn _ a b n => a.plain && b.toNat + n.toNat < 120
  | .rjset _ cv => cv != 0
  | .trap _ code => code != 0
  | .atom _ op wide _ _ _ d a b _ =>
      op.sizeOk wide && (if wide then d.pair else d.plain) && a.pair && atomOperandOk op wide b
  | .atomUniform op wide _ _ _ c a b =>
      op.sizeOk wide && (!wide || c.pair) && a.pair && atomUOperandOk op wide b
  | .red _ op wide o _ _ a b _ =>
      op.sizeOk wide && op != .exch && op != .cas && (o == .none || o == .rel) && a.pair && atomOperandOk op wide b
  | .cpa _ sz nb d a h => sz != .b16 && d.plain && a.pair && (!nb || h == 0)
  | .stcmp _ wide o _ _ _ a b _ => o.forStore && a.pair && (if wide then b.pair else b.plain)
  | .hld _ sz d a b _ => d.fits sz && a.pair && b.plain
  | .hst _ sz a b c _ => c.fits sz && a.pair && b.plain
  | .amsend _ _ _ addr a b c =>
      a.plain && c.toNat % 8 == 0 && c.toNat ≤ 112 && (if addr then b.pair else b == 0)
  | .rtret _ _ a b => a.pair && b.plain
  | .bcast d _ => d.plain
  | .pick _ a _ => a.plain
  | .fence o _ => o != .none
  | .sread lane d n => srExists n && srRegOk lane (srWide n) d
  | .swrite lane a n => srWritable n && srRegOk lane false a
  | .barv exp _ _ b => exp || b == 0
  | .shld _ _ a => a.pair
  | .tld _ bh _ _ _ c => !bh || c.toNat + 1 < 256
  | .mldb _ ty sc lt mask a b c =>
      ty.forB && mask != 0 && a.pair && (if sc then b.pair else b == 0) && (if lt then ty == .cb2 else c == 0)
  | .mma _ ty mode sc _ _ t _ _ v => ty.forA && mode.toNat < 7 && mmaTilesOk mode t && mmaScaleOk mode sc v
  | .tread _ ty _ _ a _ => ty.forTread && a.pair
  | .tred _ _ _ a _ _ => a.pair
  | .attn _ ty _ a b c => ty.forO && a.pair && b.toNat + 3 < 256 && c.pair
  | .attnMaxima _ _ a b c => a.pair && b.toNat + 3 < 256 && c.pair
  | .attnGiven _ _ a b c => a.pair && b.toNat + 3 < 256 && c.pair
  | .attnFinish _ ty _ a b c => ty.forO && a.pair && b.pair && b.toNat + 3 < 256 && c.pair
  | .kvapp _ a _ _ => a.pair
  | .kvfork _ a _ c => a.pair && c.pair
  | .kvdrop _ a => a.pair
  | .cins _ _ _ v => v.plain
  | .crdCent _ v _ => v.plain
  | .crdSum _ v _ => v.pair
  | .crdStat _ c => c.pair
  | .ccfg _ a => a.pair
  | .ccfgKeep _ a => a.pair
  | .ssmld _ a => a.pair
  | .ssmst _ a => a.pair
  | .ssmstFree _ a => a.pair
  | .route _ _ _ _ _ _ _ _ _ b _ v => b.pair && b.toNat + 4 < 256 && v.toNat ≤ 117
  | .rtbind _ _ b => b.pair
  | .rtrd _ v _ _ => v.plain
  | .rtrdFree _ v _ _ => v.plain
  | .svrd _ c _ => c.toNat % 4 == 0
  | .svwr _ _ b => b.toNat % 4 == 0
  | .svsave _ slice a b => a.pair && (slice || b == 0)
  | .svload _ slice a b => a.pair && (slice || b == 0)
  | .ambind _ _ b => b.pair
  | .ambindAll _ _ b => b.pair
  | .iaddLane .. | .iaddUniform .. | .isubLane .. | .isubUniform .. | .iaddiLane .. | .iaddiUniform .. => true
  | .imulLane .. | .imulUniform .. | .imadLane .. | .imadUniform .. => true
  | .iminLane .. | .iminUniform .. | .imaxLane .. | .imaxUniform .. => true
  | .andLane .. | .orLane .. | .xorLane .. | .andnLane .. => true
  | .andUniform .. | .orUniform .. | .xorUniform .. | .andnUniform .. => true
  | .shlLane .. | .shrNLane .. | .shrSLane .. | .rotLane .. => true
  | .shlUniform .. | .shrNUniform .. | .shrSUniform .. | .rotUniform .. => true
  | .popcLane .. | .clzLane .. | .brevLane .. | .iabsLane .. | .inegLane .. => true
  | .popcUniform .. | .clzUniform .. | .brevUniform .. | .iabsUniform .. | .inegUniform .. => true
  | .bfxLane .. | .bfxsLane .. | .bfiLane .. | .bfxUniform .. | .bfxsUniform .. | .bfiUniform .. => true
  | .leaLane .. | .leaUniform .. | .movkLane .. | .movkHiLane .. | .movkUniform .. | .movkHiUniform .. => true
  | .fadd .. | .fsub .. | .fmul .. | .fma .. | .fmin .. | .fmax .. => true
  | .fabs .. | .fneg .. | .frndRn .. | .frndRz .. | .frndDn .. | .frndUp .. => true
  | .frcp .. | .frsq .. | .fsqrt .. | .fexp2 .. | .flog2 .. => true
  | .cvtsE4m3Pack .. | .cvtsE4m3Unpack .. | .cvtsE5m2Pack .. | .cvtsE5m2Unpack .. => true
  | .cvtsE2m1Pack .. | .cvtsE2m1Unpack .. => true
  | .icmpLane .. | .icmpUniform .. | .fcmp .. => true
  | .pandLane .. | .porLane .. | .pxorLane .. | .pandnLane .. | .pornLane .. => true
  | .pandUniform .. | .porUniform .. | .pxorUniform .. | .pandnUniform .. | .pornUniform .. => true
  | .gsel .. | .sel .. | .ppack .. | .punpack .. | .shfl .. | .vscan .. | .vred .. => true
  | .braLane .. | .braUniform .. | .jmpUniform .. | .callUniform .. => true
  | .nop .. | .exit .. | .yield .. | .rjwait .. | .brk .. => true
  | .movx .. | .wait .. | .tret | .enter .. | .leave .. => true
  | .binit .. | .bwait .. | .bexp .. | .binval .. | .ordrel => true
  | .shev .. | .tst .. | .topen .. | .treadStat .. => true
  | .cmrg .. | .crdCnt .. | .ccfgFree .. | .ssmscan .. | .ssmstep .. => true
  | .svclr .. | .ambindInbox .. | .ambindNone .. => true
  | .fibreAged .. | .binTimerExpiry .. | .binLaunch .. | .overflowRedelivery .. | .amArrival ..
  | .peerPortTransfer .. | .loadCompletion .. | .storePerformed .. | .ldqFill .. | .serviceGroupAtomic ..
  | .sectorLanding .. | .cpaLineTransfer .. | .tldComplete .. | .tstComplete .. | .mldbComplete ..
  | .mmaComplete .. | .tredComplete .. | .engineCommandComplete .. | .kvAccept .. | .attnPhase1 ..
  | .attnPhase2 .. | .attnComplete .. | .routeAccept .. | .routePairSend .. | .routeSpillReplay ..
  | .routeReturn .. | .dropNotice .. | .routeTimeout .. | .orderedWindowOpen .. | .prefetchLand ..
  | .sliceBankSwitch .. | .eccPatrol .. | .drainEnd .. | .drainTimeout .. | .coreDump .. | .domainReset ..
  | .watchdog .. | .groupRetire .. | .launchEnd .. | .doorbell .. | .queuePull .. | .dependenceRecheck ..
  | .launchBegin .. | .fenceRecordComplete .. | .teamPlacement .. | .starvationLimit ..
  | .secondStarvationLimit .. | .timeSliceExpiry .. | .preemption .. | .preemptionSave .. | .resume ..
  | .twinCompare .. | .traceSample .. | .packetUrgent .. | .routerPowerDown .. | .routerWake ..
  | .routerWakeEnd .. | .cPacketMerge .. | .linkDown .. | .linkUp .. | .createContext .. | .destroyContext ..
  | .pageAbsentReply .. | .installHandlerTable .. | .dumpConfiguration .. | .acknowledgeDumpReady ..
  | .replaySetting .. | .restartQueues .. | .traceRing .. | .debuggerHoldStopResume .. | .profilingSession ..
  | .eventRing .. | .firmwarePolicy .. | .systemMap .. | .firmwareLoad .. | .physicalRanges ..
  | .deviceResetRelease .. | .memoryTraining .. | .powerThrottle .. | .registerWrite .. | .illegalOp ..
  | .instructionFetchFault .. | .routerPowerDownCommit .. | .remoteAccess .. | .hostMemoryAccess ..
  | .powerCap .. | .contextMigration .. | .pageUnmap .. => false

end Sys2Proof
end

