-- ==== Sys2Proof/Decode.lean ====
section
/-! DEFINITION. Decoding of instruction words and the encoder, from the formats and maps of chapter 02 (R38 to R58) and
the bit lines of the reference entries. `decode` is total: it answers an instruction or the name of what it refuses. -/

namespace Sys2Proof

/-! ## Codes of the small fields (R47 to R50) -/

/-- The f code of IADD and ISUB (R336). -/
def Sat.bits : Sat → BitVec 3
  | .wrap => 0 | .sats => 1 | .satn => 2

/-- The saturation that an f code names; 3 to 7 are reserved (R336). -/
def Sat.ofBits (b : BitVec 3) : Option Sat :=
  match b.toNat with
  | 0 => some .wrap | 1 => some .sats | 2 => some .satn | _ => none

/-- The f code of IMUL (R342). -/
def MulPart.bits : MulPart → BitVec 3
  | .lo => 0 | .hiS => 1 | .hiN => 2

/-- The product part that an f code names; 3 to 7 are reserved (R342). -/
def MulPart.ofBits (b : BitVec 3) : Option MulPart :=
  match b.toNat with
  | 0 => some .lo | 1 => some .hiS | 2 => some .hiN | _ => none

/-- The type code f of FADD to FMAX (R326). -/
def FType.bits : FType → BitVec 3
  | .f32 => 0 | .bf16x2 => 1 | .f16x2 => 2

/-- The type that an f code names; 3 to 7 are reserved (R326). -/
def FType.ofBits (b : BitVec 3) : Option FType :=
  match b.toNat with
  | 0 => some .f32 | 1 => some .bf16x2 | 2 => some .f16x2 | _ => none

/-- The rounding field of CVT (R51). -/
def Rm.bits : Rm → BitVec 2
  | .rn => 0 | .rz => 1 | .dn => 2 | .up => 3

/-- The mode of a rounding field; FPCTL.RM uses the same codes (R36). -/
def Rm.ofBits (b : BitVec 2) : Rm :=
  match b.toNat with
  | 0 => .rn | 1 => .rz | 2 => .dn | _ => .up

/-- The cond code of ICMP (R49). -/
def ICond.bits : ICond → BitVec 3
  | .eq => 0 | .ne => 1 | .ltS => 2 | .leS => 3 | .gtS => 4 | .geS => 5 | .ltN => 6 | .geN => 7

/-- The condition of a cond code (R49). -/
def ICond.ofBits (b : BitVec 3) : ICond :=
  match b.toNat with
  | 0 => .eq | 1 => .ne | 2 => .ltS | 3 => .leS | 4 => .gtS | 5 => .geS | 6 => .ltN | _ => .geN

/-- The cond code of FCMP (R49). -/
def FCond.bits : FCond → BitVec 3
  | .eq => 0 | .ne => 1 | .lt => 2 | .le => 3 | .gt => 4 | .ge => 5 | .un => 6 | .num => 7

/-- The condition of a cond code (R49). -/
def FCond.ofBits (b : BitVec 3) : FCond :=
  match b.toNat with
  | 0 => .eq | 1 => .ne | 2 => .lt | 3 => .le | 4 => .gt | 5 => .ge | 6 => .un | _ => .num

/-- The f code of SHFL (R370); its bit 2 is zero. -/
def Shfl.bits : Shfl → BitVec 2
  | .idx => 0 | .up => 1 | .down => 2 | .xor => 3

/-- The form of an f code (R370). -/
def Shfl.ofBits (b : BitVec 2) : Shfl :=
  match b.toNat with
  | 0 => .idx | 1 => .up | 2 => .down | _ => .xor

/-- The f code of VSCAN (R385). -/
def Scan.bits : Scan → BitVec 2
  | .addExcl => 0 | .addIncl => 1 | .maxIncl => 2 | .minIncl => 3

/-- The scan of an f code (R385). -/
def Scan.ofBits (b : BitVec 2) : Scan :=
  match b.toNat with
  | 0 => .addExcl | 1 => .addIncl | 2 => .maxIncl | _ => .minIncl

/-- The f code of VRED (R384). -/
def Red.bits : Red → BitVec 2
  | .add => 0 | .maxS => 1 | .minS => 2 | .faddExact => 3

/-- The reduction of an f code (R384). -/
def Red.ofBits (b : BitVec 2) : Red :=
  match b.toNat with
  | 0 => .add | 1 => .maxS | 2 => .minS | _ => .faddExact

/-- The size code (R43). -/
def Size.bits : Size → BitVec 2
  | .b32 => 0 | .b64 => 1 | .b128 => 2 | .b16 => 3

/-- The size of a code (R43). -/
def Size.ofBits (b : BitVec 2) : Size :=
  match b.toNat with
  | 0 => .b32 | 1 => .b64 | 2 => .b128 | _ => .b16

/-- The size code of an operation that takes b32 or b64 (R52). -/
def wideBits (wide : Bool) : BitVec 2 := if wide then 1 else 0

/-- b32 or b64 of a size code; the others are refused (R50, R52). -/
def wideOf (b : BitVec 2) : Option Bool :=
  match b.toNat with
  | 0 => some false | 1 => some true | _ => none

/-- The order code (R47). -/
def Order.bits : Order → BitVec 2
  | .none => 0 | .acq => 1 | .rel => 2 | .ar => 3

/-- The order of a code (R47). -/
def Order.ofBits (b : BitVec 2) : Order :=
  match b.toNat with
  | 0 => .none | 1 => .acq | 2 => .rel | _ => .ar

/-- The scope code (R47). -/
def Scope.bits : Scope → BitVec 3
  | .grp => 0 | .team => 1 | .core => 2 | .clu => 3 | .dev => 4 | .sys => 5

/-- The scope of a code; 6 and 7 are reserved (R47). -/
def Scope.ofBits (b : BitVec 3) : Option Scope :=
  match b.toNat with
  | 0 => some .grp | 1 => some .team | 2 => some .core | 3 => some .clu | 4 => some .dev | 5 => some .sys
  | _ => none

/-- The atomic operation code (R50). -/
def AOp.bits : AOp → BitVec 5
  | .add => 0 | .minS => 1 | .minN => 2 | .maxS => 3 | .maxN => 4 | .and => 5 | .or => 6 | .xor => 7
  | .exch => 8 | .cas => 9 | .addX64 => 10 | .faddF32 => 11

/-- The operation of a code; 0x0C to 0x1F are reserved (R50). -/
def AOp.ofBits (b : BitVec 5) : Option AOp :=
  match b.toNat with
  | 0 => some .add | 1 => some .minS | 2 => some .minN | 3 => some .maxS | 4 => some .maxN | 5 => some .and
  | 6 => some .or | 7 => some .xor | 8 => some .exch | 9 => some .cas | 10 => some .addX64 | 11 => some .faddF32
  | _ => none

/-- The type code (R48). -/
def Ty.bits : Ty → BitVec 4
  | .s32 => 0 | .n32 => 1 | .f32 => 2 | .bf16 => 3 | .f16 => 4 | .s16 => 5 | .n16 => 6 | .s8 => 7
  | .n8 => 8 | .s4 => 9 | .e4m3 => 10 | .e5m2 => 11 | .e2m1 => 12 | .cb2 => 13 | .s64 => 14

/-- The type of a code; 0xF is reserved (R48). -/
def Ty.ofBits (b : BitVec 4) : Option Ty :=
  match b.toNat with
  | 0 => some .s32 | 1 => some .n32 | 2 => some .f32 | 3 => some .bf16 | 4 => some .f16 | 5 => some .s16
  | 6 => some .n16 | 7 => some .s8 | 8 => some .n8 | 9 => some .s4 | 10 => some .e4m3 | 11 => some .e5m2
  | 12 => some .e2m1 | 13 => some .cb2 | 14 => some .s64 | _ => none

/-- The policy code of ROUTE (R199). -/
def Policy.bits : Policy → BitVec 2
  | .stall => 0 | .drop => 1 | .spill => 2

/-- The policy of a code; 3 is reserved (R199). -/
def Policy.ofBits (b : BitVec 2) : Option Policy :=
  match b.toNat with
  | 0 => some .stall | 1 => some .drop | 2 => some .spill | _ => none

/-! ## Formats (R40, R44) -/

/-- Format LR (R40). -/
def fmtLR (major : BitVec 6) (g : Bool) (d a b : BitVec 7) (f : BitVec 3) : Word :=
  0#1 ++ major ++ BitVec.ofBool g ++ d ++ a ++ b ++ f

/-- Format LI (R40). -/
def fmtLI (major : BitVec 6) (g : Bool) (d a : BitVec 7) (imm : BitVec 10) : Word :=
  0#1 ++ major ++ BitVec.ofBool g ++ d ++ a ++ imm

/-- Formats LK and LB (R40): d or p, then h or n, then 16 bits. -/
def fmtLK (major : BitVec 6) (g : Bool) (d : BitVec 7) (h : Bool) (imm : BitVec 16) : Word :=
  0#1 ++ major ++ BitVec.ofBool g ++ d ++ BitVec.ofBool h ++ imm

/-- Format LM (R40). -/
def fmtLM (major : BitVec 6) (g : Bool) (d base : BitVec 7) (off : BitVec 3) (sz o : BitVec 2) (sc : BitVec 3) : Word :=
  0#1 ++ major ++ BitVec.ofBool g ++ d ++ base ++ off ++ sz ++ o ++ sc

/-- Word 1 of format LW (R40). -/
def fmtLW1 (op : BitVec 5) (o : BitVec 2) (sc : BitVec 3) (sz : BitVec 2) (c : BitVec 7) (fl : BitVec 4)
    (imm : BitVec 9) : Word :=
  op ++ o ++ sc ++ sz ++ c ++ fl ++ imm

/-- Format GR (R44). -/
def fmtGR (major : BitVec 6) (d a b : BitVec 8) (s : Bool) : Word :=
  1#1 ++ major ++ d ++ a ++ b ++ BitVec.ofBool s

/-- Format GRF (R44). -/
def fmtGRF (major : BitVec 6) (d a : BitVec 8) (b : BitVec 6) (f : BitVec 3) : Word :=
  1#1 ++ major ++ d ++ a ++ b ++ f

/-- Format GI (R44). -/
def fmtGI (major : BitVec 6) (d a : BitVec 8) (imm : BitVec 9) : Word :=
  1#1 ++ major ++ d ++ a ++ imm

/-- Format GK (R44). -/
def fmtGK (major : BitVec 6) (d : BitVec 8) (h : Bool) (imm : BitVec 16) : Word :=
  1#1 ++ major ++ d ++ BitVec.ofBool h ++ imm

/-- Format GX (R44). -/
def fmtGX (major : BitVec 6) (d a : BitVec 10) : Word :=
  1#1 ++ major ++ d ++ a ++ 0#5

/-- Format GM (R44). -/
def fmtGM (major : BitVec 6) (d base : BitVec 8) (off : BitVec 4) (o : BitVec 2) (sc : BitVec 3) : Word :=
  1#1 ++ major ++ d ++ base ++ off ++ o ++ sc

/-- Format GC (R44). -/
def fmtGC (major : BitVec 6) (p : BitVec 4) (c : BitVec 4) (a b : BitVec 8) : Word :=
  1#1 ++ major ++ p ++ c ++ a ++ b ++ 0#1

/-- Format GT (R44). -/
def fmtGT (major : BitVec 6) (ld st cp tl : BitVec 6) : Word :=
  1#1 ++ major ++ 0#1 ++ ld ++ st ++ cp ++ tl

/-- Format GB (R44). -/
def fmtGB (major : BitVec 6) (p : BitVec 4) (n : Bool) (off : BitVec 20) : Word :=
  1#1 ++ major ++ p ++ BitVec.ofBool n ++ off

/-- Word 0 of format GW (R44). -/
def fmtGW0 (major : BitVec 6) (sub : BitVec 5) (a b : BitVec 8) (misc : BitVec 4) : Word :=
  1#1 ++ major ++ sub ++ a ++ b ++ misc

/-- Word 1 of format GW, the engine template (R44, R46). -/
def fmtGW1 (t : BitVec 5) (cv : BitVec 4) (v : BitVec 7) (fmt mode : BitVec 4) (c : BitVec 8) : Word :=
  t ++ cv ++ v ++ fmt ++ mode ++ c

/-- Word 1 of uniform ATOM (R53). -/
def fmtGA1 (ord : Bool) (sc : BitVec 3) (c : BitVec 8) : Word :=
  0#16 ++ BitVec.ofBool ord ++ sc ++ 0#4 ++ c

/-- A field of a word: bits [lo + len - 1 : lo]. -/
abbrev fld (w : Word) (lo len : Nat) : BitVec len := w.extractLsb' lo len

/-- Bit `i` of a word. -/
abbrev bit (w : Word) (i : Nat) : Bool := w.getLsbD i

/-- An instruction when the fields that must be zero are zero (R58). -/
def zeroed (ok : Bool) (i : Instr) : Option Instr := if ok then some i else none

/-! ## The lane map (R51, R52) -/

/-- Two-word lane instructions, major 0x3E (R52). -/
def decodeLW (w0 w1 : Word) : Option Instr :=
  let g := bit w0 24
  let d := fld w0 17 7
  let a := fld w0 10 7
  let b := fld w0 3 7
  let op := fld w1 27 5
  let o := Order.ofBits (fld w1 25 2)
  let scb := fld w1 22 3
  let szb := fld w1 20 2
  let c := fld w1 13 7
  let ord := bit w1 12
  let f2 := bit w1 11
  let neg := bit w1 10
  let nb := bit w1 9
  let imm := fld w1 0 9
  match (fld w0 0 3).toNat with
  | 0 => (AOp.ofBits op).bind fun aop => (wideOf szb).bind fun wide => (Scope.ofBits scb).bind fun sc =>
      zeroed (c == 0 && !f2 && !neg && !nb) (.atom g aop wide o sc ord d a b imm)
  | 1 => (AOp.ofBits op).bind fun aop => (wideOf szb).bind fun wide => (Scope.ofBits scb).bind fun sc =>
      zeroed (d == 0 && c == 0 && !f2 && !neg && !nb) (.red g aop wide o sc ord a b imm)
  | 2 => zeroed (b == 0 && op == 0 && o == .none && scb == 0 && c == 0 && !ord && !f2 && !neg)
      (.cpa g (Size.ofBits szb) nb d a imm)
  | 3 => (wideOf szb).bind fun wide => (Scope.ofBits scb).bind fun sc =>
      zeroed (d == 0 && op == 0 && !f2 && !nb && imm == 0) (.stcmp g wide o sc ord neg a b c)
  | 4 => zeroed (op == 0 && o == .none && scb == 0 && c == 0 && !ord && !f2 && !neg && !nb)
      (.hld g (Size.ofBits szb) d a b imm)
  | 5 => zeroed (d == 0 && op == 0 && o == .none && scb == 0 && !ord && !f2 && !neg && !nb)
      (.hst g (Size.ofBits szb) a b c imm)
  | 6 => zeroed (d == 0 && op == 0 && (o == .none || o == .rel) && (scb == 4 || scb == 5) && szb == 0 && !ord && !f2
        && !nb && imm == 0)
      (.amsend g (o == .rel) (scb == 5) neg a b c)
  | _ => zeroed (d == 0 && op == 0 && (o == .none || o == .rel) && scb == 0 && szb == 0 && c == 0 && !ord && !f2
        && !neg && !nb && imm == 0)
      (.rtret g (o == .rel) a b)

/-- The lane set by major opcode (R51). -/
def decodeLane (w w1 : Word) : Option Instr :=
  let g := bit w 24
  let d := fld w 17 7
  let a := fld w 10 7
  let b := fld w 3 7
  let f := fld w 0 3
  let f2 := fld w 0 2
  let imm10 := fld w 0 10
  let h := bit w 16
  let imm16 := fld w 0 16
  let off3 := fld w 7 3
  let sz := Size.ofBits (fld w 5 2)
  let o := Order.ofBits (fld w 3 2)
  match (fld w 25 6).toNat with
  | 0x01 => (Sat.ofBits f).map fun f => .iaddLane g f d a b
  | 0x02 => (Sat.ofBits f).map fun f => .isubLane g f d a b
  | 0x03 => (MulPart.ofBits f).map fun f => .imulLane g f d a b
  | 0x04 => zeroed (f == 0) (.imadLane g d a b)
  | 0x05 => zeroed (fld w 1 2 == 0) (.iminLane g (bit w 0) d a b)
  | 0x06 => zeroed (fld w 1 2 == 0) (.imaxLane g (bit w 0) d a b)
  | 0x07 => match f.toNat with
    | 0 => some (.andLane g d a b) | 1 => some (.orLane g d a b) | 2 => some (.xorLane g d a b)
    | 3 => some (.andnLane g d a b) | _ => none
  | 0x08 => match f.toNat with
    | 0 => some (.shlLane g d a b) | 1 => some (.shrNLane g d a b) | 2 => some (.shrSLane g d a b)
    | 3 => some (.rotLane g d a b) | _ => none
  | 0x09 => if b != 0 then none else match f.toNat with
    | 0 => some (.popcLane g d a) | 1 => some (.clzLane g d a) | 2 => some (.brevLane g d a)
    | 3 => some (.iabsLane g d a) | 4 => some (.inegLane g d a) | _ => none
  | 0x0A => some (.bfxLane g d a (fld w 5 5) (fld w 0 5))
  | 0x0B => some (.bfxsLane g d a (fld w 5 5) (fld w 0 5))
  | 0x0C => zeroed (f == 0) (.bfiLane g d a b)
  | 0x0D => some (.leaLane g d a b f)
  | 0x0E => some (.iaddiLane g d a imm10)
  | 0x0F => some (if h then .movkHiLane g d imm16 else .movkLane g d imm16)
  | 0x10 => (FType.ofBits f).map fun t => .fadd g t d a b
  | 0x11 => (FType.ofBits f).map fun t => .fsub g t d a b
  | 0x12 => (FType.ofBits f).map fun t => .fmul g t d a b
  | 0x13 => (FType.ofBits f).map fun t => .fma g t d a b
  | 0x14 => (FType.ofBits f).map fun t => .fmin g t d a b
  | 0x15 => (FType.ofBits f).map fun t => .fmax g t d a b
  | 0x16 => if b != 0 then none else match f.toNat with
    | 0 => some (.fabs g d a) | 1 => some (.fneg g d a) | 2 => some (.frndRn g d a) | 3 => some (.frndRz g d a)
    | 4 => some (.frndDn g d a) | 5 => some (.frndUp g d a) | _ => none
  | 0x17 => if b != 0 then none else match f.toNat with
    | 0 => some (.frcp g d a) | 1 => some (.frsq g d a) | 2 => some (.fsqrt g d a) | 3 => some (.fexp2 g d a)
    | 4 => some (.flog2 g d a) | _ => none
  | 0x18 => (Ty.ofBits (fld w 6 4)).bind fun s => (Ty.ofBits (fld w 2 4)).map fun t =>
      .cvt g d a s t (Rm.ofBits f2)
  | 0x19 => some (if bit w 0 then .cvtsE4m3Unpack g d a b (fld w 1 2) else .cvtsE4m3Pack g d a b (fld w 1 2))
  | 0x1A => some (if bit w 0 then .cvtsE5m2Unpack g d a b (fld w 1 2) else .cvtsE5m2Pack g d a b (fld w 1 2))
  | 0x1B => some (if bit w 0 then .cvtsE2m1Unpack g d a b (fld w 1 2) else .cvtsE2m1Pack g d a b (fld w 1 2))
  | 0x20 => some (.icmpLane g (ICond.ofBits f) d a b)
  | 0x21 => some (.fcmp g (FCond.ofBits f) d a b)
  | 0x22 => match f.toNat with
    | 0 => some (.pandLane g d a b) | 1 => some (.porLane g d a b) | 2 => some (.pxorLane g d a b)
    | 3 => some (.pandnLane g d a b) | 4 => some (.pornLane g d a b) | _ => none
  | 0x23 => zeroed (fld w 11 6 == 0 && b == 0 && f == 0) (.gsel g d (bit w 10))
  | 0x24 => zeroed (!g && f == 0) (.sel d a b)
  | 0x25 => if bit w 2 then zeroed (d == 0 && b == 0) (.punpack g a f2)
      else zeroed (a == 0 && b == 0) (.ppack g d f2)
  | 0x28 => zeroed (!bit w 2) (.shfl g (Shfl.ofBits f2) d a b)
  | 0x29 => zeroed (b == 0 && !bit w 2) (.vscan g (Scan.ofBits f2) d a)
  | 0x2A => zeroed (b == 0 && f == 0) (.vbal g d a)
  | 0x2B => zeroed (b == 0 && !bit w 2) (.vred g (Red.ofBits f2) d a)
  | 0x30 => (Scope.ofBits f).map fun sc => .ldLane g sz o sc d a off3
  | 0x31 => (Scope.ofBits f).map fun sc => .stLane g sz o sc d a off3
  | 0x32 => (Scope.ofBits f).bind fun sc => zeroed (fld w 3 4 == 0) (.ldq g sc d a off3)
  | 0x33 => (Scope.ofBits f).bind fun sc => zeroed (d == 0 && fld w 3 4 == 0) (.pref g sc a off3)
  | 0x38 => some (.braLane g d h imm16)
  | 0x39 => if b != 0 then none else match f.toNat with
    | 0 => zeroed (d == 0) (.jmpLane g a) | 1 => some (.callLane g d a) | _ => none
  | 0x3A => if d != 0 || a != 0 || b != 0 then none else match f.toNat with
    | 0 => some (.nop g) | 1 => some (.exit g) | 2 => some (.yield g) | _ => none
  | 0x3B => zeroed (d == 0) (.spawn g a b f)
  | 0x3C => if d != 0 || b != 0 || fld w 14 3 != 0 then none else match f.toNat with
    | 0 => some (.rjset g (fld w 10 4)) | 1 => some (.rjwait g (fld w 10 4)) | _ => none
  | 0x3D => if d != 0 || a != 0 then none else some (if imm10 == 0 then .brk g else .trap g imm10)
  | 0x3E => decodeLW w w1
  | _ => none

/-! ## The uniform map (R53 to R55) -/

/-- The engine majors 0x30 to 0x3B, by sub5 (R55), each with the field table of its instruction. -/
def decodeGW (w0 w1 : Word) : Option Instr :=
  let a := fld w0 12 8
  let b := fld w0 4 8
  let m := fld w0 0 4
  let t := fld w1 27 5
  let cv := fld w1 23 4
  let v := fld w1 16 7
  let fmt := fld w1 12 4
  let mode := fld w1 8 4
  let c := fld w1 0 8
  match (fld w0 25 6).toNat, (fld w0 20 5).toNat with
  | 0x30, 0 => zeroed (b == 0 && c == 0 && m == 0 && v == 0 && fmt == 0 && mode == 0) (.shld cv t a)
  | 0x30, 1 => zeroed (a == 0 && b == 0 && c == 0 && m == 0 && v == 0 && fmt == 0 && mode == 0) (.shev cv t)
  | 0x31, 0 => zeroed (fld w0 1 3 == 0 && v == 0 && fmt == 0 && mode == 0) (.tld cv (bit w0 0) t a b c)
  | 0x31, 1 => zeroed (m == 0 && v == 0 && fmt == 0 && mode == 0) (.tst cv t a b c)
  | 0x32, 0 => (Ty.ofBits fmt).bind fun ty =>
      zeroed (!bit w0 3 && !bit w0 0 && t == 0 && v == 0) (.mldb cv ty (bit w0 2) (bit w0 1) mode a b c)
  | 0x33, 0 => (Ty.ofBits fmt).bind fun ty =>
      zeroed (!bit w0 3 && c == 0) (.mma cv ty mode (bit w0 2) (bit w0 1) (bit w0 0) t a b v)
  | 0x34, 0 => zeroed (b == 0 && c == 0 && m == 0 && v == 0 && fmt == 0 && fld w1 9 3 == 0) (.topen cv (bit w1 8) t a)
  | 0x34, 1 => if mode == 2 then zeroed (a == 0 && b == 0 && m == 0 && v == 0 && fmt == 0) (.treadStat cv t c)
      else (Ty.ofBits fmt).bind fun ty =>
        zeroed (c == 0 && m == 0 && v == 0 && fld w1 9 3 == 0) (.tread cv ty (bit w1 8) t a b)
  | 0x34, 2 => zeroed (m == 0 && v == 0 && fmt == 0 && fld w1 9 3 == 0) (.tred cv (bit w1 8) t a b c)
  | 0x35, 0 => if t != 0 || v != 0 || m != 0 || bit w1 11 then none else
      match (fld w1 8 2).toNat with
      | 0 => (Ty.ofBits fmt).map fun ty => .attn cv ty (bit w1 10) a b c
      | 1 => zeroed (fmt == 0) (.attnMaxima cv (bit w1 10) a b c)
      | 2 => zeroed (fmt == 0) (.attnGiven cv (bit w1 10) a b c)
      | _ => (Ty.ofBits fmt).map fun ty => .attnFinish cv ty (bit w1 10) a b c
  | 0x36, 0 => zeroed (t == 0 && v == 0 && fmt == 0 && mode == 0 && m == 0) (.kvapp cv a b c)
  | 0x36, 1 => zeroed (t == 0 && v == 0 && fmt == 0 && mode == 0 && m == 0) (.kvfork cv a b c)
  | 0x36, 2 => zeroed (b == 0 && c == 0 && t == 0 && v == 0 && fmt == 0 && mode == 0 && m == 0) (.kvdrop cv a)
  | 0x37, 0 => zeroed (a == 0 && b == 0 && fld w0 1 3 == 0 && t == 0 && fmt == 0 && mode == 0)
      (.cins cv (bit w0 0) c v)
  | 0x37, 1 => zeroed (a == 0 && b == 0 && m == 0 && t == 0 && v == 0 && fmt == 0 && fld w1 9 3 == 0)
      (.cmrg cv (bit w1 8) c)
  | 0x37, 2 => if b != 0 || m != 0 || t != 0 || fmt != 0 then none else
      match mode.toNat with
      | 0 => zeroed (c == 0) (.crdCent cv v a)
      | 1 => zeroed (c == 0) (.crdSum cv v a)
      | 2 => zeroed (v == 0) (.crdCnt cv c a)
      | 3 => zeroed (a == 0 && v == 0) (.crdStat cv c)
      | _ => none
  | 0x37, 3 => if b != 0 || c != 0 || m != 0 || t != 0 || v != 0 || fmt != 0 then none else
      match mode.toNat with
      | 0 => some (.ccfg cv a) | 1 => some (.ccfgKeep cv a) | 2 => zeroed (a == 0) (.ccfgFree cv) | _ => none
  | 0x38, 0 => zeroed (b == 0 && c == 0 && m == 0 && t == 0 && v == 0 && fmt == 0 && mode == 0) (.ssmld cv a)
  | 0x38, 1 => zeroed (c == 0 && m == 0 && v == 0 && fmt == 0 && mode == 0) (.ssmscan cv t a b)
  | 0x38, 2 => zeroed (c == 0 && m == 0 && v == 0 && fmt == 0 && mode == 0) (.ssmstep cv t a b)
  | 0x38, 3 => if b != 0 || c != 0 || m != 0 || t != 0 || v != 0 || fmt != 0 || fld w1 9 3 != 0 then none else
      some (if bit w1 8 then .ssmstFree cv a else .ssmst cv a)
  | 0x39, 0 => if bit w0 3 then none else (Policy.ofBits (fld w1 8 2)).bind fun p =>
      if fmt == 2 then some (.route cv false p (fld w1 10 2) (bit w0 2) (bit w0 1) (bit w0 0) t a b c v)
      else if fmt == 3 then some (.route cv true p (fld w1 10 2) (bit w0 2) (bit w0 1) (bit w0 0) t a b c v)
      else none
  | 0x39, 1 => zeroed (m == 0 && t == 0 && v == 0 && fmt == 0 && mode == 0 && c == 0) (.rtbind cv a b)
  | 0x39, 2 => if b != 0 || m != 0 || t != 0 || fmt != 0 || fld w1 9 3 != 0 then none else
      some (if bit w1 8 then .rtrdFree cv v c a else .rtrd cv v c a)
  | 0x3A, 0 => zeroed (b == 0 && m == 0 && t == 0 && v == 0 && fmt == 0 && mode == 0) (.svrd cv c a)
  | 0x3A, 1 => zeroed (c == 0 && m == 0 && t == 0 && v == 0 && fmt == 0 && mode == 0) (.svwr cv a b)
  | 0x3A, 2 => zeroed (b == 0 && c == 0 && m == 0 && t == 0 && v == 0 && fmt == 0 && mode == 0) (.svclr cv a)
  | 0x3A, 3 => zeroed (c == 0 && m == 0 && t == 0 && v == 0 && fmt == 0 && fld w1 9 3 == 0)
      (.svsave cv (bit w1 8) a b)
  | 0x3A, 4 => zeroed (c == 0 && m == 0 && t == 0 && v == 0 && fmt == 0 && fld w1 9 3 == 0)
      (.svload cv (bit w1 8) a b)
  | 0x3B, 0 => if t != 0 || v != 0 || fmt != 0 || c != 0 || m != 0 || fld w1 10 2 != 0 then none else
      match (fld w1 8 2).toNat with
      | 0 => some (.ambind cv a b)
      | 1 => some (.ambindAll cv a b)
      | 2 => zeroed (b == 0) (.ambindInbox cv a)
      | _ => zeroed (b == 0) (.ambindNone cv a)
  | _, _ => none

/-- Uniform ATOM, major 0x3C (R53). -/
def decodeGA (w0 w1 : Word) : Option Instr :=
  (AOp.ofBits (fld w0 20 5)).bind fun op => (wideOf (fld w0 0 2)).bind fun wide =>
    (Scope.ofBits (fld w1 12 3)).bind fun sc =>
      zeroed (fld w1 16 16 == 0 && fld w1 8 4 == 0)
        (.atomUniform op wide (Order.ofBits (fld w0 2 2)) sc (bit w1 15) (fld w1 0 8) (fld w0 12 8) (fld w0 4 8))

/-- The uniform set by major opcode (R53). -/
def decodeUniform (w w1 : Word) : Option Instr :=
  let d := fld w 17 8
  let a := fld w 9 8
  let b6 := fld w 3 6
  let b8 := fld w 1 8
  let s := bit w 0
  let f := fld w 0 3
  let imm9 := fld w 0 9
  let h := bit w 16
  let imm16 := fld w 0 16
  match (fld w 25 6).toNat with
  | 0x01 => (Sat.ofBits f).map fun f => .iaddUniform f d a b6
  | 0x02 => (Sat.ofBits f).map fun f => .isubUniform f d a b6
  | 0x03 => (MulPart.ofBits f).map fun f => .imulUniform f d a b6
  | 0x04 => zeroed (!s) (.imadUniform d a b8)
  | 0x05 => some (.iminUniform s d a b8)
  | 0x06 => some (.imaxUniform s d a b8)
  | 0x07 => match f.toNat with
    | 0 => some (.andUniform d a b6) | 1 => some (.orUniform d a b6) | 2 => some (.xorUniform d a b6)
    | 3 => some (.andnUniform d a b6) | _ => none
  | 0x08 => match f.toNat with
    | 0 => some (.shlUniform d a b6) | 1 => some (.shrNUniform d a b6) | 2 => some (.shrSUniform d a b6)
    | 3 => some (.rotUniform d a b6) | _ => none
  | 0x09 => if b6 != 0 then none else match f.toNat with
    | 0 => some (.popcUniform d a) | 1 => some (.clzUniform d a) | 2 => some (.brevUniform d a)
    | 3 => some (.iabsUniform d a) | 4 => some (.inegUniform d a) | _ => none
  | 0x0A => zeroed (!s) (.bfxUniform d a b8)
  | 0x0B => zeroed (!s) (.bfxsUniform d a b8)
  | 0x0C => zeroed (!s) (.bfiUniform d a b8)
  | 0x0D => some (.leaUniform d a b6 f)
  | 0x0E => some (.iaddiUniform d a imm9)
  | 0x0F => some (if h then .movkHiUniform d imm16 else .movkUniform d imm16)
  | 0x10 => zeroed (fld w 0 5 == 0) (.movx (fld w 15 10) (fld w 5 10))
  | 0x11 => zeroed (!bit w 24 && b8 == 0 && !s) (.bcast (fld w 17 7) a)
  | 0x12 => zeroed (!h && fld w 6 3 == 0) (.pick d (fld w 9 7) (fld w 0 6))
  | 0x13 => zeroed (!bit w 20 && !s) (.icmpUniform (ICond.ofBits (fld w 17 3)) (fld w 21 4) a b8)
  | 0x14 => if s || fld w 13 4 != 0 || fld w 5 4 != 0 then none else
      let p := fld w 21 4
      let x := fld w 9 4
      let y := fld w 1 4
      match (fld w 17 4).toNat with
      | 0 => some (.pandUniform p x y) | 1 => some (.porUniform p x y) | 2 => some (.pxorUniform p x y)
      | 3 => some (.pandnUniform p x y) | 4 => some (.pornUniform p x y) | _ => none
  | 0x18 => (Scope.ofBits f).map fun sc => .ldUniform (Order.ofBits (fld w 3 2)) sc d a (fld w 5 4)
  | 0x19 => (Scope.ofBits f).map fun sc => .stUniform (Order.ofBits (fld w 3 2)) sc d a (fld w 5 4)
  | 0x1A => (Scope.ofBits f).bind fun sc =>
      zeroed (d == 0 && a == 0 && fld w 5 4 == 0) (.fence (Order.ofBits (fld w 3 2)) sc)
  | 0x1B => zeroed (!bit w 24) (.wait (fld w 18 6) (fld w 12 6) (fld w 6 6) (fld w 0 6))
  | 0x20 => some (.braUniform (fld w 21 4) (bit w 20) (fld w 0 20))
  | 0x21 => if b8 != 0 then none else if s then some (.callUniform d a) else zeroed (d == 0) (.jmpUniform a)
  | 0x22 => zeroed (fld w 0 25 == 0) .tret
  | 0x23 => if d != 0 then none else some (if h then .leave imm16 else .enter imm16)
  | 0x24 => zeroed (a == 0 && fld w 6 2 == 0) (.sread (bit w 8) d (fld w 0 6))
  | 0x25 => zeroed (d == 0 && fld w 6 2 == 0) (.swrite (bit w 8) a (fld w 0 6))
  | 0x28 => zeroed (d == 0 && !s) (.binit a b8)
  | 0x29 => some (.barv s d a b8)
  | 0x2A => zeroed (d == 0 && !s) (.bwait a b8)
  | 0x2B => zeroed (d == 0 && !s) (.bexp a b8)
  | 0x2C => zeroed (d == 0 && b8 == 0 && !s) (.binval a)
  | 0x2D => zeroed (fld w 0 25 == 0) .ordrel
  | 0x3C => decodeGA w w1
  | _ => decodeGW w w1

/-! ## Decoding -/

/-- Whether an instruction that starts with this word has two words (R38). -/
def twoWords (w : Word) : Bool :=
  if bit w 31 then 0x30 ≤ (fld w 25 6).toNat && (fld w 25 6).toNat ≤ 0x3C else (fld w 25 6).toNat == 0x3E

/-- The fields of an instruction before its register classes are checked. -/
def decodeRaw (w0 w1 : Word) : Option Instr :=
  if bit w0 31 then decodeUniform w0 w1 else decodeLane w0 w1

/-- Why a word is no instruction; each raises ILLEGAL_OP (R58). -/
inductive DecodeError where
  /-- fewer bytes than the instruction's words -/
  | short
  /-- the word 0x00000000 or 0xFFFFFFFF as word 0 -/
  | permanentlyIllegal
  /-- a reserved major, code or a nonzero field that must be zero -/
  | reserved
  /-- a register number, pair or range that the format does not admit -/
  | registerClass
  deriving DecidableEq, Repr

/-- Decode an instruction from its words; the second is read only by two-word instructions (R57, R58). -/
def decode (w0 w1 : Word) : Except DecodeError Instr :=
  if w0 == 0x00000000#32 || w0 == 0xFFFFFFFF#32 then .error .permanentlyIllegal
  else match decodeRaw w0 w1 with
    | none => .error .reserved
    | some i => if i.wf then .ok i else .error .registerClass

/-- A little-endian word of four bytes (R7). -/
def wordOfBytes (b0 b1 b2 b3 : Byte) : Word := b3 ++ b2 ++ b1 ++ b0

/-- Decode an instruction from the front of a byte string, word 0 at the lower address (R7, R38), and the bytes that
follow it. -/
def decodeBytes : List Byte → Except DecodeError (Instr × List Byte)
  | b0 :: b1 :: b2 :: b3 :: rest =>
    let w0 := wordOfBytes b0 b1 b2 b3
    if twoWords w0 then
      match rest with
      | c0 :: c1 :: c2 :: c3 :: rest' =>
        match decode w0 (wordOfBytes c0 c1 c2 c3) with
        | .ok i => .ok (i, rest')
        | .error e => .error e
      | _ => .error .short
    else
      match decode w0 0 with
      | .ok i => .ok (i, rest)
      | .error e => .error e
  | _ => .error .short

/-- The instruction's length in bytes (R38): the amount its PC advances by. -/
def Instr.size : Instr → Nat
  | .atom .. | .atomUniform .. | .red .. | .cpa .. | .stcmp .. | .hld .. | .hst .. | .amsend .. | .rtret .. => 8
  | .shld .. | .shev .. | .tld .. | .tst .. | .mldb .. | .mma .. | .topen .. | .tread .. | .treadStat .. => 8
  | .tred .. | .attn .. | .attnMaxima .. | .attnGiven .. | .attnFinish .. | .kvapp .. | .kvfork .. | .kvdrop .. => 8
  | .cins .. | .cmrg .. | .crdCent .. | .crdSum .. | .crdCnt .. | .crdStat .. => 8
  | .ccfg .. | .ccfgKeep .. | .ccfgFree .. => 8
  | .ssmld .. | .ssmscan .. | .ssmstep .. | .ssmst .. | .ssmstFree .. => 8
  | .route .. | .rtbind .. | .rtrd .. | .rtrdFree .. => 8
  | .svrd .. | .svwr .. | .svclr .. | .svsave .. | .svload .. => 8
  | .ambind .. | .ambindAll .. | .ambindInbox .. | .ambindNone .. => 8
  | _ => 4

/-! ## The encoder -/

/-- Word 1 flags of LW: ORD, then bits 11, 10 and 9 (R52). -/
def lwFlags (ord f2 neg nb : Bool) : BitVec 4 :=
  BitVec.ofBool ord ++ BitVec.ofBool f2 ++ BitVec.ofBool neg ++ BitVec.ofBool nb

/-- A 4-bit field from its bits, the highest first. -/
def nib (b3 b2 b1 b0 : Bool) : BitVec 4 :=
  BitVec.ofBool b3 ++ BitVec.ofBool b2 ++ BitVec.ofBool b1 ++ BitVec.ofBool b0

/-- Words of a lane LW instruction. -/
def lw (g : Bool) (d a b : BitVec 7) (f : BitVec 3) (w1 : Word) : List Word := [fmtLR 0x3E g d a b f, w1]

/-- Words of an engine instruction. -/
def gw (major : BitVec 6) (sub : BitVec 5) (a b : BitVec 8) (m : BitVec 4) (t : BitVec 5) (cv : BitVec 4)
    (v : BitVec 7) (fmt mode : BitVec 4) (c : BitVec 8) : List Word :=
  [fmtGW0 major sub a b m, fmtGW1 t cv v fmt mode c]

/-- The words of an instruction, from the same formats and maps; events have none. -/
def encode : Instr → List Word
  | .iaddLane g f d a b => [fmtLR 0x01 g d a b f.bits]
  | .iaddUniform f d a b => [fmtGRF 0x01 d a b f.bits]
  | .isubLane g f d a b => [fmtLR 0x02 g d a b f.bits]
  | .isubUniform f d a b => [fmtGRF 0x02 d a b f.bits]
  | .iaddiLane g d a imm => [fmtLI 0x0E g d a imm]
  | .iaddiUniform d a imm => [fmtGI 0x0E d a imm]
  | .imulLane g f d a b => [fmtLR 0x03 g d a b f.bits]
  | .imulUniform f d a b => [fmtGRF 0x03 d a b f.bits]
  | .imadLane g d a b => [fmtLR 0x04 g d a b 0]
  | .imadUniform d a b => [fmtGR 0x04 d a b false]
  | .iminLane g n d a b => [fmtLR 0x05 g d a b (0#2 ++ BitVec.ofBool n)]
  | .iminUniform n d a b => [fmtGR 0x05 d a b n]
  | .imaxLane g n d a b => [fmtLR 0x06 g d a b (0#2 ++ BitVec.ofBool n)]
  | .imaxUniform n d a b => [fmtGR 0x06 d a b n]
  | .andLane g d a b => [fmtLR 0x07 g d a b 0]
  | .orLane g d a b => [fmtLR 0x07 g d a b 1]
  | .xorLane g d a b => [fmtLR 0x07 g d a b 2]
  | .andnLane g d a b => [fmtLR 0x07 g d a b 3]
  | .andUniform d a b => [fmtGRF 0x07 d a b 0]
  | .orUniform d a b => [fmtGRF 0x07 d a b 1]
  | .xorUniform d a b => [fmtGRF 0x07 d a b 2]
  | .andnUniform d a b => [fmtGRF 0x07 d a b 3]
  | .shlLane g d a b => [fmtLR 0x08 g d a b 0]
  | .shrNLane g d a b => [fmtLR 0x08 g d a b 1]
  | .shrSLane g d a b => [fmtLR 0x08 g d a b 2]
  | .rotLane g d a b => [fmtLR 0x08 g d a b 3]
  | .shlUniform d a b => [fmtGRF 0x08 d a b 0]
  | .shrNUniform d a b => [fmtGRF 0x08 d a b 1]
  | .shrSUniform d a b => [fmtGRF 0x08 d a b 2]
  | .rotUniform d a b => [fmtGRF 0x08 d a b 3]
  | .popcLane g d a => [fmtLR 0x09 g d a 0 0]
  | .clzLane g d a => [fmtLR 0x09 g d a 0 1]
  | .brevLane g d a => [fmtLR 0x09 g d a 0 2]
  | .iabsLane g d a => [fmtLR 0x09 g d a 0 3]
  | .inegLane g d a => [fmtLR 0x09 g d a 0 4]
  | .popcUniform d a => [fmtGRF 0x09 d a 0 0]
  | .clzUniform d a => [fmtGRF 0x09 d a 0 1]
  | .brevUniform d a => [fmtGRF 0x09 d a 0 2]
  | .iabsUniform d a => [fmtGRF 0x09 d a 0 3]
  | .inegUniform d a => [fmtGRF 0x09 d a 0 4]
  | .bfxLane g d a len pos => [fmtLI 0x0A g d a (len ++ pos)]
  | .bfxsLane g d a len pos => [fmtLI 0x0B g d a (len ++ pos)]
  | .bfiLane g d a b => [fmtLR 0x0C g d a b 0]
  | .bfxUniform d a b => [fmtGR 0x0A d a b false]
  | .bfxsUniform d a b => [fmtGR 0x0B d a b false]
  | .bfiUniform d a b => [fmtGR 0x0C d a b false]
  | .leaLane g d a b sh => [fmtLR 0x0D g d a b sh]
  | .leaUniform d a b sh => [fmtGRF 0x0D d a b sh]
  | .movkLane g d imm => [fmtLK 0x0F g d false imm]
  | .movkHiLane g d imm => [fmtLK 0x0F g d true imm]
  | .movkUniform d imm => [fmtGK 0x0F d false imm]
  | .movkHiUniform d imm => [fmtGK 0x0F d true imm]
  | .fadd g t d a b => [fmtLR 0x10 g d a b t.bits]
  | .fsub g t d a b => [fmtLR 0x11 g d a b t.bits]
  | .fmul g t d a b => [fmtLR 0x12 g d a b t.bits]
  | .fma g t d a b => [fmtLR 0x13 g d a b t.bits]
  | .fmin g t d a b => [fmtLR 0x14 g d a b t.bits]
  | .fmax g t d a b => [fmtLR 0x15 g d a b t.bits]
  | .fabs g d a => [fmtLR 0x16 g d a 0 0]
  | .fneg g d a => [fmtLR 0x16 g d a 0 1]
  | .frndRn g d a => [fmtLR 0x16 g d a 0 2]
  | .frndRz g d a => [fmtLR 0x16 g d a 0 3]
  | .frndDn g d a => [fmtLR 0x16 g d a 0 4]
  | .frndUp g d a => [fmtLR 0x16 g d a 0 5]
  | .frcp g d a => [fmtLR 0x17 g d a 0 0]
  | .frsq g d a => [fmtLR 0x17 g d a 0 1]
  | .fsqrt g d a => [fmtLR 0x17 g d a 0 2]
  | .fexp2 g d a => [fmtLR 0x17 g d a 0 3]
  | .flog2 g d a => [fmtLR 0x17 g d a 0 4]
  | .cvt g d a src dst rm => [fmtLI 0x18 g d a (src.bits ++ dst.bits ++ rm.bits)]
  | .cvtsE4m3Pack g d a b s => [fmtLR 0x19 g d a b (s ++ 0#1)]
  | .cvtsE4m3Unpack g d a b s => [fmtLR 0x19 g d a b (s ++ 1#1)]
  | .cvtsE5m2Pack g d a b s => [fmtLR 0x1A g d a b (s ++ 0#1)]
  | .cvtsE5m2Unpack g d a b s => [fmtLR 0x1A g d a b (s ++ 1#1)]
  | .cvtsE2m1Pack g d a b s => [fmtLR 0x1B g d a b (s ++ 0#1)]
  | .cvtsE2m1Unpack g d a b s => [fmtLR 0x1B g d a b (s ++ 1#1)]
  | .icmpLane g c p a b => [fmtLR 0x20 g p a b c.bits]
  | .icmpUniform c p a b => [fmtGC 0x13 p (0#1 ++ c.bits) a b]
  | .fcmp g c p a b => [fmtLR 0x21 g p a b c.bits]
  | .pandLane g p a b => [fmtLR 0x22 g p a b 0]
  | .porLane g p a b => [fmtLR 0x22 g p a b 1]
  | .pxorLane g p a b => [fmtLR 0x22 g p a b 2]
  | .pandnLane g p a b => [fmtLR 0x22 g p a b 3]
  | .pornLane g p a b => [fmtLR 0x22 g p a b 4]
  | .pandUniform p a b => [fmtGC 0x14 p 0 (0#4 ++ a) (0#4 ++ b)]
  | .porUniform p a b => [fmtGC 0x14 p 1 (0#4 ++ a) (0#4 ++ b)]
  | .pxorUniform p a b => [fmtGC 0x14 p 2 (0#4 ++ a) (0#4 ++ b)]
  | .pandnUniform p a b => [fmtGC 0x14 p 3 (0#4 ++ a) (0#4 ++ b)]
  | .pornUniform p a b => [fmtGC 0x14 p 4 (0#4 ++ a) (0#4 ++ b)]
  | .gsel g p neg => [fmtLR 0x23 g p (0#6 ++ BitVec.ofBool neg) 0 0]
  | .sel d a b => [fmtLR 0x24 false d a b 0]
  | .ppack g d q => [fmtLR 0x25 g d 0 0 (0#1 ++ q)]
  | .punpack g a q => [fmtLR 0x25 g 0 a 0 (1#1 ++ q)]
  | .shfl g f d a b => [fmtLR 0x28 g d a b (0#1 ++ f.bits)]
  | .vscan g f d a => [fmtLR 0x29 g d a 0 (0#1 ++ f.bits)]
  | .vbal g d p => [fmtLR 0x2A g d p 0 0]
  | .vred g f d a => [fmtLR 0x2B g d a 0 (0#1 ++ f.bits)]
  | .ldLane g sz o sc d base off => [fmtLM 0x30 g d base off sz.bits o.bits sc.bits]
  | .ldUniform o sc d base off => [fmtGM 0x18 d base off o.bits sc.bits]
  | .stLane g sz o sc d base off => [fmtLM 0x31 g d base off sz.bits o.bits sc.bits]
  | .stUniform o sc d base off => [fmtGM 0x19 d base off o.bits sc.bits]
  | .ldq g sc q base off => [fmtLM 0x32 g q base off 0 0 sc.bits]
  | .pref g sc base off => [fmtLM 0x33 g 0 base off 0 0 sc.bits]
  | .braLane g p neg off => [fmtLK 0x38 g p neg off]
  | .braUniform p neg off => [fmtGB 0x20 p neg off]
  | .jmpLane g a => [fmtLR 0x39 g 0 a 0 0]
  | .jmpUniform a => [fmtGR 0x21 0 a 0 false]
  | .callLane g d a => [fmtLR 0x39 g d a 0 1]
  | .callUniform d a => [fmtGR 0x21 d a 0 true]
  | .nop g => [fmtLR 0x3A g 0 0 0 0]
  | .exit g => [fmtLR 0x3A g 0 0 0 1]
  | .yield g => [fmtLR 0x3A g 0 0 0 2]
  | .spawn g a b n => [fmtLR 0x3B g 0 a b n]
  | .rjset g cv => [fmtLR 0x3C g 0 (0#3 ++ cv) 0 0]
  | .rjwait g cv => [fmtLR 0x3C g 0 (0#3 ++ cv) 0 1]
  | .trap g code => [fmtLI 0x3D g 0 0 code]
  | .brk g => [fmtLI 0x3D g 0 0 0]
  | .atom g op wide o sc ord d a b imm =>
      lw g d a b 0 (fmtLW1 op.bits o.bits sc.bits (wideBits wide) 0 (lwFlags ord false false false) imm)
  | .atomUniform op wide o sc ord c a b =>
      [fmtGW0 0x3C op.bits a b (o.bits ++ wideBits wide), fmtGA1 ord sc.bits c]
  | .red g op wide o sc ord a b imm =>
      lw g 0 a b 1 (fmtLW1 op.bits o.bits sc.bits (wideBits wide) 0 (lwFlags ord false false false) imm)
  | .cpa g sz nb d a h => lw g d a 0 2 (fmtLW1 0 0 0 sz.bits 0 (lwFlags false false false nb) h)
  | .stcmp g wide o sc ord neg a b p =>
      lw g 0 a b 3 (fmtLW1 0 o.bits sc.bits (wideBits wide) p (lwFlags ord false neg false) 0)
  | .hld g sz d a b imm => lw g d a b 4 (fmtLW1 0 0 0 sz.bits 0 0 imm)
  | .hst g sz a b c imm => lw g 0 a b 5 (fmtLW1 0 0 0 sz.bits c 0 imm)
  | .amsend g rel sys addr a b c =>
      lw g 0 a b 6 (fmtLW1 0 (if rel then 2 else 0) (if sys then 5 else 4) 0 c (lwFlags false false addr false) 0)
  | .rtret g rel a b => lw g 0 a b 7 (fmtLW1 0 (if rel then 2 else 0) 0 0 0 0 0)
  | .movx d a => [fmtGX 0x10 d a]
  | .bcast d a => [fmtGR 0x11 (0#1 ++ d) a 0 false]
  | .pick d a lane => [fmtGI 0x12 d (0#1 ++ a) (0#3 ++ lane)]
  | .fence o sc => [fmtGM 0x1A 0 0 0 o.bits sc.bits]
  | .wait ld st cp tl => [fmtGT 0x1B ld st cp tl]
  | .tret => [fmtGR 0x22 0 0 0 false]
  | .enter id => [fmtGK 0x23 0 false id]
  | .leave id => [fmtGK 0x23 0 true id]
  | .sread lane d n => [fmtGI 0x24 d 0 (BitVec.ofBool lane ++ 0#2 ++ n)]
  | .swrite lane a n => [fmtGI 0x25 0 a (BitVec.ofBool lane ++ 0#2 ++ n)]
  | .binit a b => [fmtGR 0x28 0 a b false]
  | .barv exp d a b => [fmtGR 0x29 d a b exp]
  | .bwait a b => [fmtGR 0x2A 0 a b false]
  | .bexp a b => [fmtGR 0x2B 0 a b false]
  | .binval a => [fmtGR 0x2C 0 a 0 false]
  | .ordrel => [fmtGR 0x2D 0 0 0 false]
  | .shld cv t a => gw 0x30 0 a 0 0 t cv 0 0 0 0
  | .shev cv t => gw 0x30 1 0 0 0 t cv 0 0 0 0
  | .tld cv bh t a b c => gw 0x31 0 a b (nib false false false bh) t cv 0 0 0 c
  | .tst cv t a b c => gw 0x31 1 a b 0 t cv 0 0 0 c
  | .mldb cv ty sc lt mask a b c => gw 0x32 0 a b (nib false sc lt false) 0 cv 0 ty.bits mask c
  | .mma cv ty mode sc rv h t a b v => gw 0x33 0 a b (nib false sc rv h) t cv v ty.bits mode 0
  | .topen cv auto t a => gw 0x34 0 a 0 0 t cv 0 0 (nib false false false auto) 0
  | .tread cv ty h t a b => gw 0x34 1 a b 0 t cv 0 ty.bits (nib false false false h) 0
  | .treadStat cv t c => gw 0x34 1 0 0 0 t cv 0 0 2 c
  | .tred cv h t a b c => gw 0x34 2 a b 0 t cv 0 0 (nib false false false h) c
  | .attn cv ty nb a b c => gw 0x35 0 a b 0 0 cv 0 ty.bits (nib false nb false false) c
  | .attnMaxima cv nb a b c => gw 0x35 0 a b 0 0 cv 0 0 (nib false nb false true) c
  | .attnGiven cv nb a b c => gw 0x35 0 a b 0 0 cv 0 0 (nib false nb true false) c
  | .attnFinish cv ty nb a b c => gw 0x35 0 a b 0 0 cv 0 ty.bits (nib false nb true true) c
  | .kvapp cv a b c => gw 0x36 0 a b 0 0 cv 0 0 0 c
  | .kvfork cv a b c => gw 0x36 1 a b 0 0 cv 0 0 0 c
  | .kvdrop cv a => gw 0x36 2 a 0 0 0 cv 0 0 0 0
  | .cins cv ord c v => gw 0x37 0 0 0 (nib false false false ord) 0 cv v 0 0 c
  | .cmrg cv bound c => gw 0x37 1 0 0 0 0 cv 0 0 (nib false false false bound) c
  | .crdCent cv v a => gw 0x37 2 a 0 0 0 cv v 0 0 0
  | .crdSum cv v a => gw 0x37 2 a 0 0 0 cv v 0 1 0
  | .crdCnt cv c a => gw 0x37 2 a 0 0 0 cv 0 0 2 c
  | .crdStat cv c => gw 0x37 2 0 0 0 0 cv 0 0 3 c
  | .ccfg cv a => gw 0x37 3 a 0 0 0 cv 0 0 0 0
  | .ccfgKeep cv a => gw 0x37 3 a 0 0 0 cv 0 0 1 0
  | .ccfgFree cv => gw 0x37 3 0 0 0 0 cv 0 0 2 0
  | .ssmld cv a => gw 0x38 0 a 0 0 0 cv 0 0 0 0
  | .ssmscan cv t a b => gw 0x38 1 a b 0 t cv 0 0 0 0
  | .ssmstep cv t a b => gw 0x38 2 a b 0 t cv 0 0 0 0
  | .ssmst cv a => gw 0x38 3 a 0 0 0 cv 0 0 0 0
  | .ssmstFree cv a => gw 0x38 3 a 0 0 0 cv 0 0 1 0
  | .route cv bf p k h nb rv t a b c v =>
      gw 0x39 0 a b (nib false h nb rv) t cv v (if bf then 3 else 2) (k ++ p.bits) c
  | .rtbind cv a b => gw 0x39 1 a b 0 0 cv 0 0 0 0
  | .rtrd cv v c a => gw 0x39 2 a 0 0 0 cv v 0 0 c
  | .rtrdFree cv v c a => gw 0x39 2 a 0 0 0 cv v 0 1 c
  | .svrd cv c a => gw 0x3A 0 a 0 0 0 cv 0 0 0 c
  | .svwr cv a b => gw 0x3A 1 a b 0 0 cv 0 0 0 0
  | .svclr cv a => gw 0x3A 2 a 0 0 0 cv 0 0 0 0
  | .svsave cv s a b => gw 0x3A 3 a b 0 0 cv 0 0 (nib false false false s) 0
  | .svload cv s a b => gw 0x3A 4 a b 0 0 cv 0 0 (nib false false false s) 0
  | .ambind cv a b => gw 0x3B 0 a b 0 0 cv 0 0 0 0
  | .ambindAll cv a b => gw 0x3B 0 a b 0 0 cv 0 0 1 0
  | .ambindInbox cv a => gw 0x3B 0 a 0 0 0 cv 0 0 2 0
  | .ambindNone cv a => gw 0x3B 0 a 0 0 0 cv 0 0 3 0
  | _ => []

/-- The bytes of a word, least significant first (R7). -/
def bytesOfWord (w : Word) : List Byte :=
  [w.extractLsb' 0 8, w.extractLsb' 8 8, w.extractLsb' 16 8, w.extractLsb' 24 8]

/-- The bytes of an instruction in memory, word 0 first (R7). -/
def encodeBytes (i : Instr) : List Byte := (encode i).flatMap bytesOfWord

/-- Decode a list of words: the first words are the instruction. -/
def decodeWords : List Word → Option Instr
  | [w0] => if twoWords w0 then none else (decode w0 0).toOption
  | w0 :: w1 :: _ => (decode w0 (if twoWords w0 then w1 else 0)).toOption
  | [] => none

/-- The words of an instruction whose bits are `w`, bit 0 the least significant bit of word 0 (opcode_table.json): a
two-word instruction has its second word at bits 63 to 32, and the bits above `nbits` are zero. -/
def tableWords (nbits w : Nat) : Word × Word :=
  let v := w % 2 ^ nbits
  (BitVec.ofNat 32 v, BitVec.ofNat 32 (v / 2 ^ 32))

/-- The instruction that the decoder reads from a word numbered as spec/opcode_table.json numbers it. -/
def decodeTableWord (nbits w : Nat) : Option Instr :=
  let ws := tableWords nbits w
  match decodeBytes (bytesOfWord ws.1 ++ bytesOfWord ws.2) with
  | .ok (i, _) => some i
  | .error _ => none

end Sys2Proof
end

