-- ==== Sys2Proof/Machine/Parts.lean ====
section
/-! DEFINITION. The parts of the state that programs run in: fibres, groups, teams, outstanding operations, traps,
launches, contexts and domains. Every part is plain data. -/

namespace Sys2Proof.Machine

open Sys2Proof

/-- Data by number: the keys rise strictly, and an absent key holds nothing. -/
abbrev KV (α : Type) := List (Nat × α)

/-- The path that the instruction being executed belongs to (R18, R19): the group's core and slot, the lanes of the
path, its PC, and its fetch port (0 the lower PC, 1 the other). -/
structure Cur where
  core : Nat := 0
  slot : Nat := 0
  mask : LaneMask := 0
  pc : Word := 0
  port : Nat := 0
  deriving DecidableEq, Repr

/-- A kernel header (R235), with the address it was read from. -/
structure Hdr where
  addr : Nat := 0
  entry : Word := 0
  regs : Nat := 8
  uregs : Nat := 32
  team : Nat := 1
  localBytes : Nat := 0
  tiles : Nat := 0
  e0 : Nat := 1
  e1 : Nat := 1
  widths : List Nat := []
  extents : List Nat := []
  nopre : Bool := false
  twin : Bool := false
  ord : Bool := false
  deriving DecidableEq, Repr

/-- Who makes an access: the core and owner, the PC of word 0 of its instruction, and the entry of its kernel (R221,
R291). -/
structure Who where
  core : Nat
  owner : Nat
  pc : Word
  entry : Nat
  deriving DecidableEq, Repr

/-! ## Fibres -/

/-- Why a fibre is blocked (R18). -/
inductive Block where
  | rejoin (cv : Nat)
  | barrier (off phase : Nat)
  | engine (cv : Nat)
  deriving DecidableEq, Repr

/-- Whether a fibre is blocked (R28). SUSPENDED, HELD and HALTED follow from the group that holds the fibre. -/
inductive FibreSt where
  | resident
  | blocked (why : Block)
  deriving DecidableEq, Repr

/-- A fibre (R11). `pend` has a bit per lane register (R133). -/
structure Fibre where
  pc : Word := 0
  preds : BitVec 128 := 1
  guardP : PReg := 0
  guardN : Bool := false
  fpctl : Word := 0
  wid : DWord := 0
  winBase : Nat := 0
  regs : List Word := []
  pend : BitVec 128 := 0
  st : FibreSt := .resident
  misses : Nat := 0
  aged : Bool := false
  launch : Option Nat := none
  deriving DecidableEq, Repr

/-! ## Outstanding operations -/

/-- The four counter classes (R132). -/
inductive OpCls where | ld | st | cp | tl
  deriving DecidableEq, Repr

/-- Where one access goes: the local memory of a team, or a physical address with its page's home (R111, R115). -/
inductive Loc where
  | loc (team off : Nat)
  | glob (pa : Nat) (home : BitVec 2) (hcore : Nat)
  deriving DecidableEq, Repr

/-- One access of an operation: a lane's, or 64 for a uniform instruction's; `data` is what it stores or its operand,
`dst` the offset of local memory that a copy writes. `queued`: it stands in a service group's queue, or is staged. -/
structure Acc where
  lane : Nat
  loc : Loc
  va : Nat
  len : Nat
  data : List Byte := []
  dst : Option Nat := none
  done : Bool := false
  queued : Bool := false
  failed : Bool := false
  deriving DecidableEq, Repr

/-- A captured barrier: the object's offset in the team's local memory, and the generation (R144). -/
structure BarCap where
  off : Nat
  gen : Nat
  deriving DecidableEq, Repr

/-- A routed pair as its message names it: the source core, the reassembly entry and its generation, the row and the
pair (R202, R203). -/
structure PairTag where
  core : Nat
  ent : Nat
  gen : Nat
  row : Nat
  pair : Nat
  deriving DecidableEq, Repr

/-- An active message on its way (R193): the operation that waits for it, if any, by its group, number and lane, whether it has
left its core (R252), which one that no operation waits for has from the first; the group and cluster that sent it, none for a
peer device's; the PC and kernel of the instruction that caused it (R291); its domain, owner and launch, and what it carries. -/
structure Msg where
  gid : Option Nat := none
  seq : Nat := 0
  lane : Nat := 0
  left : Bool := false
  sender : Option Nat := none
  src : Option Nat := none
  pc : Word := 0
  entry : Nat := 0
  dom : Nat := 0
  owner : Nat := 0
  launch : Option Nat := none
  dev : Nat := 0
  clu : Nat := 0
  hid : Nat := 0
  payload : List Word := []
  addr : Option Nat := none
  acq : Nat := 0
  pair : Option PairTag := none
  via : Option Nat := none
  pkt : Option Nat := none
  deriving DecidableEq, Repr

/-- What an outstanding operation still does. -/
inductive OpKind where
  | load (sz : Size)
  | ldq (port : Nat)
  | store
  | atomic (op : AOp) (wide : Bool) (ret : Bool)
  | stcmp (size : Nat)
  | copy (bar : Option BarCap)
  | msg
  | engine (cmd : Nat) (bar : Option BarCap)
  deriving DecidableEq, Repr

/-- What an operation delivers at the WAIT that covers it (R123, R141); `counted` once the barrier that a copy names has
counted the landing of its fault. -/
structure OpErr where
  code : Nat
  detail : Nat
  addr : Nat
  counted : Bool := false
  deriving DecidableEq, Repr

/-- An outstanding operation (R132): `mask` is the path that issued it, `act` the lanes that act; a uniform operation returns into
g registers; `lost` are the peer slots whose last link fell while it was outstanding (R275); `seen` counts the entries of its
group's twin stream when it issued (R281). `home` marks one that goes to the home slices (R334), `ord` marks an ordered operation
(R150), and `ghost` one that no counter counts: the elements of an ordered STCMP below a fault (R154). -/
structure Op where
  seq : Nat
  cls : OpCls
  kind : OpKind
  pc : Word
  mask : LaneMask
  act : LaneMask
  unif : Bool := false
  order : Order := .none
  scope : Scope := .grp
  home : Bool := false
  dest : Nat := 0
  dests : Nat := 0
  accs : List Acc := []
  ord : Bool := false
  seen : Nat := 0
  lost : List Nat := []
  ghost : Bool := false
  done : Bool := false
  err : Option OpErr := none
  deriving DecidableEq, Repr

/-! ## Traps -/

/-- What a trap carries into the trap record (R243, R244), whether an STCMP raised it (R250), and, while it is held, the
STCMP's elements below the faulting one, which its delivery performs (R82, R154). -/
structure TrapInfo where
  code : Nat
  detail : Nat := 0
  addr : Nat := 0
  progress : Nat := 0
  async : Bool := false
  nested : Bool := false
  retPc : Word := 0
  mask : LaneMask := 0
  stcmp : Bool := false
  below : Option Op := none
  deriving DecidableEq, Repr

/-- A handler that runs in a group (R248): the lanes of the trapped path, the PC of the trap record, and whether an
STCMP trapped (R250). -/
structure Handler where
  mask : LaneMask
  faultPc : Word
  stcmp : Bool
  deriving DecidableEq, Repr

/-- An STCMP that resumes at an element (R154). -/
structure StcmpAt where
  pc : Word
  mask : LaneMask
  elt : Nat
  deriving DecidableEq, Repr

/-! ## Groups -/

/-- A convergence register (R74), with the engine instruction being signed (log 6). -/
structure CvReg where
  decl : DWord := 0
  sign : DWord := 0
  tag : BitVec 30 := 0
  tv : Bool := false
  eng : Option Instr := none
  deriving DecidableEq, Repr

/-- A queue port (R37): its binding and its FIFO, each entry one word per lane, or empty while
an LDQ has it reserved (R347). -/
structure Port where
  kind : Nat := 0
  peerGrp : Nat := 0
  peerPort : Nat := 0
  recv : Bool := false
  fifo : List (List Word) := []
  deriving DecidableEq, Repr

/-- The vote of a cycle (R18): its two paths, which of them have been tried in the cycle, the lanes that were eligible,
and those whose path issued (R71). -/
structure Vote where
  p0 : Option (Word × LaneMask) := none
  p1 : Option (Word × LaneMask) := none
  tried0 : Bool := false
  tried1 : Bool := false
  elig : LaneMask := 0
  ran : LaneMask := 0
  deriving DecidableEq, Repr

/-- Lanes held until a cycle (R143, R387). -/
structure Hold where
  mask : LaneMask
  until_ : Nat
  leaf : Nat
  deriving DecidableEq, Repr

/-- The states of a group (R29) that its other fields do not give: HANDLER is a handler, HALTED is `halted`. -/
inductive GroupSt where | resident | suspended | retiring
  deriving DecidableEq, Repr

/-- How a group came to be (R24). -/
inductive GroupKind where | launched | spawned | handler
  deriving DecidableEq, Repr

/-- One entry of a twin stream (R281): an address, a byte mask and the data, with the place and the
effect it stands for. -/
structure TwinItem where
  addr : Nat
  mask : Nat
  data : List Byte
  loc : Loc := .loc 0 0
  red : Option (AOp × Bool) := none
  msg : Option Msg := none
  deriving DecidableEq, Repr

/-- A group's place: its team, number, context and the values its special registers read (R17, R24, R36). -/
structure Place where
  team : Nat := 0
  num : Nat := 0
  kind : GroupKind := .launched
  owner : Nat := 0
  dom : Nat := 0
  launch : Nat := 0
  hdr : Hdr := {}
  karg : DWord := 0
  prio : Nat := 0
  teamId : Word := 0
  deriving DecidableEq, Repr

/-- The issue state of a group: ageing (R33), catch-up point (R70), the cycle's vote (R18), held lanes, the fetch ports
that a wrong prediction holds, each with the cycle it is free in (R220), the leaf that the lowest-PC path's cause to wait
belongs to in this cycle (R290), whether the path last tried was held, whether a path lost its pipe to another group
(R33), the cycle the group last issued in, a debugger stop that is pending (R286), and whether pre-emption has stopped it
(R240). -/
structure Sched where
  ageing : Nat := 0
  catchUp : Option Word := none
  vote : Option Vote := none
  holds : List Hold := []
  portHolds : KV Nat := []
  leaf : Nat := 6
  stalled : Bool := false
  passedOver : Bool := false
  issuedAt : Option Nat := none
  stopPending : Bool := false
  preempted : Bool := false
  deriving DecidableEq, Repr

/-- The trap state of a group (R82, R243, R245, R248, R154), with the cycle its last trap was delivered in (R286). -/
structure TrapSt where
  words : List Word := [0, 0, 0, 0, 0, 0, 0, 0]
  handler : Option Handler := none
  deliveredAt : Option Nat := none
  held : List TrapInfo := []
  pageFault : Option TrapInfo := none
  stcmpAt : List StcmpAt := []
  deriving DecidableEq, Repr

/-- An engine instruction that has issued and waits for its counter or a resource (R79): its lanes and PC. -/
structure EngWait where
  instr : Instr
  mask : LaneMask
  pc : Word
  deriving DecidableEq, Repr

/-- A group (R13, R17). `leaving` keeps the windows of exited lanes that loads still return into, `left` the launches toward
which exited lanes counted (R30);
`fences` the release fences issued, each with its lanes and the number of operations before it (R127). -/
structure Group where
  place : Place := {}
  fibres : KV Fibre := []
  leaving : List (Nat × Nat × Nat) := []
  left : KV Nat := []
  uregs : List Word := []
  upend : BitVec 1024 := 0
  gp : BitVec 16 := 1
  cvs : List CvReg := []
  ports : List Port := []
  ops : List Op := []
  opSeq : Nat := 0
  regions : List Nat := []
  depth : Nat := 0
  clockHi : Word := 0
  st : GroupSt := .resident
  halted : Bool := false
  sched : Sched := {}
  trap : TrapSt := {}
  engQ : List EngWait := []
  fences : List (LaneMask × Nat) := []
  ordEnded : Bool := false
  twin : List TwinItem := []
  deriving DecidableEq, Repr

/-! ## Spawn bins -/

/-- A fibre waiting in a bin or in the overflow area (R20, R21): its arguments, identifier, header and launch,
and the scope at which its first instruction acquires. -/
structure NewFibre where
  entry : Word
  hdr : Hdr
  wid : DWord
  args : List Word
  launch : Option Nat
  karg : DWord := 0
  prio : Nat := 0
  teamId : Word := 0
  message : Bool := false
  acq : Nat := 0
  deriving DecidableEq, Repr

/-- A spawn bin (R21): its context, the fibres by lane slot, and when the last arrival came, and when its timer
expires; `flush` once the bin is to launch. -/
structure Bin where
  owner : Nat
  entry : Word
  hdr : Hdr
  fibres : KV NewFibre
  last : Nat
  due : Nat := 0
  flush : Bool := false
  deriving DecidableEq, Repr

/-- What waits in the spawn overflow area beyond what its slot holds (R23): a fibre with its cluster, and the core that
re-bins it if one has been chosen (R194), or a port entry with its group, the team index of that group, and the slots it
takes. -/
inductive OvfItem where
  | fibre (clu : Nat) (core : Option Nat) (f : NewFibre)
  | entry (team group index port : Nat) (words : List Word) (slots : Nat)
  deriving DecidableEq, Repr

/-! ## Landings -/

/-- A landing on its way to a team's local atomic unit (R140, R144): the captured barrier, its sectors, whether they
faulted, the group, operation and instruction that issued it, and the lines of global memory that its engine wrote (R134). -/
structure Landing where
  bar : BarCap
  sectors : Nat
  fault : Bool := false
  gid : Nat := 0
  seq : Nat := 0
  pc : Word := 0
  mask : LaneMask := 0
  lines : List Nat := []
  deriving DecidableEq, Repr

/-! ## Teams -/

/-- An accumulator tile (R92): its elements by number (absent is zero), the poison bits set, and the status word. -/
structure Tile where
  elems : KV (BitVec 64) := []
  poison : List Nat := []
  status : Word := 0
  deriving DecidableEq, Repr

/-- A barrier-table entry (R137). -/
structure BarEnt where
  v : Bool
  gen : Nat
  off : Nat
  deriving DecidableEq, Repr

/-- A shape slot of a team (R108): the record and the physical slot of the core. -/
structure Shape where
  words : List Byte
  phys : Nat
  deriving DecidableEq, Repr

/-- A recorded MLDB of one sub-array (R99): B's type, the address of its block, of its scales and of a lattice table,
and the table that the sub-array then held. -/
structure MldbRec where
  ty : Ty
  addr : Nat
  scale : Option Nat
  lt : Option Nat
  table : List Byte
  deriving DecidableEq, Repr

/-- A team (R25): placement, local memory, its lines with an uncorrectable error (R123), barriers, tiles, shapes, recorded MLDB
commands and the route table; `spread` once it is placed on more than one core (R124); `streams` and `streamAt` the twin streams
of its retired groups and the cores that they ran on (R281); `stopAt` is when a pre-emption began to drain it (R240). -/
structure Team where
  launch : Nat := 0
  index : Nat := 0
  owner : Nat := 0
  kind : GroupKind := .launched
  hdr : Hdr := {}
  prio : Nat := 0
  groups : List Nat := []
  live : Nat := 0
  home : Nat := 0
  spread : Bool := false
  copy : Nat := 0
  retired : Bool := false
  mem : List Host.Cell := []
  badLines : List Nat := []
  barTab : KV BarEnt := []
  barOld : KV Bool := []
  landings : List Landing := []
  tiles : KV Tile := []
  tileMap : List Nat := []
  shapes : KV Shape := []
  mldb : KV MldbRec := []
  routeTab : KV DWord := []
  streams : List (List TwinItem) := []
  streamAt : KV Nat := []
  placedAt : Nat := 0
  stopAt : Option Nat := none
  deriving DecidableEq, Repr

/-! ## Launches, contexts and domains -/

/-- A launch (R26, R233): what its record says, which of its teams have been placed, those below `placed` and those of `ahead`,
since when they wait (R237), and its ordered window (R151). -/
structure Launch where
  owner : Nat := 0
  queue : Nat := 0
  index : Nat := 0
  hdr : Hdr := {}
  karg : DWord := 0
  prio : Nat := 0
  ord : Bool := false
  twin : Bool := false
  twink : Nat := 0
  nopre : Bool := false
  teams : Nat := 0
  placed : Nat := 0
  ahead : List Nat := []
  waitSince : Nat := 0
  window : Option (Nat × Nat) := none
  windowAt : Nat := 0
  twinDone : List Nat := []
  ended : Bool := false
  deriving DecidableEq, Repr

/-- A record that a queue has pulled (R233, R234). -/
structure Pulled where
  index : Nat
  fence : Bool
  hdrAddr : Nat
  hdr : Hdr := {}
  karg : DWord
  prio : Nat := 0
  ord : Bool := false
  twin : Bool := false
  twink : Nat := 0
  nopre : Bool := false
  invtlb : Bool := false
  irq : Bool := false
  deps : List (Nat × Nat) := []
  depsMet : Bool := false
  begun : Bool := false
  deriving DecidableEq, Repr

/-- A launch queue (R233) beyond its descriptor in memory: whether the doorbell has rung since the last stop, whether the
record at HEAD stands refused and not rewritten (R236), the pulled records not yet complete, oldest first, and its
launches. -/
structure Queue where
  rung : Bool := false
  refused : Bool := false
  pulled : List Pulled := []
  launches : List (Nat × Nat) := []
  deriving DecidableEq, Repr

/-- Where a fatal context stands on the fatal path (R251). -/
inductive FatalStep where | halted | drained | dumped
  deriving DecidableEq, Repr

/-- The first fault of a context (R251, R257), with the TLD commands and the CPA operations that had started at the halt
(R252), and what its drain has left undone: for each operation that item 6 of the dump lists its team, PC, group number and lanes, and the teams with
an ATTN. -/
structure Fatal where
  recWords : List Word
  clock : Nat
  team : Nat
  group : Nat
  cluster : Nat
  depth : Nat
  regions : List Nat
  queued : Bool
  step : FatalStep := .halted
  cut : Bool := false
  started : List Nat := []
  copies : List (Nat × Nat) := []
  listed : List (Nat × Word × Nat × LaneMask) := []
  attnTeams : List Nat := []
  deriving DecidableEq, Repr

/-- A late-fault record (R259). -/
structure Late where
  recWords : List Word
  team : Nat
  group : Nat
  core : Nat
  deriving DecidableEq, Repr

/-- A context (R238, R251, R259): its descriptor's address and what the device keeps beside the context area. -/
structure Ctx where
  dom : Nat := 0
  desc : Nat := 0
  ovf : List (Nat × OvfItem) := []
  spilled : Nat := 0
  fatal : Option Fatal := none
  late : List Late := []
  nlate : Nat := 0
  lastIssue : Nat := 0
  out : Bool := false
  deriving DecidableEq, Repr

/-- The trace ring of a domain (R287). -/
structure Trace where
  base : Nat
  size : Nat
  mask : Nat
  period : Nat
  deriving DecidableEq, Repr

/-- A profiling session (R292, R293): its events with their totals, the events of its sketches, and which of them the
part's event set lacks. -/
structure Profile where
  events : List Nat
  totals : List Nat
  absent : List Bool
  pcEvent : Nat
  kerEvent : Nat
  pcAbsent : Bool := false
  kerAbsent : Bool := false
  changed : Bool := false
  deriving DecidableEq, Repr

/-- A mailbox reply (R296). -/
structure Reply where
  seq : Nat := 0
  status : Nat := 0
  value : Nat := 0
  deriving DecidableEq, Repr

/-- What the device keeps for a domain: handlers (R247), dumps (R256), replay (R261), trace, event ring (R297), the UCIe
interrupts raised (R297), debugger session (R286), profiling session, registered ranges (R123) and the mailbox's request slot and
reply (R296). -/
structure Domain where
  handlers : List Word := []
  dumpEn : Bool := false
  dumpBase : Nat := 0
  dumpSize : Nat := 0
  dumpWait : Bool := false
  replay : Nat := 1
  resets : Nat := 0
  trace : Option Trace := none
  evBase : Option Nat := none
  evSize : Nat := 0
  evLost : Nat := 0
  irqs : Nat := 0
  session : Bool := false
  profile : Option Profile := none
  ranges : List (Nat × Nat) := []
  request : List Byte := []
  reply : Reply := {}
  deriving DecidableEq, Repr

end Sys2Proof.Machine
end

