-- ==== Sys2Proof/Machine/Data.lean ====
section
/-! DEFINITION. Operations on data by number, on memory in its canonical form, on lane masks and on bytes. -/

namespace Sys2Proof.Machine

open Sys2Proof

/-! ## Data by number -/

/-- The value at a key, if any. -/
def kvGet {α : Type} : KV α → Nat → Option α
  | [], _ => none
  | (k, v) :: m, a => if k = a then some v else if a < k then none else kvGet m a

/-- The value at a key, or a default. -/
def kvGetD {α : Type} (m : KV α) (a : Nat) (d : α) : α := (kvGet m a).getD d

/-- Put a value at a key, keeping the keys in rising order. -/
def kvSet {α : Type} : KV α → Nat → α → KV α
  | [], a, x => [(a, x)]
  | (k, v) :: m, a, x =>
    if k = a then (a, x) :: m else if a < k then (a, x) :: (k, v) :: m else (k, v) :: kvSet m a x

/-- Remove a key. -/
def kvDel {α : Type} : KV α → Nat → KV α
  | [], _ => []
  | (k, v) :: m, a => if k = a then m else if a < k then (k, v) :: m else (k, v) :: kvDel m a

/-- Change the value at a key, if there is one. -/
def kvMod {α : Type} (m : KV α) (a : Nat) (f : α → α) : KV α :=
  match kvGet m a with
  | some x => kvSet m a (f x)
  | none => m

/-- Whether a key holds a value. -/
def kvHas {α : Type} (m : KV α) (a : Nat) : Bool := (kvGet m a).isSome

/-- Put or remove. -/
def kvPut {α : Type} (m : KV α) (a : Nat) : Option α → KV α
  | some x => kvSet m a x
  | none => kvDel m a

/-- Change every value. -/
def kvMap {α : Type} (m : KV α) (f : Nat → α → α) : KV α := m.map fun e => (e.1, f e.1 e.2)

/-- The lowest natural number below `n` that satisfies a test, counted from `i`. -/
def findBelow (p : Nat → Bool) : Nat → Nat → Option Nat
  | 0, _ => none
  | n + 1, i => if p i then some i else findBelow p n (i + 1)

/-! ## Memory in canonical form: addresses rise strictly, and no byte listed is zero (log 2) -/

/-- Whether a list of bytes is in canonical form, from an address on. -/
def cellsFrom : Nat → List Host.Cell → Bool
  | _, [] => true
  | lo, (a, b) :: m => decide (lo ≤ a) && b != 0 && cellsFrom (a + 1) m

/-- The canonical form of memory. -/
def Memory.wf (m : List Host.Cell) : Bool := cellsFrom 0 m

/-- What an address that memory does not list reads as (log 2: DESIGN CHOICE). -/
def unlistedByte : Byte := 0

/-- A byte of memory. -/
def memByte : List Host.Cell → Nat → Byte
  | [], _ => unlistedByte
  | (k, v) :: m, a => if k = a then v else if a < k then unlistedByte else memByte m a

/-- Put a byte at an address; zero removes the entry. -/
def memSet : List Host.Cell → Nat → Byte → List Host.Cell
  | [], a, b => if b = 0 then [] else [(a, b)]
  | (k, v) :: m, a, b =>
    if k = a then (if b = 0 then m else (a, b) :: m)
    else if a < k then (if b = 0 then (k, v) :: m else (a, b) :: (k, v) :: m)
    else (k, v) :: memSet m a b

/-- `n` bytes from an address on. -/
def memBytes (m : List Host.Cell) (a : Nat) : Nat → List Byte
  | 0 => []
  | n + 1 => memByte m a :: memBytes m (a + 1) n

/-- The cells that bytes from an address on need: zero bytes are not listed. -/
def cellsOf : Nat → List Byte → List Host.Cell
  | _, [] => []
  | a, b :: bs => if b = 0 then cellsOf (a + 1) bs else (a, b) :: cellsOf (a + 1) bs

/-- Write bytes from an address on. -/
def memPut (m : List Host.Cell) (a : Nat) (bs : List Byte) : List Host.Cell :=
  m.takeWhile (fun c => decide (c.1 < a)) ++ cellsOf a bs ++ m.dropWhile (fun c => decide (c.1 < a + bs.length))

/-- Write bytes at addresses of their own. -/
def memPutAt (m : List Host.Cell) : List (Nat × Byte) → List Host.Cell
  | [] => m
  | (a, b) :: bs => memPutAt (memSet m a b) bs

/-- Write zero from an address on. -/
def memZero (m : List Host.Cell) (a n : Nat) : List Host.Cell :=
  m.filter fun c => decide (c.1 < a) || decide (a + n ≤ c.1)

/-- The cells of a range, with addresses counted from its start. -/
def memCut (m : List Host.Cell) (a n : Nat) : List Host.Cell :=
  (m.filter fun c => decide (a ≤ c.1) && decide (c.1 < a + n)).map fun c => (c.1 - a, c.2)

/-- Put the cells of a page, counted from its start, over a range. -/
def memPaste (m : List Host.Cell) (a n : Nat) (page : List Host.Cell) : List Host.Cell :=
  m.takeWhile (fun c => decide (c.1 < a)) ++ ((page.filter fun c => decide (c.1 < n)).map fun c => (c.1 + a, c.2))
    ++ m.dropWhile (fun c => decide (c.1 < a + n))

/-! ## Bytes and numbers, least significant byte first (R7) -/

/-- The number that bytes spell. -/
def natOfBytes : List Byte → Nat
  | [] => 0
  | b :: bs => b.toNat + 256 * natOfBytes bs

/-- The low `n` bytes of a number. -/
def bytesOfNat : Nat → Nat → List Byte
  | 0, _ => []
  | n + 1, v => BitVec.ofNat 8 v :: bytesOfNat n (v / 256)

/-- A word from bytes. -/
def wordOfBytes (bs : List Byte) : Word := BitVec.ofNat 32 (natOfBytes bs)

/-- The words that bytes hold, four bytes each. -/
def wordsOfBytes : List Byte → List Word
  | a :: b :: c :: d :: bs => wordOfBytes [a, b, c, d] :: wordsOfBytes bs
  | _ => []

/-- The bytes of words. -/
def bytesOfWords (ws : List Word) : List Byte := ws.flatMap fun w => bytesOfNat 4 w.toNat

/-- The doubleword of a register pair, the lower register the low word (R7). -/
def pairOf (lo hi : Word) : DWord := hi ++ lo

/-- The two words of a doubleword, the low one first. -/
def wordsOfDWord (x : DWord) : List Word := [x.extractLsb' 0 32, x.extractLsb' 32 32]

/-- A bit field of a number. -/
def field (v lo n : Nat) : Nat := v / 2 ^ lo % 2 ^ n

/-- Read a signed value from the low `n` bits. -/
def signedOf (n v : Nat) : Int :=
  if v % 2 ^ n < 2 ^ (n - 1) then Int.ofNat (v % 2 ^ n) else Int.ofNat (v % 2 ^ n) - Int.ofNat (2 ^ n)

/-- The two's complement of an integer in `n` bits. -/
def unsignedOf (n : Nat) (v : Int) : Nat := (v % Int.ofNat (2 ^ n)).toNat

/-! ## Lane masks -/

/-- Whether a lane is in a mask. -/
def inMask (m : LaneMask) (l : Nat) : Bool := m.getLsbD l

/-- A mask of one lane. -/
def oneLane (l : Nat) : LaneMask := BitVec.ofNat 64 (2 ^ l)

/-- The lane numbers, in rising order. -/
def allLanes : List Nat := List.range 64

/-- The lanes of a mask, in rising order. -/
def lanesOf (m : LaneMask) : List Nat := allLanes.filter (inMask m)

/-- The lowest lane of a mask, or 0. -/
def lowLane (m : LaneMask) : Nat := (lanesOf m).headD 0

/-- The mask of the lanes that satisfy a test. -/
def maskOf (p : Nat → Bool) : LaneMask :=
  BitVec.ofNat 64 ((allLanes.filter p).foldl (fun n l => n + 2 ^ l) 0)

/-- Whether two masks share a lane. -/
def overlaps (a b : LaneMask) : Bool := (a &&& b) != 0

/-- Whether the lanes of a mask all lie in another. -/
def within (a b : LaneMask) : Bool := (a &&& ~~~b) == 0

/-- Whether two ranges of bytes share a byte. -/
def rangesMeet (a n b m : Nat) : Bool := decide (a < b + m) && decide (b < a + n)

/-! ## Sorting -/

/-- Put an element into its place in a list that a test orders. -/
def insertBy {α : Type} (le : α → α → Bool) (x : α) : List α → List α
  | [] => [x]
  | y :: ys => if le x y then x :: y :: ys else y :: insertBy le x ys

/-- Sort a list by a test; equal elements keep their order. -/
def sortBy {α : Type} (le : α → α → Bool) : List α → List α
  | [] => []
  | x :: xs => insertBy le x (sortBy le xs)

/-- The least element of a list by a test. -/
def leastBy {α : Type} (lt : α → α → Bool) : List α → Option α
  | [] => none
  | x :: xs =>
    match leastBy lt xs with
    | none => some x
    | some y => if lt y x then some y else some x

end Sys2Proof.Machine
end

