-- ==== Sys2Proof/Config.lean ====
section
/-! DEFINITION. The free values: constants without a body for what the manual leaves open and some value results.
A statement about one of them holds whatever it is. -/

namespace Sys2Proof.Config

/-- A byte that comes from outside the device: what a peer's memory answers to a read over a Traverse link
(R274), by the count of free values drawn (log 10). -/
opaque freeByte : Nat → Byte

/-- A doubleword that comes from outside the device, as the old value a peer returns to a remote atomic
(R274, log 10). -/
opaque freeDWord : Nat → DWord

/-- Byte `i` of contents whose byte layout the manual does not give, of an item by number: 1 to 12 those of R239, 14 the
ordered-spill area (R152, R238), 15 the return area (R209), 16 a profiling snapshot (R292), 17 a mailbox request's operands and
18 its reply's value (R296; log 4). -/
opaque packByte {α : Type} (item : Nat) (x : α) (i : Nat) : Byte

/-- How many bytes such contents take (log 4). -/
opaque packLen {α : Type} (item : Nat) (x : α) : Nat

/-- The part number of the capability list (R295; log 11). -/
opaque partNumber : DWord

/-- The version of the capability record of an id (R295; log 11). -/
opaque capVersion : Nat → BitVec 8

/-- Whether the firmware accepts an image by its header and CRC-32: the manual gives neither MAGIC nor the layout (R298; log
11). -/
opaque imageOk : List Byte → Bool

/-- The distance between two slots of a team save area: the manual gives no size of a save record (R238, R239; log 4). -/
opaque saveStride : Nat

/-- The set of a slice that a line address falls in: the manual gives the slice's ways, not its index function
(R222; log 7). -/
opaque sliceSet : Nat → Nat

end Sys2Proof.Config
end

