-- ==== Sys2Proof/Machine/HwParts.lean ====
section
/-! DEFINITION. The parts of the state that belong to cores, clusters, slices and the network: caches, translation
buffers, owner banks, bins and accounts. -/

namespace Sys2Proof.Machine

open Sys2Proof

/-- A translation held in a TLB (R117): the context, the first virtual address and the size of the page, and the leaf
entry's physical address, home and permissions (R115). -/
structure TlbEnt where
  owner : Nat
  va : Nat
  size : Nat
  pa : Nat
  home : BitVec 2
  hcore : Nat
  r : Bool
  w : Bool
  x : Bool
  deriving DecidableEq, Repr

/-- An L1 line (R119, R222): its address, data, dirty mask, scope tag, and the replacement state of its owner. -/
structure Line where
  pa : Nat
  data : BitVec 1024
  dirty : BitVec 128 := 0
  tag : Nat := 0
  rrpv : Nat := 2
  reused : Bool := false
  sig : Nat := 0
  owner : Nat := 0
  home : BitVec 2 := 0
  prefetched : Bool := false
  deriving DecidableEq, Repr

/-- A line of a slice, without data: the slices are the point of coherence and `mem` holds what they hold (R121,
R222). -/
structure SliceLine where
  pa : Nat
  rrpv : Nat := 2
  reused : Bool := false
  sig : Nat := 0
  owner : Nat := 0
  pinned : Bool := false
  deriving DecidableEq, Repr

/-- A core's bank of one owner (R212 to R224): the tables as images of entries by number, absent entries cleared. -/
structure Bank where
  owner : Nat
  stride : KV (BitVec 128) := []
  fetch : KV (BitVec 256) := []
  sig : KV Nat := []
  est : KV Nat := []
  pfdist : Nat := 2
  lastArr : KV Nat := []
  deriving DecidableEq, Repr

/-- A prefetch slot (R218): the line, and the PC and kernel of the access that trained it. -/
structure PfSlot where
  owner : Nat
  pa : Nat
  home : BitVec 2
  pc : Word
  entry : Nat
  deriving DecidableEq, Repr

/-- A HOME 0b10 page held in a core's SRAM (R116): its physical address and the bytes that differ from zero. -/
structure SramPage where
  pa : Nat
  bytes : List Host.Cell
  deriving DecidableEq, Repr

/-- An atomic that a peer device asks for (R274). -/
structure Outside where
  dev : Nat
  op : AOp
  wide : Bool
  pa : Nat
  data : List Byte
  deriving DecidableEq, Repr

/-- A request in a service group's queue (R148): the group, operation and lane, or a peer's request. -/
structure SvcReq where
  gid : Nat
  seq : Nat
  lane : Nat
  outside : Option Outside := none
  deriving DecidableEq, Repr

/-- A slice's bank of one owner (R214): 4,096 signatures, absent ones cleared. -/
structure SliceBank where
  owner : Nat
  sig : KV Nat := []
  deriving DecidableEq, Repr

/-- Power states of a router (R270). -/
inductive RouterPower where | on | powering | off | waking
  deriving DecidableEq, Repr

/-- A router (R270): when it was last busy and when its wake or power-down ends, in network cycles. -/
structure Router where
  power : RouterPower := .on
  idleSince : Nat := 0
  wakeEnd : Nat := 0
  deriving DecidableEq, Repr

/-- A peer slot of the system map (R273). -/
structure Peer where
  slot : Nat
  dev : BitVec 12
  memSize : Nat
  links : BitVec 16
  deriving DecidableEq, Repr

/-- What a packet over a Traverse link is (R274): a request of this device, or its reply to a peer's load or atomic. -/
inductive PeerOp where
  | load
  | store
  | atomic (op : AOp) (wide : Bool)
  | tredAdd
  | message
  | reply
  deriving DecidableEq, Repr

/-- The classes that a Traverse link moves under flow control of their own (R273), those of the four networks (R263). -/
inductive NetCls where | q | p | m | c
  deriving DecidableEq, Repr

/-- What has left over a Traverse link (R274): the peer's number, the link and class, the address on the peer, or for a message
its target, and what it asks for. -/
structure PeerReq where
  dev : Nat
  link : Nat
  cls : NetCls
  pa : Nat
  op : PeerOp
  len : Nat
  data : List Byte
  deriving DecidableEq, Repr

/-- The firmware policy (R232, R299), times in microseconds. The default power cap is below the package limit; that it is 1 W
below is a DESIGN CHOICE (log 11). -/
structure PolicySt where
  timeSlice : Nat := 2000
  starve : Nat := 2000
  starve2 : Nat := 8000
  preempt : Bool := true
  capWatts : Nat := 2399
  ownPlacement : Bool := false
  deriving DecidableEq, Repr

/-- What a turn of the schedule does (log 1): an event happens, or a path of a group waits for this cycle, charged to a
leaf: 4 while its instruction is not yet fetched, 6 for a latency (R289, R301). -/
inductive Act where
  | stall (core slot port leaf : Nat)
  | event (i : Instr)
  deriving DecidableEq, Repr

/-- A turn of the schedule: the cycles that pass before it, and what happens (log 1). -/
structure Turn where
  dt : Nat
  act : Act
  deriving DecidableEq, Repr

/-- How far a cycle has come (log 1): the events at its beginning, landings among them (R139); the issue of its paths
(R18, R33); and, after the checks of R75, the Survey instructions that reach a core's tables in it, the last of them by the
group number `last` (R229). -/
inductive Stage where
  | events
  | issue
  | late (last : Nat)
  deriving DecidableEq, Repr

end Sys2Proof.Machine
end

