-- ==== Sys2Proof/Machine/EngParts.lean ====
section
/-! DEFINITION. The parts of the state that belong to the engines: sub-arrays, commands, the centroid bank, the state
space unit, reassembly entries, active messages, the key-value sequencer, and saved teams. -/

namespace Sys2Proof.Machine

open Sys2Proof

/-! ## Commands (R79, R100, R103) -/

/-- A run of virtual addresses with its place, within one page. -/
structure Piece where
  va : Nat
  len : Nat
  loc : Loc
  deriving DecidableEq, Repr

/-- What a command reads or writes, for the order of R100, R184, R191 and R206. -/
inductive Res where
  | tile (team t : Nat)
  | sub (k : Nat)
  | slot (team n : Nat)
  | cab
  | ssu
  | route
  | tables
  | binding (dom hid : Nat)
  deriving DecidableEq, Repr

/-- A row of a box that TLD or TST copies (R109): its number, whether it is valid, the byte of the local row at which
the tensor's elements begin, their places, and whether the last byte holds one 4-bit element only. -/
structure BoxRow where
  row : Nat
  valid : Bool
  off : Nat
  pieces : List Piece
  half : Bool := false
  deriving DecidableEq, Repr

/-- What a handler id is bound to: a kernel, with the context and launch of the AMBIND, or the inbox of a group. -/
inductive Target where
  | kernel (owner : Nat) (hdr : Hdr) (karg : DWord) (prio launch : Nat)
  | inbox (team num owner : Nat)
  deriving DecidableEq, Repr

/-- An accepted engine command, with the operands that acceptance read. -/
inductive CmdKind where
  | shld (n : Nat) (words : List Byte) (phys : Nat)
  | shev (n : Nat)
  | tld (addr pitch len : Nat) (rows : List BoxRow)
  | tst (addr pitch : Nat) (rows : List BoxRow)
  | mldb (ty : Ty) (mask addr : Nat) (scale table : Option Nat) (pieces scales : List Piece)
  | mma (ty : Ty) (mode : Nat) (rv h : Bool) (t a pitch : Nat) (scales : List (List Word)) 
      (replay : List (Nat × Ty × List Piece))
  | topen (t : Nat) (auto : Bool) (e : Int)
  | tread (ty : Ty) (h : Bool) (t pitch : Nat) (rows : List (List Piece))
  | treadStat (t c : Nat)
  | tred (t : Nat) (head : List Piece) (rows : List (List Piece))
  | cins (ord : Bool) (c : Nat) (vals : List Nat)
  | cmrg (bound : Bool) (c : Nat)
  | crdCent (v a : Nat)
  | crdSum (v a : Nat)
  | crdCnt (c a : Nat)
  | crdStat (c : Nat)
  | ccfg (keep : Bool) (va : Nat)
  | ccfgFree
  | ssmld (head : List Byte) (pieces : List Piece)
  | scan (a t row left : Nat)
  | ssmst (free : Bool) (pieces : List Piece)
  | kvapp
  | kvfork
  | kvdrop
  | rtbind (value : Nat) (entry : DWord)
  | rtrd (free : Bool) (v c ent gen : Nat) (words : List Nat) (done : Bool)
  | svrd (c addr : Nat)
  | svwr (addr : Nat) (ws : List Word)
  | svclr (mask : Nat)
  | svsave (slice : Option Nat) (va : Nat)
  | svload (slice : Option Nat) (va : Nat)
  | ambind (dom : Nat) (clus : List Nat) (hid : Nat) (target : Option Target)
  deriving DecidableEq, Repr

/-- A command that an engine has accepted and not completed: its number in acceptance order, the group, operation and
signers that issued it, and what it uses, each with whether it writes it. `hold`: its signers go on at completion. `sent`: a TRED
whose elements have entered the network (R272). -/
structure Cmd where
  id : Nat
  gid : Nat
  seq : Nat
  team : Nat
  owner : Nat
  mask : LaneMask
  pc : Word
  kind : CmdKind
  uses : List (Res × Bool) := []
  bar : Option BarCap := none
  hold : Bool := false
  sent : Bool := false
  deriving DecidableEq, Repr

/-! ## Sub-arrays (R91, R98, R99) -/

/-- 32 values aligned to one unit 2^exp (R91); `bad` when the block held an infinity or a NaN, `loss` the elements that
lost a nonzero bit. -/
structure CellBlock where
  vals : List Int
  exp : Int := 0
  bad : Bool := false
  loss : Nat := 0
  deriving DecidableEq, Repr

/-- The default lattice table: row r is r (R90). -/
def defaultLattice : List Byte := (List.range 256).map fun r => BitVec.ofNat 8 r

/-- A sub-array: the team whose B it holds, B's type, its blocks and scales by column and K-block, and the lattice table
with the context that loaded last. -/
structure SubArray where
  team : Option Nat := none
  ty : Ty := .s8
  cols : List (List CellBlock) := []
  scales : List (List Nat) := []
  table : List Byte := defaultLattice
  owner : Option Nat := none
  deriving DecidableEq, Repr

/-! ## The centroid bank (R176 to R178) -/

/-- A valid entry: its count and 64 sums. -/
structure Centroid where
  n : Nat
  sums : List Int
  deriving DecidableEq, Repr

/-- A bank that a team has claimed. -/
structure Cab where
  team : Nat
  rad2 : Nat
  policy : Nat
  fmt : Nat
  ec : Int
  ring : Nat
  ringn : Nat
  ents : KV Centroid := []
  clamp : Bool := false
  nanrej : Bool := false
  spillcnt : Nat := 0
  deriving DecidableEq, Repr

/-! ## The state space unit (R185) -/

/-- A unit that a team has claimed, with its scan state record. -/
structure Ssu where
  team : Nat
  record : List Byte
  deriving DecidableEq, Repr

/-! ## Routed tiles (R197 to R206, R388) -/

/-- Where a routed pair stands: ringed pairs hold a slot of the route overflow ring. -/
inductive PairSt where
  | unsent
  | sent
  | ringed (slot : Nat)
  | ended
  deriving DecidableEq, Repr

/-- A pair: its row, slot, routing value and BF16 weight. -/
structure RPair where
  row : Nat
  slot : Nat
  value : Nat
  weight : Nat
  st : PairSt := .unsent
  deriving DecidableEq, Repr

/-- The counts of a row (R207). -/
structure RowCount where
  exp : Nat := 0
  miss : Nat := 0
  drop : Nat := 0
  recv : Nat := 0
  masked : Bool := false
  deriving DecidableEq, Repr

/-- The states of a reassembly entry that is not FREE (R205). -/
inductive EntSt where | dispatch | waiting | done
  deriving DecidableEq, Repr

/-- A reassembly entry: its ROUTE's acceptance number, issuer, tile and policy, its generation, its pairs in pair order,
the pairs it has ringed, oldest first, its rows' counts, its timeout, its staging area, and the returns that wait for the
commands accepted before it to finish with the tile, each with its pair and bytes. `core` and `num` are the names that its
program and its tokens call it by, which a resume elsewhere keeps. -/
structure RouteEnt where
  id : Nat
  core : Nat
  num : Nat
  team : Nat
  owner : Nat
  gid : Nat
  seq : Nat
  mask : LaneMask
  pc : Word
  launch : Option Nat
  gen : Nat
  st : EntSt := .dispatch
  tile : Nat
  bf16 : Bool
  pol : Policy
  len : Nat
  pairs : List RPair := []
  ringed : List Nat := []
  rows : List RowCount := []
  due : Option Nat := none
  bar : Option BarCap := none
  stage : Nat
  adds : List (Nat × List Byte) := []
  deriving DecidableEq, Repr

/-- The engines of a core: the accepted commands, oldest first, the sub-arrays, the centroid bank and state space unit
when claimed, the reassembly entries by number with their generations, and the ROUTEs that wait for one. -/
structure CoreEng where
  cmds : List Cmd := []
  subs : KV SubArray := []
  cab : Option Cab := none
  ssu : Option Ssu := none
  ents : KV RouteEnt := []
  gens : KV Nat := []
  routeQ : List (Nat × EngWait) := []
  deriving DecidableEq, Repr

/-! ## Active messages (R192 to R196) -/

/-- A binding: its domain, cluster and handler id. -/
structure Binding where
  dom : Nat
  clu : Nat
  hid : Nat
  target : Target
  deriving DecidableEq, Repr

/-- A return on its way to its origin (R203, R367): the pair its token names, the operation and lane that sent it, and
the row's place. -/
structure Ret where
  tag : PairTag
  dom : Nat
  gid : Nat
  seq : Nat
  lane : Nat
  va : Nat
  loc : Loc
  pc : Word
  entry : Nat
  left : Bool := false
  pkt : Option Nat := none
  deriving DecidableEq, Repr

/-- A drop notice on its way to its origin (R194, R205): the domain, the pair, and its packet. -/
structure Drop where
  dom : Nat
  tag : PairTag
  pkt : Option Nat := none
  deriving DecidableEq, Repr

/-- Active messages: the bindings, and the messages, returns and drop notices in flight, in the order sent. -/
structure AmSt where
  binds : List Binding := []
  msgs : List Msg := []
  rets : List Ret := []
  drops : List Drop := []
  deriving DecidableEq, Repr

/-! ## The key-value sequencer (R160 to R173) -/

/-- Where an ATTN stands. -/
inductive AttnStep where | accepted | scored | summed
  deriving DecidableEq, Repr

/-- An accepted ATTN: its operands as acceptance read them. `blocks` holds its key blocks that are not EMPTY, each with its number
in the pool and its place; `listed` the block-index table, each entry with whether it is FULL. `finished` are the blocks of the
phase that goes on which slices had finished when they stopped, `parts` what each slice had found in them (R175), `begun` whether
phase 2 has its maxima. `maxima`, `sums` and `outs` are what has arrived from the slices, by row, or by row and column, of `got`
slices; `flags` are the FLAGS words. -/
structure Attn where
  id : Nat
  gid : Nat
  seq : Nat
  pc : Word
  mask : LaneMask
  bar : Option BarCap
  team : Nat
  owner : Nat
  dom : Nat
  mode : Nat
  ty : Ty
  scale : Word
  d : Nat
  fmt : Nat
  ks : Nat
  vs : Nat
  vexp : Int
  visible : Nat
  query : List Byte
  qpos : Nat
  ints : List (Int × Int × Bool)
  listed : Option (KV Bool)
  blocks : List (Nat × Nat × List Piece)
  out : List Piece
  src : List Piece
  step : AttnStep := .accepted
  finished : List Nat := []
  parts : KV (List (BitVec 64) × Nat) := []
  begun : Bool := false
  maxima : List Int := []
  sums : List Nat := []
  outs : List (BitVec 64) := []
  flags : List Nat := []
  got : Nat := 0
  deriving DecidableEq, Repr

/-- Blocks that wait to be pushed to a domain's free stack until the ATTNs that hold them complete (R160). -/
structure HeldBlock where
  owner : Nat
  block : Nat
  deriving DecidableEq, Repr

/-- The key-value sequencer: the instructions that wait for acceptance, oldest first, the ATTNs and the blocks held. -/
structure KvSt where
  queue : List (Nat × EngWait) := []
  attns : List Attn := []
  held : List HeldBlock := []
  deriving DecidableEq, Repr

/-! ## Saved teams (R239 to R241) -/

/-- A saved team: the team with its groups in the order of its list, what its engines held, what is parked for it and
what it has reserved of the return area (R209), its slot of the team save area, and since when it waits to be placed again
(R241). -/
structure Saved where
  team : Team
  id : Nat
  groups : List Group
  cab : Option Cab := none
  ssu : Option Ssu := none
  ents : KV RouteEnt := []
  cmds : List Cmd := []
  parkedRets : List (PairTag × List Byte × Option Nat) := []
  parkedDrops : List PairTag := []
  reserved : Nat := 0
  slot : Nat := 0
  waitSince : Nat := 0
  deriving DecidableEq, Repr

end Sys2Proof.Machine
end

