-- ==== Sys2Proof/Machine/NetParts.lean ====
section
/-! DEFINITION. The parts of the network (R262 to R272): endpoints, packets, flits, the storage of links and router inputs,
and the arbiters of router outputs. -/

namespace Sys2Proof.Machine

open Sys2Proof

/-- What a packet goes from and to (R262): a cluster, a slice, a Traverse link port, or the UCIe attachment. -/
inductive Endpoint where
  | cluster (c : Nat)
  | slice (x : Nat)
  | link (k : Nat)
  | ucie
  deriving DecidableEq, Repr

/-- The combine tag of a C packet (R272): the part of an ATTN's maxima (phase 0) or sums (phase 1), or the elements of a
surface from a physical address on. -/
inductive CombineTag where
  | attn (id phase part : Nat)
  | surface (pa len : Nat)
  deriving DecidableEq, Repr

/-- A packet (R263, R268, R272): its network, its ends and length in flits; when its header entered the FIFO in which it stands and
when it came to its head, in network cycles; whether it is urgent, and whether its last flit has arrived. For a reduction: the tag,
operation (0 maximum, 1 addition), contributor count, elements and flags; for a tile's also the place of the elements and the
commands that contributed. -/
structure Packet where
  id : Nat
  net : NetCls
  src : Endpoint
  dst : Endpoint
  len : Nat
  entered : Nat := 0
  since : Nat := 0
  urgent : Bool := false
  landed : Bool := false
  tag : Option CombineTag := none
  op : Nat := 0
  count : Nat := 1
  elems : List (BitVec 64) := []
  flags : Nat := 0
  place : List Piece := []
  who : List Nat := []
  deriving DecidableEq, Repr

/-- A flit: its packet and its place in it, 0 for the header. -/
structure Flit where
  pkt : Nat
  idx : Nat
  deriving DecidableEq, Repr

/-- A router input and the link to it (R264): the link's latches from its source on (none listed: all empty), the FIFO, oldest
first, and for a local port the flits that its endpoint has still to inject. -/
structure Channel where
  latches : List (Option Flit) := []
  fifo : List Flit := []
  source : List Flit := []
  deriving DecidableEq, Repr

/-- The arbiter of a router output (R268): the input and packet that hold it, the input that won last and how many packets in a
row it has won, and the last urgent winner. -/
structure Outlet where
  lock : Option (Nat × Nat) := none
  last : Nat := 0
  wins : Nat := 0
  lastUrgent : Nat := 0
  deriving DecidableEq, Repr

end Sys2Proof.Machine
end

