-- ==== Sys2Proof/Machine/State.lean ====
section
/-! DEFINITION. The state of the machine, the reasons a step stops, and the state after reset. -/

namespace Sys2Proof.Machine

open Sys2Proof

/-- A core: its L1 (by set and way), TLB, owner banks, spawn bins, pinned pages, prefetch slots, staged elements by
context (R152), accounts, the issues of
this cycle by sub-core and leaf, the sub-cores of the lane pipes held from the last cycle and into the next (R301), sketches,
for each traced domain when its next sample is due and the slot it starts from (R288), and engines. -/
structure Core where
  l1 : KV Line := []
  tlb : List TlbEnt := []
  banks : List Bank := []
  bins : KV Bin := []
  sram : List SramPage := []
  pfSlots : KV PfSlot := []
  staged : KV Nat := []
  accounts : List Nat := List.replicate 18 0
  issued : List (Nat × Nat) := []
  laneHeld : List Nat := []
  laneNext : List Nat := []
  sketchPc : KV Nat := []
  sketchKer : KV Nat := []
  samples : KV (Nat × Nat) := []
  eng : CoreEng := {}
  deriving DecidableEq, Repr

/-- A cluster: the second-level TLB (R117) and the service group's queue (R148). -/
structure Cluster where
  tlb : List TlbEnt := []
  svcQ : List SvcReq := []
  deriving DecidableEq, Repr

/-- A slice: its lines, by set and way, its owner banks in order of recency (R212, R222), and the owners whose first
access waits for a bank switch (R214). -/
structure Slice where
  lines : KV SliceLine := []
  banks : List SliceBank := []
  wanted : List Nat := []
  deriving DecidableEq, Repr

/-- The network and the links (R262 to R275): routers by number 8y + x, absent ones on; packets; router inputs and outputs by
network, router and port, absent ones idle; and the weights of the input ports, absent ones 1 (R268). -/
structure Net where
  routers : KV Router := []
  packets : List Packet := []
  chans : KV Channel := []
  outlets : KV Outlet := []
  links : BitVec 16 := 0xFFFF
  peers : KV Peer := []
  peerOut : List PeerReq := []
  weights : KV Nat := []
  age : Nat := 256
  deriving DecidableEq, Repr

/-- What the device holds as a whole: the clock (R36), the cycles in which a placement was pending (R289), its number, the cluster
mask (R295), DEVSTAT's fields (R298), the policy (R232), the core clock in sixteenths (R299), the UCIe modules up (R294) and the
links fitted (R295), the firmware image in slice 0's SRAM and whether the system map has been written (R298), the device's
profiling session (R292), and the request slot and reply of the management mailbox (R296). -/
structure Dev where
  clock : Nat := 0
  pendCycles : Nat := 0
  num : BitVec 12 := 0
  clusterMask : BitVec 64 := 0xFFFFFFFFFFFFFFFF
  stackFail : BitVec 12 := 0
  err : Nat := 0
  phase : Nat := 0
  policy : PolicySt := {}
  clkStep : Nat := 16
  ucie : BitVec 8 := 0xFF
  fitted : BitVec 16 := 0xFFFF
  image : List Byte := []
  mapped : Bool := false
  profile : Option Profile := none
  request : List Byte := []
  reply : Reply := {}
  deriving DecidableEq, Repr

/-- The whole machine. `ecc` and `soft` are the 128-byte lines of memory that hold an uncorrectable and a single-bit error (R123);
`reserved` gives for each reserved cluster what holds it (R237). `tape`, `cur`, `free` and `nextId` are the model's own: the
schedule, the path whose instruction is executed, the count of free values drawn, and the next object number (log 1, log 3). -/
structure State where
  dev : Dev := {}
  mem : List Host.Cell := []
  ecc : List Nat := []
  soft : List Nat := []
  cores : KV Core := []
  clusters : KV Cluster := []
  slices : KV Slice := []
  net : Net := {}
  groups : KV Group := []
  teams : KV Team := []
  launches : KV Launch := []
  queues : KV Queue := []
  ctxs : KV Ctx := []
  domains : KV Domain := []
  am : AmSt := {}
  kv : KvSt := {}
  saved : KV Saved := []
  reserved : KV Waiter := []
  dumpQ : List Nat := []
  tape : List Turn := []
  stage : Stage := .events
  cur : Cur := {}
  free : Nat := 0
  nextId : Nat := 0
  deriving DecidableEq, Repr

/-- Why the machine stops. -/
inductive Fault where
  /-- An access from outside (REMOTE_ACCESS, HOST_MEMORY_ACCESS) names a physical address that R113 calls invalid: the
  manual gives no effect. Safe: the model stops where a machine might go on. -/
  | noSuchPhysicalAddress (pa : Nat)
  deriving DecidableEq, Repr

/-- Why the model gives an instruction no meaning. -/
inductive Refusal where
  /-- An instruction whose meaning is not modelled, by its mnemonic: only an arm of `exec` raises it. Safe: the model
  stops. -/
  | notModelled (mnemonic : String)
  deriving DecidableEq, Repr

/-- The machine right after reset (R298): phase RESET, memory with nothing listed, no context, and no program: every
unit is idle. -/
def State.reset : State := {}

end Sys2Proof.Machine
end

