-- ==== Sys2Proof/Machine/Ops.lean ====
section
/-! DEFINITION. The named operations over the state: its objects, the issuing path, events to the host, trace records,
and taking a trap and returning from one. -/

namespace Sys2Proof.Machine

open Sys2Proof

/-! ## The objects of the state -/

/-- The number of a group: its core and its slot (R17). -/
def gidOf (core slot : Nat) : Nat := core * 256 + slot

/-- The core of a group number. -/
def coreOfGid (gid : Nat) : Nat := gid / 256

/-- The slot of a group number. -/
def slotOfGid (gid : Nat) : Nat := gid % 256

/-- The cluster of a core: 4 cores each (R3). -/
def clusterOfCore (core : Nat) : Nat := core / 4

/-- The group with a number. -/
def getGroup (s : State) (gid : Nat) : Group := kvGetD s.groups gid {}

/-- Store a group. -/
def setGroup (s : State) (gid : Nat) (g : Group) : State := { s with groups := kvSet s.groups gid g }

/-- Change a group, if it is resident. -/
def modGroup (s : State) (gid : Nat) (f : Group → Group) : State := { s with groups := kvMod s.groups gid f }

/-- The number of the group whose instruction is executed. -/
def curGid (s : State) : Nat := gidOf s.cur.core s.cur.slot

/-- The group whose instruction is executed. -/
def curGroup (s : State) : Group := getGroup s (curGid s)

/-- Store the group whose instruction is executed. -/
def setCurGroup (s : State) (g : Group) : State := setGroup s (curGid s) g

/-- The team with a number. -/
def getTeam (s : State) (t : Nat) : Team := kvGetD s.teams t {}

/-- Change a team. -/
def modTeam (s : State) (t : Nat) (f : Team → Team) : State := { s with teams := kvMod s.teams t f }

/-- A core that has not been used: its slots were charged to launch pending while a placement was pending, and else to
idle (R289). -/
def idleCore (s : State) : Core :=
  { accounts := List.replicate 16 0 ++ [32 * s.dev.pendCycles, 32 * (s.dev.clock - s.dev.pendCycles)] }

/-- The core with a number. -/
def getCore (s : State) (c : Nat) : Core := kvGetD s.cores c (idleCore s)

/-- Store a core. -/
def setCore (s : State) (c : Nat) (x : Core) : State := { s with cores := kvSet s.cores c x }

/-- Change a core. -/
def modCore (s : State) (c : Nat) (f : Core → Core) : State := setCore s c (f (getCore s c))

/-- The context of an owner id. -/
def getCtx (s : State) (o : Nat) : Ctx := kvGetD s.ctxs o {}

/-- Change a context. -/
def modCtx (s : State) (o : Nat) (f : Ctx → Ctx) : State := { s with ctxs := kvMod s.ctxs o f }

/-- The domain with a number. -/
def getDom (s : State) (d : Nat) : Domain := kvGetD s.domains d {}

/-- Change a domain. -/
def modDom (s : State) (d : Nat) (f : Domain → Domain) : State := { s with domains := kvSet s.domains d (f (getDom s d)) }

/-- The launch with a number. -/
def getLaunch (s : State) (l : Nat) : Launch := kvGetD s.launches l {}

/-- Change a launch. -/
def modLaunch (s : State) (l : Nat) (f : Launch → Launch) : State := { s with launches := kvMod s.launches l f }

/-- A new object number, from 1 on (log 3). -/
def freshId (s : State) : Nat × State := (s.nextId + 1, { s with nextId := s.nextId + 1 })

/-- The fibre of a lane. -/
def getFibre (g : Group) (l : Nat) : Fibre := kvGetD g.fibres l {}

/-- Change the fibres of the lanes of a mask. -/
def modLanes (g : Group) (m : LaneMask) (f : Nat → Fibre → Fibre) : Group :=
  { g with fibres := kvMap g.fibres fun l x => if inMask m l then f l x else x }

/-- The lanes that hold a fibre: DECL of cv0 (R78). -/
def liveMask (g : Group) : LaneMask := maskOf fun l => kvHas g.fibres l

/-- Cycles in a number of microseconds at the present core clock (R6, R299). -/
def cyclesOfUs (s : State) (us : Nat) : Nat := us * 1250 * s.dev.clkStep / 16

/-! ## Events to the host (R297) -/

/-- Write a doubleword into memory. -/
def putDWord (s : State) (pa v : Nat) : State := { s with mem := memPut s.mem pa (bytesOfNat 8 v) }

/-- Read a doubleword of memory. -/
def getDWord (s : State) (pa : Nat) : Nat := natOfBytes (memBytes s.mem pa 8)

/-- Raise the UCIe interrupt of a domain (R297). -/
def raiseIrq (dom : Nat) (s : State) : State := modDom s dom fun d => { d with irqs := d.irqs + 1 }

/-- Post an event of a domain: the record, then WRITE, then the interrupt; a full ring counts in DROPPED, an absent one in the
device. -/
def postEvent (dom owner code detail : Nat) (s : State) : State :=
  match (getDom s dom).evBase with
  | none => modDom s dom fun d => { d with evLost := d.evLost + 1 }
  | some base =>
    let size := (getDom s dom).evSize
    let w := getDWord s base
    if w - getDWord s (base + 8) = size ∧ getDWord s (base + 8) ≤ w then
      putDWord s (base + 16) (getDWord s (base + 16) + 1)
    else
      let rec_ := code + 2 ^ 16 * dom + 2 ^ 32 * owner
      let at_ := base + 64 + 16 * (w % size)
      raiseIrq dom (putDWord (putDWord (putDWord s at_ rec_) (at_ + 8) detail) base (w + 1))

/-! ## Regions and trace (R285, R287, R288) -/

/-- The region id at a position of a group's stack; positions at or above 16 read as 0. -/
def regionAt (g : Group) (i : Nat) : Nat := if i < 16 then g.regions.getD i 0 else 0

/-- The four ids of the region view, the top first. -/
def regionView (g : Group) : List Nat :=
  [1, 2, 3, 4].map fun k => if k ≤ g.depth then regionAt g (g.depth - k) else 0

/-- The region view as one number, the top lowest. -/
def regionWord (g : Group) : Nat := (regionView g).foldr (fun id v => id + 2 ^ 16 * v) 0

/-- Write a trace record of a group (R288) when the domain's mask has the record's bit. -/
def traceRecord (gid bit kind id : Nat) (pc : Word) (s : State) : State :=
  let g := getGroup s gid
  match (getDom s g.place.dom).trace with
  | none => s
  | some t =>
    if t.mask.testBit bit then
      let w := getDWord s t.base
      if w - getDWord s (t.base + 8) = t.size ∧ getDWord s (t.base + 8) ≤ w then
        putDWord s (t.base + 16) (getDWord s (t.base + 16) + 1)
      else
        let at_ := t.base + 64 + 32 * (w % t.size)
        let d0 := kind + 2 ^ 4 * id + 2 ^ 20 * g.place.owner + 2 ^ 32 * slotOfGid gid + 2 ^ 40 * coreOfGid gid
          + 2 ^ 48 * g.place.num + 2 ^ 56 * g.depth
        let d1 := g.place.teamId.toNat + 2 ^ 32 * pc.toNat
        let s := putDWord (putDWord s at_ d0) (at_ + 8) d1
        putDWord (putDWord (putDWord s (at_ + 16) (regionWord g)) (at_ + 24) s.dev.clock) t.base (w + 1)
    else s

/-- The lowest PC of the lanes of a mask, or of all fibres. -/
def lowestPc (g : Group) (m : LaneMask) : Word :=
  match leastBy (fun a b : Word => a < b) ((g.fibres.filter fun e => inMask m e.1).map fun e => e.2.pc) with
  | some pc => pc
  | none => 0

/-- A debugger stop takes effect (R286): the group is HALTED and a STOP record is written. -/
def stopGroup (gid : Nat) (pc : Word) (s : State) : State :=
  traceRecord gid 2 3 0 pc (modGroup s gid fun g =>
    { g with halted := true, sched := { g.sched with stopPending := false } })

/-- Stop a group that is stop-pending. -/
def stopIfPending (gid : Nat) (pc : Word) (s : State) : State :=
  if (getGroup s gid).sched.stopPending then stopGroup gid pc s else s

/-! ## Event counts (R291, R292) -/

/-- The hash of a sketch row (R291). -/
def sketchHash (a k : Nat) : Nat := k * a % 2 ^ 32 / 2 ^ 22

/-- Add a weight to a sketch of 4 rows of 1,024 counters. -/
def sketchAdd (m : KV Nat) (k w : Nat) : KV Nat :=
  [(0, 0x9E3779B1), (1, 0x7FEB352D), (2, 0x846CA68B), (3, 0xB5297A4D)].foldl (fun m r =>
    let i := r.1 * 1024 + sketchHash r.2 k
    kvSet m i (min (2 ^ 32 - 1) (kvGetD m i 0 + w))) m

/-- Add a weight to a session's 64-bit totals; an absent event is frozen (R292, R293). -/
def profileAdd (id w : Nat) (p : Profile) : Profile :=
  { p with totals := (p.totals.zip (p.events.zip p.absent)).map fun e =>
      if e.2.1 = id ∧ e.2.2 = false then (e.1 + w) % 2 ^ 64 else e.1 }

/-- Add a weight to the device's session. -/
def deviceAdd (id w : Nat) (s : State) : State :=
  { s with dev := { s.dev with profile := s.dev.profile.map (profileAdd id w) } }

/-- The session of a domain that counts an event: leaves 16 and 17 belong to a device session alone (R292). -/
def domainSession (s : State) (dom id : Nat) : Option Profile :=
  if id = 0x20 ∨ id = 0x21 then none else (getDom s dom).profile

/-- Add a weight to a domain's session. -/
def domainAdd (dom id w : Nat) (s : State) : State :=
  if (domainSession s dom id).isSome then
    modDom s dom fun d => { d with profile := d.profile.map (profileAdd id w) } else s

/-- The sketches of a core take an event that one of the sessions has chosen, by its PC and by its kernel (R291). -/
def sketchEvent (core : Nat) (sess : List Profile) (id w pc entry : Nat) (s : State) : State :=
  let byPc := sess.any fun p => p.pcEvent == id && !p.pcAbsent
  let byKer := sess.any fun p => p.kerEvent == id && !p.kerAbsent
  if byPc || byKer then
    modCore s core fun c => { c with
      sketchPc := if byPc then sketchAdd c.sketchPc pc w else c.sketchPc,
      sketchKer := if byKer then sketchAdd c.sketchKer entry w else c.sketchKer }
  else s

/-- An event occurs on a core, for a domain, at an instruction's PC in a kernel: the sessions that name it count it, and
the core's sketches where one of them has chosen it (R291, R292). -/
def countEvent (core dom id w pc entry : Nat) (s : State) : State :=
  let sess := (domainSession s dom id).toList ++ s.dev.profile.toList
  if sess.isEmpty then s else sketchEvent core sess id w pc entry (deviceAdd id w (domainAdd dom id w s))

/-- An event occurs in a group. -/
def groupEvent (gid id w : Nat) (pc : Word) (s : State) : State :=
  let g := getGroup s gid
  countEvent (coreOfGid gid) g.place.dom id w pc.toNat g.place.hdr.entry.toNat s

/-! ## The issuing path -/

/-- Add to one leaf of a core's 64-bit slot accounts (R289). -/
def chargeLeaf (c : Core) (leaf n : Nat) : Core :=
  { c with accounts := c.accounts.set leaf ((c.accounts.getD leaf 0 + n) % 2 ^ 64) }

/-- Whether a path lies in one half of the lanes, 0 to 31 or 32 to 63: it holds a lane pipe for 1 cycle, another for 2
(R32, R301). -/
def oneHalf (m : LaneMask) : Bool := m.extractLsb' 0 32 == 0 || m.extractLsb' 32 32 == 0

/-- The path's lanes belong to a path that issues in this cycle (R71), and the group has issued (R33). Where an STCMP of
these lanes resumes is used up (R154). -/
def noteRan (s : State) : State :=
  let g := modLanes (curGroup s) s.cur.mask fun _ x => { x with misses := 0, aged := false }
  setCurGroup s { g with
    trap := { g.trap with stcmpAt := g.trap.stcmpAt.filter fun r => !overlaps r.mask s.cur.mask },
    sched := { g.sched with
      ageing := 0, leaf := 6, issuedAt := some s.dev.clock,
      vote := g.sched.vote.map fun v => { v with ran := v.ran ||| s.cur.mask } } }

/-- An issue slot of a sub-core of a core is taken, and charged to a leaf (R32, R289, R301). -/
def takeSlot (leaf : Nat) (s : State) (c : Core) : Core :=
  let sub := slotOfGid (curGid s) / 32
  chargeLeaf { c with
    issued := (sub, leaf) :: c.issued,
    laneNext := if leaf = 0 ∧ oneHalf s.cur.mask = false then sub :: c.laneNext else c.laneNext } leaf 1

/-- The path's instruction takes an issue slot, which a profiling session may count (R289, R292). -/
def countSlot (leaf : Nat) (s : State) : State :=
  let p := (curGroup s).place
  countEvent s.cur.core p.dom (0x10 + leaf) 1 s.cur.pc.toNat p.hdr.entry.toNat (modCore s s.cur.core (takeSlot leaf s))

/-- The path's instruction takes an issue slot, and its group has issued. -/
def noteSlot (leaf : Nat) (s : State) : State := noteRan (countSlot leaf s)

/-- An instruction of a context issues: the watchdog's time restarts (R255). -/
def noteRun (owner : Nat) (s : State) : State := modCtx s owner fun c => { c with lastIssue := s.dev.clock }

/-- The path's instruction issues (R33, R71, R255, R289). -/
def noteIssue (leaf : Nat) (s : State) : State := noteRun (curGroup s).place.owner (noteSlot leaf s)

/-- The path's instruction is held: nothing changes but what the lowest-PC path's slots are charged to (R290). -/
def noteStall (leaf : Nat) (s : State) : State :=
  let g := curGroup s
  setCurGroup s { g with sched := { g.sched with
    stalled := true, leaf := if s.cur.port = 0 then leaf else g.sched.leaf } }

/-- Move the path to the next instruction. -/
def advance (n : Nat) (s : State) : State :=
  setCurGroup s (modLanes (curGroup s) s.cur.mask fun _ x => { x with pc := x.pc + BitVec.ofNat 32 n })

/-- Hold the path's lanes for a number of cycles (R143, R387), the slots charged to a leaf. -/
def holdPath (cycles leaf : Nat) (s : State) : State :=
  let g := curGroup s
  setCurGroup s { g with sched := { g.sched with
    holds := { mask := s.cur.mask, until_ := s.dev.clock + cycles, leaf := leaf } :: g.sched.holds } }

/-- The path's fetch port loses the next cycles (R220). -/
def holdPort (cycles : Nat) (s : State) : State :=
  let g := curGroup s
  setCurGroup s { g with sched := { g.sched with
    portHolds := kvSet g.sched.portHolds s.cur.port (s.dev.clock + cycles + 1) } }

/-! ## Taking a trap (R242 to R259) -/

/-- Whether an installed handler can receive a cause (R242, R247); a context cause never can. -/
def handlerAllowed (code : Nat) : Bool :=
  decide (1 ≤ code) && decide (code ≤ 0x1E) && code != 0x17 && code != 0x1B

/-- The handler PC a domain has installed for a cause (R247). -/
def handlerPc (s : State) (dom code : Nat) : Option Word :=
  let e := (getDom s dom).handlers.getD code 0
  if handlerAllowed code ∧ e.getLsbD 0 = true then some (e &&& 0xFFFFFFFC) else none

/-- The eight words of a trap record (R243). -/
def trapWords (t : TrapInfo) (held : Bool) (depth top : Nat) : List Word :=
  [BitVec.ofNat 32 (t.code + (if held then 256 else 0) + (if t.async then 512 else 0)
      + (if t.nested then 1024 else 0) + 65536 * t.detail),
   t.retPc, t.mask.extractLsb' 0 32, t.mask.extractLsb' 32 32,
   BitVec.ofNat 32 t.addr, BitVec.ofNat 32 (t.addr / 2 ^ 32), BitVec.ofNat 32 t.progress,
   BitVec.ofNat 32 (top + 65536 * depth)]

/-- The top region id, 0 at depth 0. -/
def topRegion (g : Group) : Nat := (regionView g).headD 0

/-- Record a late fault of a context (R259). -/
def lateFault (owner : Nat) (r : Late) (s : State) : State :=
  modCtx s owner fun c =>
    { c with late := if c.late.length < 8 then c.late ++ [r] else c.late, nlate := min 255 (c.nlate + 1) }

/-- The late-fault record of a trap of a group (R259): the trap record that the trap would have had, with its marks
(R243), and the group's team, number and core. -/
def lateOf (s : State) (gid : Nat) (t : TrapInfo) : Late :=
  let g := getGroup s gid
  { recWords := trapWords { t with nested := t.nested || g.trap.handler.isSome } (!g.trap.held.isEmpty) g.depth (topRegion g),
    team := (getTeam s g.place.team).index, group := g.place.num, core := coreOfGid gid }

/-- A trap of a group, after its context's first fatal one, is a late fault (R246, R259). -/
def lateTrap (gid : Nat) (t : TrapInfo) (s : State) : State :=
  lateFault (getGroup s gid).place.owner (lateOf s gid t) s

/-- A halted group (R251 step 2); a suspended one keeps its fault in its trap-record words (R254), unless its handler runs,
whose record it keeps. -/
def haltedGroup (g : Group) : Group :=
  let words := match g.trap.pageFault with
    | some t => if g.trap.handler.isSome then g.trap.words else trapWords t (!g.trap.held.isEmpty) g.depth (topRegion g)
    | none => g.trap.words
  { g with halted := true, sched := { g.sched with stopPending := false }, trap := { g.trap with words := words } }

/-- Halt every group of a context (R251 step 2). -/
def haltCtx (owner : Nat) (s : State) : State :=
  { s with groups := kvMap s.groups fun _ g => if g.place.owner = owner then haltedGroup g else g }

/-- Whether two commands use a thing in common that one of them writes (R100). -/
def usesMeet (a b : List (Res × Bool)) : Bool := a.any fun x => b.any fun y => x.1 == y.1 && (x.2 || y.2)

/-- The TLD commands of a context that have started (R252): a sequencer starts a command once no command accepted earlier
holds it back (R100). That it does so at once is DEDUCED (log 13). -/
def startedTlds (s : State) (owner : Nat) : List Nat :=
  s.cores.flatMap fun e => (e.2.eng.cmds.filter fun c =>
    c.owner == owner && (match c.kind with | .tld .. => true | _ => false)
      && e.2.eng.cmds.all fun d => !decide (d.id < c.id) || !usesMeet d.uses c.uses).map fun c => c.id

/-- The copies of a context whose first request has left the core (R252): that of a CPA leaves once no copy that its group
issued earlier waits for the coalescer. That it does so at once is DEDUCED (log 13). -/
def startedCopies (s : State) (owner : Nat) : List (Nat × Nat) :=
  let isCopy (o : Op) : Bool := match o.kind with | .copy _ => !o.done | _ => false
  let goes (ops : List Op) (o : Op) : Bool := o.accs.any (fun a => a.done) ||
    ops.all fun p => !decide (p.seq < o.seq) || !(p.accs.any fun a => !a.done)
  s.groups.flatMap fun e =>
    let ops := e.2.ops.filter isCopy
    if e.2.place.owner = owner then (ops.filter (goes ops)).map fun o => (e.1, o.seq) else []

/-- Whether some context is between steps 2 and 4 of the fatal path (R251). -/
def fatalBusy (s : State) : Bool :=
  s.ctxs.any fun e => match e.2.fatal with
    | some f => f.step != .dumped
    | none => false

/-- Steps 1 and 2 of the fatal path (R251): record the first fault and halt the context. -/
def goFatal (owner : Nat) (f : Fatal) (s : State) : State :=
  let queued := fatalBusy s
  let f := { f with queued := queued, clock := s.dev.clock, started := startedTlds s owner, copies := startedCopies s owner }
  let s := modCtx s owner fun c => { c with fatal := some f }
  haltCtx owner { s with dumpQ := s.dumpQ ++ [owner] }

/-- A fatal trap of a group (R249, R251). The group's trap-record words are written unless the trap is NESTED. -/
def fatalTrap (gid : Nat) (t : TrapInfo) (s : State) : State :=
  let g := getGroup s gid
  let words := trapWords t (!g.trap.held.isEmpty) g.depth (topRegion g)
  let s := if t.nested then s else setGroup s gid { g with trap := { g.trap with words := words } }
  goFatal g.place.owner
    { recWords := words, clock := 0, team := g.place.teamId.toNat, group := g.place.num,
      cluster := clusterOfCore (coreOfGid gid), depth := g.depth, regions := regionView g, queued := false } s

/-- A fatal context cause (R251, R255, R257): it belongs to no group. -/
def fatalCtx (owner code detail addr : Nat) (s : State) : State :=
  let t : TrapInfo := { code := code, detail := detail, addr := addr, async := true }
  if (getCtx s owner).fatal.isSome then
    lateFault owner { recWords := trapWords t false 0 0, team := 2 ^ 64 - 1, group := 2 ^ 32 - 1, core := 2 ^ 32 - 1 } s
  else
    goFatal owner { recWords := trapWords t false 0 0, clock := 0, team := 2 ^ 32 - 1, group := 255, cluster := 0,
                    depth := 0, regions := [0, 0, 0, 0], queued := false } s

/-- Delivery to a handler (R248): the record, the handler-active mark, and the PCs of the trapped path. -/
def enterHandler (gid : Nat) (t : TrapInfo) (pc : Word) (s : State) : State :=
  let g := getGroup s gid
  let g := { g with trap := { g.trap with
    words := trapWords t (!g.trap.held.isEmpty) g.depth (topRegion g), deliveredAt := some s.dev.clock,
    handler := some { mask := t.mask, faultPc := t.retPc, stcmp := t.stcmp } } }
  let s := setGroup s gid (modLanes g t.mask fun _ x => { x with pc := pc })
  stopIfPending gid t.retPc s

/-- Suspend a group on PAGE_ABSENT and post the request (R245). -/
def suspendGroup (gid : Nat) (t : TrapInfo) (s : State) : State :=
  let g := getGroup s gid
  let s := setGroup s gid { g with
    st := .suspended, trap := { g.trap with pageFault := some t } }
  postEvent g.place.dom g.place.owner 0x03 (t.addr % 2 ^ 52) s

/-- Deliver a trap of a group under R246: the handler, or the fatal path; after the context's first fatal fault it is
a late fault (R259). -/
def deliverTrap (gid : Nat) (t : TrapInfo) (s : State) : State :=
  let g := getGroup s gid
  if (getCtx s g.place.owner).fatal.isSome then lateTrap gid t s
  else
    match g.trap.handler with
    | some _ => fatalTrap gid { t with nested := true } s
    | none =>
      match handlerPc s g.place.dom t.code with
      | some pc => enterHandler gid t pc s
      | none => fatalTrap gid t s

/-- Whether a trap of the path that issues is held: the other path's trap entered the group's handler, or suspended
the group, in the same cycle (R82). -/
def holdsTrap (s : State) : Bool :=
  let g := curGroup s
  match g.trap.handler with
  | some h => !overlaps h.mask s.cur.mask
  | none => g.st == .suspended

/-- Hold a trap of a group (R82): the record of a trap that has been delivered shows it (R243). -/
def holdTrap (gid : Nat) (t : TrapInfo) (s : State) : State :=
  modGroup s gid fun g => { g with trap := { g.trap with
    held := g.trap.held ++ [t],
    words := if g.trap.handler.isSome then g.trap.words.set 0 (g.trap.words.getD 0 0 ||| 256) else g.trap.words } }

/-- Deliver a trap of a group, which for PAGE_ABSENT goes first to the host runtime unless the context is fatal (R245,
R259). -/
def deliverOrSuspend (gid : Nat) (t : TrapInfo) (s : State) : State :=
  if t.code = 4 ∧ (getCtx s (getGroup s gid).place.owner).fatal.isNone then suspendGroup gid t s
  else deliverTrap gid t s

/-- A trap raised by the path that issues (R82, R245, R246, R249); its instruction has not issued. -/
def raiseTrap (t : TrapInfo) (s : State) : State :=
  if holdsTrap s then holdTrap (curGid s) t s else deliverOrSuspend (curGid s) t s

/-- The trap record of a precise trap of the issuing path: the return PC is the instruction's (R244). -/
def preciseTrap (s : State) (code addr progress : Nat) : TrapInfo :=
  { code := code, addr := addr, progress := progress, retPc := s.cur.pc, mask := s.cur.mask }

/-- Raise a precise trap of the issuing path (R242, R243). -/
def trapNow (code addr progress : Nat) (s : State) : State := raiseTrap (preciseTrap s code addr progress) s

/-- The elements below the faulting one of an STCMP whose trap is delivered after it was held are among the operations to
perform (R82, R154). -/
def startBelow (t : TrapInfo) (g : Group) : Group :=
  match t.below with
  | some o => { g with ops := g.ops ++ [{ o with seq := g.opSeq }], opSeq := g.opSeq + 1 }
  | none => g

/-- Deliver the oldest held trap of a group, if any (R82, R250). -/
def deliverHeld (gid : Nat) (s : State) : State :=
  let g := getGroup s gid
  match g.trap.held with
  | [] => s
  | t :: ts => deliverOrSuspend gid t (setGroup s gid (startBelow t { g with trap := { g.trap with held := ts } }))

/-- A path of a group resumes at an STCMP's element, instead of where its lanes were to resume before (R154). -/
def resumeStcmp (r : StcmpAt) (g : Group) : Group :=
  { g with trap := { g.trap with stcmpAt := r :: g.trap.stcmpAt.filter fun x => !overlaps x.mask r.mask } }

/-- The handler of a group ends (R248, R250): handler-active is cleared, then the held trap is delivered. -/
def endHandler (gid : Nat) (s : State) : State :=
  deliverHeld gid (modGroup s gid fun g => { g with trap := { g.trap with handler := none } })

/-- Return from a handler (R250): every fibre of the trapped path that has not exited goes to TRAPREC1, and an STCMP
that trapped resumes at the element that TRAPREC6 holds (R154). -/
def returnFromTrap (gid : Nat) (h : Handler) (s : State) : State :=
  let g := getGroup s gid
  let pc := g.trap.words.getD 1 0
  let g := modLanes g h.mask fun _ x => { x with pc := pc }
  let g := if h.stcmp ∧ pc = h.faultPc then
      resumeStcmp { pc := pc, mask := h.mask, elt := (g.trap.words.getD 6 0).toNat } g else g
  endHandler gid (setGroup s gid g)

end Sys2Proof.Machine
end

