-- ==== Sys2Proof/Machine/Survey.lean ====
section
/-! DEFINITION. Survey (R211 to R231): the owner banks of cores and slices, their images, and the training of the
stride prefetch tables, fetch predictors, replacement signatures and bin estimators. -/

namespace Sys2Proof.Machine

open Sys2Proof

/-! ## Entries -/

/-- A cleared bank of an owner (R213, R224). -/
def clearedBank (owner : Nat) : Bank := { owner := owner }

/-- The COUNT of an L1 signature entry: 1 when cleared (R221). -/
def sigCount (m : KV Nat) (i : Nat) : Nat := kvGetD m i 1

/-- One step of a signature entry, up to 7 or down to 0 (R222). -/
def sigBump (up : Bool) (m : KV Nat) (i : Nat) : KV Nat :=
  kvSet m i (if up then min 7 (sigCount m i + 1) else sigCount m i - 1)

/-- The index of an instruction in an L1 signature table (R221). -/
def l1SigIndex (pc : Word) : Nat := field pc.toNat 2 10

/-- The index of an instruction of a core in a slice signature table (R221). -/
def sliceSigIndex (pc : Word) (core : Nat) : Nat := Nat.xor (field pc.toNat 2 10) (core % 4 * 2 ^ 10)

/-! ## Images (R228) -/

/-- The entries 0 to n−1 of a table as bytes of a fixed width. -/
def tableBytes {w : Nat} (m : KV (BitVec w)) (n bytes : Nat) : List Byte :=
  (List.range n).flatMap fun i => bytesOfNat bytes (kvGetD m i 0).toNat

/-- A signature table of n entries packed 3 bits each. -/
def sigBits (m : KV Nat) (n : Nat) : Nat :=
  (List.range n).foldl (fun v i => v + sigCount m i * 2 ^ (3 * i)) 0

/-- The header of a Survey image. -/
def imageHeader (kind pfdist : Nat) : List Byte :=
  bytesOfNat 8 (0x5356 + 2 ^ 16 * kind + 2 ^ 24 + 2 ^ 32 * pfdist) ++ List.replicate 56 0

/-- The image of a core bank, 25,152 bytes. -/
def coreImage (b : Bank) : List Byte :=
  imageHeader 0 b.pfdist ++ tableBytes b.stride 512 16 ++ tableBytes b.fetch 2048 8
    ++ bytesOfNat 384 (sigBits b.sig 1024)
    ++ (List.range 64).flatMap fun i => bytesOfNat 2 (kvGetD b.est i 0)

/-- The image of a slice bank, 1,600 bytes. -/
def sliceImage (b : SliceBank) : List Byte := imageHeader 1 0 ++ bytesOfNat 1536 (sigBits b.sig 4096)

/-- A stride entry as stored: one whose V is 0 has every field zero (R227). -/
def normStride (e : BitVec 128) : BitVec 128 := if e.getLsbD 94 then e else 0

/-- A fetch entry as stored. -/
def normFetch (e : BitVec 256) : BitVec 256 := if e.getLsbD 40 then e else 0

/-- The reserved bits of a stride entry are zero (R216). -/
def strideOk (e : BitVec 128) : Bool := e.extractLsb' 95 33 == 0 && e.extractLsb' 52 12 == 0

/-- The reserved bits of a fetch entry are zero (R219). -/
def fetchOk (e : BitVec 256) : Bool := e.extractLsb' 41 215 == 0

/-- The checks that SVLOAD makes on a header (R228). -/
def imageHeaderOk (kind : Nat) (bs : List Byte) : Bool :=
  let h := natOfBytes (bs.take 64)
  let pf := field h 32 4
  field h 0 16 == 0x5356 && field h 16 8 == kind && field h 24 8 == 1 && field h 36 476 == 0
    && (if kind == 0 then 1 ≤ pf else pf == 0)

/-- The entry of `bytes` bytes at an offset of an image. -/
def imageEntry (bs : List Byte) (off bytes : Nat) : Nat := natOfBytes ((bs.drop off).take bytes)

/-- A table from the nonzero entries of an image. -/
def tableOf (w : Nat) (bs : List Byte) (off bytes n : Nat) : KV (BitVec w) :=
  (List.range n).filterMap fun i =>
    let v := BitVec.ofNat w (imageEntry bs (off + bytes * i) bytes)
    if v = 0 then none else some (i, v)

/-- A signature table from its packed bits; entries that read 1 are as cleared. -/
def sigOf (v n : Nat) : KV Nat :=
  (List.range n).filterMap fun i => let c := field v (3 * i) 3; if c = 1 then none else some (i, c)

/-- A core bank from an image, or none when a check fails (R228). -/
def parseCore (owner : Nat) (bs : List Byte) : Option Bank :=
  let stride := tableOf 128 bs 64 16 512
  let fetch := tableOf 256 bs 8256 8 2048
  if imageHeaderOk 0 bs && (stride.all fun e => strideOk e.2) && (fetch.all fun e => fetchOk e.2) then
    some { owner := owner, pfdist := field (natOfBytes (bs.take 64)) 32 4,
           stride := stride.map (fun e => (e.1, normStride e.2)), fetch := fetch.map (fun e => (e.1, normFetch e.2)),
           sig := sigOf (imageEntry bs 24640 384) 1024,
           est := (List.range 64).map fun i => (i, imageEntry bs (25024 + 2 * i) 2) }
  else none

/-- A slice bank from an image. -/
def parseSlice (owner : Nat) (bs : List Byte) : Option SliceBank :=
  if imageHeaderOk 1 bs then some { owner := owner, sig := sigOf (imageEntry bs 64 1536) 4096 } else none

/-! ## Residency (R213, R214, R230) -/

/-- A doubleword of a context descriptor (R238). -/
def descWord (s : State) (owner off : Nat) : Nat := getDWord s ((getCtx s owner).desc + off)

/-- The address of a core's image in a context's Survey area (R230). -/
def coreImageAt (s : State) (owner core : Nat) : Nat := descWord s owner 0x60 + 25152 * core

/-- The address of a slice's image. -/
def sliceImageAt (s : State) (owner slice : Nat) : Nat := descWord s owner 0x60 + 25152 * 256 + 1600 * slice

/-- The bank of an owner on a core. -/
def findBank (s : State) (core owner : Nat) : Option Bank :=
  (getCore s core).banks.find? fun b => b.owner == owner

/-- Use and change the bank of an owner on a core: the banks stand in order of recency, the latest first (R213). An update
whose bank is not resident is dropped (R222). -/
def modBank (core owner : Nat) (f : Bank → Bank) (s : State) : State :=
  modCore s core fun c => { c with
    banks := (c.banks.filter fun b => b.owner == owner).map f ++ c.banks.filter fun b => b.owner != owner }

/-- Whether an owner has a resident group on a core. -/
def ownerOnCore (s : State) (core owner : Nat) : Bool :=
  s.groups.any fun e => coreOfGid e.1 == core && e.2.place.owner == owner

/-- Whether a group of an owner can become resident on a core as far as banks go (R213). -/
def bankAvailable (s : State) (core owner : Nat) : Bool :=
  let bs := (getCore s core).banks
  (findBank s core owner).isSome || bs.length < 4 || bs.any fun b => !ownerOnCore s core b.owner

/-- The bank of an owner as its image in the context area gives it, cleared when empty or malformed (R213). -/
def loadedBank (s : State) (core owner : Nat) : Bank :=
  (parseCore owner (memBytes s.mem (coreImageAt s owner core) 25152)).getD (clearedBank owner)

/-- Save the bank of an owner to its image and give it up (R213). -/
def evictBank (core owner : Nat) (s : State) : State :=
  match findBank s core owner with
  | none => s
  | some b =>
    let s := { s with mem := memPut s.mem (coreImageAt s owner core) (coreImage b) }
    modCore s core fun c => { c with banks := c.banks.filter fun b => b.owner != owner }

/-- Make the bank of an owner resident on a core (R213): the least recently used bank of an owner without a resident group
gives way. -/
def residentBank (core owner : Nat) (s : State) : State :=
  match findBank s core owner with
  | some _ => modBank core owner id s
  | none =>
    let bs := (getCore s core).banks
    let s := if bs.length < 4 then s else
      match bs.reverse.find? fun b => !ownerOnCore s core b.owner with
      | some v => evictBank core v.owner s
      | none => s
    modCore s core fun c => { c with banks := loadedBank s core owner :: c.banks }

/-- The slice with a number. -/
def getSlice (s : State) (n : Nat) : Slice := kvGetD s.slices n {}

/-- Change a slice. -/
def modSlice (n : Nat) (f : Slice → Slice) (s : State) : State :=
  { s with slices := kvSet s.slices n (f (getSlice s n)) }

/-- The bank of an owner in a slice. -/
def findSliceBank (s : State) (n owner : Nat) : Option SliceBank :=
  (getSlice s n).banks.find? fun b => b.owner == owner

/-- Make the bank of an owner resident in a slice (R214). -/
def residentSliceBank (n owner : Nat) (s : State) : State :=
  match findSliceBank s n owner with
  | some b => modSlice n (fun x => { x with banks := b :: x.banks.filter fun b => b.owner != owner }) s
  | none =>
    let bs := (getSlice s n).banks
    let s := if bs.length < 8 then s else
      match bs.getLast? with
      | some v =>
        let s := { s with mem := memPut s.mem (sliceImageAt s v.owner n) (sliceImage v) }
        modSlice n (fun x => { x with banks := x.banks.filter fun b => b.owner != v.owner }) s
      | none => s
    let b := (parseSlice owner (memBytes s.mem (sliceImageAt s owner n) 1600)).getD { owner := owner }
    modSlice n (fun x => { x with banks := b :: x.banks }) s

/-! ## Training -/

/-- The update of a stride entry by an access at an address (R217). -/
def strideStep (e : BitVec 128) (pc : Word) (a : Nat) : BitVec 128 :=
  let v := e.toNat
  let tag := field pc.toNat 8 8
  if field v 94 1 = 0 ∨ field v 86 8 ≠ tag then BitVec.ofNat 128 (2 ^ 94 + 2 ^ 86 * tag + a)
  else
    let delta : Int := Int.ofNat a - Int.ofNat (field v 0 52)
    let stride := field v 64 20
    let conf := field v 84 2
    let fits := decide (-(2 ^ 19 : Int) ≤ delta) && decide (delta < 2 ^ 19)
    let (stride, conf) :=
      if delta = signedOf 20 stride then (stride, min 3 (conf + 1))
      else if conf > 0 then (stride, conf - 1)
      else (if fits then unsignedOf 20 delta else 0, 0)
    BitVec.ofNat 128 (2 ^ 94 + 2 ^ 86 * tag + 2 ^ 84 * conf + 2 ^ 64 * stride + a)

/-- The addresses that a trained entry prefetches (R218), those that stay within 52 bits. -/
def prefetchTargets (e : BitVec 128) (a pfdist : Nat) : List Nat :=
  let conf := field e.toNat 84 2
  let stride := signedOf 20 (field e.toNat 64 20)
  let tgt (k : Nat) : Option Nat :=
    let t := Int.ofNat a + stride * Int.ofNat k
    if 0 ≤ t ∧ t < 2 ^ 52 then some t.toNat else none
  if conf < 2 then [] else
    (tgt pfdist).toList ++ (if conf = 3 then (tgt (pfdist + 1)).toList else [])

/-- The update of a fetch predictor entry by a branch (R220): `taken` holds the target. -/
def fetchStep (e : BitVec 256) (pc : Word) (taken : Option Word) : BitVec 256 :=
  let v := e.toNat
  let tag := field pc.toNat 10 8
  let hit := field v 40 1 = 1 ∧ field v 32 8 = tag
  match taken with
  | some t =>
    let ctr := if hit then min 3 (field v 30 2 + 1) else 2
    BitVec.ofNat 256 (2 ^ 40 + 2 ^ 32 * tag + 2 ^ 30 * ctr + field t.toNat 2 30)
  | none => if hit then BitVec.ofNat 256 (v - 2 ^ 30 * field v 30 2 + 2 ^ 30 * (field v 30 2 - 1)) else e

/-- The PC a fetch port goes to after a branch (R220). -/
def predictedPc (e : BitVec 256) (pc : Word) : Word :=
  let v := e.toNat
  if field v 40 1 = 1 ∧ field v 32 8 = field pc.toNat 10 8 ∧ 2 ≤ field v 30 2 then BitVec.ofNat 32 (4 * field v 0 30)
  else pc + 4

/-- The sub-core of a group slot (R17). -/
def subOfSlot (slot : Nat) : Nat := slot / 32

/-- The next PC of a path's port after a branch: of the PCs at which the branch leaves the lanes of the path the lowest, which
the port serves on (DEDUCED: R220 speaks of one next PC; log 13). -/
def portNext (m : LaneMask) (next : Nat → Word) : Word :=
  (leastBy (fun a b : Word => decide (a < b)) ((lanesOf m).map next)).getD 0

/-- A branch of the issuing path trains its sub-core's fetch predictor (R220), and a next PC that was not predicted holds its
port for 4 cycles, charged as predictor bubble. -/
def trainBranch (taken : Option Word) (next : Word) (s : State) : State :=
  let owner := (curGroup s).place.owner
  let i := 256 * subOfSlot s.cur.slot + field s.cur.pc.toNat 2 8
  match findBank s s.cur.core owner with
  | none => s
  | some b =>
    let e := kvGetD b.fetch i 0
    let s := modBank s.cur.core owner (fun b => { b with fetch := kvSet b.fetch i (fetchStep e s.cur.pc taken) }) s
    if predictedPc e s.cur.pc = next then s else holdPort 4 s

/-- The fill estimator after an arrival (R22). -/
def estStep (est gap : Nat) : Nat :=
  unsignedOf 16 (Int.ofNat est + (Int.ofNat gap - Int.ofNat est) / 8)

/-- An arrival at a bin updates its estimator (R22, R223); the timer the bin then runs. A bank that is absent is made resident
first, if it can be. -/
def binArrival (core bin owner : Nat) (s : State) : Nat × State :=
  let s := if bankAvailable s core owner then residentBank core owner s else s
  match findBank s core owner with
  | none => (4095, s)
  | some b =>
    let gap := match kvGet b.lastArr bin with
      | some t => min 65535 (s.dev.clock - t)
      | none => 65535
    let est := estStep (kvGetD b.est bin 0) gap
    (min 4095 (8 * est), modBank core owner (fun b =>
      { b with est := kvSet b.est bin est, lastArr := kvSet b.lastArr bin s.dev.clock }) s)

end Sys2Proof.Machine
end

