-- ==== Sys2Proof/Machine/Memory.lean ====
section
/-! DEFINITION. The memory hierarchy (R111 to R123): address forms, page walks and TLBs, the homes of pages, the L1s,
the slices, peers, and the release and acquire actions. -/

namespace Sys2Proof.Machine

open Sys2Proof

/-! ## Physical addresses (R113, R273) -/

/-- The size of device memory, 768 GiB. -/
def deviceBytes : Nat := 768 * 2 ^ 30

/-- The enabled peer slot that a physical address names (R273). -/
def peerOf (s : State) (pa : Nat) : Option Peer :=
  if 0xC00000000000 ≤ pa ∧ pa < 2 ^ 48 then kvGet s.net.peers (field pa 40 6) else none

/-- Whether a physical address is valid: device memory, host memory, or a peer's memory below its size. -/
def paValid (s : State) (pa : Nat) : Bool :=
  if pa < deviceBytes then true
  else if 2 ^ 47 ≤ pa ∧ pa < 2 ^ 48 then
    match peerOf s pa with
    | some p => field pa 0 40 < p.memSize
    | none => true
  else false

/-- Whether a physical address is host memory, reached over the UCIe attachment. -/
def paHost (s : State) (pa : Nat) : Bool := decide (2 ^ 47 ≤ pa) && (peerOf s pa).isNone

/-- The home slice of a physical address (R113). -/
def sliceOf (pa : Nat) : Nat := pa / 4096 % 48

/-- The clusters present, in ascending number (R295). -/
def clustersPresent (s : State) : List Nat := (List.range 64).filter fun c => s.dev.clusterMask.getLsbD c

/-- The cluster that owns a physical address for global atomics (R113). -/
def owningCluster (s : State) (pa : Nat) : Nat :=
  let cs := clustersPresent s
  cs.getD (pa / 4096 % cs.length) 0

/-- The address of the 128-byte line that holds a byte. -/
def lineOf (pa : Nat) : Nat := pa / 128 * 128

/-! ## Page walks (R114, R115) and TLBs (R117) -/

/-- What an access needs of its page (R118). -/
inductive Need where | load | store | atomic | fetch
  deriving DecidableEq, Repr

/-- Whether a translation gives the permission (R118). -/
def permits (e : TlbEnt) : Need → Bool
  | .load => e.r
  | .store => e.w
  | .atomic => e.r && e.w
  | .fetch => e.x

/-- The reserved bits of a page-table entry are zero. -/
def pteReservedOk (v : Nat) : Bool := field v 48 6 == 0 && field v 6 2 == 0 && field v 1 1 == 0

/-- Whether a leaf is malformed, for a page of a size (R115). -/
def leafBad (s : State) (v size : Nat) : Bool :=
  let pa := field v 8 40 * 256
  let home := field v 62 2
  let hcore := field v 54 8
  pa % size != 0 || !paValid s pa || (home == 2 && size != 0x10000)
    || (home == 2 && !s.dev.clusterMask.getLsbD (clusterOfCore hcore)) || (hcore != 0 && home != 2)

/-- A leaf as a TLB entry; a leaf in host or peer memory behaves as HOME 0b11 (R115). -/
def leafEntry (owner va v size : Nat) : TlbEnt :=
  let pa := field v 8 40 * 256
  { owner := owner, va := va / size * size, size := size, pa := pa,
    home := if 2 ^ 47 ≤ pa then 3 else BitVec.ofNat 2 (field v 62 2), hcore := field v 54 8,
    r := v.testBit 2, w := v.testBit 3, x := v.testBit 4 }

/-- One level of a walk: the entry's index field, the size a leaf maps (0 where no leaf may stand), and the alignment
of the next table. -/
structure Level where
  lo : Nat
  bits : Nat
  leaf : Nat
  next : Nat
  deriving DecidableEq, Repr

/-- The four levels (R114); at level D every valid entry is a leaf. -/
def levels : List Level :=
  [{ lo := 39, bits := 13, leaf := 0, next := 4096 }, { lo := 30, bits := 9, leaf := 2 ^ 30, next := 4096 },
   { lo := 21, bits := 9, leaf := 2 ^ 21, next := 256 }, { lo := 16, bits := 5, leaf := 2 ^ 16, next := 0 }]

/-- The walk from a table on (R115): the translation, or the cause of the fault. -/
def walkFrom (s : State) (owner va : Nat) : List Level → Nat → Except Nat TlbEnt
  | [], _ => .error 0x05
  | l :: ls, table =>
    let v := getDWord s (table + 8 * field va l.lo l.bits)
    let pa := field v 8 40 * 256
    if v % 2 = 0 then .error 0x04
    else if !pteReservedOk v then .error 0x05
    else if l.next = 0 ∨ v.testBit 5 = true then
      (if l.leaf = 0 ∨ leafBad s v l.leaf = true then .error 0x05 else .ok (leafEntry owner va v l.leaf))
    else if pa % l.next ≠ 0 ∨ paValid s pa = false then .error 0x05
    else walkFrom s owner va ls pa

/-- A context's walk from its translation root (R114, R238). -/
def walk (s : State) (owner va : Nat) : Except Nat TlbEnt := walkFrom s owner va levels (descWord s owner 0)

/-- The entry of a TLB that translates an address of a context. -/
def tlbFind (l : List TlbEnt) (owner va : Nat) : Option TlbEnt :=
  l.find? fun e => e.owner == owner && e.va ≤ va && va < e.va + e.size

/-- Add an entry to a TLB that holds so many; the oldest goes (log 7). -/
def tlbAdd (n : Nat) (l : List TlbEnt) (e : TlbEnt) : List TlbEnt := (e :: l).take n

/-- The translation of a virtual address on a core, from its TLB, its cluster's, or a walk (R117). -/
def translation (s : State) (core owner va : Nat) : Except Nat TlbEnt :=
  match tlbFind (getCore s core).tlb owner va with
  | some e => .ok e
  | none =>
    match tlbFind (kvGetD s.clusters (clusterOfCore core) {}).tlb owner va with
    | some e => .ok e
    | none => walk s owner va

/-- Keep a translation in the core's TLB and the cluster's, where they lack it. -/
def fillTlb (core : Nat) (e : TlbEnt) (s : State) : State :=
  let s := if (tlbFind (getCore s core).tlb e.owner e.va).isSome then s
    else modCore s core fun c => { c with tlb := tlbAdd 512 c.tlb e }
  let cl := kvGetD s.clusters (clusterOfCore core) {}
  if (tlbFind cl.tlb e.owner e.va).isSome then s
  else { s with clusters := kvSet s.clusters (clusterOfCore core) { cl with tlb := tlbAdd 8192 cl.tlb e } }

/-- Translate an access: the entry, or the cause (R118 steps 2 and 3). -/
def translate (s : State) (core owner va : Nat) (need : Need) : Except Nat TlbEnt :=
  match translation s core owner va with
  | .error c => .error c
  | .ok e => if permits e need then .ok e else .error 0x05

/-- The physical address of a virtual address under an entry. -/
def paOf (e : TlbEnt) (va : Nat) : Nat := e.pa + (va - e.va)

/-! ## Virtual addresses (R111, R112) -/

/-- The base of the local window. -/
def localWindow : Nat := 0x000F000000000000

/-- The offset of an address in the local window, if it lies there. -/
def localOffset (va : Nat) : Option Nat :=
  if localWindow ≤ va ∧ va < localWindow + 2 ^ 20 then some (va - localWindow) else none

/-- Whether a group can reach a range of its team's local memory (R112): not past its end, and never from a spawned
group. -/
def localOk (g : Group) (off len : Nat) : Bool :=
  g.place.kind != .spawned && decide (off + len ≤ g.place.hdr.localBytes)

/-- The place of an access, or the cause of the fault (R118). -/
def placeOf (s : State) (core : Nat) (g : Group) (va len : Nat) (need : Need) : Except Nat Loc :=
  if va % len ≠ 0 then .error 0x03
  else if 2 ^ 52 ≤ va then .error 0x05
  else
    match localOffset va with
    | some off => if localOk g off len then .ok (.loc g.place.team off) else .error 0x05
    | none =>
      match translate s core g.place.owner va need with
      | .error c => .error c
      | .ok e => .ok (.glob (paOf e va) e.home e.hcore)

/-- Keep the translation that an access used. -/
def notePlace (core : Nat) (g : Group) (va : Nat) (s : State) : State :=
  match localOffset va with
  | some _ => s
  | none =>
    match translation s core g.place.owner va with
    | .ok e => fillTlb core e s
    | .error _ => s

/-! ## Core SRAM (R116, R119) -/

/-- The bytes of a core's SRAM that local memory and HOME 0b10 pages pin (R119). -/
def pinnedBytes (s : State) (core : Nat) : Nat :=
  (s.teams.foldl (fun n e => if e.2.home = core then n + e.2.hdr.localBytes else n) 0)
    + 65536 * (getCore s core).sram.length

/-- The ways of a core's L1 (R119). -/
def l1Ways (s : State) (core : Nat) : Nat := max 4 (min 16 ((2 ^ 20 - pinnedBytes s core) / 65536))

/-- The bytes of a line that its dirty mask marks, with their addresses. -/
def dirtyBytes (l : Line) : List (Nat × Byte) :=
  ((List.range 128).filter fun i => l.dirty.getLsbD i).map fun i => (l.pa + i, l.data.extractLsb' (8 * i) 8)

/-- An uncorrectable error that no operation waits for (R123): it is posted to the domain, and the context takes the fatal
path that ends in the domain's reset. -/
def eccAlone (pa : Nat) (s : State) (owner : Nat) : State :=
  if kvHas s.ctxs owner then fatalCtx owner 0x1A 0 pa (postEvent (owner / 64) owner 0x0B pa s) else s

/-- Write the dirty bytes of a line back to its home slice (R119). A line with an uncorrectable error takes none (R123). -/
def writeBack (l : Line) (s : State) : State :=
  if s.ecc.contains l.pa && l.dirty != 0 then eccAlone l.pa s l.owner else { s with mem := memPutAt s.mem (dirtyBytes l) }

/-- Write back the lines of a core that satisfy a test, and keep them clean. -/
def cleanLines (core : Nat) (p : Line → Bool) (s : State) : State :=
  let ls := (getCore s core).l1
  let s := ls.foldl (fun s e => if p e.2 then writeBack e.2 s else s) s
  modCore s core fun c => { c with l1 := c.l1.map fun e => if p e.2 then (e.1, { e.2 with dirty := 0 }) else e }

/-- Write back and invalidate the lines of a core that satisfy a test. -/
def flushLines (core : Nat) (p : Line → Bool) (s : State) : State :=
  let ls := (getCore s core).l1
  let s := ls.foldl (fun s e => if p e.2 then writeBack e.2 s else s) s
  modCore s core fun c => { c with l1 := c.l1.filter fun e => !p e.2 }

/-- The core writes back and invalidates the lines of the ways it gives up (R119). -/
def shrinkL1 (core : Nat) (s : State) : State :=
  let ways := l1Ways s core
  let gone := (getCore s core).l1.filter fun e => ways ≤ e.1 % 16
  let s := gone.foldl (fun s e => writeBack e.2 s) s
  modCore s core fun c => { c with l1 := c.l1.filter fun e => e.1 % 16 < ways }

/-- Bring a HOME 0b10 page into the SRAM of its core at first touch (R116). -/
def touchPage (hcore pa : Nat) (s : State) : State :=
  let page := pa / 65536 * 65536
  if (getCore s hcore).sram.any fun p => p.pa == page then s
  else
    let p : SramPage := { pa := page, bytes := memCut s.mem page 65536 }
    shrinkL1 hcore (modCore s hcore fun c => { c with sram := p :: c.sram })

/-- Read bytes of a HOME 0b10 page. -/
def sramRead (s : State) (hcore pa n : Nat) : List Byte :=
  match (getCore s hcore).sram.find? fun p => p.pa == pa / 65536 * 65536 with
  | some p => memBytes p.bytes (pa % 65536) n
  | none => memBytes s.mem pa n

/-- Write bytes of a HOME 0b10 page. -/
def sramWrite (hcore pa : Nat) (bs : List Byte) (s : State) : State :=
  modCore s hcore fun c => { c with sram := c.sram.map fun p =>
    if p.pa = pa / 65536 * 65536 then { p with bytes := memPut p.bytes (pa % 65536) bs } else p }

/-! ## Slices (R121, R222) -/

/-- The ways of one set of a slice, by way. -/
def sliceWays (x : Slice) (set_ : Nat) : List (Nat × SliceLine) :=
  (List.range 16).filterMap fun w => (kvGet x.lines (set_ * 16 + w)).map fun l => (w, l)

/-- Age the lines of a set until one has RRPV 3, and give the lowest such way (R222). -/
def sliceVictim (ls : List (Nat × SliceLine)) : Option (Nat × Nat) :=
  let free := ls.filter fun e => !e.2.pinned
  match leastBy (fun a b : Nat × SliceLine => decide (b.2.rrpv < a.2.rrpv)) free with
  | none => none
  | some v => some (v.1, 3 - v.2.rrpv)

/-- One access of an owner that reaches a line in its home slice (R214, R222): a hit or an allocation. The line's data
stands in memory, so only the metadata changes. Answers the lines that could not be pinned (R116). -/
def sliceStep (x : Slice) (line set_ sig owner : Nat) (pin : Bool) : Slice × Nat :=
  let bump (x : Slice) (o : Nat) (up : Bool) (i : Nat) : Slice :=
    { x with banks := x.banks.map fun b => if b.owner = o then { b with sig := sigBump up b.sig i } else b }
  let ls := sliceWays x set_
  match ls.find? fun e => e.2.pa == line with
  | some (w, l) =>
    let l' : SliceLine := { l with rrpv := 0, reused := l.reused || l.owner == owner }
    let x := { x with lines := kvSet x.lines (set_ * 16 + w) l' }
    (if l.owner = owner then bump x owner true l.sig else x, 0)
  | none =>
    let pinned := (ls.filter fun e => e.2.pinned).length
    let pinOk := pin && decide (pinned < 12)
    let entry := (x.banks.find? fun b => b.owner == owner).map fun b => sigCount b.sig sig
    let new : SliceLine := { pa := line, rrpv := if entry = some 0 then 3 else 2, sig := sig, owner := owner, pinned := pinOk }
    let spilt := if pin && !pinOk then 1 else 0
    match (List.range 16).find? fun w => !(ls.any fun e => e.1 == w) with
    | some w => ({ x with lines := kvSet x.lines (set_ * 16 + w) new }, spilt)
    | none =>
      match sliceVictim ls with
      | none => (x, spilt)
      | some (w, age) =>
        let older (l : SliceLine) : SliceLine := { l with rrpv := l.rrpv + age }
        let lines := ls.foldl (fun m e => if e.2.pinned then m else kvSet m (set_ * 16 + e.1) (older e.2)) x.lines
        let x := match ls.find? fun e => e.1 == w with
          | some (_, l) => if l.reused then x else bump x l.owner false l.sig
          | none => x
        ({ x with lines := kvSet lines (set_ * 16 + w) new }, spilt)

/-- An access of an owner, from a core, that reaches a line in its home slice, in one of the slice's 4,096 sets (R3). -/
def sliceAccess (a : Who) (pa : Nat) (home : BitVec 2) (s : State) : State :=
  if deviceBytes ≤ pa then s else
  let n := sliceOf pa
  let s := match findSliceBank s n a.owner with
    | some _ => residentSliceBank n a.owner s
    | none => modSlice n (fun x => { x with wanted := if x.wanted.contains a.owner then x.wanted else a.owner :: x.wanted }) s
  let line := lineOf pa
  let r := sliceStep (getSlice s n) line (Config.sliceSet line % 4096) (sliceSigIndex a.pc a.core) a.owner (home == 1)
  let s := { s with slices := kvSet s.slices n r.1 }
  countEvent a.core (a.owner / 64) 0x0002 r.2 a.pc.toNat a.entry s

/-! ## The L1 (R119, R222) -/

/-- The set of a line in the L1. -/
def l1Set (pa : Nat) : Nat := field pa 7 9

/-- The way of a core's L1 that holds a line. -/
def l1Find (c : Core) (pa : Nat) : Option (Nat × Line) :=
  (List.range 16).findSome? fun w =>
    match kvGet c.l1 (l1Set pa * 16 + w) with
    | some l => if l.pa = lineOf pa then some (w, l) else none
    | none => none

/-- Store a line of a core's L1. -/
def l1Put (core way : Nat) (l : Line) (s : State) : State :=
  modCore s core fun c => { c with l1 := kvSet c.l1 (l1Set l.pa * 16 + way) l }

/-- A hit (R222). -/
def l1Hit (core way : Nat) (l : Line) (owner : Nat) (s : State) : State :=
  let s := l1Put core way { l with rrpv := 0, reused := l.reused || l.owner == owner, prefetched := false } s
  if l.owner = owner then modBank core owner (fun b => { b with sig := sigBump true b.sig l.sig }) s else s

/-- Make a way of a set free (R222): a way that holds nothing, or the victim, written back, whose signature is trained
when it was not reused. -/
def l1Free (core set_ : Nat) (s : State) : Nat × State :=
  let c := getCore s core
  let ways := (List.range (l1Ways s core)).map fun w => (w, kvGet c.l1 (set_ * 16 + w))
  match ways.find? fun e => e.2.isNone with
  | some (w, _) => (w, s)
  | none =>
    let ls := ways.filterMap fun e => e.2.map fun l => (e.1, l)
    match leastBy (fun a b : Nat × Line => decide (b.2.rrpv < a.2.rrpv)) ls with
    | none => (0, s)
    | some (w, v) =>
      let older (l : Line) : Line := { l with rrpv := l.rrpv + (3 - v.rrpv) }
      let s := writeBack v s
      let s := if v.reused then s else modBank core v.owner (fun b => { b with sig := sigBump false b.sig v.sig }) s
      let aged (m : KV Line) : KV Line := ls.foldl (fun m e => kvSet m (set_ * 16 + e.1) (older e.2)) m
      (w, modCore s core fun c => { c with l1 := kvDel (aged c.l1) (set_ * 16 + w) })

/-- Install a line, filled from its home slice (R222). -/
def l1Install (core owner : Nat) (sig : Nat) (pa : Nat) (home : BitVec 2) (pf : Bool) (s : State) : Nat × Line × State :=
  let line := lineOf pa
  let r := l1Free core (l1Set pa) s
  let s := r.2
  let count := match findBank s core owner with | some b => sigCount b.sig sig | none => 1
  let s := modBank core owner id s
  let l : Line := { pa := line, data := BitVec.ofNat 1024 (natOfBytes (memBytes s.mem line 128)),
                    rrpv := if count = 0 then 3 else 2, sig := sig, owner := owner, home := home, prefetched := pf }
  (r.1, l, l1Put core r.1 l s)

/-- A line that misses the L1 is filled on behalf of an access, through its home slice (R222). -/
def l1Fill (a : Who) (pa : Nat) (home : BitVec 2) (pf : Bool) (s : State) : Nat × Line × State :=
  l1Install a.core a.owner (l1SigIndex a.pc) pa home pf (sliceAccess a pa home s)

/-- A prefetch lands: its slot is free, and the line is installed unless it is there already or cannot be read (R218,
R222). -/
def landPrefetch (core slot : Nat) (p : PfSlot) (s : State) : State :=
  let s := modCore s core fun c => { c with pfSlots := kvDel c.pfSlots slot }
  if s.ecc.contains p.pa || (l1Find (getCore s core) p.pa).isSome then s
  else (l1Fill { core := core, owner := p.owner, pc := p.pc, entry := p.entry } p.pa p.home true s).2.2

/-- A demand access to a line whose prefetch is in flight waits for that line and takes its bytes (R215). -/
def awaitPrefetch (core pa : Nat) (s : State) : State :=
  match (getCore s core).pfSlots.find? fun e => e.2.pa == lineOf pa with
  | some e => landPrefetch core e.1 e.2 s
  | none => s

/-- The line of a cached access: a hit, or an allocation that reaches the slice. -/
def l1Line (a : Who) (pa : Nat) (home : BitVec 2) (s : State) : Nat × Line × State :=
  let s := if (l1Find (getCore s a.core) pa).isSome then s else awaitPrefetch a.core pa s
  match l1Find (getCore s a.core) pa with
  | some (w, l) => (w, l, l1Hit a.core w l a.owner s)
  | none => l1Fill a pa home false s

/-- Bytes of a line. -/
def lineBytes (l : Line) (pa n : Nat) : List Byte :=
  (List.range n).map fun i => l.data.extractLsb' (8 * (pa - l.pa + i)) 8

/-- A mask of `n` bytes from a byte on, each byte `w` bits wide. -/
def spanMask (w : Nat) (lo n : Nat) : Nat := (2 ^ (w * n) - 1) * 2 ^ (w * lo)

/-- Put bytes into a line, and mark them dirty or, when they are written through, clean. -/
def lineStore (l : Line) (pa : Nat) (bs : List Byte) (tag : Nat) (through : Bool) : Line :=
  let lo := pa - l.pa
  let m : BitVec 1024 := BitVec.ofNat 1024 (spanMask 8 lo bs.length)
  let d : BitVec 128 := BitVec.ofNat 128 (spanMask 1 lo bs.length)
  { l with data := (l.data &&& ~~~m) ||| BitVec.ofNat 1024 (natOfBytes bs * 2 ^ (8 * lo)),
           dirty := if through then l.dirty &&& ~~~d else l.dirty ||| d, tag := tag }

/-! ## Whole accesses -/

/-- Whether an L1 caches a page's bytes (R116). -/
def cachedHome (home : BitVec 2) : Bool := home == 0 || home == 1

/-- `n` bytes of contents that the manual does not lay out (log 4). -/
def packOf {α : Type} (item : Nat) (x : α) (n : Nat) : List Byte := (List.range n).map (Config.packByte item x)

/-- All bytes of contents that the manual does not lay out. -/
def packed {α : Type} (item : Nat) (x : α) : List Byte := packOf item x (Config.packLen item x)

/-- A free value from outside the device (log 10). -/
def freeBytes (n : Nat) (s : State) : List Byte × State :=
  ((List.range n).map fun i => Config.freeByte (s.free + i), { s with free := s.free + n })

/-- The links of a peer slot's mask, in ascending number. -/
def slotLinks (p : Peer) : List Nat := (List.range 16).filter fun k => p.links.getLsbD k

/-- Whether a peer's links are all down (R275). -/
def peerDown (s : State) (p : Peer) : Bool := p.links &&& s.net.links == 0

/-- The link that an access to a 4 KiB block of a peer goes over (R274): the (i mod n)-th of the slot's n links for block i. While
that one is down and another is up, the next one that is up takes its place (DESIGN CHOICE: the manual does not say which;
log 10). -/
def linkFor (s : State) (p : Peer) (pa : Nat) : Nat :=
  let ls := slotLinks p
  let i := pa / 4096 % max 1 ls.length
  ((ls.drop i ++ ls.take i).find? fun k => s.net.links.getLsbD k).getD (ls.getD i 0)

/-- A packet leaves for a peer. -/
def sendPeer (p : Peer) (cls : NetCls) (pa : Nat) (op : PeerOp) (len : Nat) (data : List Byte) (s : State) : State :=
  let r : PeerReq := { dev := p.dev.toNat, link := linkFor s p pa, cls := cls, pa := pa, op := op, len := len, data := data }
  { s with net := { s.net with peerOut := s.net.peerOut ++ [r] } }

/-- Read bytes at the point of coherence (R121): memory, the SRAM that holds a page, or a peer (R274). -/
def homeRead (pa n : Nat) (home : BitVec 2) (hcore : Nat) (s : State) : List Byte × State :=
  if home = 2 then
    let s := touchPage hcore pa s
    (sramRead s hcore pa n, s)
  else
    match peerOf s pa with
    | some p => freeBytes n (sendPeer p .q (field pa 0 40) .load n [] s)
    | none => (memBytes s.mem pa n, s)

/-- Write bytes at the point of coherence; what goes to a peer whose links are all down is discarded (R275). -/
def homeWrite (pa : Nat) (bs : List Byte) (home : BitVec 2) (hcore : Nat) (s : State) : State :=
  if home = 2 then sramWrite hcore pa bs (touchPage hcore pa s)
  else
    match peerOf s pa with
    | some p => if peerDown s p then s else sendPeer p .q (field pa 0 40) .store bs.length bs s
    | none => { s with mem := memPut s.mem pa bs }

/-- A core's own L1 gives up the lines of a range before an access of the core that goes round it: dirty bytes are
written back and the lines invalidated (R126). -/
def dropRange (core pa n : Nat) (s : State) : State := flushLines core (fun l => rangesMeet l.pa 128 pa n) s

/-- Bytes of a team's local memory. -/
def localRead (s : State) (t off n : Nat) : List Byte := memBytes (getTeam s t).mem off n

/-- Write bytes of a team's local memory. -/
def localWrite (t off : Nat) (bs : List Byte) (s : State) : State :=
  modTeam s t fun x => { x with mem := memPut x.mem off bs }

/-- An access meets a single-bit error in a line: ECC corrects it and counts ECC_CORRECTED (R123). -/
def meetSoft (a : Who) (pa : Nat) (s : State) : State :=
  if s.soft.contains (lineOf pa) then countEvent a.core (a.owner / 64) 0x0003 1 a.pc.toNat a.entry s else s

/-- A load's access, performed (R116, R119): through the core's L1 where the page is cached. -/
def readLoc (a : Who) (l : Loc) (n : Nat) (s : State) : List Byte × State :=
  match l with
  | .loc t off => (localRead s t off n, s)
  | .glob pa home hcore =>
    let s := meetSoft a pa s
    if cachedHome home then
      let r := l1Line a pa home s
      (lineBytes r.2.1 pa n, r.2.2)
    else homeRead pa n home hcore (dropRange a.core pa n s)

/-- A store's access with a scope code, performed: into the L1, whose line keeps the code, and through to the slice when its
effective scope is cluster or wider (R119); a page that no L1 caches is written at its home. -/
def writeLoc (a : Who) (code scope : Nat) (l : Loc) (bs : List Byte) (s : State) : State :=
  match l with
  | .loc t off => localWrite t off bs s
  | .glob pa home hcore =>
    let s := meetSoft a pa s
    if cachedHome home then
      let r := l1Line a pa home s
      let s := match l1Find (getCore r.2.2 a.core) pa with
        | some (w, l) => l1Put a.core w (lineStore l pa bs code (decide (3 ≤ scope))) r.2.2
        | none => r.2.2
      if 3 ≤ scope then
        let s := sliceAccess a pa home s
        { s with mem := memPut s.mem pa bs }
      else s
    else homeWrite pa bs home hcore (dropRange a.core pa bs.length s)

/-- The slice handles an access of an agent that goes round the L1 of its core: the core's own newer bytes are there first
(R121, R222). -/
def reachHome (a : Who) (pa n : Nat) (home : BitVec 2) (s : State) : State :=
  let s := dropRange a.core pa n (meetSoft a pa s)
  if cachedHome home then sliceAccess a pa home s else s

/-- Read within a line at the point of coherence for an agent of a core. -/
def coherentRead (a : Who) (l : Loc) (n : Nat) (s : State) : List Byte × State :=
  match l with
  | .loc t off => (localRead s t off n, s)
  | .glob pa home hcore => homeRead pa n home hcore (reachHome a pa n home s)

/-- Write within a line at the point of coherence for an agent of a core. -/
def coherentWrite (a : Who) (l : Loc) (bs : List Byte) (s : State) : State :=
  match l with
  | .loc t off => localWrite t off bs s
  | .glob pa home hcore => homeWrite pa bs home hcore (reachHome a pa bs.length home s)

/-- Whether an access meets a line that holds an uncorrectable error (R123): a line of memory, or of a team's local memory. -/
def eccHit (s : State) (l : Loc) : Option Nat :=
  match l with
  | .loc t off => if (getTeam s t).badLines.contains (lineOf off) then some (localWindow + lineOf off) else none
  | .glob pa _ _ => if s.ecc.contains (lineOf pa) then some (lineOf pa) else none

/-- Whether the links to the peer that an access goes to are all down (R275). -/
def linkDownFor (s : State) (l : Loc) : Option Nat :=
  match l with
  | .loc _ _ => none
  | .glob pa _ _ =>
    match peerOf s pa with
    | some p => if peerDown s p then some (lineOf pa) else none
    | none => none

/-- Whether an access goes to a peer slot of a list. -/
def lostFor (s : State) (lost : List Nat) (l : Loc) : Option Nat :=
  match l with
  | .loc _ _ => none
  | .glob pa _ _ =>
    match peerOf s pa with
    | some p => if lost.contains p.slot then some (lineOf pa) else none
    | none => none

/-- The line at which an access fails after issue (R123, R275); `lost` are the peer slots whose last link has fallen since its
operation issued. -/
def accessFails (s : State) (lost : List Nat) (l : Loc) : Option Nat :=
  (eccHit s l).orElse fun _ => (linkDownFor s l).orElse fun _ => lostFor s lost l

/-! ## Accesses from outside, at the homes (R274, R294) -/

/-- The core whose SRAM holds the page of a physical address (R116). -/
def sramHome (s : State) (pa : Nat) : Option Nat :=
  (s.cores.find? fun c => c.2.sram.any fun p => p.pa == pa / 65536 * 65536).map fun c => c.1

/-- Read a byte at its home. -/
def busRead (s : State) (pa : Nat) : Byte :=
  match sramHome s pa with
  | some c => (sramRead s c pa 1).headD 0
  | none => memByte s.mem pa

/-- Write a byte at its home; a line with an uncorrectable error keeps its bytes. -/
def busWrite (pa : Nat) (b : Byte) (s : State) : State :=
  if s.ecc.contains (lineOf pa) then s
  else
    match sramHome s pa with
    | some c => sramWrite c pa [b] s
    | none => { s with mem := memPut s.mem pa [b] }

/-- Write bytes from an address on. -/
def busWrites : Nat → List Byte → State → State
  | _, [], s => s
  | pa, b :: bs, s => busWrites (pa + 1) bs (busWrite pa b s)

/-- Bytes from an address on. -/
def busReads (s : State) (pa n : Nat) : List Byte := (List.range n).map fun i => busRead s (pa + i)

/-! ## Scopes, releases and acquires (R120, R124) -/

/-- The code of a scope (R47). -/
def scopeNum : Scope → Nat
  | .grp => 0
  | .team => 1
  | .core => 2
  | .clu => 3
  | .dev => 4
  | .sys => 5

/-- Whether a team has been placed on more than one core (R124). -/
def teamSpread (s : State) (t : Nat) : Bool := (getTeam s t).spread

/-- The effective scope of a scope code for a group (R124). -/
def effScope (s : State) (g : Group) (sc : Scope) : Nat :=
  if sc = .team ∧ teamSpread s g.place.team = true then 3 else scopeNum sc

/-- The effective scope of an access: at least device scope where no L1 caches the page (R124). -/
def accScope (s : State) (g : Group) (sc : Scope) (l : Loc) : Nat :=
  match l with
  | .loc _ _ => effScope s g sc
  | .glob _ home _ => if cachedHome home then effScope s g sc else max 4 (effScope s g sc)

/-- The L1 action of a release at an effective scope (R120): every dirty line is written back, so that the release is
cumulative (R131). -/
def releaseL1 (core scope : Nat) (s : State) : State := if 3 ≤ scope then cleanLines core (fun _ => true) s else s

/-- The L1 action of an acquire at an effective scope (R120): dirty bytes are written back, every line of HOME 0b00 and
0b01 pages is invalidated, and prefetches in flight are cancelled and leave their slots (R215, R218). -/
def acquireL1 (core scope : Nat) (s : State) : State :=
  if 3 ≤ scope then
    let s := flushLines core (fun l => cachedHome l.home) s
    modCore s core fun c => { c with pfSlots := [] }
  else s

/-- Every L1 of the device writes back and invalidates its lines (R30). -/
def flushAllL1 (s : State) : State := s.cores.foldl (fun s e => acquireL1 e.1 5 s) s

end Sys2Proof.Machine
end

