-- ==== Sys2Proof/Machine/Operands.lean ====
section
/-! DEFINITION. Operands: the guard (R42), the registers and queue ports an instruction uses, the checks of R59 in
their order, and the two shapes of a register instruction, lane and uniform. -/

namespace Sys2Proof.Machine

open Sys2Proof

/-! ## Guards and predicates -/

/-- A predicate of a fibre; p0 reads true (R12). -/
def getPred (f : Fibre) (p : Nat) : Bool := p == 0 || f.preds.getLsbD p

/-- Write a predicate; a write to p0 is discarded (R41). -/
def setPred (f : Fibre) (p : Nat) (b : Bool) : Fibre :=
  if p = 0 then f else { f with preds := (f.preds &&& ~~~(BitVec.ofNat 128 (2 ^ p))) ||| (if b then BitVec.ofNat 128 (2 ^ p) else 0) }

/-- Whether the guard admits a fibre (R42, R73). -/
def admits (f : Fibre) : Bool := getPred f f.guardP.toNat != f.guardN

/-- The acting lanes: the lanes of the path that the guard admits, or all when G is 0 (R42). -/
def actMask (g : Bool) (s : State) : LaneMask :=
  let grp := curGroup s
  maskOf fun l => inMask s.cur.mask l && (!g || admits (getFibre grp l))

/-- A uniform predicate; gp0 reads true. -/
def getGp (g : Group) (p : Nat) : Bool := p == 0 || g.gp.getLsbD p

/-- Write a uniform predicate; a write to gp0 is discarded (R45). -/
def setGp (g : Group) (p : Nat) (b : Bool) : Group :=
  if p = 0 then g else { g with gp := (g.gp &&& ~~~(BitVec.ofNat 16 (2 ^ p))) ||| (if b then BitVec.ofNat 16 (2 ^ p) else 0) }

/-! ## Registers -/

/-- A lane register of a fibre. -/
def getReg (f : Fibre) (r : Nat) : Word := f.regs.getD r 0

/-- Write a lane register. -/
def setReg (f : Fibre) (r : Nat) (w : Word) : Fibre := { f with regs := f.regs.set r w }

/-- A uniform register of a group. -/
def getU (g : Group) (r : Nat) : Word := g.uregs.getD r 0

/-- Write a uniform register. -/
def setU (g : Group) (r : Nat) (w : Word) : Group := { g with uregs := g.uregs.set r w }

/-- The 64-bit value of a uniform register pair (R7). -/
def getUPair (g : Group) (r : Nat) : DWord := pairOf (getU g r) (getU g (r + 1))

/-- The 64-bit value of a lane register pair. -/
def getRegPair (f : Fibre) (r : Nat) : DWord := pairOf (getReg f r) (getReg f (r + 1))

/-- The `n` registers from a register on. -/
def regRange (r n : Nat) : List Nat := (List.range n).map fun i => r + i

/-- The registers an instruction reads and writes: lane registers and queue ports by their numbers of R41, and
uniform registers. -/
structure Use where
  vr : List Nat := []
  vw : List Nat := []
  gr : List Nat := []
  gw : List Nat := []
  deriving DecidableEq, Repr

/-! ## The checks of R59 -/

/-- What the checks of an instruction find: nothing, a trap with its address and progress word, or a stall charged to
a leaf (R290). -/
inductive Pre where
  | go
  | trap (code addr progress : Nat)
  | stall (leaf : Nat)
  deriving DecidableEq, Repr

/-- The first of two checks that finds something. -/
def orPre (a b : Pre) : Pre :=
  match a with
  | .go => b
  | x => x

/-- Step 2: register numbers against the kernel's counts (R15). -/
def countsOk (g : Group) (u : Use) : Bool :=
  ((u.vr ++ u.vw).all fun r => decide (120 ≤ r) || decide (r < g.place.hdr.regs))
    && (u.gr ++ u.gw).all fun r => decide (r < g.place.hdr.uregs)

/-- Whether a register that a lane uses is pending. -/
def lanePending (f : Fibre) (u : Use) : Bool := (u.vr ++ u.vw).any fun r => decide (r < 120) && f.pend.getLsbD r

/-- Whether a uniform register in use is pending. -/
def uniPending (g : Group) (u : Use) : Bool := (u.gr ++ u.gw).any fun r => g.upend.getLsbD r

/-- Steps 2 and 3 of R59 for an instruction that acts in some lanes; `lane` is whether it is a lane instruction, whose
trap record names the lowest faulting lane (R243). -/
def regPre (lane : Bool) (act : LaneMask) (u : Use) (s : State) : Pre :=
  let g := curGroup s
  if !countsOk g u then .trap 0x01 0 (if lane then lowLane s.cur.mask else 0)
  else
    match (lanesOf act).find? fun l => lanePending (getFibre g l) u with
    | some l => .trap 0x06 0 (if lane then l else 0)
    | none => if uniPending g u then .trap 0x06 0 0 else .go

/-! ## Queue ports (R37, R41) -/

/-- A port of a group. -/
def getPort (g : Group) (p : Nat) : Port := g.ports.getD p {}

/-- Change a port of a group. -/
def modPort (g : Group) (p : Nat) (f : Port → Port) : Group := { g with ports := g.ports.set p (f (getPort g p)) }

/-- The ports among register numbers, each once. -/
def portsOf (rs : List Nat) : List Nat := ((rs.filter fun r => 120 ≤ r).map fun r => r - 120).eraseDups

/-- Whether a group may read a port (R37). -/
def portReadable (p : Port) : Bool := p.kind == 1 || p.kind == 2 || p.kind == 3 || (p.kind == 4 && p.recv)

/-- Whether a group may write a port. -/
def portWritable (p : Port) : Bool := p.kind == 4 && !p.recv

/-- The resident group of a team with a number. -/
def groupOfTeam (s : State) (t num : Nat) : Option Nat :=
  (s.groups.find? fun e => e.2.place.team == t && e.2.place.num == num).map fun e => e.1

/-- The receiving end of a send port's link, if the link exists (R37). -/
def linkOf (s : State) (g : Group) (p : Port) (port : Nat) : Option Nat :=
  match groupOfTeam s g.place.team p.peerGrp with
  | some gid =>
    let q := getPort (getGroup s gid) p.peerPort
    if q.kind = 4 ∧ q.recv = true ∧ q.peerGrp = g.place.num ∧ q.peerPort = port then some gid else none
  | none => none

/-- The checks of the ports that an acting instruction reads and writes: QUEUE_MISUSE, then the stalls. -/
def portPre (act : LaneMask) (u : Use) (s : State) : Pre :=
  if act = 0 then .go
  else
    let g := curGroup s
    let rd := portsOf u.vr
    let wr := portsOf u.vw
    if (rd.any fun p => !portReadable (getPort g p)) || (wr.any fun p => !portWritable (getPort g p)) then
      .trap 0x0E 0 (lowLane act)
    else if rd.any fun p => ((getPort g p).fifo.headD []).isEmpty then .stall 12
    else if wr.any fun p =>
        match linkOf s g (getPort g p) p with
        | some gid => 16 ≤ (getPort (getGroup s gid) (getPort g p).peerPort).fifo.length
        | none => true
      then .stall 13
    else .go

/-- The head entries of the ports read. -/
def headsOf (g : Group) (rd : List Nat) : List (Nat × List Word) :=
  rd.map fun p => (p, (getPort g p).fifo.headD [])

/-- Pop the ports read, each once (R41). -/
def popPorts (rd : List Nat) (g : Group) : Group :=
  rd.foldl (fun g p => modPort g p fun x => { x with fifo := x.fifo.tail }) g

/-- Push an entry into the FIFO at the receiving end of a send port (R37). -/
def pushPort (port : Nat) (entry : List Word) (s : State) : State :=
  let g := curGroup s
  match linkOf s g (getPort g port) port with
  | some gid => modGroup s gid fun r => modPort r (getPort g port).peerPort fun x => { x with fifo := x.fifo ++ [entry] }
  | none => s

/-! ## Lane instructions -/

/-- What an acting lane of a register instruction sees: the group before it, the acting lanes, and the entries popped. -/
structure LaneEnv where
  grp : Group
  cur : Cur
  act : LaneMask
  pops : List (Nat × List Word)

/-- A register operand of a lane, or its lane of the popped entry (R37). -/
def laneVal (e : LaneEnv) (l r : Nat) : Word :=
  if r < 120 then getReg (getFibre e.grp l) r
  else (((e.pops.find? fun x => x.1 == r - 120).map fun x => x.2).getD []).getD l 0

/-- What an instruction gives one lane: registers, predicates, a guard selection, and floating-point flags to set. -/
structure LaneOut where
  regs : List (Nat × Word) := []
  preds : List (Nat × Bool) := []
  guard : Option (PReg × Bool) := none
  flags : Word := 0
  deriving DecidableEq, Repr

/-- Write what an instruction gives a lane. -/
def applyOut (o : LaneOut) (f : Fibre) : Fibre :=
  let f := o.regs.foldl (fun f e => setReg f e.1 e.2) f
  let f := o.preds.foldl (fun f e => setPred f e.1 e.2) f
  let f := match o.guard with
    | some (p, n) => { f with guardP := p, guardN := n }
    | none => f
  { f with fpctl := f.fpctl ||| o.flags }

/-- The entry a lane instruction pushes into a port: the value of each acting lane, and 0 elsewhere. -/
def entryOf (act : LaneMask) (outs : Nat → LaneOut) (port : Nat) : List Word :=
  allLanes.map fun l => if inMask act l then
      ((((outs l).regs.find? fun e => e.1 == port + 120).map fun e => e.2).getD 0) else 0

/-- The effect of a lane register instruction that its checks let through. -/
def laneEffect (act : LaneMask) (u : Use) (f : LaneEnv → Nat → LaneOut) (s : State) : State :=
  let g := curGroup s
  let rd := portsOf u.vr
  let env : LaneEnv := { grp := g, cur := s.cur, act := act, pops := headsOf g rd }
  let g' := modLanes (if act = 0 then g else popPorts rd g) act fun l x => applyOut (f env l) x
  let s := setCurGroup s g'
  if act = 0 then s else (portsOf u.vw).foldl (fun s p => pushPort p (entryOf act (f env) p) s) s

/-- The checks of a lane register instruction. -/
def lanePre (act : LaneMask) (u : Use) (s : State) : Pre := orPre (regPre true act u s) (portPre act u s)

/-- Do what the checks found, or the effect. -/
def runPre (p : Pre) (effect : State → State) (s : State) : Host.Outcome State Fault Refusal :=
  match p with
  | .go => .next (effect s)
  | .trap c a k => .next (trapNow c a k s)
  | .stall leaf => .next (noteStall leaf s)

/-- A lane register instruction of one word (R19, R42, R59): its checks, then its effect in the acting lanes, and the
path goes on at PC + 4. -/
def laneOp (g : Bool) (u : Use) (f : LaneEnv → Nat → LaneOut) (s : State) : Host.Outcome State Fault Refusal :=
  let act := actMask g s
  runPre (lanePre act u s) (fun s => advance 4 (noteIssue 0 (laneEffect act u f s))) s

/-- A lane instruction with one destination and operands read as words. -/
def laneAlu (g : Bool) (d : VReg) (srcs : List VReg) (f : List Word → Word) (s : State) :
    Host.Outcome State Fault Refusal :=
  laneOp g { vr := srcs.map BitVec.toNat, vw := [d.toNat] }
    (fun e l => { regs := [(d.toNat, f (srcs.map fun r => laneVal e l r.toNat))] }) s

/-! ## Uniform instructions -/

/-- What a uniform instruction gives: registers and uniform predicates. -/
structure UniOut where
  regs : List (Nat × Word) := []
  gps : List (Nat × Bool) := []
  deriving DecidableEq, Repr

/-- Write what a uniform instruction gives. -/
def applyUni (o : UniOut) (g : Group) : Group :=
  let g := o.regs.foldl (fun g e => setU g e.1 e.2) g
  o.gps.foldl (fun g e => setGp g e.1 e.2) g

/-- A uniform register instruction of one word (R19, R45, R59). -/
def uniOp (u : Use) (f : Group → UniOut) (s : State) : Host.Outcome State Fault Refusal :=
  runPre (regPre false 0 u s)
    (fun s => advance 4 (noteIssue 1 (setCurGroup s (applyUni (f (curGroup s)) (curGroup s))))) s

/-- A uniform instruction with one destination and operands read as words. -/
def uniAlu (d : Nat) (srcs : List Nat) (f : List Word → Word) (s : State) : Host.Outcome State Fault Refusal :=
  uniOp { gr := srcs, gw := [d] } (fun g => { regs := [(d, f (srcs.map (getU g)))] }) s

end Sys2Proof.Machine
end

