-- ==== Sys2Proof/Machine/Issue.lean ====
section
/-! DEFINITION. The passing of cycles (R33, R289), the vote (R18, R70, R71), the issue of a path and the fetch of its
instruction (R57, R236, R312). -/

namespace Sys2Proof.Machine

open Sys2Proof

/-! ## Votes -/

/-- The eligible lanes of a group (R18, R28): resident fibres that are not blocked, in a group that is neither HALTED,
suspended, stopped for pre-emption nor retiring; while a handler runs, only the trapped path's. -/
def eligible (g : Group) : LaneMask :=
  if g.halted || g.sched.preempted || g.st != .resident then 0
  else maskOf fun l =>
    match kvGet g.fibres l with
    | some f => f.st == .resident && (match g.trap.handler with | some h => inMask h.mask l | none => true)
    | none => false

/-- The PC of the lowest lane group among some lanes, with the lanes at that PC. -/
def pathAt (g : Group) (m : LaneMask) (p : Word → Bool) : Option (Word × LaneMask) :=
  let pcs := ((lanesOf m).map fun l => (getFibre g l).pc).filter p
  match leastBy (fun a b : Word => decide (a.toNat < b.toNat)) pcs with
  | some pc => some (pc, maskOf fun l => inMask m l && (getFibre g l).pc == pc)
  | none => none

/-- Whether a fibre is aged by a vote: 64 consecutive votes have passed over it (R71). -/
def agedAt (f : Fibre) : Bool := f.aged || decide (64 ≤ f.misses)

/-- The second path of a vote (R18, R70, R71): the aged fibres' PC, when it is not the first path's, whatever the catch-up
point says; else the next-lowest PC, below the catch-up point. -/
def secondPath (g : Group) (m l0 : LaneMask) (pc : Word) : Option (Word × LaneMask) :=
  let rest := m &&& ~~~l0
  let aged := maskOf fun l => inMask m l && (getFibre g l).aged
  match pathAt g aged (fun _ => true) with
  | some (q, _) => if q = pc then nextPath rest else pathAt g rest fun x => x == q
  | none => nextPath rest
where
  /-- The next-lowest PC, if it lies below the catch-up point. -/
  nextPath (rest : LaneMask) : Option (Word × LaneMask) :=
    match pathAt g rest (fun _ => true), g.sched.catchUp with
    | some (q, l), some c => if c.toNat ≤ q.toNat then none else some (q, l)
    | x, _ => x

/-- The vote of a cycle (R18, R70, R71). The catch-up point goes when all eligible fibres share one PC, or none is
eligible. -/
def takeVote (g : Group) : Group :=
  let m := eligible g
  let sched := { g.sched with leaf := 6, stalled := false, passedOver := false }
  match pathAt g m (fun _ => true) with
  | none => { g with sched := { sched with catchUp := none, vote := some {} } }
  | some (pc, l0) =>
    if l0 = m then { g with sched := { sched with catchUp := none, vote := some { p0 := some (pc, l0), elig := m } } }
    else { g with sched := { sched with vote := some { p0 := some (pc, l0), p1 := secondPath g m l0 pc, elig := m } } }

/-- Every group votes, and the paths of the cycle begin to issue (R18). -/
def beginIssue (s : State) : State :=
  if s.stage = .events then { s with groups := kvMap s.groups fun _ g => takeVote g, stage := .issue } else s

/-- The path of a port. -/
def pathOf (v : Vote) (port : Nat) : Option (Word × LaneMask) := if port = 0 then v.p0 else v.p1

/-- Whether a port has been tried in the cycle. -/
def triedOf (v : Vote) (port : Nat) : Bool := if port = 0 then v.tried0 else v.tried1

/-- Mark a port as tried in the cycle. -/
def markTried (v : Vote) (port : Nat) : Vote :=
  if port = 0 then { v with tried0 := true } else { v with tried1 := true }

/-- The lanes of a path that are still there to issue. -/
def stillThere (g : Group) (pc : Word) (m : LaneMask) : LaneMask :=
  maskOf fun l => inMask m l &&
    (match kvGet g.fibres l with | some f => f.pc == pc && f.st == .resident | none => false)

/-- The path that a port still has to try in this cycle. -/
def untried (g : Group) (port : Nat) : Option (Word × LaneMask) :=
  match g.sched.vote with
  | none => none
  | some v =>
    if triedOf v port then none
    else match pathOf v port with
      | none => none
      | some (pc, m) => if stillThere g pc m = 0 then none else some (pc, stillThere g pc m)

/-- The port that a group tries next: the lower-PC path first (R60). -/
def nextPort (g : Group) : Option Nat :=
  if (untried g 0).isSome then some 0 else if (untried g 1).isSome then some 1 else none

/-- Whether the group has tried its first path in this cycle and not its second. -/
def midway (g : Group) : Bool :=
  match g.sched.vote with
  | some v => v.tried0 && (untried g 1).isSome
  | none => false

/-- The keys of R33, as an order: whether a group goes before another. -/
def goesBefore (a b : Nat × Group) : Bool :=
  let ka := a.2.sched.ageing
  let kb := b.2.sched.ageing
  let tie := decide (kb < ka) || (kb == ka && decide (slotOfGid a.1 < slotOfGid b.1))
  if 24 ≤ ka ∧ 24 ≤ kb then tie
  else if 24 ≤ ka then true
  else if 24 ≤ kb then false
  else decide (b.2.place.prio < a.2.place.prio) || (a.2.place.prio == b.2.place.prio && tie)

/-- The sub-core of a group number, over all cores. -/
def subOfGid (gid : Nat) : Nat := 8 * coreOfGid gid + subOfSlot (slotOfGid gid)

/-- The group that tries a path next in the cycle (R33, R100): of the lowest core and sub-core that has one, the group
that has tried its first path, else the group whose keys go before the others'. Every issue resource of a sub-core thus goes
to its ready groups in the order of the keys. -/
def nextGroup (s : State) : Option (Nat × Nat) :=
  match s.groups.find? fun e => (nextPort e.2).isSome with
  | none => none
  | some e =>
    let sub := subOfGid e.1
    let mine := s.groups.filter fun e => subOfGid e.1 == sub && (nextPort e.2).isSome
    let pick := match mine.find? fun e => midway e.2 with
      | some e => some e
      | none => leastBy goesBefore mine
    match pick with
    | some e => (nextPort e.2).map fun port => (e.1, port)
    | none => none

/-- Point the execution at an untried path of a group, which counts as tried from then on (R18, R19). -/
def choosePath (gid port : Nat) (s : State) : Option State :=
  let g := getGroup s gid
  match g.sched.vote, untried g port with
  | some v, some (pc, m) =>
    some { setGroup s gid { g with sched := { g.sched with vote := some (markTried v port), stalled := false } } with
      cur := { core := coreOfGid gid, slot := slotOfGid gid, mask := m, pc := pc, port := port } }
  | _, _ => none

/-- The leaf of what keeps the path from issuing before its instruction is looked at: a wrong prediction of its port
(R220), or the lanes' own hold (R143, R387). -/
def heldLeaf (s : State) : Option Nat :=
  let g := curGroup s
  if s.dev.clock < kvGetD g.sched.portHolds s.cur.port 0 then some 5
  else (g.sched.holds.find? fun h => overlaps h.mask s.cur.mask && decide (s.dev.clock < h.until_)).map Hold.leaf

/-! ## Fetch -/

/-- The virtual address of a PC in a context's code window (R236, R238). -/
def codeVa (s : State) (owner : Nat) (pc : Nat) : Nat := descWord s owner 8 + pc

/-- The bytes of a fetched word, from the page that holds them. -/
def codeBytes (s : State) (e : TlbEnt) (va : Nat) : List Byte :=
  let pa := paOf e va
  if e.home = 2 then sramRead s e.hcore pa 4
  else if (peerOf s pa).isSome then (List.range 4).map fun i => Config.freeByte (s.free + i)
  else memBytes s.mem pa 4

/-- The cause of a failed fetch (R312). -/
def fetchCause (code : Nat) : FetchCause := if code = 4 then .pageAbsent else .permission

/-- A word of code at a PC of the issuing path, or the cause that its fetch fails with. -/
def fetchWord (s : State) (pc : Nat) : Except FetchCause Word :=
  let owner := (curGroup s).place.owner
  if 2 ^ 32 ≤ pc then .error .permission
  else
    match translate s s.cur.core owner (codeVa s owner pc) .fetch with
    | .error c => .error (fetchCause c)
    | .ok e => .ok (wordOfBytes (codeBytes s e (codeVa s owner pc)))

/-- What a fetch gives: an instruction, words that no encoding matches, or a fault. -/
inductive Fetched where
  | instr (i : Instr)
  | illegal
  | fault (c : FetchCause)
  deriving DecidableEq, Repr

/-- Decode two words. -/
def decodeFetched (w0 w1 : Word) : Fetched :=
  match decode w0 w1 with
  | .ok i => .instr i
  | .error _ => .illegal

/-- Fetch the instruction of the issuing path (R57). A fetch fault of word 1 comes before a reserved value in word 0 (DESIGN
CHOICE: the manual orders neither; log 13). -/
def fetch (s : State) : Fetched :=
  match fetchWord s s.cur.pc.toNat with
  | .error c => .fault c
  | .ok w0 =>
    if twoWords w0 then
      match fetchWord s (s.cur.pc.toNat + 4) with
      | .error c => .fault c
      | .ok w1 => decodeFetched w0 w1
    else decodeFetched w0 0

/-- Keep the translation that the fetch of one word used (R117); its page, if HOME 0b10, is in its core's SRAM from then on
(R116). -/
def keepFetched (pc : Nat) (s : State) : State :=
  let owner := (curGroup s).place.owner
  let va := codeVa s owner pc
  match translation s s.cur.core owner va with
  | .ok e =>
    let s := fillTlb s.cur.core e s
    if e.home = 2 then touchPage e.hcore (paOf e va) s else s
  | .error _ => s

/-- Keep what the fetch of the path's instruction used. -/
def noteFetch (s : State) : State :=
  let pc := s.cur.pc.toNat
  match fetchWord s pc with
  | .ok w => if twoWords w then keepFetched (pc + 4) (keepFetched pc s) else keepFetched pc s
  | .error _ => s

/-- Whether the path's first word is a uniform instruction (R38). -/
def curIsUniform (s : State) : Bool :=
  match fetchWord s s.cur.pc.toNat with
  | .ok w => w.getLsbD 31
  | .error _ => false

/-- The decoder refuses the path's words (R58, R59): ILLEGAL_OP, precise. -/
def execIllegalOp (s : State) : Host.Outcome State Fault Refusal :=
  .next (trapNow 0x01 0 (if curIsUniform s then 0 else lowLane s.cur.mask) s)

/-- The fetch of the path's instruction fails (R57, R118, R312): the trap record's PC is that of word 0, and its
address that of the word. PROGRESS is 0 when word 0 is a uniform or engine instruction's (R243); the manual does not say
what it holds when word 0 has not been fetched, and the model writes the path's lowest lane, as for a lane instruction
(DESIGN CHOICE; log 13). -/
def execInstructionFetchFault (cause : FetchCause) (s : State) : Host.Outcome State Fault Refusal :=
  let pc := s.cur.pc.toNat
  let owner := (curGroup s).place.owner
  let at_ := match fetchWord s pc with
    | .ok _ => pc + 4
    | .error _ => pc
  .next (trapNow (match cause with | .pageAbsent => 0x04 | .permission => 0x05) (codeVa s owner at_)
    (if curIsUniform s then 0 else lowLane s.cur.mask) s)

/-! ## The end of a cycle -/

/-- The leaf of fibres that are blocked (R81, R290): a rejoin or signing wait before a barrier's, by the lowest PC. -/
def blockedLeaf (g : Group) : Nat :=
  let pick (p : FibreSt → Option Nat) : Option Nat :=
    match leastBy (fun a b : Nat × Fibre => decide (a.2.pc.toNat < b.2.pc.toNat))
        (g.fibres.filter fun e => (p e.2.st).isSome) with
    | some e => p e.2.st
    | none => none
  let signing (st : FibreSt) : Option Nat := match st with
    | .blocked (.rejoin _) => some 14
    | .blocked (.engine _) => some 15
    | _ => none
  let barrier (st : FibreSt) : Option Nat := match st with
    | .blocked (.barrier _ _) => some 11
    | _ => none
  match pick signing with
  | some leaf => leaf
  | none => (pick barrier).getD 6

/-- The leaf of a candidate (R290): that of its lowest-PC path, or why its fibres are blocked. -/
def candidateLeaf (g : Group) : Nat :=
  match g.sched.vote with
  | some v => if v.elig = 0 then blockedLeaf g else g.sched.leaf
  | none => blockedLeaf g

/-- Deal `n` slots to the candidates in turn, the first again after the last (R290): how many the i-th of m gets. -/
def dealt (n m i : Nat) : Nat := n / m + (if i < n % m then 1 else 0)

/-- Whether a placement is pending (leaf 16): of a team of a launch, or of a saved one that firmware does not hold out. -/
def placementPending (s : State) : Bool :=
  (s.launches.any fun e => decide (e.2.placed < e.2.teams) && !e.2.ended)
    || s.saved.any fun e => !(getCtx s e.2.team.owner).out

/-- Whether work waits to start on a core: a bin, or a team to be placed (leaf 16). -/
def workPending (s : State) (core : Nat) : Bool := !(getCore s core).bins.isEmpty || placementPending s

/-- The candidates of a sub-core, by the keys of R33: the resident groups that issued nothing in the cycle (R290). -/
def candidates (core sub : Nat) (s : State) : KV Group :=
  sortBy goesBefore (s.groups.filter fun e => coreOfGid e.1 == core && subOfSlot (slotOfGid e.1) == sub
    && !e.2.halted && e.2.st == .resident && e.2.sched.issuedAt != some s.dev.clock)

/-- Charge the slots of one sub-core that no instruction fills (R289, R290). -/
def chargeSub (core sub slots : Nat) (s : State) : State :=
  match candidates core sub s with
  | [] =>
    let leaf := if workPending s core then 16 else 17
    deviceAdd (0x10 + leaf) slots (modCore s core fun c => chargeLeaf c leaf slots)
  | cands =>
    (cands.zip (List.range cands.length)).foldl (fun s e =>
      let n := dealt slots cands.length e.2
      let leaf := candidateLeaf e.1.2
      if n = 0 then s else
      groupEvent e.1.1 (0x10 + leaf) n (lowestPc e.1.2 (liveMask e.1.2)) (modCore s core fun c => chargeLeaf c leaf n)) s

/-- Charge a core's unfilled slots of the cycle that ends; the lane pipes that its wide instructions hold stay held for the
next cycle (R301). -/
def chargeCore (core : Nat) (s : State) : State :=
  let issued := (getCore s core).issued
  let s := (List.range 8).foldl (fun s sub =>
    chargeSub core sub (4 - (issued.filter fun e => e.1 == sub).length) s) s
  modCore s core fun c => { c with issued := [], laneHeld := c.laneNext, laneNext := [] }

/-- The number of cores of the part: 4 for each cluster of its mask (R295). -/
def coresPresent (s : State) : Nat := 4 * ((List.range 64).filter fun c => s.dev.clusterMask.getLsbD c).length

/-- Charge the cores that nothing has used: every slot is pending or idle (R289). -/
def chargeRest (s : State) : State :=
  let n := 32 * (coresPresent s - s.cores.length)
  let pending := placementPending s
  let s := { s with dev := { s.dev with pendCycles := s.dev.pendCycles + if pending then 1 else 0 } }
  deviceAdd (if pending then 0x20 else 0x21) n s

/-- Whether a context has a counted group (R255): a resident one that is neither HALTED nor suspended. -/
def hasCounted (s : State) (owner : Nat) : Bool :=
  s.groups.any fun e => e.2.place.owner == owner && !e.2.halted && e.2.st == .resident

/-- What the end of a cycle does to a group: a group that was ready and issued nothing ages (R33), the eligible lanes whose
path did not issue miss a vote, and are aged from the 64th on (R71), and holds that have run out go. -/
def endCycle (clock : Nat) (g : Group) : Group :=
  let g := match g.sched.vote with
    | some v => modLanes g (v.elig &&& ~~~v.ran) fun _ f =>
        let f := { f with misses := f.misses + 1 }
        { f with aged := agedAt f }
    | none => g
  { g with sched := { g.sched with
      ageing := if g.sched.passedOver ∧ g.sched.issuedAt ≠ some clock then min 63 (g.sched.ageing + 1) else g.sched.ageing,
      holds := g.sched.holds.filter fun h => decide (clock + 1 < h.until_),
      portHolds := g.sched.portHolds.filter fun h => decide (clock + 1 < h.2) } }

/-- The time to the next turn of the schedule falls by a cycle. -/
def tickTape : List Turn → List Turn
  | [] => []
  | t :: ts => { t with dt := t.dt - 1 } :: ts

/-- The steps of bring-up that the device makes by itself (R298): the boot ROM has checked the SRAM, and waits for firmware; the
firmware has checked its image, and starts, or the device fails. Each takes a cycle here (log 1). -/
def bringUp (d : Dev) : Dev :=
  if d.phase = 1 then { d with phase := 2 }
  else if d.phase = 3 then
    if Config.imageOk d.image then { d with phase := 4 } else { d with phase := 15, err := 1 }
  else d

/-- A cycle ends (R33, R36, R71, R289): its slots are charged, ready groups that issued nothing age, the watchdog's time
stands for a context without a counted group (R255), and the clock counts. -/
def passCycle (s : State) : State :=
  let clock := s.dev.clock
  let s := chargeRest ((s.cores.map fun e => e.1).foldl (fun s c => chargeCore c s) s)
  let rest (o : Nat) (c : Ctx) : Ctx := if hasCounted s o then c else { c with lastIssue := c.lastIssue + 1 }
  { s with groups := kvMap s.groups (fun _ g => endCycle clock g), ctxs := kvMap s.ctxs rest,
           dev := bringUp { s.dev with clock := clock + 1 }, stage := .events, tape := tickTape s.tape }

/-! ## Issue resources (R32, R51, R53) -/

/-- The leaf that the issue of an instruction is charged to, by its pipe: 0 a lane ALU pipe, 1 the uniform pipe, 2 the
memory-and-engine port, 3 that port for an engine instruction; 4 for an event, which takes no pipe. -/
def pipeOf (i : Instr) : Nat :=
  match i with
  | .iaddLane .. | .isubLane .. | .iaddiLane .. | .imulLane .. | .imadLane .. | .iminLane .. | .imaxLane ..
  | .andLane .. | .orLane .. | .xorLane .. | .andnLane .. | .shlLane .. | .shrNLane .. | .shrSLane .. | .rotLane ..
  | .popcLane .. | .clzLane .. | .brevLane .. | .iabsLane .. | .inegLane .. | .bfxLane .. | .bfxsLane ..
  | .bfiLane .. | .leaLane .. | .movkLane .. | .movkHiLane .. | .fadd .. | .fsub .. | .fmul .. | .fma .. | .fmin ..
  | .fmax .. | .fabs .. | .fneg .. | .frndRn .. | .frndRz .. | .frndDn .. | .frndUp .. | .frcp .. | .frsq ..
  | .fsqrt .. | .fexp2 .. | .flog2 .. | .cvt .. | .cvtsE4m3Pack .. | .cvtsE4m3Unpack .. | .cvtsE5m2Pack ..
  | .cvtsE5m2Unpack .. | .cvtsE2m1Pack .. | .cvtsE2m1Unpack .. | .icmpLane .. | .fcmp .. | .pandLane .. | .porLane ..
  | .pxorLane .. | .pandnLane .. | .pornLane .. | .gsel .. | .sel .. | .ppack .. | .punpack .. | .shfl .. | .vscan ..
  | .vbal .. | .vred .. | .braLane .. | .jmpLane .. | .callLane .. | .nop .. | .exit .. | .yield .. | .rjset ..
  | .rjwait .. | .trap .. | .brk .. => 0
  | .iaddUniform .. | .isubUniform .. | .iaddiUniform .. | .imulUniform .. | .imadUniform .. | .iminUniform ..
  | .imaxUniform .. | .andUniform .. | .orUniform .. | .xorUniform .. | .andnUniform .. | .shlUniform ..
  | .shrNUniform .. | .shrSUniform .. | .rotUniform .. | .popcUniform .. | .clzUniform .. | .brevUniform ..
  | .iabsUniform .. | .inegUniform .. | .bfxUniform .. | .bfxsUniform .. | .bfiUniform .. | .leaUniform ..
  | .movkUniform .. | .movkHiUniform .. | .icmpUniform .. | .pandUniform .. | .porUniform .. | .pxorUniform ..
  | .pandnUniform .. | .pornUniform .. | .braUniform .. | .jmpUniform .. | .callUniform .. | .movx .. | .bcast ..
  | .pick .. | .fence .. | .wait .. | .tret .. | .enter .. | .leave .. | .sread .. | .swrite .. => 1
  | .ldLane .. | .ldUniform .. | .stLane .. | .stUniform .. | .ldq .. | .pref .. | .spawn .. | .atom ..
  | .atomUniform .. | .red .. | .cpa .. | .stcmp .. | .hld .. | .hst .. | .amsend .. | .rtret .. | .binit ..
  | .barv .. | .bwait .. | .bexp .. | .binval .. | .ordrel .. => 2
  | .shld .. | .shev .. | .tld .. | .tst .. | .mldb .. | .mma .. | .topen .. | .tread .. | .treadStat .. | .tred ..
  | .attn .. | .attnMaxima .. | .attnGiven .. | .attnFinish .. | .kvapp .. | .kvfork .. | .kvdrop .. | .cins ..
  | .cmrg .. | .crdCent .. | .crdSum .. | .crdCnt .. | .crdStat .. | .ccfg .. | .ccfgKeep .. | .ccfgFree ..
  | .ssmld .. | .ssmscan .. | .ssmstep .. | .ssmst .. | .ssmstFree .. | .route .. | .rtbind .. | .rtrd ..
  | .rtrdFree .. | .svrd .. | .svwr .. | .svclr .. | .svsave .. | .svload .. | .ambind .. | .ambindAll ..
  | .ambindInbox .. | .ambindNone .. => 3
  | .fibreAged .. | .binTimerExpiry .. | .binLaunch .. | .overflowRedelivery .. | .amArrival ..
  | .peerPortTransfer .. | .loadCompletion .. | .storePerformed .. | .ldqFill .. | .serviceGroupAtomic ..
  | .sectorLanding .. | .cpaLineTransfer .. | .tldComplete .. | .tstComplete .. | .mldbComplete .. | .mmaComplete ..
  | .tredComplete .. | .engineCommandComplete .. | .kvAccept .. | .attnPhase1 .. | .attnPhase2 .. | .attnComplete ..
  | .routeAccept .. | .routePairSend .. | .routeSpillReplay .. | .routeReturn .. | .dropNotice .. | .routeTimeout ..
  | .orderedWindowOpen .. | .prefetchLand .. | .sliceBankSwitch .. | .eccPatrol .. | .drainEnd .. | .drainTimeout ..
  | .coreDump .. | .domainReset .. | .watchdog .. | .groupRetire .. | .launchEnd .. | .doorbell .. | .queuePull ..
  | .dependenceRecheck .. | .launchBegin .. | .fenceRecordComplete .. | .teamPlacement .. | .starvationLimit ..
  | .secondStarvationLimit .. | .timeSliceExpiry .. | .preemption .. | .preemptionSave .. | .resume ..
  | .twinCompare .. | .traceSample .. | .packetUrgent .. | .routerPowerDown .. | .routerWake .. | .routerWakeEnd ..
  | .cPacketMerge .. | .linkDown .. | .linkUp .. | .createContext .. | .destroyContext .. | .pageAbsentReply ..
  | .installHandlerTable .. | .dumpConfiguration .. | .acknowledgeDumpReady .. | .replaySetting ..
  | .restartQueues .. | .traceRing .. | .debuggerHoldStopResume .. | .profilingSession .. | .eventRing ..
  | .firmwarePolicy .. | .systemMap .. | .firmwareLoad .. | .physicalRanges .. | .deviceResetRelease ..
  | .memoryTraining .. | .powerThrottle .. | .registerWrite .. | .illegalOp .. | .instructionFetchFault ..
  | .routerPowerDownCommit .. | .remoteAccess .. | .hostMemoryAccess .. | .powerCap .. | .contextMigration ..
  | .pageUnmap .. => 4

/-- The issues of the path's sub-core in this cycle whose leaves satisfy a test. -/
def issuedCount (s : State) (p : Nat → Bool) : Nat :=
  ((getCore s s.cur.core).issued.filter fun e => e.1 == subOfSlot s.cur.slot && p e.2).length

/-- The lane pipes of the path's sub-core that the last cycle's wide instructions hold (R301). -/
def lanesHeld (s : State) : Nat := ((getCore s s.cur.core).laneHeld.filter fun x => x == subOfSlot s.cur.slot).length

/-- Whether the pipe of an instruction can accept it in this cycle (R32, R60). -/
def pipeFree (i : Instr) (s : State) : Bool :=
  match pipeOf i with
  | 0 => decide (issuedCount s (fun k => k == 0) + lanesHeld s < 2)
  | 1 => decide (issuedCount s (fun k => k == 1) < 1)
  | _ => decide (issuedCount s (fun k => k == 2 || k == 3) < 1)

/-- Whether the pipe of an instruction is busy whoever issues (R33, R301). -/
def pipeBusy (i : Instr) (s : State) : Bool := pipeOf i == 0 && decide (2 ≤ lanesHeld s)

end Sys2Proof.Machine
end

