-- ==== Sys2Proof/Machine/Flags.lean ====
section
/-! DEFINITION. Flags and conditions: the sticky flags of FPCTL (R36, R85), the integer comparisons (R49), and the
integer functions that lane and uniform instructions share. Integer instructions raise no flag (R306 to R371). -/

namespace Sys2Proof.Machine

open Sys2Proof

/-! ## FPCTL (R36) -/

/-- FPCTL.NX, sticky inexact. -/
def flagNX : Word := 4
/-- FPCTL.UF, sticky underflow. -/
def flagUF : Word := 8
/-- FPCTL.OF, sticky overflow. -/
def flagOF : Word := 16
/-- FPCTL.DZ, sticky divide-by-zero. -/
def flagDZ : Word := 32
/-- FPCTL.INV, sticky invalid. -/
def flagINV : Word := 64

/-- The rounding mode of FPCTL.RM. -/
def rmOf (fpctl : Word) : Rm :=
  match (fpctl.extractLsb' 0 2).toNat with
  | 0 => .rn
  | 1 => .rz
  | 2 => .dn
  | _ => .up

/-! ## Conditions (R49) -/

/-- An integer condition of ICMP. -/
def icond (c : ICond) (a b : Word) : Bool :=
  match c with
  | .eq => a == b
  | .ne => a != b
  | .ltS => a.toInt < b.toInt
  | .leS => a.toInt ≤ b.toInt
  | .gtS => b.toInt < a.toInt
  | .geS => b.toInt ≤ a.toInt
  | .ltN => a.toNat < b.toNat
  | .geN => b.toNat ≤ a.toNat

/-- The five predicate functions of major 0x22 and of GC (R49, R357). -/
inductive PFun where | and | or | xor | andn | orn
  deriving DecidableEq, Repr

/-- A predicate function. -/
def pfun (f : PFun) (a b : Bool) : Bool :=
  match f with
  | .and => a && b
  | .or => a || b
  | .xor => a != b
  | .andn => a && !b
  | .orn => a || !b

/-! ## Integer functions -/

/-- Clamp an integer to a range (R336). -/
def clampInt (lo hi v : Int) : Int := if v < lo then lo else if hi < v then hi else v

/-- A word from an integer, modulo 2^32. -/
def wordOfInt (v : Int) : Word := BitVec.ofInt 32 v

/-- IADD and ISUB (R336): the exact result, wrapped or saturated. -/
def addSub (sub : Bool) (f : Sat) (a b : Word) : Word :=
  let op (x y : Int) : Int := if sub then x - y else x + y
  match f with
  | .wrap => wordOfInt (op a.toInt b.toInt)
  | .sats => wordOfInt (clampInt (-2147483648) 2147483647 (op a.toInt b.toInt))
  | .satn => wordOfInt (clampInt 0 4294967295 (op (Int.ofNat a.toNat) (Int.ofNat b.toNat)))

/-- IMUL (R342). -/
def mulPart (f : MulPart) (a b : Word) : Word :=
  match f with
  | .lo => a * b
  | .hiS => (BitVec.ofInt 64 (a.toInt * b.toInt)).extractLsb' 32 32
  | .hiN => (BitVec.ofNat 64 (a.toNat * b.toNat)).extractLsb' 32 32

/-- IMIN and IMAX (R341). -/
def minMax (mx nat : Bool) (a b : Word) : Word :=
  let less := if nat then decide (a.toNat < b.toNat) else decide (a.toInt < b.toInt)
  if less then (if mx then b else a) else (if mx then a else b)

/-- SHL (R371). -/
def shlFun (a b : Word) : Word := if b.toNat < 32 then a <<< b.toNat else 0

/-- SHR.n (R371). -/
def shrNFun (a b : Word) : Word := if b.toNat < 32 then a >>> b.toNat else 0

/-- SHR.s (R371). -/
def shrSFun (a b : Word) : Word := a.sshiftRight (min b.toNat 31)

/-- ROT, to the left (R371). -/
def rotFun (a b : Word) : Word := a.rotateLeft (b.toNat % 32)

/-- The number of 1 bits of a word (R359). -/
def popcount (a : Word) : Word := BitVec.ofNat 32 ((List.range 32).countP fun i => a.getLsbD i)

/-- The number of zero bits above the highest 1 bit, 32 for zero (R317). -/
def leadingZeros (a : Word) : Word :=
  BitVec.ofNat 32 (((List.range 32).find? fun i => a.getLsbD (31 - i)).getD 32)

/-- The bits of a word in reverse order (R313). -/
def reverseBits (a : Word) : Word :=
  BitVec.ofNat 32 ((List.range 32).foldl (fun v i => v + (if a.getLsbD (31 - i) then 2 ^ i else 0)) 0)

/-- IABS (R335); the most negative value gives itself. -/
def absFun (a : Word) : Word := if a.toInt < 0 then 0 - a else a

/-- The width W of a bit field of length L at P: it ends at bit 31 (R311). -/
def bfWidth (k : Nat) : Nat := min (k / 32 % 32 + 1) (32 - k % 32)

/-- BFX with control value K (R311). -/
def bfxFun (a : Word) (k : Nat) : Word := BitVec.ofNat 32 (field a.toNat (k % 32) (bfWidth k))

/-- BFXS with control value K (R311). -/
def bfxsFun (a : Word) (k : Nat) : Word := wordOfInt (signedOf (bfWidth k) (field a.toNat (k % 32) (bfWidth k)))

/-- BFI with control value K: the other bits of d keep their values (R311). -/
def bfiFun (d a : Word) (k : Nat) : Word :=
  let w := bfWidth k
  let p := k % 32
  BitVec.ofNat 32 (d.toNat - field d.toNat p w * 2 ^ p + a.toNat % 2 ^ w * 2 ^ p)

/-- The control value of a register form: its bits 9 to 0 (R311). -/
def bfControl (b : Word) : Nat := b.toNat % 1024

/-- LEA (R348). -/
def leaFun (a b : Word) (sh : BitVec 3) : Word := a + (b <<< sh.toNat)

/-- MOVK.hi: the upper half of d is replaced (R353). -/
def movkHi (d : Word) (imm : BitVec 16) : Word := imm ++ d.extractLsb' 0 16

/-- A binary function over a list of two operand words. -/
def bin (f : Word → Word → Word) (ws : List Word) : Word := f (ws.getD 0 0) (ws.getD 1 0)

/-- A unary function over a list of one operand word. -/
def un (f : Word → Word) (ws : List Word) : Word := f (ws.getD 0 0)

/-- A function of the old destination and two operands. -/
def ter (f : Word → Word → Word → Word) (ws : List Word) : Word := f (ws.getD 0 0) (ws.getD 1 0) (ws.getD 2 0)

end Sys2Proof.Machine
end

