-- ==== Sys2Proof/Machine/Numbers.lean ====
section
/-! DEFINITION. Numbers (R83 to R87): formats, exact values, the one rounding of every conversion and operation, and
the flags it raises. -/

namespace Sys2Proof.Machine

open Sys2Proof

/-! ## Formats (R84) -/

/-- How a format spells its special values: an all-ones exponent for infinities and NaNs, one NaN code, or none. -/
inductive Special where | ieee | oneNan | none
  deriving DecidableEq, Repr

/-- A floating-point format: exponent and fraction widths, bias, specials, the largest finite code, and the canonical
NaN. -/
structure FFmt where
  exp : Nat
  frac : Nat
  bias : Nat
  special : Special
  maxCode : Nat
  nan : Nat
  deriving DecidableEq, Repr

/-- FP32. -/
def fp32 : FFmt := { exp := 8, frac := 23, bias := 127, special := .ieee, maxCode := 0x7F7FFFFF, nan := 0x7FC00000 }
/-- BF16. -/
def bf16 : FFmt := { exp := 8, frac := 7, bias := 127, special := .ieee, maxCode := 0x7F7F, nan := 0x7FC0 }
/-- FP16. -/
def fp16 : FFmt := { exp := 5, frac := 10, bias := 15, special := .ieee, maxCode := 0x7BFF, nan := 0x7E00 }
/-- E4M3. -/
def e4m3 : FFmt := { exp := 4, frac := 3, bias := 7, special := .oneNan, maxCode := 0x7E, nan := 0x7F }
/-- E5M2. -/
def e5m2 : FFmt := { exp := 5, frac := 2, bias := 15, special := .ieee, maxCode := 0x7B, nan := 0x7E }
/-- E2M1. -/
def e2m1 : FFmt := { exp := 2, frac := 1, bias := 1, special := .none, maxCode := 0x7, nan := 0 }

/-- The bits of a format. -/
def FFmt.bits (f : FFmt) : Nat := 1 + f.exp + f.frac

/-- The code of infinity in a format that has one. -/
def FFmt.inf (f : FFmt) : Nat := f.maxCode + 1

/-! ## Exact values -/

/-- An exact value: a dyadic number of a sign, magnitude and power of two; an infinity; or a NaN, signalling or not. -/
inductive FVal where
  | fin (neg : Bool) (m : Nat) (e : Int)
  | inf (neg : Bool)
  | nan (signalling : Bool)
  deriving DecidableEq, Repr

/-- The value of a code (R84). -/
def fval (f : FFmt) (code : Nat) : FVal :=
  let neg := code / 2 ^ (f.exp + f.frac) % 2 == 1
  let e := code / 2 ^ f.frac % 2 ^ f.exp
  let m := code % 2 ^ f.frac
  let top := 2 ^ f.exp - 1
  let num := if e = 0 then FVal.fin neg m (1 - Int.ofNat f.bias - Int.ofNat f.frac)
    else FVal.fin neg (2 ^ f.frac + m) (Int.ofNat e - Int.ofNat f.bias - Int.ofNat f.frac)
  match f.special with
  | .ieee => if e = top then (if m = 0 then .inf neg else .nan (m < 2 ^ (f.frac - 1))) else num
  | .oneNan => if e = top ∧ m = 2 ^ f.frac - 1 then .nan false else num
  | .none => num

/-- Whether a value is a signalling NaN. -/
def isSNaN : FVal → Bool
  | .nan s => s
  | _ => false

/-- Whether a value is a NaN. -/
def isNaN : FVal → Bool
  | .nan _ => true
  | _ => false

/-- Whether a value is negative, by its sign. -/
def fneg : FVal → Bool
  | .fin n _ _ => n
  | .inf n => n
  | .nan _ => false

/-- Whether a value is a zero. -/
def fzero : FVal → Bool
  | .fin _ m _ => m == 0
  | _ => false

/-- The opposite of a value. -/
def fopp : FVal → FVal
  | .fin n m e => .fin (!n) m e
  | .inf n => .inf (!n)
  | .nan s => .nan s

/-- A number times a power of two. -/
def fscale (k : Int) : FVal → FVal
  | .fin n m e => .fin n m (e + k)
  | x => x

/-- The signed integer that a dyadic number is at a power of two at or below its own. -/
def scaledInt (neg : Bool) (m : Nat) (e lo : Int) : Int :=
  let v := Int.ofNat (m * 2 ^ (e - lo).toNat)
  if neg then -v else v

/-! ## Rounding (R83, R85, R86) -/

/-- Round a quotient to an integer: `q` with remainder `r` of divisor `d`, of a number with a sign. -/
def roundQuot (rm : Rm) (neg : Bool) (q r d : Nat) : Nat :=
  if r = 0 then q
  else
    match rm with
    | .rn => if 2 * r < d then q else if d < 2 * r then q + 1 else q + q % 2
    | .rz => q
    | .dn => if neg then q + 1 else q
    | .up => if neg then q else q + 1

/-- The magnitude n ÷ d in units of 2^q, as a quotient, remainder and divisor. -/
def inUnits (n d : Nat) (q : Int) : Nat × Nat × Nat :=
  let n' := if q < 0 then n * 2 ^ (-q).toNat else n
  let d' := if q < 0 then d else d * 2 ^ q.toNat
  (n' / d', n' % d', d')

/-- The greatest e with 2^e ≤ n ÷ d, for n > 0. -/
def floorLog2 (n d : Nat) : Int :=
  let e := Int.ofNat n.log2 - Int.ofNat d.log2
  let below := if e < 0 then decide (n * 2 ^ (-e).toNat < d) else decide (n < d * 2 ^ e.toNat)
  if below then e - 1 else e

/-- A rounded code with the flags it raises. -/
structure Rounded where
  code : Nat
  flags : Word
  deriving DecidableEq, Repr

/-- Add a sign to a code. -/
def withSign (f : FFmt) (neg : Bool) (code : Nat) : Nat := if neg then code + 2 ^ (f.exp + f.frac) else code

/-- What an overflow is written as (R86). -/
def overflowCode (f : FFmt) (rm : Rm) (neg : Bool) : Nat :=
  let toInf := match rm with
    | .rn => true
    | .rz => false
    | .dn => neg
    | .up => !neg
  match f.special with
  | .ieee => if toInf then f.inf else f.maxCode
  | _ => f.maxCode

/-- Round a magnitude n ÷ d with a sign into a format, once (R83, R85, R86). -/
def roundRat (f : FFmt) (rm : Rm) (neg : Bool) (n d : Nat) : Rounded :=
  if n = 0 then { code := withSign f neg 0, flags := 0 }
  else
    let e := floorLog2 n d
    let emin := 1 - Int.ofNat f.bias
    let qmin := emin - Int.ofNat f.frac
    let p := e - Int.ofNat f.frac
    let q := if p < qmin then qmin else p
    let (a, r, dd) := inUnits n d q
    let m := roundQuot rm neg a r dd
    let code := (q - qmin).toNat * 2 ^ f.frac + m
    if f.maxCode < code then
      { code := withSign f neg (overflowCode f rm neg), flags := flagOF ||| flagNX }
    else
      let inexact := r != 0
      let (a1, r1, d1) := inUnits n d p
      let unb := roundQuot rm neg a1 r1 d1
      let tiny := decide (e < emin) && !(e == emin - 1 && unb == 2 ^ (f.frac + 1))
      { code := withSign f neg code,
        flags := (if inexact then flagNX else 0) ||| (if inexact && tiny then flagUF else 0) }

/-- Round a dyadic number into a format. -/
def roundDyadic (f : FFmt) (rm : Rm) (neg : Bool) (m : Nat) (e : Int) : Rounded :=
  if e < 0 then roundRat f rm neg m (2 ^ (-e).toNat) else roundRat f rm neg (m * 2 ^ e.toNat) 1

/-- Write a value in a format (R85, R86): the canonical NaN, an infinity or the largest magnitude, or the rounded
number. A NaN in a format without one is +0 with INV. -/
def roundVal (f : FFmt) (rm : Rm) (x : FVal) : Rounded :=
  match x with
  | .nan s => { code := f.nan, flags := if s || f.special == .none then flagINV else 0 }
  | .inf n =>
    match f.special with
    | .ieee => { code := withSign f n f.inf, flags := 0 }
    | _ => { code := withSign f n f.maxCode, flags := flagOF ||| flagNX }
  | .fin n m e => roundDyadic f rm n m e

/-! ## Exact arithmetic -/

/-- The exact sum of two numbers, as a value: an exact zero is +0, or −0 under rounding down, and two −0 give −0
(R327). The flag says ∞ − ∞. -/
def fsum (rm : Rm) (x y : FVal) : FVal × Bool :=
  match x, y with
  | .nan _, _ => (.nan false, false)
  | _, .nan _ => (.nan false, false)
  | .inf a, .inf b => if a = b then (.inf a, false) else (.nan false, true)
  | .inf a, _ => (.inf a, false)
  | _, .inf b => (.inf b, false)
  | .fin a m e, .fin b n k =>
    let lo := min e k
    let v := scaledInt a m e lo + scaledInt b n k lo
    if v = 0 then
      (.fin (if m = 0 ∧ n = 0 ∧ a = b then a else rm == .dn) 0 0, false)
    else (.fin (decide (v < 0)) v.natAbs lo, false)

/-- The exact product of two numbers. The flag says 0 × ∞. -/
def fprod (x y : FVal) : FVal × Bool :=
  match x, y with
  | .nan _, .nan _ => (.nan false, false)
  | .nan _, _ => (.nan false, false)
  | _, .nan _ => (.nan false, false)
  | .inf a, y => if fzero y then (.nan false, true) else (.inf (a != fneg y), false)
  | x, .inf b => if fzero x then (.nan false, true) else (.inf (fneg x != b), false)
  | .fin a m e, .fin b n k => (.fin (a != b) (m * n) (e + k), false)

/-- Whether a number lies below another; neither is a NaN. −0 equals +0. -/
def fless (x y : FVal) : Bool :=
  match x, y with
  | .inf true, .inf true => false
  | .inf true, _ => true
  | _, .inf true => false
  | .inf false, _ => false
  | _, .inf false => true
  | .fin a m e, .fin b n k =>
    let lo := min e k
    decide (scaledInt a m e lo < scaledInt b n k lo)
  | _, _ => false

/-! ## Integer roots and functions -/

/-- Newton steps toward the integer square root of n, from a value at or above it. -/
def isqrtFrom (n : Nat) : Nat → Nat → Nat
  | 0, x => x
  | fuel + 1, x =>
    let y := (x + n / x) / 2
    if y < x then isqrtFrom n fuel y else x

/-- The integer square root. -/
def isqrt (n : Nat) : Nat := if n = 0 then 0 else isqrtFrom n 200 (2 ^ (n.log2 / 2 + 1))

/-- √(m·2^e), rounded to nearest even (R331): the root is computed with 64 bits below the unit, and a half unit stands
for whatever it leaves out. -/
def sqrtRounded (f : FFmt) (m : Nat) (e : Int) : Rounded :=
  let (m, e) := if e % 2 = 0 then (m, e) else (2 * m, e - 1)
  let big := m * 2 ^ 128
  let r := isqrt big
  let k := 64 - e / 2
  let n := 2 * r + (if r * r = big then 0 else 1)
  if 0 ≤ k then roundRat f .rn false n (2 ^ (k.toNat + 1)) else roundRat f .rn false (n * 2 ^ (-k).toNat) 2

/-- 1 ÷ √(m·2^e), rounded to nearest even (R331). -/
def rsqrtRounded (f : FFmt) (m : Nat) (e : Int) : Rounded :=
  let (m, e) := if e % 2 = 0 then (m, e) else (2 * m, e - 1)
  let top := 2 ^ 192
  let r := isqrt (top / m)
  let exact := r * r * m = top
  let k := 96 + e / 2
  let n := 2 * r + (if exact then 0 else 1)
  if 0 ≤ k then roundRat f .rn false n (2 ^ (k.toNat + 1)) else roundRat f .rn false (n * 2 ^ (-k).toNat) 2

/-- 2^0.b₁b₂… for the bits given from the last to the first, in units of 2^−128. -/
def exp2Bits : List Bool → Nat → Nat
  | [], r => r
  | b :: bs, r => exp2Bits bs (isqrt (r * (if b then 2 else 1) * 2 ^ 128))

/-- 2^x of a number with a sign, rounded to nearest even (R331). -/
def exp2Rounded (f : FFmt) (neg : Bool) (m : Nat) (e : Int) : Rounded :=
  if m = 0 then roundRat f .rn false 1 1
  else if 9 ≤ e + Int.ofNat m.log2 then
    (if neg then roundRat f .rn false 1 (2 ^ 1000) else roundRat f .rn false (2 ^ 1000) 1)
  else if e + Int.ofNat m.log2 < -28 then
    roundRat f .rn false (if neg then 2 ^ 100 - 1 else 2 ^ 100 + 1) (2 ^ 100)
  else
    let k := (-e).toNat
    let v := scaledInt neg m e (min e 0)
    let n := v / Int.ofNat (2 ^ k)
    let fr := (v % Int.ofNat (2 ^ k)).toNat
    let r := exp2Bits ((List.range k).map fun i => fr.testBit i) (2 ^ 128)
    let x := 2 * r + (if fr = 0 then 0 else 1)
    if n < 0 then roundRat f .rn false x (2 ^ (129 + (-n).toNat)) else roundRat f .rn false (x * 2 ^ n.toNat) (2 ^ 129)

/-- The bits of log₂ of a number from 1 to 2 in units of 2^−256, squaring it once for each bit. -/
def log2Bits : Nat → Nat → Nat → Nat
  | 0, _, acc => acc
  | k + 1, y, acc =>
    let z := y * y / 2 ^ 256
    if 2 ^ 257 ≤ z then log2Bits k (z / 2) (2 * acc + 1) else log2Bits k z (2 * acc)

/-- log₂ of m·2^e for m > 0, rounded to nearest even (R331). -/
def log2Rounded (f : FFmt) (m : Nat) (e : Int) : Rounded :=
  let n := e + Int.ofNat m.log2
  if m = 2 ^ m.log2 then roundRat f .rn (decide (n < 0)) n.natAbs 1
  else
    let y := m * 2 ^ 256 / 2 ^ m.log2
    let fr := log2Bits 120 y 0
    let v := (n * 2 ^ 120 + Int.ofNat fr) * 2 + 1
    roundRat f .rn (decide (v < 0)) v.natAbs (2 ^ 121)

/-! ## Integer types (R86, R320) -/

/-- Round a dyadic number to an integer under a mode, with whether it changed. -/
def roundInt (rm : Rm) (neg : Bool) (m : Nat) (e : Int) : Int × Bool :=
  let (q, r, d) := if e < 0 then inUnits m (2 ^ (-e).toNat) 0 else (m * 2 ^ e.toNat, 0, 1)
  let v := roundQuot rm neg q r d
  (if neg then -Int.ofNat v else Int.ofNat v, r != 0)

/-- The range of an integer type. -/
def intRange : Ty → Int × Int
  | .s32 => (-(2 ^ 31), 2 ^ 31 - 1)
  | .n32 => (0, 2 ^ 32 - 1)
  | .s16 => (-(2 ^ 15), 2 ^ 15 - 1)
  | .n16 => (0, 2 ^ 16 - 1)
  | .s8 => (-(2 ^ 7), 2 ^ 7 - 1)
  | .n8 => (0, 2 ^ 8 - 1)
  | .s4 => (-8, 7)
  | _ => (-(2 ^ 63), 2 ^ 63 - 1)

/-- The float format of a type, if it is one. -/
def fmtOfTy : Ty → Option FFmt
  | .f32 => some fp32
  | .bf16 => some bf16
  | .f16 => some fp16
  | .e4m3 => some e4m3
  | .e5m2 => some e5m2
  | .e2m1 => some e2m1
  | _ => none

/-- Write a value in an integer type: the integer, with INV for a NaN or a value out of range, and NX for a change
within it (R86, R320). -/
def toInteger (t : Ty) (rm : Rm) (x : FVal) : Int × Word :=
  let (lo, hi) := intRange t
  match x with
  | .nan _ => (0, flagINV)
  | .inf n => (if n then lo else hi, flagINV)
  | .fin n m e =>
    let (v, changed) := roundInt rm n m e
    if v < lo then (lo, flagINV) else if hi < v then (hi, flagINV)
    else (v, if changed then flagNX else 0)

/-- An integer as an exact value. -/
def valOfInt (v : Int) : FVal := .fin (decide (v < 0)) v.natAbs 0

/-- The exact value of an integer times a power of two. -/
def valOfIntExp (v : Int) (e : Int) : FVal := .fin (decide (v < 0)) v.natAbs e

/-- Floor of a dyadic number divided by 2^k (R83, R93). -/
def floorAt (neg : Bool) (m : Nat) (e k : Int) : Int :=
  let v : Int := if neg then -Int.ofNat m else Int.ofNat m
  if e < k then v / Int.ofNat (2 ^ (k - e).toNat) else v * Int.ofNat (2 ^ (e - k).toNat)

/-- ExactAdd (R83): a 64-bit two's-complement sum that wraps. -/
def exactAdd (x : BitVec 64) (y : Int) : BitVec 64 := x + BitVec.ofInt 64 y

end Sys2Proof.Machine
end

