-- ==== Sys2Proof/Machine/LaneFloat.lean ====
section
/-! DEFINITION. The lane floating-point and conversion instructions (rows 53 to 76 and FCMP; R319 to R331, R88). -/

namespace Sys2Proof.Machine

open Sys2Proof

/-! ## One operation on codes of a format (R326, R327) -/

/-- INV for any signalling NaN among operands (R85). -/
def snanFlag (xs : List FVal) : Word := if xs.any isSNaN then flagINV else 0

/-- Set INV when an operation is invalid. -/
def invIf (b : Bool) : Word := if b then flagINV else 0

/-- FADD and FSUB on two codes. -/
def addCode (sub : Bool) (f : FFmt) (rm : Rm) (a b : Nat) : Rounded :=
  let x := fval f a
  let y := if sub then fopp (fval f b) else fval f b
  let r := fsum rm x y
  let out := roundVal f rm r.1
  { out with flags := out.flags ||| snanFlag [x, y] ||| invIf r.2 }

/-- FMUL on two codes. -/
def mulCode (f : FFmt) (rm : Rm) (a b : Nat) : Rounded :=
  let x := fval f a
  let y := fval f b
  let r := fprod x y
  let out := roundVal f rm r.1
  { out with flags := out.flags ||| snanFlag [x, y] ||| invIf r.2 }

/-- FMA on three codes: a × b + d, rounded once. -/
def fmaCode (f : FFmt) (rm : Rm) (a b d : Nat) : Rounded :=
  let x := fval f a
  let y := fval f b
  let z := fval f d
  let p := fprod x y
  let r := fsum rm p.1 z
  let out := roundVal f rm r.1
  { out with flags := out.flags ||| snanFlag [x, y, z] ||| invIf p.2 ||| invIf r.2 }

/-- FMIN and FMAX on two codes: one operand unchanged, −0 below +0, a NaN only when both are (R327). -/
def minMaxCode (mx : Bool) (f : FFmt) (a b : Nat) : Rounded :=
  let x := fval f a
  let y := fval f b
  let aLess := fless x y || (fzero x && fzero y && fneg x && !fneg y)
  let code :=
    if isNaN x ∧ isNaN y then f.nan
    else if isNaN x then b
    else if isNaN y then a
    else if aLess then (if mx then b else a) else (if mx then a else b)
  { code := code, flags := snanFlag [x, y] }

/-- Apply an operation to both halves of packed operands, or to the whole word (R326). -/
def perType (t : FType) (op : FFmt → Nat → Nat → Nat → Rounded) (d a b : Word) : Word × Word :=
  let halves (f : FFmt) : Word × Word :=
    let lo := op f (d.toNat % 65536) (a.toNat % 65536) (b.toNat % 65536)
    let hi := op f (d.toNat / 65536) (a.toNat / 65536) (b.toNat / 65536)
    (BitVec.ofNat 32 (lo.code + 65536 * hi.code), lo.flags ||| hi.flags)
  match t with
  | .f32 =>
    let r := op fp32 d.toNat a.toNat b.toNat
    (BitVec.ofNat 32 r.code, r.flags)
  | .bf16x2 => halves bf16
  | .f16x2 => halves fp16

/-- A floating-point instruction of two operands, with d read too when it is an addend. -/
def laneFp (g : Bool) (t : FType) (readD : Bool) (op : FFmt → Rm → Nat → Nat → Nat → Rounded) (d a b : VReg)
    (s : State) : Host.Outcome State Fault Refusal :=
  laneOp g { vr := (if readD then [d.toNat] else []) ++ [a.toNat, b.toNat], vw := [d.toNat] } (fun e l =>
    let rm := rmOf (getFibre e.grp l).fpctl
    let r := perType t (fun f => op f rm) (if readD then laneVal e l d.toNat else 0) (laneVal e l a.toNat)
      (laneVal e l b.toNat)
    { regs := [(d.toNat, r.1)], flags := r.2 }) s

/-- FADD (R327). -/
def execFadd (g : Bool) (t : FType) (d a b : VReg) (s : State) : Host.Outcome State Fault Refusal :=
  laneFp g t false (fun f rm _ x y => addCode false f rm x y) d a b s

/-- FSUB (R327). -/
def execFsub (g : Bool) (t : FType) (d a b : VReg) (s : State) : Host.Outcome State Fault Refusal :=
  laneFp g t false (fun f rm _ x y => addCode true f rm x y) d a b s

/-- FMUL (R327). -/
def execFmul (g : Bool) (t : FType) (d a b : VReg) (s : State) : Host.Outcome State Fault Refusal :=
  laneFp g t false (fun f rm _ x y => mulCode f rm x y) d a b s

/-- FMA (R327). -/
def execFma (g : Bool) (t : FType) (d a b : VReg) (s : State) : Host.Outcome State Fault Refusal :=
  laneFp g t true (fun f rm z x y => fmaCode f rm x y z) d a b s

/-- FMIN (R327). -/
def execFmin (g : Bool) (t : FType) (d a b : VReg) (s : State) : Host.Outcome State Fault Refusal :=
  laneFp g t false (fun f _ _ x y => minMaxCode false f x y) d a b s

/-- FMAX (R327). -/
def execFmax (g : Bool) (t : FType) (d a b : VReg) (s : State) : Host.Outcome State Fault Refusal :=
  laneFp g t false (fun f _ _ x y => minMaxCode true f x y) d a b s

/-! ## One operand (R324, R325, R331) -/

/-- An FP32 instruction of one operand: a NaN gives the canonical NaN, with INV when signalling. -/
def laneFp1 (g : Bool) (op : Nat → FVal → Rounded) (d a : VReg) (s : State) : Host.Outcome State Fault Refusal :=
  laneOp g { vr := [a.toNat], vw := [d.toNat] } (fun e l =>
    let c := (laneVal e l a.toNat).toNat
    let x := fval fp32 c
    let r : Rounded := if isNaN x then { code := fp32.nan, flags := snanFlag [x] } else op c x
    { regs := [(d.toNat, BitVec.ofNat 32 r.code)], flags := r.flags }) s

/-- FABS (R324). -/
def execFabs (g : Bool) (d a : VReg) (s : State) : Host.Outcome State Fault Refusal :=
  laneFp1 g (fun c _ => { code := c % 2 ^ 31, flags := 0 }) d a s

/-- FNEG (R324). -/
def execFneg (g : Bool) (d a : VReg) (s : State) : Host.Outcome State Fault Refusal :=
  laneFp1 g (fun c _ => { code := (c + 2 ^ 31) % 2 ^ 32, flags := 0 }) d a s

/-- FRND under a mode: the integral value, with the sign of the operand (R325). -/
def frndCode (rm : Rm) (c : Nat) (x : FVal) : Rounded :=
  match x with
  | .fin n m e =>
    let r := roundInt rm n m e
    { code := (roundDyadic fp32 .rn n r.1.natAbs 0).code, flags := if r.2 then flagNX else 0 }
  | _ => { code := c, flags := 0 }

/-- FRND.rn (R324). -/
def execFrndRn (g : Bool) (d a : VReg) (s : State) : Host.Outcome State Fault Refusal := laneFp1 g (frndCode .rn) d a s
/-- FRND.rz (R324). -/
def execFrndRz (g : Bool) (d a : VReg) (s : State) : Host.Outcome State Fault Refusal := laneFp1 g (frndCode .rz) d a s
/-- FRND.dn (R324). -/
def execFrndDn (g : Bool) (d a : VReg) (s : State) : Host.Outcome State Fault Refusal := laneFp1 g (frndCode .dn) d a s
/-- FRND.up (R324). -/
def execFrndUp (g : Bool) (d a : VReg) (s : State) : Host.Outcome State Fault Refusal := laneFp1 g (frndCode .up) d a s

/-- The canonical NaN with INV (R331). -/
def invalidNan : Rounded := { code := fp32.nan, flags := flagINV }

/-- FRCP of a number or infinity. -/
def frcpCode (x : FVal) : Rounded :=
  match x with
  | .fin n m e =>
    if m = 0 then { code := withSign fp32 n fp32.inf, flags := flagDZ }
    else if e < 0 then roundRat fp32 .rn n (2 ^ (-e).toNat) m else roundRat fp32 .rn n 1 (m * 2 ^ e.toNat)
  | .inf n => { code := withSign fp32 n 0, flags := 0 }
  | .nan _ => invalidNan

/-- FRSQ of a number or infinity. -/
def frsqCode (x : FVal) : Rounded :=
  match x with
  | .fin n m e =>
    if m = 0 then { code := withSign fp32 n fp32.inf, flags := flagDZ }
    else if n then invalidNan else rsqrtRounded fp32 m e
  | .inf n => if n then invalidNan else { code := 0, flags := 0 }
  | .nan _ => invalidNan

/-- FSQRT of a number or infinity. -/
def fsqrtCode (x : FVal) : Rounded :=
  match x with
  | .fin n m e =>
    if m = 0 then { code := withSign fp32 n 0, flags := 0 }
    else if n then invalidNan else sqrtRounded fp32 m e
  | .inf n => if n then invalidNan else { code := fp32.inf, flags := 0 }
  | .nan _ => invalidNan

/-- FEXP2 of a number or infinity. -/
def fexp2Code (x : FVal) : Rounded :=
  match x with
  | .fin n m e => exp2Rounded fp32 n m e
  | .inf n => { code := if n then 0 else fp32.inf, flags := 0 }
  | .nan _ => invalidNan

/-- FLOG2 of a number or infinity. -/
def flog2Code (x : FVal) : Rounded :=
  match x with
  | .fin n m e =>
    if m = 0 then { code := withSign fp32 true fp32.inf, flags := flagDZ }
    else if n then invalidNan else log2Rounded fp32 m e
  | .inf n => if n then invalidNan else { code := fp32.inf, flags := 0 }
  | .nan _ => invalidNan

/-- FRCP (R331). -/
def execFrcp (g : Bool) (d a : VReg) (s : State) : Host.Outcome State Fault Refusal :=
  laneFp1 g (fun _ x => frcpCode x) d a s
/-- FRSQ (R331). -/
def execFrsq (g : Bool) (d a : VReg) (s : State) : Host.Outcome State Fault Refusal :=
  laneFp1 g (fun _ x => frsqCode x) d a s
/-- FSQRT (R331). -/
def execFsqrt (g : Bool) (d a : VReg) (s : State) : Host.Outcome State Fault Refusal :=
  laneFp1 g (fun _ x => fsqrtCode x) d a s
/-- FEXP2 (R331). -/
def execFexp2 (g : Bool) (d a : VReg) (s : State) : Host.Outcome State Fault Refusal :=
  laneFp1 g (fun _ x => fexp2Code x) d a s
/-- FLOG2 (R331). -/
def execFlog2 (g : Bool) (d a : VReg) (s : State) : Host.Outcome State Fault Refusal :=
  laneFp1 g (fun _ x => flog2Code x) d a s

/-! ## Comparison (R328) -/

/-- A condition of FCMP on two numbers, with the flags it raises. -/
def fcond (c : FCond) (x y : FVal) : Bool × Word :=
  let un := isNaN x || isNaN y
  let eq := !un && !fless x y && !fless y x
  let quiet := snanFlag [x, y]
  let loud := invIf un
  match c with
  | .eq => (eq, quiet)
  | .ne => (!eq, quiet)
  | .lt => (!un && fless x y, loud)
  | .le => (!un && !fless y x, loud)
  | .gt => (!un && fless y x, loud)
  | .ge => (!un && !fless x y, loud)
  | .un => (un, quiet)
  | .num => (!un, quiet)

/-- FCMP (R328). -/
def execFcmp (g : Bool) (c : FCond) (p : PReg) (a b : VReg) (s : State) : Host.Outcome State Fault Refusal :=
  laneOp g { vr := [a.toNat, b.toNat] } (fun e l =>
    let r := fcond c (fval fp32 (laneVal e l a.toNat).toNat) (fval fp32 (laneVal e l b.toNat).toNat)
    { preds := [(p.toNat, r.1)], flags := r.2 }) s

/-! ## Conversion (R319, R320) -/

/-- The exact value of a CVT source, from the word, or the pair, read (R319). -/
def cvtSource (t : Ty) (lo hi : Word) : FVal :=
  match t with
  | .s32 => valOfInt lo.toInt
  | .n32 => valOfInt (Int.ofNat lo.toNat)
  | .s16 => valOfInt (signedOf 16 lo.toNat)
  | .s8 => valOfInt (signedOf 8 lo.toNat)
  | .n16 => valOfInt (Int.ofNat (lo.toNat % 65536))
  | .n8 => valOfInt (Int.ofNat (lo.toNat % 256))
  | .s64 => valOfInt (pairOf lo hi).toInt
  | .bf16 => fval bf16 (lo.toNat % 65536)
  | .f16 => fval fp16 (lo.toNat % 65536)
  | _ => fval fp32 lo.toNat

/-- What CVT writes, as a 64-bit value, with its flags (R320). -/
def cvtResult (t : Ty) (rm : Rm) (x : FVal) : DWord × Word :=
  match fmtOfTy t with
  | some f =>
    let r := roundVal f rm x
    (BitVec.ofNat 64 r.code, r.flags)
  | none =>
    let r := toInteger t rm x
    (BitVec.ofInt 64 r.1, r.2)

/-- The registers a CVT operand takes (R319). -/
def cvtRegs (t : Ty) (r : VReg) : List Nat :=
  match t with
  | .s64 => regRange r.toNat 2
  | _ => [r.toNat]

/-- CVT (R319, R320). -/
def execCvt (g : Bool) (d a : VReg) (src dst : Ty) (rm : Rm) (s : State) : Host.Outcome State Fault Refusal :=
  laneOp g { vr := cvtRegs src a, vw := cvtRegs dst d } (fun e l =>
    let x := cvtSource src (laneVal e l a.toNat) (laneVal e l (a.toNat + 1))
    let r := cvtResult dst rm x
    { regs := (cvtRegs dst d).zip (wordsOfDWord r.1), flags := r.2 }) s

/-! ## CVTS (R88, R321) -/

/-- Byte `i` of a word. -/
def byteOf (w : Word) (i : Nat) : Nat := field w.toNat (8 * i) 8

/-- Replace byte `i` of a word. -/
def setByte (w : Word) (i v : Nat) : Word :=
  BitVec.ofNat 32 (w.toNat - byteOf w i * 2 ^ (8 * i) + v * 2 ^ (8 * i))

/-- CVTS pack of one lane: a scaled FP32 value into byte `i` of d; a scale of 255 gives the format's NaN. -/
def packCode (f : FFmt) (rm : Rm) (a : Word) (e : Nat) : Rounded :=
  let x := fval fp32 a.toNat
  if e = 255 then roundVal f rm (.nan (isSNaN x)) else roundVal f rm (fscale (127 - Int.ofNat e) x)

/-- CVTS unpack of one lane: a code times its scale, as FP32. -/
def unpackCode (f : FFmt) (rm : Rm) (c e : Nat) : Rounded :=
  if e = 255 then { code := fp32.nan, flags := 0 } else roundVal fp32 rm (fscale (Int.ofNat e - 127) (fval f c))

/-- CVTS, pack. -/
def cvtsPack (f : FFmt) (g : Bool) (d a b : VReg) (bsel : BitVec 2) (s : State) : Host.Outcome State Fault Refusal :=
  laneOp g { vr := [d.toNat, a.toNat, b.toNat], vw := [d.toNat] } (fun e l =>
    let i := bsel.toNat
    let r := packCode f (rmOf (getFibre e.grp l).fpctl) (laneVal e l a.toNat) (byteOf (laneVal e l b.toNat) i)
    { regs := [(d.toNat, setByte (laneVal e l d.toNat) i r.code)], flags := r.flags }) s

/-- CVTS, unpack: bits [3:0] of the byte for E2M1, the whole byte for the others. -/
def cvtsUnpack (f : FFmt) (g : Bool) (d a b : VReg) (bsel : BitVec 2) (s : State) : Host.Outcome State Fault Refusal :=
  laneOp g { vr := [a.toNat, b.toNat], vw := [d.toNat] } (fun e l =>
    let i := bsel.toNat
    let c := byteOf (laneVal e l a.toNat) i % 2 ^ f.bits
    let r := unpackCode f (rmOf (getFibre e.grp l).fpctl) c (byteOf (laneVal e l b.toNat) i)
    let snan := snanFlag [fval f c]
    { regs := [(d.toNat, BitVec.ofNat 32 r.code)], flags := r.flags ||| snan }) s

/-- CVTS.e4m3.pack (R321). -/
def execCvtsE4m3Pack (g : Bool) (d a b : VReg) (bsel : BitVec 2) (s : State) : Host.Outcome State Fault Refusal :=
  cvtsPack e4m3 g d a b bsel s
/-- CVTS.e4m3.unpack (R321). -/
def execCvtsE4m3Unpack (g : Bool) (d a b : VReg) (bsel : BitVec 2) (s : State) : Host.Outcome State Fault Refusal :=
  cvtsUnpack e4m3 g d a b bsel s
/-- CVTS.e5m2.pack (R321). -/
def execCvtsE5m2Pack (g : Bool) (d a b : VReg) (bsel : BitVec 2) (s : State) : Host.Outcome State Fault Refusal :=
  cvtsPack e5m2 g d a b bsel s
/-- CVTS.e5m2.unpack (R321). -/
def execCvtsE5m2Unpack (g : Bool) (d a b : VReg) (bsel : BitVec 2) (s : State) : Host.Outcome State Fault Refusal :=
  cvtsUnpack e5m2 g d a b bsel s
/-- CVTS.e2m1.pack (R321). -/
def execCvtsE2m1Pack (g : Bool) (d a b : VReg) (bsel : BitVec 2) (s : State) : Host.Outcome State Fault Refusal :=
  cvtsPack e2m1 g d a b bsel s
/-- CVTS.e2m1.unpack (R321). -/
def execCvtsE2m1Unpack (g : Bool) (d a b : VReg) (bsel : BitVec 2) (s : State) : Host.Outcome State Fault Refusal :=
  cvtsUnpack e2m1 g d a b bsel s

end Sys2Proof.Machine
end

