-- ==== Sys2Proof/Machine/Placing.lean ====
section
/-! DEFINITION. What a core must have for a group to become resident (R16), group slots (R17), windows (R14), and the
state of new groups and teams (R12, R13, R25, R137). -/

namespace Sys2Proof.Machine

open Sys2Proof

/-! ## Slots and windows -/

/-- The resident groups of a sub-core. -/
def groupsOnSub (s : State) (core sub : Nat) : Nat :=
  (s.groups.filter fun e => coreOfGid e.1 == core && subOfSlot (slotOfGid e.1) == sub).length

/-- The resident groups of a core. -/
def groupsOnCore (s : State) (core : Nat) : Nat := (s.groups.filter fun e => coreOfGid e.1 == core).length

/-- The slot that a group takes on a core (R17): of the sub-core with the fewest groups, its lowest free slot. -/
def pickSlot (s : State) (core : Nat) : Option Nat :=
  match leastBy (fun a b : Nat => decide (groupsOnSub s core a < groupsOnSub s core b)) (List.range 8) with
  | some sub => findBelow (fun i => !kvHas s.groups (gidOf core i)) 32 (32 * sub)
  | none => none

/-- Whether an operation still returns into the registers of a lane (R30). -/
def returnsInto (g : Group) (lane : Nat) : Bool :=
  g.ops.any fun o => !o.done && decide (0 < o.dests) && !o.unif && inMask o.act lane

/-- The windows of a lane bank in use on a core: first register and count (R14). A window of a lane that has exited is
in use while an operation returns into it (R30). -/
def usedWindows (s : State) (core lane : Nat) : List (Nat × Nat) :=
  s.groups.flatMap fun e =>
    if coreOfGid e.1 = core then
      ((kvGet e.2.fibres lane).toList.map fun f => (f.winBase, e.2.place.hdr.regs))
        ++ ((e.2.leaving.filter fun w => w.1 == lane && returnsInto e.2 lane).map fun w => w.2)
    else []

/-- The lowest free window of `n` registers of a bank (log 8). -/
def freeWindow (used : List (Nat × Nat)) (n : Nat) : Option Nat :=
  leastBy (fun a b : Nat => decide (a < b)) ((0 :: used.map fun w => w.1 + w.2).filter fun b =>
    decide (b + n ≤ 8192) && used.all fun w => !rangesMeet b n w.1 w.2)

/-- The windows for the lanes of some fibres, if each bank has one (R16). -/
def assignWindows (s : State) (core regs : Nat) : KV Fibre → Option (KV Fibre)
  | [] => some []
  | (l, f) :: fs =>
    match freeWindow (usedWindows s core l) regs, assignWindows s core regs fs with
    | some b, some rest => some ((l, { f with winBase := b }) :: rest)
    | _, _ => none

/-- The uniform registers in use on a core (R15). -/
def uregsOnCore (s : State) (core : Nat) : Nat :=
  s.groups.foldl (fun n e => if coreOfGid e.1 = core then n + e.2.place.hdr.uregs else n) 0

/-- The tiles allotted on a core (R107). -/
def tilesOnCore (s : State) (core : Nat) : Nat :=
  s.teams.foldl (fun n e => if e.2.home = core then n + e.2.tileMap.length else n) 0

/-- Whether a team's local memory and tiles are free on its home core (R16, R119). -/
def homeFree (s : State) (core : Nat) (hdr : Hdr) : Bool :=
  decide (pinnedBytes s core + hdr.localBytes ≤ 3 * 2 ^ 18) && decide (tilesOnCore s core + hdr.tiles ≤ 32)

/-- Put a group on a core if it meets R16 for a group: a slot, windows, the uniform file and the bank. -/
def placeGroup (core : Nat) (g : Group) (s : State) : Option (Nat × State) :=
  match pickSlot s core, assignWindows s core g.place.hdr.regs g.fibres with
  | some slot, some fs =>
    if uregsOnCore s core + g.place.hdr.uregs ≤ 131072 ∧ bankAvailable s core g.place.owner = true
        ∧ s.dev.clusterMask.getLsbD (clusterOfCore core) = true then
      let gid := gidOf core slot
      some (gid, setGroup (residentBank core g.place.owner s) gid { g with fibres := fs })
    else none
  | _, _ => none

/-! ## New groups and teams -/

/-- The lane registers of a fibre that starts with some arguments (R12). -/
def startRegs (n : Nat) (args : List Word) : List Word := (args ++ List.replicate n 0).take n

/-- A group as it starts (R13). -/
def newGroup (pl : Place) (fs : KV Fibre) : Group :=
  { place := pl, fibres := fs, uregs := List.replicate pl.hdr.uregs 0, cvs := List.replicate 16 {},
    ports := List.replicate 8 {} }

/-- The physical tiles that a team takes: the lowest free ones of the core (log 8). -/
def freeTiles (s : State) (core n : Nat) : List Nat :=
  let used := s.teams.flatMap fun e => if e.2.home = core then e.2.tileMap else []
  ((List.range 32).filter fun i => !used.contains i).take n

/-- The lattice tables of a core's sub-arrays return to the default at a context switch that carries none (R90): a team of a
context is placed where no team of the context that loaded a table stands any more. -/
def switchTables (core owner : Nat) (s : State) : State :=
  let stays (o : Nat) : Bool := o == owner || s.teams.any fun e => e.2.home == core && e.2.owner == o
  let switch (x : SubArray) : SubArray :=
    if x.owner.all stays then x else { x with table := defaultLattice, owner := none }
  modCore s core fun c => { c with eng := { c.eng with subs := c.eng.subs.map fun e => (e.1, switch e.2) } }

/-- Make a team known with its home core (R25): its local memory reads zero, every barrier-table entry is as R137
gives it, and its tiles are mapped. -/
def addTeam (id : Nat) (t : Team) (core : Nat) (s : State) : State :=
  let t := { t with home := core, spread := false, tileMap := freeTiles s core t.hdr.tiles, placedAt := s.dev.clock }
  shrinkL1 core (switchTables core t.owner { s with teams := kvSet s.teams id t })

/-- Add a group to its team. -/
def joinTeam (id gid : Nat) (s : State) : State :=
  modTeam s id fun t =>
    { t with groups := t.groups ++ [gid], live := t.live + 1, spread := t.spread || coreOfGid gid != t.home }

/-- The header that a spawned group's team has: no local memory and no tiles (R24). -/
def bareHdr (h : Hdr) : Hdr := { h with localBytes := 0, tiles := 0, e1 := 1, team := 1 }

end Sys2Proof.Machine
end

