-- ==== Sys2Proof/Machine/Spawn.lean ====
section
/-! DEFINITION. Spawn bins (R21, R22), the spawn overflow area (R23), spawned and handler groups (R24), and the
deliveries of messages and return entries into queue ports (R196). -/

namespace Sys2Proof.Machine

open Sys2Proof

/-! ## Launching a bin (R22, R24) -/

/-- The fibre that a bin's arrival becomes in a lane (R12, R20). -/
def binnedFibre (hdr : Hdr) (lane : Nat) (f : NewFibre) : Fibre :=
  { pc := f.entry, wid := (f.wid &&& ~~~(63 : DWord)) ||| BitVec.ofNat 64 lane, regs := startRegs hdr.regs f.args,
    launch := f.launch }

/-- The group that a bin becomes: spawned, or a handler group when its fibres came by messages. A bin that holds fibres of
both kinds becomes the kind of its lowest slot, and its team a handler's, which has what the header asks for (DESIGN CHOICE:
the manual does not say; log 13). -/
def binGroup (team : Nat) (b : Bin) : Group :=
  let first := ((b.fibres.map fun e => e.2).head?).getD
    { entry := 0, hdr := b.hdr, wid := 0, args := [], launch := none }
  newGroup { team := team, kind := if first.message then .handler else .spawned, owner := b.owner, dom := b.owner / 64,
             launch := first.launch.getD 0, hdr := b.hdr, karg := first.karg, prio := first.prio,
             teamId := first.teamId }
    (b.fibres.map fun e => (e.1, binnedFibre b.hdr e.1 e.2))

/-- The team of one that a bin becomes (R24): a handler's when any of its fibres came by a message (log 13). -/
def binTeam (b : Bin) : Team :=
  let handler := b.fibres.any fun e => e.2.message
  { owner := b.owner, kind := if handler then .handler else .spawned, hdr := if handler then b.hdr else bareHdr b.hdr,
    prio := ((b.fibres.map fun e => e.2.prio).headD 0) }

/-- Launch a bin, if its resources are free and its context is not halted (R16, R22, R251): the group takes its place, and its
first instruction's acquire is made (R20, R193). -/
def launchBin (core bin : Nat) (s : State) : Option State :=
  match kvGet (getCore s core).bins bin with
  | none => none
  | some b =>
    let (id, s1) := freshId s
    let t := binTeam b
    if !homeFree s1 core t.hdr || (getCtx s b.owner).fatal.isSome then none
    else
      match placeGroup core (binGroup id b) s1 with
      | none => none
      | some (gid, s2) =>
        let scope := b.fibres.foldl (fun n e => max n e.2.acq) 0
        let s3 := joinTeam id gid (addTeam id t core s2)
        some (acquireL1 core scope (modCore s3 core fun c => { c with bins := kvDel c.bins bin }))

/-! ## Arrivals at bins (R21) -/

/-- Whether a bin is the one of a fibre's key. -/
def keyOf (owner : Nat) (f : NewFibre) (b : Bin) : Bool :=
  b.owner == owner && b.entry == f.entry && b.hdr.addr == f.hdr.addr

/-- Put a fibre into a slot of a bin and run its timer (R21, R22). -/
def putInBin (core owner bin lane : Nat) (f : NewFibre) (s : State) : State :=
  let r := binArrival core bin owner s
  modCore r.2 core fun c =>
    let b := (kvGet c.bins bin).getD { owner := owner, entry := f.entry, hdr := f.hdr, fibres := [], last := 0 }
    { c with bins := kvSet c.bins bin { b with
        fibres := kvSet b.fibres lane f, last := s.dev.clock, due := s.dev.clock + max 1 r.1 } }

/-- The lowest empty slot of a bin. -/
def emptySlot (b : Bin) : Option Nat := findBelow (fun l => !kvHas b.fibres l) 64 0

/-- The bin whose last arrival is the oldest; of two in one cycle the lower-numbered (DESIGN CHOICE: the manual gives no
order; log 13). -/
def oldestBin (c : Core) : Option Nat :=
  (leastBy (fun a b : Nat × Bin => decide (a.2.last < b.2.last)) c.bins).map fun e => e.1

/-- Put a fibre into a bin of a core (R21): whether it found one, and the state. A full bin of its key launches first
(R22), and where no bin is free the oldest one launches for it; a bin that cannot launch is marked to launch when it
can. -/
def binFibre (core owner : Nat) (f : NewFibre) (s : State) : Bool × State :=
  let c := getCore s core
  match c.bins.find? fun e => keyOf owner f e.2 with
  | some (i, b) =>
    match emptySlot b with
    | some l => (true, putInBin core owner i l f s)
    | none =>
      match launchBin core i s with
      | some s => (true, putInBin core owner ((findBelow (fun i => !kvHas (getCore s core).bins i) 64 0).getD i) 0 f s)
      | none => (false, s)
  | none =>
    match findBelow (fun i => !kvHas c.bins i) 64 0 with
    | some i => (true, putInBin core owner i 0 f s)
    | none =>
      match oldestBin c with
      | none => (false, s)
      | some i =>
        match launchBin core i s with
        | some s => (true, putInBin core owner i 0 f s)
        | none => (false, modCore s core fun c => { c with bins := kvMod c.bins i fun b => { b with flush := true } })

/-! ## The overflow area (R23) -/

/-- The slots of the area. -/
def ovfSlots : Nat := 65536

/-- How many slots an item takes. -/
def slotsOf : OvfItem → Nat
  | .fibre .. => 1
  | .entry _ _ _ _ _ n => n

/-- The slots in use, as runs. -/
def ovfRuns (c : Ctx) : List (Nat × Nat) := c.ovf.map fun e => (e.1, slotsOf e.2)

/-- The slots that are free. -/
def ovfFree (s : State) (owner : Nat) : Nat := ovfSlots - (ovfRuns (getCtx s owner)).foldl (fun n r => n + r.2) 0

/-- The lowest free run of `n` slots. -/
def ovfRun (c : Ctx) (n : Nat) : Option Nat :=
  leastBy (fun a b : Nat => decide (a < b)) ((0 :: (ovfRuns c).map fun r => r.1 + r.2).filter fun b =>
    decide (b + n ≤ ovfSlots) && (ovfRuns c).all fun r => !rangesMeet b n r.1 r.2)

/-- The bytes of one slot. -/
def slotBytes (kind valid w1 : Nat) (d1 d2 : Nat) (words : List Word) : List Byte :=
  bytesOfNat 4 (kind + 256 * valid) ++ bytesOfNat 4 w1 ++ bytesOfNat 8 d1 ++ bytesOfNat 8 d2
    ++ ((bytesOfWords words) ++ List.replicate 40 0).take 40

/-- The bytes of an item over its slots: a return entry's words go on through its continuation slots. -/
def itemSlots : OvfItem → List Byte
  | .fibre _ _ f => slotBytes 1 f.args.length f.entry.toNat f.hdr.addr f.wid.toNat f.args
  | .entry _ group index port ws n =>
    (List.range n).flatMap fun k =>
      let part := (ws.drop (10 * k)).take 10
      if k = 0 then slotBytes (if n = 1 then 2 else 3) part.length 0 index (group + 256 * port) part
      else slotBytes 4 part.length 0 0 0 part

/-- Write an item into the area, or nothing when no slot is free. -/
def spillItem (owner : Nat) (x : OvfItem) (s : State) : Option State :=
  match ovfRun (getCtx s owner) (slotsOf x) with
  | none => none
  | some i =>
    let s := { s with mem := memPut s.mem (descWord s owner 0x10 + 64 * i) (itemSlots x) }
    some (modCtx s owner fun c => { c with ovf := c.ovf ++ [(i, x)] })

/-- Free the slots of an item that leaves the area. -/
def freeItem (owner : Nat) (e : Nat × OvfItem) (s : State) : State :=
  let s := modCtx s owner fun c => { c with ovf := c.ovf.filter fun y => y.1 != e.1 }
  { s with mem := memZero s.mem (descWord s owner 0x10 + 64 * e.1) (64 * slotsOf e.2) }

/-- An arrival is discarded and counted, for the instruction that caused it (R291). -/
def dropArrival (core dom : Nat) (pc : Word) (entry : Nat) (s : State) : State :=
  countEvent core dom 0x0006 1 pc.toNat entry s

/-- An item goes to the area. An arrival that finds every slot taken is discarded and counted, and raises WATCHDOG for the
context (R23); the answer says whether it was taken. -/
def spillOrDrop (core owner : Nat) (x : OvfItem) (pc : Word) (entry : Nat) (s : State) : Bool × State :=
  match spillItem owner x s with
  | some s => (true, s)
  | none => (false, fatalCtx owner 0x1B 3 0 (dropArrival core (owner / 64) pc entry s))

/-- A new fibre goes to a bin of a core, or to the area (R21, R23): `pc` and `entry` name the instruction that it comes
from. -/
def arriveFibre (core owner : Nat) (f : NewFibre) (pc : Word) (entry : Nat) (s : State) : Bool × State :=
  match binFibre core owner f s with
  | (true, s) => (true, s)
  | (false, s) => spillOrDrop core owner (.fibre (clusterOfCore core) (some core) f) pc entry s

/-- The core that takes a message's fibre (R194): the lowest of the cluster with a nonempty bin for its key, else the one
with the fewest resident groups. -/
def msgCore (s : State) (clu owner : Nat) (f : NewFibre) : Nat :=
  let cores := (List.range 4).map fun i => 4 * clu + i
  match cores.find? fun k => (getCore s k).bins.any fun e => keyOf owner f e.2 && !e.2.fibres.isEmpty with
  | some k => k
  | none => (leastBy (fun a b : Nat => decide (groupsOnCore s a < groupsOnCore s b)) cores).getD (4 * clu)

/-! ## Entries for queue ports (R196) -/

/-- The lowest port of a group with a KIND. -/
def portOfKind (g : Group) (kind : Nat) : Option Nat :=
  findBelow (fun i => (g.ports.getD i {}).kind == kind) 8 0

/-- An entry of one word per lane from its first words. -/
def entryWords (ws : List Word) : List Word := (ws ++ List.replicate 64 0).take 64

/-- Whether an entry may enter a port of a group: the port has the kind, and room. -/
def portTakes (g : Group) (port kind : Nat) : Bool :=
  let p := g.ports.getD port {}
  p.kind == kind && decide (p.fifo.length < 16)

/-- Put an entry into a port's FIFO. -/
def pushEntry (gid port : Nat) (ws : List Word) (s : State) : State :=
  modGroup s gid fun g => modPort g port fun p => { p with fifo := p.fifo ++ [entryWords ws] }

/-- Whether an earlier entry for a team's group waits in the area with the same number of slots. -/
def entryWaits (s : State) (owner team group n : Nat) : Bool :=
  (getCtx s owner).ovf.any fun e => match e.2 with
    | .entry t g _ _ _ k => t == team && g == group && k == n
    | .fibre .. => false

/-- The team index that an entry's slot names (R23): that of the group's team; a spawned or handler group's, which is in no
launch's numbering, as its TEAMID reads (DESIGN CHOICE: the manual gives such a team no index; log 13). -/
def indexOf (g : Group) (t : Team) : Nat := if t.kind = .launched then t.index else g.place.teamId.toNat

/-- Deliver an entry to a group's port of a KIND, or to the area when the port has no room, is missing, or earlier
entries wait; the answer says whether it was taken. The slot of an entry for which no port is bound names port 0 (DESIGN
CHOICE: the manual does not say; log 13). -/
def arriveEntry (gid kind : Nat) (ws : List Word) (pc : Word) (entry : Nat) (s : State) : Bool × State :=
  let g := getGroup s gid
  let owner := g.place.owner
  let n := if kind = 2 then 1 else 4
  let waits := entryWaits s owner g.place.team g.place.num n
  let port := portOfKind g kind
  if waits = false ∧ (match port with | some p => portTakes g p kind | none => false) = true then
    (true, pushEntry gid (port.getD 0) ws s)
  else
    let x : OvfItem := .entry g.place.team g.place.num (indexOf g (getTeam s g.place.team)) (port.getD 0) ws n
    spillOrDrop (coreOfGid gid) owner x pc entry s

/-! ## Redelivery (R23) -/

/-- Whether an item can be delivered now on a core: its fibre has a bin with room or a free bin, or its port has
room. -/
def deliverable (s : State) (owner core : Nat) : OvfItem → Bool
  | .fibre clu c f =>
    (c.getD (msgCore s clu owner f) == core) && !(getCtx s owner).out &&
      (match (getCore s core).bins.find? fun e => keyOf owner f e.2 with
       | some (_, b) => (emptySlot b).isSome
       | none => (findBelow (fun i => !kvHas (getCore s core).bins i) 64 0).isSome)
  | .entry t num _ _ _ n =>
    match groupOfTeam s t num with
    | some gid =>
      coreOfGid gid == core && (match portOfKind (getGroup s gid) (if n = 1 then 2 else 3) with
        | some p => portTakes (getGroup s gid) p (if n = 1 then 2 else 3)
        | none => false)
    | none => false

/-- Deliver an item of the area. -/
def deliverItem (owner core : Nat) (x : OvfItem) (s : State) : State :=
  match x with
  | .fibre _ _ f => (binFibre core owner f s).2
  | .entry t num _ _ ws n =>
    match groupOfTeam s t num with
    | some gid =>
      match portOfKind (getGroup s gid) (if n = 1 then 2 else 3) with
      | some p => pushEntry gid p ws s
      | none => s
    | none => s

/-- OVERFLOW_REDELIVERY (R23): the oldest item of a context that a core can take leaves the area. -/
def execOverflowRedelivery (owner core : Nat) (s : State) : Host.Outcome State Fault Refusal :=
  match (getCtx s owner).ovf.find? fun e => deliverable s owner core e.2 with
  | some e => .next (deliverItem owner core e.2 (freeItem owner e s))
  | none => .next s

/-- BIN_TIMER_EXPIRY (R22): a bin whose timer has expired launches, or is to launch when its resources are free. -/
def execBinTimerExpiry (core bin : Nat) (s : State) : Host.Outcome State Fault Refusal :=
  match kvGet (getCore s core).bins bin with
  | some b =>
    if b.due ≤ s.dev.clock then
      .next ((launchBin core bin s).getD (modCore s core fun c =>
        { c with bins := kvSet c.bins bin { b with flush := true } }))
    else .next s
  | none => .next s

/-- BIN_LAUNCH (R22): a bin that is full, or marked to launch, becomes a resident group when its resources are free;
until then it waits. -/
def execBinLaunch (core bin : Nat) (s : State) : Host.Outcome State Fault Refusal :=
  match kvGet (getCore s core).bins bin with
  | some b =>
    if b.flush || b.fibres.length == 64 then .next ((launchBin core bin s).getD s) else .next s
  | none => .next s

end Sys2Proof.Machine
end

