-- ==== Sys2Proof/Machine/MemOps.lean ====
section
/-! DEFINITION. Outstanding operations (R122, R132, R133): their counters, the order in which their accesses may be
performed (R127, R150), and how each access is performed. -/

namespace Sys2Proof.Machine

open Sys2Proof

/-! ## Counters (R132) -/

/-- The operations of a class that its counter counts, oldest first. -/
def opsOf (g : Group) (c : OpCls) : List Op := g.ops.filter fun o => o.cls == c && !o.ghost

/-- A counter: it falls only as the oldest outstanding operation of its class completes. -/
def counter (g : Group) (c : OpCls) : Nat := ((opsOf g c).dropWhile fun o => o.done).length

/-- The leaf that a wait for a counter is charged to (R289). -/
def clsLeaf : OpCls → Nat
  | .ld => 7
  | .st => 8
  | .cp => 9
  | .tl => 10

/-- An instruction that would take a counter past 63 waits at issue. -/
def countPre (c : OpCls) (s : State) : Pre := if 63 ≤ counter (curGroup s) c then .stall (clsLeaf c) else .go

/-- Drop the operations that nothing looks at again: complete ones at the front of their class, without an error and
without destinations. -/
def pruneOps : List OpCls → List Op → List Op
  | _, [] => []
  | seen, o :: os =>
    if o.done && o.err.isNone && (o.ghost || (o.dests == 0 && !seen.contains o.cls)) then pruneOps seen os
    else o :: pruneOps (if o.ghost then seen else o.cls :: seen) os

/-- Keep only the operations that matter, and the release fences that still order one. -/
def prune (g : Group) : Group :=
  let ops := pruneOps [] g.ops
  { g with ops := ops, fences := g.fences.filter fun f => ops.any fun o => !o.done && decide (o.seq < f.2) }

/-! ## The requests of a core (R122) -/

/-- The 128-byte lines of global accesses. -/
def linesOf (accs : List Acc) : List Nat :=
  (accs.filterMap fun a => match a.loc with
    | .glob pa _ _ => if a.done then none else some (lineOf pa)
    | .loc _ _ => none).eraseDups

/-- Whether the ordered window of a group is open (R151). -/
def windowOpen (s : State) (g : Group) : Bool :=
  match (getLaunch s g.place.launch).window with
  | some (t, n) => (getTeam s g.place.team).index == t && g.place.num == n
  | none => false

/-- Whether an operation of a group is an ordered one that its window holds (R152). -/
def heldOp (s : State) (g : Group) (o : Op) : Bool := o.ord && !windowOpen s g

/-- The line requests outstanding on a core: elements staged outside their window are none yet, and a held ATOM keeps its
request (R152). -/
def outstanding (s : State) (core : Nat) : Nat :=
  s.groups.foldl (fun n e => if coreOfGid e.1 = core then
    e.2.ops.foldl (fun n o => if o.done || (heldOp s e.2 o && o.cls == .st) then n else n + (linesOf o.accs).length) n
    else n) 0

/-- A memory instruction that needs more than 2,048 line requests waits at issue. -/
def linePre (c : OpCls) (accs : List Acc) (s : State) : Pre :=
  if 2048 < outstanding s s.cur.core + (linesOf accs).length then .stall (clsLeaf c) else .go

/-! ## Prefetches (R218, R361) -/

/-- Whether a line of memory is on its way to a core for a load that is outstanding. -/
def demanded (s : State) (core pa : Nat) : Bool :=
  s.groups.any fun e => coreOfGid e.1 == core && e.2.ops.any fun o =>
    (match o.kind with | .load _ | .ldq _ => !o.done && (linesOf o.accs).contains pa | _ => false)

/-- Send a prefetch of the line at a virtual address, if nothing drops it. A drop for busy slots is counted. -/
def sendPrefetch (a : Who) (va : Nat) (s : State) : State :=
  let e := (tlbFind (getCore s a.core).tlb a.owner va).orElse fun _ =>
    tlbFind (kvGetD s.clusters (clusterOfCore a.core) {}).tlb a.owner va
  match e with
  | none => s
  | some e =>
    let pa := lineOf (paOf e va)
    let c := getCore s a.core
    if !e.r || !cachedHome e.home || (l1Find c pa).isSome || c.pfSlots.any (fun x => x.2.pa == pa)
        || demanded s a.core pa then s
    else
      match findBelow (fun i => !kvHas c.pfSlots i) 64 0 with
      | some i =>
        let p : PfSlot := { owner := a.owner, pa := pa, home := e.home, pc := a.pc, entry := a.entry }
        modCore s a.core fun c => { c with pfSlots := kvSet c.pfSlots i p }
      | none => countEvent a.core (a.owner / 64) 0x0004 1 a.pc.toNat a.entry s

/-- A training access at an address (R217): the entry is updated and its prefetches go out. -/
def trainLoad (w : Who) (slot a : Nat) (s : State) : State :=
  let i := 64 * subOfSlot slot + field w.pc.toNat 2 6
  match findBank s w.core w.owner with
  | none => s
  | some b =>
    let e := strideStep (kvGetD b.stride i 0) w.pc a
    let s := modBank w.core w.owner (fun b => { b with stride := kvSet b.stride i e }) s
    (prefetchTargets e a b.pfdist).foldl (fun s va => sendPrefetch w va s) s

/-! ## Order (R125 to R128, R150) -/

/-- Whether an operation is an acquire. -/
def isAcquire (o : Op) : Bool :=
  (o.order == .acq || o.order == .ar) && o.act != 0 &&
    (match o.kind with | .load _ | .ldq _ | .atomic .. => true | _ => false)

/-- Whether an operation is a release. -/
def isRelease (o : Op) : Bool :=
  (o.order == .rel || o.order == .ar) && o.act != 0 &&
    (match o.kind with | .store | .atomic .. | .stcmp _ | .msg => true | _ => false)

/-- Whether an operation is a store, an atomic, a message or a return, which a release fence holds after earlier accesses. -/
def isWriter (o : Op) : Bool := match o.kind with | .store | .atomic .. | .stcmp _ | .msg => true | _ => false

/-- The fibres whose access one of an operation's accesses is (R125). -/
def fibresOf (o : Op) (a : Acc) : LaneMask := if o.unif then o.mask else oneLane a.lane

/-- The fibres of all of an operation's accesses. -/
def opFibres (o : Op) : LaneMask := if o.unif then o.mask else o.act

/-- Whether two places share a byte. -/
def locsMeet (l : Loc) (n : Nat) (m : Loc) (k : Nat) : Bool :=
  decide (0 < n) && decide (0 < k) &&
    (match l, m with
     | .loc t a, .loc u b => t == u && rangesMeet a n b k
     | .glob a _ _, .glob b _ _ => rangesMeet a n b k
     | _, _ => false)

/-- The places an access touches: a copy reads the line its address translates to now, and writes local memory. -/
def placesOf (s : State) (gid : Nat) (g : Group) (o : Op) (a : Acc) : List Loc :=
  match o.kind with
  | .copy _ =>
    (match placeOf s (coreOfGid gid) g a.va a.len .load with | .ok l => [l] | .error _ => [])
      ++ (match a.dst with | some d => [.loc g.place.team d] | none => [])
  | _ => [a.loc]

/-- Whether two accesses share a byte. -/
def accsMeet (s : State) (gid : Nat) (g : Group) (o : Op) (a : Acc) (p : Op) (b : Acc) : Bool :=
  (placesOf s gid g o a).any fun l => (placesOf s gid g p b).any fun m => locsMeet l a.len m b.len

/-- Whether an earlier operation must be performed before an access (R127). Copies, engine operations and ordered operations
that are held are ordered by WAIT alone (R330). -/
def blocks (s : State) (gid : Nat) (g : Group) (p : Op) (o : Op) (a : Acc) : Bool :=
  let mine := fibresOf o a
  let pending := p.accs.filter fun b => !b.done
  let ordered := !heldOp s g p && (p.cls == .ld || p.cls == .st)
  (pending.any fun b => (overlaps (fibresOf p b) mine || (o.ord && p.ord)) && accsMeet s gid g o a p b)
    || (isAcquire p && overlaps p.mask mine)
    || (isRelease o && ordered && overlaps (opFibres p) o.mask)
    || (isWriter o && ordered && g.fences.any fun f =>
          decide (f.2 ≤ o.seq) && decide (p.seq < f.2) && overlaps (opFibres p &&& f.1) mine)

/-- Whether an operation performs its accesses in ascending lane order (R154). -/
def inOrder (o : Op) : Bool := match o.kind with | .stcmp _ => true | _ => false

/-- Whether an access of an operation may be performed now: no earlier operation blocks it, and no lower lane of the
same store or atomic that shares a byte, or of the same STCMP, is still to be performed. -/
def accReady (s : State) (gid : Nat) (g : Group) (o : Op) (a : Acc) : Bool :=
  (g.ops.all fun p => p.done || !decide (p.seq < o.seq) || !blocks s gid g p o a)
    && (!isWriter o || o.accs.all fun b => b.done || !decide (b.lane < a.lane) || !(inOrder o || accsMeet s gid g o a o b))

/-! ## Performing an access -/

/-- The agent of an operation. -/
def whoOf (gid : Nat) (g : Group) (o : Op) : Who :=
  { core := coreOfGid gid, owner := g.place.owner, pc := o.pc, entry := g.place.hdr.entry.toNat }

/-- The effective scope of an operation: that of its widest access (R124). -/
def opScope (s : State) (g : Group) (o : Op) : Nat :=
  o.accs.foldl (fun n a => max n (accScope s g o.scope a.loc)) (effScope s g o.scope)

/-- Whether a group belongs to a copy of a twin-checked team (R280). -/
def twinCopy (s : State) (g : Group) : Bool := (getTeam s g.place.team).copy != 0

/-- The scope at which a release of a group takes effect now: those of a twin copy that are wider than team scope wait for its
commit (R281). -/
def relScope (s : State) (g : Group) (scope : Nat) : Nat := if twinCopy s g then min scope (effScope s g .team) else scope

/-- The operation of a group with a number. -/
def findOp (g : Group) (seq : Nat) : Option Op := g.ops.find? fun o => o.seq == seq

/-- Change an operation of a group. -/
def modOp (gid seq : Nat) (f : Op → Op) (s : State) : State :=
  modGroup s gid fun g => { g with ops := g.ops.map fun o => if o.seq = seq then f o else o }

/-- Change an access of an operation. -/
def modAcc (gid seq lane : Nat) (f : Acc → Acc) (s : State) : State :=
  modOp gid seq (fun o => { o with accs := o.accs.map fun a => if a.lane = lane then f a else a }) s

/-- An operation meets an error after issue: it waits for a WAIT or BWAIT, the first one only, or, in the drain of a fatal
context, is a late fault (R253, R259). -/
def setErr (gid seq : Nat) (e : OpErr) (s : State) : State :=
  match findOp (getGroup s gid) seq with
  | none => s
  | some o =>
    if (getCtx s (getGroup s gid).place.owner).fatal.isSome then
      lateTrap gid { code := e.code, detail := e.detail, addr := e.addr, async := true, retPc := o.pc, mask := o.mask } s
    else modOp gid seq (fun o => { o with err := o.err.orElse fun _ => some e }) s

/-- The words that bytes fill, zero-extended (R43). -/
def resultWords (bs : List Byte) : List Word := wordsOfBytes (bs ++ List.replicate ((4 - bs.length % 4) % 4) 0)

/-- Put the result of an access into its destination registers, if the fibre is still there. -/
def deliver (gid : Nat) (o : Op) (lane : Nat) (bs : List Byte) (s : State) : State :=
  let ws := (regRange o.dest o.dests).zip (resultWords bs)
  modGroup s gid fun g =>
    if o.unif then ws.foldl (fun g e => setU g e.1 e.2) g
    else modLanes g (oneLane lane) fun _ f => ws.foldl (fun f e => setReg f e.1 e.2) f

/-- The y of add.x64 (R147): the operand floored to units of 2^E, clamped. -/
def addX64Operand (v e : Nat) : Int :=
  let lim : Int := 2 ^ 47 - 1
  match fval fp32 v with
  | .fin neg m q => max (-lim) (min lim (floorAt neg m q (signedOf 16 e)))
  | .inf neg => if neg then -lim else lim
  | _ => 0

/-- What an atomic writes, of `n` bytes, from the old value and its operand bytes (R147). -/
def atomicNew (op : AOp) (n m : Nat) (data : List Byte) : Nat :=
  let x := natOfBytes (data.take n)
  let cmp := natOfBytes ((data.drop n).take n)
  match op with
  | .add => (m + x) % 2 ^ (8 * n)
  | .minS => if signedOf (8 * n) m ≤ signedOf (8 * n) x then m else x
  | .minN => min m x
  | .maxS => if signedOf (8 * n) m ≤ signedOf (8 * n) x then x else m
  | .maxN => max m x
  | .and => Nat.land m x
  | .or => Nat.lor m x
  | .xor => Nat.xor m x
  | .exch => x
  | .cas => if m = cmp then x else m
  | .addX64 =>
    (exactAdd (BitVec.ofNat 64 m) (addX64Operand (natOfBytes (data.take 4)) (natOfBytes ((data.drop 4).take 2)))).toNat
  | .faddF32 => (addCode false fp32 .rn m x).code

/-- The size of an atomic. -/
def atomBytes (wide : Bool) : Nat := if wide then 8 else 4

/-- Perform an atomic at a place (R146, R147): the old bytes, and the state. What a peer returns is a free value. -/
def doAtomic (w : Who) (op : AOp) (wide : Bool) (l : Loc) (data : List Byte) (s : State) : List Byte × State :=
  let n := atomBytes wide
  let new (old : List Byte) : List Byte := bytesOfNat n (atomicNew op n (natOfBytes old) data)
  match l with
  | .loc t off => (localRead s t off n, localWrite t off (new (localRead s t off n)) s)
  | .glob pa home hcore =>
    match peerOf s pa with
    | some p =>
      (bytesOfNat n (Config.freeDWord s.free).toNat,
       sendPeer p .q (field pa 0 40) (.atomic op wide) n data { s with free := s.free + 1 })
    | none =>
      let r := coherentRead w l n s
      (r.1, homeWrite pa (new r.1) home hcore r.2)

/-- Bytes with one entry of a twin stream over them. -/
def overlayItem (m : List Host.Cell) (t : TwinItem) : List Host.Cell :=
  match t.loc, t.red with
  | .glob p _ _, none => if t.msg.isNone then memPut m p t.data else m
  | .glob p _ _, some (op, wide) =>
    let n := atomBytes wide
    memPut m p (bytesOfNat n (atomicNew op n (natOfBytes (memBytes m p n)) t.data))
  | .loc _ _, _ => m

/-- Bytes read at a place by a group: a twin copy's group reads what it had staged when the reading instruction issued, the
first `n` entries of its stream, over them (R281). -/
def twinRead (s : State) (g : Group) (n : Nat) (l : Loc) (bs : List Byte) : List Byte :=
  match l with
  | .loc _ _ => bs
  | .glob pa _ _ =>
    if twinCopy s g then memBytes ((g.twin.take n).foldl overlayItem (memPut [] pa bs)) pa bs.length else bs

/-- Whether an atomic's access goes through a service group's queue (R146). -/
def needsService (s : State) (o : Op) (a : Acc) : Bool :=
  match o.kind, a.loc with
  | .atomic .., .glob pa home _ => decide (pa < deviceBytes) && home != 2 && (peerOf s pa).isNone
  | _, _ => false

/-- The elements of a context in a core's staging buffer (R152). -/
def stagedOf (s : State) (core owner : Nat) : Nat := kvGetD (getCore s core).staged owner 0

/-- Set the number of a context's elements in a core's staging buffer. -/
def setStaged (core owner n : Nat) (s : State) : State := modCore s core fun c => { c with staged := kvSet c.staged owner n }

/-- An ordered element that stood in a staging buffer or its spill leaves it (R152): which elements a spill takes is open, and
the model takes those in the buffer to leave first (DESIGN CHOICE; log 13). -/
def unstage (core owner : Nat) (s : State) : State :=
  if 0 < stagedOf s core owner then setStaged core owner (stagedOf s core owner - 1) s
  else modCtx s owner fun c => { c with spilled := c.spilled - 1 }

/-- Take so many elements out of the staging buffer and its spill. -/
def unstageN (core owner : Nat) : Nat → State → State
  | 0, s => s
  | n + 1, s => unstageN core owner n (unstage core owner s)

/-- Perform an access. One that meets an uncorrectable error, or a peer whose links are all down, changes nothing,
delivers zero and leaves its error (R123, R275). -/
def performAcc (gid : Nat) (o : Op) (a : Acc) (s : State) : State :=
  let g := getGroup s gid
  let w := whoOf gid g o
  let s := if isRelease o then releaseL1 w.core (relScope s g (opScope s g o)) s else s
  let s := match o.kind with
    | .load _ =>
      if (accessFails s o.lost a.loc).isSome then deliver gid o a.lane (List.replicate a.len 0) s
      else
        let r := if o.home then coherentRead w a.loc a.len s else readLoc w a.loc a.len s
        deliver gid o a.lane (twinRead s g o.seen a.loc r.1) r.2
    | .store | .stcmp _ =>
      if (accessFails s o.lost a.loc).isSome then s
      else if o.home then coherentWrite w a.loc a.data s
      else writeLoc w (scopeNum o.scope) (accScope s g o.scope a.loc) a.loc a.data s
    | .atomic op wide ret =>
      if (accessFails s o.lost a.loc).isSome then deliver gid o a.lane (List.replicate (atomBytes wide) 0) s
      else
        let r := doAtomic w op wide a.loc a.data s
        if ret then deliver gid o a.lane r.1 r.2 else r.2
    | _ => s
  let s := if o.ord && o.cls == .st && a.queued then unstage w.core w.owner s else s
  let s := match accessFails s o.lost a.loc with
    | some _ => setErr gid o.seq { code := 0x1A, detail := 0, addr := a.va / 128 * 128 } s
    | none => s
  modAcc gid o.seq a.lane (fun a => { a with done := true, queued := false }) s

/-- Operations whose accesses are all performed complete; an acquire then acts on the L1 (R120, R132). -/
def finishOps (gid : Nat) (s : State) : State :=
  let g := getGroup s gid
  let isOver (o : Op) : Bool := !o.done && (match o.kind with | .engine .. => false | _ => o.accs.all fun a => a.done)
  let s := (g.ops.filter fun o => isOver o && isAcquire o).foldl (fun s o => acquireL1 (coreOfGid gid) (opScope s g o) s) s
  modGroup s gid fun g => prune { g with ops := g.ops.map fun o => if isOver o then { o with done := true } else o }

/-- Perform the access of one lane of an operation, if it is ready and its window is open. -/
def tryAcc (gid seq lane : Nat) (s : State) : State :=
  let g := getGroup s gid
  match findOp g seq with
  | none => s
  | some o =>
    match o.accs.find? fun a => a.lane == lane with
    | none => s
    | some a =>
      if a.done || needsService s o a || !accReady s gid g o a || (o.ord && !windowOpen s g) then s
      else performAcc gid o a s

/-- Perform the ready accesses of some lanes of an operation, or of a uniform one, in ascending lane order. -/
def performLanes (gid seq : Nat) (lanes : LaneMask) (s : State) : State :=
  finishOps gid ((lanesOf lanes ++ [64]).foldl (fun s l => tryAcc gid seq l s) s)

/-- Whether an operation is completed by an event of its own kind. -/
def plainOp (c : OpCls) (o : Op) : Bool :=
  o.cls == c && (match o.kind with | .load _ | .store | .atomic .. | .stcmp _ => true | _ => false)

/-- LOAD_COMPLETION (R132): loads and value-returning atomics of some lanes return their values. -/
def execLoadCompletion (gid seq : Nat) (lanes : LaneMask) (s : State) : Host.Outcome State Fault Refusal :=
  match findOp (getGroup s gid) seq with
  | some o => if plainOp .ld o then .next (performLanes gid seq lanes s) else .next s
  | none => .next s

/-- STORE_PERFORMED (R132): stores and reductions of some lanes are performed at their effective scope. -/
def execStorePerformed (gid seq : Nat) (lanes : LaneMask) (s : State) : Host.Outcome State Fault Refusal :=
  match findOp (getGroup s gid) seq with
  | some o => if plainOp .st o then .next (performLanes gid seq lanes s) else .next s
  | none => .next s

/-! ## LDQ (R347) -/

/-- The place among a port's reserved entries that belongs to an LDQ in flight. -/
def ldqRank (g : Group) (port seq : Nat) : Nat :=
  (g.ops.filter fun o => o.kind == .ldq port && !o.done && decide (o.seq < seq)).length

/-- Fill the reserved entry of a rank. -/
def fillReserved : List (List Word) → Nat → List Word → List (List Word)
  | [], _, _ => []
  | [] :: es, 0, w => w :: es
  | [] :: es, n + 1, w => [] :: fillReserved es n w
  | e :: es, n, w => e :: fillReserved es n w

/-- The words that an LDQ's accesses read, by lane, with the state; one that fails gives 0. -/
def ldqWords (gid : Nat) (g : Group) (o : Op) (s : State) : List (Nat × Word) × State :=
  o.accs.foldl (fun r a =>
    if (accessFails r.2 o.lost a.loc).isSome then
      ((a.lane, 0) :: r.1, setErr gid o.seq { code := 0x1A, detail := 0, addr := a.va / 128 * 128 } r.2)
    else
      let x := readLoc (whoOf gid g o) a.loc 4 r.2
      ((a.lane, wordOfBytes (twinRead r.2 g o.seen a.loc x.1)) :: r.1, x.2)) ([], s)

/-- LDQ_FILL (R347): the value of an LDQ lands in its reserved entry. -/
def execLdqFill (gid seq : Nat) (s : State) : Host.Outcome State Fault Refusal :=
  let g := getGroup s gid
  match findOp g seq with
  | none => .next s
  | some o =>
    match o.kind with
    | .ldq port =>
      if o.done || !(o.accs.all fun a => accReady s gid g o a) then .next s
      else
        let r := ldqWords gid g o s
        let entry := allLanes.map fun l => ((r.1.find? fun e => e.1 == l).map fun e => e.2).getD 0
        let s := if port < 8 then
            modGroup r.2 gid fun g => modPort g port fun p => { p with fifo := fillReserved p.fifo (ldqRank g port seq) entry }
          else r.2
        .next (finishOps gid (modOp gid seq (fun o => { o with accs := o.accs.map fun a => { a with done := true } }) s))
    | _ => .next s

/-! ## Service groups (R148) -/

/-- The service queue of a cluster. -/
def svcQ (s : State) (cluster : Nat) : List SvcReq := (kvGetD s.clusters cluster {}).svcQ

/-- Change the service queue of a cluster. -/
def setSvcQ (cluster : Nat) (q : List SvcReq) (s : State) : State :=
  { s with clusters := kvSet s.clusters cluster { kvGetD s.clusters cluster {} with svcQ := q } }

/-- The cluster that performs an access, where a service group does. -/
def svcCluster (s : State) (o : Op) (a : Acc) : Option Nat :=
  match a.loc with
  | .glob pa _ _ => if needsService s o a then some (owningCluster s pa) else none
  | .loc _ _ => none

/-- Put the requests of an operation into the service queues, in ascending lane order, as far as they have room. -/
def enqueueSvc (gid : Nat) (o : Op) (s : State) : State :=
  o.accs.foldl (fun s a =>
    match svcCluster s o a with
    | some c =>
      if a.done || a.queued || decide (1024 ≤ (svcQ s c).length) then s else
      modAcc gid o.seq a.lane (fun a => { a with queued := true })
        (setSvcQ c (svcQ s c ++ [{ gid := gid, seq := o.seq, lane := a.lane }]) s)
    | none => s) s

/-- A request waits at issue while a queue of 1,024 entries is full. -/
def svcPre (o : Op) (s : State) : Pre :=
  let cs := o.accs.filterMap fun a => svcCluster s o a
  if cs.any fun c => decide (1024 < (svcQ s c).length + (cs.filter fun d => d == c).length) then .stall (clsLeaf o.cls)
  else .go

/-- The operation and access of a request of this device. -/
def svcTarget (s : State) (r : SvcReq) : Option (Group × Op × Acc) :=
  let g := getGroup s r.gid
  match r.outside, findOp g r.seq with
  | none, some o => (o.accs.find? fun a => a.lane == r.lane).map fun a => (g, o, a)
  | _, _ => none

/-- The place and length of a request's bytes, and whether nothing else holds it back. -/
def svcView (s : State) (r : SvcReq) : Option (Loc × Nat × Bool) :=
  match r.outside with
  | some x => some (.glob x.pa 0 0, atomBytes x.wide, true)
  | none => (svcTarget s r).map fun t =>
      (t.2.2.loc, t.2.2.len, accReady s r.gid t.1 t.2.1 t.2.2 && (!t.2.1.ord || windowOpen s t.1))

/-- The first request of a queue that can be performed: none before it touches its bytes. -/
def svcNext (s : State) : List SvcReq → List SvcReq → Option SvcReq
  | _, [] => none
  | before, r :: rs =>
    match svcView s r with
    | none => svcNext s before rs
    | some (l, n, ready) =>
      let waits := before.any fun b => match svcView s b with
        | some (l', n', _) => locsMeet l n l' n'
        | none => false
      if !waits && ready then some r else svcNext s (r :: before) rs

/-- The reply to a peer's load or atomic leaves (R274). -/
def busReply (dev pa : Nat) (bs : List Byte) (s : State) : State :=
  match (s.net.peers.map fun e => e.2).find? fun p => p.dev.toNat == dev with
  | some p => if peerDown s p then s else sendPeer p .p pa .reply bs.length bs s
  | none => s

/-- Perform a peer's atomic at the home of its bytes, and send their old value back. -/
def performOutside (x : Outside) (s : State) : State :=
  let n := atomBytes x.wide
  let old := busReads s x.pa n
  busReply x.dev x.pa old (busWrites x.pa (bytesOfNat n (atomicNew x.op n (natOfBytes old) x.data)) s)

/-- Requests of ordered operations whose window is open enter the queues that have room again (R148). -/
def refillSvc (s : State) : State :=
  s.groups.foldl (fun s e =>
    if windowOpen s e.2 then (e.2.ops.filter fun o => o.ord && !o.done).foldl (fun s o => enqueueSvc e.1 o s) s else s) s

/-- Perform a request of a service group's queue, which it has left. -/
def performSvc (r : SvcReq) (s : State) : State :=
  match r.outside, svcTarget s r with
  | some x, _ => performOutside x s
  | none, some (_, o, a) => finishOps r.gid (performAcc r.gid o a s)
  | none, none => s

/-- SERVICE_GROUP_ATOMIC (R148): the service group of a cluster performs the next atomic of its queue at the home
slice. -/
def execServiceGroupAtomic (cluster : Nat) (s : State) : Host.Outcome State Fault Refusal :=
  match svcNext s [] (svcQ s cluster) with
  | none => .next s
  | some r => .next (refillSvc (performSvc r (setSvcQ cluster ((svcQ s cluster).erase r) s)))

end Sys2Proof.Machine
end

