-- ==== Sys2Proof/Machine/MemIssue.lean ====
section
/-! DEFINITION. The issue of memory instructions: LD, ST, LDQ, PREF, ATOM, RED, STCMP, FENCE, WAIT and ORDREL. -/

namespace Sys2Proof.Machine

open Sys2Proof

/-! ## Addresses and places -/

/-- The bytes of an access size (R43). -/
def sizeBytes : Size → Nat
  | .b32 => 4
  | .b64 => 8
  | .b128 => 16
  | .b16 => 2

/-- The registers that an access of a size takes. -/
def sizeRegs : Size → Nat
  | .b32 => 1
  | .b64 => 2
  | .b128 => 4
  | .b16 => 1

/-- The addresses of the acting lanes: an address pair and an offset. -/
def laneAddrs (g : Group) (act : LaneMask) (base : Nat) (off : Int) : List (Nat × Nat) :=
  (lanesOf act).map fun l => (l, (getRegPair (getFibre g l) base + BitVec.ofInt 64 off).toNat)

/-- A fault of a lane's access: its cause, address and lane. -/
abbrev LaneFault := Nat × Nat × Nat

/-- The accesses of lanes, or the fault of the lowest faulting lane (R118). -/
def placeLanes (s : State) (g : Group) (len : Nat) (need : Need) : List (Nat × Nat) → Except LaneFault (List Acc)
  | [] => .ok []
  | (l, va) :: rest =>
    match placeOf s s.cur.core g va len need with
    | .error c => .error (c, va, l)
    | .ok loc =>
      match placeLanes s g len need rest with
      | .error e => .error e
      | .ok as => .ok ({ lane := l, loc := loc, va := va, len := len } :: as)

/-- What an address fault is to the checks. -/
def faultPre (lane : Bool) : Except LaneFault (List Acc) → Pre
  | .error (c, va, l) => .trap c va (if lane then l else 0)
  | .ok _ => .go

/-- The accesses, if there was no fault. -/
def okAccs : Except LaneFault (List Acc) → List Acc
  | .error _ => []
  | .ok as => as

/-- Keep the translations that accesses used (R117). -/
def noteAccs (as : List Acc) (s : State) : State :=
  as.foldl (fun s a => notePlace s.cur.core (curGroup s) a.va s) s

/-! ## Issue -/

/-- Set the pending bits of an operation's destinations in the lanes that act (R133). -/
def setPending (o : Op) (g : Group) : Group :=
  let m : Nat := 2 ^ o.dest * (2 ^ o.dests - 1)
  if o.cls != .ld then g
  else if o.unif then { g with upend := g.upend ||| BitVec.ofNat 1024 m }
  else modLanes g o.act fun _ f => { f with pend := f.pend ||| BitVec.ofNat 128 m }

/-- The operation of the issuing path as it is counted: one without accesses is complete at once (R302). -/
def countedOp (s : State) (o : Op) : Op :=
  { o with seq := (curGroup s).opSeq, pc := s.cur.pc, mask := s.cur.mask, seen := (curGroup s).twin.length, done := o.act == 0 || o.accs.isEmpty }

/-- Count an operation (R132). -/
def addOp (o : Op) (s : State) : State :=
  let g := setPending o (curGroup s)
  setCurGroup s (prune { g with ops := g.ops ++ [countedOp s o], opSeq := g.opSeq + 1 })

/-- The number that the next operation of the issuing group gets. -/
def nextSeq (s : State) : Nat := (curGroup s).opSeq

/-- An operation whose requests for service groups stand in their queues (R148). -/
def servedOp (s : State) (o : Op) : Op :=
  { o with accs := o.accs.map fun a => if (svcCluster s o a).isSome then { a with queued := true } else a }

/-- The requests of a new operation enter the service queues, in ascending lane order. -/
def sendSvc (gid seq : Nat) (o : Op) (s : State) : State :=
  o.accs.foldl (fun s a => match svcCluster s o a with
    | some c => setSvcQ c (svcQ s c ++ [{ gid := gid, seq := seq, lane := a.lane }]) s
    | none => s) s

/-- A counted operation issues: it is counted and its translations kept; requests for service groups enter their queues
when no window holds them (R148, R152). -/
def issueOp (o : Op) (s : State) : State :=
  let s := noteAccs o.accs s
  if heldOp s (curGroup s) o then addOp o s
  else sendSvc (curGid s) (nextSeq s) o (addOp (servedOp s o) s)

/-- The checks of a counted memory instruction after its registers: its counter, its faults, its own further check, the
core's requests and the service queues. An ordered operation outside its window is held and never stalls (R152), but an ATOM
takes its request of the core. -/
def opPre (lane : Bool) (o : Op) (r : Except LaneFault (List Acc)) (own : Pre) (s : State) : Pre :=
  let o := { o with accs := okAccs r }
  let held := heldOp s (curGroup s) o
  orPre (countPre o.cls s) (orPre (faultPre lane r) (orPre own (orPre
    (if held && o.cls == .st then .go else linePre o.cls (okAccs r) s) (if held then .go else svcPre o s))))

/-! ## The staging buffer (R152, R281) -/

/-- The elements of a context that are staged: the ordered operations and the twin streams of its groups. -/
def stagedView (s : State) (owner : Nat) : List (Nat × List Op × List TwinItem) :=
  (s.groups.filter fun e => e.2.place.owner == owner).map fun e => (e.1, e.2.ops.filter (fun o => o.ord && !o.done), e.2.twin)

/-- Spill one block of up to 256 elements of a context from a staging buffer to the ordered-spill area: 4 KiB whose bytes the
manual does not lay out (log 4). An area without room raises ORDER_VIOLATION for the context (R238). -/
def spillBlock (core owner : Nat) (s : State) : State :=
  let used := ((getCtx s owner).spilled + 255) / 256
  let n := min 256 (stagedOf s core owner)
  let s' := setStaged core owner (stagedOf s core owner - n) s
  if descWord s owner 0x20 < 4096 * (used + 1) then fatalCtx owner 0x1C 0 0 s'
  else
    let s' := modCtx s' owner fun c => { c with spilled := c.spilled + n }
    { s' with mem := memPut s'.mem (descWord s owner 0x18 + 4096 * used) (packOf 14 (used, stagedView s owner) 4096) }

/-- The elements in a core's staging buffer. -/
def bufferFill (s : State) (core : Nat) : Nat := (getCore s core).staged.foldl (fun n e => n + e.2) 0

/-- Spill blocks of a context until a buffer holds no more than its 4,096 elements. -/
def spillOver (core owner : Nat) : Nat → State → State
  | 0, s => s
  | n + 1, s => if 4096 < bufferFill s core then spillOver core owner n (spillBlock core owner s) else s

/-- Stage elements in a core's buffer. -/
def stageElements (core owner n : Nat) (s : State) : State :=
  if n = 0 then s else spillOver core owner (n / 256 + 1) (setStaged core owner (stagedOf s core owner + n) s)

/-! ## Twin copies (R281) -/

/-- The elements of 16 bytes that a stream entry takes in the staging buffer: by its data (DESIGN CHOICE: the manual gives an
entry no size; log 13). -/
def itemElems (t : TwinItem) : Nat := max 1 ((t.data.length + 15) / 16)

/-- The elements of a twin stream. -/
def streamElems (ts : List TwinItem) : Nat := ts.foldl (fun n t => n + itemElems t) 0

/-- Stage entries in the twin stream of a group. -/
def stageTwin (gid : Nat) (xs : List TwinItem) (s : State) : State :=
  stageElements (coreOfGid gid) (getGroup s gid).place.owner (streamElems xs)
    (modGroup s gid fun g => { g with twin := g.twin ++ xs })

/-- Stage the global writes of an operation in the group's twin stream; their accesses are then over. -/
def twinStage (red : Option (AOp × Bool)) (o : Op) (s : State) : Op × State :=
  let g := curGroup s
  if !twinCopy s g then (o, s)
  else
    let global (a : Acc) : Bool := match a.loc with | .glob .. => true | .loc .. => false
    let items := (o.accs.filter global).map fun a =>
      ({ addr := a.va, mask := 2 ^ a.len - 1, data := a.data, loc := a.loc, red := red } : TwinItem)
    ({ o with accs := o.accs.filter fun a => !global a }, stageTwin (curGid s) items s)

/-! ## LD and LDQ (R345 to R347) -/

/-- Train the stride table by an access of the issuing path (R217): a load of a cached page. -/
def trainAccess (as : List Acc) (s : State) : State :=
  match as with
  | [] => s
  | a :: _ =>
    match a.loc with
    | .loc _ _ => s
    | .glob _ home _ =>
      let g := curGroup s
      if cachedHome home then
        trainLoad { core := s.cur.core, owner := g.place.owner, pc := s.cur.pc, entry := g.place.hdr.entry.toNat }
          s.cur.slot a.va s
      else s

/-- LD of lanes (R346). -/
def execLdLane (g : Bool) (sz : Size) (o : Order) (sc : Scope) (d base : VReg) (off : BitVec 3) (s : State) :
    Host.Outcome State Fault Refusal :=
  let act := actMask g s
  let grp := curGroup s
  let n := sizeBytes sz
  let r := placeLanes s grp n .load (laneAddrs grp act base.toNat (off.toNat * n))
  let op : Op := { seq := 0, cls := .ld, kind := .load sz, pc := 0, mask := 0, act := act, order := o, scope := sc,
                   dest := d.toNat, dests := sizeRegs sz, accs := okAccs r }
  runPre (orPre (regPre true act { vr := regRange base.toNat 2, vw := regRange d.toNat (sizeRegs sz) } s)
      (opPre true op r .go s))
    (fun s => advance 4 (noteIssue 2 (trainAccess op.accs (issueOp op s)))) s

/-- The access of a uniform instruction, at one address. -/
def uniAccess (s : State) (base : Nat) (off : Int) (len : Nat) (need : Need) : Except LaneFault (List Acc) :=
  placeLanes s (curGroup s) len need [(64, (getUPair (curGroup s) base + BitVec.ofInt 64 off).toNat)]

/-- LD of the path (R346). -/
def execLdUniform (o : Order) (sc : Scope) (d base : GReg) (off : BitVec 4) (s : State) :
    Host.Outcome State Fault Refusal :=
  let r := uniAccess s base.toNat (off.toNat * 4) 4 .load
  let op : Op := { seq := 0, cls := .ld, kind := .load .b32, pc := 0, mask := 0, act := s.cur.mask, unif := true,
                   order := o, scope := sc, dest := d.toNat, dests := 1, accs := okAccs r }
  runPre (orPre (regPre false 0 { gr := regRange base.toNat 2, gw := [d.toNat] } s) (opPre false op r .go s))
    (fun s => advance 4 (noteIssue 2 (trainAccess op.accs (issueOp op s)))) s

/-- The checks of LDQ's port: QUEUE_MISUSE unless it is bound with KIND 1, and a stall while no entry is free. -/
def ldqPre (port : Nat) (act : LaneMask) (s : State) : Pre :=
  let p := getPort (curGroup s) port
  if act = 0 then .go
  else if p.kind ≠ 1 then .trap 0x0E 0 (lowLane act)
  else if 16 ≤ p.fifo.length then .stall 13 else .go

/-- LDQ (R347): the next entry of the port is reserved at issue. -/
def execLdq (g : Bool) (sc : Scope) (q base : VReg) (off : BitVec 3) (s : State) : Host.Outcome State Fault Refusal :=
  let act := actMask g s
  let grp := curGroup s
  let port := q.toNat - 120
  let r := placeLanes s grp 4 .load (laneAddrs grp act base.toNat (off.toNat * 4))
  let op : Op := { seq := 0, cls := .ld, kind := .ldq port, pc := 0, mask := 0, act := act, scope := sc,
                   accs := okAccs r }
  runPre (orPre (regPre true act { vr := regRange base.toNat 2 } s)
      (orPre (ldqPre port act s) (opPre true op r .go s)))
    (fun s =>
      let s := trainAccess op.accs (issueOp op s)
      let s := if act = 0 then s else
        setCurGroup s (modPort (curGroup s) port fun p => { p with fifo := p.fifo ++ [[]] })
      advance 4 (noteIssue 2 s)) s

/-! ## PREF (R361) -/

/-- Bring a line into its home slice only: what PREF.clu leaves behind. -/
def prefetchSlice (w : Who) (va : Nat) (s : State) : State :=
  match translate s w.core w.owner va .load with
  | .error _ => s
  | .ok e =>
    let pa := paOf e va
    let s := fillTlb w.core e s
    if !cachedHome e.home then s
    else if (getSlice s (sliceOf pa)).lines.any fun l => l.2.pa == lineOf pa then s
    else if (findBelow (fun i => !kvHas (getCore s w.core).pfSlots i) 64 0).isNone then
      countEvent w.core (w.owner / 64) 0x0004 1 w.pc.toNat w.entry s
    else sliceAccess w pa e.home s

/-- Prefetch a line for PREF, which starts a walk on a miss. -/
def prefetchCore (w : Who) (va : Nat) (s : State) : State :=
  match translate s w.core w.owner va .load with
  | .error _ => s
  | .ok e => sendPrefetch w va (fillTlb w.core e s)

/-- PREF (R361): the distinct lines that the acting lanes name, in ascending address; nothing it does can fault. -/
def execPref (g : Bool) (sc : Scope) (base : VReg) (off : BitVec 3) (s : State) : Host.Outcome State Fault Refusal :=
  let act := actMask g s
  let grp := curGroup s
  let w : Who := { core := s.cur.core, owner := grp.place.owner, pc := s.cur.pc, entry := grp.place.hdr.entry.toNat }
  let vas := (laneAddrs grp act base.toNat (off.toNat * 4)).map fun e => e.2
  let good := vas.filter fun va => decide (va < 2 ^ 52) && (localOffset va).isNone
  let lines := sortBy (fun a b : Nat => decide (a ≤ b)) (good.map lineOf).eraseDups
  runPre (regPre true act { vr := regRange base.toNat 2 } s)
    (fun s => advance 4 (noteIssue 2 (lines.foldl (fun s va =>
      if sc = .clu then prefetchSlice w va s else prefetchCore w va s) s))) s

/-! ## ST (R375) -/

/-- The bytes a lane stores from its data registers. -/
def laneData (f : Fibre) (r n len : Nat) : List Byte := (bytesOfWords ((regRange r n).map (getReg f))).take len

/-- Give accesses what each lane stores. -/
def withData (as : List Acc) (f : Nat → List Byte) : List Acc := as.map fun a => { a with data := f a.lane }

/-- ST of lanes (R375). -/
def execStLane (g : Bool) (sz : Size) (o : Order) (sc : Scope) (d base : VReg) (off : BitVec 3) (s : State) :
    Host.Outcome State Fault Refusal :=
  let act := actMask g s
  let grp := curGroup s
  let n := sizeBytes sz
  let r := placeLanes s grp n .store (laneAddrs grp act base.toNat (off.toNat * n))
  let data (l : Nat) : List Byte := laneData (getFibre grp l) d.toNat (sizeRegs sz) n
  let op : Op := { seq := 0, cls := .st, kind := .store, pc := 0, mask := 0, act := act, order := o, scope := sc,
                   accs := withData (okAccs r) data }
  runPre (orPre (regPre true act { vr := regRange base.toNat 2 ++ regRange d.toNat (sizeRegs sz) } s)
      (opPre true op r .go s))
    (fun s =>
      let t := twinStage none op (noteAccs op.accs s)
      advance 4 (noteIssue 2 (issueOp t.1 t.2))) s

/-- ST of the path (R375). -/
def execStUniform (o : Order) (sc : Scope) (d base : GReg) (off : BitVec 4) (s : State) :
    Host.Outcome State Fault Refusal :=
  let r := uniAccess s base.toNat (off.toNat * 4) 4 .store
  let data := bytesOfNat 4 (getU (curGroup s) d.toNat).toNat
  let op : Op := { seq := 0, cls := .st, kind := .store, pc := 0, mask := 0, act := s.cur.mask, unif := true,
                   order := o, scope := sc, accs := withData (okAccs r) fun _ => data }
  runPre (orPre (regPre false 0 { gr := regRange base.toNat 2 ++ [d.toNat] } s) (opPre false op r .go s))
    (fun s =>
      let t := twinStage none op (noteAccs op.accs s)
      advance 4 (noteIssue 2 (issueOp t.1 t.2))) s

/-! ## ATOM and RED (R307, R362) -/

/-- How many registers the operand of an atomic takes (R50). -/
def atomRegs (op : AOp) (wide : Bool) : Nat :=
  match op with
  | .cas => if wide then 4 else 2
  | _ => if wide then 2 else 1

/-- Whether an ordered operation of the issuing group is ORDER_VIOLATION (R149). -/
def ordBad (s : State) (g : Group) : Bool :=
  !(getLaunch s g.place.launch).ord || g.place.kind != .launched || g.ordEnded

/-- The check of the ordered flag. -/
def ordPre (ord : Bool) (lane : Nat) (s : State) : Pre :=
  if ord && ordBad s (curGroup s) then .trap 0x1C 0 lane else .go

/-- A local atomic of a kind that only global memory knows is PERMISSION (R146). -/
def localAtomBad (op : AOp) (a : Acc) : Bool :=
  (op == .addX64 || op == .faddF32) && (match a.loc with | .loc .. => true | .glob .. => false)

/-- Apply that check to the accesses of an atomic, for the lowest faulting lane. -/
def atomAccs (op : AOp) : Except LaneFault (List Acc) → Except LaneFault (List Acc)
  | .error (c, va, l) => .error (c, va, l)
  | .ok as =>
    match as.find? (localAtomBad op) with
    | some a => .error (0x05, a.va, a.lane)
    | none => .ok as

/-- The place of an atomic's lanes: the lowest faulting lane counts, whatever its fault. -/
def placeAtoms (s : State) (g : Group) (op : AOp) (len : Nat) : List (Nat × Nat) → Except LaneFault (List Acc)
  | [] => .ok []
  | e :: rest =>
    match atomAccs op (placeLanes s g len .atomic [e]) with
    | .error f => .error f
    | .ok as =>
      match placeAtoms s g op len rest with
      | .error f => .error f
      | .ok bs => .ok (as ++ bs)

/-- A value-returning global atomic in a twin-checked team is TWIN_ATOMIC (R281). -/
def twinAtomPre (as : List Acc) (lane : Bool) (s : State) : Pre :=
  match as.find? fun a => match a.loc with | .glob .. => true | .loc .. => false with
  | some a => if twinCopy s (curGroup s) then .trap 0x18 0 (if lane then a.lane else 0) else .go
  | none => .go

/-- ATOM of lanes (R307). -/
def execAtom (g : Bool) (op : AOp) (wide : Bool) (o : Order) (sc : Scope) (ord : Bool) (d a b : VReg) (imm : BitVec 9)
    (s : State) : Host.Outcome State Fault Refusal :=
  let act := actMask g s
  let grp := curGroup s
  let n := atomBytes wide
  let k := atomRegs op wide
  let r := placeAtoms s grp op n (laneAddrs grp act a.toNat (imm.toInt * n))
  let data (l : Nat) : List Byte := laneData (getFibre grp l) b.toNat k (4 * k)
  let x : Op := { seq := 0, cls := .ld, kind := .atomic op wide true, pc := 0, mask := 0, act := act, order := o,
                  scope := sc, dest := d.toNat, dests := n / 4, ord := ord, accs := withData (okAccs r) data }
  runPre (orPre (regPre true act { vr := regRange a.toNat 2 ++ regRange b.toNat k, vw := regRange d.toNat (n / 4) } s)
      (opPre true x r (if act = 0 then .go else orPre (ordPre ord (lowLane act) s) (twinAtomPre (okAccs r) true s)) s))
    (fun s => advance 8 (noteIssue 2 (issueOp x s))) s

/-- ATOM of the path (R307). -/
def execAtomUniform (op : AOp) (wide : Bool) (o : Order) (sc : Scope) (ord : Bool) (c a b : GReg) (s : State) :
    Host.Outcome State Fault Refusal :=
  let grp := curGroup s
  let n := atomBytes wide
  let k := atomRegs op wide
  let r := placeAtoms s grp op n [(64, (getUPair grp a.toNat).toNat)]
  let data := bytesOfWords ((regRange b.toNat k).map (getU grp))
  let x : Op := { seq := 0, cls := .ld, kind := .atomic op wide true, pc := 0, mask := 0, act := s.cur.mask,
                  unif := true, order := o, scope := sc, dest := c.toNat, dests := n / 4, ord := ord,
                  accs := withData (okAccs r) fun _ => data }
  runPre (orPre (regPre false 0 { gr := regRange a.toNat 2 ++ regRange b.toNat k, gw := regRange c.toNat (n / 4) } s)
      (opPre false x r (orPre (ordPre ord 0 s) (twinAtomPre (okAccs r) false s)) s))
    (fun s => advance 8 (noteIssue 2 (issueOp x s))) s

/-! ## Ordered staging (R152) -/

/-- Stage the elements of an ordered operation whose window is not open. -/
def stageOrdered (o : Op) (s : State) : Op × State :=
  if heldOp s (curGroup s) o && o.cls == .st then
    ({ o with accs := o.accs.map fun a => { a with queued := true } },
     stageElements (coreOfGid (curGid s)) (curGroup s).place.owner o.accs.length s)
  else (o, s)

/-- RED (R362). -/
def execRed (g : Bool) (op : AOp) (wide : Bool) (o : Order) (sc : Scope) (ord : Bool) (a b : VReg) (imm : BitVec 9)
    (s : State) : Host.Outcome State Fault Refusal :=
  let act := actMask g s
  let grp := curGroup s
  let n := atomBytes wide
  let k := atomRegs op wide
  let r := placeAtoms s grp op n (laneAddrs grp act a.toNat (imm.toInt * n))
  let data (l : Nat) : List Byte := laneData (getFibre grp l) b.toNat k (4 * k)
  let x : Op := { seq := 0, cls := .st, kind := .atomic op wide false, pc := 0, mask := 0, act := act, order := o,
                  scope := sc, ord := ord, accs := withData (okAccs r) data }
  runPre (orPre (regPre true act { vr := regRange a.toNat 2 ++ regRange b.toNat k } s)
      (opPre true x r (if act = 0 then .go else ordPre ord (lowLane act) s) s))
    (fun s =>
      let t := twinStage (some (op, wide)) x (noteAccs x.accs s)
      let u := stageOrdered t.1 t.2
      advance 8 (noteIssue 2 (issueOp u.1 u.2))) s

/-! ## STCMP (R154, R376) -/

/-- The element that an STCMP of the issuing path starts at (R154). -/
def stcmpStart (s : State) (g : Group) : Nat :=
  match g.trap.stcmpAt.find? fun r => r.pc == s.cur.pc && r.mask == s.cur.mask with
  | some r => r.elt
  | none => 0

/-- The lanes an STCMP selects, in ascending order: element k is the k-th. -/
def stcmpLanes (g : Group) (act : LaneMask) (p : Nat) (neg : Bool) : List Nat :=
  (lanesOf act).filter fun l => getPred (getFibre g l) p != neg

/-- The elements from one on, up to the first that faults: the accesses, and the fault with its element. -/
def stcmpPlaces (s : State) (g : Group) (b n : Nat) : List (Nat × Nat) → List Acc × Option (Nat × Nat × Nat)
  | [] => ([], none)
  | (k, l) :: rest =>
    let va := b + k * n
    match placeOf s s.cur.core g va n .store with
    | .error c => ([], some (c, va, k))
    | .ok loc =>
      let r := stcmpPlaces s g b n rest
      ({ lane := l, loc := loc, va := va, len := n } :: r.1, r.2)

/-- The trap of an STCMP: the trap record's progress word is its element, and the handler's return resumes it. -/
def stcmpTrap (f : Nat × Nat × Nat) (s : State) : TrapInfo := { preciseTrap s f.1 f.2.1 f.2.2 with stcmp := true }

/-- Perform the elements below a faulting one (R118, R154): at once, or in their window when they are ordered, counted
by no counter. -/
def stcmpBelow (o : Op) (s : State) : State :=
  let gid := curGid s
  let seq := nextSeq s
  let s := addOp { o with ghost := true } s
  if o.ord then s else performLanes gid seq o.act s

/-- An STCMP faults (R154): the elements below the faulting one are performed, and the trap is delivered; a trap that is
held performs them when it is delivered (R82). -/
def stcmpFault (f : Nat × Nat × Nat) (o : Op) (s : State) : State :=
  if holdsTrap s then holdTrap (curGid s) { stcmpTrap f s with below := some (countedOp s { o with ghost := true }) } s
  else raiseTrap (stcmpTrap f s) (stcmpBelow o s)

/-- Whether every element below a faulting one may be performed now. -/
def stcmpReady (o : Op) (s : State) : Bool :=
  let g := curGroup s
  let o := countedOp s o
  o.ord || o.accs.all fun a => g.ops.all fun p => p.done || !blocks s (curGid s) g p o a

/-- STCMP (R154, R376). -/
def execStcmp (g : Bool) (wide : Bool) (o : Order) (sc : Scope) (ord neg : Bool) (a b : VReg) (p : PReg) (s : State) :
    Host.Outcome State Fault Refusal :=
  let act := actMask g s
  let grp := curGroup s
  let n := atomBytes wide
  let base := (getRegPair (getFibre grp (lowLane act)) a.toNat).toNat
  let sel := stcmpLanes grp act p.toNat neg
  let elts := ((List.range sel.length).zip sel).drop (stcmpStart s grp)
  let r := stcmpPlaces s grp base n elts
  let data (l : Nat) : List Byte := laneData (getFibre grp l) b.toNat (n / 4) n
  let x : Op := { seq := 0, cls := .st, kind := .stcmp n, pc := 0, mask := 0, act := act, order := o, scope := sc,
                  ord := ord, accs := withData r.1 data }
  let own : Pre :=
    if act = 0 then .go
    else if base % n ≠ 0 then .trap 0x03 base 0
    else ordPre ord 0 s
  let prep (s : State) : Op × State :=
    let t := twinStage none x (noteAccs x.accs s)
    stageOrdered t.1 t.2
  runPre (orPre (regPre true act { vr := regRange a.toNat 2 ++ regRange b.toNat (n / 4) } s)
      (orPre (countPre .st s) (orPre own (orPre (if heldOp s grp x then .go else linePre .st x.accs s)
        (if r.2.isSome && act != 0 && !stcmpReady x s then .stall 8 else .go)))))
    (fun s =>
      match r.2 with
      | some f =>
        if act = 0 then advance 8 (noteIssue 2 (issueOp x s))
        else if holdsTrap s && !twinCopy s grp then stcmpFault f x s
        else let u := prep s; stcmpFault f u.1 u.2
      | none => let u := prep s; advance 8 (noteIssue 2 (issueOp u.1 u.2))) s

/-! ## FENCE (R330) -/

/-- Whether a fence acquires. -/
def fenceAcq (o : Order) : Bool := o == .acq || o == .ar

/-- Whether a fence releases. -/
def fenceRel (o : Order) : Bool := o == .rel || o == .ar

/-- What a fence waits for: earlier loads and atomics that have not returned, a reduction being an atomic that returns when
it is performed (R127), or earlier stores and atomics not yet performed; copies, engine operations and held ordered operations
are not among them. -/
def fencePre (o : Order) (s : State) : Pre :=
  let g := curGroup s
  let mine := g.ops.filter fun p => !p.done && !heldOp s g p && overlaps (opFibres p) s.cur.mask
  let atom (p : Op) : Bool := match p.kind with | .atomic .. => true | _ => false
  if (fenceAcq o && mine.any fun p => p.cls == .ld)
      || (fenceRel o && mine.any fun p => p.cls == .ld && isWriter p) then .stall 7
  else if (fenceAcq o && mine.any fun p => p.cls == .st && atom p)
      || (fenceRel o && mine.any fun p => p.cls == .st && isWriter p) then .stall 8
  else .go

/-- The L1 action of a fence: the release and the acquire, each at its effective scope (R120). -/
def fenceAct (o : Order) (rel acq core : Nat) (s : State) : State :=
  let s := if fenceRel o then releaseL1 core rel s else s
  if fenceAcq o then acquireL1 core acq s else s

/-- FENCE (R329, R330). -/
def execFence (o : Order) (sc : Scope) (s : State) : Host.Outcome State Fault Refusal :=
  let scope := effScope s (curGroup s) sc
  runPre (fencePre o s)
    (fun s =>
      let s := fenceAct o (relScope s (curGroup s) scope) scope s.cur.core s
      let g := curGroup s
      let g := if fenceRel o then prune { g with fences := (s.cur.mask, g.opSeq) :: g.fences } else g
      advance 4 (noteIssue 1 (setCurGroup s g))) s

/-! ## WAIT (R386) -/

/-- The operations of a class that a WAIT covers: all but the youngest n. -/
def coveredOf (g : Group) (c : OpCls) (n : Nat) : List Op :=
  let os := opsOf g c
  os.take (os.length - n)

/-- The operations that a WAIT with four fields covers; one whose fields are all 63 covers nothing. -/
def covered (g : Group) (n : OpCls → Nat) : List Op :=
  if n .ld == 63 && n .st == 63 && n .cp == 63 && n .tl == 63 then []
  else [OpCls.ld, .st, .cp, .tl].flatMap fun c => coveredOf g c (n c)

/-- The first class whose counter is above its field. -/
def waitPre (n : OpCls → Nat) (s : State) : Pre :=
  match [OpCls.ld, .st, .cp, .tl].find? fun c => decide (n c < counter (curGroup s) c) with
  | some c => .stall (clsLeaf c)
  | none => .go

/-- Clear the pending bits of an operation in every fibre of the group. -/
def clearPending (o : Op) (g : Group) : Group :=
  let m : Nat := 2 ^ o.dest * (2 ^ o.dests - 1)
  if o.dests = 0 then g
  else if o.unif then { g with upend := g.upend &&& ~~~(BitVec.ofNat 1024 m) }
  else modLanes g o.act fun _ f => { f with pend := f.pend &&& ~~~(BitVec.ofNat 128 m) }

/-- The pending bits of covered operations are cleared, and those without an error are forgotten. -/
def coverOps (os : List Op) (g : Group) : Group :=
  let g := os.foldl (fun g o => clearPending o g) g
  let hit (o : Op) : Bool := os.any fun x => x.seq == o.seq
  { g with ops := (g.ops.filter fun o => !(hit o && o.err.isNone)).map fun o => if hit o then { o with dests := 0 } else o }

/-- Whether an operation's error is delivered to the issuing path: a copy's goes to the path that issued it (R141). -/
def errHere (m : LaneMask) (o : Op) : Bool :=
  match o.err with
  | some e => e.code != 0x19 || overlaps o.mask m
  | none => false

/-- Deliver the error of an operation at a WAIT or BWAIT, with TRAPREC1 at a PC (R123, R141, R244). -/
def deliverErr (o : Op) (e : OpErr) (retPc : Word) (s : State) : State :=
  let gid := curGid s
  let s := modGroup s gid fun g => prune { g with ops := g.ops.map fun x => if x.seq = o.seq then { x with err := none } else x }
  raiseTrap { code := e.code, detail := e.detail, addr := e.addr, async := true, retPc := retPc, mask := s.cur.mask } s

/-- WAIT (R386): it holds the path until the counters are at or below the fields, covers operations, and delivers the
oldest error that a covered operation carries. One whose trap is held takes no other effect (R82). -/
def execWait (ld st cp tl : BitVec 6) (s : State) : Host.Outcome State Fault Refusal :=
  let n : OpCls → Nat
    | .ld => ld.toNat
    | .st => st.toNat
    | .cp => cp.toNat
    | .tl => tl.toNat
  runPre (waitPre n s)
    (fun s =>
      let g := curGroup s
      let os := covered g n
      let held := holdsTrap s && os.any (errHere s.cur.mask)
      let s := if held then s else setCurGroup s (prune (coverOps os g))
      match leastBy (fun a b : Op => decide (a.seq < b.seq)) (os.filter (errHere s.cur.mask)) with
      | some o =>
        match o.err with
        | some e => deliverErr o e s.cur.pc s
        | none => advance 4 (noteIssue 1 s)
      | none => advance 4 (noteIssue 1 s)) s

/-! ## ORDREL (R151, R356) -/

/-- ORDREL: the group's ordered sequence ends. -/
def execOrdrel (s : State) : Host.Outcome State Fault Refusal :=
  let g := curGroup s
  let ends := (getLaunch s g.place.launch).ord && g.place.kind == .launched
  .next (advance 4 (noteIssue 2 (setCurGroup s { g with ordEnded := g.ordEnded || ends })))

end Sys2Proof.Machine
end

