-- ==== Sys2Proof/Machine/Barriers.lean ====
section
/-! DEFINITION. Transaction barriers (R136 to R145, R309) and the copies that count into them: CPA (R110, R318) and
landings. -/

namespace Sys2Proof.Machine

open Sys2Proof

/-! ## Barrier objects (R136) -/

/-- A barrier object's fields; `rest` holds the reserved bits. -/
structure Bar where
  phase : Nat
  arrive : Nat
  reload : Nat
  sect : Int
  gen : Nat
  error : Bool
  orphan : Bool
  invalid : Bool
  busy : Bool
  rest : Nat
  deriving DecidableEq, Repr

/-- The fields of 16 bytes. -/
def barOfBytes (bs : List Byte) : Bar :=
  let v := natOfBytes bs
  { phase := field v 0 4, arrive := field v 4 13, reload := field v 17 13, sect := signedOf 32 (field v 30 32),
    gen := field v 62 16, error := v.testBit 78, orphan := v.testBit 79, invalid := v.testBit 80, busy := v.testBit 81,
    rest := field v 82 46 }

/-- A bit as a number. -/
def bitNum (b : Bool) : Nat := if b then 1 else 0

/-- The 16 bytes of a barrier object. -/
def bytesOfBar (b : Bar) : List Byte :=
  bytesOfNat 16 (b.phase % 16 + 2 ^ 4 * (b.arrive % 2 ^ 13) + 2 ^ 17 * (b.reload % 2 ^ 13)
    + 2 ^ 30 * unsignedOf 32 b.sect + 2 ^ 62 * (b.gen % 2 ^ 16) + 2 ^ 78 * bitNum b.error + 2 ^ 79 * bitNum b.orphan
    + 2 ^ 80 * bitNum b.invalid + 2 ^ 81 * bitNum b.busy + 2 ^ 82 * b.rest)

/-- The barrier object at an offset of a team's local memory. -/
def barAt (s : State) (t off : Nat) : Bar := barOfBytes (localRead s t off 16)

/-- Store a barrier object. -/
def putBar (t off : Nat) (b : Bar) (s : State) : State := localWrite t off (bytesOfBar b) s

/-- Whether a barrier is armed (R140). -/
def barArmed (b : Bar) : Bool := b.reload != 0 && !b.invalid

/-- Whether a barrier is unarmed (R140). -/
def barUnarmed (b : Bar) : Bool := b.reload == 0 && !b.invalid

/-! ## Handles (R137, R138) -/

/-- Entry `h` of a team's barrier table, if it lies within the team's range: as the placement wrote it, until BINIT or
BINVAL changes it. -/
def barEntry (t : Team) (h : Nat) : Option BarEnt :=
  if h < 4096 ∧ 16 * h + 16 ≤ t.hdr.localBytes then some ((kvGet t.barTab h).getD { v := true, gen := 0, off := h })
  else none

/-- Translate a handle (R138): the object's local offset, or the cause and the trap record's address. -/
def barHandle (s : State) (g : Group) (h : Nat) : Except (Nat × Nat) Nat :=
  if g.place.kind = .spawned then .error (0x05, 0)
  else
    match barEntry (getTeam s g.place.team) h with
    | none => .error (0x09, 0)
    | some e =>
      if !e.v then .error (0x09, 0)
      else if (barAt s g.place.team (16 * e.off)).gen ≠ e.gen then .error (0x09, 16 * e.off)
      else .ok (16 * e.off)

/-- The handle's generation moves on with the object's. -/
def bumpEntry (t h gen : Nat) (s : State) : State :=
  modTeam s t fun x => match barEntry x h with
    | some e => { x with barTab := kvSet x.barTab h { e with gen := gen } }
    | none => x

/-! ## Releasing waiters (R139, R141) -/

/-- The delay of a barrier update for a group (R143). -/
def barDelay (s : State) (gid : Nat) (g : Group) : Nat :=
  if coreOfGid gid = (getTeam s g.place.team).home then 24 else 48

/-- The barrier that a copy counts into (R144). -/
def copyBar (o : Op) : Option BarCap :=
  match o.kind with
  | .copy b => b
  | .engine _ b => b
  | _ => none

/-- The undelivered fault of a copy that a path issued and a barrier has counted (R141): the oldest. -/
def copyFault (g : Group) (off gen : Nat) (m : LaneMask) : Option Op :=
  leastBy (fun a b : Op => decide (a.seq < b.seq)) (g.ops.filter fun o =>
    copyBar o == some { off := off, gen := gen } && overlaps o.mask m
      && (match o.err with | some e => e.code == 0x19 && e.counted | none => false))

/-- Raise COPY_FAULT of a copy in a path that returns from BWAIT, with TRAPREC1 past it (R244). A group whose handler
runs, or which is suspended or halted, holds it. -/
def bwaitFault (gid : Nat) (m : LaneMask) (next : Word) (o : Op) (s : State) : State :=
  match o.err with
  | none => s
  | some e =>
    let s := modGroup s gid fun g => prune { g with ops := g.ops.map fun x => if x.seq = o.seq then { x with err := none } else x }
    let t : TrapInfo := { code := e.code, detail := e.detail, addr := e.addr, async := true, retPc := next, mask := m }
    let g := getGroup s gid
    let inside := match g.trap.handler with | some h => overlaps h.mask m | none => true
    if (getCtx s g.place.owner).fatal.isSome then lateTrap gid t s
    else if !inside || g.st == .suspended then holdTrap gid t s else deliverOrSuspend gid t s

/-- A path of a group returns from BWAIT: gp15, the delay, and a copy's fault (R141). -/
def returnBwait (gid off : Nat) (m : LaneMask) (pc : Word) (b : Bar) (delay : Bool) (s : State) : State :=
  let g := getGroup s gid
  let ok := !b.invalid && !b.error
  let g := modLanes g m fun _ f => { f with st := .resident, pc := pc + 4 }
  let g := setGp g 15 ok
  let g := if delay then { g with sched := { g.sched with
      holds := { mask := m, until_ := s.dev.clock + barDelay s gid g, leaf := 11 } :: g.sched.holds } } else g
  let s := setGroup s gid g
  if !b.invalid && b.error then
    match copyFault g off b.gen m with
    | some o => bwaitFault gid m (pc + 4) o s
    | none => s
  else s

/-- Whether a fibre waits in BWAIT at a barrier, for a phase or for any. -/
def waitsAt (off : Nat) (ph : Option Nat) (f : Fibre) : Bool :=
  match f.st with
  | .blocked (.barrier o p) => o == off && (ph.getD p == p)
  | _ => false

/-- The lanes of a group that wait at a barrier. -/
def waitingLanes (g : Group) (off : Nat) (ph : Option Nat) : LaneMask :=
  maskOf fun l => match kvGet g.fibres l with
    | some f => waitsAt off ph f
    | none => false

/-- The paths of a group that wait at a barrier, by PC. -/
def waitingPaths (g : Group) (off : Nat) (ph : Option Nat) : List (Word × LaneMask) :=
  let m := waitingLanes g off ph
  let pcs := ((lanesOf m).map fun l => (getFibre g l).pc).eraseDups
  pcs.map fun pc => (pc, maskOf fun l => inMask m l && (getFibre g l).pc == pc)

/-- Release the paths of a group that wait at a barrier of its team; in the drain of a fatal context none is released
(R253). -/
def releaseGroup (t off : Nat) (ph : Option Nat) (b : Bar) (s : State) (gid : Nat) : State :=
  let g := getGroup s gid
  if g.place.team = t ∧ (getCtx s g.place.owner).fatal.isNone then (waitingPaths g off ph).foldl (fun s p => returnBwait gid off p.2 p.1 b true s) s else s

/-- Release the paths of a team that wait at a barrier, for a phase or for all of them. -/
def releaseWaiters (t off : Nat) (ph : Option Nat) (b : Bar) (s : State) : State :=
  (s.groups.map fun e => e.1).eraseDups.foldl (releaseGroup t off ph b) s

/-- The completion check (R139). ERROR goes when it was set before the phase that ends began. -/
def checkBar (t off : Nat) (s : State) : State :=
  let b := barAt s t off
  if barArmed b ∧ b.arrive = 0 ∧ b.sect = 0 then
    let old := kvGetD (getTeam s t).barOld off false
    let err := b.error && !old
    let b' := { b with phase := (b.phase + 1) % 16, arrive := b.reload, busy := false, error := err }
    let s := modTeam (putBar t off b' s) t fun x => { x with barOld := kvSet x.barOld off err }
    releaseWaiters t off (some b.phase) b' s
  else s

/-! ## Barrier instructions (R143, R309) -/

/-- Run a barrier instruction: registers, then the handle, then its own check; then its effect on the object at the
offset, and the path is held until the local atomic unit has applied it. -/
def barOp (u : Use) (a : GReg) (check : Nat → Bar → Pre) (effect : Nat → Bar → State → State) (s : State) :
    Host.Outcome State Fault Refusal :=
  let g := curGroup s
  let r := barHandle s g (getU g a.toNat).toNat
  let own : Pre := match r with
    | .error (c, addr) => .trap c addr 0
    | .ok off => check off (barAt s g.place.team off)
  runPre (orPre (regPre false 0 u s) own)
    (fun s => match r with
      | .error _ => s
      | .ok off =>
        holdPath (barDelay s (curGid s) (curGroup s)) 11
          (noteIssue 2 (effect off (barAt s g.place.team off) (advance 4 s)))) s

/-- Write gp15 of the issuing group. -/
def setGp15 (b : Bool) (s : State) : State := setCurGroup s (setGp (curGroup s) 15 b)

/-- BINIT. -/
def execBinit (a b : GReg) (s : State) : Host.Outcome State Fault Refusal :=
  let n := (getU (curGroup s) b.toNat).toNat
  let t := (curGroup s).place.team
  let h := (getU (curGroup s) a.toNat).toNat
  barOp { gr := [a.toNat, b.toNat] } a
    (fun off x => if x.busy then .trap 0x08 off 0
      else if 2 ^ 13 ≤ n ∨ n = 0 then .trap 0x09 off 0 else .go)
    (fun off x s =>
      let gen := (x.gen + 1) % 2 ^ 16
      let s := putBar t off { x with phase := 0, arrive := n, reload := n, sect := 0, gen := gen, error := false,
                                     orphan := false, invalid := false, busy := false } s
      bumpEntry t h gen (modTeam s t fun x => { x with barOld := kvSet x.barOld off false })) s

/-- Whether a sum of sectors stays in the signed 32-bit range. -/
def sectOk (v : Int) : Bool := decide (-(2 ^ 31 : Int) ≤ v) && decide (v < 2 ^ 31)

/-- The checks of BARV and BEXP on a valid barrier; `n` is the sector operand's register value. -/
def sectPre (arrives : Bool) (n : Nat) (off : Nat) (x : Bar) : Pre :=
  if x.invalid then .go
  else if x.reload = 0 ∨ (arrives ∧ x.arrive = 0) then .trap 0x09 off 0
  else if 2 ^ 24 ≤ n then .trap 0x09 off 0
  else if !sectOk (x.sect + n) then .trap 0x09 off 0 else .go

/-- BARV: an arrival, with expected sectors when s is 1. -/
def execBarv (exp : Bool) (d a b : GReg) (s : State) : Host.Outcome State Fault Refusal :=
  let n := if exp then (getU (curGroup s) b.toNat).toNat else 0
  let t := (curGroup s).place.team
  barOp { gr := [a.toNat] ++ (if exp then [b.toNat] else []), gw := [d.toNat] } a (sectPre true n)
    (fun off x s =>
      let s := setGp15 (!x.invalid) (setCurGroup s (setU (curGroup s) d.toNat (BitVec.ofNat 32 x.phase)))
      if x.invalid then s
      else checkBar t off (putBar t off { x with arrive := x.arrive - 1, sect := x.sect + n } s)) s

/-- BEXP: expected sectors. -/
def execBexp (a b : GReg) (s : State) : Host.Outcome State Fault Refusal :=
  let n := (getU (curGroup s) b.toNat).toNat
  let t := (curGroup s).place.team
  barOp { gr := [a.toNat, b.toNat] } a (sectPre false n)
    (fun off x s =>
      let s := setGp15 (!x.invalid) s
      if x.invalid then s else checkBar t off (putBar t off { x with sect := x.sect + n } s)) s

/-- BWAIT: the path blocks while the barrier is in the phase named, and otherwise returns (R141). -/
def execBwait (a b : GReg) (s : State) : Host.Outcome State Fault Refusal :=
  let g := curGroup s
  let p := (getU g b.toNat).toNat % 16
  let r := barHandle s g (getU g a.toNat).toNat
  let own : Pre := match r with
    | .error (c, addr) => .trap c addr 0
    | .ok off => if barUnarmed (barAt s g.place.team off) then .trap 0x09 off 0 else .go
  runPre (orPre (regPre false 0 { gr := [a.toNat, b.toNat] } s) own)
    (fun s => match r with
      | .error _ => s
      | .ok off =>
        let x := barAt s g.place.team off
        let s := noteIssue 2 s
        if !x.invalid && x.phase == p then
          let s := putBar g.place.team off { x with busy := true } s
          setCurGroup s (modLanes (curGroup s) s.cur.mask fun _ f => { f with st := .blocked (.barrier off p) })
        else returnBwait (curGid s) off s.cur.mask s.cur.pc x true s) s

/-- BINVAL: the barrier becomes INVALID, and its waiters return with gp15 false. -/
def execBinval (a : GReg) (s : State) : Host.Outcome State Fault Refusal :=
  let t := (curGroup s).place.team
  let h := (getU (curGroup s) a.toNat).toNat
  barOp { gr := [a.toNat] } a (fun _ _ => .go)
    (fun off x s =>
      let gen := (x.gen + 1) % 2 ^ 16
      let x := { x with invalid := true, gen := gen, busy := false }
      releaseWaiters t off none x (bumpEntry t h gen (putBar t off x s))) s

/-! ## Landings (R140, R144, R259) -/

/-- A landing that is not counted: ORPHAN is set and COPY_ORPHAN counted. During a fatal context's drain it is recorded
as a late fault (R243, R259). -/
def orphanLanding (t : Nat) (x : Landing) (s : State) : State :=
  let b := barAt s t x.bar.off
  let s := putBar t x.bar.off { b with orphan := true } s
  let s := groupEvent x.gid 0x0005 1 x.pc s
  let owner := (getTeam s t).owner
  if (getCtx s owner).fatal.isSome then
    lateTrap x.gid { code := 0x19, detail := 0xFF, addr := x.bar.off, async := true, retPc := x.pc, mask := x.mask } s
  else s

/-- The L1s of a team's cores give up some lines: whoever returns from a BWAIT on the phase that counts them reads them anew
(R134). -/
def dropLines (t : Nat) (lines : List Nat) (s : State) : State :=
  if lines.isEmpty then s
  else ((getTeam s t).groups.map coreOfGid).eraseDups.foldl
    (fun s core => flushLines core (fun l => lines.contains l.pa) s) s

/-- A landing that the barrier counts (R140, R134). -/
def countLanding (t : Nat) (x : Landing) (s : State) : State :=
  let s := dropLines t x.lines s
  let s := if x.fault then modOp x.gid x.seq (fun o => { o with err := o.err.map fun e => { e with counted := true } }) s else s
  let b := barAt s t x.bar.off
  let v := b.sect - x.sectors
  let low := decide (v < -(2 ^ 31 : Int))
  let err := x.fault || low
  let s := putBar t x.bar.off { b with sect := if low then -(2 ^ 31) else v, error := b.error || err } s
  let s := if err then modTeam s t fun y => { y with barOld := kvSet y.barOld x.bar.off false } else s
  checkBar t x.bar.off s

/-- Apply a landing to the object as it stands. -/
def applyLanding (t : Nat) (x : Landing) (s : State) : State :=
  let b := barAt s t x.bar.off
  if b.gen = x.bar.gen ∧ barArmed b = true then countLanding t x s else orphanLanding t x s

/-- Send a landing to a team's local atomic unit. -/
def sendLanding (t : Nat) (x : Landing) (s : State) : State :=
  modTeam s t fun y => { y with landings := y.landings ++ [x] }

/-- SECTOR_LANDING (R140): a landing reaches its team's local atomic unit. -/
def execSectorLanding (team i : Nat) (s : State) : Host.Outcome State Fault Refusal :=
  match (getTeam s team).landings[i]? with
  | some x => .next (applyLanding team x (modTeam s team fun y => { y with landings := y.landings.eraseIdx i }))
  | none => .next s

/-! ## CPA (R110, R318) -/

/-- The barrier that a copy with a handle captures (R138, R144): an unarmed one is BARRIER_HANDLE. -/
def captureBar (s : State) (g : Group) (h : Nat) : Except (Nat × Nat) BarCap :=
  match barHandle s g h with
  | .error e => .error e
  | .ok off =>
    let b := barAt s g.place.team off
    if barUnarmed b then .error (0x09, off) else .ok { off := off, gen := b.gen }

/-- The faults that a CPA's lanes have at issue: the lowest faulting lane's. -/
def cpaFault (g : Group) (n : Nat) : List (Nat × Nat × Nat) → Option LaneFault
  | [] => none
  | (l, src, dst) :: rest =>
    if src % n ≠ 0 then some (0x03, src, l)
    else if dst % n ≠ 0 then some (0x03, dst, l)
    else if 2 ^ 52 ≤ src ∨ (localOffset src).isSome = true then some (0x05, src, l)
    else if !localOk g dst n then some (0x05, dst, l)
    else cpaFault g n rest

/-- CPA: 4, 8 or 16 bytes for each acting lane, counted on CP. -/
def execCpa (g : Bool) (sz : Size) (nb : Bool) (d a : VReg) (h : BitVec 9) (s : State) :
    Host.Outcome State Fault Refusal :=
  let act := actMask g s
  let grp := curGroup s
  let n := sizeBytes sz
  let lanes := (lanesOf act).map fun l =>
    (l, (getRegPair (getFibre grp l) a.toNat).toNat, (getReg (getFibre grp l) d.toNat).toNat)
  let bar : Except (Nat × Nat) (Option BarCap) :=
    if nb || act == 0 then .ok none else
    match captureBar s grp (getU grp h.toNat).toNat with
    | .error e => .error e
    | .ok b => .ok (some b)
  let own : Pre := match cpaFault grp n lanes with
    | some (c, va, l) => .trap c va l
    | none => match bar with
      | .error (c, addr) => .trap c addr (lowLane act)
      | .ok _ => .go
  let accs := lanes.map fun e =>
    ({ lane := e.1, loc := .glob e.2.1 0 0, va := e.2.1, len := n, dst := some e.2.2 } : Acc)
  let cap := match bar with | .ok b => b | .error _ => none
  let x : Op := { seq := 0, cls := .cp, kind := .copy cap, pc := 0, mask := 0, act := act, accs := accs }
  runPre (orPre (regPre true act { vr := regRange a.toNat 2 ++ [d.toNat], gr := if nb then [] else [h.toNat] } s)
      (orPre (countPre .cp s) (orPre own (linePre .cp accs s))))
    (fun s => advance 8 (noteIssue 2 (addOp x s))) s

/-- The accesses of a copy's next line: the lowest address still to be read. -/
def nextLine (o : Op) : List Acc :=
  let todo := o.accs.filter fun a => !a.done
  match leastBy (fun a b : Nat => decide (a < b)) (todo.map fun a => lineOf a.va) with
  | some line => todo.filter fun a => lineOf a.va == line
  | none => []

/-- The sectors of local memory that some accesses write. -/
def sectorsOf (as : List Acc) : List Nat := (as.map fun a => (a.dst.getD 0) / 32).eraseDups

/-- The bytes that a lane of a copy lands: those that no higher lane of the instruction has landed (R110). -/
def landBytes (o : Op) (a : Acc) (bs : List Byte) : List (Nat × Byte) :=
  let at_ := a.dst.getD 0
  let later := o.accs.filter fun b => decide (a.lane < b.lane) && b.done && !b.failed
  ((regRange at_ bs.length).zip bs).filter fun e =>
    !(later.any fun b => rangesMeet e.1 1 (b.dst.getD 0) b.len)

/-- The translation of a copy's line, as its coalescer makes it: a page fault, or an uncorrectable error, is the cause
of COPY_FAULT. -/
def lineCause (s : State) (gid : Nat) (g : Group) (lost : List Nat) (as : List Acc) : Option Nat :=
  as.findSome? fun a =>
    match placeOf s (coreOfGid gid) g a.va a.len .load with
    | .error c => some c
    | .ok l => if (accessFails s lost l).isSome then some 0x1A else none

/-- Land the bytes of a line's lanes in ascending lane order. -/
def landLine (gid : Nat) (g : Group) (o : Op) (as : List Acc) (s : State) : State :=
  as.foldl (fun s a =>
    match placeOf s (coreOfGid gid) g a.va a.len .load with
    | .error _ => s
    | .ok l =>
      let s := notePlace (coreOfGid gid) g a.va s
      let r := readLoc (whoOf gid g o) l a.len s
      let bs := twinRead r.2 g o.seen l r.1
      modTeam r.2 g.place.team fun t => { t with mem := memPutAt t.mem (landBytes o a bs) }) s

/-- Whether a copy may go on: in the drain of a fatal context only one that had started at the halt (R252). -/
def copyMoves (s : State) (gid : Nat) (g : Group) (o : Op) : Bool :=
  match (getCtx s g.place.owner).fatal with
  | some f => f.copies.contains (gid, o.seq)
  | none => true

/-- CPA_LINE_TRANSFER (R318): the coalescer translates and reads the next line of a copy and lands its lanes' bytes, or
records its fault; the sectors that are then complete go to the barrier. -/
def execCpaLineTransfer (gid seq : Nat) (s : State) : Host.Outcome State Fault Refusal :=
  let g := getGroup s gid
  match findOp g seq with
  | none => .next s
  | some o =>
    match o.kind with
    | .copy bar =>
      let as := nextLine o
      if o.done || as.isEmpty || !copyMoves s gid g o || !(as.all fun a => accReady s gid g o a) then .next s
      else
        let cause := lineCause s gid g o.lost as
        let mine (a : Acc) : Bool := as.any fun b => b.lane == a.lane
        let rest := sectorsOf (o.accs.filter fun a => !a.done && !mine a)
        let whole := (sectorsOf as).filter fun x => !rest.contains x
        let s := match cause with
          | some c => setErr gid seq { code := 0x19, detail := c, addr := lineOf (as.headD { lane := 0, loc := .loc 0 0, va := 0, len := 0 }).va } s
          | none => landLine gid g o as s
        let mark (a : Acc) : Acc := if mine a then { a with done := true, failed := cause.isSome } else a
        let bad := cause.isSome || o.accs.any fun a => a.failed && whole.contains ((a.dst.getD 0) / 32)
        let s := modOp gid seq (fun o => { o with accs := o.accs.map mark }) s
        let s := match bar with
          | some b => if whole.isEmpty then s else
            sendLanding g.place.team { bar := b, sectors := whole.length, fault := bad, gid := gid, seq := seq,
                                       pc := o.pc, mask := o.mask } s
          | none => s
        .next (finishOps gid s)
    | _ => .next s

end Sys2Proof.Machine
end

