-- ==== Sys2Proof/Machine/EngBase.lean ====
section
/-! DEFINITION. What the engines share (R79, R100, R103): operands and ranges of memory checked at acceptance, accepted
commands and their order, faults at acceptance, reads and writes on behalf of a command, and completion. -/

namespace Sys2Proof.Machine

open Sys2Proof

/-! ## Operands -/

/-- A fault found at acceptance: its cause and the trap record's address. -/
abbrev EngErr := Nat × Nat

/-- What an engine instruction is accepted with: its group and signers. -/
structure EngEnv where
  gid : Nat
  g : Group
  mask : LaneMask
  pc : Word

/-- The environment of an engine instruction that has issued. -/
def engEnv (s : State) (gid : Nat) (m : LaneMask) (pc : Word) : EngEnv :=
  { gid := gid, g := getGroup s gid, mask := m, pc := pc }

/-- The home core of a group's team, whose engines the group uses (R100). -/
def homeOf (s : State) (g : Group) : Nat := (getTeam s g.place.team).home

/-- A uniform register as a number. -/
def uArg (e : EngEnv) (r : GReg) : Nat := (getU e.g r.toNat).toNat

/-- A uniform register pair as a number. -/
def uPair (e : EngEnv) (r : GReg) : Nat := (getUPair e.g r.toNat).toNat

/-- The uniform register after another. -/
def uNext (e : EngEnv) (r : GReg) (i : Nat) : Nat := (getU e.g (r.toNat + i)).toNat

/-- A check: nothing, or a fault. -/
def need (ok : Bool) (code addr : Nat) : Except EngErr Unit := if ok then .ok () else .error (code, addr)

/-- A value or a fault. -/
def needSome {α : Type} (x : Option α) (code addr : Nat) : Except EngErr α :=
  match x with
  | some v => .ok v
  | none => .error (code, addr)

/-- The words of a lane register in all 64 lane slots, with a value for a slot that holds no fibre. -/
def laneWords (g : Group) (r : Nat) (empty : Word) : List Word :=
  allLanes.map fun l => match kvGet g.fibres l with
    | some f => getReg f r
    | none => empty

/-- A range of local memory that a group's engine operand names (R112): PERMISSION beyond the team's memory or from a
spawned group. -/
def needLocal (g : Group) (off len : Nat) : Except EngErr Unit := need (localOk g off len) 0x05 off

/-! ## Ranges of memory -/

/-- A place some bytes further on. -/
def locAdd (l : Loc) (n : Nat) : Loc :=
  match l with
  | .loc t off => .loc t (off + n)
  | .glob pa home hcore => .glob (pa + n) home hcore

/-- The pieces of a range of virtual addresses, translated page by page, or the first fault (R111, R118). Local memory
is allowed or is PERMISSION. -/
def piecesFrom (s : State) (core : Nat) (g : Group) (loc : Bool) (nd : Need) : Nat → Nat → Nat → Except EngErr (List Piece)
  | 0, _, _ => .ok []
  | fuel + 1, va, len =>
    if len = 0 then .ok []
    else if 2 ^ 52 ≤ va then .error (0x05, va)
    else
      match localOffset va with
      | some off =>
        if loc && localOk g off len then .ok [{ va := va, len := len, loc := .loc g.place.team off }] else .error (0x05, va)
      | none =>
        let n := min len (65536 - va % 65536)
        match translate s core g.place.owner va nd with
        | .error c => .error (c, va)
        | .ok e =>
          match piecesFrom s core g loc nd fuel (va + n) (len - n) with
          | .error f => .error f
          | .ok ps => .ok ({ va := va, len := n, loc := .glob (paOf e va) e.home e.hcore } :: ps)

/-- The pieces of a range for a group's engine instruction. -/
def rangePieces (s : State) (e : EngEnv) (loc : Bool) (nd : Need) (va len : Nat) : Except EngErr (List Piece) :=
  piecesFrom s (coreOfGid e.gid) e.g loc nd (len / 65536 + 2) va len

/-- A piece cut into the parts that lie in one 128-byte line each. -/
def linesFrom : Nat → Piece → List Piece
  | 0, _ => []
  | fuel + 1, p =>
    if p.len = 0 then []
    else
      let n := min p.len (128 - p.va % 128)
      { p with len := n } :: linesFrom fuel { va := p.va + n, len := p.len - n, loc := locAdd p.loc n }

/-- All the lines of some pieces. -/
def pieceLines (ps : List Piece) : List Piece := ps.flatMap fun p => linesFrom (p.len / 128 + 2) p

/-- The part of some pieces from a byte on, so many bytes long. -/
def cutPieces : List Piece → Nat → Nat → List Piece
  | [], _, _ => []
  | p :: ps, at_, n =>
    if n = 0 then []
    else if p.len ≤ at_ then cutPieces ps (at_ - p.len) n
    else
      let k := min n (p.len - at_)
      { va := p.va + at_, len := k, loc := locAdd p.loc at_ } :: cutPieces ps 0 (n - k)

/-- Keep the translations of some pieces (R117). -/
def notePieces (e : EngEnv) (ps : List Piece) (s : State) : State :=
  ps.foldl (fun s p => notePlace (coreOfGid e.gid) e.g p.va s) s

/-- What a read gives: the bytes, the line that failed, and the state. -/
structure ReadRes where
  bytes : List Byte
  bad : Option Nat
  st : State

/-- Who reads pieces for a group (R281, R275): the group, how many entries of its twin stream it sees, and the peer slots whose
last link has fallen since its instruction issued. -/
structure Reader where
  g : Group
  seen : Nat
  lost : List Nat

/-- The peer slots that a reader has lost. -/
def readerLost (r : Option Reader) : List Nat := match r with | some r => r.lost | none => []

/-- Read pieces: at device scope, at the homes of the pages (R121, R126), or through the L1 as loads of the group's core
do. A line that fails reads as zero (R123). -/
def readPieces (g : Option Reader) (w : Who) (device : Bool) (ps : List Piece) (s : State) : ReadRes :=
  (pieceLines ps).foldl (fun r p =>
    if (accessFails r.st (readerLost g) p.loc).isSome then
      { r with bytes := r.bytes ++ List.replicate p.len 0, bad := r.bad.orElse fun _ => some (lineOf p.va) }
    else
      let x := if device then coherentRead w p.loc p.len r.st else readLoc w p.loc p.len r.st
      let bs := match g with | some g => twinRead x.2 g.g g.seen p.loc x.1 | none => x.1
      { r with bytes := r.bytes ++ bs, st := x.2 }) { bytes := [], bad := none, st := s }

/-- Write bytes over pieces at device scope; a line that fails keeps its bytes. -/
def writePieces (lost : List Nat) (w : Who) (ps : List Piece) (bs : List Byte) (s : State) : Option Nat × State :=
  let r := (pieceLines ps).foldl (fun (r : List Byte × Option Nat × State) p =>
    let b := r.1.take p.len
    if (accessFails r.2.2 lost p.loc).isSome then (r.1.drop p.len, r.2.1.orElse fun _ => some (lineOf p.va), r.2.2)
    else (r.1.drop p.len, r.2.1, coherentWrite w p.loc b r.2.2)) (bs, none, s)
  r.2

/-! ## Faults and signers (R79, R243, R244) -/

/-- Blocked fibres go on at a PC. -/
def resumeLanes (gid : Nat) (m : LaneMask) (pc : Word) (s : State) : State :=
  modGroup s gid fun g => modLanes g m fun _ f => { f with st := .resident, pc := pc }

/-- A precise fault of an engine instruction at acceptance: its signers are the trapped path, at the instruction's PC.
It is a late fault in a context on the fatal path (R246); a group whose handler runs for other fibres, or which is
suspended, holds the trap (R82). -/
def engineTrap (gid : Nat) (m : LaneMask) (pc : Word) (f : EngErr) (s : State) : State :=
  let s := resumeLanes gid m pc s
  let g := getGroup s gid
  let t : TrapInfo := { code := f.1, addr := f.2, retPc := pc, mask := m }
  let outside := match g.trap.handler with | some h => !overlaps h.mask m | none => false
  if (getCtx s g.place.owner).fatal.isSome then lateTrap gid t s
  else if outside || g.st == .suspended then holdTrap gid t s else deliverOrSuspend gid t s

/-! ## Accepted commands -/

/-- What acceptance decides about a command. -/
structure Accepted where
  kind : CmdKind
  uses : List (Res × Bool) := []
  bar : Option BarCap := none
  hold : Bool := false
  ord : Bool := false
  bad : Option Nat := none
  dest : Nat := 0
  dests : Nat := 0

/-- The error that a failing line leaves in an operation (R123). -/
def lineErr (bad : Option Nat) : Option OpErr := bad.map fun l => { code := 0x1A, detail := 0, addr := l }

/-- Count an engine instruction on TL (R132): its number among the group's operations, and the state. A destination
that becomes valid at a WAIT is pending (R163). -/
def countTl (e : EngEnv) (cmd : Nat) (a : Accepted) (s : State) : Nat × State :=
  let g := getGroup s e.gid
  let o : Op := { seq := g.opSeq, cls := .tl, kind := .engine cmd a.bar, pc := e.pc, mask := e.mask, act := e.mask,
                  unif := decide (0 < a.dests), dest := a.dest, dests := a.dests, ord := a.ord, seen := g.twin.length,
                  err := lineErr a.bad }
  let m : BitVec 1024 := BitVec.ofNat 1024 (2 ^ a.dest * (2 ^ a.dests - 1))
  (g.opSeq, setGroup s e.gid { g with
    ops := g.ops ++ [o], opSeq := g.opSeq + 1, upend := if 0 < a.dests then g.upend ||| m else g.upend })

/-- Put an accepted command into a core's list: TL + 1, and its signers go on unless the command holds them. -/
def pushCmd (core : Nat) (e : EngEnv) (a : Accepted) (s : State) : State :=
  let (id, s) := freshId s
  let (seq, s) := countTl e id a s
  let c : Cmd := { id := id, gid := e.gid, seq := seq, team := e.g.place.team, owner := e.g.place.owner, mask := e.mask,
                   pc := e.pc, kind := a.kind, uses := a.uses, bar := a.bar, hold := a.hold }
  let s := modCore s core fun x => { x with eng := { x.eng with cmds := x.eng.cmds ++ [c] } }
  if a.hold then s else resumeLanes e.gid e.mask (e.pc + 8) s

/-- What a check at acceptance gives: a fault, or what is accepted and the state after the reads that it made. -/
abbrev Accept := Except EngErr (Accepted × State)

/-- Accept a command, or trap. -/
def acceptCmd (core : Nat) (e : EngEnv) (r : Accept) (s : State) : State :=
  match r with
  | .error f => engineTrap e.gid e.mask e.pc f s
  | .ok (a, t) => pushCmd core e a t

/-- The engines of a core. -/
def engOf (s : State) (core : Nat) : CoreEng := (getCore s core).eng

/-- Change the engines of a core. -/
def modEng (core : Nat) (f : CoreEng → CoreEng) (s : State) : State := modCore s core fun c => { c with eng := f c.eng }

/-- The accepted command of a core with a number. -/
def findCmd (s : State) (core id : Nat) : Option Cmd := (engOf s core).cmds.find? fun c => c.id == id

/-! ## Order (R100, R184, R191, R206) -/

/-- Whether an ordered insertion is held outside its window (R150, R184). -/
def heldCmd (s : State) (c : Cmd) : Bool :=
  match c.kind with
  | .cins ord _ _ => ord && !windowOpen s (getGroup s c.gid)
  | _ => false

/-- Whether a command names a tile of a team. -/
def usesTile (c : Cmd) (team t : Nat) : Bool := c.uses.any fun u => u.1 == .tile team t

/-- Whether a ROUTE accepted before a command still writes a tile that the command uses (R206). -/
def routeBlocks (s : State) (core : Nat) (c : Cmd) : Bool :=
  (engOf s core).ents.any fun e => e.2.st != .done && decide (e.2.id < c.id) && usesTile c e.2.team e.2.tile

/-- Whether an operation of a twin copy must wait, so that its writes enter the group's stream in issue order (R281). -/
def twinBlocks (s : State) (gid seq : Nat) : Bool :=
  let g := getGroup s gid
  twinCopy s g && g.ops.any fun o => o.cls == .tl && !o.done && decide (o.seq < seq)

/-- Whether a fatal context's drain leaves a command aside (R252): a TLD that had not started at the halt, or a scan. -/
def drainLeaves (s : State) (c : Cmd) : Bool :=
  match (getCtx s c.owner).fatal, c.kind with
  | some f, .tld .. => !f.started.contains c.id
  | some _, .scan .. => true
  | _, _ => false

/-- Whether no command of some engines that was accepted before a command uses what it uses. -/
def clearOf (s : State) (c : Cmd) (eng : CoreEng) : Bool :=
  eng.cmds.all fun d => !decide (d.id < c.id) || heldCmd s d || !usesMeet d.uses c.uses

/-- Whether no command accepted before a command holds it back: one of its core's, or, for a binding, which the cores share
(R195), of any core. -/
def cmdRuns (s : State) (core : Nat) (c : Cmd) : Bool :=
  !heldCmd s c && !routeBlocks s core c && !twinBlocks s c.gid c.seq
    && (match c.kind with
        | .ambind .. => s.cores.all fun e => clearOf s c e.2.eng
        | _ => clearOf s c (engOf s core))

/-- Whether a command may run now. -/
def cmdReady (s : State) (core : Nat) (c : Cmd) : Bool := !drainLeaves s c && cmdRuns s core c

/-! ## Running and completing a command -/

/-- The agent of a command. -/
def cmdWho (s : State) (c : Cmd) : Who :=
  { core := coreOfGid c.gid, owner := c.owner, pc := c.pc, entry := (getGroup s c.gid).place.hdr.entry.toNat }

/-- A line that a command met failed: the error of a TLD is a copy's (R144), any other's the line's (R123). -/
def cmdErr (c : Cmd) (bad : Option Nat) (s : State) : State :=
  match bad, c.kind with
  | some l, .tld .. => setErr c.gid c.seq { code := 0x19, detail := 0x1A, addr := l } s
  | some l, _ => setErr c.gid c.seq { code := 0x1A, detail := 0, addr := l } s
  | none, _ => s

/-- The reader that a command is: it sees what its operation does. -/
def cmdReader (s : State) (c : Cmd) : Reader :=
  let g := getGroup s c.gid
  match findOp g c.seq with
  | some o => { g := g, seen := o.seen, lost := o.lost }
  | none => { g := g, seen := 0, lost := [] }

/-- Read for a command; a failing line leaves its error in the operation. -/
def cmdRead (c : Cmd) (device : Bool) (ps : List Piece) (s : State) : List Byte × State :=
  let r := readPieces (some (cmdReader s c)) (cmdWho s c) device ps s
  (r.bytes, cmdErr c r.bad r.st)

/-- The twin-stream entries of a write over pieces (R281). -/
def twinItems (ps : List Piece) (bs : List Byte) : List TwinItem :=
  (ps.foldl (fun (r : List TwinItem × List Byte) p =>
    (r.1 ++ [{ addr := p.va, mask := 2 ^ p.len - 1, data := r.2.take p.len, loc := p.loc }], r.2.drop p.len)) ([], bs)).1

/-- Whether a piece lies in local memory. -/
def pieceLocal (p : Piece) : Bool := match p.loc with | .loc .. => true | .glob .. => false

/-- Write for a command at device scope; a twin copy stages what goes outside its local memory. -/
def cmdWrite (c : Cmd) (ps : List Piece) (bs : List Byte) (s : State) : State :=
  if twinCopy s (getGroup s c.gid) && !ps.any pieceLocal then stageTwin c.gid (twinItems ps bs) s
  else
    let r := writePieces (cmdReader s c).lost (cmdWho s c) ps bs s
    cmdErr c r.1 r.2

/-- The agent of an engine instruction at its acceptance. -/
def envWho (e : EngEnv) : Who :=
  { core := coreOfGid e.gid, owner := e.g.place.owner, pc := e.pc, entry := e.g.place.hdr.entry.toNat }

/-- Read at acceptance at device scope, keeping the translations used. -/
def acceptRead (e : EngEnv) (ps : List Piece) (s : State) : ReadRes := readPieces (some { g := e.g, seen := e.g.twin.length, lost := [] }) (envWho e) true ps (notePieces e ps s)

/-- The operation of an engine instruction is complete: TL falls in issue order (R132). -/
def finishTl (gid seq : Nat) (s : State) : State :=
  modGroup s gid fun g => prune { g with ops := g.ops.map fun o => if o.seq = seq then { o with done := true } else o }

/-- A command is complete: it leaves its engine, TL falls, and the signers that it held go on past it. -/
def finishCmd (core : Nat) (c : Cmd) (s : State) : State :=
  let s := modEng core (fun x => { x with cmds := x.cmds.filter fun d => d.id != c.id }) s
  let s := finishTl c.gid c.seq s
  if c.hold then resumeLanes c.gid c.mask (c.pc + 8) s else s

/-- A command that faults when it is applied: it leaves its engine as if it had not been accepted, and its signers
trap. -/
def abortCmd (core : Nat) (c : Cmd) (f : EngErr) (s : State) : State :=
  let s := modEng core (fun x => { x with cmds := x.cmds.filter fun d => d.id != c.id }) s
  let s := modGroup s c.gid fun g => { g with ops := g.ops.filter fun o => o.seq != c.seq }
  engineTrap c.gid c.mask c.pc f s

/-- Complete a command whose checks were made as it was applied: it has its effect, or its signers trap. -/
def settleCmd (core : Nat) (c : Cmd) (r : Except EngErr State) (s : State) : State :=
  match r with
  | .error f => abortCmd core c f s
  | .ok t => finishCmd core c t

/-- Write a uniform register of a command's group. -/
def cmdSetU (c : Cmd) (r : Nat) (v : Nat) (s : State) : State :=
  modGroup s c.gid fun g => setU g r (BitVec.ofNat 32 v)

/-- Write gp15 of a command's group. -/
def cmdSetGp (c : Cmd) (b : Bool) (s : State) : State := modGroup s c.gid fun g => setGp g 15 b

/-- A command's sectors land in its barrier (R140, R144). -/
def cmdLanding (team : Nat) (bar : Option BarCap) (x : Landing) (s : State) : State :=
  match bar with
  | none => s
  | some b => sendLanding team { x with bar := b } s

/-- The landing of a command: its sectors, whether they faulted, and the lines of global memory that it wrote. -/
def cmdArrival (c : Cmd) (n : Nat) (bad : Bool) (lines : List Nat) : Landing :=
  { bar := { off := 0, gen := 0 }, sectors := n, fault := bad, gid := c.gid, seq := c.seq, pc := c.pc, mask := c.mask,
    lines := lines }

/-- Capture the barrier of a handle for an engine instruction (R138, R144). -/
def engineBar (s : State) (g : Group) (h : Nat) : Except EngErr BarCap := captureBar s g h

/-! ## Tiles as the commands before leave them (R97, R107) -/

/-- Whether a tile name is allotted to a team (R107). -/
def tileAllotted (s : State) (team t : Nat) : Bool := decide (t < (getTeam s team).tileMap.length)

/-- The status word of a tile: OPEN, MODE and E (R92). -/
def statusWord (auto : Bool) (e : Int) : Word :=
  BitVec.ofNat 32 (unsignedOf 16 e + (if auto then 2 ^ 16 else 0) + 2 ^ 17)

/-- The status of a tile after every command accepted so far: a TOPEN fixes it, as far as acceptance looks at it. -/
def tileStatus (s : State) (core team t : Nat) : Word :=
  (engOf s core).cmds.foldl (fun w c =>
    match c.kind with
    | .topen t' auto e => if c.team = team ∧ t' = t then statusWord auto e else w
    | _ => w) (kvGetD (getTeam s team).tiles t {}).status

/-- Whether a tile will be open. -/
def tileOpen (s : State) (core team t : Nat) : Bool := (tileStatus s core team t).getLsbD 17

/-- TILE_OWNER unless a tile is allotted to the team and open. -/
def needTile (s : State) (core team t : Nat) : Except EngErr Unit :=
  need (tileAllotted s team t && tileOpen s core team t) 0x13 0

end Sys2Proof.Machine
end

