-- ==== Sys2Proof/Machine/Accum.lean ====
section
/-! DEFINITION. Exact accumulation (R87 to R94): the types of engine elements, the alignment of scaled blocks, the decode
of CB2 indices, and contributions to accumulator tiles. -/

namespace Sys2Proof.Machine

open Sys2Proof

/-! ## Types (R48, R84, R87) -/

/-- The bits of an element of a type. -/
def tyBits : Ty → Nat
  | .s32 | .n32 | .f32 => 32
  | .bf16 | .f16 | .s16 | .n16 | .cb2 => 16
  | .s8 | .n8 | .e4m3 | .e5m2 => 8
  | .s4 | .e2m1 => 4
  | .s64 => 64

/-- Element `i` of packed bytes (R7, R87): a 4-bit element of lower index is the lower nibble. -/
def packedAt (ty : Ty) (bs : List Byte) (i : Nat) : Nat :=
  if tyBits ty = 4 then field (bs.getD (i / 2) 0).toNat (4 * (i % 2)) 4
  else natOfBytes ((bs.drop (i * (tyBits ty / 8))).take (tyBits ty / 8))

/-- The value of an element. -/
def tyVal (ty : Ty) (code : Nat) : FVal :=
  match fmtOfTy ty with
  | some f => fval f code
  | none => valOfInt (match ty with
    | .n32 | .n16 | .n8 => Int.ofNat (code % 2 ^ tyBits ty)
    | _ => signedOf (tyBits ty) code)

/-- Write a value in a type with one rounding to nearest even (R94): a poisoned element is the canonical NaN, or 0 in an
integer type. -/
def tyCode (ty : Ty) (poisoned : Bool) (x : FVal) : Nat :=
  match fmtOfTy ty with
  | some f => if poisoned then f.nan else (roundVal f .rn x).code
  | none => if poisoned then 0 else unsignedOf (tyBits ty) (toInteger ty .rn x).1

/-! ## Alignment (R91) -/

/-- The magnitude bits of the window of a type; `b` is whether it aligns B. -/
def windowBits (b : Bool) : Ty → Nat
  | .s4 => 3
  | .s8 | .e2m1 => 7
  | .bf16 => if b then 23 else 15
  | .f16 => 15
  | _ => 11

/-- The exponent of a nonzero number as alignment sees it: a subnormal counts as the smallest normal exponent. -/
def alignExp (f : FFmt) (m : Nat) (e : Int) : Int := max (1 - Int.ofNat f.bias) (e + Int.ofNat m.log2)

/-- The largest exponent among the nonzero elements of a block. -/
def blockExp (f : FFmt) (xs : List FVal) : Option Int :=
  xs.foldl (fun r x => match x with
    | .fin _ m e => if m = 0 then r else some (match r with | some a => max a (alignExp f m e) | none => alignExp f m e)
    | _ => r) none

/-- An element truncated toward zero to units of 2^u, and whether a nonzero bit was lost. -/
def truncTo (u : Int) : FVal → Int × Bool
  | .fin neg m e =>
    let q := floorAt false m e u
    (if neg then -q else q, if e < u then m % 2 ^ (u - e).toNat != 0 else false)
  | _ => (0, false)

/-- Whether a value is an infinity or a NaN. -/
def notFinite : FVal → Bool
  | .fin .. => false
  | _ => true

/-- Align a block of values to units of 2^u. -/
def alignTo (u : Int) (xs : List FVal) : CellBlock :=
  let ts := xs.map (truncTo u)
  { vals := ts.map fun t => t.1, exp := u, bad := xs.any notFinite, loss := (ts.filter fun t => t.2).length }

/-- Align a block of elements of a type. Integer types and E2M1 are exact; a block of zeros gives zeros. -/
def alignBlock (b : Bool) (ty : Ty) (codes : List Nat) : CellBlock :=
  let xs := codes.map (tyVal ty)
  match ty with
  | .e2m1 => alignTo (-1) xs
  | _ =>
    match fmtOfTy ty with
    | none => alignTo 0 xs
    | some f =>
      match blockExp f xs with
      | none => { vals := xs.map fun _ => 0, bad := xs.any notFinite, loss := 0 }
      | some emax => alignTo (emax - Int.ofNat (windowBits b ty) + 1) xs

/-! ## CB2 (R90) -/

/-- The eight weights of an index under a lattice table. -/
def latticeWeights (table : List Byte) (idx : Nat) : List Int :=
  let row := (table.getD (field idx 8 8) 0).toNat
  let sign (i : Nat) : Nat := if i < 7 then field idx (i + 1) 1
    else ((List.range 7).foldl (fun n k => n + field idx (k + 1) 1) 0) % 2
  (List.range 8).map fun i =>
    let m := Int.ofNat (2 * field row i 1 + field idx 0 1)
    if sign i = 1 then -m else m

/-! ## Contributions (R92, R93) -/

/-- The tile exponent. -/
def tileExp (t : Tile) : Int := signedOf 16 t.status.toNat

/-- An element's integer. -/
def tileInt (t : Tile) (i : Nat) : Int := (kvGetD t.elems i 0).toInt

/-- Add an integer to an element: a sum that wraps. -/
def tileAdd (t : Tile) (i : Nat) (y : Int) : Tile :=
  let x := exactAdd (kvGetD t.elems i 0) y
  { t with elems := if x = 0 then kvDel t.elems i else kvSet t.elems i x }

/-- Set status bits. -/
def tileMark (bits : Nat) (t : Tile) : Tile := { t with status := t.status ||| BitVec.ofNat 32 bits }

/-- Poison an element. -/
def tilePoison (t : Tile) (i : Nat) : Tile :=
  tileMark (2 ^ 20) { t with poison := if t.poison.contains i then t.poison else insertBy (fun a b => decide (a ≤ b)) i t.poison }

/-- Whether an element is poisoned. -/
def tilePoisoned (t : Tile) (i : Nat) : Bool := t.poison.contains i

/-- Whether a floored contribution is below 2^47 units. -/
def unitsOk (y : Int) : Bool := decide (y.natAbs < 2 ^ 47)

/-- The clamped contribution of a sign. -/
def clampedUnits (y : Int) : Int := if y < 0 then -(2 ^ 47 - 1) else 2 ^ 47 - 1

/-- Scale every element down by 2^k and raise the exponent. -/
def tileRenorm (k : Nat) (t : Tile) : Tile :=
  let e := tileExp t + Int.ofNat k
  { t with
    elems := (t.elems.map fun x => (x.1, BitVec.ofInt 64 (x.2.toInt / Int.ofNat (2 ^ k)))).filter fun x => x.2 != 0,
    status := (t.status &&& 0xFFFF0000) ||| BitVec.ofNat 32 (unsignedOf 16 e) ||| BitVec.ofNat 32 (2 ^ 19) }

/-- Apply one contribution to an element (R93). -/
def contribute (t : Tile) (i : Nat) (c : FVal) : Tile :=
  match c with
  | .fin neg m e =>
    let y := floorAt neg m e (tileExp t)
    if unitsOk y then tileAdd t i y
    else if !t.status.getLsbD 16 then tileAdd (tileMark (2 ^ 18) t) i (clampedUnits y)
    else
      let at_ (k : Nat) : Int := floorAt neg m e (tileExp t + Int.ofNat k)
      match findBelow (fun k => unitsOk (at_ k)) y.natAbs.log2 1 with
      | some k =>
        if 32767 < tileExp t + Int.ofNat k then tileAdd (tileMark (2 ^ 18) t) i (clampedUnits y)
        else tileAdd (tileRenorm k t) i (at_ k)
      | none => tileAdd (tileMark (2 ^ 18) t) i (clampedUnits y)
  | _ => tilePoison t i

/-- The number of an element of a row and column. -/
def tileIndex (row col : Nat) : Nat := 128 * row + col

/-- A tile of a team. -/
def getTile (s : State) (team t : Nat) : Tile := kvGetD (getTeam s team).tiles t {}

/-- Store a tile. -/
def setTile (team t : Nat) (x : Tile) (s : State) : State := modTeam s team fun y => { y with tiles := kvSet y.tiles t x }

/-- Apply contributions to elements of a tile, in order. -/
def contributeAll (team t : Nat) (cs : List (Nat × FVal)) (s : State) : State :=
  setTile team t (cs.foldl (fun x c => contribute x c.1 c.2) (getTile s team t)) s

/-- The exact value of an element (R94). -/
def tileVal (t : Tile) (i : Nat) : FVal := valOfIntExp (tileInt t i) (tileExp t)

/-- The value of an E8M0 scale, as a power of two, or none for the NaN scale (R87). -/
def scaleExp (e : Nat) : Option Int := if e = 255 then none else some (Int.ofNat e - 127)

/-- The contribution of one scaled block (R93). -/
def blockDot (a b : CellBlock) (ea eb : Nat) : FVal :=
  match scaleExp ea, scaleExp eb with
  | some x, some y =>
    if a.bad || b.bad then .nan false
    else valOfIntExp (((a.vals.zip b.vals).map fun p => p.1 * p.2).foldl (fun u v => u + v) 0) (x + y + a.exp + b.exp)
  | _, _ => .nan false

end Sys2Proof.Machine
end

