-- ==== Sys2Proof/Machine/Graticule.lean ====
section
/-! DEFINITION. The Graticule (R262 to R272): where endpoints stand, the route of a packet, and one network cycle, in which flits
move from latch to latch, through the routers, and from and to the endpoints; and the power of the routers. Network cycles are half
a core cycle (R6). -/

namespace Sys2Proof.Machine

open Sys2Proof

/-! ## Places (R262) -/

/-- The router of a cluster. -/
def clusterRouter (c : Nat) : Nat :=
  let k := c % 16 / 4
  8 * (1 + 2 * (k / 2)) + (2 * (c / 16) + k % 2)

/-- The router of a slice. -/
def sliceRouter (x : Nat) : Nat :=
  let m := x % 12 / 2
  8 * (2 * (m / 2)) + (2 * (x / 12) + m % 2)

/-- The router of a Traverse link port: of rows 0 and 4. -/
def linkRouter (k : Nat) : Nat := 8 * (4 * (k % 4 / 2)) + (2 * (k / 4) + k % 2)

/-- The router of an endpoint. -/
def routerOf : Endpoint → Nat
  | .cluster c => clusterRouter c
  | .slice x => sliceRouter x
  | .link k => linkRouter k
  | .ucie => 16

/-- The local port of an endpoint on its router: clusters and slices from 16 on, the link port 18, the UCIe attachment 19. A port
to column x is x, and one to row y is 8 + y. -/
def localPort : Endpoint → Nat
  | .cluster c => 16 + c % 4
  | .slice x => 16 + x % 2
  | .link _ => 18
  | .ucie => 19

/-- The local ports of a router: four clusters, or two slices with a link port in rows 0 and 4, and the UCIe attachment
at (2, 0). -/
def localPorts (r : Nat) : List Nat :=
  if r / 8 % 2 = 1 then [16, 17, 18, 19]
  else if r / 8 = 2 then (if r = 16 then [16, 17, 19] else [16, 17])
  else [16, 17, 18]

/-- The ports of a router: seven of its row, four of its column, and the local ones. -/
def routerPorts (r : Nat) : List Nat :=
  ((List.range 8).filter fun x => x != r % 8) ++ (((List.range 5).filter fun y => y != r / 8).map fun y => 8 + y) ++ localPorts r

/-! ## Routes (R264, R265) -/

/-- The output by which a router sends a packet on: first along its row, then along its column, then to the endpoint. -/
def outPort (r : Nat) (dst : Endpoint) : Nat :=
  let d := routerOf dst
  if r % 8 ≠ d % 8 then d % 8 else if r / 8 ≠ d / 8 then 8 + d / 8 else localPort dst

/-- The router that a row or column output leads to, and its input port there. -/
def across (r o : Nat) : Nat × Nat := if o < 8 then (8 * (r / 8) + o, r % 8) else (8 * (o - 8) + r % 8, 8 + r / 8)

/-- The distance between two numbers. -/
def apart (a b : Nat) : Nat := (a - b) + (b - a)

/-- The latches of the link that ends at a router's input (R264): 1 + Δ, and 6 more between two dies. -/
def latchCount (r p : Nat) : Nat :=
  if p < 8 then 1 + apart p (r % 8) + (if p / 2 = r % 8 / 2 then 0 else 6) else 1 + apart (p - 8) (r / 8)

/-! ## Channels and outputs by network, router and port -/

/-- The number of a network. -/
def netNum : NetCls → Nat
  | .q => 0
  | .p => 1
  | .m => 2
  | .c => 3

/-- The key of a port. -/
def portKey (n r p : Nat) : Nat := 32 * (40 * n + r) + p
/-- The port of a key. -/
def keyPort (k : Nat) : Nat := k % 32
/-- The router of a key. -/
def keyRouter (k : Nat) : Nat := k / 32 % 40
/-- The key of another port of the same router and network. -/
def keyAt (k p : Nat) : Nat := k / 32 * 32 + p

/-- The channel of a key. -/
def getChan (n : Net) (k : Nat) : Channel := kvGetD n.chans k {}

/-- Whether a channel holds nothing. -/
def chanIdle (c : Channel) : Bool := c.fifo.isEmpty && c.source.isEmpty && c.latches.all fun l => l.isNone

/-- Store a channel; one that holds nothing is not listed. -/
def putChan (n : Net) (k : Nat) (c : Channel) : Net :=
  { n with chans := if chanIdle c then kvDel n.chans k else kvSet n.chans k c }

/-- The packet of a flit. -/
def flitPacket (n : Net) (f : Flit) : Option Packet := n.packets.find? fun p => p.id == f.pkt

/-- Change a packet. -/
def modPacket (id : Nat) (f : Packet → Packet) (n : Net) : Net :=
  { n with packets := n.packets.map fun p => if p.id = id then f p else p }

/-- Take some packets out of the network, with their flits. -/
def dropPackets (gone : Packet → Bool) (n : Net) : Net :=
  let ids := (n.packets.filter gone).map fun p => p.id
  let out (f : Flit) : Bool := ids.contains f.pkt
  let cut (c : Channel) : Channel :=
    { latches := c.latches.map fun l => l.filter fun f => !out f, fifo := c.fifo.filter fun f => !out f,
      source := c.source.filter fun f => !out f }
  if ids.isEmpty then n
  else
    { n with packets := n.packets.filter fun p => !gone p,
             chans := (kvMap n.chans fun _ c => cut c).filter fun e => !chanIdle e.2 }

/-- A packet enters at its source's local port (R263). -/
def inject (p : Packet) (n : Net) : Net :=
  let k := portKey (netNum p.net) (routerOf p.src) (localPort p.src)
  let c := getChan n k
  let fs := (List.range p.len).map fun i => { pkt := p.id, idx := i : Flit }
  putChan { n with packets := n.packets ++ [p] } k { c with source := c.source ++ fs }

/-- Whether a packet that something waits for has arrived; nothing is waited for where none was sent. -/
def hasLanded (s : State) (pkt : Option Nat) : Bool :=
  match pkt with
  | none => true
  | some id => s.net.packets.any fun p => p.id == id && p.landed

/-- Whether a packet is the next to leave its destination: no packet of its network, source and destination arrived before it
(R266). -/
def landsNext (s : State) (pkt : Option Nat) : Bool :=
  match pkt.bind fun id => s.net.packets.find? fun p => p.id == id with
  | none => true
  | some p => !s.net.packets.any fun q => decide (q.id < p.id) && q.net == p.net && q.src == p.src && q.dst == p.dst && q.landed

/-- A packet that has arrived is taken. -/
def takePacket (pkt : Option Nat) (s : State) : State :=
  match pkt with
  | none => s
  | some id => { s with net := { s.net with packets := s.net.packets.filter fun p => p.id != id } }

/-! ## Power (R270) -/

/-- A router; one that nothing has touched is on. -/
def getRouter (s : State) (r : Nat) : Router := kvGetD s.net.routers r {}

/-- Whether a router moves flits: it is on, or has begun to power down. -/
def passes (x : Router) : Bool := x.power == .on || x.power == .powering

/-- Whether the router of a key moves flits. -/
def routerOn (n : Net) (k : Nat) : Bool := passes (kvGetD n.routers (keyRouter k) {})

/-- What a look-ahead wake or an injection in a network cycle does: it aborts a power-down, or starts a wake of 20 cycles. -/
def wakeRouter (t : Nat) (x : Router) : Router :=
  match x.power with
  | .on => { x with idleSince := t }
  | .powering => { x with power := .on, idleSince := t }
  | .off => { x with power := .waking, wakeEnd := t + 20 }
  | .waking => x

/-- A power-down begins after 128 idle network cycles; it commits in its fourth cycle. -/
def beginPowerDown (t : Nat) (x : Router) : Router :=
  if x.power = .on ∧ x.idleSince + 128 ≤ t then { x with power := .powering, wakeEnd := t + 3 } else x

/-- A power-down that nothing has aborted turns the router off. -/
def commitPowerDown (t : Nat) (x : Router) : Router :=
  if x.power = .powering ∧ x.wakeEnd ≤ t then { x with power := .off } else x

/-- A wake ends. -/
def endWake (t : Nat) (x : Router) : Router :=
  if x.power = .waking ∧ x.wakeEnd ≤ t then { x with power := .on, idleSince := t } else x

/-- Change a router; what stays as it was is not written. -/
def netRouter (r : Nat) (f : Router → Router) (n : Net) : Net :=
  let x := kvGetD n.routers r {}
  if f x = x then n else { n with routers := kvSet n.routers r (f x) }

/-- The routers that a network cycle wakes: those whose endpoints inject, and those for which a flit has entered the latch two
latches upstream of their input. -/
def wakesOf (old new : Net) : List Nat :=
  let look (c : Channel) : Option Flit := (c.latches.getD (c.latches.length - 2) none)
  (old.chans.filter fun e => !e.2.source.isEmpty).map (fun e => keyRouter e.1)
    ++ (new.chans.filter fun e => (look e.2).isSome && look (getChan old e.1) != look e.2).map fun e => keyRouter e.1

/-- The routers that have flits at an input. -/
def busyRouters (n : Net) : List Nat := (n.chans.filter fun e => !e.2.fifo.isEmpty).map fun e => keyRouter e.1

/-- The power of the routers in a network cycle: an abort wins over the commit of the same cycle. -/
def powerRouters (t : Nat) (woken busy : List Nat) (n : Net) : Net :=
  (List.range 40).foldl (fun n r =>
    netRouter r (fun x =>
      if woken.contains r then wakeRouter t x
      else if busy.contains r then { x with idleSince := t }
      else if x.power = .on then beginPowerDown t x
      else commitPowerDown t x) n) n

/-! ## Arbitration (R268) -/

/-- Whether a header has waited AGE network cycles at the head of a FIFO. -/
def isAged (n : Net) (t : Nat) (p : Packet) : Bool :=
  decide (p.since + n.age ≤ t) && n.chans.any fun e => e.2.fifo.head? == some { pkt := p.id, idx := 0 }

/-- The packets whose headers have waited so long become urgent. -/
def markUrgent (t : Nat) (n : Net) : Net :=
  { n with packets := n.packets.map fun p => { p with urgent := p.urgent || isAged n t p } }

/-- The output that the flit at the head of an input wants. -/
def headWants (n : Net) (k : Nat) (c : Channel) : Option Nat :=
  match c.fifo.head? with
  | some f => (flitPacket n f).map fun p => keyAt k (outPort (keyRouter k) p.dst)
  | none => none

/-- The inputs, with their packets, whose headers may move to an output: a header takes two network cycles through a router. -/
def contenders (n : Net) (t o : Nat) : List (Nat × Packet) :=
  n.chans.filterMap fun e =>
    if e.1 / 32 = o / 32 ∧ headWants n e.1 e.2 = some o then
      match e.2.fifo.head? with
      | some f => match flitPacket n f with
        | some p => if f.idx = 0 ∧ p.entered + 2 ≤ t ∧ p.since < t then some (keyPort e.1, p) else none
        | none => none
      | none => none
    else none

/-- The least of some numbers. -/
def leastOf : List Nat → Option Nat
  | [] => none
  | x :: xs => match leastOf xs with
    | some y => some (min x y)
    | none => some x

/-- The next of some inputs after one, round robin. -/
def roundRobin (last : Nat) (is : List Nat) : Option Nat :=
  match leastOf (is.filter fun i => decide (last < i)) with
  | some i => some i
  | none => leastOf is

/-- The weight of an input. -/
def weightOf (n : Net) (k : Nat) : Nat := kvGetD n.weights (32 * keyRouter k + keyPort k) 1

/-- The input that an output serves: the one whose packet holds it; else an urgent one, round robin; else by weighted round robin: the
last winner again until it has won as many packets in a row as its weight (log 13). With the arbiter afterwards. -/
def chooseInput (n : Net) (t o : Nat) : Option (Nat × Outlet) :=
  let x := kvGetD n.outlets o {}
  let held := x.lock.filter fun l => n.packets.any fun p => p.id == l.2
  match held with
  | some l =>
    match (getChan n (keyAt o l.1)).fifo.head? with
    | some f => if f.pkt = l.2 then some (l.1, x) else none
    | none => none
  | none =>
    let cs := contenders n t o
    match roundRobin x.lastUrgent ((cs.filter fun c => c.2.urgent).map fun c => c.1) with
    | some i => some (i, { x with lastUrgent := i })
    | none =>
      let is := cs.map fun c => c.1
      if is.contains x.last && decide (x.wins < weightOf n (keyAt o x.last)) then some (x.last, { x with wins := x.wins + 1 })
      else (roundRobin x.last is).map fun i => (i, { x with last := i, wins := 1 })

/-! ## The movement of flits (R264) -/

/-- A header that comes to the head of a FIFO begins to wait. -/
def noteHead (t : Nat) (c : Channel) (n : Net) : Net :=
  match c.fifo.head? with
  | some f => if f.idx = 0 then modPacket f.pkt (fun p => { p with since := t }) n else n
  | none => n

/-- A flit leaves the head of an input. -/
def popInput (t k : Nat) (n : Net) : Net :=
  let c := getChan n k
  let c := { c with fifo := c.fifo.drop 1 }
  noteHead t c (putChan n k c)

/-- A flit enters an input's FIFO. -/
def pushInput (t k : Nat) (f : Flit) (c : Channel) (n : Net) : Net :=
  let n := if f.idx = 0 then modPacket f.pkt (fun p => { p with entered := t }) n else n
  let d := { c with fifo := c.fifo ++ [f] }
  putChan (if c.fifo.isEmpty then noteHead t d n else n) k d

/-- Whether an output has room: an endpoint always takes a flit (R267), a link while its first latch is empty. -/
def hasRoom (n : Net) (o : Nat) : Bool :=
  if 16 ≤ keyPort o then true
  else
    let x := across (keyRouter o) (keyPort o)
    ((getChan n (portKey (o / 1280) x.1 x.2)).latches.headD none).isNone

/-- A flit leaves a router by an output, the last one of a packet freeing it: into the first latch of the link, or to the
endpoint. -/
def pushOutput (o : Nat) (f : Flit) (last : Bool) (n : Net) : Net :=
  if 16 ≤ keyPort o then (if last then modPacket f.pkt (fun p => { p with landed := true }) n else n)
  else
    let x := across (keyRouter o) (keyPort o)
    let k := portKey (o / 1280) x.1 x.2
    let c := getChan n k
    let ls := if c.latches.isEmpty then List.replicate (latchCount x.1 x.2) none else c.latches
    putChan n k { c with latches := ls.set 0 (some f) }

/-- An output moves one flit, if one may move. -/
def moveOutput (t : Nat) (n : Net) (o : Nat) : Net :=
  if !routerOn n o || !hasRoom n o then n
  else
    match chooseInput n t o with
    | none => n
    | some (i, x) =>
      match (getChan n (keyAt o i)).fifo.head? with
      | none => n
      | some f =>
        match flitPacket n f with
        | none => n
        | some p =>
          let last := f.idx + 1 == p.len
          let n := { n with outlets := kvSet n.outlets o { x with lock := if last then none else some (i, p.id) } }
          pushOutput o f last (popInput t (keyAt o i) n)

/-- The outputs of one kind that flits want each move one. -/
def moveOutputs (t : Nat) (kind : Nat → Bool) (n : Net) : Net :=
  let os := (n.chans.filterMap fun e => headWants n e.1 e.2).eraseDups.filter fun o => kind (keyPort o)
  os.foldl (moveOutput t) n

/-- Every latch whose next one is empty passes its flit on. -/
def shiftLatches : List (Option Flit) → List (Option Flit)
  | [] => []
  | a :: rest =>
    match a, shiftLatches rest with
    | some f, none :: r => none :: some f :: r
    | _, r => a :: r

/-- The flits on one link move on: the last latch into the FIFO, which holds four, while the router is not off. -/
def advanceLink (t : Nat) (n : Net) (k : Nat) : Net :=
  let c := getChan n k
  match c.latches.getLast? with
  | some (some f) =>
    if c.fifo.length < 4 ∧ routerOn n k = true then
      pushInput t k f { c with latches := shiftLatches (c.latches.dropLast ++ [none]) } n
    else putChan n k { c with latches := shiftLatches c.latches }
  | _ => putChan n k { c with latches := shiftLatches c.latches }

/-- The links of one kind advance. -/
def advanceLinks (t : Nat) (kind : Nat → Bool) (n : Net) : Net :=
  ((n.chans.map fun e => e.1).filter fun k => kind (keyPort k)).foldl (advanceLink t) n

/-- An endpoint injects one flit. -/
def injectFlit (t : Nat) (n : Net) (k : Nat) : Net :=
  let c := getChan n k
  match c.source with
  | f :: fs => if c.fifo.length < 4 ∧ routerOn n k = true then pushInput t k f { c with source := fs } n else n
  | [] => n

/-- Ports of the row links, of the column links, and local ones. -/
def isRow (p : Nat) : Bool := decide (p < 8)
/-- Ports of the column links. -/
def isColumn (p : Nat) : Bool := decide (8 ≤ p) && decide (p < 16)
/-- Local ports. -/
def isLocal (p : Nat) : Bool := decide (16 ≤ p)

/-- One network cycle. What leaves an input makes room in the same cycle, so each kind of port moves after those that it feeds. -/
def netTick (t : Nat) (n : Net) : Net :=
  let n := markUrgent t ((List.range 40).foldl (fun n r => netRouter r (endWake t) n) n)
  let m := moveOutputs t isLocal n
  let m := moveOutputs t isColumn (advanceLinks t isColumn m)
  let m := moveOutputs t isRow (advanceLinks t isRow m)
  let m := (m.chans.map fun e => e.1).foldl (injectFlit t) m
  powerRouters t (wakesOf n m) (busyRouters n) m

/-- The network cycle count: two in a core cycle (R6). -/
def netClock (s : State) : Nat := 2 * s.dev.clock

end Sys2Proof.Machine
end

