-- ==== Sys2Proof/Machine/Matrix.lean ====
section
/-! DEFINITION. The matrix sequencer's commands (R98 to R110, R349 to R352, R369, R378 to R380): their checks at
acceptance and their effects. -/

namespace Sys2Proof.Machine

open Sys2Proof

/-! ## Shape slots (R108, R369) -/

/-- A tensor descriptor. -/
structure Tensor where
  oob : Nat
  ty : Option Ty
  rank : Nat
  base : Nat
  ext : List Nat
  stride : List Int

/-- Read a shape record. -/
def tensorOf (bs : List Byte) : Tensor :=
  let v := natOfBytes bs
  { oob := field v 488 2, ty := Ty.ofBits (BitVec.ofNat 4 (field v 484 4)), rank := field v 480 3, base := field v 0 64,
    ext := (List.range 5).map fun k => field v (64 + 32 * k) 32,
    stride := (List.range 4).map fun k => signedOf 64 (field v (224 + 64 * k) 64) }

/-- The unit of a tensor's addresses: its element size, or a byte for 4-bit types. -/
def tensorUnit (ty : Ty) : Nat := max 1 (tyBits ty / 8)

/-- Whether a record passes the checks of R108. -/
def tensorOk (t : Tensor) : Bool :=
  match t.ty with
  | none => false
  | some ty =>
    decide (t.oob ≤ 1) && decide (1 ≤ t.rank) && decide (t.rank ≤ 5) && (t.ext.take t.rank).all (fun x => x != 0)
      && t.base % tensorUnit ty == 0
      && (t.stride.take (t.rank - 1)).all fun x => x % Int.ofNat (tensorUnit ty) == 0

/-- The record that a slot name of a team holds after every command accepted so far. -/
def slotAfter (s : State) (core team n : Nat) : Option Shape :=
  (engOf s core).cmds.foldl (fun r c =>
    match c.kind with
    | .shld k ws p => if c.team = team ∧ k = n then some { words := ws, phys := p } else r
    | .shev k => if c.team = team ∧ k = n then none else r
    | _ => r) (kvGet (getTeam s team).shapes n)

/-- The physical slots that a team holds. -/
def physSlots (s : State) (core team : Nat) : List Nat :=
  (List.range 32).filterMap fun n => (slotAfter s core team n).map fun x => x.phys

/-- The physical slots that other resident teams of a core hold. -/
def othersSlots (s : State) (core team : Nat) : List Nat :=
  s.teams.flatMap fun e => if e.1 != team && e.2.home == core then physSlots s core e.1 else []

/-- The physical slot that SHLD of a name takes: the one that the team already has under the name, that of the name's
number, or the lowest free one when the team's own slot of another name stands there (R369). -/
def slotFor (s : State) (core team n : Nat) : Option Nat :=
  match slotAfter s core team n with
  | some x => some x.phys
  | none =>
    let others := othersSlots s core team
    let own := physSlots s core team
    if others.contains n then none
    else if own.contains n then findBelow (fun i => !others.contains i && !own.contains i) 32 0
    else some n

/-- SHLD at acceptance. -/
def acceptShld (t : TileNum) (a : GReg) (e : EngEnv) (s : State) : Accept := do
  let core := homeOf s e.g
  let va := uPair e a
  need (va % 64 == 0) 0x03 va
  let ps ← rangePieces s e false .load va 64
  let r := acceptRead e ps s
  need (tensorOk (tensorOf r.bytes)) 0x12 va
  let p ← needSome (slotFor s core e.g.place.team t.toNat) 0x12 0
  .ok ({ kind := .shld t.toNat r.bytes p, uses := [(.slot e.g.place.team t.toNat, true)], bad := r.bad }, r.st)

/-- SHEV at acceptance. -/
def acceptShev (t : TileNum) (e : EngEnv) (s : State) : Accept := do
  need (slotAfter s (homeOf s e.g) e.g.place.team t.toNat).isSome 0x12 0
  .ok ({ kind := .shev t.toNat, uses := [(.slot e.g.place.team t.toNat, true)] }, s)

/-- SHLD and SHEV change the team's slots. -/
def applyShape (c : Cmd) (n : Nat) (x : Option Shape) (s : State) : State :=
  modTeam s c.team fun t => { t with shapes := kvPut t.shapes n x }

/-! ## TLD and TST (R109, R378) -/

/-- The elements of a row of the box that lie in the tensor: from `lo` to below `hi`. -/
def boxSpan (c0 : Int) (len ext0 : Nat) : Nat × Nat :=
  ((max 0 (-c0)).toNat, (max 0 (min (Int.ofNat len) (Int.ofNat ext0 - c0))).toNat)

/-- Whether row `i` of a box is valid. -/
def rowValid (t : Tensor) (cs : List Int) (i : Nat) : Bool :=
  let inside (k : Nat) (x : Int) : Bool := decide (0 ≤ x) && decide (x < Int.ofNat (t.ext.getD k 0))
  (if t.rank ≤ 1 then i == 0 else inside 1 (cs.getD 1 0 + Int.ofNat i))
    && ((List.range t.rank).drop 2).all fun k => inside k (cs.getD k 0)

/-- The address of an element of a row. -/
def boxAddr (t : Tensor) (ty : Ty) (cs : List Int) (i lo : Nat) : Nat :=
  let first := (cs.getD 0 0 + Int.ofNat lo) * Int.ofNat (tyBits ty) / 8
  let row := if t.rank ≤ 1 then 0 else (cs.getD 1 0 + Int.ofNat i) * t.stride.getD 0 0
  let outer := ((List.range t.rank).drop 2).foldl (fun v k => v + cs.getD k 0 * t.stride.getD (k - 1) 0) 0
  unsignedOf 64 (Int.ofNat t.base + first + row + outer)

/-- The rows of a box with the pieces of their elements, or the first fault. -/
def boxRows (s : State) (e : EngEnv) (nd : Need) (t : Tensor) (ty : Ty) (cs : List Int) (len : Nat) :
    List Nat → Except EngErr (List BoxRow)
  | [] => .ok []
  | i :: is => do
    let sp := boxSpan (cs.getD 0 0) len (t.ext.getD 0 0)
    let row ← if rowValid t cs i && decide (sp.1 < sp.2) then do
        let bits := (sp.2 - sp.1) * tyBits ty
        let ps ← rangePieces s e false nd (boxAddr t ty cs i sp.1) ((bits + 7) / 8)
        pure { row := i, valid := true, off := sp.1 * tyBits ty / 8, pieces := ps, half := bits % 8 != 0 }
      else pure { row := i, valid := rowValid t cs i, off := 0, pieces := [] }
    let rest ← boxRows s e nd t ty cs len is
    pure (row :: rest)

/-- Whether a box reaches outside its tensor; a tensor of rank 1 has row 0 only. -/
def boxOutside (t : Tensor) (cs : List Int) (len : Nat) : Bool :=
  let sp := boxSpan (cs.getD 0 0) len (t.ext.getD 0 0)
  sp.1 != 0 || sp.2 != len || (if t.rank ≤ 1 then [0] else List.range 32).any fun i => !rowValid t cs i

/-- The length of a row in local memory: L elements rounded up to 32 bytes. -/
def boxPitch (ty : Ty) (len : Nat) : Nat := ((len * tyBits ty + 7) / 8 + 31) / 32 * 32

/-- The checks of TLD and TST at acceptance (R109, R378): the slot, the coordinate registers, the box, alignment, local
memory, and the translation of every line. A length L of 0, above 1,024 bytes' worth, or odd for a 4-bit type raises
MISALIGNED_ADDR with address a (DESIGN CHOICE: the manual names no cause for it; log 13). -/
def boxCheck (nd : Need) (t : TileNum) (a b c : GReg) (e : EngEnv) (s : State) : Except EngErr (Nat × Nat × Nat × List BoxRow) := do
  let x ← needSome (slotAfter s (homeOf s e.g) e.g.place.team t.toNat) 0x12 0
  let ten := tensorOf x.words
  let ty ← needSome ten.ty 0x12 0
  let regs := regRange b.toNat ten.rank
  need (regs.all fun r => decide (r < e.g.place.hdr.uregs) && decide (r < 256)) 0x01 0
  need (regs.all fun r => !e.g.upend.getLsbD r) 0x06 0
  let cs := regs.map fun r => (getU e.g r).toInt
  let len := uArg e c
  let off := uArg e a
  let four := tyBits ty == 4
  need (ten.oob == 0 || !boxOutside ten cs len) 0x12 0
  need (off % 32 == 0) 0x03 off
  need (!(four && (cs.getD 0 0 % 2 != 0 || len % 2 != 0)) && decide (0 < len) && decide (len * tyBits ty ≤ 8192)) 0x03 off
  let p := boxPitch ty len
  needLocal e.g off (32 * p + 4)
  let rows ← boxRows s e nd ten ty cs len (List.range 32)
  pure (off, p, len * tyBits ty / 8, rows)

/-- TLD at acceptance. -/
def acceptTld (bh : Bool) (t : TileNum) (a b c : GReg) (e : EngEnv) (s : State) : Accept := do
  let (off, p, n, rows) ← boxCheck .load t a b c e s
  let bar ← if bh then do
      let x ← engineBar s e.g (uNext e c 1)
      pure (some x)
    else pure none
  .ok ({ kind := .tld off p n rows, uses := [(.slot e.g.place.team t.toNat, false)], bar := bar },
    notePieces e (rows.flatMap fun r => r.pieces) s)

/-- TST at acceptance. -/
def acceptTst (t : TileNum) (a b c : GReg) (e : EngEnv) (s : State) : Accept := do
  let (off, p, _, rows) ← boxCheck .store t a b c e s
  .ok ({ kind := .tst off p rows, uses := [(.slot e.g.place.team t.toNat, false)] },
    notePieces e (rows.flatMap fun r => r.pieces) s)

/-- Keep only the low nibble of the last byte. -/
def lowNibble (bs : List Byte) : List Byte := bs.dropLast ++ (bs.getLast?.map fun b => b &&& 0x0F).toList

/-- The bytes that a row of TLD's box gets, from what its pieces read: zero outside the tensor. The bytes from the end of
the row to the next row's start keep their values. -/
def tldRow (r : BoxRow) (bs : List Byte) (n : Nat) : List Byte :=
  let bs := if r.half then lowNibble bs else bs
  ((List.replicate r.off 0 ++ bs) ++ List.replicate n 0).take n

/-- Whether each byte of a row's pieces lies in a line that fails. -/
def failedBytes (s : State) (lost : List Nat) (ps : List Piece) : List Bool :=
  (pieceLines ps).flatMap fun p => List.replicate p.len (accessFails s lost p.loc).isSome

/-- Write a row of TLD's box, but for the bytes that come from a failing line (R144): those keep their values, which the
manual says of the sectors of such a line and the model of its bytes (DEDUCED; log 13). -/
def landRow (team at_ : Nat) (r : BoxRow) (bad : List Bool) (bs : List Byte) (s : State) : State :=
  if bad.any id then
    let old := localRead s team at_ bs.length
    let keep := List.replicate r.off false ++ bad
    localWrite team at_ (((List.range bs.length).zip (bs.zip old)).map fun e =>
      if keep.getD e.1 false then e.2.2 else e.2.1) s
  else localWrite team at_ bs s

/-- The row-validity mask of a box. -/
def rowMask (rows : List BoxRow) : Nat := rows.foldl (fun n r => if r.valid then n + 2 ^ r.row else n) 0

/-- TLD's effect: rows, mask, and the barrier's sectors (R109). -/
def applyTld (c : Cmd) (addr pitch len : Nat) (rows : List BoxRow) (s : State) : State :=
  let bad := rows.any fun r => (failedBytes s (cmdReader s c).lost r.pieces).any id
  let s := rows.foldl (fun s r =>
    let x := cmdRead c true r.pieces s
    landRow c.team (addr + r.row * pitch) r (failedBytes s (cmdReader s c).lost r.pieces) (tldRow r x.1 len) x.2) s
  let s := localWrite c.team (addr + 32 * pitch) (bytesOfNat 4 (rowMask rows)) s
  cmdLanding c.team c.bar (cmdArrival c pitch bad []) s

/-- A command reads a range of local memory that may hold a line with an uncorrectable error (R123). -/
def meetLocal (c : Cmd) (off n : Nat) (s : State) : State :=
  match (getTeam s c.team).badLines.find? fun l => rangesMeet l 128 off n with
  | some l => cmdErr c (some (localWindow + l)) s
  | none => s

/-- TST's effect: the rows that the mask word marks, as far as they lie in the tensor (R109). -/
def applyTst (c : Cmd) (addr pitch : Nat) (rows : List BoxRow) (s : State) : State :=
  let mask := natOfBytes (localRead s c.team (addr + 32 * pitch) 4)
  rows.foldl (fun s r =>
    if mask.testBit r.row then
      let n := r.pieces.foldl (fun n p => n + p.len) 0
      let s := meetLocal c (addr + r.row * pitch + r.off) n s
      let bs := localRead s c.team (addr + r.row * pitch + r.off) n
      if r.half then
        let x := cmdRead c true (cutPieces r.pieces (n - 1) 1) s
        let top := (x.1.headD 0) &&& 0xF0
        cmdWrite c r.pieces (bs.dropLast ++ [((bs.getLastD 0) &&& 0x0F) ||| top]) x.2
      else cmdWrite c r.pieces bs s
    else s) s

/-! ## MLDB (R104, R350) -/

/-- The bytes of one sub-array's block. -/
def mldbBytes : Ty → Nat
  | .s4 | .e2m1 => 8192
  | .cb2 => 4096
  | _ => 16384

/-- The K-blocks that a sub-array holds. -/
def subBlocks : Ty → Nat
  | .bf16 => 2
  | _ => 4

/-- The sub-arrays that a mask names, in ascending order. -/
def maskSubs (mask : Nat) : List Nat := (List.range 4).filter fun k => mask.testBit k

/-- The aligned block of column `n` and K-block `j` from a sub-array's bytes (R90, R91). -/
def cellBlock (ty : Ty) (table bs : List Byte) (n j : Nat) : CellBlock :=
  match ty with
  | .cb2 => { vals := (List.range 4).flatMap fun o => latticeWeights table (packedAt .cb2 bs (128 * (4 * j + o) + n)) }
  | _ => alignBlock true ty ((List.range 32).map fun k => packedAt ty bs (128 * (32 * j + k) + n))

/-- A sub-array loaded with a team's B. -/
def loadedSub (team owner : Nat) (ty : Ty) (table bs scales : List Byte) : SubArray :=
  { team := some team, ty := ty, table := table, owner := some owner,
    cols := (List.range 128).map fun n => (List.range (subBlocks ty)).map fun j => cellBlock ty table bs n j,
    scales := (List.range 128).map fun n => (List.range (subBlocks ty)).map fun j => (scales.getD (128 * j + n) 127).toNat }

/-- A sub-array of a core. -/
def getSub (s : State) (core k : Nat) : SubArray := kvGetD (engOf s core).subs k {}

/-- The table that a sub-array keeps for a load without LT (R90): the default where another context loaded it last. -/
def keptTable (x : SubArray) (owner : Nat) : List Byte := if x.owner == some owner then x.table else defaultLattice

/-- Load one sub-array: its cells, scales and table, and the count of elements that lost bits (R91), which the core of the
issuing group counts (DESIGN CHOICE: the manual says only 'the core'; log 13). -/
def loadSub (c : Cmd) (core k : Nat) (x : SubArray) (s : State) : State :=
  let loss := x.cols.foldl (fun n col => col.foldl (fun n b => n + b.loss) n) 0
  let s := if loss = 0 then s else groupEvent c.gid 0x0001 loss c.pc s
  modEng core (fun y => { y with subs := kvSet y.subs k x }) s

/-- MLDB at acceptance: the translation of every line of the blocks, scales and table. -/
def acceptMldb (ty : Ty) (sc lt : Bool) (mask : BitVec 4) (a b c : GReg) (e : EngEnv) (s : State) : Accept := do
  let va := uPair e a
  let sv := uPair e b
  let tab := uArg e c
  let n := (maskSubs mask.toNat).length
  need (va % 128 == 0) 0x03 va
  need (!sc || sv % 128 == 0) 0x03 sv
  need (!lt || tab % 16 == 0) 0x03 tab
  let ps ← rangePieces s e true .load va (n * mldbBytes ty)
  let qs ← if sc then rangePieces s e true .load sv (512 * n) else pure []
  if lt then needLocal e.g tab 256 else pure ()
  .ok ({ kind := .mldb ty mask.toNat va (if sc then some sv else none) (if lt then some tab else none) ps qs,
         uses := (maskSubs mask.toNat).map fun k => (.sub k, true) }, notePieces e (ps ++ qs) s)

/-- MLDB's effect on the i-th sub-array that it loads, and the record of it (R99). -/
def mldbOne (c : Cmd) (core : Nat) (ty : Ty) (addr : Nat) (scale table : Option Nat) (ps qs : List Piece) (i k : Nat)
    (s : State) : State :=
  let n := mldbBytes ty
  let tab := match table with
    | some off => localRead s c.team off 256
    | none => keptTable (getSub s core k) c.owner
  let x := cmdRead c false (cutPieces ps (n * i) n) s
  let y := cmdRead c false (cutPieces qs (512 * i) 512) x.2
  let s := loadSub c core k (loadedSub c.team c.owner ty tab x.1 y.1) y.2
  let r : MldbRec := { ty := ty, addr := addr + n * i, scale := scale.map (fun v => v + 512 * i), lt := table, table := tab }
  modTeam s c.team fun t => { t with mldb := kvSet t.mldb k r }

/-- MLDB's effect: the named sub-arrays in ascending order. -/
def applyMldb (c : Cmd) (core : Nat) (ty : Ty) (mask addr : Nat) (scale table : Option Nat) (ps qs : List Piece)
    (s : State) : State :=
  let ks := maskSubs mask
  (ks.zip (List.range ks.length)).foldl (fun s e => mldbOne c core ty addr scale table ps qs e.2 e.1 s) s

/-! ## MMA (R89, R101, R105, R352) -/

/-- The sub-arrays of a mode, for each tile it writes, in the order of K (R101). -/
def modeSubs (mode : Nat) : List (List Nat) :=
  match mode with
  | 4 => [[0], [1], [2], [3]]
  | 5 => [[0, 1], [2, 3]]
  | 6 => [[0, 1, 2, 3]]
  | k => [[k]]

/-- The team whose B a sub-array will hold, and its type, after every command accepted so far. -/
def subAfter (s : State) (core k : Nat) : Option (Nat × Ty) :=
  (engOf s core).cmds.foldl (fun r c =>
    match c.kind with
    | .mldb ty mask _ _ _ _ _ => if mask.testBit k then some (c.team, ty) else r
    | .mma _ _ _ _ _ _ _ _ replay =>
      (match replay.find? fun x => x.1 == k with | some x => some (c.team, x.2.1) | none => r)
    | _ => r) ((getSub s core k).team.map fun t => (t, (getSub s core k).ty))

/-- A team's recorded MLDB of a sub-array after every command accepted so far: type, address, scales and table. -/
def recordAfter (s : State) (core team k : Nat) : Option (Ty × Nat × Option Nat × Option Nat) :=
  (engOf s core).cmds.foldl (fun r c =>
    match c.kind with
    | .mldb ty mask addr scale table _ _ =>
      if c.team = team ∧ mask.testBit k then
        let i := ((maskSubs mask).filter fun j => decide (j < k)).length
        some (ty, addr + mldbBytes ty * i, scale.map (fun v => v + 512 * i), table)
      else r
    | _ => r) ((kvGet (getTeam s team).mldb k).map fun m => (m.ty, m.addr, m.scale, m.lt))

/-- What an MMA finds of a sub-array: the type of its B, and the record to replay when it holds another team's. -/
def subFor (s : State) (core team k : Nat) : Option (Ty × Option (Nat × Option Nat × Option Nat)) :=
  match subAfter s core k with
  | some (t, ty) => if t = team then some (ty, none) else
      (recordAfter s core team k).map fun r => (r.1, some r.2)
  | none => (recordAfter s core team k).map fun r => (r.1, some r.2)

/-- The pieces that a replay of a sub-array reads: the block's, then the scales'. -/
def replayPieces (s : State) (e : EngEnv) (ty : Ty) (r : Nat × Option Nat × Option Nat) : Except EngErr (List Piece) := do
  need (r.1 % 128 == 0) 0x03 r.1
  let ps ← rangePieces s e true .load r.1 (mldbBytes ty)
  let qs ← match r.2.1 with
    | some v => rangePieces s e true .load v 512
    | none => pure []
  match r.2.2 with
    | some off => needLocal e.g off 256
    | none => pure ()
  pure (ps ++ qs)

/-- The replays that an MMA needs, or the first fault. -/
def replaysFor (s : State) (e : EngEnv) (core : Nat) : List Nat → Except EngErr (List (Nat × Ty × List Piece))
  | [] => .ok []
  | k :: ks => do
    let rest ← match subFor s core e.g.place.team k with
      | some (ty, some r) => do
        let ps ← replayPieces s e ty r
        pure [(k, ty, ps)]
      | _ => pure []
    let more ← replaysFor s e core ks
    pure (rest ++ more)

/-- The K-blocks of a mode with B of a type. -/
def modeBlocks (mode : Nat) (ty : Ty) : Nat := ((modeSubs mode).headD []).length * subBlocks ty

/-- MMA at acceptance. -/
def acceptMma (ty : Ty) (mode : BitVec 4) (sc rv h : Bool) (t : TileNum) (a b : GReg) (v : VReg) (e : EngEnv) (s : State) :
    Accept := do
  let core := homeOf s e.g
  let team := e.g.place.team
  let subs := (modeSubs mode.toNat).flatMap id
  let tiles := regRange t.toNat (modeSubs mode.toNat).length
  need (tiles.all fun i => tileAllotted s team i && tileOpen s core team i) 0x13 0
  let found := subs.map fun k => subFor s core team k
  need (found.all fun x => x.isSome) 0x13 0
  let btys := found.filterMap fun x => x.map fun y => y.1
  let bty := btys.headD .s8
  need (btys.all fun x => x == bty) 0x13 0
  let rs ← replaysFor s e core subs
  let off := uArg e a
  let pitch := uArg e b
  let m := if h then 16 else 32
  let row := modeBlocks mode.toNat bty * 32 * tyBits ty / 8
  need (off % 16 == 0) 0x03 off
  need (pitch % 16 == 0 && decide (row ≤ pitch)) 0x03 off
  needLocal e.g off ((m - 1) * pitch + row)
  if rv then needLocal e.g off (32 * pitch + 4) else pure ()
  let scales := if !sc then [] else
    (regRange v.toNat (if mode = 6 then 2 else 1)).map fun r => laneWords e.g r 0x7F7F7F7F
  .ok ({ kind := .mma ty mode.toNat rv h t.toNat off pitch scales rs,
         uses := (tiles.map fun i => (Res.tile team i, true))
           ++ subs.map fun k => (Res.sub k, rs.any fun x => x.1 == k) }, notePieces e (rs.flatMap fun x => x.2.2) s)

/-- Replay a recorded MLDB (R99): without LT it decodes with the kept table, and the table that the sub-array holds for later
loads stays; with LT it loads the table again, as the MLDB did (DESIGN CHOICE: the manual says only what the replay decodes
with; log 13). -/
def replaySub (c : Cmd) (core k : Nat) (ps : List Piece) (s : State) : State :=
  match kvGet (getTeam s c.team).mldb k with
  | none => s
  | some r =>
    let n := mldbBytes r.ty
    let old := getSub s core k
    let tab := match r.lt with
      | some off => localRead s c.team off 256
      | none => r.table
    let x := cmdRead c false (cutPieces ps 0 n) s
    let y := cmdRead c false (cutPieces ps n 512) x.2
    let new := loadedSub c.team c.owner r.ty tab x.1 y.1
    loadSub c core k (if r.lt.isSome then new else { new with table := old.table, owner := old.owner }) y.2

/-- The scale byte of row `m` and K-block `j` (R89); 127 without scales. -/
def aScale (scales : List (List Word)) (m j : Nat) : Nat :=
  match scales[j / 8]? with
  | none => 127
  | some ws =>
    let j := j % 8
    field (ws.getD (m + 32 * (j / 4)) 0x7F7F7F7F).toNat (8 * (j % 4)) 8

/-- Row `m` of A as aligned blocks (R91). -/
def aRow (s : State) (team : Nat) (ty : Ty) (addr blocks : Nat) : List CellBlock :=
  let bs := localRead s team addr (blocks * 32 * tyBits ty / 8)
  (List.range blocks).map fun j => alignBlock false ty ((List.range 32).map fun k => packedAt ty bs (32 * j + k))

/-- The contributions of one row of A to a tile, column by column and then by K-block, with B in some sub-arrays. -/
def rowContributions (row : List CellBlock) (scales : List (List Word)) (m : Nat) (subs : List SubArray) :
    List (Nat × FVal) :=
  (List.range 128).flatMap fun n =>
    let cols := subs.flatMap fun x => (x.cols.getD n []).zip (x.scales.getD n [])
    ((row.zip cols).zip (List.range row.length)).map fun p =>
      (tileIndex m n, blockDot p.1.1 p.1.2.1 (aScale scales m p.2) p.1.2.2)

/-- MMA's effect: for each valid row, its contributions to every tile (R105). The core of the issuing group counts
ALIGN_LOSS (DESIGN CHOICE; log 13). -/
def applyMma (c : Cmd) (core : Nat) (ty : Ty) (mode : Nat) (rv h : Bool) (t a pitch : Nat) (scales : List (List Word))
    (replay : List (Nat × Ty × List Piece)) (s : State) : State :=
  let s := replay.foldl (fun s r => replaySub c core r.1 r.2.2 s) s
  let mask := if rv then natOfBytes (localRead s c.team (a + 32 * pitch) 4) else 2 ^ 32 - 1
  let blocks := modeBlocks mode (getSub s core (((modeSubs mode).headD []).headD 0)).ty
  let ms := (List.range (if h then 16 else 32)).filter fun m => mask.testBit m
  let s := ms.foldl (fun s m => meetLocal c (a + m * pitch) (blocks * 32 * tyBits ty / 8) s) s
  let rows := ms.map fun m =>
    (m, aRow s c.team ty (a + m * pitch) blocks)
  let loss := rows.foldl (fun n r => r.2.foldl (fun n b => n + b.loss) n) 0
  let s := if loss = 0 then s else groupEvent c.gid 0x0001 loss c.pc s
  ((modeSubs mode).zip (List.range 4)).foldl (fun s q =>
    let subs := q.1.map fun k => getSub s core k
    contributeAll c.team (t + q.2) (rows.flatMap fun r => rowContributions r.2 scales r.1 subs) s) s

/-! ## TOPEN, TREAD and TRED (R92, R94, R97, R380) -/

/-- TOPEN at acceptance. -/
def acceptTopen (auto : Bool) (t : TileNum) (a : GReg) (e : EngEnv) (s : State) : Accept := do
  let x := (getU e.g a.toNat).toInt
  need (tileAllotted s e.g.place.team t.toNat) 0x13 0
  need (decide (-32768 ≤ x) && decide (x ≤ 32767)) 0x1E 0
  .ok ({ kind := .topen t.toNat auto x, uses := [(.tile e.g.place.team t.toNat, true)], hold := true }, s)

/-- TOPEN's effect. -/
def applyTopen (c : Cmd) (t : Nat) (auto : Bool) (e : Int) (s : State) : State :=
  setTile c.team t { status := statusWord auto e } s

/-- The rows of a tile that an instruction takes. -/
def tileRows (h : Bool) : List Nat := List.range (if h then 16 else 32)

/-- The pieces of rows of memory. -/
def rowPieces (s : State) (e : EngEnv) (loc : Bool) (nd : Need) (len : Nat) : List Nat → Except EngErr (List (List Piece))
  | [] => .ok []
  | va :: vas => do
    let ps ← rangePieces s e loc nd va len
    let rest ← rowPieces s e loc nd len vas
    pure (ps :: rest)

/-- TREAD at acceptance. -/
def acceptTread (ty : Ty) (h : Bool) (t : TileNum) (a b : GReg) (e : EngEnv) (s : State) : Accept := do
  let va := uPair e a
  let pitch := uArg e b
  let n := 128 * (tyBits ty / 8)
  needTile s (homeOf s e.g) e.g.place.team t.toNat
  need (va % 16 == 0) 0x03 va
  need (pitch % 16 == 0 && decide (n ≤ pitch)) 0x03 va
  let rows ← rowPieces s e true .store n ((tileRows h).map fun m => va + m * pitch)
  .ok ({ kind := .tread ty h t.toNat pitch rows, uses := [(.tile e.g.place.team t.toNat, false)] },
    notePieces e (rows.flatMap id) s)

/-- TREAD's effect: each row, rounded once (R94). -/
def applyTread (c : Cmd) (ty : Ty) (t : Nat) (rows : List (List Piece)) (s : State) : State :=
  let x := getTile s c.team t
  ((rows.zip (List.range rows.length)).foldl (fun s r =>
    let bs := (List.range 128).flatMap fun n =>
      let i := tileIndex r.2 n
      bytesOfNat (tyBits ty / 8) (tyCode ty (tilePoisoned x i) (tileVal x i))
    cmdWrite c r.1 bs s)) s

/-- TREAD.stat at acceptance. -/
def acceptTreadStat (t : TileNum) (c : GReg) (e : EngEnv) (s : State) : Accept := do
  need (tileAllotted s e.g.place.team t.toNat) 0x13 0
  .ok ({ kind := .treadStat t.toNat c.toNat, uses := [(.tile e.g.place.team t.toNat, false)], hold := true }, s)

/-- The address of the first element that row `m` of a TRED adds to. -/
def surfaceRow (va i0 r m : Nat) : Nat := va + 64 + 8 * (i0 + m * r)

/-- TRED at acceptance: the header's E and COUNT against the tile's (R97). -/
def acceptTred (h : Bool) (t : TileNum) (a b c : GReg) (e : EngEnv) (s : State) : Accept := do
  let core := homeOf s e.g
  let team := e.g.place.team
  let va := uPair e a
  let i0 := uArg e b
  let r := uArg e c
  needTile s core team t.toNat
  need (va % 64 == 0) 0x03 va
  let hs ← rangePieces s e false .atomic va 64
  let rows ← rowPieces s e false .atomic 1024 ((tileRows h).map fun m => surfaceRow va i0 r m)
  let x := acceptRead e hs s
  let head := natOfBytes x.bytes
  let st := tileStatus s core team t.toNat
  need (!st.getLsbD 16 && field st.toNat 0 16 == field head 0 16) 0x0D va
  need (decide (i0 + ((tileRows h).length - 1) * r + 127 < field head 32 32)) 0x1E va
  .ok ({ kind := .tred t.toNat hs rows, uses := [(.tile team t.toNat, false)], bad := x.bad },
    notePieces e (rows.flatMap id) x.st)

/-- Add an element to a surface, or OR flags into its header, at its home. -/
def surfaceAtom (c : Cmd) (op : AOp) (p : Piece) (data : List Byte) (s : State) : State :=
  if twinCopy s (getGroup s c.gid) then
    stageTwin c.gid [{ addr := p.va, mask := 255, data := data, loc := p.loc, red := some (op, true) }] s
  else if (accessFails s (cmdReader s c).lost p.loc).isSome then
    setErr c.gid c.seq { code := 0x1A, detail := 0, addr := lineOf p.va } s
  else match p.loc, op with
    | .glob pa home hcore, .add =>
      (match peerOf s pa with
       | some q => sendPeer q .q (field pa 0 40) .tredAdd 8 data s
       | none => (doAtomic (cmdWho s c) op true (.glob pa home hcore) data s).2)
    | l, _ => (doAtomic (cmdWho s c) op true l data s).2

/-- Do something with the eight bytes at an offset of some pieces. -/
def onDWord (ps : List Piece) (off : Nat) (f : Piece → State → State) (s : State) : State :=
  match cutPieces ps off 8 with
  | p :: _ => f p s
  | [] => s

/-- The element of row `m` of a tile that a TRED adds, 0 where it is poisoned (R96). -/
def tredElem (x : Tile) (m n : Nat) : BitVec 64 :=
  let i := tileIndex m n
  if tilePoisoned x i then 0 else kvGetD x.elems i 0

/-- The eight bytes of element `k` of a run of elements. -/
def elemPiece (p : Piece) (k : Nat) : Piece := { va := p.va + 8 * k, len := 8, loc := locAdd p.loc (8 * k) }

/-- Add a run of elements to a surface, each by itself. -/
def addRun (c : Cmd) (p : Piece) (es : List (BitVec 64)) (s : State) : State :=
  (es.zip (List.range es.length)).foldl (fun s e => surfaceAtom c .add (elemPiece p e.2) (bytesOfNat 8 e.1.toNat) s) s

/-- Where the elements at a physical address are added (R97, R116, R274): at the home slice, at the core that holds a HOME 0b10
page, or on a peer. -/
def surfaceEnd (s : State) (pa : Nat) (home : BitVec 2) (hcore : Nat) : Endpoint :=
  match peerOf s pa with
  | some q => .link (linkFor s q (field pa 0 40))
  | none => if home = 2 then .cluster (clusterOfCore hcore) else .slice (sliceOf pa)

/-- The elements of a row that lie in one line leave as a C packet with the line's combine tag (R263, R272); those of local memory are
added at once. -/
def sendRun (c : Cmd) (p : Piece) (es : List (BitVec 64)) (s : State) : State :=
  match p.loc with
  | .loc .. => addRun c p es s
  | .glob pa home hcore =>
    let k : Packet := { id := s.nextId, net := .c, src := .cluster (clusterOfCore (coreOfGid c.gid)), dst := surfaceEnd s pa home hcore,
                        len := 1 + (es.length + 7) / 8, tag := some (.surface pa es.length), op := 1, elems := es,
                        place := [p], who := [c.id] }
    { s with net := inject k s.net, nextId := s.nextId + 1 }

/-- The runs of elements of a TRED: the lines of its rows, each with what is added there. -/
def tredRuns (x : Tile) (rows : List (List Piece)) : List (Piece × List (BitVec 64)) :=
  (rows.zip (List.range rows.length)).flatMap fun r =>
    ((pieceLines r.1).foldl (fun (y : List (Piece × List (BitVec 64)) × Nat) p =>
      let k := p.len / 8
      (y.1 ++ [(p, (List.range k).map fun j => tredElem x r.2 (y.2 + j))], y.2 + k)) ([], 0)).1

/-- Whether a packet carries elements of a command. -/
def carries (id : Nat) (p : Packet) : Bool := p.who.contains id

/-- Whether elements of a TRED are on their way. -/
def tredTravels (s : State) (id : Nat) : Bool := s.net.packets.any (carries id)

/-- A TRED starts: its elements enter the network (R97, R272). -/
def sendTred (c : Cmd) (t : Nat) (rows : List (List Piece)) (s : State) : State :=
  (tredRuns (getTile s c.team t) rows).foldl (fun s r => sendRun c r.1 r.2 s) s

/-- The elements of a packet are added at its end; a line that fails is the error of every command that contributed. -/
def landSurface (cs : List Cmd) (p : Packet) (s : State) : State :=
  match cs, p.place with
  | c :: rest, w :: _ =>
    let bad (s : State) (d : Cmd) : State :=
      if (accessFails s (cmdReader s d).lost w.loc).isSome then
        setErr d.gid d.seq { code := 0x1A, detail := 0, addr := lineOf w.va } s
      else s
    rest.foldl bad (addRun c w p.elems s)
  | _, _ => s

/-- TRED's completion: the header's flags (R96, R97), POISON when an element of the rows taken is poisoned (DESIGN CHOICE: R97
says the tile's poison, R96 that a poisoned element has been added; log 13). In a twin copy the elements are staged first (R281).
-/
def applyTred (c : Cmd) (t : Nat) (head : List Piece) (rows : List (List Piece)) (s : State) : State :=
  let x := getTile s c.team t
  let s := if c.sent then s else (tredRuns x rows).foldl (fun s r => addRun c r.1 r.2 s) s
  let poison := (List.range rows.length).any fun m => (List.range 128).any fun n => tilePoisoned x (tileIndex m n)
  let flags := bitNum poison + 2 * bitNum (x.status.getLsbD 18)
  if flags = 0 then s else onDWord head 8 (fun p s => surfaceAtom c .or p (bytesOfNat 8 flags) s) s

end Sys2Proof.Machine
end

