-- ==== Sys2Proof/Machine/Headers.lean ====
section
/-! DEFINITION. Kernel headers (R27, R235, R236). -/

namespace Sys2Proof.Machine

open Sys2Proof

/-- The fields of a kernel header. -/
def hdrOf (addr v : Nat) : Hdr :=
  { addr := addr, entry := BitVec.ofNat 32 (field v 0 32), regs := 8 * (field v 32 4 + 1), uregs := 32 * (field v 36 5 + 1),
    team := field v 41 6 + 1, localBytes := 256 * field v 48 12, tiles := field v 60 6, e0 := field v 102 7,
    e1 := field v 109 7, widths := (List.range 5).map fun k => field v (72 + 6 * k) 6,
    extents := (List.range 4).map fun k => field v (128 + 64 * k) 64,
    ord := v.testBit 116, twin := v.testBit 117, nopre := v.testBit 118 }

/-- Whether the work-identifier fields keep the bounds of R27. -/
def hdrFieldsOk (h : Hdr) : Bool :=
  let ws := h.widths
  decide (ws.getD 0 0 ≤ 6) && (ws.drop 1).all (fun w => decide (w ≤ 58)) && decide (6 + ws.foldl (fun n w => n + w) 0 ≤ 64)
    && decide (1 ≤ h.e0) && decide (h.e0 ≤ 64) && decide (1 ≤ h.e1) && decide (h.e1 ≤ 2 ^ ws.getD 0 0)
    && ((ws.drop 1).zip h.extents).all fun p => decide (1 ≤ p.2) && decide (p.2 ≤ 2 ^ p.1)

/-- The teams of a launch (R27). -/
def hdrTeams (h : Hdr) : Nat := h.extents.foldl (fun n e => n * e) 1

/-- Whether a header passes the checks of R236. -/
def hdrOk (v : Nat) : Bool :=
  let h := hdrOf 0 v
  field v 384 640 == 0 && field v 119 9 == 0 && field v 66 6 == 0 && field v 47 1 == 0 && field v 32 4 != 15
    && decide (field v 48 12 ≤ 3072) && decide (h.tiles ≤ 32) && field v 0 2 == 0 && hdrFieldsOk h && h.e1 == h.team
    && decide (hdrTeams h < 2 ^ 40)

/-- A header read from its 128 bytes, or nothing when it is refused. -/
def parseHdr (addr : Nat) (bs : List Byte) : Option Hdr :=
  let v := natOfBytes bs
  if hdrOk v then some (hdrOf addr v) else none

end Sys2Proof.Machine
end

