-- ==== Sys2Proof/Machine/KvHandles.lean ====
section
/-! DEFINITION. Key-value handles (R155 to R165, R333, R334, R344): the block pool, the handle table, HLD and HST, and
KVAPP, KVFORK and KVDROP as the key-value sequencer accepts them. -/

namespace Sys2Proof.Machine

open Sys2Proof

/-! ## Reads at device scope -/

/-- The bytes of a place at the point of coherence, with the newer bytes of a core's own L1. -/
def ownBytes (s : State) (core : Nat) (l : Loc) (n : Nat) : List Byte :=
  match l with
  | .loc t off => localRead s t off n
  | .glob pa home hcore =>
    let base := if home = 2 then sramRead s hcore pa n
      else if (peerOf s pa).isSome then (List.range n).map fun i => Config.freeByte (s.free + i)
      else memBytes s.mem pa n
    let cells := (getCore s core).l1.foldl (fun m x => if rangesMeet x.2.pa 128 pa n then memPutAt m (dirtyBytes x.2) else m)
      (memPut [] pa base)
    memBytes cells pa n

/-- The bytes of some pieces. -/
def ownPieces (s : State) (core : Nat) (ps : List Piece) : List Byte := ps.flatMap fun p => ownBytes s core p.loc p.len

/-- A 32-bit number at a virtual address that the records of R238 name: 4-byte aligned, and translated. -/
def kvWord (s : State) (e : EngEnv) (nd : Need) (base va : Nat) : Except EngErr Nat := do
  need (base % 4 == 0) 0x03 base
  let ps ← rangePieces s e false nd va 4
  pure (natOfBytes (ownPieces s (coreOfGid e.gid) ps))

/-- Write a 32-bit number at a virtual address whose translation has been checked. -/
def kvStore (e : EngEnv) (va v : Nat) (s : State) : State :=
  match rangePieces s e false .store va 4 with
  | .ok ps => (writePieces [] (envWho e) ps (bytesOfNat 4 v) s).2
  | .error _ => s

/-! ## The pool and the handle table (R156 to R159) -/

/-- A block-pool record. -/
structure Pool where
  at_ : Nat
  base : Nat
  blkBytes : Nat
  nblocks : Nat
  top : Nat
  stack : Nat
  desc : Nat

/-- The pool of a context's domain. -/
def poolOf (s : State) (owner : Nat) : Pool :=
  let at_ := descWord s owner 0x28
  let v := natOfBytes (memBytes s.mem at_ 64)
  { at_ := at_, base := field v 0 64, blkBytes := field v 96 32, nblocks := field v 128 32, top := field v 160 32,
    stack := field v 192 64, desc := field v 256 64 }

/-- Write TOP. -/
def setTop (p : Pool) (top : Nat) (s : State) : State := { s with mem := memPut s.mem (p.at_ + 20) (bytesOfNat 4 top) }

/-- The address of a block. -/
def blockVa (p : Pool) (b : Nat) : Nat := p.base + b * p.blkBytes

/-- A handle-table entry, with its address and its 256 bits. -/
structure KvEnt where
  at_ : Nat
  raw : Nat
  deriving DecidableEq, Repr

/-- BLIST. -/
def KvEnt.blist (x : KvEnt) : Nat := field x.raw 192 64
/-- VEXP. -/
def KvEnt.vexp (x : KvEnt) : Int := signedOf 16 (field x.raw 176 16)
/-- NBLK. -/
def KvEnt.nblk (x : KvEnt) : Nat := field x.raw 128 17
/-- LEN. -/
def KvEnt.len (x : KvEnt) : Nat := field x.raw 96 23
/-- GEN. -/
def KvEnt.gen (x : KvEnt) : Nat := field x.raw 80 16
/-- FMT. -/
def KvEnt.fmt (x : KvEnt) : Nat := field x.raw 76 4
/-- The head dimension D. -/
def KvEnt.dim (x : KvEnt) : Nat := 16 * (field x.raw 72 4 + 1)
/-- V. -/
def KvEnt.used (x : KvEnt) : Bool := x.raw.testBit 64
/-- The bytes of a key row. -/
def KvEnt.rowBytes (x : KvEnt) : Nat := x.dim * (if x.fmt = 0xA then 1 else 2)
/-- The blocks that the tokens fill. -/
def KvEnt.blocks (x : KvEnt) : Nat := (x.len + 63) / 64

/-- Replace a field of an entry. -/
def KvEnt.put (x : KvEnt) (lo n v : Nat) : KvEnt :=
  { x with raw := x.raw - field x.raw lo n * 2 ^ lo + v % 2 ^ n * 2 ^ lo }

/-- The entry of an index of a context's handle table. -/
def kvEntry (s : State) (owner i : Nat) : KvEnt :=
  let at_ := descWord s owner 0x30 + 32 * i
  { at_ := at_, raw := natOfBytes (memBytes s.mem at_ 32) }

/-- Write an entry. -/
def putKvEntry (x : KvEnt) (s : State) : State := { s with mem := memPut s.mem x.at_ (bytesOfNat 32 x.raw) }

/-- Check 1 of R159: the entry that a handle names. -/
def kvNamed (s : State) (e : EngEnv) (h : Nat) : Except EngErr KvEnt := do
  let owner := e.g.place.owner
  let i := field h 22 20
  let x := kvEntry s owner i
  need (field h 58 6 == e.g.place.dom && decide (i < descWord s owner 0x38)) 0x0A 0
  need (x.used && x.gen == field h 42 16) 0x0A 0
  pure x

/-- Whether an entry is well formed (check 2 of R159, but for the block numbers that are read). -/
def kvFormed (x : KvEnt) : Bool :=
  (x.fmt == 0xA || x.fmt == 3) && field x.raw 145 15 == 0 && field x.raw 119 9 == 0 && field x.raw 65 7 == 0
    && field x.raw 0 64 == 0 && decide (x.len ≤ 64 * x.nblk)

/-- Dereference a handle: checks 1 and 2 of R159. -/
def kvDeref (s : State) (e : EngEnv) (h : Nat) : Except EngErr KvEnt := do
  let x ← kvNamed s e h
  need (kvFormed x) 0x0A 0
  pure x

/-- Whether a number names a block of the pool. -/
def blockOk (p : Pool) (b : Nat) : Bool := decide (b < 2 ^ 24) && decide (b < p.nblocks)

/-- Block `k` of an entry's block list. -/
def kvBlock (s : State) (e : EngEnv) (p : Pool) (x : KvEnt) (k : Nat) : Except EngErr Nat := do
  let b ← kvWord s e .load x.blist (x.blist + 4 * k)
  need (blockOk p b) 0x0A 0
  pure b

/-- Some blocks of an entry's block list. -/
def kvBlocks (s : State) (e : EngEnv) (p : Pool) (x : KvEnt) : List Nat → Except EngErr (List Nat)
  | [] => .ok []
  | k :: ks => do
    let b ← kvBlock s e p x k
    let bs ← kvBlocks s e p x ks
    pure (b :: bs)

/-- The descriptor of a block. -/
def kvDesc (s : State) (e : EngEnv) (nd : Need) (p : Pool) (b : Nat) : Except EngErr Nat :=
  kvWord s e nd p.desc (p.desc + 4 * b)

/-- REF of a descriptor. -/
def refOf (d : Nat) : Nat := d / 2 ^ 20

/-- Set REF of a block, keeping the reserved bits. -/
def setRef (e : EngEnv) (p : Pool) (b : Nat) (f : Nat → Nat) (s : State) : State :=
  match kvDesc s e .load p b with
  | .ok d => kvStore e (p.desc + 4 * b) (d % 2 ^ 20 + f (refOf d) * 2 ^ 20) s
  | .error _ => s

/-- The pieces of a block, for an entry's format. -/
def blockPieces (s : State) (e : EngEnv) (nd : Need) (p : Pool) (x : KvEnt) (b : Nat) : Except EngErr (List Piece) := do
  need (p.base % 256 == 0) 0x03 p.base
  rangePieces s e false nd (blockVa p b) (128 * x.rowBytes)

/-! ## HLD and HST (R165, R334) -/

/-- The environment of the issuing path. -/
def pathEnv (s : State) : EngEnv := { gid := curGid s, g := curGroup s, mask := s.cur.mask, pc := s.cur.pc }

/-- The checks of one lane (R159, R334), the block number of a position inside the block list before the position: the place
and virtual address of its access. -/
def kvLane (s : State) (store : Bool) (n o : Nat) (h pos : Nat) : Except EngErr (Nat × Loc) := do
  let e := pathEnv s
  let x ← kvDeref s e h
  let p := poolOf s e.g.place.owner
  let b ← if pos < 64 * x.nblk then kvBlock s e p x (pos / 64) else pure 0
  need (decide (pos < field h 0 22) && decide (pos < x.len)) 0x0B 0
  let d := x.rowBytes
  need (decide (o + n ≤ 2 * d)) 0x0B 0
  let r := pos % 64
  let va := blockVa p b + (if o < d then r * d + o else (64 + r) * d + (o - d))
  if store then do
    let w ← kvDesc s e .load p b
    need (refOf w == 1) 0x05 va
  else pure ()
  need (p.base % 256 == 0) 0x03 p.base
  match placeOf s s.cur.core e.g va n (if store then .store else .load) with
  | .ok l => pure (va, l)
  | .error c => .error (c, va)

/-- The accesses of the acting lanes, or the fault of the lowest faulting lane. -/
def kvLanes (s : State) (store : Bool) (n o : Nat) (g : Group) (a b : Nat) : List Nat → Except LaneFault (List Acc)
  | [] => .ok []
  | l :: ls =>
    let f := getFibre g l
    match kvLane s store n o (getRegPair f a).toNat (getReg f b).toNat with
    | .error x => .error (x.1, x.2, l)
    | .ok x =>
      match kvLanes s store n o g a b ls with
      | .error y => .error y
      | .ok as => .ok ({ lane := l, loc := x.2, va := x.1, len := n } :: as)

/-- HLD: a load from the token record of each lane's position, counted on LD. -/
def execHld (g : Bool) (sz : Size) (d a b : VReg) (imm : BitVec 9) (s : State) : Host.Outcome State Fault Refusal :=
  let act := actMask g s
  let grp := curGroup s
  let n := sizeBytes sz
  let r := kvLanes s false n (imm.toNat * n) grp a.toNat b.toNat (lanesOf act)
  let op : Op := { seq := 0, cls := .ld, kind := .load sz, pc := 0, mask := 0, act := act, scope := .dev,
                   home := true, dest := d.toNat, dests := sizeRegs sz, accs := okAccs r }
  runPre (orPre (regPre true act { vr := regRange a.toNat 2 ++ [b.toNat], vw := regRange d.toNat (sizeRegs sz) } s)
      (opPre true op r .go s))
    (fun s => advance 8 (noteIssue 2 (issueOp op s))) s

/-- HST: a store into the token record of each lane's position, counted on ST; a twin copy stages it. -/
def execHst (g : Bool) (sz : Size) (a b c : VReg) (imm : BitVec 9) (s : State) : Host.Outcome State Fault Refusal :=
  let act := actMask g s
  let grp := curGroup s
  let n := sizeBytes sz
  let r := kvLanes s true n (imm.toNat * n) grp a.toNat b.toNat (lanesOf act)
  let data (l : Nat) : List Byte := laneData (getFibre grp l) c.toNat (sizeRegs sz) n
  let op : Op := { seq := 0, cls := .st, kind := .store, pc := 0, mask := 0, act := act, scope := .dev,
                   home := true, accs := withData (okAccs r) data }
  runPre (orPre (regPre true act { vr := regRange a.toNat 2 ++ [b.toNat] ++ regRange c.toNat (sizeRegs sz) } s)
      (opPre true op r .go s))
    (fun s =>
      let t := twinStage none op (noteAccs op.accs s)
      advance 8 (noteIssue 2 (issueOp t.1 t.2))) s

/-! ## Releasing blocks (R156, R160) -/

/-- Push a block number on the free stack. -/
def pushBlock (e : EngEnv) (b : Nat) (s : State) : State :=
  let p := poolOf s e.g.place.owner
  setTop p (p.top + 1) (kvStore e (p.stack + 4 * p.top) b s)

/-- Whether a running ATTN of a domain holds a block. -/
def blockHeld (s : State) (dom b : Nat) : Bool :=
  s.kv.attns.any fun a => a.dom == dom && a.blocks.any fun x => x.2.1 == b

/-- Release a block: to the free stack, or when the ATTNs that hold it complete. -/
def releaseBlock (e : EngEnv) (b : Nat) (s : State) : State :=
  if blockHeld s e.g.place.dom b then
    { s with kv := { s.kv with held := s.kv.held ++ [{ owner := e.g.place.owner, block := b }] } }
  else pushBlock e b s

/-! ## KVAPP, KVFORK, KVDROP (R161 to R164, R344) -/

/-- TWIN_ATOMIC in a copy of a twin-checked team (R281). -/
def needNoTwin (s : State) (e : EngEnv) : Except EngErr Unit := need (!twinCopy s e.g) 0x18 0

/-- The blocks that a pop of `n` takes, the top of the stack first. -/
def kvPops (s : State) (e : EngEnv) (p : Pool) : List Nat → Except EngErr (List Nat)
  | [] => .ok []
  | i :: is => do
    let b ← kvWord s e .load p.stack (p.stack + 4 * (p.top - 1 - i))
    need (blockOk p b) 0x0A 0
    let bs ← kvPops s e p is
    pure (b :: bs)

/-- Check the translations of some blocks and of their descriptors. -/
def kvCheck (s : State) (e : EngEnv) (nd : Need) (p : Pool) (x : KvEnt) : List Nat → Except EngErr Unit
  | [] => .ok ()
  | b :: bs => do
    let _ ← blockPieces s e nd p x b
    let _ ← kvDesc s e .atomic p b
    kvCheck s e nd p x bs

/-- Write bytes at a virtual address whose translation has been checked. -/
def kvWrite (e : EngEnv) (va : Nat) (bs : List Byte) (s : State) : State :=
  match rangePieces s e false .store va bs.length with
  | .ok ps => (writePieces [] (envWho e) ps bs s).2
  | .error _ => s

/-- The slices handle the reads of a range at acceptance (R116, R222). -/
def touchRange (e : EngEnv) (va n : Nat) (s : State) : State :=
  match rangePieces s e false .load va n with
  | .ok ps => (pieceLines ps).foldl (fun s p => match p.loc with
      | .glob pa home _ => reachHome (envWho e) pa p.len home s
      | .loc .. => s) s
  | .error _ => s

/-- Bytes at a virtual address whose translation has been checked. -/
def kvRead (s : State) (e : EngEnv) (va n : Nat) : List Byte :=
  match rangePieces s e false .load va n with
  | .ok ps => ownPieces s (coreOfGid e.gid) ps
  | .error _ => List.replicate n 0

/-- Copy the first tokens of a block into another: key rows, then value rows. -/
def copyTokens (e : EngEnv) (p : Pool) (x : KvEnt) (old new n : Nat) (s : State) : State :=
  let d := x.rowBytes
  [0, 64 * d].foldl (fun s off => kvWrite e (blockVa p new + off) (kvRead s e (blockVa p old + off) (n * d)) s) s

/-- Write a token record at a position of a block. -/
def putToken (e : EngEnv) (p : Pool) (x : KvEnt) (b r : Nat) (rec_ : List Byte) (s : State) : State :=
  let d := x.rowBytes
  kvWrite e (blockVa p b + (64 + r) * d) (rec_.drop d) (kvWrite e (blockVa p b + r * d) (rec_.take d) s)

/-- What KVAPP has decided at acceptance: its entry, the last block before it, whether that block is copied, and the
blocks popped. -/
structure AppPlan where
  ent : KvEnt
  n : Nat
  off : Nat
  last : Option Nat
  cow : Bool
  pops : List Nat

/-- The checks of KVAPP in the order of R344. -/
def kvappPlan (a b c : GReg) (e : EngEnv) (s : State) : Except EngErr AppPlan := do
  needNoTwin s e
  let h := uPair e a
  let x ← kvDeref s e h
  let p := poolOf s e.g.place.owner
  let n := uArg e c
  let off := uArg e b
  let last ← if x.len % 64 ≠ 0 then do
      let k ← kvBlock s e p x (x.blocks - 1)
      pure (some k)
    else pure none
  need (decide (n ≤ 4096) && decide (x.len + n ≤ field h 0 22) && decide (x.len + n ≤ 64 * x.nblk)) 0x0B 0
  need (off % 16 == 0) 0x03 off
  needLocal e.g off (n * (2 * x.rowBytes))
  let cow ← match last with
    | some k => do
      let d ← kvDesc s e .load p k
      pure (refOf d != 1 && n != 0)
    | none => pure false
  let fresh := (x.len + n + 63) / 64 - x.blocks + (if cow then 1 else 0)
  need (decide (fresh ≤ p.top)) 0x0C 0
  let pops ← kvPops s e p (List.range fresh)
  kvCheck s e .store p x (pops ++ (if cow || n == 0 then [] else last.toList))
  kvCheck s e .load p x (if cow then last.toList else [])
  if fresh = 0 then pure () else do
    need (x.blist % 4 == 0) 0x03 x.blist
    let _ ← rangePieces s e false .store x.blist (4 * ((x.len + n + 63) / 64))
    pure ()
  pure { ent := x, n := n, off := off, last := last, cow := cow, pops := pops }

/-- Copy on write: the first popped block takes the last block's tokens and its place in the list. -/
def kvCopy (e : EngEnv) (p : Pool) (x : KvEnt) (old new : Nat) (s : State) : State :=
  let s := copyTokens e p x old new (x.len % 64) s
  let s := setRef e p old (fun r => if r < 4095 then r - 1 else r) (setRef e p new (fun _ => 1) s)
  kvStore e (x.blist + 4 * (x.blocks - 1)) new s

/-- Append blocks to the list, each with REF 1. -/
def kvAppendBlocks (e : EngEnv) (p : Pool) (x : KvEnt) : Nat → List Nat → State → State
  | _, [], s => s
  | k, b :: bs, s => kvAppendBlocks e p x (k + 1) bs (kvStore e (x.blist + 4 * k) b (setRef e p b (fun _ => 1) s))

/-- The effect of KVAPP (R162): blocks popped, copied and appended, the records, then LEN. -/
def kvappDo (e : EngEnv) (q : AppPlan) (s : State) : State :=
  let p := poolOf s e.g.place.owner
  let s := if q.pops.isEmpty then s else setTop p (p.top - q.pops.length) s
  let s := match q.cow, q.last, q.pops with
    | true, some old, new :: _ => kvCopy e p q.ent old new s
    | _, _, _ => s
  let fresh := if q.cow then q.pops.drop 1 else q.pops
  let s := kvAppendBlocks e p q.ent q.ent.blocks fresh s
  let blk (k : Nat) : Nat := if k < q.ent.blocks then (if q.cow then q.pops.headD 0 else q.last.getD 0)
    else fresh.getD (k - q.ent.blocks) 0
  let d := 2 * q.ent.rowBytes
  let s := (List.range q.n).foldl (fun s i =>
    let pos := q.ent.len + i
    putToken e p q.ent (blk (pos / 64)) (pos % 64) (localRead s e.g.place.team (q.off + i * d) d) s) s
  putKvEntry (q.ent.put 96 23 (q.ent.len + q.n)) s

/-- KVAPP at acceptance. -/
def acceptKvapp (a b c : GReg) (e : EngEnv) (s : State) : Accept := do
  let q ← kvappPlan a b c e s
  let p := poolOf s e.g.place.owner
  let n := q.pops.length
  let s := touchRange e (p.stack + 4 * (p.top - n)) (4 * n) (touchRange e q.ent.blist (4 * q.ent.blocks) s)
  .ok ({ kind := .kvapp }, kvappDo e q s)

/-- The effect of KVFORK on the destination entry and the blocks' counts (R163). -/
def kvforkDo (e : EngEnv) (x y : KvEnt) (bs : List Nat) (s : State) : State :=
  let p := poolOf s e.g.place.owner
  let s := kvWrite e y.blist (bs.flatMap fun b => bytesOfNat 4 b) s
  let s := bs.foldl (fun s b => setRef e p b (fun r => min 4095 (r + 1)) s) s
  let y := (((y.put 96 23 x.len).put 72 8 (field x.raw 72 8)).put 160 32 (field x.raw 160 32)).put 80 16 (y.gen + 1)
  putKvEntry (y.put 64 1 1) s

/-- KVFORK at acceptance: c and c+1 receive the new handle and are pending until a WAIT covers it. -/
def acceptKvfork (a b c : GReg) (e : EngEnv) (s : State) : Accept := do
  needNoTwin s e
  let h := uPair e a
  let x ← kvDeref s e h
  let p := poolOf s e.g.place.owner
  let bs ← kvBlocks s e p x (List.range x.blocks)
  let i := uArg e b
  need (decide (i < descWord s e.g.place.owner 0x38)) 0x0A 0
  let y := kvEntry s e.g.place.owner i
  need (!y.used) 0x0A 0
  need (decide (x.blocks ≤ y.nblk)) 0x0B 0
  need (x.blocks == 0 || y.blist % 4 == 0) 0x03 y.blist
  let _ ← rangePieces s e false .store y.blist (4 * x.blocks)
  kvDescs s e p bs
  let new := field h 0 22 + 2 ^ 22 * i + 2 ^ 42 * ((y.gen + 1) % 2 ^ 16) + 2 ^ 58 * field h 58 6
  let s := kvforkDo e x y bs (touchRange e x.blist (4 * x.blocks) s)
  let s := modGroup s e.gid fun g => setU (setU g c.toNat (BitVec.ofNat 32 new)) (c.toNat + 1) (BitVec.ofNat 32 (new / 2 ^ 32))
  .ok ({ kind := .kvfork, dest := c.toNat, dests := 2 }, s)
where
  /-- Check the translations of the descriptors of some blocks. -/
  kvDescs (s : State) (e : EngEnv) (p : Pool) : List Nat → Except EngErr Unit
    | [] => .ok ()
    | b :: bs => do
      let _ ← kvDesc s e .atomic p b
      kvDescs s e p bs

/-- Give up one block of a dropped entry. -/
def kvUnref (e : EngEnv) (p : Pool) (b : Nat) (s : State) : State :=
  match kvDesc s e .load p b with
  | .error _ => s
  | .ok d =>
    let r := refOf d
    if r = 4095 then s
    else
      let s := setRef e p b (fun r => r - 1) s
      if r ≤ 1 then releaseBlock e b s else s

/-- KVDROP at acceptance (R164). -/
def acceptKvdrop (a : GReg) (e : EngEnv) (s : State) : Accept := do
  needNoTwin s e
  let x ← kvDeref s e (uPair e a)
  let p := poolOf s e.g.place.owner
  let bs ← kvBlocks s e p x (List.range x.blocks)
  let ds ← kvRefs s e p bs
  let freed := (ds.filter fun d => decide (refOf d ≤ 1)).length
  need (freed == 0 || p.stack % 4 == 0) 0x03 p.stack
  let _ ← rangePieces s e false .store (p.stack + 4 * p.top) (4 * freed)
  let s := putKvEntry ((x.put 64 1 0).put 80 16 (x.gen + 1)) (touchRange e x.blist (4 * x.blocks) s)
  .ok ({ kind := .kvdrop }, bs.foldl (fun s b => kvUnref e p b s) s)
where
  /-- The descriptors of some blocks. -/
  kvRefs (s : State) (e : EngEnv) (p : Pool) : List Nat → Except EngErr (List Nat)
    | [] => .ok []
    | b :: bs => do
      let d ← kvDesc s e .atomic p b
      let ds ← kvRefs s e p bs
      pure (d :: ds)

end Sys2Proof.Machine
end

