-- ==== Sys2Proof/Machine/Attn.lean ====
section
/-! DEFINITION. ATTN (R166 to R175, R308): acceptance by the key-value sequencer, the two phases in the slices with
their combination on network C, and completion. -/

namespace Sys2Proof.Machine

open Sys2Proof

/-! ## The mask (R168, R169) -/

/-- Whether a mask descriptor has a legal form. -/
def maskOk (v : Nat) : Bool :=
  field v 416 96 == 0 && field v 44 20 == 0 && field v 35 4 == 0 && decide (field v 32 3 ≤ 4)
    && decide (field v 384 32 ≤ 4096)

/-- The intervals in use, each with its start, its end and whether the end is relative. -/
def maskInts (v : Nat) : List (Int × Int × Bool) :=
  (List.range (field v 32 3)).map fun k =>
    (signedOf 32 (field v (64 * k + 64) 32), signedOf 32 (field v (64 * k + 96) 32), v.testBit (40 + k))

/-- The block-index table: the widest admission of each listed key block, or nothing for an illegal entry. -/
def maskTable (blocks : Nat) : List Word → KV Bool → Option (KV Bool)
  | [], m => some m
  | w :: ws, m =>
    let kb := field w.toNat 0 16
    if field w.toNat 16 15 ≠ 0 ∨ blocks ≤ kb then none
    else maskTable blocks ws (kvSet m kb (kvGetD m kb false || !w.getLsbD 31))

/-- Whether a position lies in one of some intervals, for a row at a position. -/
def inInts (ints : List (Int × Int × Bool)) (p j : Int) : Bool :=
  ints.isEmpty || ints.any fun x => decide (x.1 ≤ j) && decide (j < if x.2.2 then p + 1 + x.2.1 else x.2.1)

/-- Whether row `i` admits key `j` (R169). -/
def keyAdmitted (ints : List (Int × Int × Bool)) (listed : Option (KV Bool)) (qpos visible i j : Nat) : Bool :=
  let within := inInts ints (Int.ofNat (qpos + i)) (Int.ofNat j)
  decide (j < visible) && (match listed with
    | none => within
    | some m => match kvGet m (j / 64) with
      | none => false
      | some full => full || within)

/-- The key blocks that are not EMPTY. -/
def usedBlocks (ints : List (Int × Int × Bool)) (listed : Option (KV Bool)) (qpos visible : Nat) : List Nat :=
  (List.range ((visible + 63) / 64)).filter fun b =>
    (List.range 32).any fun i => (List.range 64).any fun r => keyAdmitted ints listed qpos visible i (64 * b + r)

/-! ## Acceptance (R160, R166, R308) -/

/-- The bytes of the O region of a mode (R167). -/
def attnRegion (mode d : Nat) (ty : Ty) : Nat :=
  match mode with
  | 1 => 0
  | 2 => 256 * d
  | _ => 32 * d * (tyBits ty / 8)

/-- The places of some key blocks: block list, block numbers and translations. -/
def attnBlocks (s : State) (e : EngEnv) (p : Pool) (x : KvEnt) : List Nat → Except EngErr (List (Nat × Nat × List Piece))
  | [] => .ok []
  | k :: ks => do
    let b ← kvBlock s e p x k
    let ps ← blockPieces s e .load p x b
    let rest ← attnBlocks s e p x ks
    pure ((k, b, ps) :: rest)

/-- The barrier of an ATTN, unless NB is set. -/
def attnBar (s : State) (e : EngEnv) (nb : Bool) (h : Nat) : Except EngErr (Option BarCap) :=
  if nb then .ok none else (engineBar s e.g h).map some

/-- What acceptance of modes 0 to 2 reads: the query block and the mask with its table. -/
structure AttnMask where
  query : List Byte
  qpos : Nat
  ints : List (Int × Int × Bool)
  listed : Option (KV Bool)
  bad : Option Nat
  st : State

/-- The block-index table of a mask. -/
def attnTable (e : EngEnv) (v visible : Nat) (s : State) : Except EngErr (Option (KV Bool) × Option Nat × State) := do
  if v.testBit 39 then do
    let va := field v 320 64
    need (va % 4 == 0) 0x03 va
    let ps ← rangePieces s e false .load va (4 * field v 384 32)
    let r := acceptRead e ps s
    let m ← needSome (maskTable ((visible + 63) / 64) (wordsOfBytes r.bytes) []) 0x0B 0
    pure (some m, r.bad, r.st)
  else pure (none, none, s)

/-- The query block and the mask at acceptance. -/
def attnMask (e : EngEnv) (q m d visible : Nat) (s : State) : Except EngErr AttnMask := do
  needLocal e.g q (64 * d)
  needLocal e.g m 64
  let v := natOfBytes (localRead s e.g.place.team m 64)
  need (maskOk v) 0x0B 0
  let t ← attnTable e v visible s
  pure { query := localRead s e.g.place.team q (64 * d), qpos := field v 0 32, ints := maskInts v, listed := t.1,
         bad := t.2.1, st := t.2.2 }

/-- The ATTN that an entry and operands make, before its mask and blocks. -/
def attnBase (e : EngEnv) (x : KvEnt) (mode : Nat) (ty : Ty) (c : Word) (visible : Nat) : Attn :=
  { id := 0, gid := e.gid, seq := 0, pc := e.pc, mask := e.mask, bar := none, team := e.g.place.team,
    owner := e.g.place.owner, dom := e.g.place.dom, mode := mode, ty := ty, scale := c, d := x.dim, fmt := x.fmt,
    ks := field x.raw 160 8, vs := field x.raw 168 8, vexp := x.vexp, visible := visible, query := [], qpos := 0,
    ints := [], listed := none, blocks := [], out := [], src := [] }

/-- The checks of an ATTN of modes 0 to 2, in order. -/
def attnScores (mode : Nat) (ty : Ty) (nb : Bool) (a b c : GReg) (e : EngEnv) (s : State) :
    Except EngErr (Attn × Option Nat × State) := do
  let h := uPair e a
  let x ← kvDeref s e h
  let out := uPair e c
  need (uArg e b % 16 == 0) 0x03 (uArg e b)
  need (uNext e b 1 % 64 == 0) 0x03 (uNext e b 1)
  need (out % 64 == 0) 0x03 out
  let visible := min x.len (field h 0 22)
  let m ← attnMask e (uArg e b) (uNext e b 1) x.dim visible s
  let bs ← attnBlocks s e (poolOf s e.g.place.owner) x (usedBlocks m.ints m.listed m.qpos visible)
  let n := attnRegion mode x.dim ty
  let ps ← rangePieces s e false .store out (n + 640)
  let _ ← if mode = 2 then rangePieces s e false .load (out + n) 256 else pure []
  let bar ← attnBar s e nb (uNext e b 3)
  pure ({ attnBase e x mode ty (getU e.g (b.toNat + 2)) visible with
            bar := bar, query := m.query, qpos := m.qpos, ints := m.ints, listed := m.listed, blocks := bs, out := ps },
        m.bad, notePieces e (ps ++ bs.flatMap fun k => k.2.2) (touchRange e x.blist (4 * ((visible + 63) / 64)) m.st))

/-- The checks of an ATTN of mode 3, in order. -/
def attnFinish (ty : Ty) (nb : Bool) (a b c : GReg) (e : EngEnv) (s : State) :
    Except EngErr (Attn × Option Nat × State) := do
  let x ← kvDeref s e (uPair e a)
  let out := uPair e c
  let src := uPair e b
  need (out % 64 == 0) 0x03 out
  need (src % 64 == 0) 0x03 src
  let ps ← rangePieces s e false .store out (attnRegion 3 x.dim ty + 640)
  let qs ← rangePieces s e false .load src (256 * x.dim + 640)
  let bar ← attnBar s e nb (uNext e b 3)
  pure ({ attnBase e x 3 ty 0 0 with bar := bar, out := ps, src := qs }, none, notePieces e (ps ++ qs) s)

/-- Accept an ATTN, or trap: TL rises, the sequencer holds its blocks, and its signers go on. -/
def acceptAttn (e : EngEnv) (r : Except EngErr (Attn × Option Nat × State)) (s : State) : State :=
  match r with
  | .error f => engineTrap e.gid e.mask e.pc f s
  | .ok (a, bad, s) =>
    let (id, s) := freshId s
    let (seq, s) := countTl e id { kind := .kvapp, bad := bad } s
    resumeLanes e.gid e.mask (e.pc + 8)
      { s with kv := { s.kv with attns := s.kv.attns ++ [{ a with id := id, seq := seq }] } }

/-! ## Rows of numbers -/

/-- The power of two of the units of a block's exact elements: no BF16 or E4M3 number has a smaller one. -/
def attnUnit : Int := -133

/-- A row of elements. -/
def attnRow (f : FFmt) (bs : List Byte) (n : Nat) : List FVal :=
  let w := f.bits / 8
  (List.range n).map fun i => fval f (natOfBytes ((bs.drop (w * i)).take w))

/-- The exact integers of a row, an infinity or a NaN counted as 0. -/
def attnInts (xs : List FVal) : List Int :=
  xs.map fun x => match x with
    | .fin neg m e => scaledInt neg m e attnUnit
    | _ => 0

/-- A key of a block: its position, its key and value rows, and whether one of them holds an infinity or a NaN. -/
structure KeyRec where
  j : Nat
  key : List Int
  val : List Int
  bad : Bool

/-- The element format of an ATTN's blocks. -/
def attnFmt (a : Attn) : FFmt := if a.fmt = 0xA then e4m3 else bf16

/-- The bytes of a key row. -/
def attnRowBytes (a : Attn) : Nat := a.d * (if a.fmt = 0xA then 1 else 2)

/-- The visible keys of a block. -/
def attnKeys (a : Attn) (kb : Nat) (bs : List Byte) : List KeyRec :=
  let n := attnRowBytes a
  ((List.range 64).filter fun r => decide (64 * kb + r < a.visible)).map fun r =>
    let k := attnRow (attnFmt a) (bs.drop (r * n)) a.d
    let v := attnRow (attnFmt a) (bs.drop ((64 + r) * n)) a.d
    { j := 64 * kb + r, key := attnInts k, val := attnInts v, bad := k.any notFinite || v.any notFinite }

/-- Row `i` of the query block. -/
def attnQuery (a : Attn) (i : Nat) : List FVal := attnRow bf16 (a.query.drop (2 * a.d * i)) a.d

/-- Whether every term of a row is poisoned: by its query, by c, or by a scale of 255 (R172). -/
def attnRowBad (a : Attn) (i : Nat) : Bool :=
  (attnQuery a i).any notFinite || notFinite (fval fp32 a.scale.toNat) || a.ks == 255 || a.vs == 255

/-- Whether a row admits a key. -/
def attnAdmits (a : Attn) (i j : Nat) : Bool := keyAdmitted a.ints a.listed a.qpos a.visible i j

/-- Whether a row admits no key. -/
def attnEmpty (a : Attn) (i : Nat) : Bool :=
  a.blocks.all fun b => (List.range 64).all fun r => !attnAdmits a i (64 * b.1 + r)

/-- Saturate a score. -/
def saturate (x : Int) : Int := max (-(2 ^ 62)) (min (2 ^ 62) x)

/-- The score of a query row and a key row (R170). -/
def attnScore (a : Attn) (q k : List Int) : Int :=
  match fval fp32 a.scale.toNat with
  | .fin neg m e =>
    let dot := ((q.zip k).map fun p => p.1 * p.2).foldl (fun u v => u + v) 0
    let v := dot * (if neg then -Int.ofNat m else Int.ofNat m)
    saturate (roundInt .rn (decide (v < 0)) v.natAbs (2 * attnUnit + Int.ofNat a.ks - 127 + e + 24)).1
  | _ => 0

/-- The terms of a row over some keys: each with its score, or nothing where it is poisoned. -/
def attnTerms (a : Attn) (i : Nat) (ks : List KeyRec) : List (Option (Int × KeyRec)) :=
  let q := attnInts (attnQuery a i)
  let bad := attnRowBad a i
  (ks.filter fun k => attnAdmits a i k.j).map fun k => if bad || k.bad then none else some (attnScore a q k.key, k)

/-! ## Network C (R170 to R172, R272) -/

/-- The home slice of a block's first byte (R155). -/
def blockSlice (ps : List Piece) : Nat :=
  match ps with
  | { loc := .glob pa _ _, .. } :: _ => sliceOf pa
  | _ => 0

/-- The slices that hold an ATTN's blocks. -/
def attnSlices (a : Attn) : List Nat := (List.range 48).filter fun x => a.blocks.any fun b => blockSlice b.2.2 == x

/-- The operation of an ATTN, as an agent that reads and writes. -/
def attnCmd (a : Attn) : Cmd :=
  { id := a.id, gid := a.gid, seq := a.seq, team := a.team, owner := a.owner, mask := a.mask, pc := a.pc, kind := .kvapp }

/-- The blocks that a slice has still to read in the phase that goes on. -/
def sliceTodo (a : Attn) (x : Nat) : List (Nat × Nat × List Piece) :=
  a.blocks.filter fun b => blockSlice b.2.2 == x && !a.finished.contains b.1

/-- The visible keys of some blocks. -/
def blockKeys (a : Attn) (bs : List (Nat × Nat × List Piece)) (s : State) : List KeyRec × State :=
  bs.foldl (fun (r : List KeyRec × State) b =>
    let y := cmdRead (attnCmd a) true b.2.2 r.2
    (r.1 ++ attnKeys a b.1 y.1, y.2)) ([], s)

/-- Flag bits of rows, CLAMP and POISON, as one number. -/
def rowFlags (clamp poison : Nat → Bool) : Nat :=
  (List.range 32).foldl (fun n i => n + (if clamp i then 2 ^ (2 * i) else 0) + (if poison i then 2 ^ (2 * i + 1) else 0)) 0

/-- How many packets carry some elements: a packet holds up to 64 (R263). -/
def packetsOf (n : Nat) : Nat := (n + 63) / 64

/-- One packet of a part of an ATTN's reduction, from a slice to the cluster of the issuing core. -/
def attnPacket (a : Attn) (x phase : Nat) (elems : List (BitVec 64)) (flags : Nat) (s : State) (i : Nat) : State :=
  let es := (elems.drop (64 * i)).take 64
  let p : Packet := { id := s.nextId, net := .c, src := .slice x, dst := .cluster (clusterOfCore (coreOfGid a.gid)),
                      len := 1 + (es.length + 7) / 8, tag := some (.attn a.id phase i), op := phase, elems := es, flags := flags }
  { s with net := inject p s.net, nextId := s.nextId + 1 }

/-- The packets of an ATTN's reduction from a slice. -/
def attnPackets (a : Attn) (x phase : Nat) (elems : List (BitVec 64)) (flags : Nat) (s : State) : State :=
  (List.range (packetsOf elems.length)).foldl (attnPacket a x phase elems flags) s

/-- The maximum of a row's terms, −2^63 when it has none (R170). -/
def rowMax (ts : List (Option (Int × KeyRec))) : Int :=
  ts.foldl (fun m t => match t with | some x => max m x.1 | none => m) (-(2 ^ 63))

/-- Phase 1 over some keys: the rows' maxima, and POISON. -/
def scoreElems (a : Attn) (ks : List KeyRec) : List (BitVec 64) × Nat :=
  let rows := (List.range 32).map fun i => attnTerms a i ks
  (rows.map fun ts => BitVec.ofInt 64 (rowMax ts),
   rowFlags (fun _ => false) fun i => (rows.getD i []).any fun t => t.isNone)

/-- The weight p of a term t − M (R171): 2^((t − M)·2^−24) in units of 2^−24. -/
def attnWeight (x : Int) : Nat :=
  if x < -(25 * 2 ^ 24) then 0
  else
    let fr := (x % 2 ^ 24).toNat
    let r := exp2Bits ((List.range 24).map fun i => fr.testBit i) (2 ^ 128)
    (roundInt .rn false (2 * r + (if fr = 0 then 0 else 1)) (x / 2 ^ 24 + 24 - 129)).1.toNat

/-- One term of an output, with whether it was clamped (R171). -/
def attnUnits (a : Attn) (p : Nat) (v : Int) : Int × Bool :=
  let y := floorAt (decide (v < 0)) (p * v.natAbs) (attnUnit - 24 + Int.ofNat a.vs - 127) a.vexp
  if unitsOk y then (y, false) else (clampedUnits y, true)

/-- What a row sums to in one slice: l, o and CLAMP. -/
structure RowSum where
  l : Nat := 0
  o : List (BitVec 64)
  clamp : Bool := false

/-- Add one term to a row (R171). -/
def attnAddTerm (a : Attn) (m : Int) (r : RowSum) (t : Int × KeyRec) : RowSum :=
  let x := min t.1 m - m
  let p := attnWeight x
  let ys := t.2.val.map (attnUnits a p)
  { l := r.l + p, o := (r.o.zip ys).map fun e => exactAdd e.1 e.2.1,
    clamp := r.clamp || decide (m < t.1) || (p != 0 && ys.any fun y => y.2) }

/-- A row of phase 2 in one slice. -/
def sumRow (a : Attn) (m : Int) (ts : List (Option (Int × KeyRec))) : RowSum :=
  (ts.filterMap id).foldl (attnAddTerm a m) { o := List.replicate a.d 0 }

/-- Phase 2 over some keys: l and o by row, CLAMP and POISON. -/
def sumElems (a : Attn) (ks : List KeyRec) : List (BitVec 64) × Nat :=
  let terms := (List.range 32).map fun i => attnTerms a i ks
  let rows := (terms.zip a.maxima).map fun e => sumRow a e.2 e.1
  ((rows.map fun w => BitVec.ofNat 64 w.l) ++ rows.flatMap fun w => w.o,
   rowFlags (fun i => match rows[i]? with | some w => w.clamp | none => false)
     fun i => (terms.getD i []).any fun t => t.isNone)

/-- Combine the elements of two packets (R272). -/
def combineElems (op : Nat) (xs ys : List (BitVec 64)) : List (BitVec 64) :=
  (xs.zip ys).map fun p => if op = 0 then (if p.1.slt p.2 then p.2 else p.1) else p.1 + p.2

/-- The operation of the phase that goes on: maximum in phase 1, addition in phase 2. -/
def phaseOp (a : Attn) : Nat := if a.step = .accepted then 0 else 1

/-- What a slice finds in some keys in the phase that goes on, with what it had found before it stopped (R175). -/
def slicePart (a : Attn) (x : Nat) (ks : List KeyRec) : List (BitVec 64) × Nat :=
  let new := if a.step = .accepted then scoreElems a ks else sumElems a ks
  match kvGet a.parts x with
  | some old => (combineElems (phaseOp a) old.1 new.1, old.2 ||| new.2)
  | none => new

/-- A slice reads the blocks that it has left and sends its part. -/
def sliceSend (a : Attn) (s : State) (x : Nat) : State :=
  let r := blockKeys a (sliceTodo a x) s
  let p := slicePart a x r.1
  attnPackets a x (phaseOp a) p.1 p.2 r.2

/-- OR a packet's flags into the FLAGS words. -/
def orFlags (fs : List Nat) (flags : Nat) : List Nat :=
  (fs.zip (List.range fs.length)).map fun e => e.1 ||| field flags (2 * e.2) 2

/-- Add elements to those of a list from a place on. -/
def addElems (i : Nat) (xs ys : List (BitVec 64)) : List (BitVec 64) :=
  xs.take i ++ combineElems 1 (xs.drop i) ys ++ xs.drop (i + ys.length)

/-- The part of a reduction that a packet carries. -/
def packetPart (p : Packet) : Nat :=
  match p.tag with
  | some (.attn _ _ i) => i
  | _ => 0

/-- One packet arrives at its ATTN. -/
def absorb (a : Attn) (p : Packet) : Attn :=
  let a := { a with flags := orFlags a.flags p.flags, got := a.got + p.count }
  if p.op = 0 then
    { a with maxima := ((a.maxima.map fun m => BitVec.ofInt 64 m) |> fun ms => combineElems 0 ms p.elems).map BitVec.toInt }
  else
    let all := addElems (64 * packetPart p) ((a.sums.map fun n => BitVec.ofNat 64 n) ++ a.outs) p.elems
    { a with sums := (all.take 32).map BitVec.toNat, outs := all.drop 32 }

/-- Whether a packet belongs to an ATTN. -/
def isAttnPacket (id : Nat) (p : Packet) : Bool :=
  match p.tag with
  | some (.attn i _ _) => i == id
  | _ => false

/-- Store an ATTN. -/
def putAttn (a : Attn) (s : State) : State :=
  { s with kv := { s.kv with attns := s.kv.attns.map fun b => if b.id = a.id then a else b } }

/-- The packets of an ATTN that have reached its cluster are taken in (R272). -/
def attnArrive (a : Attn) (s : State) : State :=
  let mine (p : Packet) : Bool := p.landed && isAttnPacket a.id p
  let a := (s.net.packets.filter mine).foldl absorb a
  putAttn a { s with net := { s.net with packets := s.net.packets.filter fun p => !mine p } }

/-- Whether an ATTN has packets on their way (it stops once these have arrived, DEDUCED; log 13). -/
def attnTravels (s : State) (id : Nat) : Bool := s.net.packets.any fun p => !p.landed && isAttnPacket id p

/-! ## The events -/

/-- The ATTN with a number, while its group is resident. -/
def findAttn (s : State) (id : Nat) : Option Attn :=
  s.kv.attns.find? fun a => a.id == id && kvHas s.groups a.gid && (getGroup s a.gid).place.team == a.team

/-- The ATTN with a number, with what has arrived for it. -/
def arrivedAttn (id : Nat) (s : State) : Option Attn × State :=
  match findAttn s id with
  | none => (none, s)
  | some a => let s := attnArrive a s; (findAttn s id, s)

/-- Phase 1: the slices score the admitted keys (R170). -/
def attnPhase1 (a : Attn) (s : State) : State :=
  let zero : List Nat := List.replicate 32 0
  let b := { a with step := .scored, finished := [], parts := [], maxima := List.replicate 32 (-(2 ^ 63)), flags := zero,
                    got := 0 }
  (attnSlices a).foldl (sliceSend a) (putAttn b s)

/-- The maxima of phase 2: those given in the tail of the output area in mode 2 (R167), as phase 2 found them when it
began. -/
def attnGiven (a : Attn) (s : State) : List Int × State :=
  if a.mode = 2 ∧ a.begun = false then
    let x := cmdRead (attnCmd a) true (cutPieces a.out (attnRegion 2 a.d a.ty) 256) s
    ((List.range 32).map fun i => signedOf 64 (natOfBytes ((x.1.drop (8 * i)).take 8)), x.2)
  else (a.maxima, s)

/-- Phase 2: the slices form p, l and o (R171). -/
def attnPhase2 (a : Attn) (s : State) : State :=
  let x := attnGiven a s
  let zeros : List (BitVec 64) := List.replicate (32 * a.d) 0
  let a := { a with maxima := x.1 }
  let b := { a with step := .summed, finished := [], parts := [], sums := List.replicate 32 0, outs := zeros, got := 0 }
  (attnSlices a).foldl (sliceSend a) (putAttn b x.2)

/-- A slice stops at a key-block boundary of the phase that goes on (R175): how many of its blocks it has finished is open
(log 10). -/
def stopSlice (r : Attn × State) (x : Nat) : Attn × State :=
  let a := r.1
  let todo := sliceTodo a x
  let done := todo.take ((Config.freeDWord r.2.free).toNat % (todo.length + 1))
  let y := blockKeys a done { r.2 with free := r.2.free + 1 }
  ({ a with finished := a.finished ++ done.map fun b => b.1, parts := kvSet a.parts x (slicePart a x y.1) }, y.2)

/-- An ATTN whose next phase is due stops where its slices stand, with their partial results (R175, R252). -/
def attnStop (a : Attn) (s : State) : State :=
  if a.mode = 3 ∨ a.step = .summed ∨ (a.step = .scored ∧ a.mode = 1) then s
  else
    let g := if a.step = .scored then attnGiven a s else (a.maxima, s)
    let r := (attnSlices a).foldl stopSlice ({ a with maxima := g.1, begun := a.step == .scored }, g.2)
    putAttn r.1 r.2

/-- The FLAGS word of a row at completion: EMPTY and POISON of R172 added. -/
def attnFlags (a : Attn) (i : Nat) : Nat :=
  a.flags.getD i 0 ||| (if attnRowBad a i then 2 else 0) ||| (if attnEmpty a i then 4 else 0)

/-- A row of O (R171, R172). -/
def outRow (ty : Ty) (vexp : Int) (flags l : Nat) (os : List Int) : List Byte :=
  match fmtOfTy ty with
  | none => []
  | some f => os.flatMap fun o => bytesOfNat (f.bits / 8)
      (if flags.testBit 1 then f.nan
       else if flags.testBit 2 || l == 0 then 0
       else
         let k := vexp + 24
         (roundRat f .rn (decide (o < 0)) (o.natAbs * 2 ^ k.toNat) (l * 2 ^ (-k).toNat)).code)

/-- The bytes of 64-bit values. -/
def bytes64 (xs : List Int) : List Byte := xs.flatMap fun x => bytesOfNat 8 (unsignedOf 64 x)

/-- The bytes of FLAGS. -/
def bytesFlags (xs : List Nat) : List Byte := xs.flatMap (bytesOfNat 4)

/-- Row `i` of o. -/
def rowOuts (d : Nat) (outs : List Int) (i : Nat) : List Int := (outs.drop (d * i)).take d

/-- What modes 0 to 2 write: the pieces and their bytes. -/
def attnWrites (a : Attn) : List (List Piece × List Byte) :=
  let n := attnRegion a.mode a.d a.ty
  let fs := (List.range 32).map (attnFlags a)
  let ls := a.sums.map Int.ofNat
  let os := a.outs.map BitVec.toInt
  match a.mode with
  | 0 => [(a.out, ((List.range 32).flatMap fun i => outRow a.ty a.vexp (fs.getD i 0) (a.sums.getD i 0) (rowOuts a.d os i))
            ++ bytes64 a.maxima ++ bytes64 ls ++ bytesFlags fs)]
  | 1 => [(a.out, bytes64 a.maxima ++ List.replicate 256 0 ++ bytesFlags fs)]
  | _ => [(cutPieces a.out 0 n, bytes64 os), (cutPieces a.out (n + 256) 384, bytes64 ls ++ bytesFlags fs)]

/-- The FLAGS that mode 3 copies: a row of l = 0 is EMPTY (R172). -/
def finishFlags (flags l : Nat) : Nat := if l = 0 ∧ flags.testBit 1 = false ∧ flags.testBit 2 = false then flags ||| 4 else flags

/-- What mode 3 writes, from the area it reads. -/
def finishBytes (a : Attn) (raw : List Byte) : List Byte :=
  let at_ (n i : Nat) : Nat := natOfBytes ((raw.drop i).take n)
  let t := 256 * a.d
  let ls := (List.range 32).map fun i => at_ 8 (t + 256 + 8 * i)
  let fs := (List.range 32).map fun i => finishFlags (at_ 4 (t + 512 + 4 * i)) (ls.getD i 0)
  let os := (List.range (32 * a.d)).map fun i => signedOf 64 (at_ 8 (8 * i))
  ((List.range 32).flatMap fun i => outRow a.ty a.vexp (fs.getD i 0) (ls.getD i 0) (rowOuts a.d os i))
    ++ (raw.drop t).take 512 ++ bytesFlags fs

/-- The sectors that an ATTN's barrier counts (R173). -/
def attnSectors (a : Attn) : Nat := attnRegion a.mode a.d a.ty / 32 + 20

/-- The environment in which a domain's blocks are pushed. -/
def heldEnv (a : Attn) (h : HeldBlock) : EngEnv :=
  { gid := a.gid, g := { place := { owner := h.owner, dom := a.dom } }, mask := a.mask, pc := a.pc }

/-- Push the blocks that waited for ATTNs that have now completed (R160). -/
def releaseHeld (a : Attn) (s : State) : State :=
  let free (h : HeldBlock) : Bool := (getCtx s h.owner).dom == a.dom && !blockHeld s a.dom h.block
  let hs := s.kv.held.filter free
  hs.foldl (fun s h => pushBlock (heldEnv a h) h.block s)
    { s with kv := { s.kv with held := s.kv.held.filter fun h => !free h } }

/-- Completion: the output area, the barrier's sectors, TL, and the references dropped (R173). -/
def attnFinal (a : Attn) (s : State) : State :=
  let x := if a.mode = 3 then cmdRead (attnCmd a) true a.src s else ([], s)
  let ws := if a.mode = 3 then [(a.out, finishBytes a x.1)] else attnWrites a
  let bad := ws.any fun w => (pieceLines w.1).any fun p => (accessFails x.2 (cmdReader s (attnCmd a)).lost p.loc).isSome
  let s := ws.foldl (fun s w => cmdWrite (attnCmd a) w.1 w.2 s) x.2
  let lines := (ws.flatMap fun w => pieceLines w.1).filterMap fun p => match p.loc with
    | .glob pa _ _ => some (lineOf pa)
    | .loc .. => none
  let s := cmdLanding a.team a.bar (cmdArrival (attnCmd a) (attnSectors a) bad lines.eraseDups) s
  let s := finishTl a.gid a.seq { s with kv := { s.kv with attns := s.kv.attns.filter fun b => b.id != a.id } }
  releaseHeld a s

/-- How many packets each slice sends in the phase that has begun. -/
def attnParts (a : Attn) : Nat := if a.step = .scored then packetsOf 32 else packetsOf (32 + 32 * a.d)

/-- Whether every slice's part has arrived. -/
def attnAll (a : Attn) : Bool := a.got == (attnSlices a).length * attnParts a

/-- Whether an ATTN may complete: its last phase is whole, and a twin copy's operations before it are (R281). -/
def attnDone (s : State) (a : Attn) : Bool :=
  !twinBlocks s a.gid a.seq && match a.mode, a.step with
    | 3, .accepted => true
    | 1, .scored => attnAll a
    | 0, .summed => attnAll a
    | 2, .summed => attnAll a
    | _, _ => false

/-- Whether an ATTN may begin a phase: in the drain of a fatal context it stops (R252). -/
def attnGoes (s : State) (a : Attn) : Bool := (getCtx s a.owner).fatal.isNone

/-- ATTN_PHASE1 (R170). -/
def execAttnPhase1 (id : Nat) (s : State) : Host.Outcome State Fault Refusal :=
  match findAttn s id with
  | none => .next s
  | some a => .next (if a.step = .accepted ∧ a.mode ≠ 3 ∧ attnGoes s a then attnPhase1 a s else s)

/-- ATTN_PHASE2 (R171): once the maxima have met on network C. -/
def execAttnPhase2 (id : Nat) (s : State) : Host.Outcome State Fault Refusal :=
  match arrivedAttn id s with
  | (some a, t) => .next (if a.step = .scored ∧ a.mode ≠ 1 ∧ attnAll a ∧ attnGoes t a then attnPhase2 a t else s)
  | (none, _) => .next s

/-- What ATTN_COMPLETE does (R173). -/
def attnComplete (id : Nat) (s : State) : State :=
  match arrivedAttn id s with
  | (some a, t) => if attnDone t a then attnFinal a t else s
  | (none, _) => s

end Sys2Proof.Machine
end

