-- ==== Sys2Proof/Machine/Routes.lean ====
section
/-! DEFINITION. Routed tiles (R197 to R209, R364 to R367, R388): the route table, ROUTE, its pairs and the route overflow
ring, returns and drop notices, timeouts and completion, RTBIND, RTRD and RTRET. -/

namespace Sys2Proof.Machine

open Sys2Proof

/-! ## The route table (R197, R198) -/

/-- CAP. -/
def rtCap (e : DWord) : Nat := field e.toNat 0 16
/-- INFL. -/
def rtInfl (e : DWord) : Nat := field e.toNat 16 16
/-- CLU. -/
def rtClu (e : DWord) : Nat := field e.toNat 40 6
/-- HID. -/
def rtHid (e : DWord) : Nat := field e.toNat 46 8

/-- An entry with another INFL. -/
def withInfl (e : DWord) (n : Nat) : DWord := (e &&& ~~~(0xFFFF0000 : DWord)) ||| BitVec.ofNat 64 (n % 2 ^ 16 * 2 ^ 16)

/-- A team's entry of a routing value. -/
def rtEntry (s : State) (team v : Nat) : DWord := kvGetD (getTeam s team).routeTab v 0

/-- Change INFL of a value. -/
def bumpInfl (team v : Nat) (f : Nat → Nat) (s : State) : State :=
  modTeam s team fun t =>
    let e := kvGetD t.routeTab v 0
    { t with routeTab := kvSet t.routeTab v (withInfl e (f (rtInfl e))) }

/-- RTBIND's effect: HID, CLU and CAP; INFL stays. -/
def applyRtbind (c : Cmd) (v : Nat) (e : DWord) (s : State) : State :=
  modTeam s c.team fun t => { t with routeTab := kvSet t.routeTab v (withInfl e (rtInfl (kvGetD t.routeTab v 0))) }

/-- A team's entry after every RTBIND accepted so far. -/
def rtEntryAfter (s : State) (core team v : Nat) : DWord :=
  (engOf s core).cmds.foldl (fun r c => match c.kind with
    | .rtbind w e => if c.team = team ∧ w = v then withInfl e (rtInfl r) else r
    | _ => r) (rtEntry s team v)

/-- Whether a cluster is present in the part. -/
def clusterThere (s : State) (c : Nat) : Bool := s.dev.clusterMask.getLsbD c

/-- RTBIND at acceptance. -/
def acceptRtbind (a b : GReg) (e : EngEnv) (s : State) : Accept := do
  let v := uArg e a
  let x := uPair e b
  need (decide (v < 256) && field x 54 10 == 0 && field x 16 24 == 0 && clusterThere s (field x 40 6)) 0x14 0
  .ok ({ kind := .rtbind v (BitVec.ofNat 64 x), uses := [(.route, true)] }, s)

/-! ## Entries -/

/-- The reassembly entry of a core with a number. -/
def getEnt (s : State) (core n : Nat) : Option RouteEnt := kvGet (engOf s core).ents n

/-- Change an entry. -/
def modEnt (core n : Nat) (f : RouteEnt → RouteEnt) (s : State) : State :=
  modEng core (fun x => { x with ents := kvMod x.ents n f }) s

/-- Change a pair of an entry. -/
def setPair (x : RouteEnt) (i : Nat) (st : PairSt) : RouteEnt :=
  { x with pairs := (x.pairs.zip (List.range x.pairs.length)).map fun p => if p.2 = i then { p.1 with st := st } else p.1 }

/-- Change the counts of a row. -/
def modRow (x : RouteEnt) (row : Nat) (f : RowCount → RowCount) : RouteEnt :=
  { x with rows := (x.rows.zip (List.range x.rows.length)).map fun r => if r.2 = row then f r.1 else r.1 }

/-- The pair of an entry that is a row's slot. -/
def pairAt (x : RouteEnt) (row slot : Nat) : Option (Nat × RPair) :=
  ((List.range x.pairs.length).zip x.pairs).find? fun p => p.2.row == row && p.2.slot == slot

/-- Resolve a pair as a drop (R202). -/
def dropPair (x : RouteEnt) (i row : Nat) : RouteEnt :=
  modRow (setPair x i .ended) row fun r => { r with drop := r.drop + 1, exp := r.exp - 1 }

/-- The status word of a row (R207). -/
def rowStatus (r : RowCount) : Nat :=
  r.recv % 8 + 2 ^ 4 * (r.drop % 8) + 2 ^ 8 * (r.miss % 8) + 2 ^ 12 * (r.exp % 8)
    + (if r.recv = r.exp ∧ r.drop = 0 ∧ r.miss = 0 ∧ r.masked = false then 2 ^ 16 else 0)

/-- The status words of an entry. -/
def entWords (x : RouteEnt) : List Nat := x.rows.map rowStatus

/-- The validity mask of status words. -/
def validMask (ws : List Nat) : Nat :=
  (ws.zip (List.range ws.length)).foldl (fun n w => if w.1.testBit 16 then n + 2 ^ w.2 else n) 0

/-! ## ROUTE at acceptance (R199, R200) -/

/-- The bytes of a row's element. -/
def rowSize (b16 : Bool) : Nat := if b16 then 2 else 4

/-- The operands of a ROUTE. -/
structure RouteArgs where
  bf16 : Bool
  pol : Policy
  k : Nat
  h : Bool
  nb : Bool
  rv : Bool
  t : Nat
  src : Nat
  stage : Nat
  ctl : Nat
  bar : Nat
  tmo : Nat
  c : Nat
  v : Nat

/-- The pitch of a ROUTE's source rows. -/
def RouteArgs.pitch (r : RouteArgs) : Nat := field r.ctl 0 16
/-- L. -/
def RouteArgs.len (r : RouteArgs) : Nat := field r.ctl 16 7 + 1
/-- The bytes of a row. -/
def RouteArgs.bytes (r : RouteArgs) : Nat := r.len * rowSize r.bf16
/-- S, the distance of staged rows. -/
def stageStep (bytes : Nat) : Nat := (bytes + 63) / 64 * 64

/-- The pairs of a row: its slots below k whose weight is not a zero. -/
def rowPairs (f : Fibre) (v k row : Nat) : List RPair :=
  let vals := (getReg f v).toNat
  let ws := (getReg f (v + 1)).toNat + 2 ^ 32 * (getReg f (v + 2)).toNat
  ((List.range k).map fun i => ({ row := row, slot := i, value := field vals (8 * i) 8, weight := field ws (16 * i) 16 } : RPair)).filter
    fun p => p.weight % 2 ^ 15 != 0

/-- Whether RV masks a row. -/
def rowMasked (s : State) (team : Nat) (r : RouteArgs) (i : Nat) : Bool :=
  r.rv && !(natOfBytes (localRead s team (r.src + 32 * r.pitch) 4)).testBit i

/-- All pairs of a ROUTE, in pair order (R201). -/
def routePairs (s : State) (e : EngEnv) (r : RouteArgs) : List RPair :=
  (List.range (if r.h then 16 else 32)).flatMap fun i =>
    match kvGet e.g.fibres i with
    | some f => if rowMasked s e.g.place.team r i then [] else rowPairs f r.v r.k i
    | none => []

/-- The rows that make a pair. -/
def pairRows (ps : List RPair) : List Nat := (ps.map fun p => p.row).eraseDups

/-- The local memory that a ROUTE reads. -/
def needRows (e : EngEnv) (r : RouteArgs) : List Nat → Except EngErr Unit
  | [] => .ok ()
  | i :: is => do
    needLocal e.g (r.src + i * r.pitch) r.bytes
    needRows e r is

/-- The staged rows' pieces. -/
def stagePieces (s : State) (e : EngEnv) (r : RouteArgs) : List Nat → Except EngErr (List (Nat × List Piece))
  | [] => .ok []
  | i :: is => do
    let ps ← rangePieces s e false .store (r.stage + i * stageStep r.bytes) r.bytes
    let rest ← stagePieces s e r is
    pure ((i, ps) :: rest)

/-- The checks of a ROUTE, in the order of the table of R200: its pairs, the staged rows' places and its barrier. -/
def routeChecks (e : EngEnv) (r : RouteArgs) (s : State) :
    Except EngErr (List RPair × List (Nat × List Piece) × Option BarCap) := do
  needNoTwin s e
  let home := homeOf s e.g
  let ps := routePairs s e r
  need (ps.all fun p => rtCap (rtEntryAfter s home e.g.place.team p.value) != 0) 0x14 0
  need (field r.ctl 23 9 == 0 && field r.tmo 24 8 == 0) 0x14 0
  need (r.pitch % 16 == 0 && decide (r.bytes ≤ r.pitch)) 0x14 0
  needTile s home e.g.place.team r.t
  need (r.src % 16 == 0) 0x03 r.src
  need (r.stage % 64 == 0) 0x03 r.stage
  need (e.g.place.kind != .spawned) 0x05 r.src
  if r.rv then needLocal e.g (r.src + 32 * r.pitch) 4 else pure ()
  needRows e r (pairRows ps)
  let st ← stagePieces s e r (pairRows ps)
  let bar ← attnBar s e r.nb r.bar
  pure (ps, st, bar)

/-- Write the staged rows at device scope (R201): the first line that failed, and the state. -/
def stageRows (e : EngEnv) (r : RouteArgs) (rows : List (Nat × List Piece)) (s : State) : Option Nat × State :=
  rows.foldl (fun (x : Option Nat × State) w =>
    let bs := localRead x.2 e.g.place.team (r.src + w.1 * r.pitch) r.bytes
    let y := writePieces [] (envWho e) w.2 bs (notePieces e w.2 x.2)
    (x.1.orElse fun _ => y.1, y.2)) (none, s)

/-- The counts of a new entry's rows (R205). -/
def startRows (s : State) (team : Nat) (r : RouteArgs) (ps : List RPair) : List RowCount :=
  (List.range 32).map fun i =>
    { exp := (ps.filter fun p => p.row == i).length, masked := rowMasked s team r i }

/-- The launch of the lowest signer. -/
def signerLaunch (e : EngEnv) : Option Nat := (getFibre e.g (lowLane e.mask)).launch

/-- Make the entry of an accepted ROUTE; c receives its number and the signers go on. -/
def makeEnt (core n : Nat) (e : EngEnv) (r : RouteArgs) (ps : List RPair) (bar : Option BarCap) (bad : Option Nat)
    (s : State) : State :=
  let (id, s) := freshId s
  let (seq, s) := countTl e id { kind := .kvapp, bad := bad } s
  let gen := (kvGetD (engOf s core).gens n 0 + 1) % 8192
  let x : RouteEnt :=
    { id := id, core := core, num := n, team := e.g.place.team, owner := e.g.place.owner, gid := e.gid, seq := seq, mask := e.mask, pc := e.pc,
      launch := signerLaunch e, gen := gen, tile := r.t, bf16 := r.bf16, pol := r.pol, len := r.len, pairs := ps,
      rows := startRows s e.g.place.team r ps, due := if r.tmo = 0 then none else some (s.dev.clock + r.tmo), bar := bar,
      stage := r.stage }
  let s := modEng core (fun y => { y with ents := kvSet y.ents n x, gens := kvSet y.gens n gen }) s
  let s := modGroup s e.gid fun g => setU g r.c (BitVec.ofNat 32 n)
  resumeLanes e.gid e.mask (e.pc + 8) s

/-- Accept a ROUTE into a free entry, or trap. -/
def acceptRoute (core n : Nat) (e : EngEnv) (r : RouteArgs) (s : State) : State :=
  match routeChecks e r s with
  | .error f => engineTrap e.gid e.mask e.pc f s
  | .ok (ps, st, bar) =>
    let x := stageRows e r st s
    makeEnt core n e r ps bar x.1 x.2

/-- The operands of a ROUTE from its instruction. -/
def routeArgs (e : EngEnv) : Instr → Option RouteArgs
  | .route _ b16 pol k h nb rv t a b c v =>
    some { bf16 := b16, pol := pol, k := k.toNat + 1, h := h, nb := nb, rv := rv, t := t.toNat, src := uArg e a, stage := uPair e b,
           ctl := uNext e b 2, bar := uNext e b 3, tmo := uNext e b 4, c := c.toNat, v := v.toNat }
  | _ => none

/-! ## Sending (R201, R202, R388) -/

/-- The token of a pair (R201). -/
def pairToken (x : RouteEnt) (p : RPair) : Nat :=
  2 ^ 24 * x.core + 2 ^ 20 * x.num + 2 ^ 15 * p.row + 2 ^ 13 * p.slot + x.gen

/-- The payload of a pair's message. -/
def pairPayload (x : RouteEnt) (p : RPair) : List Word :=
  let va := x.stage + p.row * stageStep (x.len * rowSize x.bf16)
  [va, va / 2 ^ 32, p.weight * 2 ^ 16, pairToken x p, p.value, x.len, if x.bf16 then 3 else 2, p.row].map
    (BitVec.ofNat 32)

/-- The tag of a pair's message. -/
def pairTag (x : RouteEnt) (p : RPair) : PairTag :=
  { core := x.core, ent := x.num, gen := x.gen, row := p.row, pair := p.slot }

/-- The kernel of an entry's ROUTE (R291). -/
def entKernel (s : State) (x : RouteEnt) : Nat := (getTeam s x.team).hdr.entry.toNat

/-- Send a pair: INFL rises. -/
def sendPair (core n i : Nat) (x : RouteEnt) (p : RPair) (s : State) : State :=
  let e := rtEntry s x.team p.value
  let m : Msg := { dom := x.owner / 64, owner := x.owner, launch := x.launch, dev := s.dev.num.toNat, clu := rtClu e,
                   hid := rtHid e, payload := pairPayload x p, pair := some (pairTag x p),
                   src := some (clusterOfCore core), pc := x.pc, entry := entKernel s x }
  let s := bumpInfl x.team p.value (fun k => k + 1) s
  let s := modEnt core n (fun x => setPair x i .sent) s
  { s with am := { s.am with msgs := s.am.msgs ++ [m] } }

/-- Whether the capacity of a value has room. -/
def rtRoom (s : State) (team v : Nat) : Bool := let e := rtEntry s team v; decide (rtInfl e < rtCap e)

/-- The first pair of an entry that is still to be taken. -/
def nextPair (x : RouteEnt) : Option (Nat × RPair) :=
  ((List.range x.pairs.length).zip x.pairs).find? fun p => p.2.st == .unsent

/-- The value of one of an entry's pairs. -/
def pairValue (x : RouteEnt) (i : Nat) : Option Nat := (x.pairs[i]?).map fun p => p.value

/-- Whether an entry is waiting to send a pair of a value: its next pair or a ringed one. -/
def wantsValue (x : RouteEnt) (v : Nat) : Bool :=
  ((nextPair x).map fun p => p.2.value) == some v || x.ringed.any fun i => pairValue x i == some v

/-- Whether a ROUTE accepted earlier takes the capacity of a value first (R197). -/
def earlierWants (s : State) (core : Nat) (x : RouteEnt) (v : Nat) : Bool :=
  (engOf s core).ents.any fun e => decide (e.2.id < x.id) && e.2.team == x.team && e.2.st != .done && wantsValue e.2 v

/-- Whether an entry may send now: its context is not halted, no pre-emption has stopped its team (R209, R240), and every
RTBIND accepted before it is written. -/
def maySend (s : State) (core : Nat) (x : RouteEnt) : Bool :=
  x.st != .done && (getCtx s x.owner).fatal.isNone && (getTeam s x.team).stopAt.isNone
    && !((engOf s core).cmds.any fun c => c.team == x.team && decide (c.id < x.id)
          && (match c.kind with | .rtbind .. => true | _ => false))

/-- The lowest free slot of a context's route overflow ring. -/
def ringSlot (s : State) (owner : Nat) : Option Nat :=
  findBelow (fun i => memByte s.mem (descWord s owner 0x40 + 64 * i) == 0) (descWord s owner 0x48) 0

/-- The bytes of a ring slot. -/
def ringBytes (payload : List Word) : List Byte :=
  [1, 0, 0, 0, 0, 0, 0, 0] ++ bytesOfWords payload ++ List.replicate 24 0

/-- Free a ring slot: KIND 0. -/
def freeRing (owner slot : Nat) (s : State) : State := { s with mem := memPut s.mem (descWord s owner 0x40 + 64 * slot) [0] }

/-- A pair that finds no capacity, under its policy (R202). -/
def heldPair (core n i : Nat) (x : RouteEnt) (p : RPair) (s : State) : State :=
  match x.pol with
  | .stall => s
  | .drop => modEnt core n (fun x => dropPair x i p.row) s
  | .spill =>
    match ringSlot s x.owner with
    | none => modEnt core n (fun x => dropPair x i p.row) s
    | some k =>
      let s := { s with mem := memPut s.mem (descWord s x.owner 0x40 + 64 * k) (ringBytes (pairPayload x p)) }
      modEnt core n (fun x => { setPair x i (.ringed k) with ringed := x.ringed ++ [i] }) s

/-! ## Completion (R205, R206) -/

/-- Whether the commands and ROUTEs accepted before an entry have finished with its tile (R100, R206). -/
def tileFree (s : State) (core : Nat) (x : RouteEnt) : Bool :=
  !((engOf s core).cmds.any fun c => decide (c.id < x.id) && usesTile c x.team x.tile)
    && !((engOf s core).ents.any fun e => decide (e.2.id < x.id) && e.2.st != .done && e.2.team == x.team && e.2.tile == x.tile)

/-- The contributions of one return (R204). -/
def returnParts (x : RouteEnt) (i : Nat) (bs : List Byte) : List (Nat × FVal) :=
  match x.pairs[i]? with
  | none => []
  | some p =>
    let f := if x.bf16 then bf16 else fp32
    let w := fval bf16 p.weight
    (List.range x.len).map fun n =>
      let y := fval f (natOfBytes ((bs.drop (rowSize x.bf16 * n)).take (rowSize x.bf16)))
      (tileIndex p.row n, if notFinite w || notFinite y then .nan false else (fprod w y).1)

/-- Add the returns that wait to the tile. -/
def applyAdds (core n : Nat) (x : RouteEnt) (s : State) : State :=
  let s := x.adds.foldl (fun s a => contributeAll x.team x.tile (returnParts x a.1 a.2) s) s
  modEnt core n (fun x => { x with adds := [] }) s

/-- Whether every pair of an entry is sent, dropped or in the ring. -/
def allTaken (x : RouteEnt) : Bool := x.pairs.all fun p => p.st != .unsent

/-- Whether every row of an entry has what it expects. -/
def rowsWhole (x : RouteEnt) : Bool := x.rows.all fun r => r.recv + r.miss == r.exp

/-- The entry that a route-return stream receives (R196). -/
def returnEntry (x : RouteEnt) : List Word :=
  let ws := entWords x
  (ws ++ [validMask ws, x.num]).map (BitVec.ofNat 32)

/-- An entry reaches DONE: TL, the sector and the stream entry in one step. -/
def finishEnt (core n : Nat) (x : RouteEnt) (s : State) : State :=
  let s := modEnt core n (fun x => { x with st := .done }) s
  let s := finishTl x.gid x.seq s
  let s := match x.bar with
    | some b => applyLanding x.team { bar := b, sectors := 1, gid := x.gid, seq := x.seq, pc := x.pc, mask := x.mask } s
    | none => s
  if (portOfKind (getGroup s x.gid) 3).isSome then (arriveEntry x.gid 3 (returnEntry x) x.pc (entKernel s x) s).2 else s

/-- Bring one entry forward: its tile additions, WAITING, and DONE. -/
def settleEnt (core : Nat) (s : State) (n : Nat) : State :=
  match getEnt s core n with
  | none => s
  | some x =>
    if x.st = .done ∨ tileFree s core x = false then
      (if x.st = .dispatch ∧ allTaken x then modEnt core n (fun x => { x with st := .waiting }) s else s)
    else
      let s := applyAdds core n x s
      if allTaken x then
        let s := modEnt core n (fun x => { x with st := .waiting }) s
        if rowsWhole x then finishEnt core n x s else s
      else s

/-- Bring the entries of a core forward, those accepted earlier first. -/
def settleRoutes (core : Nat) (s : State) : State :=
  let ns := sortBy (fun a b : Nat × RouteEnt => decide (a.2.id ≤ b.2.id)) (engOf s core).ents
  (ns.map fun e => e.1).foldl (settleEnt core) s

/-! ## The events of an entry -/

/-- ROUTE_PAIR_SEND (R202): the entry's next pair is sent, or meets its policy. -/
def routePairSend (core n : Nat) (s : State) : State :=
  match getEnt s core n with
  | none => s
  | some x =>
    match nextPair x with
    | none => s
    | some (i, p) =>
      if !maySend s core x then s
      else if rtRoom s x.team p.value then
        (if earlierWants s core x p.value || x.ringed.any (fun k => pairValue x k == some p.value) then s
         else settleRoutes core (sendPair core n i x p s))
      else settleRoutes core (heldPair core n i x p s)

/-- ROUTE_SPILL_REPLAY (R388): the oldest ringed pair is sent once its value has capacity, and its slot is free. -/
def routeSpillReplay (core n : Nat) (s : State) : State :=
  match getEnt s core n with
  | none => s
  | some x =>
    let ready (i : Nat) : Bool := match pairValue x i with
      | some v => rtRoom s x.team v && !earlierWants s core x v
      | none => false
    match x.ringed.head?.filter ready with
    | none => s
    | some i =>
      match x.pairs[i]? with
      | some p =>
        if !maySend s core x then s
        else
          let s := match p.st with | .ringed k => freeRing x.owner k s | _ => s
          let s := modEnt core n (fun x => { x with ringed := x.ringed.filter fun k => k != i }) s
          sendPair core n i x p s
      | none => s

/-- Free every ring slot of an entry. -/
def freeRings (x : RouteEnt) (s : State) : State :=
  x.pairs.foldl (fun s p => match p.st with | .ringed k => freeRing x.owner k s | _ => s) s

/-- ROUTE_TIMEOUT (R205): what is missing is counted, INFL falls for the pairs sent, and the rest is never sent. -/
def routeTimeout (core n : Nat) (s : State) : State :=
  match getEnt s core n with
  | none => s
  | some x =>
    match x.due with
    | none => s
    | some d =>
      if x.st = .done ∨ s.dev.clock < d then s
      else
        let s := freeRings x s
        let s := x.pairs.foldl (fun s p => if p.st = .sent then bumpInfl x.team p.value (fun k => k - 1) s else s) s
        settleRoutes core (modEnt core n (fun x => { x with
          due := none, ringed := [], pairs := x.pairs.map fun p => { p with st := .ended },
          rows := x.rows.map fun r => { r with miss := r.exp - r.recv } }) s)

/-! ## Returns (R203, R204, R209) -/

/-- The entry and pair that a tag names, if it is live: an entry of the domain, of the same generation, not DONE, whose
pair was sent and is not resolved; with the number that the entry stands under. -/
def liveIn (ents : KV RouteEnt) (dom : Nat) (t : PairTag) : Option (Nat × RouteEnt × Nat × RPair) :=
  match ents.find? fun e => e.2.core == t.core && e.2.num == t.ent && e.2.gen == t.gen && e.2.owner / 64 == dom && e.2.st != .done with
  | some (n, x) =>
    match pairAt x t.row t.pair with
    | some (i, p) => if p.st = .sent then some (n, x, i, p) else none
    | none => none
  | none => none

/-- The core whose entry a tag names, with the entry: the core of the token, or where a resumed team has taken it. -/
def liveEnt (s : State) (dom : Nat) (t : PairTag) : Option (Nat × Nat × RouteEnt × Nat × RPair) :=
  s.cores.findSome? fun c => (liveIn c.2.eng.ents dom t).map fun r => (c.1, r)

/-- The saved team whose entry a tag names, if the pair is live there and nothing is parked for it yet (R209). -/
def savedFor (s : State) (dom : Nat) (t : PairTag) : Option (Nat × Saved) :=
  s.saved.find? fun e => (liveIn e.2.ents dom t).isSome
    && !(e.2.parkedRets.any fun r => r.1 == t) && !e.2.parkedDrops.contains t

/-- A live return: the row is read, RECV rises and INFL falls; a row that cannot be read makes the pair a drop. -/
def applyReturn (core n : Nat) (x : RouteEnt) (i : Nat) (p : RPair) (bs : List Byte) (bad : Bool) (s : State) : State :=
  let s := bumpInfl x.team p.value (fun k => k - 1) s
  let s := modEnt core n (fun x =>
    if bad then dropPair x i p.row
    else { modRow (setPair x i .ended) p.row (fun r => { r with recv := r.recv + 1 }) with adds := x.adds ++ [(i, bs)] }) s
  settleRoutes core s

/-- A drop notice for a live pair (R202, R204). -/
def applyDrop (t : PairTag) (s : State) (dom : Nat) : State :=
  match liveEnt s dom t with
  | some (core, n, x, i, p) =>
    settleRoutes core (modEnt core n (fun x => dropPair x i p.row) (bumpInfl x.team p.value (fun k => k - 1) s))
  | none => s

/-- What a parked return or drop notice takes of a return area (R209). -/
def parkBytes (x : RouteEnt) : Nat := 16 + (x.len * rowSize x.bf16 + 15) / 16 * 16

/-- The part of a context's return area that its saved teams have reserved. -/
def savedReserve (s : State) (owner : Nat) : Nat :=
  s.saved.foldl (fun n e => if e.2.team.owner = owner then n + e.2.reserved else n) 0

/-- What is parked for the saved teams of a context. -/
def parkedView (s : State) (owner : Nat) : List (Nat × List (PairTag × List Byte × Option Nat) × List PairTag) :=
  (s.saved.filter fun e => e.2.team.owner == owner).map fun e => (e.1, e.2.parkedRets, e.2.parkedDrops)

/-- Something has been parked: the reserved part of the return area is written anew. -/
def parkWrite (owner : Nat) (s : State) : State :=
  { s with mem := memPut s.mem (descWord s owner 0x50) (packOf 15 (parkedView s owner) (savedReserve s owner)) }

/-- The row of a return as the origin reads it, at device scope. -/
def returnRow (r : Ret) (core n : Nat) (s : State) : ReadRes :=
  readPieces none { core := core, owner := 0, pc := r.pc, entry := r.entry } true [{ va := r.va, len := n, loc := r.loc }] s

/-- The lane of an RTRET or AMSEND is over. -/
def laneOver (gid seq lane : Nat) (err : Option OpErr) (s : State) : State :=
  let s := match err with | some e => setErr gid seq e s | none => s
  finishOps gid (modAcc gid seq lane (fun a => { a with done := true }) s)

/-- Whether a lane's message or return may leave: its release waits for earlier accesses (R127, R203). -/
def laneReady (s : State) (gid seq lane : Nat) : Bool :=
  let g := getGroup s gid
  match findOp g seq with
  | none => true
  | some o => match o.accs.find? fun a => a.lane == lane with
    | some a => accReady s gid g o a
    | none => true

/-- The release that an AMSEND or RTRET makes (R193, R203). -/
def laneRelease (gid seq : Nat) (s : State) : State :=
  let g := getGroup s gid
  match findOp g seq with
  | some o => if isRelease o then releaseL1 (coreOfGid gid) (effScope s g o.scope) s else s
  | none => s

/-- A return reaches its origin. -/
def arriveReturn (r : Ret) (s : State) : State :=
  let s := laneRelease r.gid r.seq s
  let late (s : State) : State := laneOver r.gid r.seq r.lane none
    (countEvent (coreOfGid r.gid) r.dom 0x0007 1 r.pc.toNat r.entry s)
  match liveEnt s r.dom r.tag with
  | some (core, n, x, i, p) =>
    if (getCtx s x.owner).fatal.isSome then laneOver r.gid r.seq r.lane none s
    else
      let y := returnRow r core (x.len * rowSize x.bf16) s
      laneOver r.gid r.seq r.lane (lineErr y.bad) (applyReturn core n x i p y.bytes y.bad.isSome y.st)
  | none =>
    match savedFor s r.dom r.tag with
    | none => late s
    | some (k, sv) =>
      match liveIn sv.ents r.dom r.tag with
      | none => late s
      | some (_, x, _, _) =>
        let y := returnRow r r.tag.core (x.len * rowSize x.bf16) s
        let t := { y.st with saved := kvSet y.st.saved k { sv with parkedRets := sv.parkedRets ++ [(r.tag, y.bytes, y.bad)] } }
        laneOver r.gid r.seq r.lane (lineErr y.bad) (parkWrite sv.team.owner t)

/-- Whether a return has reached its origin: it has left its core, and its packet is the next to be taken there (R266). -/
def retReady (s : State) (r : Ret) : Bool :=
  r.left && laneReady s r.gid r.seq r.lane && hasLanded s r.pkt && landsNext s r.pkt

/-- ROUTE_RETURN (R204): a return that has reached its origin is taken. -/
def routeReturn (i : Nat) (s : State) : State :=
  match s.am.rets[i]? with
  | none => s
  | some r =>
    if retReady s r then arriveReturn r (takePacket r.pkt { s with am := { s.am with rets := s.am.rets.eraseIdx i } }) else s

/-- A drop notice is taken at its origin, or parked for it. -/
def arriveDrop (d : Drop) (s : State) : State :=
  match savedFor s d.dom d.tag with
  | some (k, sv) =>
    parkWrite sv.team.owner { s with saved := kvSet s.saved k { sv with parkedDrops := sv.parkedDrops ++ [d.tag] } }
  | none => applyDrop d.tag s d.dom

/-- DROP_NOTICE (R205): a drop notice that has reached its origin is taken, in the order of its port pair (R266). -/
def dropNotice (i : Nat) (s : State) : State :=
  match s.am.drops[i]? with
  | none => s
  | some d =>
    if hasLanded s d.pkt && landsNext s d.pkt then
      arriveDrop d (takePacket d.pkt { s with am := { s.am with drops := s.am.drops.eraseIdx i } })
    else s

/-! ## RTRD and RTRET (R207, R366, R367) -/

/-- RTRD at acceptance: the counts as they stand. -/
def acceptRtrd (free : Bool) (v : VReg) (c a : GReg) (e : EngEnv) (s : State) : Accept := do
  let n := uArg e a
  let y ← needSome ((engOf s (homeOf s e.g)).ents.find? fun y => y.2.team == e.g.place.team && y.2.num == n) 0x14 0
  let x := y.2
  .ok ({ kind := .rtrd free v.toNat c.toNat y.1 x.gen (entWords x) (x.st == .done), uses := [(.route, true)], hold := true }, s)

/-- Free an entry that is DONE. -/
def freeEnt (core n gen : Nat) (s : State) : State :=
  match getEnt s core n with
  | some x => if x.gen = gen ∧ x.st = .done then modEng core (fun y => { y with ents := kvDel y.ents n }) s else s
  | none => s

/-- RTRD's effect: the status words in every resident fibre, the mask and gp15. -/
def applyRtrd (core : Nat) (c : Cmd) (free : Bool) (v d n gen : Nat) (ws : List Nat) (done : Bool) (s : State) : State :=
  let s := modGroup s c.gid fun g =>
    { g with fibres := kvMap g.fibres fun l f => setReg f v (BitVec.ofNat 32 (ws.getD l 0)) }
  let s := cmdSetGp c done (cmdSetU c d (validMask ws) s)
  if free && done then freeEnt core n gen s else s

/-- The faults of RTRET's lanes at issue, or their accesses, which no order compares by address. -/
def rtretLanes (s : State) (g : Group) (a : Nat) : List Nat → Except LaneFault (List Acc)
  | [] => .ok []
  | l :: ls =>
    let va := (getRegPair (getFibre g l) a).toNat
    if va % 16 ≠ 0 then .error (0x03, va, l)
    else
      match placeOf s s.cur.core g va 16 .load with
      | .error c => .error (c, va, l)
      | .ok (.loc _ _) => .error (0x05, va, l)
      | .ok loc =>
        match rtretLanes s g a ls with
        | .error e => .error e
        | .ok as => .ok ({ lane := l, loc := loc, va := va, len := 0 } :: as)

/-- The tag that a token names (R201). -/
def tokenTag (w : Word) : PairTag :=
  let v := w.toNat
  { core := field v 24 8, ent := field v 20 4, gen := field v 0 13, row := field v 15 5, pair := field v 13 2 }

/-- The returns of RTRET's lanes. -/
def rtretSends (g : Group) (b seq : Nat) (s : State) (as : List Acc) : List Ret :=
  as.map fun x =>
    { tag := tokenTag (getReg (getFibre g x.lane) b), dom := g.place.dom, gid := curGid s, seq := seq, lane := x.lane, va := x.va,
      loc := x.loc, pc := s.cur.pc, entry := g.place.hdr.entry.toNat }

/-- RTRET (R203, R367). -/
def execRtret (g : Bool) (rel : Bool) (a b : VReg) (s : State) : Host.Outcome State Fault Refusal :=
  let act := actMask g s
  let grp := curGroup s
  let r := rtretLanes s grp a.toNat (lanesOf act)
  let op : Op := { seq := 0, cls := .st, kind := .msg, pc := 0, mask := 0, act := act, order := if rel then .rel else .none,
                   scope := .dev, accs := okAccs r }
  runPre (orPre (regPre true act { vr := regRange a.toNat 2 ++ [b.toNat] } s)
      (orPre (countPre .st s) (faultPre true r)))
    (fun s =>
      let rs := rtretSends grp b.toNat (nextSeq s) s op.accs
      let s := issueOp op s
      advance 8 (noteIssue 2 { s with am := { s.am with rets := s.am.rets ++ rs } })) s

end Sys2Proof.Machine
end

