-- ==== Sys2Proof/Machine/Messages.lean ====
section
/-! DEFINITION. Active messages (R192 to R196, R304, R305): AMSEND, the arrival of a message at its cluster, and
AMBIND. -/

namespace Sys2Proof.Machine

open Sys2Proof

/-! ## AMSEND (R193, R305) -/

/-- DEV of a target word (R192). -/
def targetDev (w : Word) : Nat := field w.toNat 20 12
/-- CLU. -/
def targetClu (w : Word) : Nat := field w.toNat 14 6
/-- HID. -/
def targetHid (w : Word) : Nat := field w.toNat 0 8

/-- The peer with a device number. -/
def peerDev (s : State) (d : Nat) : Option Peer := (s.net.peers.map fun e => e.2).find? fun p => p.dev.toNat == d

/-- Whether a target word is PERMISSION (R193). -/
def targetBad (s : State) (sys : Bool) (w : Word) : Bool :=
  let own := targetDev w == s.dev.num.toNat
  field w.toNat 8 6 != 0 || (!own && (!sys || (peerDev s (targetDev w)).isNone)) || (own && !clusterThere s (targetClu w))

/-- The check of the acting lanes: the lowest lane's fault. -/
def targetPre (s : State) (sys : Bool) (g : Group) (a : Nat) (ls : List Nat) : Pre :=
  match ls.find? fun l => targetBad s sys (getReg (getFibre g l) a) with
  | some l => .trap 0x05 0 l
  | none => .go

/-- The message of one lane. -/
def laneMsg (s : State) (g : Group) (seq : Nat) (rel sys addr : Bool) (a b c l : Nat) : Msg :=
  let f := getFibre g l
  let w := getReg f a
  { gid := some (curGid s), seq := seq, lane := l, sender := some (curGid s), src := some (clusterOfCore s.cur.core),
    pc := s.cur.pc, entry := g.place.hdr.entry.toNat, dom := g.place.dom, owner := g.place.owner, launch := f.launch,
    dev := targetDev w, clu := targetClu w, hid := targetHid w, payload := (regRange c 8).map (getReg f),
    addr := if addr then some (getRegPair f b).toNat else none, acq := if rel then (if sys then 5 else 4) else 0 }

/-- The twin-stream entry of a message (R281): its target, and its payload and address. -/
def msgItem (m : Msg) : TwinItem :=
  { addr := m.hid + 2 ^ 14 * m.clu + 2 ^ 20 * m.dev, mask := 2 ^ 40 - 1,
    data := bytesOfWords m.payload ++ bytesOfNat 8 (m.addr.getD 0), msg := some { m with gid := none } }

/-- Send messages, or stage them for a twin copy. -/
def sendMsgs (twin : Bool) (ms : List Msg) (s : State) : State :=
  if twin then stageTwin (curGid s) (ms.map msgItem) s else { s with am := { s.am with msgs := s.am.msgs ++ ms } }

/-- AMSEND: one message for each acting lane, in ascending lane order. -/
def execAmsend (g : Bool) (rel sys addr : Bool) (a b c : VReg) (s : State) : Host.Outcome State Fault Refusal :=
  let act := actMask g s
  let grp := curGroup s
  let twin := twinCopy s grp
  let one (l : Nat) : Acc := { lane := l, loc := .loc grp.place.team 0, va := 0, len := 0 }
  let op : Op := { seq := 0, cls := .st, kind := .msg, pc := 0, mask := 0, act := act, order := if rel then .rel else .none,
                   scope := if sys then .sys else .dev, accs := if twin then [] else (lanesOf act).map one }
  let use : Use := { vr := [a.toNat] ++ (if addr then regRange b.toNat 2 else []) ++ regRange c.toNat 8 }
  runPre (orPre (regPre true act use s) (orPre (countPre .st s) (targetPre s sys grp a.toNat (lanesOf act))))
    (fun s =>
      let ms := (lanesOf act).map (laneMsg s grp (nextSeq s) rel sys addr a.toNat b.toNat c.toNat)
      advance 8 (noteIssue 2 (sendMsgs twin ms (issueOp op s)))) s

/-! ## Arrival (R194, R196) -/

/-- The binding of a message. -/
def bindingOf (s : State) (m : Msg) : Option Target :=
  (s.am.binds.find? fun b => b.dom == m.dom && b.clu == m.clu && b.hid == m.hid).map fun b => b.target

/-- The ten words that a message brings. -/
def msgWords (m : Msg) : List Word :=
  let a := m.addr.getD 0
  m.payload ++ [BitVec.ofNat 32 a, BitVec.ofNat 32 (a / 2 ^ 32)]

/-- The handler fibre that a message becomes (R26, R194). -/
def msgFibre (m : Msg) (owner : Nat) (hdr : Hdr) (karg : DWord) (prio : Nat) : NewFibre :=
  { entry := hdr.entry, hdr := hdr, wid := 0, args := msgWords m, launch := if m.owner = owner then m.launch else none,
    karg := karg, prio := prio, teamId := 0xFFFFFFFF, message := true, acq := m.acq }

/-- The saved team with a number, and its group with a number. -/
def savedGroup (s : State) (team num : Nat) : Team × Group :=
  match (s.saved.map fun e => e.2).find? fun x => x.id == team with
  | some x => (x.team, (x.groups.find? fun g => g.place.num == num).getD {})
  | none => ({}, {})

/-- An inbox entry for a group that is saved waits in the overflow area; where no inbox port is bound its slot names port 0
(log 13). -/
def arriveSaved (team num owner : Nat) (m : Msg) (s : State) : Bool × State :=
  let g := savedGroup s team num
  let x : OvfItem := .entry team num (indexOf g.2 g.1) ((portOfKind g.2 2).getD 0) (msgWords m) 1
  spillOrDrop (4 * m.clu) owner x m.pc m.entry s

/-- Take a message by its binding (R194, R196): whether it was taken. A message to an unbound id is counted and discarded;
the fibre of a context that firmware holds out of placement waits in the overflow area. -/
def takeMsg (m : Msg) (s : State) : Bool × State :=
  match bindingOf s m with
  | none => (false, dropArrival (4 * m.clu) m.dom m.pc m.entry s)
  | some (.inbox team num owner) =>
    match groupOfTeam s team num with
    | some gid => arriveEntry gid 2 (msgWords m) m.pc m.entry s
    | none => arriveSaved team num owner m s
  | some (.kernel owner hdr karg prio _) =>
    let f := msgFibre m owner hdr karg prio
    if (getCtx s owner).out then spillOrDrop (4 * m.clu) owner (.fibre m.clu none f) m.pc m.entry s
    else arriveFibre (msgCore s m.clu owner f) owner f m.pc m.entry s

/-- The sender's lane of a message that has been taken or discarded. -/
def msgOver (m : Msg) (err : Option OpErr) (s : State) : State :=
  match m.gid with
  | some gid => laneOver gid m.seq m.lane err s
  | none => s

/-- A packet of one flit on network C, from a cluster to the one of a core: a ROUTE return or a drop notice (R263). -/
def smallPacket (s : State) (clu core : Nat) : Packet :=
  { id := s.nextId, net := .c, src := .cluster clu, dst := .cluster (clusterOfCore core), len := 1 }

/-- The drop notice of a routed pair leaves for its origin (R194, R205). -/
def sendNotice (m : Msg) (s : State) : State :=
  match m.pair with
  | some t => { s with
      am := { s.am with drops := s.am.drops ++ [{ dom := m.dom, tag := t, pkt := some s.nextId }] },
      net := inject (smallPacket s m.clu t.core) s.net, nextId := s.nextId + 1 }
  | none => s

/-- The error of a message whose peer's links are all down (R275). -/
def lostMsg (m : Msg) : OpErr := { code := 0x1A, detail := 0, addr := m.addr.getD 0 / 128 * 128 }

/-- The target of a message as a peer is told it. -/
def msgTarget (m : Msg) : Nat := m.hid + 2 ^ 14 * m.clu + 2 ^ 20 * m.dev

/-- A message to a peer device leaves over its links (R274), those of its block 0, in the order of R266; while all of them are
down it completes with an error, or is discarded when no operation waits for it (R275). -/
def leaveMsg (m : Msg) (s : State) : State :=
  match peerDev s m.dev with
  | none => msgOver m none s
  | some p =>
    if peerDown s p then msgOver m (some (lostMsg m)) s
    else
      let q : PeerReq := { dev := m.dev, link := linkFor s p 0, cls := .m, pa := msgTarget m, op := .message, len := 40,
                           data := bytesOfWords (msgWords m) }
      msgOver m none { s with net := { s.net with peerOut := s.net.peerOut ++ [q] } }

/-- A message arrives at its cluster. -/
def arriveMsg (m : Msg) (s : State) : State :=
  let s := match m.gid with | some gid => laneRelease gid m.seq s | none => s
  if m.dev ≠ s.dev.num.toNat then leaveMsg m s
  else
    let r := takeMsg m s
    msgOver m none (if r.1 then r.2 else sendNotice m r.2)

/-- Whether two messages were sent to one cluster. -/
def samePlace (a b : Msg) : Bool := a.dev == b.dev && a.clu == b.clu

/-- Whether a message has entered the network: its release is over (R193). -/
def msgSent (s : State) (m : Msg) : Bool :=
  match m.gid with
  | some gid => laneReady s gid m.seq m.lane
  | none => true

/-- Whether a message has left its core, or leaves it at the end of this cycle: those of a context on the fatal path stay
(R252). That a message leaves at the end of the cycle in which its release is over is DEDUCED (log 13). A peer's leaves the link
port. -/
def msgLeaves (s : State) (m : Msg) : Bool := m.left || m.via.isSome || (msgSent s m && (getCtx s m.owner).fatal.isNone)

/-- Whether a return leaves its core at the end of this cycle, or has left it (R203). -/
def retLeaves (s : State) (r : Ret) : Bool := r.left || (laneReady s r.gid r.seq r.lane && !isHalted s r.gid)
where
  /-- Whether a group's context is on the fatal path. -/
  isHalted (s : State) (gid : Nat) : Bool := (getCtx s (getGroup s gid).place.owner).fatal.isSome

/-- Where a message leaves the network: at its cluster, or at the link port over which it goes to its peer; nowhere when no link
to the peer is up. -/
def msgEnd (s : State) (m : Msg) : Option Endpoint :=
  if m.dev = s.dev.num.toNat then some (.cluster m.clu)
  else match peerDev s m.dev with
    | some p => if peerDown s p then none else some (.link (linkFor s p 0))
    | none => none

/-- Where a message enters the network: at the link port over which a peer has sent it, or at its sender's cluster. -/
def msgStart (m : Msg) : Endpoint :=
  match m.via with
  | some k => .link k
  | none => .cluster (m.src.getD m.clu)

/-- A message whose release is over enters the network as a packet of two flits (R263). -/
def sendMsg (r : List Msg × State) (m : Msg) : List Msg × State :=
  let s := r.2
  if m.left || !msgLeaves s m then (r.1 ++ [m], s)
  else match msgEnd s m with
    | none => (r.1 ++ [{ m with left := true }], s)
    | some e =>
      let p : Packet := { id := s.nextId, net := .m, src := msgStart m, dst := e, len := 2 }
      (r.1 ++ [{ m with left := true, pkt := some p.id }], { s with net := inject p s.net, nextId := s.nextId + 1 })

/-- A return whose release is over enters the network. -/
def sendRet (x : List Ret × State) (r : Ret) : List Ret × State :=
  let s := x.2
  if r.left || !retLeaves s r then (x.1 ++ [r], s)
  else
    let p := smallPacket s (clusterOfCore (coreOfGid r.gid)) r.tag.core
    (x.1 ++ [{ r with left := true, pkt := some p.id }], { s with net := inject p s.net, nextId := s.nextId + 1 })

/-- At the end of a cycle the messages and returns whose release is over leave their cores. -/
def sendOut (s : State) : State :=
  let a := s.am.msgs.foldl sendMsg ([], s)
  let b := s.am.rets.foldl sendRet ([], a.2)
  { b.2 with am := { b.2.am with msgs := a.1, rets := b.1 } }

/-- Whether a message must arrive before another that was sent after it (R194): from one fibre to one cluster, or from one
AMSEND. -/
def msgBefore (a b : Msg) : Bool :=
  a.sender.isSome && a.sender == b.sender && (a.seq == b.seq || (samePlace a b && a.lane == b.lane))

/-- Whether a message may arrive: it has left its core, its packet is the next to be taken at its end, and no message before it is
still on its way. -/
def msgReady (s : State) (i : Nat) (m : Msg) : Bool :=
  m.left && msgSent s m && hasLanded s m.pkt && landsNext s m.pkt && !((s.am.msgs.take i).any fun b => msgBefore b m)

/-- AM_ARRIVAL (R194). -/
def execAmArrival (i : Nat) (s : State) : Host.Outcome State Fault Refusal :=
  match s.am.msgs[i]? with
  | none => .next s
  | some m => .next
      (if msgReady s i m then arriveMsg m (takePacket m.pkt { s with am := { s.am with msgs := s.am.msgs.eraseIdx i } }) else s)

/-! ## AMBIND (R195, R304) -/

/-- The header of an AMBIND, read at device scope. -/
def ambindHdr (va : Nat) (e : EngEnv) (s : State) : Except EngErr (Hdr × Option Nat × State) := do
  need (va % 128 == 0) 0x03 va
  let ps ← rangePieces s e false .load va 128
  let r := acceptRead e ps s
  let h ← needSome (parseHdr va r.bytes) 0x14 0
  need (h.team == 1 && decide (16 ≤ h.regs)) 0x14 0
  pure (h, r.bad, r.st)

/-- The cluster of the issuing group. -/
def envCluster (e : EngEnv) : Nat := clusterOfCore (coreOfGid e.gid)

/-- The check of a handler id. -/
def needHid (e : EngEnv) (a : GReg) : Except EngErr Nat := do
  need (decide (uArg e a < 256)) 0x14 0
  pure (uArg e a)

/-- AMBIND to a kernel, on one cluster or on all. -/
def acceptAmbind (all : Bool) (a b : GReg) (e : EngEnv) (s : State) : Accept := do
  needNoTwin s e
  let hid ← needHid e a
  let h ← ambindHdr (uPair e b) e s
  let t : Target := .kernel e.g.place.owner h.1 e.g.place.karg e.g.place.prio e.g.place.launch
  let clus := if all then clustersPresent s else [envCluster e]
  .ok ({ kind := .ambind e.g.place.dom clus hid (some t), uses := [(.binding e.g.place.dom hid, true)], bad := h.2.1 },
    h.2.2)

/-- AMBIND.inbox. -/
def acceptAmbindInbox (a : GReg) (e : EngEnv) (s : State) : Accept := do
  needNoTwin s e
  let hid ← needHid e a
  .ok ({ kind := .ambind e.g.place.dom [envCluster e] hid (some (.inbox e.g.place.team e.g.place.num e.g.place.owner)),
         uses := [(.binding e.g.place.dom hid, true)] }, s)

/-- AMBIND.none. -/
def acceptAmbindNone (a : GReg) (e : EngEnv) (s : State) : Accept := do
  needNoTwin s e
  let hid ← needHid e a
  .ok ({ kind := .ambind e.g.place.dom [envCluster e] hid none, uses := [(.binding e.g.place.dom hid, true)] }, s)

/-- AMBIND's effect: every named cluster holds the binding, or no longer holds it. -/
def applyAmbind (dom : Nat) (clus : List Nat) (hid : Nat) (t : Option Target) (s : State) : State :=
  let kept := s.am.binds.filter fun b => !(b.dom == dom && b.hid == hid && clus.contains b.clu)
  let new := match t with
    | some t => clus.map fun c => { dom := dom, clu := c, hid := hid, target := t }
    | none => []
  { s with am := { s.am with binds := kept ++ new } }

end Sys2Proof.Machine
end

