-- ==== Sys2Proof/Machine/Scan.lean ====
section
/-! DEFINITION. The state space unit (R185 to R191, R374): the scan state record, acceptance, and the scan of a token. -/

namespace Sys2Proof.Machine

open Sys2Proof

/-! ## The scan state record (R185) -/

/-- The header of a record, as a number. -/
def scanHead (r : List Byte) : Nat := natOfBytes (r.take 64)

/-- N, P, BUFN, FMT, ES and POS of a header. -/
structure ScanHdr where
  n : Nat
  p : Nat
  bufn : Nat
  fmt : Nat
  es : Int
  pos : Nat

/-- Read a header. -/
def scanHdr (v : Nat) : ScanHdr :=
  { n := field v 120 8, p := field v 112 7, bufn := field v 134 6, fmt := field v 140 4,
    es := signedOf 16 (field v 144 16), pos := field v 160 64 }

/-- The checks of SSMLD (R189). -/
def scanHdrOk (v : Nat) : Bool :=
  let h := scanHdr v
  decide (1 ≤ h.n) && decide (h.n ≤ 128) && decide (1 ≤ h.p) && decide (h.p ≤ 64) && (h.fmt == 2 || h.fmt == 3)
    && h.bufn == h.pos % 64 && field v 0 96 == 0 && field v 98 14 == 0 && field v 119 1 == 0 && field v 128 6 == 0
    && v / 2 ^ 224 == 0

/-- The size of a record. -/
def scanBytes (h : ScanHdr) : Nat := (192 + 4 * h.n * h.p + 252 * (h.n + h.p) + 63) / 64 * 64

/-- The element size of a token record. -/
def scanSize (h : ScanHdr) : Nat := if h.fmt = 2 then 4 else 2

/-- The size of a token record (R188). -/
def tokenBytes (h : ScanHdr) : Nat := (16 + (h.p + 2 * h.n) * scanSize h + 15) / 16 * 16

/-- The offsets of H, of the decays and of the buffered b and x in a record. -/
def offH (h : ScanHdr) (n p : Nat) : Nat := 64 + 4 * (h.p * n + p)
def offD (h : ScanHdr) (k : Nat) : Nat := 64 + 4 * h.n * h.p + 2 * k
def offB (h : ScanHdr) (k n : Nat) : Nat := 192 + 4 * h.n * h.p + 4 * (h.n * k + n)
def offX (h : ScanHdr) (k p : Nat) : Nat := 192 + 4 * h.n * h.p + 252 * h.n + 4 * (h.p * k + p)

/-- A number in a record. -/
def recNat (r : List Byte) (off len : Nat) : Nat := natOfBytes ((r.drop off).take len)

/-- Put bytes into a record. -/
def recPut (r : List Byte) (off : Nat) (bs : List Byte) : List Byte :=
  r.take off ++ bs ++ r.drop (off + bs.length)

/-! ## Acceptance -/

/-- The team that holds a core's unit after every command accepted so far, with the header of its record. -/
def ssuAfter (s : State) (core : Nat) : Option (Nat × Nat) :=
  (engOf s core).cmds.foldl (fun r c =>
    match c.kind with
    | .ssmld head _ => some (c.team, natOfBytes head)
    | .ssmst free _ => if free then none else r
    | _ => r) ((engOf s core).ssu.map fun x => (x.team, scanHead x.record))

/-- SSM_STATE from a team that does not hold the unit; its record's header otherwise. -/
def needSsu (s : State) (core team : Nat) : Except EngErr ScanHdr :=
  match ssuAfter s core with
  | some (t, v) => if t = team then .ok (scanHdr v) else .error (0x16, 0)
  | none => .error (0x16, 0)

/-- Whether another team holds the unit of a core (R189): one whose SSMST.free has been accepted holds it until its record
is stored. -/
def ssuTaken (s : State) (core team : Nat) : Bool :=
  let eng := engOf s core
  eng.ssu.any (fun x => x.team != team) || eng.cmds.any fun c => c.team != team &&
    (match c.kind with | .ssmld .. | .ssmst .. => true | _ => false)

/-- SSMLD at acceptance. -/
def acceptSsmld (a : GReg) (e : EngEnv) (s : State) : Accept := do
  let core := homeOf s e.g
  let va := uPair e a
  need (!ssuTaken s core e.g.place.team) 0x16 0
  need (va % 64 == 0) 0x03 va
  let hp ← rangePieces s e false .load va 64
  let r := acceptRead e hp s
  need (scanHdrOk (natOfBytes r.bytes)) 0x16 va
  let ps ← rangePieces s e false .load va (scanBytes (scanHdr (natOfBytes r.bytes)))
  .ok ({ kind := .ssmld r.bytes ps, uses := [(.ssu, true)], bad := r.bad }, notePieces e ps r.st)

/-- SSMSCAN and SSMSTEP at acceptance: the control word, the tiles, and the token records. -/
def acceptScan (step : Bool) (t : TileNum) (a b : GReg) (e : EngEnv) (s : State) : Accept := do
  let core := homeOf s e.g
  let h ← needSsu s core e.g.place.team
  let w := uArg e b
  let frow := field w 16 5
  let l := field w 0 9
  need (field w 9 7 == 0 && w / 2 ^ 21 == 0 && (if step then l == 0 else decide (1 ≤ l) && decide (l ≤ 256))) 0x16 0
  let n := if step then 1 else l
  let tiles := regRange t.toNat ((frow + n - 1) / 32 + 1)
  need (tiles.all fun i => tileAllotted s e.g.place.team i && tileOpen s core e.g.place.team i) 0x13 0
  let off := uArg e a
  need (off % 16 == 0) 0x03 off
  needLocal e.g off (n * tokenBytes h)
  .ok ({ kind := .scan off t.toNat frow n, uses := (Res.ssu, true) :: tiles.map fun i => (Res.tile e.g.place.team i, true) }, s)

/-- SSMST at acceptance. -/
def acceptSsmst (free : Bool) (a : GReg) (e : EngEnv) (s : State) : Accept := do
  let h ← needSsu s (homeOf s e.g) e.g.place.team
  let va := uPair e a
  need (va % 64 == 0) 0x03 va
  let ps ← rangePieces s e false .store va (scanBytes h)
  .ok ({ kind := .ssmst free ps, uses := [(.ssu, true)] }, notePieces e ps s)

/-! ## Effects -/

/-- Store the unit of a core. -/
def setSsu (core : Nat) (x : Option Ssu) (s : State) : State := modEng core (fun y => { y with ssu := x }) s

/-- SSMLD: the record as it stands when the command runs; a header that no longer passes the checks, or no longer has the
size that was translated, stands as acceptance read it. -/
def applySsmld (c : Cmd) (core : Nat) (head : List Byte) (ps : List Piece) (s : State) : State :=
  let r := cmdRead c true ps s
  let v := scanHead r.1
  let now := scanHdrOk v && scanBytes (scanHdr v) == r.1.length
  setSsu core (some { team := c.team, record := if now then r.1 else head ++ r.1.drop 64 }) r.2

/-- SSMST. -/
def applySsmst (c : Cmd) (core : Nat) (free : Bool) (ps : List Piece) (s : State) : State :=
  match (engOf s core).ssu with
  | some x =>
    let s := cmdWrite c ps x.record s
    if free then setSsu core none s else s
  | none => s

/-- The decay table F (R186). -/
def decayTable : List Nat :=
  [16777216, 16065917, 15384775, 14732511, 14107901, 13509772, 12937002, 12388516,
   11863283, 11360319, 10878679, 10417458, 9975792, 9552851, 9147842, 8760003]

/-- The decay weight of a span in sixteenths: a mantissa and an exponent. -/
def decayWeight (d : Nat) : Nat × Int := (decayTable.getD (d % 16) 0, -24 - Int.ofNat (d / 16))

/-- A term: its floored and clamped integer with whether it was clamped, or none when it is poisoned (R186). -/
def scanTerm (es : Int) (d : Nat) (x : FVal) : Option (Int × Bool) :=
  match x with
  | .fin neg m e =>
    let w := decayWeight d
    let y := floorAt neg (m * w.1) (e + w.2) es
    some (if unitsOk y then (y, false) else (clampedUnits y, true))
  | _ => none

/-- The exact product of two values, not a number when one is not finite. -/
def scanProd (x y : FVal) : FVal :=
  match x, y with
  | .fin a m e, .fin b n k => .fin (a != b) (m * n) (e + k)
  | _, _ => .nan false

/-- A state element: its integer, and whether a term was clamped or poisoned. -/
structure ScanElt where
  x : BitVec 64
  clamp : Bool
  bad : Bool

/-- Add a term to a state element. -/
def addTerm (s : ScanElt) (t : Option (Int × Bool)) : ScanElt :=
  match t with
  | some (y, k) => { s with x := exactAdd s.x y, clamp := s.clamp || k }
  | none => { s with bad := true }

/-- The state element (n, p) after the token in buffer place `k`, whose own x and b are given (R186). -/
def scanElt (h : ScanHdr) (r : List Byte) (k dt : Nat) (xt bt : List Nat) (n p : Nat) : ScanElt :=
  let first := addTerm { x := 0, clamp := false, bad := false } (scanTerm h.es dt (fval fp32 (recNat r (offH h n p) 4)))
  let before := (List.range k).foldl (fun x s =>
    addTerm x (scanTerm h.es (dt - recNat r (offD h s) 2)
      (scanProd (fval fp32 (recNat r (offB h s n) 4)) (fval fp32 (recNat r (offX h s p) 4))))) first
  addTerm before (scanTerm h.es 0 (scanProd (fval fp32 (bt.getD n 0)) (fval fp32 (xt.getD p 0))))

/-- Values of a token record as FP32 codes; BF16 converts exactly. -/
def tokenVals (h : ScanHdr) (bs : List Byte) (off n : Nat) : List Nat :=
  (List.range n).map fun i =>
    if h.fmt = 2 then recNat bs (off + 4 * i) 4 else 2 ^ 16 * recNat bs (off + 2 * i) 2

/-- The output of column p: one contribution (R186). -/
def scanOut (h : ScanHdr) (ct : List Nat) (elts : Nat → ScanElt) : FVal :=
  if (List.range h.n).any fun n => (elts n).bad || notFinite (fval fp32 (ct.getD n 0)) then .nan false
  else (List.range h.n).foldl (fun y n =>
    (fsum .rn y (scanProd (fval fp32 (ct.getD n 0)) (valOfIntExp (elts n).x.toInt h.es))).1) (.fin false 0 0)

/-- The record after a token: its place in the buffer, or, after the last token of a chunk, the rounded state. -/
def scanRecord (h : ScanHdr) (r : List Byte) (k dt : Nat) (xt bt : List Nat) (elts : Nat → Nat → ScanElt)
    (clamp bad : Bool) : List Byte :=
  let v := scanHead r
  let pos := (h.pos + 1) % 2 ^ 64
  let v := v - 2 ^ 134 * field v 134 6 - 2 ^ 160 * field v 160 64 + 2 ^ 134 * (pos % 64) + 2 ^ 160 * pos
  let v := Nat.lor v (2 ^ 96 * bitNum clamp + 2 ^ 97 * bitNum bad)
  let r := bytesOfNat 64 v ++ r.drop 64
  let r := recPut r (offD h k) (bytesOfNat 2 dt)
  if k = 63 then
    let hs := (List.range h.n).flatMap fun n => (List.range h.p).flatMap fun p =>
      let x := elts n p
      bytesOfNat 4 (if x.bad then fp32.nan else (roundVal fp32 .rn (valOfIntExp x.x.toInt h.es)).code)
    recPut r 64 hs
  else
    let r := recPut r (offB h k 0) (bt.flatMap fun w => bytesOfNat 4 w)
    recPut r (offX h k 0) (xt.flatMap fun w => bytesOfNat 4 w)

/-- One token (R186): the state, its output row in the tile, and the record. -/
def scanToken (c : Cmd) (core a t row i : Nat) (s : State) : State :=
  match (engOf s core).ssu with
  | none => s
  | some u =>
    let h := scanHdr (scanHead u.record)
    let bs := localRead s c.team (a + i * tokenBytes h) (tokenBytes h)
    let k := h.bufn
    let dt := (if k = 0 then 0 else recNat u.record (offD h (k - 1)) 2) + (bs.headD 0).toNat
    let xt := tokenVals h bs 16 h.p
    let bt := tokenVals h bs (16 + h.p * scanSize h) h.n
    let ct := tokenVals h bs (16 + (h.p + h.n) * scanSize h) h.n
    let elts (n p : Nat) : ScanElt := scanElt h u.record k dt xt bt n p
    let all := (List.range h.n).flatMap fun n => (List.range h.p).map fun p => elts n p
    let bad := (all.any fun x => x.bad) || ct.any fun w => notFinite (fval fp32 w)
    let r := row + i
    let s := contributeAll c.team (t + r / 32)
      ((List.range h.p).map fun p => (tileIndex (r % 32) p, scanOut h ct fun n => elts n p)) s
    setSsu core (some { u with record := scanRecord h u.record k dt xt bt elts (all.any fun x => x.clamp) bad }) s

/-- SSMSCAN and SSMSTEP: the tokens of the range in order. -/
def applyScan (c : Cmd) (core a t row n : Nat) (s : State) : State :=
  (List.range n).foldl (fun s i => scanToken c core a t row i s) s

/-- A scan that runs stops at its next token boundary (R191): its finished tokens, so many that some are left, are in the
tiles and the scan state, and the command goes on with the rest. How many are finished is open (log 10). -/
def stopScan (core : Nat) (c : Cmd) (s : State) : State :=
  match c.kind, (engOf s core).ssu with
  | .scan a t row n, some u =>
    if !cmdRuns s core c then s
    else
      let k := (Config.freeDWord s.free).toNat % n
      let kind : CmdKind := .scan (a + k * tokenBytes (scanHdr (scanHead u.record))) t (row + k) (n - k)
      let s := applyScan c core a t row k { s with free := s.free + 1 }
      modEng core (fun x => { x with cmds := x.cmds.map fun d => if d.id = c.id then { d with kind := kind } else d }) s
  | _, _ => s

/-- The scans of some teams on a core stop. -/
def stopScans (core : Nat) (p : Nat → Bool) (s : State) : State :=
  ((engOf s core).cmds.filter fun c => p c.team).foldl (fun s c => stopScan core c s) s

end Sys2Proof.Machine
end

