-- ==== Sys2Proof/Machine/Centroids.lean ====
section
/-! DEFINITION. The centroid bank (R176 to R184, R316): its commands are applied one at a time, and each is checked as it
is applied. -/

namespace Sys2Proof.Machine

open Sys2Proof

/-! ## Acceptance -/

/-- A bank command: it uses the bank, and its signers go on at completion. -/
def bankCmd (k : CmdKind) (s : State) : Accept := .ok ({ kind := k, uses := [(.cab, true)], hold := true }, s)

/-- The team that holds the bank of a core after every command accepted so far. -/
def cabAfter (s : State) (core : Nat) : Option Nat :=
  (engOf s core).cmds.foldl (fun r c =>
    match c.kind with
    | .ccfg .. => r.orElse fun _ => some c.team
    | .ccfgFree => if r = some c.team then none else r
    | _ => r) ((engOf s core).cab.map fun b => b.team)

/-- CINS at acceptance: the vector is read, with 0 for an empty lane slot. CINS.ord, which its window may hold, is checked
here, for CAB_CONFIG before ORDER_VIOLATION (R303, R316). -/
def acceptCins (ord : Bool) (c : GReg) (v : VReg) (e : EngEnv) (s : State) : Accept := do
  need (!ord || cabAfter s (homeOf s e.g) == some e.g.place.team) 0x15 0
  need (!ord || !ordBad s e.g) 0x1C 0
  .ok ({ kind := .cins ord c.toNat ((laneWords e.g v.toNat 0).map BitVec.toNat), uses := [(.cab, true)], hold := true,
         ord := ord }, s)

/-! ## Entries (R178) -/

/-- The bank of a core that a team holds; CAB_CONFIG otherwise (R176). -/
def teamCab (s : State) (core team : Nat) : Except EngErr Cab :=
  match (engOf s core).cab with
  | some b => if b.team = team then .ok b else .error (0x15, 0)
  | none => .error (0x15, 0)

/-- Store the bank of a core. -/
def setCab (core : Nat) (b : Option Cab) (s : State) : State := modEng core (fun x => { x with cab := b }) s

/-- The integer nearest a quotient, ties to even. -/
def nearestQuot (v : Int) (n : Nat) : Int :=
  let q := roundQuot .rn (decide (v < 0)) (v.natAbs / n) (v.natAbs % n) n
  if v < 0 then -Int.ofNat q else Int.ofNat q

/-- The integer centroid of an entry. -/
def centroid (x : Centroid) : List Int := x.sums.map fun v => nearestQuot v x.n

/-- A component of the FP32 centroid. -/
def centroidF32 (ec : Int) (x : Centroid) (k : Nat) : Word :=
  let v := x.sums.getD k 0
  let up := if 0 ≤ ec then 2 ^ ec.toNat else 1
  let down := if ec < 0 then 2 ^ (-ec).toNat else 1
  BitVec.ofNat 32 (roundRat fp32 .rn (decide (v < 0)) (v.natAbs * up) (x.n * down)).code

/-- The squared distance between two vectors. -/
def squareDist (a b : List Int) : Nat := ((a.zip b).map fun p => ((p.1 - p.2) * (p.1 - p.2)).natAbs).foldl (fun u v => u + v) 0

/-- Add a vector to an entry. -/
def joinCentroid (x : Centroid) (y : List Int) (n : Nat) : Centroid :=
  { n := x.n + n, sums := (x.sums.zip y).map fun p => p.1 + p.2 }

/-- The lowest free entry. -/
def freeEntry (b : Cab) : Option Nat := findBelow (fun i => !kvHas b.ents i) 256 0

/-- The status word of a claimed bank. -/
def cabStatus (b : Cab) : Nat :=
  b.ents.length + 2 ^ 23 * b.fmt + 2 ^ 27 * b.policy + 2 ^ 29 * bitNum b.nanrej + 2 ^ 30 * bitNum b.clamp + 2 ^ 31

/-! ## Merging (R181) -/

/-- The pairs that may merge, with their distances, in lexicographic order. -/
def mergePairs : KV Centroid → List (Nat × Nat × Nat)
  | [] => []
  | (i, x) :: rest =>
    (rest.filterMap fun e => if x.n + e.2.n < 2 ^ 32 then
        some (squareDist (centroid x) (centroid e.2), i, e.1) else none) ++ mergePairs rest

/-- The closest pair: its distance and its two entries. -/
def closestPair (b : Cab) : Option (Nat × Nat × Nat) :=
  leastBy (fun x y : Nat × Nat × Nat => decide (x.1 < y.1) || (x.1 == y.1 && (decide (x.2.1 < y.2.1) || (x.2.1 == y.2.1 && decide (x.2.2 < y.2.2)))))
    (mergePairs b.ents)

/-- Merge entry `j` into entry `i`. -/
def mergePair (b : Cab) (i j : Nat) : Cab :=
  match kvGet b.ents i, kvGet b.ents j with
  | some x, some y => { b with ents := kvDel (kvSet b.ents i (joinCentroid x y.sums y.n)) j }
  | _, _ => b

/-- CMRG: what it leaves of the bank, and its result and gp15. -/
def cabMerge (bound : Bool) (b : Cab) : Cab × Nat × Bool :=
  match closestPair b with
  | some (d, i, j) => if bound && decide (b.rad2 < d) then (b, 0xFFFFFFFF, false) else (mergePair b i j, i, true)
  | none => (b, 0xFFFFFFFF, false)

/-! ## Insertion (R179, R180) -/

/-- The value of a component in the bank's format. -/
def cabVal (fmt w : Nat) : FVal := if fmt = 2 then fval fp32 w else fval bf16 (w % 2 ^ 16)

/-- A component in units, and whether it saturated. -/
def cabUnits (ec : Int) (x : FVal) : Int × Bool :=
  let lo : Int := -(2 ^ 23)
  let hi : Int := 2 ^ 23 - 1
  match x with
  | .fin neg m e =>
    let v := floorAt neg m e ec
    if v < lo then (lo, true) else if hi < v then (hi, true) else (v, false)
  | .inf neg => (if neg then lo else hi, true)
  | .nan _ => (0, false)

/-- The entry that a vector is nearest to, among those whose count can grow, with its squared distance. -/
def nearestEntry (b : Cab) (x : List Int) : Option (Nat × Nat) :=
  (leastBy (fun a c : Nat × Nat => decide (a.2 < c.2) || (a.2 == c.2 && decide (a.1 < c.1)))
    ((b.ents.filter fun e => decide (e.2.n < 2 ^ 32 - 1)).map fun e => (e.1, squareDist x (centroid e.2))))

/-- Open an entry for a vector at the lowest free index. -/
def openEntry (b : Cab) (x : List Int) : Cab × Nat × Bool :=
  match freeEntry b with
  | some f => ({ b with ents := kvSet b.ents f { n := 1, sums := x } }, f, true)
  | none => (b, 0xFFFFFFFF, false)

/-- The entry that SPILL writes out: the one with the least count, the lowest index on a tie. -/
def spillEntry (b : Cab) : Option (Nat × Centroid) :=
  leastBy (fun x y : Nat × Centroid => decide (x.2.n < y.2.n) || (x.2.n == y.2.n && decide (x.1 < y.1))) b.ents

/-- The bytes of a spill slot. -/
def spillBytes (ec : Int) (i : Nat) (x : Centroid) : List Byte :=
  (x.sums.flatMap fun v => bytesOfNat 8 (unsignedOf 64 v)) ++ bytesOfNat 4 x.n ++ bytesOfNat 4 i
    ++ bytesOfNat 2 (unsignedOf 16 ec) ++ List.replicate 54 0

/-- The environment of a command, for the checks that are made as it is applied. -/
def cmdEnv (s : State) (c : Cmd) : EngEnv := { gid := c.gid, g := getGroup s c.gid, mask := c.mask, pc := c.pc }

/-- Make room under the bank-full policy: the bank with a free entry, or none when the insertion is rejected. -/
def makeRoom (c : Cmd) (b : Cab) (s : State) : Except EngErr (Option Cab × State) :=
  match b.policy with
  | 1 => match closestPair b with
    | some (_, i, j) => .ok (some (mergePair b i j), s)
    | none => .ok (none, s)
  | 2 => match spillEntry b with
    | none => .ok (none, s)
    | some (i, x) => do
      let ps ← rangePieces s (cmdEnv s c) false .store (b.ring + 576 * (b.spillcnt % b.ringn)) 576
      pure (some { b with ents := kvDel b.ents i, spillcnt := (b.spillcnt + 1) % 2 ^ 64 },
        cmdWrite c ps (spillBytes b.ec i x) (notePieces (cmdEnv s c) ps s))
  | _ => .ok (none, s)

/-- Write a bank command's result: the bank, c and gp15. -/
def cabResult (c : Cmd) (core r : Nat) (x : Cab × Nat × Bool) (s : State) : State :=
  cmdSetGp c x.2.2 (cmdSetU c r x.2.1 (setCab core (some x.1) s))

/-- CINS. -/
def applyCins (c : Cmd) (core r : Nat) (vals : List Nat) (s : State) : Except EngErr State := do
  let b ← teamCab s core c.team
  let xs := vals.map (cabVal b.fmt)
  if xs.any isNaN then pure (cabResult c core r ({ b with nanrej := true }, 0xFFFFFFFE, false) s)
  else
    let us := xs.map (cabUnits b.ec)
    let b := { b with clamp := b.clamp || us.any fun u => u.2 }
    let x := us.map fun u => u.1
    match nearestEntry b x with
    | some (i, d) =>
      if d ≤ b.rad2 then
        pure (cabResult c core r ({ b with ents := kvMod b.ents i fun y => joinCentroid y x 1 }, i, false) s)
      else insertNew c core r b x s
    | none => insertNew c core r b x s
where
  /-- Open a new entry, making room first when none is free. -/
  insertNew (c : Cmd) (core r : Nat) (b : Cab) (x : List Int) (s : State) : Except EngErr State := do
    if (freeEntry b).isSome then pure (cabResult c core r (openEntry b x) s)
    else
      let m ← makeRoom c b s
      match m.1 with
      | some b => pure (cabResult c core r (openEntry b x) m.2)
      | none => pure (cabResult c core r (b, 0xFFFFFFFF, false) m.2)

/-- CMRG. -/
def applyCmrg (c : Cmd) (core : Nat) (bound : Bool) (r : Nat) (s : State) : Except EngErr State := do
  let b ← teamCab s core c.team
  pure (cabResult c core r (cabMerge bound b) s)

/-! ## CRD (R182) -/

/-- Write a lane register of every resident fibre of a command's group. -/
def cmdSetLanes (c : Cmd) (r : Nat) (f : Nat → Word) (s : State) : State :=
  modGroup s c.gid fun g => { g with fibres := kvMap g.fibres fun l x => setReg x r (f l) }

/-- The bank and an entry index of a CRD. -/
def crdIndex (c : Cmd) (core a : Nat) (s : State) : Except EngErr Cab := do
  let b ← teamCab s core c.team
  need (decide (a < 256)) 0x15 0
  pure b

/-- CRD.cent: the FP32 centroid; +0 for an invalid entry. -/
def applyCrdCent (c : Cmd) (core v a : Nat) (s : State) : Except EngErr State := do
  let b ← crdIndex c core a s
  pure (cmdSetLanes c v (fun l => match kvGet b.ents a with | some x => centroidF32 b.ec x l | none => 0) s)

/-- CRD.sum: the sums, low words in v and high words in v+1. -/
def applyCrdSum (c : Cmd) (core v a : Nat) (s : State) : Except EngErr State := do
  let b ← crdIndex c core a s
  let sum (l : Nat) : Nat := match kvGet b.ents a with | some x => unsignedOf 64 (x.sums.getD l 0) | none => 0
  pure (cmdSetLanes c (v + 1) (fun l => BitVec.ofNat 32 (sum l / 2 ^ 32)) (cmdSetLanes c v (fun l => BitVec.ofNat 32 (sum l)) s))

/-- CRD.cnt: the count, and gp15 the valid bit. -/
def applyCrdCnt (c : Cmd) (core r a : Nat) (s : State) : Except EngErr State := do
  let b ← crdIndex c core a s
  let x := kvGet b.ents a
  pure (cmdSetGp c x.isSome (cmdSetU c r ((x.map fun y => y.n).getD 0) s))

/-- CRD.stat: the status word and SPILLCNT. -/
def applyCrdStat (c : Cmd) (core r : Nat) (s : State) : Except EngErr State := do
  let b ← teamCab s core c.team
  pure (cmdSetU c (r + 1) b.spillcnt (cmdSetU c r (cabStatus b) s))

/-! ## CCFG (R177) -/

/-- Whether a configuration record is one that the bank takes. -/
def ccfgOk (v : Nat) : Bool :=
  let policy := field v 36 2
  let fmt := field v 32 4
  let ring := field v 192 64
  let ringn := field v 160 32
  v / 2 ^ 256 == 0 && field v 38 58 == 0 && field v 16 16 == 0 && policy != 3 && (fmt == 2 || fmt == 3)
    && (ringn == 0 || (decide (ringn ≤ 65536) && ringn == 2 ^ ringn.log2)) && ring % 64 == 0
    && !(policy == 2 && ringn == 0)

/-- The bank as a record configures it, empty. -/
def cabOf (team v : Nat) : Cab :=
  { team := team, rad2 := field v 96 64, policy := field v 36 2, fmt := field v 32 4, ec := signedOf 16 v,
    ring := field v 192 64, ringn := field v 160 32 }

/-- CCFG and CCFG.keep. -/
def applyCcfg (c : Cmd) (core : Nat) (keep : Bool) (va : Nat) (s : State) : Except EngErr State := do
  let old := (engOf s core).cab
  let mine := match old with | some b => b.team == c.team | none => false
  need (if keep then mine else mine || old.isNone) 0x15 0
  need (va % 64 == 0) 0x03 va
  let ps ← rangePieces s (cmdEnv s c) false .load va 64
  let r := cmdRead c true ps (notePieces (cmdEnv s c) ps s)
  let v := natOfBytes r.1
  need (ccfgOk v) 0x15 va
  let new := cabOf c.team v
  match old with
  | some b =>
    if keep then do
      need (b.ec == new.ec && b.fmt == new.fmt) 0x15 va
      pure (setCab core (some { b with rad2 := new.rad2, policy := new.policy, ring := new.ring, ringn := new.ringn }) r.2)
    else pure (setCab core (some new) r.2)
  | none => pure (setCab core (some new) r.2)

/-- CCFG.free: the bank is empty and nobody's. -/
def applyCcfgFree (c : Cmd) (core : Nat) (s : State) : Except EngErr State := do
  let _ ← teamCab s core c.team
  pure (setCab core none s)

end Sys2Proof.Machine
end

