-- ==== Sys2Proof/Machine/SurveyOps.lean ====
section
/-! DEFINITION. The Survey instructions (R225 to R229, R377): each is checked as it is applied, and its signers go on when
it has completed. -/

namespace Sys2Proof.Machine

open Sys2Proof

/-- A Survey command: it uses the tables, and its signers go on at completion. -/
def surveyCmd (k : CmdKind) (s : State) : Accept := .ok ({ kind := k, uses := [(.tables, true)], hold := true }, s)

/-- A Survey address (R225). -/
structure SvAddr where
  table : Nat
  unit : Nat
  index : Nat

/-- The entries of a table. -/
def tableSize : Nat → Nat
  | 0 => 64
  | 1 => 256
  | 2 => 1024
  | 3 => 64
  | _ => 4096

/-- Read a Survey address, for a group slot; SURVEY_ACCESS for a value that the table of R225 does not allow. -/
def svAddr (slot v : Nat) : Except EngErr SvAddr := do
  let t := field v 28 4
  let here := v.testBit 27
  let unit := field v 20 7
  let i := field v 0 12
  need (decide (t ≤ 4) && field v 12 8 == 0 && decide (i < tableSize t)) 0x1D 0
  need (if t ≤ 1 then (if here then unit == 0 else decide (unit < 8))
        else !here && (if t = 4 then decide (unit < 48) else unit == 0)) 0x1D 0
  pure { table := t, unit := if here then subOfSlot slot else unit, index := i }

/-- The number of a stride entry or fetch entry in a bank. -/
def svIndex (a : SvAddr) : Nat := tableSize a.table * a.unit + a.index

/-- An entry of the bank of an owner, as four registers carry it. -/
def svRead (s : State) (core owner : Nat) (a : SvAddr) : Nat :=
  let b := (findBank s core owner).getD (clearedBank owner)
  match a.table with
  | 0 => (kvGetD b.stride (svIndex a) 0).toNat
  | 1 => (kvGetD b.fetch (svIndex a) 0).toNat
  | 2 => sigCount b.sig a.index
  | 3 => kvGetD b.est a.index 0
  | _ => match findSliceBank s a.unit owner with | some x => sigCount x.sig a.index | none => 1

/-- Whether the reserved bits of a written entry are zero. -/
def svEntryOk (t v : Nat) : Bool :=
  match t with
  | 0 => strideOk (BitVec.ofNat 128 v)
  | 1 => v / 2 ^ 41 == 0
  | 3 => decide (v < 2 ^ 16)
  | _ => decide (v < 8)

/-- Write an entry of the bank of an owner. -/
def svStore (core owner : Nat) (a : SvAddr) (v : Nat) (s : State) : State :=
  match a.table with
  | 0 => modBank core owner (fun b => { b with stride := kvSet b.stride (svIndex a) (normStride (BitVec.ofNat 128 v)) }) s
  | 1 => modBank core owner (fun b => { b with fetch := kvSet b.fetch (svIndex a) (normFetch (BitVec.ofNat 256 v)) }) s
  | 2 => modBank core owner (fun b => { b with sig := kvSet b.sig a.index v }) s
  | 3 => modBank core owner (fun b => { b with est := kvSet b.est a.index v }) s
  | _ => modSlice a.unit (fun x => { x with banks := x.banks.map fun b =>
      if b.owner = owner then { b with sig := kvSet b.sig a.index v } else b }) s

/-- Make the bank that a Survey address names resident, where it is a slice's. -/
def svResident (owner : Nat) (a : SvAddr) (s : State) : State := if a.table = 4 then residentSliceBank a.unit owner s else s

/-- SVRD. -/
def applySvrd (c : Cmd) (r addr : Nat) (s : State) : Except EngErr State := do
  let a ← svAddr (slotOfGid c.gid) addr
  let s := svResident c.owner a s
  let v := svRead s (coreOfGid c.gid) c.owner a
  pure ((List.range 4).foldl (fun s i => cmdSetU c (r + i) (field v (32 * i) 32) s) s)

/-- SVWR. -/
def applySvwr (c : Cmd) (addr : Nat) (ws : List Word) (s : State) : Except EngErr State := do
  let a ← svAddr (slotOfGid c.gid) addr
  let v := natOfBytes (bytesOfWords ws)
  need (svEntryOk a.table v) 0x1D 0
  pure (svStore (coreOfGid c.gid) c.owner a v (svResident c.owner a s))

/-- Clear the signatures of an owner in a slice: its resident bank, or the image of one that is not resident. -/
def clearSliceSig (owner n : Nat) (s : State) : State :=
  match findSliceBank s n owner with
  | some _ => modSlice n (fun x => { x with banks := x.banks.map fun b => if b.owner = owner then { b with sig := [] } else b }) s
  | none => { s with mem := memPut s.mem (sliceImageAt s owner n) [0, 0] }

/-- SVCLR: the tables that a mask names take their reset values (R227). -/
def applySvclr (c : Cmd) (mask : Nat) (s : State) : Except EngErr State := do
  need (decide (mask < 64)) 0x1D 0
  let s := modBank (coreOfGid c.gid) c.owner (fun b =>
    let b := if mask.testBit 0 then { b with stride := [] } else b
    let b := if mask.testBit 1 then { b with fetch := [] } else b
    let b := if mask.testBit 2 then { b with sig := [] } else b
    let b := if mask.testBit 3 then { b with est := [], lastArr := [] } else b
    if mask.testBit 5 then { b with pfdist := 2 } else b) s
  pure (if mask.testBit 4 then (List.range 48).foldl (fun s n => clearSliceSig c.owner n s) s else s)

/-- The slice that a register names, if the form names one. -/
def svSlice (slice : Option Nat) : Except EngErr Unit :=
  match slice with
  | some n => need (decide (n < 48)) 0x1D 0
  | none => .ok ()

/-- The size of an image. -/
def svImageBytes (slice : Option Nat) : Nat := if slice.isSome then 1600 else 25152

/-- SVSAVE (R228). -/
def applySvsave (c : Cmd) (slice : Option Nat) (va : Nat) (s : State) : Except EngErr State := do
  svSlice slice
  need (va % 64 == 0) 0x03 va
  let ps ← rangePieces s (cmdEnv s c) false .store va (svImageBytes slice)
  let s := notePieces (cmdEnv s c) ps s
  match slice with
  | some n =>
    let s := residentSliceBank n c.owner s
    pure (cmdWrite c ps (sliceImage ((findSliceBank s n c.owner).getD { owner := c.owner })) s)
  | none =>
    pure (cmdWrite c ps (coreImage ((findBank s (coreOfGid c.gid) c.owner).getD (clearedBank c.owner))) s)

/-- SVLOAD (R228). -/
def applySvload (c : Cmd) (slice : Option Nat) (va : Nat) (s : State) : Except EngErr State := do
  svSlice slice
  need (va % 64 == 0) 0x03 va
  let ps ← rangePieces s (cmdEnv s c) false .load va (svImageBytes slice)
  let r := cmdRead c true ps (notePieces (cmdEnv s c) ps s)
  match slice with
  | some n => do
    let b ← needSome (parseSlice c.owner r.1) 0x1D va
    let s := residentSliceBank n c.owner r.2
    pure (modSlice n (fun x => { x with banks := x.banks.map fun y => if y.owner = c.owner then b else y }) s)
  | none => do
    let b ← needSome (parseCore c.owner r.1) 0x1D va
    pure (modBank (coreOfGid c.gid) c.owner (fun _ => b) r.2)

end Sys2Proof.Machine
end

