-- ==== Sys2Proof/Machine/Engine.lean ====
section
/-! DEFINITION. The issue of engine instructions whose signature is complete (R79), their acceptance by the sequencers
(R100, R103, R160, R200), and the completion of accepted commands (R132). -/

namespace Sys2Proof.Machine

open Sys2Proof

/-! ## Where an instruction is accepted -/

/-- The sequencer that accepts an engine instruction: the key-value sequencer, the core's route sequencer, or an engine that
takes it as it comes. -/
inductive EngUnit where | kv | route | direct
  deriving DecidableEq, Repr

/-- The sequencer of an instruction. -/
def unitOf : Instr → EngUnit
  | .attn .. | .attnMaxima .. | .attnGiven .. | .attnFinish .. | .kvapp .. | .kvfork .. | .kvdrop .. => .kv
  | .route .. | .rtbind .. | .rtrd .. | .rtrdFree .. => .route
  | _ => .direct

/-- Accept an instruction of an engine that takes it as it comes, or trap. -/
def acceptDirect (i : Instr) (e : EngEnv) (s : State) : State :=
  let home := homeOf s e.g
  let own := coreOfGid e.gid
  match i with
  | .shld _ t a => acceptCmd home e (acceptShld t a e s) s
  | .shev _ t => acceptCmd home e (acceptShev t e s) s
  | .tld _ bh t a b c => acceptCmd home e (acceptTld bh t a b c e s) s
  | .tst _ t a b c => acceptCmd home e (acceptTst t a b c e s) s
  | .mldb _ ty sc lt mask a b c => acceptCmd home e (acceptMldb ty sc lt mask a b c e s) s
  | .mma _ ty mode sc rv h t a b v => acceptCmd home e (acceptMma ty mode sc rv h t a b v e s) s
  | .topen _ auto t a => acceptCmd home e (acceptTopen auto t a e s) s
  | .tread _ ty h t a b => acceptCmd home e (acceptTread ty h t a b e s) s
  | .treadStat _ t c => acceptCmd home e (acceptTreadStat t c e s) s
  | .tred _ h t a b c => acceptCmd home e (acceptTred h t a b c e s) s
  | .cins _ ord c v => acceptCmd home e (acceptCins ord c v e s) s
  | .cmrg _ bound c => acceptCmd home e (bankCmd (.cmrg bound c.toNat) s) s
  | .crdCent _ v a => acceptCmd home e (bankCmd (.crdCent v.toNat (uArg e a)) s) s
  | .crdSum _ v a => acceptCmd home e (bankCmd (.crdSum v.toNat (uArg e a)) s) s
  | .crdCnt _ c a => acceptCmd home e (bankCmd (.crdCnt c.toNat (uArg e a)) s) s
  | .crdStat _ c => acceptCmd home e (bankCmd (.crdStat c.toNat) s) s
  | .ccfg _ a => acceptCmd home e (bankCmd (.ccfg false (uPair e a)) s) s
  | .ccfgKeep _ a => acceptCmd home e (bankCmd (.ccfg true (uPair e a)) s) s
  | .ccfgFree _ => acceptCmd home e (bankCmd .ccfgFree s) s
  | .ssmld _ a => acceptCmd home e (acceptSsmld a e s) s
  | .ssmscan _ t a b => acceptCmd home e (acceptScan false t a b e s) s
  | .ssmstep _ t a b => acceptCmd home e (acceptScan true t a b e s) s
  | .ssmst _ a => acceptCmd home e (acceptSsmst false a e s) s
  | .ssmstFree _ a => acceptCmd home e (acceptSsmst true a e s) s
  | .rtbind _ a b => acceptCmd home e (acceptRtbind a b e s) s
  | .rtrd _ v c a => acceptCmd home e (acceptRtrd false v c a e s) s
  | .rtrdFree _ v c a => acceptCmd home e (acceptRtrd true v c a e s) s
  | .svrd _ c a => acceptCmd own e (surveyCmd (.svrd c.toNat (uArg e a)) s) s
  | .svwr _ a b => acceptCmd own e (surveyCmd (.svwr (uArg e a) ((regRange b.toNat 4).map (getU e.g))) s) s
  | .svclr _ a => acceptCmd own e (surveyCmd (.svclr (uArg e a)) s) s
  | .svsave _ slice a b => acceptCmd own e (surveyCmd (.svsave (if slice then some (uArg e b) else none) (uPair e a)) s) s
  | .svload _ slice a b => acceptCmd own e (surveyCmd (.svload (if slice then some (uArg e b) else none) (uPair e a)) s) s
  | .ambind _ a b => acceptCmd own e (acceptAmbind false a b e s) s
  | .ambindAll _ a b => acceptCmd own e (acceptAmbind true a b e s) s
  | .ambindInbox _ a => acceptCmd own e (acceptAmbindInbox a e s) s
  | .ambindNone _ a => acceptCmd own e (acceptAmbindNone a e s) s
  | _ => s

/-- Accept an instruction of the key-value sequencer, or trap. -/
def acceptKv (i : Instr) (e : EngEnv) (s : State) : State :=
  let home := homeOf s e.g
  match i with
  | .attn _ ty nb a b c => acceptAttn e (attnScores 0 ty nb a b c e s) s
  | .attnMaxima _ nb a b c => acceptAttn e (attnScores 1 .f32 nb a b c e s) s
  | .attnGiven _ nb a b c => acceptAttn e (attnScores 2 .f32 nb a b c e s) s
  | .attnFinish _ ty nb a b c => acceptAttn e (attnFinish ty nb a b c e s) s
  | .kvapp _ a b c => acceptCmd home e (acceptKvapp a b c e s) s
  | .kvfork _ a b c => acceptCmd home e (acceptKvfork a b c e s) s
  | .kvdrop _ a => acceptCmd home e (acceptKvdrop a e s) s
  | _ => s

/-! ## Issue (R79, R132) -/

/-- Whether a group's engine instructions may be accepted: its context is not on the fatal path, pre-emption has not
stopped it, and TL is below 63. -/
def mayAccept (s : State) (gid : Nat) : Bool :=
  let g := getGroup s gid
  kvHas s.groups gid && (getCtx s g.place.owner).fatal.isNone && !g.sched.preempted && decide (counter g .tl < 63)

/-- The engine instructions that wait in a group for TL are accepted, oldest first, while it is below 63. -/
def drainFrom (gid : Nat) : Nat → State → State
  | 0, s => s
  | n + 1, s =>
    match (getGroup s gid).engQ with
    | [] => s
    | w :: ws =>
      if mayAccept s gid then
        let s := modGroup s gid fun g => { g with engQ := ws }
        drainFrom gid n (acceptDirect w.instr (engEnv s gid w.mask w.pc) s)
      else s

/-- Accept what a group has waiting. -/
def drainEngQ (gid : Nat) (s : State) : State := drainFrom gid (getGroup s gid).engQ.length s

/-- An engine instruction issues once, for the lanes that signed it at a PC. -/
def engineIssue (gid : Nat) (i : Instr) (m : LaneMask) (pc : Word) (s : State) : State :=
  let w : EngWait := { instr := i, mask := m, pc := pc }
  match unitOf i with
  | .kv => { s with kv := { s.kv with queue := s.kv.queue ++ [(gid, w)] } }
  | .route => modEng (homeOf s (getGroup s gid)) (fun x => { x with routeQ := x.routeQ ++ [(gid, w)] }) s
  | .direct => drainEngQ gid (modGroup s gid fun g => { g with engQ := g.engQ ++ [w] })

/-! ## Acceptance events -/

/-- KV_ACCEPT (R160): the key-value sequencer accepts the oldest instruction whose group's TL is below 63. -/
def execKvAccept (s : State) : Host.Outcome State Fault Refusal :=
  match s.kv.queue.find? fun q => mayAccept s q.1 with
  | none => .next s
  | some q =>
    let s := { s with kv := { s.kv with queue := s.kv.queue.erase q } }
    .next (acceptKv q.2.instr (engEnv s q.1 q.2.mask q.2.pc) s)

/-- The lowest free entry of a core: one whose name no entry of the team has kept through a resume. -/
def unusedEnt (s : State) (core team : Nat) : Option Nat :=
  let es := (engOf s core).ents
  if 16 ≤ es.length then none
  else findBelow (fun n => !kvHas es n && !(es.any fun e => e.2.team == team && e.2.num == n)) 16 0

/-- Whether the route sequencer can take an instruction that waits for it: TL is below 63, and a ROUTE has a free entry. -/
def routeTakes (s : State) (core : Nat) (q : Nat × EngWait) : Bool :=
  mayAccept s q.1 && (match q.2.instr with
    | .route .. => (unusedEnt s core (getGroup s q.1).place.team).isSome
    | _ => true)

/-- ROUTE_ACCEPT (R198, R200): the route sequencer of a core takes the oldest instruction that it can take: a ROUTE, which
gets the lowest free entry, an RTBIND or an RTRD. A ROUTE without a free entry holds no RTRD back (DEDUCED: the RTRD may be
the one that frees it; log 13). -/
def execRouteAccept (core : Nat) (s : State) : Host.Outcome State Fault Refusal :=
  match (engOf s core).routeQ.find? (routeTakes s core) with
  | none => .next s
  | some q =>
    let s := modEng core (fun x => { x with routeQ := x.routeQ.erase q }) s
    let e := engEnv s q.1 q.2.mask q.2.pc
    match routeArgs e q.2.instr, unusedEnt s core e.g.place.team with
    | some r, some n => .next (settleRoutes core (acceptRoute core n e r s))
    | _, _ => .next (acceptDirect q.2.instr e s)

/-! ## Completion -/

/-- A command has its effect and is complete, or faults as it is applied. -/
def runCmd (core : Nat) (c : Cmd) (s : State) : State :=
  match c.kind with
  | .shld n words phys => finishCmd core c (applyShape c n (some { words := words, phys := phys }) s)
  | .shev n => finishCmd core c (applyShape c n none s)
  | .tld addr pitch len rows => finishCmd core c (applyTld c addr pitch len rows s)
  | .tst addr pitch rows => finishCmd core c (applyTst c addr pitch rows s)
  | .mldb ty mask addr scale table ps qs => finishCmd core c (applyMldb c core ty mask addr scale table ps qs s)
  | .mma ty mode rv h t a pitch scales replay =>
    finishCmd core c (applyMma c core ty mode rv h t a pitch scales replay s)
  | .topen t auto e => finishCmd core c (applyTopen c t auto e s)
  | .tread ty _ t _ rows => finishCmd core c (applyTread c ty t rows s)
  | .treadStat t d => finishCmd core c (cmdSetU c d (getTile s c.team t).status.toNat s)
  | .tred t head rows => finishCmd core c (applyTred c t head rows s)
  | .cins _ d vals => settleCmd core c (applyCins c core d vals s) s
  | .cmrg bound d => settleCmd core c (applyCmrg c core bound d s) s
  | .crdCent v a => settleCmd core c (applyCrdCent c core v a s) s
  | .crdSum v a => settleCmd core c (applyCrdSum c core v a s) s
  | .crdCnt d a => settleCmd core c (applyCrdCnt c core d a s) s
  | .crdStat d => settleCmd core c (applyCrdStat c core d s) s
  | .ccfg keep va => settleCmd core c (applyCcfg c core keep va s) s
  | .ccfgFree => settleCmd core c (applyCcfgFree c core s) s
  | .ssmld head ps => finishCmd core c (applySsmld c core head ps s)
  | .scan a t row n => finishCmd core c (applyScan c core a t row n s)
  | .ssmst free ps => finishCmd core c (applySsmst c core free ps s)
  | .kvapp | .kvfork | .kvdrop => finishCmd core c s
  | .rtbind v e => finishCmd core c (applyRtbind c v e s)
  | .rtrd free v d n gen ws done => finishCmd core c (applyRtrd core c free v d n gen ws done s)
  | .svrd d addr => settleCmd core c (applySvrd c d addr s) s
  | .svwr addr ws => settleCmd core c (applySvwr c addr ws s) s
  | .svclr mask => settleCmd core c (applySvclr c mask s) s
  | .svsave slice va => settleCmd core c (applySvsave c slice va s) s
  | .svload slice va => settleCmd core c (applySvload c slice va s) s
  | .ambind dom clus hid t => finishCmd core c (applyAmbind dom clus hid t s)

/-- Whether a command still runs in a domain reset or after its group is gone. -/
def cmdAlive (s : State) (c : Cmd) : Bool := kvHas s.groups c.gid && (getGroup s c.gid).place.team == c.team

/-- Complete a command of a core that an event names, if it is of the event's kind and may run; what waits for it goes
on. -/
def completeCmd (kind : CmdKind → Bool) (core id : Nat) (s : State) : State :=
  match findCmd s core id with
  | none => s
  | some c =>
    if kind c.kind && cmdAlive s c && cmdReady s core c then
      drainEngQ c.gid (settleRoutes core (runCmd core c s))
    else s

/-- Whether a command's completion has an event of its own. -/
def ownEvent : CmdKind → Bool
  | .tld .. | .tst .. | .mldb .. | .mma .. | .tred .. => true
  | _ => false

/-- TLD_COMPLETE (R103). -/
def execTldComplete (core id : Nat) (s : State) : Host.Outcome State Fault Refusal :=
  .next (completeCmd (fun k => match k with | .tld .. => true | _ => false) core id s)

/-- TST_COMPLETE (R103). -/
def execTstComplete (core id : Nat) (s : State) : Host.Outcome State Fault Refusal :=
  .next (completeCmd (fun k => match k with | .tst .. => true | _ => false) core id s)

/-- MLDB_COMPLETE (R350). -/
def execMldbComplete (core id : Nat) (s : State) : Host.Outcome State Fault Refusal :=
  .next (completeCmd (fun k => match k with | .mldb .. => true | _ => false) core id s)

/-- MMA_COMPLETE (R103). -/
def execMmaComplete (core id : Nat) (s : State) : Host.Outcome State Fault Refusal :=
  .next (completeCmd (fun k => match k with | .mma .. => true | _ => false) core id s)

/-- Whether a command is a TRED. -/
def isTred : CmdKind → Bool
  | .tred .. => true
  | _ => false

/-- A command whose elements have entered the network. -/
def markSent (core id : Nat) (s : State) : State :=
  modEng core (fun y => { y with cmds := y.cmds.map fun c => if c.id = id then { c with sent := true } else c }) s

/-- A TRED that may start sends its elements; it completes once all of them have been added (R97, R272). A twin copy's are staged
as it completes (R281). -/
def tredComplete (core id : Nat) (s : State) : State :=
  match findCmd s core id with
  | none => s
  | some c =>
    match c.kind with
    | .tred t _ rows =>
      if c.sent || twinCopy s (getGroup s c.gid) then
        (if tredTravels s id then s else completeCmd isTred core id s)
      else if cmdAlive s c && cmdReady s core c then markSent core id (sendTred c t rows s)
      else s
    | _ => s

/-- TRED_COMPLETE (R380): a TRED starts, or completes. -/
def execTredComplete (core id : Nat) (s : State) : Host.Outcome State Fault Refusal := .next (tredComplete core id s)

/-- ENGINE_COMMAND_COMPLETE (R132): any other counted engine command completes. -/
def execEngineCommandComplete (core id : Nat) (s : State) : Host.Outcome State Fault Refusal :=
  .next (completeCmd (fun k => !ownEvent k) core id s)

/-- Accept what the group of a number has waiting after a change of its TL. -/
def drainAll (s : State) : State :=
  (s.groups.filter fun e => !e.2.engQ.isEmpty).foldl (fun s e => drainEngQ e.1 s) s

/-- ATTN_COMPLETE (R173). -/
def execAttnComplete (id : Nat) (s : State) : Host.Outcome State Fault Refusal := .next (drainAll (attnComplete id s))

/-- ROUTE_PAIR_SEND (R202). -/
def execRoutePairSend (core n : Nat) (s : State) : Host.Outcome State Fault Refusal :=
  .next (drainAll (routePairSend core n s))

/-- ROUTE_SPILL_REPLAY (R388). -/
def execRouteSpillReplay (core n : Nat) (s : State) : Host.Outcome State Fault Refusal :=
  .next (drainAll (routeSpillReplay core n s))

/-- ROUTE_RETURN (R204). -/
def execRouteReturn (i : Nat) (s : State) : Host.Outcome State Fault Refusal := .next (drainAll (routeReturn i s))

/-- DROP_NOTICE (R205). -/
def execDropNotice (i : Nat) (s : State) : Host.Outcome State Fault Refusal := .next (drainAll (dropNotice i s))

/-- ROUTE_TIMEOUT (R205). -/
def execRouteTimeout (core n : Nat) (s : State) : Host.Outcome State Fault Refusal :=
  .next (drainAll (routeTimeout core n s))

end Sys2Proof.Machine
end

