-- ==== Sys2Proof/Machine/Conv.lean ====
section
/-! DEFINITION. Convergence registers (R74 to R80): signing, completion and the removal of fibres that exit. -/

namespace Sys2Proof.Machine

open Sys2Proof

/-- A convergence register of a group. -/
def getCv (g : Group) (n : Nat) : CvReg := g.cvs.getD n {}

/-- The declared mask of a register; that of cv0 is the fibres of the group (R78). -/
def declOf (g : Group) (n : Nat) : DWord := if n = 0 then liveMask g else (getCv g n).decl

/-- Whether a register is complete (R75). -/
def cvComplete (g : Group) (n : Nat) : Bool := (getCv g n).sign != 0 && within (declOf g n) (getCv g n).sign

/-- The PC of the instruction being signed. -/
def tagPc (c : CvReg) : Word := c.tag ++ 0#2

/-- Complete a register, if it is complete (R75, R79): its signers go on past RJWAIT, or the engine instruction issues
and they stay blocked. -/
def completeCv (gid n : Nat) (s : State) : State :=
  let g := getGroup s gid
  let c := getCv g n
  if cvComplete g n then
    let s := setGroup s gid { g with cvs := g.cvs.set n { decl := c.decl, tag := c.tag } }
    match c.eng with
    | none => resumeLanes gid c.sign (tagPc c + 4) s
    | some i => engineIssue gid i c.sign (tagPc c) (noteRun g.place.owner s)
  else s

/-- The check of R75 over the registers of a group, after the changes of a cycle. Two registers that complete in one check
complete in ascending number (DESIGN CHOICE: the manual gives no order; log 13). -/
def settle (gid : Nat) (s : State) : State :=
  if kvHas s.groups gid then (List.range 16).foldl (fun s n => completeCv gid n s) s else s

/-- The checks of every group, once after all the changes of a cycle (R75): the engine instructions that complete signatures
issue in them reach their sequencers by core, sub-core and slot (R100, R160). -/
def endIssue (s : State) : State :=
  { (s.groups.map fun e => e.1).foldl (fun s gid => settle gid s) s with stage := .late 0 }

/-- Whether signing a register at the issuing path's PC is CONV_MISMATCH (R77). -/
def signMismatch (s : State) (n : Nat) : Bool :=
  let c := getCv (curGroup s) n
  c.tv && tagPc c != s.cur.pc

/-- Sign a register with lanes of the issuing path, which become blocked (R77, R79). -/
def signCv (n : Nat) (m : LaneMask) (why : Block) (eng : Option Instr) (s : State) : State :=
  let g := curGroup s
  let c := getCv g n
  let c := if c.tv then c else { c with tag := s.cur.pc.extractLsb' 2 30, tv := true, eng := eng }
  let g := { g with cvs := g.cvs.set n { c with sign := c.sign ||| m } }
  setCurGroup s (modLanes g m fun _ f => { f with st := .blocked why })

/-- Move some lanes of the issuing path to the next instruction. -/
def advanceLanes (m : LaneMask) (n : Nat) (s : State) : State :=
  setCurGroup s (modLanes (curGroup s) m fun _ f => { f with pc := f.pc + BitVec.ofNat 32 n })

/-- Remove lanes from a group (R30, R31): they leave every declared mask, and a window that an operation still returns
into stays taken. -/
def removeLanes (m : LaneMask) (g : Group) : Group :=
  let gone := g.fibres.filter fun e => inMask m e.1
  { g with
    fibres := g.fibres.filter fun e => !inMask m e.1,
    left := gone.foldl (fun m e => match e.2.launch with | some id => kvSet m e.1 id | none => m) g.left,
    leaving := g.leaving ++ (gone.filter fun e => returnsInto g e.1).map fun e => (e.1, e.2.winBase, g.place.hdr.regs),
    cvs := g.cvs.map fun c => { c with decl := c.decl &&& ~~~m } }

/-- Fibres of the issuing path exit (R323): a group whose last fibre exits retires (R29) and ends its ordered sequence
(R151), and a handler whose last fibre exits ends (R248). -/
def exitLanes (m : LaneMask) (s : State) : State :=
  let gid := curGid s
  let g := removeLanes m (curGroup s)
  let g := if g.fibres.isEmpty then { g with st := .retiring, ordEnded := true } else g
  let s := setGroup s gid g
  match g.trap.handler with
  | some h => if g.fibres.any fun e => inMask h.mask e.1 then s else endHandler gid s
  | none => s

end Sys2Proof.Machine
end

