-- ==== Sys2Proof/Machine/Cycle.lean ====
section
/-! DEFINITION. The order within a cycle (log 1): events, then the paths of the groups, then the checks of R75 and the Survey
instructions that reach a core's tables; and which turn of the schedule is due. -/

namespace Sys2Proof.Machine

open Sys2Proof

/-- The path that issues next in the cycle, if one is left to try (R18, R33). -/
def nextPath (s : State) : Option State :=
  match s.stage, nextGroup s with
  | .issue, some (gid, port) => choosePath gid port s
  | _, _ => none

/-- The elements of a tile's reduction that have reached their end are added there (R97, R272). -/
def landPacket (s : State) (p : Packet) : State :=
  let cs := p.who.flatMap fun id => s.cores.flatMap fun c => c.2.eng.cmds.filter fun d => d.id == id
  if p.landed && !p.who.isEmpty then
    landSurface cs p { s with net := { s.net with packets := s.net.packets.filter fun q => q.id != p.id } }
  else s

/-- Whether something waits for a packet. -/
def isAwaited (s : State) (p : Packet) : Bool :=
  match p.tag with
  | some (.attn id _ _) => s.kv.attns.any fun a => a.id == id
  | some (.surface ..) => true
  | none => s.am.msgs.any (fun m => m.pkt == some p.id) || s.am.rets.any (fun r => r.pkt == some p.id)
      || s.am.drops.any fun d => d.pkt == some p.id

/-- The two network cycles of a cycle (R6, R264); then the reductions that have arrived are added, and what nothing waits for is
discarded at its end. -/
def netCycle (s : State) : State :=
  let s := { s with net := netTick (netClock s + 1) (netTick (netClock s) s.net) }
  let s := s.net.packets.foldl landPacket s
  { s with net := { s.net with packets := s.net.packets.filter fun p => !p.landed || isAwaited s p } }

/-- The stage that has nothing left to do ends: after the paths come the checks of R75, and after these the cycle ends. -/
def endStage (s : State) : State := if s.stage = .issue then endIssue s else passCycle (netCycle (sendOut s))

/-- Whether the pipe of the instruction that the path would issue is taken (R290). -/
def pipeTaken (s : State) : Bool :=
  match fetch s with
  | .instr i => !pipeFree i s
  | _ => false

/-- A path whose pipe cannot accept its instruction waits for a later cycle. The group was ready, and ages, if the pipe
went to another group and the instruction would have issued (R33): `would` is what it would have done. -/
def losePipe (i : Instr) (would : Host.Outcome State Fault Refusal) (s : State) : State :=
  let ready := match would with
    | .next t => !(curGroup t).sched.stalled && !pipeBusy i s
    | _ => false
  let s := noteStall 6 s
  if ready then modGroup s (curGid s) fun g => { g with sched := { g.sched with passedOver := true } } else s

/-- A path waits for this cycle, charged to a leaf. -/
def waitTurn (core slot port leaf : Nat) (s : State) : State :=
  match choosePath (gidOf core slot) port s with
  | some t => noteStall leaf t
  | none => s

/-- The group of a Survey instruction that has been accepted and waits for an event to complete it (R229). -/
def surveyGroup (s : State) (i : Instr) : Option Nat :=
  match i with
  | .engineCommandComplete core id =>
    ((getCore s core).eng.cmds.find? fun c => c.id == id && isSurvey c.kind).map fun c => c.gid
  | _ => none
where
  /-- Whether a command is a Survey instruction's. -/
  isSurvey : CmdKind → Bool
    | .svrd .. | .svwr .. | .svclr .. | .svsave .. | .svload .. => true
    | _ => false

/-- Whether a turn may be taken at the stage that the cycle has reached (R139, R229). -/
def mayTake (s : State) (a : Act) : Bool :=
  match a with
  | .stall .. => s.stage == .events || s.stage == .issue
  | .event i =>
    match surveyGroup s i, s.stage with
    | some gid, .late last => decide (last ≤ gid)
    | some _, _ => false
    | none, st => st == .events

/-- The turn of the schedule that is due, and the machine without it. -/
def dueTurn (s : State) : Option (Act × State) :=
  match s.tape with
  | [] => none
  | t :: ts => if t.dt = 0 ∧ mayTake s t.act = true then some (t.act, { s with tape := ts }) else none

/-- A Survey instruction completes at the end of the cycle: those of lower sub-cores and slots came before it (R229). -/
def noteLate (i : Instr) (s : State) : State :=
  match surveyGroup s i with
  | some gid => { s with stage := .late gid }
  | none => s

end Sys2Proof.Machine
end

