-- ==== Sys2Proof/Machine/Control.lean ====
section
/-! DEFINITION. Control flow, rejoining, traps by instruction, regions, spawning and special registers (R312, R343,
R315, R355, R323, R387, R372, R363, R381, R314, R382, R284, R373). -/

namespace Sys2Proof.Machine

open Sys2Proof

/-! ## Branches (R70, R72, R220) -/

/-- The first path of a vote branches with every lane to a higher target: the catch-up point moves (R70). -/
def catchUpTo (target : Word) (s : State) : State :=
  let g := curGroup s
  if s.cur.port = 0 ∧ s.cur.pc.toNat < target.toNat then
    let c := match g.sched.catchUp with
      | some c => if c.toNat < target.toNat then c else target
      | none => target
    setCurGroup s { g with sched := { g.sched with catchUp := some c } }
  else s

/-- The target that every lane of a mask shares. -/
def commonTarget (m : LaneMask) (target : Nat → Word) : Option Word :=
  if (lanesOf m).all fun l => target l == target (lowLane m) then some (target (lowLane m)) else none

/-- A branch of the issuing path: the lanes taken go to their targets and the others on. -/
def branch (taken : LaneMask) (target : Nat → Word) (s : State) : State :=
  let next (l : Nat) : Word := if inMask taken l then target l else s.cur.pc + 4
  let m := s.cur.mask
  let g := modLanes (curGroup s) m fun l f => { f with pc := next l }
  let s := setCurGroup s g
  let s := if taken = m then
      match commonTarget taken target with
      | some t => catchUpTo t s
      | none => s
    else s
  trainBranch (if taken = 0 then none else some (target (lowLane taken))) (portNext m next) s

/-- Whether a code address is misaligned (R39). -/
def pcBad (w : Word) : Bool := w.extractLsb' 0 2 != 0

/-- BRA of lanes (R312). -/
def execBraLane (g : Bool) (p : PReg) (neg : Bool) (off : BitVec 16) (s : State) : Host.Outcome State Fault Refusal :=
  let act := actMask g s
  let grp := curGroup s
  let t := s.cur.pc + BitVec.ofInt 32 (4 * off.toInt)
  let taken := maskOf fun l => inMask act l && (getPred (getFibre grp l) p.toNat != neg)
  .next (noteIssue 0 (branch taken (fun _ => t) s))

/-- BRA of the whole path (R312). -/
def execBraUniform (p : GPReg) (neg : Bool) (off : BitVec 20) (s : State) : Host.Outcome State Fault Refusal :=
  let t := s.cur.pc + BitVec.ofInt 32 (4 * off.toInt)
  let taken := if getGp (curGroup s) p.toNat != neg then s.cur.mask else 0
  .next (noteIssue 1 (branch taken (fun _ => t) s))

/-- The checks of a lane jump through a register: MISALIGNED_PC of the lowest such lane. -/
def jumpPre (act : LaneMask) (u : Use) (a : VReg) (s : State) : Pre :=
  let grp := curGroup s
  orPre (regPre true act u s)
    (match (lanesOf act).find? fun l => pcBad (getReg (getFibre grp l) a.toNat) with
     | some l => .trap 0x02 (getReg (getFibre grp l) a.toNat).toNat l
     | none => .go)

/-- JMP of lanes (R343). -/
def execJmpLane (g : Bool) (a : VReg) (s : State) : Host.Outcome State Fault Refusal :=
  let act := actMask g s
  let grp := curGroup s
  runPre (jumpPre act { vr := [a.toNat] } a s)
    (fun s => noteIssue 0 (branch act (fun l => getReg (getFibre grp l) a.toNat) s)) s

/-- The checks of a uniform jump through a register. -/
def uniJumpPre (u : Use) (a : GReg) (s : State) : Pre :=
  let t := getU (curGroup s) a.toNat
  orPre (regPre false 0 u s) (if pcBad t then .trap 0x02 t.toNat 0 else .go)

/-- JMP of the whole path (R343). -/
def execJmpUniform (a : GReg) (s : State) : Host.Outcome State Fault Refusal :=
  let t := getU (curGroup s) a.toNat
  runPre (uniJumpPre { gr := [a.toNat] } a s) (fun s => noteIssue 1 (branch s.cur.mask (fun _ => t) s)) s

/-- CALL of lanes (R315): the target is read before the link is written. -/
def execCallLane (g : Bool) (d a : VReg) (s : State) : Host.Outcome State Fault Refusal :=
  let act := actMask g s
  let grp := curGroup s
  runPre (jumpPre act { vr := [a.toNat], vw := [d.toNat] } a s)
    (fun s =>
      let s := setCurGroup s (modLanes (curGroup s) act fun _ f => setReg f d.toNat (s.cur.pc + 4))
      noteIssue 0 (branch act (fun l => getReg (getFibre grp l) a.toNat) s)) s

/-- CALL of the whole path (R315). -/
def execCallUniform (d a : GReg) (s : State) : Host.Outcome State Fault Refusal :=
  let t := getU (curGroup s) a.toNat
  runPre (uniJumpPre { gr := [a.toNat], gw := [d.toNat] } a s)
    (fun s =>
      let s := setCurGroup s (setU (curGroup s) d.toNat (s.cur.pc + 4))
      noteIssue 1 (branch s.cur.mask (fun _ => t) s)) s

/-! ## NOP, EXIT, YIELD -/

/-- NOP (R355). -/
def execNop (_g : Bool) (s : State) : Host.Outcome State Fault Refusal := .next (advance 4 (noteIssue 0 s))

/-- EXIT (R323): the acting lanes exit, and the others go on. -/
def execExit (g : Bool) (s : State) : Host.Outcome State Fault Refusal :=
  let act := actMask g s
  let s := advanceLanes (s.cur.mask &&& ~~~act) 4 (noteIssue 0 s)
  .next (if act = 0 then s else exitLanes act s)

/-- YIELD (R387): the catch-up point goes, and the path's next instruction is held for 16 cycles. -/
def execYield (g : Bool) (s : State) : Host.Outcome State Fault Refusal :=
  let act := actMask g s
  let s := advance 4 (noteIssue 0 s)
  if act = 0 then .next s
  else
    let grp := curGroup s
    .next (holdPath 16 6 (setCurGroup s { grp with sched := { grp.sched with catchUp := none } }))

/-! ## SPAWN (R20, R372) -/

/-- The fibre that a lane spawns: its entry and arguments, and the work identifier with fields 0 and 1 zero (R20). In a
group that mixes launches it takes KARG, TEAMID and priority from the group's place, and counts toward the launch of the
fibre that spawns it (DESIGN CHOICE: the manual does not say; log 13). -/
def spawnedBy (g : Group) (l a b n : Nat) : NewFibre :=
  let f := getFibre g l
  let low := 2 ^ (6 + g.place.hdr.widths.headD 0)
  { entry := getReg f a, hdr := g.place.hdr, wid := BitVec.ofNat 64 (f.wid.toNat / low * low),
    args := (regRange b n).map (getReg f), launch := f.launch, karg := g.place.karg, prio := g.place.prio,
    teamId := g.place.teamId }

/-- Place a spawned fibre in a bin, or in the overflow area (R21, R23). -/
def spawnOne (g : Group) (core : Nat) (pc : Word) (l a b n : Nat) (s : State) : State :=
  (arriveFibre core g.place.owner (spawnedBy g l a b n) pc g.place.hdr.entry.toNat s).2

/-- Whether accesses of some lanes of a group that a release orders are still to be performed (R127, R330): copies,
engine operations and held ordered operations are not among them. -/
def releaseWaits (s : State) (g : Group) (m : LaneMask) : Bool :=
  g.ops.any fun o => !o.done && !heldOp s g o && (o.cls == .ld || o.cls == .st) && overlaps o.act m

/-- The checks of SPAWN. A path with fewer than 4,096 free overflow slots is held (R23), and one whose lanes' earlier
accesses the release at core scope orders waits for them (R20). -/
def spawnPre (act : LaneMask) (a b : VReg) (n : Nat) (s : State) : Pre :=
  let grp := curGroup s
  orPre (jumpPre act { vr := a.toNat :: regRange b.toNat n } a s)
    (if act = 0 then .go
     else if ovfFree s grp.place.owner < 4096 then .stall 16
     else if releaseWaits s grp act then .stall 8 else .go)

/-- SPAWN (R20, R372): one fibre for each acting lane, in ascending lane order. -/
def execSpawn (g : Bool) (a b : VReg) (n : BitVec 3) (s : State) : Host.Outcome State Fault Refusal :=
  let act := actMask g s
  let grp := curGroup s
  let core := s.cur.core
  let pc := s.cur.pc
  runPre (spawnPre act a b (n.toNat + 1) s)
    (fun s => advance 4 (noteIssue 2
      ((lanesOf act).foldl (fun s l => spawnOne grp core pc l a.toNat b.toNat (n.toNat + 1) s) s))) s

/-! ## RJSET and RJWAIT (R76, R77) -/

/-- RJSET: the path's share of the declared mask. -/
def execRjset (g : Bool) (cv : CvNum) (s : State) : Host.Outcome State Fault Refusal :=
  let act := actMask g s
  let grp := curGroup s
  let c := getCv grp cv.toNat
  let c := { c with decl := (c.decl &&& ~~~s.cur.mask) ||| act }
  .next (advance 4 (noteIssue 0 (setCurGroup s { grp with cvs := grp.cvs.set cv.toNat c })))

/-- RJWAIT: the admitted lanes sign and are blocked, and the others go on; a register being signed at another PC is
CONV_MISMATCH, whose trap record names the lowest lane of the path, admitted or not (DESIGN CHOICE: the manual does not say
which lane faults; log 13). -/
def execRjwait (g : Bool) (cv : CvNum) (s : State) : Host.Outcome State Fault Refusal :=
  let act := actMask g s
  if signMismatch s cv.toNat then .next (trapNow 0x07 0 (lowLane s.cur.mask) s)
  else
    let s := advanceLanes (s.cur.mask &&& ~~~act) 4 (noteIssue 0 s)
    .next (signCv cv.toNat act (.rejoin cv.toNat) none s)

/-! ## TRAP, BRK, TRET -/

/-- A trap that an instruction raises after itself, with TRAPREC1 the next PC (R244). In a domain that a debugger
session holds the group stops instead (R286). -/
def trapAfter (code detail : Nat) (act : LaneMask) (s : State) : State :=
  let grp := curGroup s
  if (getDom s grp.place.dom).session then
    stopGroup (curGid s) (s.cur.pc + 4) (advance 4 (noteIssue 0 s))
  else
    let t : TrapInfo := { code := code, detail := detail, progress := lowLane act, retPc := s.cur.pc + 4, mask := s.cur.mask }
    raiseTrap t (if holdsTrap s then s else advance 4 (noteIssue 0 s))

/-- TRAP (R381). -/
def execTrap (g : Bool) (code : BitVec 10) (s : State) : Host.Outcome State Fault Refusal :=
  let act := actMask g s
  if act = 0 then .next (advance 4 (noteIssue 0 s)) else .next (trapAfter 0x10 (code.toNat % 256) act s)

/-- BRK (R314). -/
def execBrk (g : Bool) (s : State) : Host.Outcome State Fault Refusal :=
  let act := actMask g s
  if act = 0 then .next (advance 4 (noteIssue 0 s)) else .next (trapAfter 0x11 0 act s)

/-- TRET (R250): ILLEGAL_OP outside a handler; a misaligned TRAPREC1 is a fatal MISALIGNED_PC. -/
def execTret (s : State) : Host.Outcome State Fault Refusal :=
  let g := curGroup s
  match g.trap.handler with
  | none => .next (trapNow 0x01 0 0 s)
  | some h =>
    let pc := g.trap.words.getD 1 0
    if pcBad pc then .next (trapNow 0x02 pc.toNat 0 s)
    else .next (returnFromTrap (curGid s) h (noteIssue 1 s))

/-! ## ENTER and LEAVE (R284) -/

/-- A region edge is complete: its trace record, and the stop of a group that is stop-pending (R286, R288). -/
def regionEdge (kind : Nat) (id : Nat) (s : State) : State :=
  let pc := s.cur.pc
  stopIfPending (curGid s) (pc + 4) (traceRecord (curGid s) 0 kind id pc (advance 4 (noteIssue 1 s)))

/-- ENTER. -/
def execEnter (id : BitVec 16) (s : State) : Host.Outcome State Fault Refusal :=
  let g := curGroup s
  if g.depth = 255 then .next (trapNow 0x0F 0 0 s)
  else
    let stack := if g.depth < 16 then g.regions.take g.depth ++ [id.toNat] else g.regions
    .next (regionEdge 0 id.toNat (setCurGroup s { g with regions := stack, depth := g.depth + 1 }))

/-- LEAVE. -/
def execLeave (id : BitVec 16) (s : State) : Host.Outcome State Fault Refusal :=
  let g := curGroup s
  if g.depth = 0 then .next (trapNow 0x0F 0 0 s)
  else if g.depth ≤ 16 ∧ regionAt g (g.depth - 1) ≠ id.toNat then .next (trapNow 0x0F 0 0 s)
  else .next (regionEdge 1 id.toNat (setCurGroup s { g with depth := g.depth - 1 }))

/-! ## Special registers (R36, R373) -/

/-- The field widths W1 to W5 as WIDSHAPE holds them (R36). -/
def widShape (h : Hdr) : Nat := h.widths.foldr (fun w v => w + 64 * v) 0

/-- Whether a special register is held per fibre. -/
def srPerFibre (n : Nat) : Bool := n == 0 || n == 1 || n == 3 || n == 0x0E

/-- The value of a special register, for a lane. -/
def srValue (s : State) (g : Group) (n l : Nat) : Nat :=
  let f := getFibre g l
  match n with
  | 0x00 => f.wid.toNat % 2 ^ 32
  | 0x01 => f.wid.toNat / 2 ^ 32
  | 0x02 => widShape g.place.hdr
  | 0x03 => l
  | 0x04 => s.cur.mask.toNat
  | 0x05 => 256 * subOfSlot s.cur.slot + s.cur.slot
  | 0x06 => g.place.teamId.toNat
  | 0x07 => s.cur.core
  | 0x08 => clusterOfCore s.cur.core
  | 0x09 => s.dev.num.toNat
  | 0x0A => g.place.dom
  | 0x0B => g.place.owner
  | 0x0C => s.dev.clock % 2 ^ 32
  | 0x0D => g.clockHi.toNat
  | 0x0E => f.fpctl.toNat
  | 0x0F => g.place.karg.toNat % 2 ^ 52
  | 0x10 => match findBank s s.cur.core g.place.owner with | some b => b.pfdist | none => 2
  | 0x11 => 0
  | 0x12 => g.depth
  | _ => (g.trap.words.getD (n - 0x18) 0).toNat

/-- Whether a special register is 64 bits wide. -/
def srIsWide (n : Nat) : Bool := n == 0x04 || n == 0x0F

/-- The words of a special register. -/
def srWords (s : State) (g : Group) (n l : Nat) : List Word :=
  let v := srValue s g n l
  BitVec.ofNat 32 v :: (if srIsWide n then [BitVec.ofNat 32 (v / 2 ^ 32)] else [])

/-- SREAD: a lane destination receives each lane's own value, a uniform one that of the path's lowest lane; CLOCKLO
captures CLOCKHI. -/
def execSread (lane : Bool) (d : GReg) (n : BitVec 6) (s : State) : Host.Outcome State Fault Refusal :=
  let k := if srIsWide n.toNat then 2 else 1
  let ds := regRange d.toNat k
  runPre (regPre false s.cur.mask (if lane then { vw := ds } else { gw := ds }) s)
    (fun s =>
      let g := curGroup s
      let ws (l : Nat) : List Word := srWords s g n.toNat (if srPerFibre n.toNat then l else lowLane s.cur.mask)
      let g' := if lane then
          modLanes g s.cur.mask fun l f => (ds.zip (ws l)).foldl (fun f e => setReg f e.1 e.2) f
        else (ds.zip (ws (lowLane s.cur.mask))).foldl (fun g e => setU g e.1 e.2) g
      let g' := if n = 0x0C then { g' with clockHi := BitVec.ofNat 32 (s.dev.clock / 2 ^ 32) } else g'
      advance 4 (noteIssue 1 (setCurGroup s g'))) s

/-- The fields of a QBIND value (R37). -/
structure Qbind where
  port : Nat
  kind : Nat
  peerGrp : Nat
  peerPort : Nat
  recv : Bool
  low : Nat
  deriving DecidableEq, Repr

/-- Read a QBIND value. -/
def qbindOf (w : Word) : Qbind :=
  let v := w.toNat
  { port := field v 29 3, kind := field v 26 3, peerGrp := field v 20 6, peerPort := field v 17 3,
    recv := v.testBit 16, low := field v 0 16 }

/-- Whether a binding is QUEUE_MISUSE (R37). -/
def qbindBad (s : State) (g : Group) (q : Qbind) : Bool :=
  decide (5 ≤ q.kind) || (q.kind != 4 && q.recv) || q.low != 0
    || (q.kind == 4 && (q.peerGrp == g.place.num || (groupOfTeam s g.place.team q.peerGrp).isNone))

/-- Empty the FIFO of the link that a send port feeds. -/
def emptyLink (s : State) (g : Group) (port : Nat) : State :=
  let p := getPort g port
  if portWritable p then
    match linkOf s g p port with
    | some gid => modGroup s gid fun r => modPort r p.peerPort fun x => { x with fifo := [] }
    | none => s
  else s

/-- The LDQs in flight to a port no longer have an entry: their values are dropped when they land (R347). -/
def dropLdq (port : Nat) (g : Group) : Group :=
  { g with ops := g.ops.map fun o => if o.kind = .ldq port then { o with kind := .ldq 8 } else o }

/-- Bind a port of the issuing group (R37): its entries, and those of its link, are discarded. -/
def bindPort (q : Qbind) (s : State) : State :=
  let s := emptyLink s (curGroup s) q.port
  let p : Port := { kind := q.kind, peerGrp := q.peerGrp, peerPort := q.peerPort, recv := q.recv }
  let s := setCurGroup s (modPort (dropLdq q.port (curGroup s)) q.port fun _ => p)
  emptyLink s (curGroup s) q.port

/-- PFDIST from a written value (R373). -/
def pfdistOf (w : Word) : Nat := (max 1 (min 15 w.toInt)).toNat

/-- The bits of a trap-record word that are not reserved, which read as zero (R8, R243). -/
def trapMask (k : Nat) : Word :=
  match k with
  | 0 => 0x00FF07FF
  | 7 => 0x00FFFFFF
  | _ => 0xFFFFFFFF

/-- SWRITE (R373). -/
def execSwrite (lane : Bool) (a : GReg) (n : BitVec 6) (s : State) : Host.Outcome State Fault Refusal :=
  let g := curGroup s
  let val (l : Nat) : Word := if lane then getReg (getFibre g l) a.toNat else getU g a.toNat
  let v := val (lowLane s.cur.mask)
  let pre := regPre false s.cur.mask (if lane then { vr := [a.toNat] } else { gr := [a.toNat] }) s
  let own : Pre := if n = 0x11 ∧ qbindBad s g (qbindOf v) = true then .trap 0x0E 0 0 else .go
  runPre (orPre pre own)
    (fun s =>
      let s := match n.toNat with
        | 0x0E => setCurGroup s (modLanes g s.cur.mask fun l f => { f with fpctl := val l &&& 0x7F })
        | 0x10 => modBank s.cur.core g.place.owner (fun b => { b with pfdist := pfdistOf v }) s
        | 0x11 => bindPort (qbindOf v) s
        | _ => setCurGroup s { g with trap := { g.trap with
            words := g.trap.words.set (n.toNat - 0x18) (v &&& trapMask (n.toNat - 0x18)) } }
      advance 4 (noteIssue 1 s)) s

/-! ## Events of the vote and of peer ports -/

/-- FIBRE_AGED (R71): the fibres of a group that 64 consecutive votes have passed over are aged. -/
def execFibreAged (gid : Nat) (s : State) : Host.Outcome State Fault Refusal :=
  .next (modGroup s gid fun g => modLanes g (eligible g) fun _ f => { f with aged := agedAt f })

/-- Whether a peer port of a group can move an entry now (R37). -/
def peerReady (s : State) (g : Group) (port : Nat) : Bool :=
  let p := getPort g port
  if p.kind != 4 then false
  else if p.recv then !p.fifo.isEmpty
  else
    match linkOf s g p port with
    | some gid => decide ((getPort (getGroup s gid) p.peerPort).fifo.length < 16)
    | none => false

/-- PEER_PORT_TRANSFER (R37): a group that a peer port held is held no longer once the other group has read, written or
bound; its path then issues as any other. -/
def execPeerPortTransfer (gid port : Nat) (s : State) : Host.Outcome State Fault Refusal :=
  let g := getGroup s gid
  if peerReady s g port && (g.sched.leaf == 12 || g.sched.leaf == 13) then
    .next (modGroup s gid fun g => { g with sched := { g.sched with leaf := 6 } })
  else .next s

end Sys2Proof.Machine
end

