-- ==== Sys2Proof/Machine/EngIssue.lean ====
section
/-! DEFINITION. The engine instructions as paths issue them (R79, R303): each checks its registers and signs its convergence
register; what it does once the register is complete stands in its engine's file. -/

namespace Sys2Proof.Machine

open Sys2Proof

/-- The checks of an engine instruction's registers (R59, R303): lane registers count as pending in every resident lane.
`named` are uniform registers that the operands name and that the form does not read. -/
def engRegs (u : Use) (named : List Nat) (s : State) : Pre :=
  let g := curGroup s
  orPre (if countsOk g { gr := named } then .go else .trap 0x01 0 0) (regPre false (liveMask g) u s)

/-- A path issues an engine instruction: it signs the register of the cv field with all its lanes, which are blocked until
the instruction resumes them. -/
def engSign (cv : CvNum) (i : Instr) (u : Use) (named : List Nat) (s : State) : Host.Outcome State Fault Refusal :=
  runPre (orPre (engRegs u named s) (if signMismatch s cv.toNat then .trap 0x07 0 0 else .go))
    (fun s => signCv cv.toNat s.cur.mask (.engine cv.toNat) (some i) (noteSlot 3 s)) s

/-- Two registers from a number on. -/
def pairAtReg (r : GReg) : List Nat := regRange r.toNat 2

/-- SHLD (R369). -/
def execShld (cv : CvNum) (t : TileNum) (a : GReg) (s : State) : Host.Outcome State Fault Refusal :=
  engSign cv (.shld cv t a) { gr := pairAtReg a } [] s

/-- SHEV (R369). -/
def execShev (cv : CvNum) (t : TileNum) (s : State) : Host.Outcome State Fault Refusal :=
  engSign cv (.shev cv t) {} [] s

/-- TLD (R378). -/
def execTld (cv : CvNum) (bh : Bool) (t : TileNum) (a b c : GReg) (s : State) : Host.Outcome State Fault Refusal :=
  engSign cv (.tld cv bh t a b c) { gr := [a.toNat, b.toNat] ++ regRange c.toNat (if bh then 2 else 1) } [] s

/-- TST (R378). -/
def execTst (cv : CvNum) (t : TileNum) (a b c : GReg) (s : State) : Host.Outcome State Fault Refusal :=
  engSign cv (.tst cv t a b c) { gr := [a.toNat, b.toNat, c.toNat] } [] s

/-- MLDB (R349, R350). -/
def execMldb (cv : CvNum) (ty : Ty) (sc lt : Bool) (mask : BitVec 4) (a b c : GReg) (s : State) :
    Host.Outcome State Fault Refusal :=
  engSign cv (.mldb cv ty sc lt mask a b c)
    { gr := pairAtReg a ++ (if sc then pairAtReg b else []) ++ (if lt then [c.toNat] else []) } [] s

/-- MMA (R351, R352). -/
def execMma (cv : CvNum) (ty : Ty) (mode : BitVec 4) (sc rv h : Bool) (t : TileNum) (a b : GReg) (v : VReg) (s : State) :
    Host.Outcome State Fault Refusal :=
  engSign cv (.mma cv ty mode sc rv h t a b v)
    { gr := [a.toNat, b.toNat], vr := if sc then regRange v.toNat (if mode = 6 then 2 else 1) else [] } [] s

/-- TOPEN (R379, R380). -/
def execTopen (cv : CvNum) (auto : Bool) (t : TileNum) (a : GReg) (s : State) : Host.Outcome State Fault Refusal :=
  engSign cv (.topen cv auto t a) { gr := [a.toNat] } [] s

/-- TREAD (R379, R380). -/
def execTread (cv : CvNum) (ty : Ty) (h : Bool) (t : TileNum) (a b : GReg) (s : State) :
    Host.Outcome State Fault Refusal :=
  engSign cv (.tread cv ty h t a b) { gr := pairAtReg a ++ [b.toNat] } [] s

/-- TREAD_STAT (R379, R380). -/
def execTreadStat (cv : CvNum) (t : TileNum) (c : GReg) (s : State) : Host.Outcome State Fault Refusal :=
  engSign cv (.treadStat cv t c) { gw := [c.toNat] } [] s

/-- TRED (R379, R380). -/
def execTred (cv : CvNum) (h : Bool) (t : TileNum) (a b c : GReg) (s : State) : Host.Outcome State Fault Refusal :=
  engSign cv (.tred cv h t a b c) { gr := pairAtReg a ++ [b.toNat, c.toNat] } [] s

/-- ATTN (R166, R308; mode 0). -/
def execAttn (cv : CvNum) (ty : Ty) (nb : Bool) (a b c : GReg) (s : State) : Host.Outcome State Fault Refusal :=
  engSign cv (.attn cv ty nb a b c)
    { gr := pairAtReg a ++ regRange b.toNat (if nb then 3 else 4) ++ pairAtReg c } (regRange b.toNat 4) s

/-- ATTN_MAXIMA (R167; mode 1). -/
def execAttnMaxima (cv : CvNum) (nb : Bool) (a b c : GReg) (s : State) : Host.Outcome State Fault Refusal :=
  engSign cv (.attnMaxima cv nb a b c)
    { gr := pairAtReg a ++ regRange b.toNat (if nb then 3 else 4) ++ pairAtReg c } (regRange b.toNat 4) s

/-- ATTN_GIVEN (R167; mode 2). -/
def execAttnGiven (cv : CvNum) (nb : Bool) (a b c : GReg) (s : State) : Host.Outcome State Fault Refusal :=
  engSign cv (.attnGiven cv nb a b c)
    { gr := pairAtReg a ++ regRange b.toNat (if nb then 3 else 4) ++ pairAtReg c } (regRange b.toNat 4) s

/-- ATTN_FINISH (R167; mode 3). -/
def execAttnFinish (cv : CvNum) (ty : Ty) (nb : Bool) (a b c : GReg) (s : State) : Host.Outcome State Fault Refusal :=
  engSign cv (.attnFinish cv ty nb a b c)
    { gr := pairAtReg a ++ pairAtReg b ++ (if nb then [] else [b.toNat + 3]) ++ pairAtReg c } (regRange b.toNat 4) s

/-- KVAPP (R162). -/
def execKvapp (cv : CvNum) (a b c : GReg) (s : State) : Host.Outcome State Fault Refusal :=
  engSign cv (.kvapp cv a b c) { gr := pairAtReg a ++ [b.toNat, c.toNat] } [] s

/-- KVFORK (R163). -/
def execKvfork (cv : CvNum) (a b c : GReg) (s : State) : Host.Outcome State Fault Refusal :=
  engSign cv (.kvfork cv a b c) { gr := pairAtReg a ++ [b.toNat], gw := pairAtReg c } [] s

/-- KVDROP (R164). -/
def execKvdrop (cv : CvNum) (a : GReg) (s : State) : Host.Outcome State Fault Refusal :=
  engSign cv (.kvdrop cv a) { gr := pairAtReg a } [] s

/-- CINS (R179). -/
def execCins (cv : CvNum) (ord : Bool) (c : GReg) (v : VReg) (s : State) : Host.Outcome State Fault Refusal :=
  engSign cv (.cins cv ord c v) { vr := [v.toNat], gw := [c.toNat] } [] s

/-- CMRG (R181). -/
def execCmrg (cv : CvNum) (bound : Bool) (c : GReg) (s : State) : Host.Outcome State Fault Refusal :=
  engSign cv (.cmrg cv bound c) { gw := [c.toNat] } [] s

/-- CRD_CENT (R182). -/
def execCrdCent (cv : CvNum) (v : VReg) (a : GReg) (s : State) : Host.Outcome State Fault Refusal :=
  engSign cv (.crdCent cv v a) { vw := [v.toNat], gr := [a.toNat] } [] s

/-- CRD_SUM (R182). -/
def execCrdSum (cv : CvNum) (v : VReg) (a : GReg) (s : State) : Host.Outcome State Fault Refusal :=
  engSign cv (.crdSum cv v a) { vw := regRange v.toNat 2, gr := [a.toNat] } [] s

/-- CRD_CNT (R182). -/
def execCrdCnt (cv : CvNum) (c a : GReg) (s : State) : Host.Outcome State Fault Refusal :=
  engSign cv (.crdCnt cv c a) { gw := [c.toNat], gr := [a.toNat] } [] s

/-- CRD_STAT (R182). -/
def execCrdStat (cv : CvNum) (c : GReg) (s : State) : Host.Outcome State Fault Refusal :=
  engSign cv (.crdStat cv c) { gw := pairAtReg c } [] s

/-- CCFG (R177). -/
def execCcfg (cv : CvNum) (a : GReg) (s : State) : Host.Outcome State Fault Refusal :=
  engSign cv (.ccfg cv a) { gr := pairAtReg a } [] s

/-- CCFG_KEEP (R177). -/
def execCcfgKeep (cv : CvNum) (a : GReg) (s : State) : Host.Outcome State Fault Refusal :=
  engSign cv (.ccfgKeep cv a) { gr := pairAtReg a } [] s

/-- CCFG_FREE (R177). -/
def execCcfgFree (cv : CvNum) (s : State) : Host.Outcome State Fault Refusal :=
  engSign cv (.ccfgFree cv) {} [] s

/-- SSMLD (R189). -/
def execSsmld (cv : CvNum) (a : GReg) (s : State) : Host.Outcome State Fault Refusal :=
  engSign cv (.ssmld cv a) { gr := pairAtReg a } [] s

/-- SSMSCAN (R188). -/
def execSsmscan (cv : CvNum) (t : TileNum) (a b : GReg) (s : State) : Host.Outcome State Fault Refusal :=
  engSign cv (.ssmscan cv t a b) { gr := [a.toNat, b.toNat] } [] s

/-- SSMSTEP (R188). -/
def execSsmstep (cv : CvNum) (t : TileNum) (a b : GReg) (s : State) : Host.Outcome State Fault Refusal :=
  engSign cv (.ssmstep cv t a b) { gr := [a.toNat, b.toNat] } [] s

/-- SSMST (R189). -/
def execSsmst (cv : CvNum) (a : GReg) (s : State) : Host.Outcome State Fault Refusal :=
  engSign cv (.ssmst cv a) { gr := pairAtReg a } [] s

/-- SSMST_FREE (R189). -/
def execSsmstFree (cv : CvNum) (a : GReg) (s : State) : Host.Outcome State Fault Refusal :=
  engSign cv (.ssmstFree cv a) { gr := pairAtReg a } [] s

/-- ROUTE (R199, R364). -/
def execRoute (cv : CvNum) (bf16 : Bool) (pol : Policy) (k : BitVec 2) (h nb rv : Bool) (t : TileNum) (a b c : GReg) (v : VReg) (s : State) :
    Host.Outcome State Fault Refusal :=
  engSign cv (.route cv bf16 pol k h nb rv t a b c v)
    { gr := [a.toNat] ++ regRange b.toNat 3 ++ (if nb then [] else [b.toNat + 3]) ++ [b.toNat + 4], gw := [c.toNat], vr := regRange v.toNat 3 } (regRange b.toNat 5) s

/-- RTBIND (R198). -/
def execRtbind (cv : CvNum) (a b : GReg) (s : State) : Host.Outcome State Fault Refusal :=
  engSign cv (.rtbind cv a b) { gr := [a.toNat] ++ pairAtReg b } [] s

/-- RTRD (R207). -/
def execRtrd (cv : CvNum) (v : VReg) (c a : GReg) (s : State) : Host.Outcome State Fault Refusal :=
  engSign cv (.rtrd cv v c a) { vw := [v.toNat], gw := [c.toNat], gr := [a.toNat] } [] s

/-- RTRD_FREE (R207). -/
def execRtrdFree (cv : CvNum) (v : VReg) (c a : GReg) (s : State) : Host.Outcome State Fault Refusal :=
  engSign cv (.rtrdFree cv v c a) { vw := [v.toNat], gw := [c.toNat], gr := [a.toNat] } [] s

/-- SVRD (R227). -/
def execSvrd (cv : CvNum) (c a : GReg) (s : State) : Host.Outcome State Fault Refusal :=
  engSign cv (.svrd cv c a) { gr := [a.toNat], gw := regRange c.toNat 4 } [] s

/-- SVWR (R227). -/
def execSvwr (cv : CvNum) (a b : GReg) (s : State) : Host.Outcome State Fault Refusal :=
  engSign cv (.svwr cv a b) { gr := [a.toNat] ++ regRange b.toNat 4 } [] s

/-- SVCLR (R227). -/
def execSvclr (cv : CvNum) (a : GReg) (s : State) : Host.Outcome State Fault Refusal :=
  engSign cv (.svclr cv a) { gr := [a.toNat] } [] s

/-- SVSAVE (R228). -/
def execSvsave (cv : CvNum) (slice : Bool) (a b : GReg) (s : State) : Host.Outcome State Fault Refusal :=
  engSign cv (.svsave cv slice a b) { gr := pairAtReg a ++ (if slice then [b.toNat] else []) } [] s

/-- SVLOAD (R228). -/
def execSvload (cv : CvNum) (slice : Bool) (a b : GReg) (s : State) : Host.Outcome State Fault Refusal :=
  engSign cv (.svload cv slice a b) { gr := pairAtReg a ++ (if slice then [b.toNat] else []) } [] s

/-- AMBIND (R195). -/
def execAmbind (cv : CvNum) (a b : GReg) (s : State) : Host.Outcome State Fault Refusal :=
  engSign cv (.ambind cv a b) { gr := [a.toNat] ++ pairAtReg b } [] s

/-- AMBIND_ALL (R195). -/
def execAmbindAll (cv : CvNum) (a b : GReg) (s : State) : Host.Outcome State Fault Refusal :=
  engSign cv (.ambindAll cv a b) { gr := [a.toNat] ++ pairAtReg b } [] s

/-- AMBIND_INBOX (R195). -/
def execAmbindInbox (cv : CvNum) (a : GReg) (s : State) : Host.Outcome State Fault Refusal :=
  engSign cv (.ambindInbox cv a) { gr := [a.toNat] } [] s

/-- AMBIND_NONE (R195). -/
def execAmbindNone (cv : CvNum) (a : GReg) (s : State) : Host.Outcome State Fault Refusal :=
  engSign cv (.ambindNone cv a) { gr := [a.toNat] } [] s

end Sys2Proof.Machine
end

