-- ==== Sys2Proof/Machine/Launch.lean ====
section
/-! DEFINITION. Launch queues and records (R233, R234, R236), launches, the placement of teams (R237, R25, R27), ordered
windows (R151), and the ends of groups, teams and launches (R29, R30). -/

namespace Sys2Proof.Machine

open Sys2Proof

/-! ## Queue descriptors (R233, R238) -/

/-- The physical address of a queue's descriptor. -/
def queueAt (s : State) (owner q : Nat) : Nat := (getCtx s owner).desc + 0x80 + 32 * q

/-- A field of a queue's descriptor: so many bytes at an offset. -/
def queueField (s : State) (owner q off n : Nat) : Nat := natOfBytes (memBytes s.mem (queueAt s owner q + off) n)

/-- Write a field of a queue's descriptor. -/
def setQueueField (owner q off n v : Nat) (s : State) : State :=
  { s with mem := memPut s.mem (queueAt s owner q + off) (bytesOfNat n v) }

/-- BASE. -/
def qBase (s : State) (owner q : Nat) : Nat := queueField s owner q 0 8
/-- SIZE. -/
def qSize (s : State) (owner q : Nat) : Nat := queueField s owner q 8 4
/-- TAIL. -/
def qTail (s : State) (owner q : Nat) : Nat := queueField s owner q 12 4
/-- HEAD. -/
def qHead (s : State) (owner q : Nat) : Nat := queueField s owner q 16 4
/-- DONE. -/
def qDone (s : State) (owner q : Nat) : Nat := queueField s owner q 20 4
/-- STATUS. -/
def qStatus (s : State) (owner q : Nat) : Nat := queueField s owner q 24 1
/-- Write HEAD. -/
def setHead (owner q v : Nat) (s : State) : State := setQueueField owner q 16 4 v s
/-- Write DONE. -/
def setDone (owner q v : Nat) (s : State) : State := setQueueField owner q 20 4 v s
/-- Write STATUS. -/
def setStatus (owner q v : Nat) (s : State) : State := setQueueField owner q 24 1 v s

/-- The number of a queue among all. -/
def queueKey (owner q : Nat) : Nat := owner * 16 + q

/-- What the device keeps for a queue. -/
def getQueue (s : State) (owner q : Nat) : Queue := kvGetD s.queues (queueKey owner q) {}

/-- Change it. -/
def modQueue (owner q : Nat) (f : Queue → Queue) (s : State) : State :=
  { s with queues := kvSet s.queues (queueKey owner q) (f (getQueue s owner q)) }

/-- Whether the device accepts contexts (R298). -/
def devReady (s : State) : Bool := s.dev.phase == 5

/-- The doorbell rings for a queue, unless it is stopped, or refused and its record not rewritten (R236). -/
def ringQueue (s : State) (k : Nat × Nat) : State :=
  if qSize s k.1 k.2 = 0 ∨ qStatus s k.1 k.2 = 3 ∨ (getQueue s k.1 k.2).refused = true then s
  else modQueue k.1 k.2 (fun x => { x with rung := true }) s

/-- The queues of a domain. -/
def domQueues (s : State) (dom : Nat) : List (Nat × Nat) :=
  (s.ctxs.filter fun e => e.2.dom == dom).flatMap fun e => (List.range 16).map fun q => (e.1, q)

/-- DOORBELL (R233): the domain's queues may pull. -/
def execDoorbell (dom : Nat) (s : State) : Host.Outcome State Fault Refusal :=
  .next ((domQueues s dom).foldl ringQueue s)

/-! ## Records (R234, R236) -/

/-- A translation that the device makes for a context, without a TLB; the local window is nobody's here. -/
def devTranslate (s : State) (owner va : Nat) (nd : Need) : Option TlbEnt :=
  if 2 ^ 52 ≤ va ∨ (localOffset va).isSome = true then none
  else match walk s owner va with
    | .ok e => if permits e nd then some e else none
    | .error _ => none

/-- Bytes within one page, as the device reads them at system scope. -/
def devBytes (s : State) (e : TlbEnt) (va n : Nat) : List Byte := (homeRead (paOf e va) n e.home e.hcore s).1

/-- The address of a queue's record. -/
def recordAddr (s : State) (owner q i : Nat) : Nat := qBase s owner q + 128 * (i % max 1 (qSize s owner q))

/-- The bytes of a queue's record. -/
def recordAt (s : State) (owner q i : Nat) : Nat :=
  natOfBytes (memBytes s.mem (recordAddr s owner q i) 128)

/-- The dependences of a record: address and value. -/
def recordDeps (v : Nat) : List (Nat × Nat) :=
  (List.range (field v 14 3)).map fun k => (field v (64 * (2 * k + 3)) 64, field v (64 * (2 * k + 4)) 64)

/-- The record as pulled, before its header is read. -/
def pulledOf (i v : Nat) : Pulled :=
  { index := i, fence := field v 0 4 == 1, hdrAddr := field v 64 64, karg := BitVec.ofNat 64 (field v 128 64),
    prio := field v 4 2, ord := v.testBit 6, twin := v.testBit 7, nopre := v.testBit 8, invtlb := v.testBit 9,
    irq := v.testBit 10, twink := field v 11 3, deps := recordDeps v }

/-- Whether a record's own bits and alignments are legal. -/
def recordForm (v : Nat) : Bool :=
  let p := pulledOf 0 v
  field v 704 320 == 0 && field v 17 47 == 0 && decide (field v 14 3 ≤ 4) && decide (field v 0 4 ≤ 1)
    && p.hdrAddr % (if p.fence then 8 else 128) == 0 && (p.fence || p.karg.toNat % 8 == 0)
    && p.deps.all fun d => d.1 % 8 == 0

/-- The checks of a record as it is pulled: what is pulled, or nothing when it is refused. -/
def checkRecord (s : State) (owner i v : Nat) : Option Pulled :=
  let p := pulledOf i v
  if !recordForm v || !(p.deps.all fun d => (devTranslate s owner d.1 .load).isSome) then none
  else if p.fence then
    (match devTranslate s owner p.hdrAddr .store with | some _ => some { p with begun := true } | none => none)
  else
    match devTranslate s owner p.hdrAddr .load with
    | none => none
    | some e =>
      match parseHdr p.hdrAddr (devBytes s e p.hdrAddr 128) with
      | none => none
      | some h =>
        if (p.twin || h.twin) && (p.ord || h.ord) then none
        else some { p with hdr := h, ord := p.ord || h.ord, twin := p.twin || h.twin, nopre := p.nopre || h.nopre }

/-- The dependences that are not met, read at system scope. -/
def unmetDeps (s : State) (owner : Nat) (ds : List (Nat × Nat)) : List (Nat × Nat) :=
  ds.filter fun d => match devTranslate s owner d.1 .load with
    | some e => decide (natOfBytes (devBytes s e d.1 8) < d.2)
    | none => true

/-- Re-read what a pulled record waits for. -/
def recheck (s : State) (owner : Nat) (p : Pulled) : Pulled :=
  let ds := unmetDeps s owner p.deps
  { p with deps := ds, depsMet := ds.isEmpty }

/-- The host writes bytes of device memory: a queue whose refused record they meet has it rewritten (R236). -/
def noteRewrite (pa n : Nat) (s : State) : State :=
  { s with queues := kvMap s.queues fun k x =>
      if rangesMeet pa n (recordAddr s (k / 16) (k % 16) (qHead s (k / 16) (k % 16))) 128 then { x with refused := false } else x }

/-- Whether a queue may pull: it has rung, it is neither stopped, refused nor empty, its last record has begun, and its
context is not on the fatal path. -/
def mayPull (s : State) (owner q : Nat) : Bool :=
  let x := getQueue s owner q
  devReady s && kvHas s.ctxs owner && decide (q < 16) && x.rung && qStatus s owner q != 3
    && qHead s owner q != qTail s owner q && x.pulled.all (fun p => p.begun) && (getCtx s owner).fatal.isNone && !x.refused

/-- QUEUE_PULL (R233, R236): the record at HEAD is pulled, or refused with HEAD left at it. -/
def execQueuePull (owner q : Nat) (s : State) : Host.Outcome State Fault Refusal :=
  if !mayPull s owner q then .next s
  else
    let i := qHead s owner q
    match checkRecord s owner i (recordAt s owner q i) with
    | none =>
      .next (postEvent (getCtx s owner).dom owner 0x01 (q * 2 ^ 32 + i)
        (modQueue owner q (fun x => { x with rung := false, refused := true }) (setStatus owner q 2 s)))
    | some p =>
      let s := setStatus owner q 1 (setHead owner q (i + 1) s)
      .next (modQueue owner q (fun x => { x with pulled := x.pulled ++ [recheck s owner p] }) s)

/-- Re-read the unmet dependences of every queue. -/
def recheckAll (s : State) : State :=
  { s with queues := kvMap s.queues fun k x => { x with pulled := x.pulled.map fun p => if p.depsMet then p else recheck s (k / 16) p } }

/-- DEPENDENCE_RECHECK (R234). -/
def execDependenceRecheck (s : State) : Host.Outcome State Fault Refusal := .next (recheckAll s)

/-! ## The begin of a launch -/

/-- Whether a context has a launch that has begun and not ended. -/
def launchesOpen (s : State) (owner : Nat) : Bool := s.launches.any fun e => e.2.owner == owner

/-- Clear every TLB entry of a context (R117). -/
def clearTlb (p : Nat → Bool) (s : State) : State :=
  { s with
    cores := kvMap s.cores fun _ c => { c with tlb := c.tlb.filter fun e => !p e.owner },
    clusters := kvMap s.clusters fun _ c => { c with tlb := c.tlb.filter fun e => !p e.owner } }

/-- The launch of a pulled record. -/
def launchOf (s : State) (owner q : Nat) (p : Pulled) : Launch :=
  { owner := owner, queue := q, index := p.index, hdr := p.hdr, karg := p.karg, prio := p.prio, ord := p.ord, twin := p.twin,
    twink := p.twink, nopre := p.nopre, teams := hdrTeams p.hdr, waitSince := s.dev.clock,
    window := if p.ord then some (0, 0) else none, windowAt := s.dev.clock }

/-- The launch record that a queue may begin. -/
def toBegin (s : State) (owner q : Nat) : Option Pulled :=
  (getQueue s owner q).pulled.find? fun p => !p.begun && p.depsMet && !(p.invtlb && launchesOpen s owner)

/-- LAUNCH_BEGIN (R233): a launch whose dependences are met begins, after clearing the context's TLB entries where INVTLB
asks it; its start is an acquire at device scope (R135). -/
def execLaunchBegin (owner q : Nat) (s : State) : Host.Outcome State Fault Refusal :=
  match toBegin s owner q with
  | none => .next s
  | some p =>
    if (getCtx s owner).fatal.isSome then .next s
    else
      let s := if p.invtlb then clearTlb (fun o => o == owner) s else s
      let (id, s) := freshId (flushAllL1 s)
      let s := { s with launches := kvSet s.launches id (launchOf s owner q p) }
      .next (modQueue owner q (fun x => { x with
        pulled := x.pulled.map fun r => if r.index = p.index then { r with begun := true } else r,
        launches := x.launches ++ [(p.index, id)] }) s)

/-- A record of a queue is complete: it leaves, and a queue with nothing left is idle. -/
def recordOver (owner q i : Nat) (s : State) : State :=
  let s := modQueue owner q (fun x => { x with
    pulled := x.pulled.filter fun p => p.index != i, launches := x.launches.filter fun l => l.1 != i }) s
  if (getQueue s owner q).pulled.isEmpty && qHead s owner q == qTail s owner q && qStatus s owner q == 1 then
    setStatus owner q 0 s
  else s

/-- FENCE_RECORD_COMPLETE (R234): every earlier record of the queue is complete; the value is published at system scope,
DONE moves, and the interrupt is raised if IRQ asks it. -/
def execFenceRecordComplete (owner q : Nat) (s : State) : Host.Outcome State Fault Refusal :=
  match (getQueue s owner q).pulled with
  | p :: _ =>
    if p.fence ∧ p.depsMet ∧ (getCtx s owner).fatal.isNone then
      let s := match devTranslate s owner p.hdrAddr .store with
        | some e => homeWrite (paOf e p.hdrAddr) (bytesOfNat 8 p.karg.toNat) e.home e.hcore s
        | none => s
      let dom := (getCtx s owner).dom
      let s := setDone owner q (p.index + 1) (modDom s dom fun d => { d with resets := 0 })
      let s := if p.irq then postEvent dom owner 0x0A (q * 2 ^ 32 + p.index) s else s
      .next (recheckAll (recordOver owner q p.index s))
    else .next s
  | [] => .next s

/-! ## The groups of a team (R27) -/

/-- A team index cut into the outer fields, each put at its place in the work identifier. -/
def outerWid : Nat → Nat → List (Nat × Nat) → Nat
  | _, _, [] => 0
  | t, at_, (w, e) :: fs => t % max 1 e * 2 ^ at_ + outerWid (t / max 1 e) (at_ + w) fs

/-- The work identifier of a lane of a group of a team. -/
def widOf (h : Hdr) (team num lane : Nat) : DWord :=
  let w1 := h.widths.headD 0
  BitVec.ofNat 64 (lane + num * 2 ^ 6 + outerWid team (6 + w1) ((h.widths.drop 1).zip h.extents))

/-- The fibres of a group of a launch. -/
def launchFibres (h : Hdr) (launch team num : Nat) : KV Fibre :=
  (List.range (min 64 h.e0)).map fun l =>
    (l, { pc := h.entry, wid := widOf h team num l, regs := List.replicate h.regs 0, launch := some launch })

/-- A group of a launch as it starts. -/
def launchGroup (l : Launch) (id team index num : Nat) : Group :=
  newGroup { team := team, num := num, kind := .launched, owner := l.owner, dom := l.owner / 64, launch := id, hdr := l.hdr,
             karg := l.karg, prio := l.prio, teamId := BitVec.ofNat 32 index }
    (launchFibres l.hdr id index num)

/-! ## Placement (R16, R25, R232, R237) -/

/-- Put groups on the cores given for them, in order. -/
def placeGroups (team : Nat) : List (Group × Nat) → State → Option State
  | [], s => some s
  | (g, core) :: rest, s =>
    match placeGroup core g s with
    | some (gid, s) => placeGroups team rest (joinTeam team gid s)
    | none => none

/-- Whether some cores may hold one team: 1 to 4 of one cluster. -/
def oneCluster (cores : List Nat) : Bool :=
  !cores.isEmpty && cores.all fun c => clusterOfCore c == clusterOfCore (cores.headD 0)

/-- Place a team on cores, all or nothing: the first is its home core, the team is known, then its groups enter. -/
def placeTeam (id : Nat) (t : Team) (gs : List Group) (cores : List Nat) (s : State) : Option State :=
  let home := cores.headD 0
  if oneCluster cores && cores.length == gs.length && homeFree s home t.hdr then
    placeGroups id (gs.zip cores) (addTeam id { t with groups := [], live := 0 } home s)
  else none

/-- How many of some groups fit on a core, one after another. -/
def fitCount (core : Nat) : List Group → State → Nat
  | [], _ => 0
  | g :: gs, s =>
    match placeGroup core g s with
    | some (_, s) => fitCount core gs s + 1
    | none => 0

/-- The core of some that takes the most of some groups, the lower number on a tie; none that takes none. -/
def widestCore (cores : List Nat) (gs : List Group) (s : State) : Option Nat :=
  match leastBy (fun a b : Nat × Nat => decide (b.2 < a.2)) (cores.map fun c => (c, fitCount c gs s)) with
  | some (c, n) => if n = 0 then none else some c
  | none => none

/-- Cores for groups: each on a core, first the home core, while it fits there, then on the core that takes the most of
what remains. -/
def spreadGroups (cores : List Nat) (now : Nat) : List Group → State → Option (List Nat)
  | [], _ => some []
  | g :: gs, s =>
    match placeGroup now g s with
    | some (_, s) => (spreadGroups cores now gs s).map fun r => now :: r
    | none =>
      match widestCore cores (g :: gs) s with
      | none => none
      | some c =>
        match placeGroup c g s with
        | some (_, s) => (spreadGroups cores c gs s).map fun r => c :: r
        | none => none

/-- The cores of a cluster. -/
def coresOf (cluster : Nat) : List Nat := (List.range 4).map fun i => 4 * cluster + i

/-- The resident groups of a cluster. -/
def groupsOnCluster (s : State) (k : Nat) : Nat := (coresOf k).foldl (fun n c => n + groupsOnCore s c) 0

/-- The core that takes the whole of a team: the one with the fewest groups. -/
def soleCore (s : State) (ok : Nat → Bool) (gs : List Group) (clusters : List Nat) : Option Nat :=
  let fits (c : Nat) : Bool := ok c && fitCount c gs s == gs.length
  leastBy (fun a b : Nat => decide (groupsOnCore s a < groupsOnCore s b)) ((clusters.flatMap coresOf).filter fits)

/-- The cores that a cluster gives a team. -/
def clusterCores (s : State) (ok : Nat → Bool) (gs : List Group) (k : Nat) : Option (List Nat) :=
  match widestCore ((coresOf k).filter ok) gs s with
  | some home => spreadGroups (coresOf k) home gs s
  | none => none

/-- The default heuristic (R237): one core where the whole team fits, else the cluster with the fewest groups that takes
it; `ok` says which cores may be its home. -/
def defaultCores (s : State) (ok : Nat → Bool) (gs : List Group) (clusters : List Nat) : Option (List Nat) :=
  match soleCore s ok gs clusters with
  | some c => some (gs.map fun _ => c)
  | none =>
    let ks := sortBy (fun a b : Nat => decide (groupsOnCluster s a ≤ groupsOnCluster s b)) clusters
    (ks.filterMap (clusterCores s ok gs)).head?

/-- Whether a team index of a launch runs twice (R280). -/
def isTwin (l : Launch) (index : Nat) : Bool := l.twin && index % 2 ^ l.twink == 0

/-- The first copy of a twin-checked team, while it has no second one. -/
def firstCopy (s : State) (launch index : Nat) : Option Team :=
  let mine (t : Team) (n : Nat) : Bool := t.launch == launch && t.index == index && t.copy == n
  if s.teams.any (fun e => mine e.2 2) || s.saved.any (fun e => mine e.2.team 2) then none
  else ((s.teams.map fun e => e.2) ++ s.saved.map fun e => e.2.team).find? fun t => mine t 1

/-- The clusters that hold the first copy of a saved or resident team's other copy. -/
def otherCopy (s : State) (t : Team) : Option Nat :=
  (s.teams.find? fun e => t.copy != 0 && e.2.copy != 0 && e.2.copy != t.copy && e.2.launch == t.launch && e.2.index == t.index).map
    fun e => clusterOfCore e.2.home

/-! ## What waits to be placed (R237) -/

/-- Whether a team of a launch has been placed, its first copy where it has two. -/
def isPlaced (l : Launch) (index : Nat) : Bool := decide (index < l.placed) || l.ahead.contains index

/-- The teams below `placed` grow by those that have been placed ahead. -/
def growPlaced : Nat → Launch → Launch
  | 0, l => l
  | n + 1, l =>
    if l.ahead.contains l.placed then
      growPlaced n { l with placed := l.placed + 1, ahead := l.ahead.filter fun i => i != l.placed }
    else l

/-- A team of a launch has been placed. -/
def notePlaced (index : Nat) (l : Launch) : Launch := growPlaced (l.ahead.length + 1) { l with ahead := index :: l.ahead }

/-- Whether a context's teams may be placed: it is not on the fatal path, nor held out of placement. -/
def mayPlace (s : State) (owner : Nat) : Bool := (getCtx s owner).fatal.isNone && !(getCtx s owner).out

/-- Whether something waits to be placed. -/
def waits (s : State) (w : Waiter) : Bool :=
  match w with
  | .team id i copy =>
    (match kvGet s.launches id with
     | some l => mayPlace s l.owner && decide (i < l.teams) &&
        (if copy = 2 then (firstCopy s id i).isSome else !isPlaced l i && decide (copy = if isTwin l i then 1 else 0))
     | none => false)
  | .saved id =>
    (match kvGet s.saved id with
     | some x => mayPlace s x.team.owner
     | none => false)

/-- The team of a waiter as it is to be placed, with its groups as they are under a team number. -/
def waiterTeam (s : State) (w : Waiter) (team : Nat) : Team × List Group :=
  match w with
  | .team id i copy =>
    let l := getLaunch s id
    ({ launch := id, index := i, owner := l.owner, kind := .launched, hdr := l.hdr, prio := l.prio, copy := copy,
       streams := List.replicate l.hdr.e1 [] },
     (List.range l.hdr.e1).map fun n => launchGroup l id team i n)
  | .saved id =>
    match kvGet s.saved id with
    | some x => (x.team, x.groups)
    | none => ({}, [])

/-- The key of the placer: priority, launch and team index. -/
def waiterKey (s : State) (w : Waiter) : Nat × Nat × Nat :=
  let t := (waiterTeam s w 0).1
  (t.prio, t.launch, t.index)

/-- Whether the placer takes a waiter before another: by launch priority, then by age of launch, then by team index. -/
def waiterBefore (s : State) (a b : Waiter) : Bool :=
  let x := waiterKey s a
  let y := waiterKey s b
  decide (y.1 < x.1) || (x.1 == y.1 && (decide (x.2.1 < y.2.1) || (x.2.1 == y.2.1 && decide (x.2.2 < y.2.2))))

/-- Since when something waits. -/
def waitingSince (s : State) (w : Waiter) : Nat :=
  match w with
  | .team id .. => (getLaunch s id).waitSince
  | .saved id =>
    match kvGet s.saved id with
    | some x => x.waitSince
    | none => 0

/-- Whether a waiter may use what another has reserved: in an ordered launch a team of a lower index may. -/
def sharesWith (s : State) (w holder : Waiter) : Bool :=
  match w, holder with
  | .team id i _, .team id' i' _ => w == holder || (id == id' && decide (i < i') && (getLaunch s id).ord)
  | _, _ => w == holder

/-- The cluster that a waiter may not take: that of the other copy of a twin-checked team. -/
def shunned (s : State) (w : Waiter) : Option Nat :=
  match w with
  | .team id i copy => if copy = 2 then (firstCopy s id i).map fun t => clusterOfCore t.home else none
  | .saved id => (kvGet s.saved id).bind fun x => otherCopy s x.team

/-- The clusters that a waiter may take: present, not its other copy's, and not reserved for another. -/
def freeClusters (s : State) (w : Waiter) : List Nat :=
  (clustersPresent s).filter fun k => shunned s w != some k &&
    (match kvGet s.reserved k with | some r => sharesWith s w r | none => true)

/-- Whether a core may be the home of a saved team (R16). -/
def resumeHome (s : State) (x : Saved) (core : Nat) : Bool :=
  homeFree s core x.team.hdr && decide ((othersSlots s core x.id).length + x.team.shapes.length ≤ 32)
    && (x.cab.isNone || (engOf s core).cab.isNone) && (x.ssu.isNone || (engOf s core).ssu.isNone)

/-- Whether a core may be a waiter's home core. -/
def homeFits (s : State) (w : Waiter) (core : Nat) : Bool :=
  match w with
  | .team id .. => homeFree s core (getLaunch s id).hdr
  | .saved id =>
    match kvGet s.saved id with
    | some x => resumeHome s x core
    | none => false

/-- Whether the teams of lower indices of an ordered launch have been placed (R34). -/
def inTurn (s : State) (w : Waiter) : Bool :=
  match w with
  | .team id i copy => !(getLaunch s id).ord || copy == 2 || (getLaunch s id).placed == i
  | .saved _ => true

/-- Cores for a waiter under the default heuristic. -/
def waiterFits (s : State) (w : Waiter) : Option (List Nat) :=
  if waits s w && inTurn s w then defaultCores s (homeFits s w) (waiterTeam s w 0).2 (freeClusters s w) else none

/-- The second copies of a launch's teams that wait. -/
def secondCopies (s : State) (id : Nat) : List Waiter :=
  let firsts := ((s.teams.map fun e => e.2) ++ s.saved.map fun e => e.2.team).filter fun t => t.launch == id && t.copy == 1
  (firsts.filter fun t => (firstCopy s id t.index).isSome).map fun t => .team id t.index 2

/-- What waits: of each launch the second copies and the lowest team not placed, for which any other that waits without a
reservation stands; what holds a reservation; and the saved teams. -/
def waiters (s : State) : List Waiter :=
  let of (id : Nat) (l : Launch) : List Waiter := secondCopies s id ++ [.team id l.placed (if isTwin l l.placed then 1 else 0)]
  let saved : List Waiter := s.saved.map fun e => .saved e.1
  ((s.launches.flatMap fun e => of e.1 e.2) ++ (s.reserved.map fun e => e.2) ++ saved).filter (waits s)

/-- Whether the placer turns to a waiter now: none before it fits. -/
def placerTurn (s : State) (w : Waiter) : Bool :=
  waits s w && inTurn s w && !((waiters s).any fun v => waiterBefore s v w && (waiterFits s v).isSome)

/-- The cores that a waiter is given: those that a loaded policy names, within the reservations, or those of the default
heuristic. -/
def coresFor (s : State) (w : Waiter) (cores : List Nat) : Option (List Nat) :=
  if !placerTurn s w then none
  else if cores.isEmpty then waiterFits s w
  else if s.dev.policy.ownPlacement && (freeClusters s w).contains (clusterOfCore (cores.headD 0)) && homeFits s w (cores.headD 0) then
    some cores
  else none

/-- The reservation of a waiter ends as it is placed. -/
def endReservation (w : Waiter) (s : State) : State := { s with reserved := s.reserved.filter fun e => e.2 != w }

/-- TEAM_PLACEMENT (R237): a team of a launch is placed, on the cores that a loaded policy gives or by the default
heuristic. -/
def execTeamPlacement (r : TeamRef) (cores : List Nat) (s : State) : Host.Outcome State Fault Refusal :=
  let w : Waiter := .team r.launch r.index r.copy
  match coresFor s w cores with
  | none => .next s
  | some cs =>
    let (team, s') := freshId s
    let x := waiterTeam s w team
    match placeTeam team x.1 x.2 cs s' with
    | none => .next s
    | some t => 
      .next (endReservation w (modLaunch t r.launch fun l => if r.copy = 2 then l else notePlaced r.index l))

/-! ## Starvation (R237) -/

/-- Whether something has waited longer than the starvation limit. -/
def starved (s : State) (w : Waiter) : Bool :=
  decide (waitingSince s w + cyclesOfUs s s.dev.policy.starve < s.dev.clock)

/-- Whether a waiter holds a reservation. -/
def reserves (s : State) (w : Waiter) : Bool := s.reserved.any fun e => e.2 == w

/-- How many teams of a launch wait. -/
def launchWaits (s : State) (id : Nat) (l : Launch) : Nat := l.teams - l.placed - l.ahead.length + (secondCopies s id).length

/-- How many reservations a launch holds. -/
def launchReserves (s : State) (id : Nat) : Nat :=
  (s.reserved.filter fun e => match e.2 with | .team i .. => i == id | .saved _ => false).length

/-- Whether something that has waited since before a clock, and is starved, holds no reservation. -/
def longerWaits (s : State) (since : Nat) : Bool :=
  (s.launches.any fun e => mayPlace s e.2.owner && decide (e.2.waitSince < since) && starved s (.team e.1 0 0)
      && decide (launchReserves s e.1 < launchWaits s e.1 e.2))
    || s.saved.any fun e => waits s (.saved e.1) && decide (e.2.waitSince < since) && starved s (.saved e.1) && !reserves s (.saved e.1)

/-- The free group slots of a cluster. -/
def freeSlots (s : State) (k : Nat) : Nat := 1024 - groupsOnCluster s k

/-- STARVATION_LIMIT (R237): what has waited longest reserves the cluster with the most free group slots that holds no
reservation. Which of two that have waited equally long comes first is open, and the schedule chooses (log 13). -/
def execStarvationLimit (w : Waiter) (cluster : Nat) (s : State) : Host.Outcome State Fault Refusal :=
  let free := (clustersPresent s).filter fun k => !kvHas s.reserved k
  if waits s w && starved s w && !reserves s w && !longerWaits s (waitingSince s w) && free.contains cluster
      && free.all (fun k => decide (freeSlots s k ≤ freeSlots s cluster)) then
    .next { s with reserved := kvSet s.reserved cluster w }
  else .next s

/-! ## Ordered windows (R151, R152) -/

/-- Whether a group's ordered sequence is over and its operations performed. -/
def sequenceOver (g : Group) : Bool := g.ordEnded && g.ops.all fun o => !o.ord || o.done

/-- The group of a launch that a ticket names, resident or saved. -/
def ticketGroup (s : State) (id team num : Nat) : Option Group :=
  let mine (g : Group) : Bool := g.place.launch == id && g.place.kind == .launched && g.place.num == num
  match s.groups.find? fun e => mine e.2 && (getTeam s e.2.place.team).index == team with
  | some e => some e.2
  | none => ((s.saved.filter fun e => e.2.team.index == team).flatMap fun e => e.2.groups).find? mine

/-- Whether the window of a ticket may close: its team has been placed, and its group has retired or is over. -/
def ticketOver (s : State) (id : Nat) (l : Launch) (t n : Nat) : Bool :=
  decide (t < l.placed) && (match ticketGroup s id t n with | some g => sequenceOver g | none => true)

/-- The ticket after another. -/
def nextTicket (l : Launch) (t n : Nat) : Option (Nat × Nat) :=
  if n + 1 < l.hdr.e1 then some (t, n + 1) else if t + 1 < l.teams then some (t + 1, 0) else none

/-- A staged access whose window opens leaves the staging buffer for its service group. -/
def unstageAcc (gid : Nat) (o : Op) (s : State) (a : Acc) : State :=
  if o.cls == .st && a.queued && needsService s o a then
    modAcc gid o.seq a.lane (fun a => { a with queued := false })
      (unstage (coreOfGid gid) (getGroup s gid).place.owner s)
  else s

/-- An ordered operation whose window opens goes to its service groups. -/
def releaseHeldOp (gid : Nat) (s : State) (o : Op) : State :=
  let s := o.accs.foldl (unstageAcc gid o) s
  match findOp (getGroup s gid) o.seq with
  | some o => enqueueSvc gid o s
  | none => s

/-- The ordered operations of a group whose window opens go on. -/
def releaseHeldOps (id t n : Nat) (s : State) : State :=
  match s.groups.find? fun e => e.2.place.launch == id && e.2.place.kind == .launched && e.2.place.num == n
      && (getTeam s e.2.place.team).index == t with
  | some e => (e.2.ops.filter fun o => o.ord && !o.done).foldl (releaseHeldOp e.1) s
  | none => s

/-- ORDERED_WINDOW_OPEN (R151): the window closes, and the next group's opens. -/
def execOrderedWindowOpen (id : Nat) (s : State) : Host.Outcome State Fault Refusal :=
  match kvGet s.launches id with
  | none => .next s
  | some l =>
    match l.window with
    | none => .next s
    | some (t, n) =>
      if ticketOver s id l t n && (getCtx s l.owner).fatal.isNone then
        let next := nextTicket l t n
        let s := modLaunch s id fun l => { l with window := next, windowAt := s.dev.clock }
        .next (match next with | some (t, n) => releaseHeldOps id t n s | none => s)
      else .next s

/-! ## The ends of groups and teams (R29, R30) -/

/-- What a team's engines hold goes free: bank, unit, entries with their ring slots, and its sub-arrays. -/
def freeEngines (team : Nat) (s : State) : State :=
  let core := (getTeam s team).home
  let s := ((engOf s core).ents.filter fun e => e.2.team == team).foldl (fun s e => freeRings e.2 s) s
  modEng core (fun x => { x with
    cab := x.cab.filter fun c => c.team != team,
    ssu := x.ssu.filter fun u => u.team != team,
    ents := x.ents.filter fun e => e.2.team != team,
    subs := x.subs.map fun e => (e.1, if e.2.team == some team then { e.2 with team := none } else e.2) }) s

/-- A team whose last group has retired frees its resources; a twin copy's streams stay for the comparison (R282). -/
def retireTeam (team : Nat) (s : State) : State :=
  let t := getTeam s team
  if t.live ≠ 0 then s
  else
    let s := freeEngines team s
    if t.copy = 0 then { s with teams := kvDel s.teams team }
    else modTeam s team fun t => { t with
      retired := true, hdr := bareHdr t.hdr, mem := [], barTab := [], barOld := [], landings := [], tiles := [], tileMap := [],
      shapes := [], mldb := [], routeTab := [] }

/-- Whether a retiring group's counters are zero and every engine operation it issued is complete. -/
def groupOver (g : Group) : Bool := g.st == .retiring && !g.halted && g.ops.all (fun o => o.done) && g.engQ.isEmpty

/-- Put the twin stream of a group that ran on a core into its team. -/
def keepStream (core : Nat) (g : Group) (t : Team) : Team :=
  { t with streams := t.streams.set g.place.num g.twin, streamAt := kvSet t.streamAt g.place.num core }

/-- GROUP_RETIRE (R29): the slot and uniform registers are free, its inbox bindings go (R196), and a team whose last group
it was releases its resources. -/
def execGroupRetire (gid : Nat) (s : State) : Host.Outcome State Fault Refusal :=
  match kvGet s.groups gid with
  | none => .next s
  | some g =>
    if groupOver g then
      let binds := s.am.binds.filter fun b => b.target != .inbox g.place.team g.place.num g.place.owner
      let s := { s with groups := kvDel s.groups gid, am := { s.am with binds := binds } }
      let s := modTeam s g.place.team fun t => keepStream (coreOfGid gid) g { t with live := t.live - 1, groups := t.groups.filter fun x => x != gid }
      .next (retireTeam g.place.team s)
    else .next s

/-! ## The end of a launch (R26, R30) -/

/-- Whether a fibre of a launch that has exited still has an operation outstanding in a group: the end of the launch is a
release for it (R30). -/
def leftCounts (id : Nat) (g : Group) : Bool :=
  g.left.any fun e => e.2 == id
    && (g.ops.any (fun o => !o.done && inMask o.mask e.1) || g.engQ.any fun w => inMask w.mask e.1)

/-- Whether a fibre of a launch exists in some groups, or has something outstanding there. -/
def fibresCount (id : Nat) (gs : List Group) : Bool :=
  gs.any fun g => (g.place.kind == .launched && g.place.launch == id) || (g.fibres.any fun f => f.2.launch == some id)
    || leftCounts id g

/-- Whether an item of an overflow area counts toward a launch. -/
def itemCounts (id : Nat) : OvfItem → Bool
  | .fibre _ _ f => f.launch == some id
  | .entry .. => false

/-- Whether something of a launch still exists: fibres in groups, saved teams, bins, overflow areas and messages, or teams
not yet compared. -/
def launchAlive (s : State) (id : Nat) : Bool :=
  fibresCount id (s.groups.map fun e => e.2) || s.saved.any (fun e => fibresCount id e.2.groups || e.2.team.launch == id)
    || s.teams.any (fun e => e.2.launch == id && e.2.kind == .launched)
    || s.cores.any (fun c => c.2.bins.any fun b => b.2.fibres.any fun f => f.2.launch == some id)
    || s.ctxs.any (fun c => c.2.ovf.any fun e => itemCounts id e.2) || s.am.msgs.any fun m => m.launch == some id

/-- LAUNCH_END (R30): every team has been placed and every fibre has exited; every L1 writes back and invalidates, and the
launch completes. -/
def execLaunchEnd (id : Nat) (s : State) : Host.Outcome State Fault Refusal :=
  match kvGet s.launches id with
  | none => .next s
  | some l =>
    if decide (l.placed < l.teams) || !(secondCopies s id).isEmpty || launchAlive s id || (getCtx s l.owner).fatal.isSome then .next s
    else
      let s := flushAllL1 s
      .next (recordOver l.owner l.queue l.index { s with launches := kvDel s.launches id })

end Sys2Proof.Machine
end

