-- ==== Sys2Proof/Machine/Preempt.lean ====
section
/-! DEFINITION. Pre-emption (R240, R209, R232, R237), team save records (R239) and resume (R241). -/

namespace Sys2Proof.Machine

open Sys2Proof

/-! ## Stopping a team (R240 step 1) -/

/-- Whether a team is never pre-empted: NOPRE in its header or its launch record. -/
def teamNopre (s : State) (t : Team) : Bool :=
  t.hdr.nopre || (t.kind == .launched && (getLaunch s t.launch).nopre)

/-- The pairs that some entries have sent and not resolved, as bytes of the return area (R209). -/
def entsReserve (ents : List RouteEnt) : Nat :=
  ents.foldl (fun n x => if x.st = .done then n else n + (x.pairs.filter fun p => p.st == .sent).length * parkBytes x) 0

/-- The entries of a team on its home core. -/
def teamEnts (s : State) (id : Nat) : KV RouteEnt :=
  (engOf s (getTeam s id).home).ents.filter fun e => e.2.team == id

/-- What a team reserves. -/
def teamReserve (s : State) (id : Nat) : Nat := entsReserve ((teamEnts s id).map fun e => e.2)

/-- What the context's saved teams and the teams that are being pre-empted have reserved. -/
def ctxReserve (s : State) (owner : Nat) : Nat :=
  s.teams.foldl (fun n e => if e.2.owner = owner ∧ e.2.stopAt.isSome = true then n + teamReserve s e.1 else n) (savedReserve s owner)

/-- Whether a team may be pre-empted: it is resident, not NOPRE, its context is not on the fatal path, and its reservation
fits the return area. -/
def preemptible (s : State) (id : Nat) : Bool :=
  match kvGet s.teams id with
  | none => false
  | some t => !t.retired && t.stopAt.isNone && t.live != 0 && !teamNopre s t && (getCtx s t.owner).fatal.isNone
      && decide (ctxReserve s t.owner + teamReserve s id ≤ descWord s t.owner 0x58)

/-- The barriers that fibres of a group wait at. -/
def waitedBars (g : Group) : List Nat :=
  (g.fibres.filterMap fun f => match f.2.st with
    | .blocked (.barrier off _) => some off
    | _ => none).eraseDups

/-- A group stops issue; its paths that are blocked in BWAIT will issue it again (R241). -/
def stopIssue (g : Group) : Group :=
  let un (f : Fibre) : Fibre := match f.st with | .blocked (.barrier ..) => { f with st := .resident } | _ => f
  { g with fibres := g.fibres.map fun f => (f.1, un f.2), sched := { g.sched with preempted := true } }

/-- Stop a team: its groups issue nothing, no barrier of it is BUSY, and its drain begins. -/
def stopTeam (id : Nat) (s : State) : State :=
  let gids := (getTeam s id).groups
  let bars := (gids.flatMap fun g => waitedBars (getGroup s g)).eraseDups
  let s := bars.foldl (fun s off => putBar id off { barAt s id off with busy := false } s) s
  let s := gids.foldl (fun s g => modGroup s g stopIssue) s
  modTeam s id fun t => { t with stopAt := some s.dev.clock }

/-- Whether a context has a team that is resident. -/
def hasTeam (s : State) (owner : Nat) : Bool := s.teams.any fun e => e.2.owner == owner && !e.2.retired

/-- Whether the pre-emption by priority may choose a team (R232): it is on, and something of higher priority waits. -/
def outranked (s : State) (id : Nat) : Bool :=
  s.dev.policy.preempt && (waiters s).any fun w => decide ((getTeam s id).prio < (waiterKey s w).1)

/-- PREEMPTION (R232, R240): firmware chooses a team for one of higher priority that waits, and it stops. Named again once it
is saved, firmware holds its whole context out of placement, if no team of it is resident (R194). -/
def execPreemption (id : Nat) (s : State) : Host.Outcome State Fault Refusal :=
  match kvGet s.saved id with
  | some x => .next (if hasTeam s x.team.owner then s else modCtx s x.team.owner fun c => { c with out := true })
  | none => .next (if preemptible s id && outranked s id then stopTeam id s else s)

/-- TIME_SLICE_EXPIRY (R232): a team's time slice is over; firmware pre-empts it or gives it another. -/
def execTimeSliceExpiry (id : Nat) (chosen : Bool) (s : State) : Host.Outcome State Fault Refusal :=
  match kvGet s.teams id with
  | none => .next s
  | some t =>
    if s.dev.clock < t.placedAt + cyclesOfUs s s.dev.policy.timeSlice then .next s
    else if chosen && preemptible s id then .next (stopTeam id s)
    else .next (modTeam s id fun t => { t with placedAt := s.dev.clock })

/-- Whether a team is a victim for a waiter on a cluster: of lower priority, homed there, and pre-emptible. -/
def isVictim (s : State) (w : Waiter) (cluster id : Nat) : Bool :=
  let t := getTeam s id
  preemptible s id && decide (t.prio < (waiterKey s w).1) && clusterOfCore t.home == cluster

/-- GANG_STARVED's owner and detail: the queue of the waiter's launch and its team index (R297). -/
def starvedDetail (s : State) (w : Waiter) : Nat × Nat :=
  let t := (waiterTeam s w 0).1
  (t.owner, (getLaunch s t.launch).queue * 2 ^ 32 + t.index % 2 ^ 32)

/-- SECOND_STARVATION_LIMIT (R237): firmware pre-empts teams of lower priority on the reserved cluster, or posts
GANG_STARVED. -/
def execSecondStarvationLimit (cluster : Nat) (victims : List Nat) (s : State) : Host.Outcome State Fault Refusal :=
  match kvGet s.reserved cluster with
  | none => .next s
  | some w =>
    if s.dev.clock ≤ waitingSince s w + cyclesOfUs s s.dev.policy.starve2 then .next s
    else
      let vs := if s.dev.policy.preempt then victims.filter (isVictim s w cluster) else []
      let d := starvedDetail s w
      if vs.isEmpty then .next (postEvent (getCtx s d.1).dom d.1 0x02 d.2 s)
      else .next (vs.foldl (fun s v => if preemptible s v then stopTeam v s else s) s)

/-! ## The save (R240 steps 2 to 4, R239) -/

/-- Whether an engine operation may be saved before it is complete: an ATTN, a ROUTE, a scan, or a held insertion. -/
def engineSaves (s : State) (id : Nat) : Bool :=
  (s.kv.attns.any (fun a => a.id == id) && !attnTravels s id)
    || s.cores.any fun c => (c.2.eng.ents.any fun e => e.2.id == id)
        || c.2.eng.cmds.any fun d => d.id == id && (heldCmd s d || match d.kind with | .scan .. => true | _ => false)

/-- Whether an operation is over, or moves with the save. -/
def opDrained (s : State) (g : Group) (o : Op) : Bool :=
  o.done || (o.ord && !windowOpen s g) || match o.kind with | .engine id _ => engineSaves s id | _ => false

/-- Whether a stopped team's drain is over. -/
def teamDrained (s : State) (id : Nat) : Bool :=
  let t := getTeam s id
  t.landings.isEmpty && t.groups.all fun gid =>
    let g := getGroup s gid
    !g.halted && g.ops.all (opDrained s g)

/-- The elements of a group that stand in its core's staging buffer. -/
def stagedElems (g : Group) : Nat :=
  g.ops.foldl (fun n o => if o.ord ∧ o.cls = .st then n + (o.accs.filter fun a => a.queued && !a.done).length else n) 0

/-- Held ordered operations of a group move to the ordered-spill area; one that does not hold them raises
ORDER_VIOLATION. -/
def spillGroup (gid : Nat) (s : State) : State :=
  let g := getGroup s gid
  let n := stagedElems g
  let owner := g.place.owner
  let own := min n (stagedOf s (coreOfGid gid) owner)
  if own = 0 then s
  else
    let s := setStaged (coreOfGid gid) owner (stagedOf s (coreOfGid gid) owner - own) s
    let s := modCtx s owner fun c => { c with spilled := c.spilled + own }
    if descWord s owner 0x20 < 16 * (getCtx s owner).spilled then fatalCtx owner 0x1C 0 0 s
    else
      { s with mem := memPut s.mem (descWord s owner 0x18) (packOf 14 (0, stagedView s owner) (16 * (getCtx s owner).spilled)) }

/-- The twin stream of a group leaves the staging buffer: it moves with the save (R283). -/
def unstageTwin (gid : Nat) (s : State) : State :=
  let g := getGroup s gid
  unstageN (coreOfGid gid) g.place.owner (streamElems g.twin) s

/-- The twin stream of a resumed group stands in its new core's staging buffer. -/
def restageTwin (gid : Nat) (s : State) : State :=
  let g := getGroup s gid
  stageElements (coreOfGid gid) g.place.owner (streamElems g.twin) s

/-- Fibres of a bin go to the overflow area, as far as it has room. -/
def spillBin (core i : Nat) (b : Bin) (s : State) : State :=
  let s := b.fibres.foldl (fun s f =>
    match spillItem b.owner (.fibre (clusterOfCore core) (some core) f.2) s with
    | some s => modCore s core fun c => { c with bins := kvMod c.bins i fun b => { b with fibres := kvDel b.fibres f.1 } }
    | none => s) s
  modCore s core fun c => { c with bins := c.bins.filter fun e => e.1 != i || !e.2.fibres.isEmpty }

/-- Fibres of a context in bins go to the overflow area. -/
def spillBins (owner : Nat) (s : State) : State :=
  s.cores.foldl (fun s c => (c.2.bins.filter fun b => b.2.owner == owner).foldl (fun s b => spillBin c.1 b.1 b.2 s) s) s

/-- Instructions that wait for a sequencer go back to their group. -/
def recallWaits (core gid : Nat) (s : State) : State :=
  let mine (q : Nat × EngWait) : Bool := q.1 == gid
  let ws := ((s.kv.queue.filter mine) ++ (engOf s core).routeQ.filter mine).map fun q => q.2
  let s := { s with kv := { s.kv with queue := s.kv.queue.filter fun q => !mine q } }
  let s := modEng core (fun x => { x with routeQ := x.routeQ.filter fun q => !mine q }) s
  modGroup s gid fun g => { g with engQ := g.engQ ++ ws }

/-- A group as it is saved: its holds are over, no window of an exited lane is in use, and it votes anew. -/
def groupSaved (g : Group) : Group :=
  { g with leaving := [], sched := { g.sched with holds := [], vote := none, preempted := false, leaf := 6 } }

/-- The items of a save record that a team has (R239); item 13 is not part of it. -/
def saveItems (x : Saved) (attns : Bool) : List Bool :=
  [true, true, true, true, true, true, decide (0 < x.team.hdr.tiles), !x.team.shapes.isEmpty || !x.team.mldb.isEmpty,
   decide (0 < x.team.hdr.localBytes), x.cab.isSome, x.ssu.isSome, !x.ents.isEmpty || !x.team.routeTab.isEmpty || attns]

/-- The directory's offsets and the items' bytes, from an offset on: an absent item has offset 0. -/
def recordItems : Nat → List (Option (List Byte)) → List Nat × List Byte
  | _, [] => ([], [])
  | off, none :: is => let r := recordItems off is; (0 :: r.1, r.2)
  | off, some bs :: is =>
    let r := recordItems (off + bs.length) is
    (off :: r.1, bs ++ r.2)

/-- A team record: its directory, then its items. -/
def teamRecord (index : Nat) (items : List (Option (List Byte))) : List Byte :=
  let r := recordItems 128 items
  (index :: r.1 ++ [0, 0]).flatMap (bytesOfNat 8) ++ r.2

/-- Item 2 of a group: per fibre the lane registers with their bank number (R14), and the fibre's own state. -/
def fibresItem (g : Group) : List (Nat × List Word × Nat × Word × FibreSt × (PReg × Bool) × Word × DWord) :=
  g.fibres.map fun e => (e.1, e.2.regs, e.2.winBase, e.2.pc, e.2.st, (e.2.guardP, e.2.guardN), e.2.fpctl, e.2.wid)

/-- Item 3 of a group: what the manual does not lay out, then the trap record (R243). -/
def groupItem (g : Group) : List Byte :=
  packed 3 (g.uregs, g.gp, g.sched.catchUp, g.ports, g.trap.held, g.trap.handler, g.trap.pageFault, g.trap.stcmpAt, g.st)
    ++ bytesOfWords g.trap.words

/-- A convergence register in a context area or dump: 24 bytes (R74). -/
def cvBytes (g : Group) (n : Nat) : List Byte :=
  let c := getCv g n
  bytesOfNat 24 ((declOf g n).toNat + 2 ^ 64 * c.sign.toNat + 2 ^ 129 * bitNum c.tv + 2 ^ 130 * c.tag.toNat)

/-- Item 5 of a group: its sixteen convergence registers. -/
def cvItem (g : Group) : List Byte := (List.range 16).flatMap (cvBytes g)

/-- Item 6 of a group: its operations with their counters, pending bits, and twin stream (R283). -/
def countsItem (g : Group) : List Byte :=
  packed 6 (g.ops, g.opSeq, g.fences, g.upend, g.fibres.map (fun e => (e.1, e.2.pend)), g.engQ, g.ordEnded, g.twin)

/-- An entry of a barrier table: 8 bytes (R137). -/
def barEntBytes (e : BarEnt) : List Byte := bytesOfNat 8 (16 * (e.off % 2 ^ 16) + 2 ^ 32 * e.gen + 2 ^ 48 * bitNum e.v)

/-- Item 9: the local memory, which holds the barrier objects, then the barrier table. -/
def localItem (t : Team) : List Byte :=
  memBytes t.mem 0 t.hdr.localBytes ++ (List.range 4096).flatMap fun h => ((barEntry t h).map barEntBytes).getD []

/-- Item 8: the shape slots that the team holds, in ascending order (R108), then their numbers and the recorded MLDB commands with
their lattice tables (R99). -/
def shapesItem (t : Team) : List Byte :=
  (t.shapes.flatMap fun e => e.2.words) ++ packed 8 (t.shapes.map (fun e => e.1), t.mldb)

/-- The bytes of items 1 to 12 of a team (R239): in the layouts that the manual gives, and else an unknown function of the
contents (log 4). -/
def itemContents (x : Saved) (attns : List Attn) : List (List Byte) :=
  let gs := x.groups
  [packed 1 (gs.map fun g => (g.regions, g.depth)), packed 2 (gs.map fibresItem), gs.flatMap groupItem,
   packed 4 (gs.map fun g => g.fibres.map fun e => (e.1, e.2.preds)), gs.flatMap cvItem,
   (gs.flatMap countsItem) ++ packed 6 x.cmds, packed 7 x.team.tiles, shapesItem x.team, localItem x.team, packed 10 x.cab,
   (match x.ssu with | some u => u.record | none => []), packed 12 (x.ents, x.team.routeTab, attns)]

/-- The items of a record that are there. -/
def presentItems (items : List Bool) (bytes : List (List Byte)) : List (Option (List Byte)) :=
  (items.zip bytes).map fun e => if e.1 then some e.2 else none

/-- The lowest slot of a context's save area without a saved team. -/
def saveSlot (s : State) (owner : Nat) : Nat :=
  let used := (s.saved.filter fun e => e.2.team.owner == owner).map fun e => e.2.slot
  (findBelow (fun i => !used.contains i) (used.length + 1) 0).getD 0

/-- The address of a slot. -/
def saveAt (s : State) (owner slot : Nat) : Nat := descWord s owner 0x68 + slot * Config.saveStride

/-- A timeout as what is left of it, while the team is saved (R209). -/
def pauseEnt (clock : Nat) (x : RouteEnt) : RouteEnt := { x with due := x.due.map fun d => d - clock }

/-- What is saved of a team. -/
def savedOf (s : State) (id : Nat) : Saved :=
  let t := getTeam s id
  let eng := engOf s t.home
  { team := { t with stopAt := none }, id := id, groups := t.groups.map fun g => groupSaved (getGroup s g),
    cab := eng.cab.filter fun c => c.team == id, ssu := eng.ssu.filter fun u => u.team == id,
    ents := (teamEnts s id).map fun e => (e.1, pauseEnt s.dev.clock e.2),
    cmds := eng.cmds.filter fun c => c.team == id, reserved := teamReserve s id, slot := saveSlot s t.owner, waitSince := s.dev.clock }

/-- Write the record of a saved team. -/
def writeSaved (x : Saved) (s : State) : State :=
  let attns := s.kv.attns.filter fun a => a.team == x.id
  let items := presentItems (saveItems x !attns.isEmpty) (itemContents x attns) ++ [none]
  { s with mem := memPut s.mem (saveAt s x.team.owner x.slot) (teamRecord x.team.index items) }

/-- A saved team's cores, tiles, memory and engines are free. -/
def freeTeam (id : Nat) (s : State) : State :=
  let t := getTeam s id
  let s := modEng t.home (fun x => { x with
    cmds := x.cmds.filter (fun c => c.team != id), ents := x.ents.filter (fun e => e.2.team != id),
    cab := x.cab.filter (fun c => c.team != id), ssu := x.ssu.filter (fun u => u.team != id),
    subs := x.subs.map fun e => (e.1, if e.2.team == some id then { e.2 with team := none } else e.2) }) s
  { s with teams := kvDel s.teams id, groups := s.groups.filter fun e => e.2.place.team != id }

/-- The ATTNs of some teams take in what has arrived for them, and their slices stop (R175). -/
def settleAttns (p : Nat → Bool) (s : State) : State :=
  let s := (s.kv.attns.filter fun a => p a.team).foldl (fun s a => attnArrive a s) s
  (s.kv.attns.filter fun a => p a.team).foldl (fun s a => attnStop a s) s

/-- Save a drained team. -/
def saveTeam (id : Nat) (s : State) : State :=
  let t := getTeam s id
  let s := stopScans t.home (fun t => t == id) (settleAttns (fun t => t == id) s)
  let s := spillBins t.owner (t.groups.foldl (fun s g => spillGroup g (unstageTwin g (recallWaits t.home g s))) s)
  let x := savedOf s id
  freeTeam id (writeSaved x { s with saved := kvSet s.saved id x })

/-- PREEMPTION_SAVE (R240): once its drain is over, a stopped team is saved and its resources are free. -/
def execPreemptionSave (id : Nat) (s : State) : Host.Outcome State Fault Refusal :=
  match kvGet s.teams id with
  | none => .next s
  | some t =>
    if t.stopAt.isSome && (getCtx s t.owner).fatal.isNone && teamDrained s id then .next (saveTeam id s) else .next s

/-! ## Resume (R241) -/

/-- Physical slots for a team's shape slots on a new home core: the same number while it is free. -/
def mapShapes (others : List Nat) : List Nat → KV Shape → KV Shape
  | _, [] => []
  | used, (n, x) :: rest =>
    let free (i : Nat) : Bool := !others.contains i && !used.contains i
    let p := if free n then n else (findBelow free 32 0).getD n
    (n, { x with phys := p }) :: mapShapes others (p :: used) rest

/-- The numbers under which resumed entries stand: their own while it is free, else one past the core's sixteen. -/
def placeEnts (ents : KV RouteEnt) : List RouteEnt → KV RouteEnt
  | [] => ents
  | x :: xs =>
    let k := if kvHas ents x.num then (findBelow (fun i => !kvHas ents i) (ents.length + 1) 16).getD 16 else x.num
    placeEnts (kvSet ents k x) xs

/-- A group's number after a resume. -/
def newGid (old new : List Nat) (gid : Nat) : Nat :=
  match (old.zip new).find? fun e => e.1 == gid with
  | some e => e.2
  | none => gid

/-- Give a resumed team's engines back what it held. -/
def restoreEngines (x : Saved) (home : Nat) (f : Nat → Nat) (s : State) : State :=
  let on (e : RouteEnt) : RouteEnt := { e with gid := f e.gid, due := e.due.map fun d => d + s.dev.clock }
  let cmds := x.cmds.map fun c => { c with gid := f c.gid }
  let s := modEng home (fun y => { y with
    cmds := cmds ++ y.cmds, ents := placeEnts y.ents (x.ents.map fun e => on e.2),
    cab := y.cab.orElse fun _ => x.cab, ssu := y.ssu.orElse fun _ => x.ssu }) s
  { s with kv := { s.kv with attns := s.kv.attns.map fun a => if a.team = x.id then { a with gid := f a.gid } else a } }

/-- Apply a parked return (R209). -/
def applyParked (dom : Nat) (s : State) (r : PairTag × List Byte × Option Nat) : State :=
  match liveEnt s dom r.1 with
  | some (core, n, x, i, p) => applyReturn core n x i p r.2.1 r.2.2.isSome s
  | none => s

/-- Engine instructions of a group that wait for their sequencers go there again. -/
def reissueWaits (home gid : Nat) (s : State) : State :=
  let ws := (getGroup s gid).engQ
  let goes (u : EngUnit) : List EngWait := ws.filter fun w => unitOf w.instr == u
  let s := modGroup s gid fun g => { g with engQ := goes .direct }
  let s := { s with kv := { s.kv with queue := s.kv.queue ++ (goes .kv).map fun w => (gid, w) } }
  modEng home (fun y => { y with routeQ := y.routeQ ++ (goes .route).map fun w => (gid, w) }) s

/-- Held ordered operations of a group whose window is open go to the service groups. -/
def resumeOrdered (gid : Nat) (s : State) : State :=
  if windowOpen s (getGroup s gid) then
    ((getGroup s gid).ops.filter fun o => o.ord && !o.done).foldl (releaseHeldOp gid) s
  else s

/-- The lattice tables that a saved team's record carries stand again in the sub-arrays of its home core (R90, R99). -/
def restoreTables (core owner : Nat) (recs : KV MldbRec) (s : State) : State :=
  let put (subs : KV SubArray) (r : Nat × MldbRec) : KV SubArray :=
    kvSet subs r.1 { kvGetD subs r.1 {} with table := r.2.table, owner := some owner }
  modEng core (fun x => { x with subs := recs.foldl put x.subs }) s

/-- What follows the placement of a saved team. -/
def restoreTeam (x : Saved) (s : State) : State :=
  let t := getTeam s x.id
  let f := newGid x.team.groups t.groups
  let s := modTeam s x.id fun t => { t with shapes := mapShapes (othersSlots s t.home x.id) [] x.team.shapes }
  let s := restoreTables t.home t.owner t.mldb s
  let s := restoreEngines x t.home f { s with saved := kvDel s.saved x.id }
  let dom := x.team.owner / 64
  let s := x.parkedDrops.foldl (fun s d => applyDrop d s dom) (x.parkedRets.foldl (applyParked dom) s)
  let s := t.groups.foldl (fun s g => resumeOrdered g (restageTwin g (reissueWaits t.home g s))) s
  drainAll s

/-- The machine with a context that firmware places again (R194). -/
def placeAgain (owner : Nat) (s : State) : State := modCtx s owner fun c => { c with out := false }

/-- RESUME (R241): a saved team is placed under R237, on the cores that a loaded policy gives or by the default heuristic,
and its items are restored. -/
def execResume (id : Nat) (cores : List Nat) (s : State) : Host.Outcome State Fault Refusal :=
  match kvGet s.saved id with
  | none => .next s
  | some x =>
    let t := placeAgain x.team.owner s
    match coresFor t (.saved id) cores with
    | none => .next s
    | some cs =>
      match placeTeam id x.team x.groups cs t with
      | none => .next s
      | some t => .next (restoreTeam x (endReservation (.saved id) t))

end Sys2Proof.Machine
end

