-- ==== Sys2Proof/Machine/Faults.lean ====
section
/-! DEFINITION. The twin comparison (R282), and the fatal path: the watchdog (R255), the drain (R252), the core dump (R256
to R259), the domain reset (R260) and the replay (R261). -/

namespace Sys2Proof.Machine

open Sys2Proof

/-! ## The twin comparison (R280 to R283) -/

/-- The retired copy of a twin-checked team. -/
def retiredCopy (s : State) (launch index copy : Nat) : Option (Nat × Team) :=
  s.teams.find? fun e => e.2.launch == launch && e.2.index == index && e.2.copy == copy && e.2.retired

/-- Whether two stream entries agree in address, mask and data. -/
def itemsAgree (a b : TwinItem) : Bool := a.addr == b.addr && a.mask == b.mask && a.data == b.data

/-- How two streams of a group differ: not at all, or at an address, which is 0 for a difference of length. -/
def streamDiff : List TwinItem → List TwinItem → Option Nat
  | [], [] => none
  | a :: as, b :: bs => if itemsAgree a b then streamDiff as bs else some a.addr
  | _, _ => some 0

/-- How the streams of two copies differ: by the lowest group. -/
def streamsDiff : List (List TwinItem) → List (List TwinItem) → Option Nat
  | a :: as, b :: bs => (streamDiff a b).orElse fun _ => streamsDiff as bs
  | _, _ => none

/-- Perform one stream entry. -/
def commitItem (w : Who) (s : State) (t : TwinItem) : State :=
  match t.msg with
  | some m => { s with am := { s.am with msgs := s.am.msgs ++ [m] } }
  | none =>
    if (accessFails s [] t.loc).isSome then s
    else
      match t.red with
      | some (op, wide) => (doAtomic w op wide t.loc t.data s).2
      | none => coherentWrite w t.loc t.data s

/-- The agent of a commit. -/
def commitWho (t : Team) : Who := { core := t.home, owner := t.owner, pc := 0, entry := t.hdr.entry.toNat }

/-- A copy's streams leave the staging buffers of the cores that its groups ran on; what these wrote to their L1s is visible to
the device from now on, the commit being a release at device scope (R282). -/
def releaseCopy (t : Team) (s : State) : State :=
  t.streamAt.foldl (fun s e => unstageN e.2 t.owner (streamElems (t.streams.getD e.1 [])) (releaseL1 e.2 4 s)) s

/-- TWIN_COMPARE (R282): when both copies have retired their streams are compared, and committed once or refused. -/
def execTwinCompare (launch index : Nat) (s : State) : Host.Outcome State Fault Refusal :=
  match retiredCopy s launch index 1, retiredCopy s launch index 2 with
  | some (i, a), some (j, b) =>
    if (getCtx s a.owner).fatal.isSome then .next s
    else
      match streamsDiff a.streams b.streams with
      | some addr => .next (fatalCtx a.owner 0x17 0 addr s)
      | none =>
        let s := a.streams.flatten.foldl (commitItem (commitWho a)) (releaseCopy b (releaseCopy a s))
        .next { s with teams := kvDel (kvDel s.teams i) j }
  | _, _ => .next s

/-! ## The watchdog (R255) -/

/-- The limit of a context's watchdog, in cycles. -/
def watchdogLimit (s : State) (owner : Nat) : Nat :=
  let ms := descWord s owner 0x70
  cyclesOfUs s (1000 * (if ms = 0 then 1000 else ms))

/-- Whether a group holds an ordered operation. -/
def holdsOrdered (g : Group) : Bool := g.ops.any fun o => o.ord && !o.done

/-- Whether a group of a launch after a ticket holds an ordered operation. -/
def laterHolds (s : State) (id t n : Nat) : Bool :=
  let later (index : Nat) (g : Group) : Bool :=
    g.place.launch == id && g.place.kind == .launched && holdsOrdered g && (decide (t < index) || (index == t && decide (n < g.place.num)))
  (s.groups.any fun e => later (getTeam s e.2.place.team).index e.2)
    || s.saved.any fun e => e.2.groups.any fun g => later e.2.team.index g

/-- Whether a watchdog condition holds. -/
def watchdogDue (s : State) (owner detail : Nat) : Bool :=
  match detail with
  | 0 => hasCounted s owner && decide ((getCtx s owner).lastIssue + watchdogLimit s owner ≤ s.dev.clock)
  | 1 => s.launches.any fun e => e.2.owner == owner && decide (e.2.windowAt + watchdogLimit s owner ≤ s.dev.clock)
      && (match e.2.window with | some (t, n) => laterHolds s e.1 t n | none => false)
  | 2 => s.teams.any fun e => e.2.owner == owner
      && (match e.2.stopAt with | some c => decide (c + cyclesOfUs s 200 < s.dev.clock) | none => false)
  | _ => false

/-- WATCHDOG (R255): conditions 0 to 2; condition 3 raises it as the arrival finds the area full (R23). -/
def execWatchdog (owner detail : Nat) (s : State) : Host.Outcome State Fault Refusal :=
  if kvHas s.ctxs owner && (getCtx s owner).fatal.isNone && watchdogDue s owner detail then
    .next (fatalCtx owner 0x1B detail 0 s)
  else .next s

/-! ## The drain (R252, R253) -/

/-- The groups of a context. -/
def groupsOf (s : State) (owner : Nat) : KV Group := s.groups.filter fun e => e.2.place.owner == owner

/-- Whether an operation of a group is a copy that had not started at the halt: a CPA that the drain does not let go on, or a
TLD that it leaves aside (R252). -/
def copyUnstarted (s : State) (gid : Nat) (g : Group) (o : Op) : Bool :=
  match o.kind with
  | .copy _ => !copyMoves s gid g o
  | .engine id _ => s.cores.any fun c => c.2.eng.cmds.any fun d => d.id == id && drainLeaves s d
  | _ => false

/-- Whether an operation is an AMSEND none of whose messages has left the core. -/
def isSend (s : State) (gid : Nat) (o : Op) : Bool :=
  match o.kind with
  | .msg => !(s.am.rets.any fun r => r.gid == gid && r.seq == o.seq)
      && !(s.am.msgs.any fun m => m.gid == some gid && m.seq == o.seq && m.left)
  | _ => false

/-- Whether an operation needs nothing more in the drain. -/
def opSettled (s : State) (gid : Nat) (g : Group) (o : Op) : Bool := opDrained s g o || copyUnstarted s gid g o || isSend s gid o

/-- Whether nothing of a context remains in flight. -/
def ctxDrained (s : State) (owner : Nat) : Bool :=
  ((groupsOf s owner).all fun e => e.2.ops.all (opSettled s e.1 e.2))
    && s.teams.all fun e => e.2.owner != owner || e.2.landings.isEmpty

/-- The lanes whose part of an operation has not been performed. -/
def undoneLanes (o : Op) : LaneMask :=
  match o.kind with
  | .engine .. => o.mask
  | _ => if o.unif then o.act else maskOf fun l => o.accs.any fun a => a.lane == l && !a.done

/-- Whether item 6 of a dump lists an operation: a cancelled copy, or an ordered operation that is held. -/
def isListed (s : State) (gid : Nat) (g : Group) (o : Op) : Bool := !o.done && (o.ord || copyUnstarted s gid g o)

/-- What item 6 lists of a context. -/
def listedOf (s : State) (owner : Nat) : List (Nat × Word × Nat × LaneMask) :=
  (groupsOf s owner).flatMap fun e =>
    (e.2.ops.filter (isListed s e.1 e.2)).map fun o => (e.2.place.team, o.pc, e.2.place.num, undoneLanes o)

/-- Everything that some groups still have in flight is abandoned. -/
def abandon (p : Nat → Bool) (s : State) : State :=
  let gids := (s.groups.filter fun e => p e.2.place.owner).map fun e => e.1
  let mine (g : Nat) : Bool := gids.contains g
  let s := gids.foldl (fun s g => unstageN (coreOfGid g) (getGroup s g).place.owner (stagedElems (getGroup s g)) s) s
  let dead := ((s.kv.attns.filter fun a => p a.owner).map fun a => a.id)
    ++ s.cores.flatMap fun c => (c.2.eng.cmds.filter fun d => p d.owner).map fun d => d.id
  let lost (k : Packet) : Bool := dead.any fun id => isAttnPacket id k || carries id k
  let cut (x : CoreEng) : CoreEng :=
    { x with cmds := x.cmds.filter (fun c => !p c.owner), routeQ := x.routeQ.filter fun q => !mine q.1 }
  { s with
    groups := kvMap s.groups fun g x => if mine g then { x with ops := x.ops.filter (fun o => o.done), engQ := [] } else x,
    teams := kvMap s.teams fun _ t => if p t.owner then { t with landings := [] } else t,
    cores := kvMap s.cores fun _ c => { c with eng := cut c.eng },
    clusters := kvMap s.clusters fun _ c => { c with svcQ := c.svcQ.filter fun r => r.outside.isSome || !mine r.gid },
    am := { s.am with
      msgs := s.am.msgs.filter (fun m => match m.gid with | some g => !mine g | none => true),
      rets := s.am.rets.filter fun r => !mine r.gid },
    kv := { s.kv with queue := s.kv.queue.filter (fun q => !mine q.1), attns := s.kv.attns.filter fun a => !p a.owner },
    net := dropPackets lost s.net }

/-- The context whose drain or dump is under way: the first on the fatal path that is not dumped (R251). -/
def activeFatal (s : State) : Option Nat := s.dumpQ.find? fun o =>
  match (getCtx s o).fatal with
  | some f => f.step != .dumped && !(f.step == .drained && !(getDom s (getCtx s o).dom).dumpEn)
  | none => false

/-- The ATTNs and scans of a context stop (R252). -/
def stopEngines (owner : Nat) (s : State) : State :=
  let mine (t : Nat) : Bool := (getTeam s t).owner == owner
  s.cores.foldl (fun s e => stopScans e.1 mine s) (settleAttns mine s)

/-- The drain of a context is over. -/
def endDrain (owner : Nat) (cut : Bool) (s : State) : State :=
  let s := stopEngines owner s
  let teams := ((s.kv.attns.filter fun a => a.owner == owner).map fun a => a.team).eraseDups
  let list := listedOf s owner
  abandon (fun o => o == owner) (modCtx s owner fun c => { c with fatal := c.fatal.map fun f =>
    { f with step := .drained, cut := cut, listed := list, attnTeams := teams } })

/-- Whether a context is in its drain. -/
def inDrain (s : State) (owner : Nat) : Bool :=
  activeFatal s == some owner && (match (getCtx s owner).fatal with | some f => f.step == .halted | none => false)

/-- DRAIN_END (R252): nothing of the context remains in flight. -/
def execDrainEnd (owner : Nat) (s : State) : Host.Outcome State Fault Refusal :=
  .next (if inDrain s owner && ctxDrained s owner then endDrain owner false s else s)

/-- DRAIN_TIMEOUT (R252): 200 µs after the halt what remains is abandoned, and DRAINCUT is set. -/
def execDrainTimeout (owner : Nat) (s : State) : Host.Outcome State Fault Refusal :=
  match (getCtx s owner).fatal with
  | some f => .next (if inDrain s owner && decide (f.clock + cyclesOfUs s 200 ≤ s.dev.clock) then endDrain owner true s else s)
  | none => .next s

/-! ## The core dump (R256 to R259) -/

/-- Zero bytes up to a multiple of 64. -/
def pad64 (bs : List Byte) : List Byte := bs ++ List.replicate ((64 - bs.length % 64) % 64) 0

/-- The entries of item 6's list for a team: PC, group number and lane mask. -/
def listBytes (f : Fatal) (team : Nat) : List Byte :=
  (f.listed.filter fun e => e.1 == team).flatMap fun e =>
    bytesOfNat 4 e.2.1.toNat ++ bytesOfNat 4 e.2.2.1 ++ bytesOfNat 8 e.2.2.2.toNat

/-- Item 13: every resident Survey bank of an owner, each after the number of its unit. -/
def banksBytes (s : State) (owner : Nat) : List Byte :=
  (s.cores.flatMap fun c => (c.2.banks.filter fun b => b.owner == owner).flatMap fun b => bytesOfNat 8 c.1 ++ coreImage b)
    ++ s.slices.flatMap fun x => (x.2.banks.filter fun b => b.owner == owner).flatMap fun b => bytesOfNat 8 (0x100 + x.1) ++ sliceImage b

/-- A team as its record in a dump describes it. -/
def dumpView (s : State) (id : Nat) (t : Team) : Saved :=
  { team := t, id := id, groups := t.groups.map (getGroup s), cab := (engOf s t.home).cab.filter fun c => c.team == id,
    ssu := (engOf s t.home).ssu.filter fun u => u.team == id, ents := teamEnts s id,
    cmds := (engOf s t.home).cmds.filter fun c => c.team == id }

/-- The items of a team's record in a dump: those of a save, item 6 with its list, and item 13 in the first record. -/
def dumpItems (s : State) (f : Fatal) (id : Nat) (t : Team) (first : Bool) : List (Option (List Byte)) :=
  let x := dumpView s id t
  let attns := s.kv.attns.filter fun a => a.team == id
  let bytes := itemContents x attns
  let items := presentItems (saveItems x (f.attnTeams.contains id)) (bytes.set 5 (bytes.getD 5 [] ++ listBytes f id))
  items ++ [if first then some (banksBytes s t.owner) else none]

/-- Whether a team's record goes before another's. -/
def recordBefore (a b : Nat × Team) : Bool :=
  let slot (t : Team) : Nat := (t.groups.map slotOfGid).headD 0
  match a.2.kind, b.2.kind with
  | .launched, .launched => decide (a.2.index ≤ b.2.index)
  | .launched, _ => true
  | _, .launched => false
  | _, _ => decide (a.2.home < b.2.home) || (a.2.home == b.2.home && decide (slot a.2 ≤ slot b.2))

/-- The resident teams of a context, in the order of the dump. -/
def dumpTeams (s : State) (owner : Nat) : List (Nat × Team) :=
  sortBy recordBefore (s.teams.filter fun e => e.2.owner == owner && !e.2.retired)

/-- The team records. -/
def dumpRecords (s : State) (f : Fatal) (ts : List (Nat × Team)) : List Byte :=
  ((ts.zip (List.range ts.length)).map fun e =>
    pad64 (teamRecord e.1.2.index (dumpItems s f e.1.1 e.1.2 (e.2 == 0)))).flatten

/-- A late-fault record. -/
def lateBytes (r : Late) : List Byte :=
  bytesOfWords r.recWords ++ bytesOfNat 8 r.team ++ bytesOfNat 4 r.group ++ bytesOfNat 4 r.core ++ List.replicate 16 0

/-- The late-fault section: 8 records. -/
def lateSection (c : Ctx) : List Byte :=
  ((c.late.flatMap lateBytes) ++ List.replicate 512 0).take 512

/-- The dump header (R257). -/
def dumpHeader (owner : Nat) (c : Ctx) (f : Fatal) (nteams lateOff length : Nat) (trunc complete : Bool) : List Byte :=
  bytesOfNat 128 (0x4344 + 2 ^ 24 + 2 ^ 32 * bitNum complete + 2 ^ 33 * bitNum trunc + 2 ^ 34 * bitNum f.cut + 2 ^ 35 * bitNum f.queued
    + 2 ^ 44 * (owner % 2 ^ 12) + 2 ^ 56 * c.nlate + 2 ^ 64 * c.desc + 2 ^ 128 * length + 2 ^ 192 * lateOff + 2 ^ 224 * nteams
    + 2 ^ 256 * (f.team % 2 ^ 32) + 2 ^ 288 * (f.group % 2 ^ 8) + 2 ^ 296 * (f.depth % 2 ^ 8)
    + 2 ^ 320 * f.regions.foldr (fun id v => id + 2 ^ 16 * v) 0 + 2 ^ 384 * natOfBytes (bytesOfWords f.recWords)
    + 2 ^ 640 * (f.clock % 2 ^ 64))

/-- The offset of the first write of a dump that fails: its size, or a line with an uncorrectable error (R258). -/
def dumpLimit (s : State) (base size : Nat) : Nat :=
  (s.ecc.filterMap fun l => if base ≤ l ∧ l < base + size then some (l - base) else none).foldl min size

/-- A dump is lost. -/
def dumpLost (owner : Nat) (s : State) : State := postEvent (getCtx s owner).dom owner 0x05 0 s

/-- An uncorrectable error that no group's operation met is a late fault of a context (R259). -/
def lateEcc (owner : Nat) (s : State) (addr : Nat) : State :=
  let t : TrapInfo := { code := 0x1A, addr := addr, async := true }
  lateFault owner { recWords := trapWords t false 0 0, team := 2 ^ 64 - 1, group := 2 ^ 32 - 1, core := 2 ^ 32 - 1 } s

/-- The lines with an uncorrectable error that a dump of some teams reads: those of their local memory. -/
def dumpReadErrs (ts : List (Nat × Team)) : List Nat :=
  ts.flatMap fun e => (e.2.badLines.filter fun l => decide (l < e.2.hdr.localBytes)).map fun l => localWindow + l

/-- Write a dump, whole or cut at the first failing write. -/
def writeDump (owner : Nat) (f : Fatal) (s : State) : State :=
  let s := (dumpReadErrs (dumpTeams s owner)).foldl (lateEcc owner) s
  let c := getCtx s owner
  let d := getDom s c.dom
  let ts := dumpTeams s owner
  let recs := dumpRecords s f ts
  let body := recs ++ lateSection c
  let off := 128 + recs.length
  let limit := dumpLimit s d.dumpBase d.dumpSize
  let whole := decide (128 + body.length ≤ limit)
  let length := if whole then 128 + body.length else limit
  if limit < 128 then dumpLost owner s
  else
    let bs := dumpHeader owner c f ts.length off length (!whole) whole ++ body.take (length - 128)
    let s := { s with mem := memPut s.mem d.dumpBase bs }
    postEvent c.dom owner 0x04 length (modDom s c.dom fun d => { d with dumpWait := true })

/-- CORE_DUMP (R256): the dump of a drained context, or DUMP_LOST while the host has not acknowledged the last one. -/
def execCoreDump (owner : Nat) (s : State) : Host.Outcome State Fault Refusal :=
  let c := getCtx s owner
  match c.fatal with
  | none => .next s
  | some f =>
    if activeFatal s == some owner && f.step == .drained then
      let t := if (getDom s c.dom).dumpWait then dumpLost owner s else writeDump owner f s
      .next (modCtx t owner fun c => { c with fatal := c.fatal.map fun f => { f with step := .dumped } })
    else .next s

/-! ## Domain reset and replay (R260, R261) -/

/-- Whether a context of a domain still has to be dumped. -/
def dumpPending (s : State) (o : Nat) : Bool :=
  match (getCtx s o).fatal with
  | some f => f.step != .dumped && !(f.step == .drained && !(getDom s (getCtx s o).dom).dumpEn)
  | none => false

/-- The contexts of a domain on the fatal path, in the order they arrived. -/
def fatalOf (s : State) (dom : Nat) : List Nat := s.dumpQ.filter fun o => (getCtx s o).dom == dom

/-- Free the overflow area of a context: every item leaves it. -/
def freeOverflow (owner : Nat) (s : State) : State := (getCtx s owner).ovf.foldl (fun s e => freeItem owner e s) s

/-- The ring slots that a domain's entries hold, resident or saved, are free. -/
def freeAllRings (dom : Nat) (s : State) : State :=
  let own := s.cores.flatMap fun c => c.2.eng.ents.map fun e => e.2
  let kept := s.saved.flatMap fun e => e.2.ents.map fun x => x.2
  ((own ++ kept).filter fun x => x.owner / 64 == dom).foldl (fun s x => freeRings x s) s

/-- The engines of a core without a domain's teams. -/
def clearEngines (dom : Nat) (gone : List Nat) (x : CoreEng) : CoreEng :=
  { x with
    cab := x.cab.filter fun c => !gone.contains c.team, ssu := x.ssu.filter fun u => !gone.contains u.team,
    ents := x.ents.filter fun e => e.2.owner / 64 != dom,
    subs := x.subs.map fun e => (e.1, match e.2.team with
      | some t => if gone.contains t then { e.2 with team := none } else e.2
      | none => e.2) }

/-- A core without what belongs to a domain: bins, banks and what its engines hold. -/
def clearCore (dom : Nat) (gone : List Nat) (c : Core) : Core :=
  { c with bins := c.bins.filter fun b => b.2.owner / 64 != dom, banks := c.banks.filter fun b => b.owner / 64 != dom,
           staged := c.staged.filter fun e => e.1 / 64 != dom,
           eng := clearEngines dom gone c.eng }

/-- Kill a domain's fibres and free what its teams hold. -/
def killDomain (dom : Nat) (s : State) : State :=
  let p (o : Nat) : Bool := o / 64 == dom
  let owners := (s.ctxs.filter fun e => e.2.dom == dom).map fun e => e.1
  let s := freeAllRings dom (owners.foldl (fun s o => freeOverflow o s) (abandon p s))
  let gone := (s.teams.filter fun e => p e.2.owner).map fun e => e.1
  let gone' (w : Waiter) : Bool := p (waiterTeam s w 0).1.owner
  { s with
    groups := s.groups.filter fun e => !p e.2.place.owner, teams := s.teams.filter fun e => !p e.2.owner,
    saved := s.saved.filter fun e => !p e.2.team.owner, launches := s.launches.filter fun e => !p e.2.owner,
    reserved := s.reserved.filter fun e => !(gone' e.2), dumpQ := s.dumpQ.filter fun o => !p o,
    cores := kvMap s.cores fun _ c => clearCore dom gone c,
    slices := kvMap s.slices fun _ x => { x with banks := x.banks.filter (fun b => !p b.owner), wanted := x.wanted.filter fun o => !p o },
    am := { binds := s.am.binds.filter fun b => b.dom != dom, msgs := s.am.msgs.filter fun m => m.dom != dom || m.dev != s.dev.num.toNat,
            rets := s.am.rets.filter fun r => r.dom != dom, drops := s.am.drops.filter fun d => d.dom != dom },
    kv := { s.kv with held := s.kv.held.filter fun h => !p h.owner },
    ctxs := kvMap s.ctxs fun o c => if p o then
      { c with ovf := [], spilled := 0, fatal := none, late := [], nlate := 0, out := false, lastIssue := s.dev.clock } else c }

/-- The L1 lines that a domain's owners brought in are written back and invalidated, and its translations cleared. -/
def flushDomain (dom : Nat) (s : State) : State :=
  clearTlb (fun o => o / 64 == dom) (s.cores.foldl (fun s e => flushLines e.1 (fun l => l.owner / 64 == dom) s) s)

/-- A queue stops at DONE, or pulls again from there. -/
def resetQueue (again : Bool) (s : State) (k : Nat × Nat) : State :=
  if qSize s k.1 k.2 = 0 then s
  else
    let s := setStatus k.1 k.2 (if again then 1 else 3) (setHead k.1 k.2 (qDone s k.1 k.2) s)
    modQueue k.1 k.2 (fun _ => { rung := again }) s

/-- The replay after a fatal reset (R261). -/
def replayDomain (dom : Nat) (s : State) : State :=
  let d := getDom s dom
  let again := decide (d.resets < d.replay)
  let s := (domQueues s dom).foldl (resetQueue again) (modDom s dom fun d => { d with resets := d.resets + 1 })
  if again then s else postEvent dom 0 0x07 0 s

/-- DOMAIN_RESET's detail: TRAPREC0 and TRAPREC1 of the first fault. -/
def resetDetail (f : Fatal) : Nat := (f.recWords.getD 0 0).toNat + 2 ^ 32 * (f.recWords.getD 1 0).toNat

/-- DOMAIN_RESET (R260, R261): once every fatal context of a domain has been drained and dumped. -/
def execDomainReset (dom : Nat) (s : State) : Host.Outcome State Fault Refusal :=
  match fatalOf s dom with
  | [] => .next s
  | o :: os =>
    if (o :: os).any (dumpPending s) then .next s
    else
      let detail := match (getCtx s o).fatal with | some f => resetDetail f | none => 0
      .next (replayDomain dom (postEvent dom 0 0x06 detail (flushDomain dom (killDomain dom s))))

end Sys2Proof.Machine
end

