-- ==== Sys2Proof/Machine/LaneCross.lean ====
section
/-! DEFINITION. The lane-cross instructions (rows 94 to 97; R370, R383 to R385). -/

namespace Sys2Proof.Machine

open Sys2Proof

/-- The source lane of SHFL, or none outside 0 to 63 (R370). -/
def shflSource (f : Shfl) (l k : Nat) : Option Nat :=
  match f with
  | .idx => some (k % 64)
  | .xor => some (Nat.xor l (k % 64))
  | .up => if k ≤ l then some (l - k) else none
  | .down => if l + k ≤ 63 then some (l + k) else none

/-- SHFL: any lane of the path can serve as a source, guarded off or not; any other gives the lane its own value. -/
def execShfl (g : Bool) (f : Shfl) (d a b : VReg) (s : State) : Host.Outcome State Fault Refusal :=
  laneOp g { vr := [a.toNat, b.toNat], vw := [d.toNat] } (fun e l =>
    let src := match shflSource f l (laneVal e l b.toNat).toNat with
      | some k => if inMask e.cur.mask k then k else l
      | none => l
    { regs := [(d.toNat, laneVal e src a.toNat)] }) s

/-- The greatest, or least, of words read as signed; 0 for none. -/
def extreme (mx : Bool) (ws : List Word) : Word :=
  (leastBy (fun a b : Word => if mx then decide (b.toInt < a.toInt) else decide (a.toInt < b.toInt)) ws).getD 0

/-- The sum of words, modulo 2^32. -/
def sumWords (ws : List Word) : Word := ws.foldl (· + ·) 0

/-- VSCAN: a scan over the acting lanes in ascending order (R385). -/
def execVscan (g : Bool) (f : Scan) (d a : VReg) (s : State) : Host.Outcome State Fault Refusal :=
  laneOp g { vr := [a.toNat], vw := [d.toNat] } (fun e l =>
    let upTo (incl : Bool) : List Word :=
      ((lanesOf e.act).filter fun k => decide (k < l) || (incl && k == l)).map fun k => laneVal e k a.toNat
    let v := match f with
      | .addExcl => sumWords (upTo false)
      | .addIncl => sumWords (upTo true)
      | .maxIncl => extreme true (upTo true)
      | .minIncl => extreme false (upTo true)
    { regs := [(d.toNat, v)] }) s

/-- VBAL: the mask of the acting lanes whose predicate is true (R383). -/
def execVbal (g : Bool) (d : VReg) (p : PReg) (s : State) : Host.Outcome State Fault Refusal :=
  laneOp g { vw := regRange d.toNat 2 } (fun e _ =>
    let m := maskOf fun l => inMask e.act l && getPred (getFibre e.grp l) p.toNat
    { regs := (regRange d.toNat 2).zip (wordsOfDWord m) }) s

/-- The exact sum of FP32 values, rounded once (R95): an exact zero is +0 unless every operand is −0. -/
def faddExact (ws : List Word) : Rounded :=
  let xs := ws.map fun w => fval fp32 w.toNat
  let infs := xs.filter fun x => match x with | .inf _ => true | _ => false
  let clash := infs.any (fun x => fneg x) && infs.any (fun x => !fneg x)
  let flags := snanFlag xs ||| invIf clash
  if xs.any isNaN || clash then { code := fp32.nan, flags := flags }
  else
    match infs with
    | x :: _ => { code := withSign fp32 (fneg x) fp32.inf, flags := flags }
    | [] =>
      let lo : Int := -149
      let v := xs.foldl (fun t x => match x with | .fin n m e => t + scaledInt n m e lo | _ => t) (0 : Int)
      if v = 0 then { code := withSign fp32 (xs.all fneg) 0, flags := flags }
      else
        let r := roundDyadic fp32 .rn (decide (v < 0)) v.natAbs lo
        { r with flags := r.flags ||| flags }

/-- VRED: a reduction over the acting lanes into every acting lane (R384, R95). -/
def execVred (g : Bool) (f : Red) (d a : VReg) (s : State) : Host.Outcome State Fault Refusal :=
  laneOp g { vr := [a.toNat], vw := [d.toNat] } (fun e _ =>
    let ws := (lanesOf e.act).map fun k => laneVal e k a.toNat
    match f with
    | .add => { regs := [(d.toNat, sumWords ws)] }
    | .maxS => { regs := [(d.toNat, extreme true ws)] }
    | .minS => { regs := [(d.toNat, extreme false ws)] }
    | .faddExact =>
      let r := faddExact ws
      { regs := [(d.toNat, BitVec.ofNat 32 r.code)], flags := r.flags }) s

end Sys2Proof.Machine
end

