-- ==== Sys2Proof/Machine/LaneInt.lean ====
section
/-! DEFINITION. The lane integer instructions (rows 1 to 52, R306 to R371). -/

namespace Sys2Proof.Machine

open Sys2Proof

/-- IADD, lane form (R336). -/
def execIaddLane (g : Bool) (f : Sat) (d a b : VReg) (s : State) :
    Host.Outcome State Fault Refusal :=
  laneAlu g d [a, b] (bin (addSub false f)) s

/-- ISUB, lane form (R336). -/
def execIsubLane (g : Bool) (f : Sat) (d a b : VReg) (s : State) :
    Host.Outcome State Fault Refusal :=
  laneAlu g d [a, b] (bin (addSub true f)) s

/-- IADDI, lane form: the immediate is signed (R337). -/
def execIaddiLane (g : Bool) (d a : VReg) (imm : BitVec 10) (s : State) :
    Host.Outcome State Fault Refusal :=
  laneAlu g d [a] (un fun x => x + imm.signExtend 32) s

/-- IMUL, lane form (R342). -/
def execImulLane (g : Bool) (f : MulPart) (d a b : VReg) (s : State) :
    Host.Outcome State Fault Refusal :=
  laneAlu g d [a, b] (bin (mulPart f)) s

/-- IMAD, lane form: d is read too (R340). -/
def execImadLane (g : Bool) (d a b : VReg) (s : State) :
    Host.Outcome State Fault Refusal :=
  laneAlu g d [d, a, b] (ter fun x y z => y * z + x) s

/-- IMIN, lane form (R341). -/
def execIminLane (g : Bool) (nat : Bool) (d a b : VReg) (s : State) :
    Host.Outcome State Fault Refusal :=
  laneAlu g d [a, b] (bin (minMax false nat)) s

/-- IMAX, lane form (R341). -/
def execImaxLane (g : Bool) (nat : Bool) (d a b : VReg) (s : State) :
    Host.Outcome State Fault Refusal :=
  laneAlu g d [a, b] (bin (minMax true nat)) s

/-- AND, lane form (R306). -/
def execAndLane (g : Bool) (d a b : VReg) (s : State) :
    Host.Outcome State Fault Refusal :=
  laneAlu g d [a, b] (bin fun x y => x &&& y) s

/-- OR, lane form (R306). -/
def execOrLane (g : Bool) (d a b : VReg) (s : State) :
    Host.Outcome State Fault Refusal :=
  laneAlu g d [a, b] (bin fun x y => x ||| y) s

/-- XOR, lane form (R306). -/
def execXorLane (g : Bool) (d a b : VReg) (s : State) :
    Host.Outcome State Fault Refusal :=
  laneAlu g d [a, b] (bin fun x y => x ^^^ y) s

/-- ANDN, lane form (R306). -/
def execAndnLane (g : Bool) (d a b : VReg) (s : State) :
    Host.Outcome State Fault Refusal :=
  laneAlu g d [a, b] (bin fun x y => x &&& ~~~y) s

/-- SHL, lane form (R371). -/
def execShlLane (g : Bool) (d a b : VReg) (s : State) :
    Host.Outcome State Fault Refusal :=
  laneAlu g d [a, b] (bin shlFun) s

/-- SHR.n, lane form (R371). -/
def execShrNLane (g : Bool) (d a b : VReg) (s : State) :
    Host.Outcome State Fault Refusal :=
  laneAlu g d [a, b] (bin shrNFun) s

/-- SHR.s, lane form (R371). -/
def execShrSLane (g : Bool) (d a b : VReg) (s : State) :
    Host.Outcome State Fault Refusal :=
  laneAlu g d [a, b] (bin shrSFun) s

/-- ROT, lane form (R371). -/
def execRotLane (g : Bool) (d a b : VReg) (s : State) :
    Host.Outcome State Fault Refusal :=
  laneAlu g d [a, b] (bin rotFun) s

/-- POPC, lane form (R359). -/
def execPopcLane (g : Bool) (d a : VReg) (s : State) :
    Host.Outcome State Fault Refusal :=
  laneAlu g d [a] (un popcount) s

/-- CLZ, lane form (R317). -/
def execClzLane (g : Bool) (d a : VReg) (s : State) :
    Host.Outcome State Fault Refusal :=
  laneAlu g d [a] (un leadingZeros) s

/-- BREV, lane form (R313). -/
def execBrevLane (g : Bool) (d a : VReg) (s : State) :
    Host.Outcome State Fault Refusal :=
  laneAlu g d [a] (un reverseBits) s

/-- IABS, lane form (R335). -/
def execIabsLane (g : Bool) (d a : VReg) (s : State) :
    Host.Outcome State Fault Refusal :=
  laneAlu g d [a] (un absFun) s

/-- INEG, lane form (R335). -/
def execInegLane (g : Bool) (d a : VReg) (s : State) :
    Host.Outcome State Fault Refusal :=
  laneAlu g d [a] (un fun x => 0 - x) s

/-- BFX, lane form: the control value is the immediate (R311). -/
def execBfxLane (g : Bool) (d a : VReg) (len pos : BitVec 5) (s : State) :
    Host.Outcome State Fault Refusal :=
  laneAlu g d [a] (un fun x => bfxFun x (len.toNat * 32 + pos.toNat)) s

/-- BFXS, lane form: the control value is the immediate (R311). -/
def execBfxsLane (g : Bool) (d a : VReg) (len pos : BitVec 5) (s : State) :
    Host.Outcome State Fault Refusal :=
  laneAlu g d [a] (un fun x => bfxsFun x (len.toNat * 32 + pos.toNat)) s

/-- BFI, lane form: d is read too (R311). -/
def execBfiLane (g : Bool) (d a b : VReg) (s : State) :
    Host.Outcome State Fault Refusal :=
  laneAlu g d [d, a, b] (ter fun x y k => bfiFun x y (bfControl k)) s

/-- LEA, lane form (R348). -/
def execLeaLane (g : Bool) (d a b : VReg) (sh : BitVec 3) (s : State) :
    Host.Outcome State Fault Refusal :=
  laneAlu g d [a, b] (bin fun x y => leaFun x y sh) s

/-- MOVK, lane form (R353). -/
def execMovkLane (g : Bool) (d : VReg) (imm : BitVec 16) (s : State) :
    Host.Outcome State Fault Refusal :=
  laneAlu g d [] (fun _ => imm.zeroExtend 32) s

/-- MOVK.hi, lane form: d is read too (R353). -/
def execMovkHiLane (g : Bool) (d : VReg) (imm : BitVec 16) (s : State) :
    Host.Outcome State Fault Refusal :=
  laneAlu g d [d] (un fun x => movkHi x imm) s

end Sys2Proof.Machine
end

