-- ==== Sys2Proof/Machine/Window.lean ====
section
/-! DEFINITION. The register window (R294): the capability list (R295), DEVSTAT (R298) and the mailboxes (R296), and the access
codes of its registers (R8). -/

namespace Sys2Proof.Machine

open Sys2Proof

/-! ## The capability list (R295) -/

/-- The part's event set (R292, R295). -/
def eventSet : List Nat := [1, 2, 3, 4, 5, 6, 7] ++ (List.range 18).map fun i => 0x10 + i

/-- The body of the record of an id, in doublewords. That each value of records 1, 5 and 6 takes one, that the event set's count
takes 16 bits, and what marks a feature as present is a DESIGN CHOICE (log 11). -/
def capBody (s : State) (id : Nat) : List DWord :=
  match id with
  | 1 => [Config.partNumber, s.dev.clusterMask, 48, 12, s.dev.ucie.setWidth 64]
  | 4 =>
    let ids := eventSet.length :: eventSet
    (List.range ((ids.length + 3) / 4)).map fun i =>
      BitVec.ofNat 64 (natOfBytes ((((ids.drop (4 * i)).take 4)).flatMap (bytesOfNat 2)))
  | 5 => [16, s.dev.fitted.setWidth 64]
  | 6 => [64]
  | _ => [1]

/-- A record's header. -/
def capHeader (next len id : Nat) : DWord :=
  BitVec.ofNat 64 (id + 2 ^ 16 * (Config.capVersion id).toNat + 2 ^ 24 * len + 2 ^ 32 * next)

/-- The records of some ids, the first at an offset in doublewords; the last one ends the list. -/
def capRecords (s : State) : Nat → List Nat → List DWord
  | _, [] => []
  | at_, id :: ids =>
    let body := capBody s id
    let next := at_ + 1 + body.length
    capHeader (if ids.isEmpty then 0 else next) body.length id :: body ++ capRecords s next ids

/-- The capability list; it becomes readable in phase ROM (R298). -/
def capList (s : State) : List Byte :=
  if s.dev.phase = 0 then [] else (capRecords s 0 [1, 2, 3, 4, 5, 6]).flatMap fun d => bytesOfNat 8 d.toNat

/-! ## DEVSTAT (R298) -/

/-- DEVSTAT. -/
def devStat (s : State) : Word :=
  BitVec.ofNat 32 (s.dev.phase % 16 + 2 ^ 8 * (s.dev.err % 256) + 2 ^ 16 * s.dev.stackFail.toNat)

/-! ## Mailboxes (R296) -/

/-- A request slot: the request word, then the operands, whose layout the manual does not give (log 4). -/
def requestSlot {α : Type} (op seq : Nat) (x : α) : List Byte :=
  bytesOfNat 4 (op % 2 ^ 8 + 2 ^ 16 * (seq % 2 ^ 16)) ++ packOf 17 x 60

/-- A reply slot: STATUS and SEQ, then the value, whose place the manual does not give (log 4). -/
def replySlot (r : Reply) : List Byte :=
  bytesOfNat 4 (2 ^ 8 * (r.status % 2 ^ 8) + 2 ^ 16 * (r.seq % 2 ^ 16)) ++ packOf 18 r.value 60

/-- Where in the register window a mailbox stands: the domain's, or nothing for the management mailbox. -/
def mailAt (off : Nat) : Option (Option Nat) :=
  if 0x20000 ≤ off ∧ off < 0x60000 then some (some ((off - 0x20000) / 0x1000))
  else if 0x60000 ≤ off ∧ off < 0x61000 then some none
  else none

/-- The request slot of a mailbox. -/
def requestOf (s : State) (d : Option Nat) : List Byte :=
  match d with
  | some d => (getDom s d).request
  | none => s.dev.request

/-- The reply of a mailbox. -/
def replyOf (s : State) (d : Option Nat) : Reply :=
  match d with
  | some d => (getDom s d).reply
  | none => s.dev.reply

/-- Set the request slot of a mailbox. -/
def setRequest (d : Option Nat) (bs : List Byte) (s : State) : State :=
  match d with
  | some d => modDom s d fun x => { x with request := bs }
  | none => { s with dev := { s.dev with request := bs } }

/-- Set the reply of a mailbox: the sequence number, a status and a value. -/
def putReply (mgmt : Bool) (dom seq status value : Nat) (s : State) : State :=
  let r : Reply := { seq := seq % 2 ^ 16, status := status, value := value }
  if mgmt then { s with dev := { s.dev with reply := r } } else modDom s dom fun d => { d with reply := r }

/-! ## Reads and writes (R8) -/

/-- A byte of the register window as the host reads it. A mailbox holds its request slot first and its reply slot next (DESIGN
CHOICE: the manual places neither within the mailbox; log 11). -/
def windowByte (s : State) (off : Nat) : Byte :=
  if off < 0x10000 then (capList s).getD off 0
  else if off < 0x10004 then (bytesOfNat 4 (devStat s).toNat).getD (off - 0x10000) 0
  else
    match mailAt off with
    | some d =>
      let k := off % 0x1000
      if k < 64 then (requestOf s d).getD k 0 else if k < 128 then (replySlot (replyOf s d)).getD (k - 64) 0 else 0
    | none => 0

/-- The access code of a byte of the register window: request slots are read and written, all else is read only. -/
def accessAt (off : Nat) : Access := if (mailAt off).isSome && decide (off % 0x1000 < 64) then .rw else .ro

/-- What a register byte holds after a write under its access code. -/
def regAfter (a : Access) (old v : Byte) : Byte :=
  match a with
  | .ro => old
  | .rw => v
  | .wo => v
  | .w1c => old &&& ~~~v

/-- The host writes a byte of the register window. -/
def windowWrite (off : Nat) (b : Byte) (s : State) : State :=
  match mailAt off with
  | some d =>
    let slot := ((requestOf s d) ++ List.replicate 64 0).take 64
    let k := off % 0x1000
    if accessAt off = .ro then s else setRequest d (slot.set k (regAfter (accessAt off) (slot.getD k 0) b)) s
  | none => s

/-- REGISTER_WRITE (R8): the host writes the lowest bytes of a value, up to eight, from an offset on. -/
def execRegisterWrite (off n : Nat) (v : DWord) (s : State) : Host.Outcome State Fault Refusal :=
  .next (((List.range (min n 8)).zip (bytesOfNat 8 v.toNat)).foldl (fun s e => windowWrite (off + e.1) e.2 s) s)

end Sys2Proof.Machine
end

