-- ==== Sys2Proof/Machine/System.lean ====
section
/-! DEFINITION. The host's side: mailboxes and their operations (R296), bring-up (R298), power (R299), registers (R8),
accesses from outside (R274, R294), migration (R293), unmapping (R116), the patrol (R123), prefetches and bank switches that
land (R218, R214), and trace samples (R288). -/

namespace Sys2Proof.Machine

open Sys2Proof

/-! ## Mailboxes (R296) -/

/-- What an operation does: the value of its reply and the state, or nothing when it is refused. -/
abbrev MailRes := Option (Nat × State)

/-- Whether a domain reset is under way (R260): what must precede it is over, and it has not been posted. -/
def resetDue (s : State) (dom : Nat) : Bool := !(fatalOf s dom).isEmpty && !(fatalOf s dom).any (dumpPending s)

/-- Serve a request of a mailbox, which the host has written and rung: it waits during a reset of its domain; NOT_READY before
READY, no rights for a management operation in a domain mailbox, refused, or done. There are 64 domains. -/
def serveMail {α : Type} (mgmt : Bool) (dom seq opc : Nat) (x : α) (op : State → MailRes) (s : State) :
    Host.Outcome State Fault Refusal :=
  if (!mgmt && decide (64 ≤ dom)) || resetDue s dom then .next s
  else
    let s := setRequest (if mgmt then none else some dom) (requestSlot opc seq x) s
    if s.dev.phase ≠ 5 then .next (putReply mgmt dom seq 2 0 s)
    else if 0x20 ≤ opc && !mgmt then .next (putReply mgmt dom seq 3 0 s)
    else if 64 ≤ dom then .next (putReply mgmt dom seq 1 0 s)
    else
      match op s with
      | none => .next (putReply mgmt dom seq 1 0 s)
      | some r => .next (putReply mgmt dom seq 0 r.1 r.2)

/-- An operation that is refused unless a condition holds. -/
def mailIf (ok : Bool) (f : State → State) (s : State) : MailRes := if ok then some (0, f s) else none

/-- Whether a number is a power of two between two bounds. -/
def isPow2 (lo hi n : Nat) : Bool := decide (lo ≤ n) && decide (n ≤ hi) && n == 2 ^ n.log2

/-! ## Contexts (0x01, 0x02) -/

/-- The launch-queue descriptors of a new context hold TAIL, HEAD, DONE and STATUS at their reset values (R233). -/
def clearQueues (desc : Nat) (s : State) : State :=
  (List.range 16).foldl (fun s q => { s with mem := memPut s.mem (desc + 0x80 + 32 * q + 12) (List.replicate 20 0) }) s

/-- CREATE_CONTEXT's effect: the lowest free context number of the domain. -/
def createCtx (dom desc : Nat) (s : State) : MailRes :=
  match findBelow (fun i => !kvHas s.ctxs (64 * dom + i)) 64 0 with
  | none => none
  | some i =>
    if desc % 64 = 0 ∧ desc + 0x280 ≤ deviceBytes then
      some (64 * dom + i, clearQueues desc { s with
        ctxs := kvSet s.ctxs (64 * dom + i) { dom := dom, desc := desc, lastIssue := s.dev.clock } })
    else none

/-- CREATE_CONTEXT (R296, R298): contexts are accepted once the system map has been written. -/
def execCreateContext (mgmt : Bool) (dom seq desc : Nat) (s : State) : Host.Outcome State Fault Refusal :=
  if s.dev.phase = 5 ∧ s.dev.mapped = false ∧ (mgmt = true ∨ dom < 64) then
    .next (putReply mgmt dom seq 2 0 (setRequest (if mgmt then none else some dom) (requestSlot 0x01 seq desc) s))
  else serveMail mgmt dom seq 0x01 desc (createCtx dom desc) s

/-- Whether something of a context still runs or waits. -/
def ctxBusy (s : State) (owner : Nat) : Bool :=
  launchesOpen s owner || (s.groups.any fun e => e.2.place.owner == owner) || (s.saved.any fun e => e.2.team.owner == owner)
    || (s.cores.any fun c => c.2.bins.any fun b => b.2.owner == owner) || !(getCtx s owner).ovf.isEmpty || s.dumpQ.contains owner

/-- Whether a binding is a context's. -/
def bindsTo (owner : Nat) (b : Binding) : Bool :=
  match b.target with
  | .kernel o .. => o == owner
  | .inbox _ _ o => o == owner

/-- A context is gone: its bindings, banks, lattice tables and queues with it. -/
def dropCtx (owner : Nat) (s : State) : State :=
  { s with
    ctxs := kvDel s.ctxs owner, queues := s.queues.filter fun e => e.1 / 16 != owner,
    am := { s.am with binds := s.am.binds.filter fun b => !bindsTo owner b },
    cores := kvMap s.cores fun _ c => { c with
      banks := c.banks.filter fun b => b.owner != owner,
      eng := { c.eng with subs := c.eng.subs.map fun e =>
        if e.2.owner = some owner then (e.1, { e.2 with table := defaultLattice, owner := none }) else e } },
    slices := kvMap s.slices fun _ x => { x with banks := x.banks.filter (fun b => b.owner != owner),
                                                 wanted := x.wanted.filter fun o => o != owner } }

/-- DESTROY_CONTEXT's effect, after its launches end. -/
def destroyCtx (dom owner : Nat) (s : State) : MailRes :=
  mailIf (kvHas s.ctxs owner && owner / 64 == dom && !ctxBusy s owner) (dropCtx owner) s

/-- DESTROY_CONTEXT (R296, R194). -/
def execDestroyContext (mgmt : Bool) (dom seq owner : Nat) (s : State) : Host.Outcome State Fault Refusal :=
  serveMail mgmt dom seq 0x02 owner (destroyCtx dom owner) s

/-! ## Page replies and handlers (0x03, 0x04) -/

/-- The runtime's reply to a suspended group: the instruction issues again, an STCMP at the element that faulted (R154), and
a held trap is delivered; or the fault is. -/
def pageReply (dom gid : Nat) (resolved : Bool) (s : State) : MailRes :=
  let g := getGroup s gid
  match g.trap.pageFault with
  | none => none
  | some t =>
    if g.place.dom ≠ dom ∨ (getCtx s g.place.owner).fatal.isSome = true then none
    else
      let g := if resolved && t.stcmp then resumeStcmp { pc := t.retPc, mask := t.mask, elt := t.progress } g else g
      let s := setGroup s gid { g with st := .resident, trap := { g.trap with pageFault := none } }
      some (0, if resolved then deliverHeld gid s else deliverTrap gid t s)

/-- PAGE_ABSENT_REPLY (R245). -/
def execPageAbsentReply (mgmt : Bool) (dom seq gid : Nat) (resolved : Bool) (s : State) : Host.Outcome State Fault Refusal :=
  serveMail mgmt dom seq 0x03 (gid, resolved) (pageReply dom gid resolved) s

/-- INSTALL_HANDLER_TABLE (R247): 32 words, whose bit 1 is zero. -/
def execInstallHandlerTable (mgmt : Bool) (dom seq : Nat) (table : List Word) (s : State) : Host.Outcome State Fault Refusal :=
  serveMail mgmt dom seq 0x04 table
    (mailIf (table.length == 32 && table.all fun w => !w.getLsbD 1) fun s => modDom s dom fun d => { d with handlers := table }) s

/-! ## Dumps and replay (0x05 to 0x08) -/

/-- DUMP_CONFIGURATION (R256): a 4 KiB aligned place in device memory. -/
def execDumpConfiguration (mgmt : Bool) (dom seq : Nat) (en : Bool) (base size : Nat) (s : State) :
    Host.Outcome State Fault Refusal :=
  serveMail mgmt dom seq 0x05 (en, base, size)
    (mailIf (base % 4096 == 0 && size % 4096 == 0 && decide (base + size ≤ deviceBytes)) fun s =>
      modDom s dom fun d => { d with dumpEn := en, dumpBase := base, dumpSize := size }) s

/-- ACKNOWLEDGE_DUMP_READY (R256). -/
def execAcknowledgeDumpReady (mgmt : Bool) (dom seq : Nat) (s : State) : Host.Outcome State Fault Refusal :=
  serveMail mgmt dom seq 0x06 () (mailIf true fun s => modDom s dom fun d => { d with dumpWait := false }) s

/-- REPLAY_SETTING (R261): 0 to 15. -/
def execReplaySetting (mgmt : Bool) (dom seq n : Nat) (s : State) : Host.Outcome State Fault Refusal :=
  serveMail mgmt dom seq 0x07 n (mailIf (decide (n ≤ 15)) fun s => modDom s dom fun d => { d with replay := n }) s

/-- A stopped queue pulls again. -/
def restartQueue (s : State) (k : Nat × Nat) : State :=
  if qSize s k.1 k.2 ≠ 0 ∧ qStatus s k.1 k.2 = 3 then
    modQueue k.1 k.2 (fun x => { x with rung := true }) (setStatus k.1 k.2 1 s)
  else s

/-- RESTART_QUEUES (R261). -/
def execRestartQueues (mgmt : Bool) (dom seq : Nat) (s : State) : Host.Outcome State Fault Refusal :=
  serveMail mgmt dom seq 0x08 () (mailIf true fun s => (domQueues s dom).foldl restartQueue s) s

/-! ## Trace, debugger, profiling, events (0x09 to 0x0C) -/

/-- The sample period that a request gives; 0 takes the default (R287). -/
def samplePeriod (n : Nat) : Nat := if n = 0 then 65536 else n

/-- Configure a trace ring: every core's next sample is a period away. -/
def setTrace (dom : Nat) (t : Trace) (s : State) : State :=
  let s := modDom s dom fun d => { d with trace := some t }
  (List.range 256).foldl (fun s c =>
    modCore s c fun x => { x with samples := kvSet x.samples dom (s.dev.clock + t.period, 0) }) s

/-- TRACE_RING (R287). -/
def execTraceRing (mgmt : Bool) (dom seq base size mask period : Nat) (s : State) : Host.Outcome State Fault Refusal :=
  let p := samplePeriod period
  serveMail mgmt dom seq 0x09 (base, size, mask, period)
    (mailIf (base % 64 == 0 && isPow2 256 (2 ^ 24) size && decide (mask < 8) && decide (1024 ≤ p) && decide (p ≤ 2 ^ 24))
      (setTrace dom { base := base, size := size, mask := mask, period := p })) s

/-- Change the groups of a domain that satisfy a test, unless their context is on the fatal path. -/
def modDomGroups (dom : Nat) (p : Nat → Group → Bool) (f : Group → Group) (s : State) : State :=
  { s with groups := kvMap s.groups fun gid g =>
      if g.place.dom == dom && p gid g && (getCtx s g.place.owner).fatal.isNone then f g else g }

/-- A group is asked to stop: it becomes stop-pending, or stops at once at the trap that was delivered to it in this cycle;
one that has stopped stays. -/
def askStop (s : State) (gid : Nat) : State :=
  let g := getGroup s gid
  if g.halted then s
  else if g.trap.deliveredAt = some s.dev.clock then stopGroup gid (g.trap.words.getD 1 0) s
  else modGroup s gid fun g => { g with sched := { g.sched with stopPending := true } }

/-- The groups of a domain that satisfy a test, but for those of a context on the fatal path. -/
def domGroups (dom : Nat) (p : Nat → Group → Bool) (s : State) : List Nat :=
  (s.groups.filter fun e => e.2.place.dom == dom && p e.1 e.2 && (getCtx s e.2.place.owner).fatal.isNone).map fun e => e.1

/-- A debugger request (R286); stops are asked for while a session holds the domain. -/
def debugReq (dom : Nat) (act : DebugAct) (s : State) : MailRes :=
  let held := (getDom s dom).session
  match act with
  | .hold => some (0, modDom s dom fun d => { d with session := true })
  | .release => some (0, modDom s dom fun d => { d with session := false })
  | .stopGroup gid => mailIf held (fun s => (domGroups dom (fun i _ => i == gid) s).foldl askStop s) s
  | .stopTeam team => mailIf held (fun s => (domGroups dom (fun _ g => g.place.team == team) s).foldl askStop s) s
  | .stopAll => mailIf held (fun s => (domGroups dom (fun _ _ => true) s).foldl askStop s) s
  | .cancel gid => mailIf held
      (modDomGroups dom (fun i _ => i == gid) fun g => { g with sched := { g.sched with stopPending := false } }) s
  | .resume gid => some (0, modDomGroups dom (fun i _ => i == gid) (fun g => { g with halted := false }) s)

/-- DEBUGGER_HOLD_STOP_RESUME (R286). -/
def execDebuggerHoldStopResume (mgmt : Bool) (dom seq : Nat) (act : DebugAct) (s : State) :
    Host.Outcome State Fault Refusal := serveMail mgmt dom seq 0x0A act (debugReq dom act) s

/-- Whether a session's ids are in the event set; 0 names no sketch event. -/
def sessionOk (events : List Nat) (pc kernel : Nat) : Bool :=
  decide (events.length ≤ 8) && events.all (fun e => eventSet.contains e) && ([pc, kernel].all fun e => e == 0 || eventSet.contains e)

/-- Open a session: totals and sketches start at 0. -/
def openSession (device : Bool) (dom : Nat) (events : List Nat) (pc kernel : Nat) (s : State) : State :=
  let p : Profile := { events := events, totals := events.map fun _ => 0, absent := events.map fun _ => false, pcEvent := pc,
                       kerEvent := kernel }
  let s := { s with cores := kvMap s.cores fun _ c => { c with sketchPc := [], sketchKer := [] } }
  if device then { s with dev := { s.dev with profile := some p } } else modDom s dom fun d => { d with profile := some p }

/-- Write a snapshot of a session to a host address: its ids, their status and totals, the flag, and the sketches of the cores, in
a layout that the manual does not give (log 4). -/
def writeSnapshot (p : Option Profile) (a : Nat) (s : State) : State :=
  let sketches := s.cores.map fun e => (e.1, e.2.sketchPc, e.2.sketchKer)
  { s with mem := memPut s.mem a (packed 16 (p, sketches)) }

/-- A profiling request: a snapshot of the open session, or a session opened. -/
def profileReq (device : Bool) (dom : Nat) (events : List Nat) (pc kernel : Nat) (snapshot : Option Nat) (s : State) : MailRes :=
  match snapshot with
  | some a =>
    let p := if device then s.dev.profile else (getDom s dom).profile
    mailIf (p.isSome && paHost s a && paValid s a) (writeSnapshot p a) s
  | none => mailIf (sessionOk events pc kernel) (openSession device dom events pc kernel) s

/-- PROFILING_SESSION (R292): the whole device's needs management rights. -/
def execProfilingSession (mgmt : Bool) (dom seq : Nat) (device : Bool) (events : List Nat) (pc kernel : Nat)
    (snapshot : Option Nat) (s : State) : Host.Outcome State Fault Refusal :=
  let op (s : State) : MailRes := if device && !mgmt then none else profileReq device dom events pc kernel snapshot s
  if device && !mgmt && decide (dom < 64) && !resetDue s dom && s.dev.phase == 5 then
    .next (putReply mgmt dom seq 3 0 (setRequest (some dom) (requestSlot 0x0B seq (device, events, pc, kernel, snapshot)) s))
  else serveMail mgmt dom seq 0x0B (device, events, pc, kernel, snapshot) op s

/-- Configure an event ring: the events counted before it stand in DROPPED (R297). -/
def setEvents (dom base size : Nat) (s : State) : State :=
  let n := (getDom s dom).evLost
  putDWord (modDom s dom fun d => { d with evBase := some base, evSize := size, evLost := 0 }) (base + 16) n

/-- EVENT_RING (R297): 64-byte aligned in host memory. -/
def execEventRing (mgmt : Bool) (dom seq base size : Nat) (s : State) : Host.Outcome State Fault Refusal :=
  serveMail mgmt dom seq 0x0C (base, size)
    (mailIf (base % 64 == 0 && isPow2 64 65536 size && paHost s base && paValid s base) (setEvents dom base size)) s

/-! ## Management operations (0x20 to 0x23) -/

/-- Whether policy values lie in their ranges (R232, R268, R299). -/
def policyOk (p : PolicyArgs) : Bool :=
  decide (100 ≤ p.timeSlice) && decide (p.timeSlice ≤ 100000) && decide (100 ≤ p.starve) && decide (p.starve ≤ 100000)
    && decide (1000 ≤ p.starve2) && decide (p.starve2 ≤ 1000000) && decide (800 ≤ p.capWatts) && decide (p.capWatts ≤ 2400)
    && decide (64 ≤ p.age) && decide (p.age ≤ 4095) && p.weights.all fun w => decide (1 ≤ w.2) && decide (w.2 ≤ 15)

/-- Load a policy. -/
def setPolicy (p : PolicyArgs) (s : State) : State :=
  { s with
    dev := { s.dev with policy :=
      { timeSlice := p.timeSlice, starve := p.starve, starve2 := p.starve2, preempt := p.preempt, capWatts := p.capWatts,
        ownPlacement := p.ownPlacement } },
    net := { s.net with age := p.age, weights := p.weights.foldl (fun m w => kvSet m w.1 w.2) s.net.weights } }

/-- FIRMWARE_POLICY (R232). -/
def execFirmwarePolicy (mgmt : Bool) (dom seq : Nat) (p : PolicyArgs) (s : State) : Host.Outcome State Fault Refusal :=
  serveMail mgmt dom seq 0x20 p (mailIf (policyOk p) (setPolicy p)) s

/-- The peer slots of a map: those enabled. -/
def peersOf (slots : List PeerArgs) : KV Peer :=
  slots.foldl (fun m p => if p.enabled then kvSet m p.slot { slot := p.slot, dev := p.dev, memSize := p.memSize, links := p.links }
    else kvDel m p.slot) []

/-- SYSTEM_MAP (R273, R298): the device number and the peer slots. -/
def execSystemMap (mgmt : Bool) (dom seq : Nat) (dev : BitVec 12) (slots : List PeerArgs) (s : State) :
    Host.Outcome State Fault Refusal :=
  serveMail mgmt dom seq 0x21 (dev, slots)
    (mailIf (slots.all fun p => decide (p.slot < 64) && decide (p.memSize ≤ 2 ^ 40)) fun s =>
      { s with dev := { s.dev with num := dev, mapped := true }, net := { s.net with peers := peersOf slots } }) s

/-- FIRMWARE_LOAD (R298): the one request that WAITFW takes. The host has written an image of up to 4 MiB into slice 0's SRAM,
and the firmware begins to check it. -/
def execFirmwareLoad (mgmt : Bool) (dom seq : Nat) (image : List Byte) (s : State) : Host.Outcome State Fault Refusal :=
  if mgmt ∧ s.dev.phase = 2 then
    let s := setRequest none (requestSlot 0x22 seq ()) s
    if 2 ^ 22 < image.length then .next (putReply mgmt dom seq 1 0 s)
    else .next (putReply mgmt dom seq 0 0 { s with dev := { s.dev with phase := 3, image := image } })
  else if s.dev.phase = 2 ∧ dom < 64 then
    .next (putReply mgmt dom seq 3 0 (setRequest (some dom) (requestSlot 0x22 seq ()) s))
  else serveMail mgmt dom seq 0x22 () (fun _ => none) s

/-- Whether ranges may be registered: at most 256, 64 KiB aligned. -/
def rangesOk (rs : List (Nat × Nat)) : Bool :=
  decide (rs.length ≤ 256) && rs.all fun r => r.1 % 65536 == 0 && r.2 % 65536 == 0

/-- PHYSICAL_RANGES (R123, R296): the ranges of a domain are replaced. -/
def execPhysicalRanges (mgmt : Bool) (dom seq target : Nat) (ranges : List (Nat × Nat)) (s : State) :
    Host.Outcome State Fault Refusal :=
  serveMail mgmt dom seq 0x23 (target, ranges)
    (mailIf (decide (target < 64) && rangesOk ranges) fun s => modDom s target fun d => { d with ranges := ranges }) s

/-! ## Bring-up and power (R298, R299) -/

/-- DEVICE_RESET_RELEASE: the boot ROM runs on every cluster, and clears all SRAM. -/
def execDeviceResetRelease (s : State) : Host.Outcome State Fault Refusal :=
  .next (if s.dev.phase = 0 then { s with dev := { s.dev with phase := 1 }, cores := [], clusters := [], slices := [] } else s)

/-- MEMORY_TRAINING: every stack trains, or the device fails. -/
def execMemoryTraining (fail : BitVec 12) (s : State) : Host.Outcome State Fault Refusal :=
  .next (if s.dev.phase ≠ 4 then s
    else if fail = 0 then { s with dev := { s.dev with phase := 5 } }
    else { s with dev := { s.dev with phase := 15, err := 2, stackFail := fail } })

/-- The domains that the host uses: those with a context or an event ring. -/
def liveDoms (s : State) : List Nat :=
  (List.range 64).filter fun d => (s.ctxs.any fun e => e.2.dom == d) || (getDom s d).evBase.isSome

/-- Post an event of the whole device. -/
def postAll (code detail : Nat) (s : State) : State := (liveDoms s).foldl (fun s d => postEvent d 0 code detail s) s

/-- POWER_THROTTLE: the core clock falls to its lowest step, and the host is told. -/
def execPowerThrottle (die : BitVec 2) (current temp : Bool) (s : State) : Host.Outcome State Fault Refusal :=
  if current || temp then
    .next (postAll 0x0C (die.toNat + 2 ^ 8 * bitNum current + 2 ^ 9 * bitNum temp) { s with dev := { s.dev with clkStep := 4 } })
  else .next s

/-- POWER_CAP: the core clock runs so many sixteenths below 1.25 GHz, at least at 0.3125 GHz. -/
def execPowerCap (steps : Nat) (s : State) : Host.Outcome State Fault Refusal :=
  .next { s with dev := { s.dev with clkStep := max 4 (16 - steps) } }

/-! ## Accesses from outside (R274, R294) -/

/-- Whether a byte of device memory is read only for the host (R8): HEAD, DONE, STATUS and the reserved field of a launch
queue's descriptor (R233). -/
def hostReadOnly (s : State) (pa : Nat) : Bool :=
  s.ctxs.any fun e =>
    let at_ := e.2.desc + 0x80
    decide (at_ ≤ pa) && decide (pa < at_ + 512) && decide (16 ≤ (pa - at_) % 32)

/-- The host writes bytes from an address on. -/
def hostWrites : Nat → List Byte → State → State
  | _, [], s => s
  | pa, b :: bs, s => hostWrites (pa + 1) bs (if hostReadOnly s pa then s else busWrite pa b s)

/-- How many bytes of memory an access takes. -/
def busLen (acc : BusAccess) (wide : Bool) (data : List Byte) : Nat :=
  match acc with
  | .load n => n
  | .store => data.length
  | .atomic _ => atomBytes wide
  | .tredAdd => 8
  | .message .. => 0

/-- A peer's atomic enters the queue of the service group that owns its block, if it has room. -/
def busAtomic (dev : Nat) (op : AOp) (wide : Bool) (pa : Nat) (data : List Byte) (s : State) : State :=
  let k := owningCluster s pa
  let x : Outside := { dev := dev, op := op, wide := wide, pa := pa, data := data }
  if 1024 ≤ (svcQ s k).length then s
  else setSvcQ k (svcQ s k ++ [{ gid := 0, seq := 0, lane := 0, outside := some x }]) s

/-- The link by which a message from a peer comes in: the one that this device would take to it (DESIGN CHOICE; log 10). -/
def comesBy (s : State) (dev : Nat) : Option Nat := (peerDev s dev).map fun p => linkFor s p 0

/-- An active message from a peer arrives at the device: it counts toward no launch here (R26). -/
def busMessage (dev dom clu hid : Nat) (words : List Word) (rel : Bool) (s : State) : State :=
  let m : Msg := { dom := dom, dev := s.dev.num.toNat, clu := clu, hid := hid, payload := words.take 8, via := comesBy s dev,
                   addr := some (natOfBytes (bytesOfWords (words.drop 8))), acq := if rel then 5 else 0 }
  { s with am := { s.am with msgs := s.am.msgs ++ [m] } }

/-- Perform an access that arrives from a peer: at the home slice, with the bytes of a load sent back; by the owning service
group; or as a message on its way to its cluster. -/
def busAccess (dev : Nat) (acc : BusAccess) (wide : Bool) (pa : Nat) (data : List Byte) (s : State) : State :=
  match acc with
  | .load n => busReply dev pa (busReads s pa n) s
  | .store => busWrites pa data s
  | .atomic op => busAtomic dev op wide pa data s
  | .tredAdd => busWrites pa (bytesOfNat 8 (natOfBytes (busReads s pa 8) + natOfBytes data)) s
  | .message dom clu hid words rel => busMessage dev dom clu hid words rel s

/-- REMOTE_ACCESS (R274): an access from a peer arrives over a link and is performed at system scope. -/
def execRemoteAccess (acc : PeerAccess) (wide : Bool) (pa : Nat) (data : List Byte) (s : State) :
    Host.Outcome State Fault Refusal :=
  if pa + busLen acc.kind wide data ≤ deviceBytes then
    .next (if devReady s then busAccess acc.dev acc.kind wide pa data s else s)
  else .fault (.noSuchPhysicalAddress pa)

/-- HOST_MEMORY_ACCESS (R294): the host reads or writes device memory through a window. -/
def execHostMemoryAccess (write : Bool) (pa : Nat) (data : List Byte) (s : State) : Host.Outcome State Fault Refusal :=
  if pa + data.length ≤ deviceBytes then .next (if write then noteRewrite pa data.length (hostWrites pa data s) else s)
  else .fault (.noSuchPhysicalAddress pa)

/-! ## Migration and unmapping (R293, R116) -/

/-- A session on a part whose event set is given: totals and sketches whose ids it lacks are frozen. -/
def migrateProfile (present : List Nat) (p : Profile) : Profile :=
  let absent := (p.events.zip p.absent).map fun e => e.2 || !present.contains e.1
  let pc := p.pcAbsent || (p.pcEvent != 0 && !present.contains p.pcEvent)
  let ker := p.kerAbsent || (p.kerEvent != 0 && !present.contains p.kerEvent)
  { p with absent := absent, pcAbsent := pc, kerAbsent := ker,
           changed := p.changed || absent != p.absent || pc != p.pcAbsent || ker != p.kerAbsent }

/-- Whether a migration has made an id of a session ABSENT. -/
def moreAbsent (p q : Profile) : Bool := p.absent != q.absent || p.pcAbsent != q.pcAbsent || p.kerAbsent != q.kerAbsent

/-- CONTEXT_MIGRATION (R293): EVENTSET_CHANGED is posted when an id of the session becomes ABSENT. -/
def execContextMigration (dom : Nat) (present : List Nat) (s : State) : Host.Outcome State Fault Refusal :=
  match (getDom s dom).profile with
  | none => .next s
  | some p =>
    let q := migrateProfile present p
    let s := modDom s dom fun d => { d with profile := some q }
    .next (if moreAbsent p q then postEvent dom 0 0x09 0 s else s)

/-- PAGE_UNMAP (R116): a core writes a page back to its address and gives the SRAM back to its L1. -/
def execPageUnmap (core page : Nat) (s : State) : Host.Outcome State Fault Refusal :=
  match (getCore s core).sram.find? fun p => p.pa == page with
  | none => .next s
  | some p =>
    let s := modCore s core fun c => { c with sram := c.sram.filter fun q => q.pa != page }
    .next { s with mem := memPaste s.mem page 65536 p.bytes }

/-! ## Patrol, prefetches and bank switches (R123, R218, R214) -/

/-- The contexts that own a line: of a line in its slice the recorded owner, else the lowest context of each domain whose ranges
hold it (DESIGN CHOICE: the manual names the domains, and a reset begins at a context; log 17). -/
def lineOwners (s : State) (line : Nat) : List Nat :=
  match (getSlice s (sliceOf line)).lines.find? fun e => e.2.pa == line with
  | some (_, l) => [l.owner]
  | none =>
    (List.range 64).filterMap fun d =>
      if (getDom s d).ranges.any fun r => decide (r.1 ≤ line) && decide (line < r.1 + r.2) then
        (s.ctxs.find? fun e => e.2.dom == d).map fun e => e.1
      else none

/-- ECC_PATROL (R123): an uncorrectable error is posted and resets the domains that own the line; one that no domain owns is
posted alone. A single-bit error is counted, and corrected data written back. -/
def execEccPatrol (line : Nat) (s : State) : Host.Outcome State Fault Refusal :=
  if s.ecc.contains line then
    let os := lineOwners s line
    .next (if os.isEmpty then postAll 0x0B line s else os.foldl (eccAlone line) s)
  else if s.soft.contains line then .next (deviceAdd 0x0003 1 { s with soft := s.soft.filter fun l => l != line })
  else .next s

/-- PREFETCH_LAND (R218). -/
def execPrefetchLand (core slot : Nat) (s : State) : Host.Outcome State Fault Refusal :=
  match kvGet (getCore s core).pfSlots slot with
  | none => .next s
  | some p => .next (landPrefetch core slot p s)

/-- SLICE_BANK_SWITCH (R214): a slice loads the bank of an owner that has accessed it. -/
def execSliceBankSwitch (slice owner : Nat) (s : State) : Host.Outcome State Fault Refusal :=
  if (getSlice s slice).wanted.contains owner then
    let s := modSlice slice (fun x => { x with wanted := x.wanted.filter fun o => o != owner }) s
    .next (if kvHas s.ctxs owner then residentSliceBank slice owner s else s)
  else .next s

/-! ## Trace samples (R288) -/

/-- The next resident group of a domain on a core, in slot order from a slot on, round robin. -/
def nextSampled (s : State) (core dom from_ : Nat) : Option Nat :=
  let gs := (s.groups.filter fun e => coreOfGid e.1 == core && e.2.place.dom == dom).map fun e => e.1
  match gs.find? fun g => decide (from_ ≤ slotOfGid g) with
  | some g => some g
  | none => gs.head?

/-- The PC that a sample of a group gives. -/
def samplePc (g : Group) : Word := lowestPc g (if eligible g = 0 then liveMask g else eligible g)

/-- TRACE_SAMPLE (R288): a core whose period is over samples its next group. -/
def execTraceSample (core dom : Nat) (s : State) : Host.Outcome State Fault Refusal :=
  match (getDom s dom).trace, kvGet (getCore s core).samples dom with
  | some t, some (due, from_) =>
    if s.dev.clock < due then .next s
    else
      let due := due + t.period
      match nextSampled s core dom from_ with
      | none => .next (modCore s core fun c => { c with samples := kvSet c.samples dom (due, from_) })
      | some gid =>
        let s := modCore s core fun c => { c with samples := kvSet c.samples dom (due, slotOfGid gid + 1) }
        .next (traceRecord gid 1 2 0 (samplePc (getGroup s gid)) s)
  | _, _ => .next s

end Sys2Proof.Machine
end

