-- ==== Sys2Proof/Machine/Network.lean ====
section
/-! DEFINITION. The network: urgent packets (R268), the power of routers (R270), merging on network C (R272), and the
Traverse links (R275), as events. -/

namespace Sys2Proof.Machine

open Sys2Proof

/-- PACKET_URGENT (R268): a packet whose header has waited AGE network cycles at the head of a FIFO becomes urgent. -/
def execPacketUrgent (i : Nat) (s : State) : Host.Outcome State Fault Refusal :=
  match s.net.packets[i]? with
  | none => .next s
  | some p =>
    if isAged s.net (netClock s) p then
      .next { s with net := { s.net with packets := s.net.packets.set i { p with urgent := true } } }
    else .next s

/-- Change one of the 40 routers. -/
def modRouter (r : Nat) (f : Router → Router) (s : State) : State :=
  if r < 40 then { s with net := netRouter r f s.net } else s

/-- Whether a router has flits at an input, or an endpoint on it has some to inject. -/
def routerBusy (s : State) (r : Nat) : Bool :=
  s.net.chans.any fun e => keyRouter e.1 == r && !(e.2.fifo.isEmpty && e.2.source.isEmpty)

/-- ROUTER_POWER_DOWN (R270): after 128 idle network cycles a power-down begins. -/
def execRouterPowerDown (r : Nat) (s : State) : Host.Outcome State Fault Refusal :=
  .next (if routerBusy s r then s else modRouter r (beginPowerDown (netClock s)) s)

/-- ROUTER_POWER_DOWN_COMMIT (R270): a power-down that nothing has aborted turns the router off in its fourth cycle. -/
def execRouterPowerDownCommit (r : Nat) (s : State) : Host.Outcome State Fault Refusal :=
  .next (if routerBusy s r then s else modRouter r (commitPowerDown (netClock s)) s)

/-- ROUTER_WAKE (R270): a look-ahead wake or an injection aborts a power-down, or starts a wake. -/
def execRouterWake (r : Nat) (s : State) : Host.Outcome State Fault Refusal := .next (modRouter r (wakeRouter (netClock s)) s)

/-- ROUTER_WAKE_END (R270): 20 network cycles after it began. -/
def execRouterWakeEnd (r : Nat) (s : State) : Host.Outcome State Fault Refusal := .next (modRouter r (endWake (netClock s)) s)

/-- Two packets of one reduction as one (R272). -/
def mergePackets (a b : Packet) : Packet :=
  { a with elems := combineElems a.op a.elems b.elems, count := a.count + b.count, flags := a.flags ||| b.flags,
           who := a.who ++ b.who, urgent := a.urgent || b.urgent }

/-- The output for which a packet waits: the one that the header, at the input of a router, wants. -/
def waitsFor (n : Net) (p : Packet) : Option Nat :=
  (n.chans.find? fun e => e.2.fifo.contains { pkt := p.id, idx := 0 }).map fun e => keyAt e.1 (outPort (keyRouter e.1) p.dst)

/-- Whether two packets may merge: they have one combine tag and operation, and wait in one router for one output. -/
def mayMerge (n : Net) (a b : Packet) : Bool :=
  a.tag.isSome && a.tag == b.tag && a.op == b.op && a.net == b.net && a.dst == b.dst
    && (waitsFor n a).isSome && waitsFor n a == waitsFor n b

/-- C_PACKET_MERGE (R272): the second packet goes into the first, and its flits with it. -/
def execCPacketMerge (i j : Nat) (s : State) : Host.Outcome State Fault Refusal :=
  match s.net.packets[i]?, s.net.packets[j]? with
  | some a, some b =>
    if a.id ≠ b.id ∧ mayMerge s.net a b = true then
      .next { s with net := dropPackets (fun p => p.id == b.id) (modPacket a.id (fun a => mergePackets a b) s.net) }
    else .next s
  | _, _ => .next s

/-- Whether a peer slot loses its last link. -/
def losesLast (s : State) (k : Nat) (p : Peer) : Bool :=
  p.links.getLsbD k && p.links &&& s.net.links != 0 && p.links &&& s.net.links &&& ~~~(BitVec.ofNat 16 (2 ^ k)) == 0

/-- The operations of a group that are outstanding have lost a peer. -/
def loseOps (slot : Nat) (g : Group) : Group :=
  { g with ops := g.ops.map fun o => if o.done then o else { o with lost := slot :: o.lost } }

/-- The last link to a peer has fallen (R275): what is outstanding and bound for it fails, messages to it complete with an error,
and those that no operation waits for are discarded. -/
def losePeer (s : State) (p : Peer) : State :=
  let mine (m : Msg) : Bool := m.dev == p.dev.toNat && m.dev != s.dev.num.toNat
  let ms := s.am.msgs.filter mine
  let s := { s with
    groups := kvMap s.groups fun _ g => loseOps p.slot g,
    saved := kvMap s.saved fun _ x => { x with groups := x.groups.map (loseOps p.slot) },
    am := { s.am with msgs := s.am.msgs.filter fun m => !mine m } }
  ms.foldl (fun s m => msgOver m (some (lostMsg m)) s) s

/-- LINK_DOWN (R275): a link goes down; when it was the last of a slot's mask, the peer is lost and the host is told. -/
def execLinkDown (k : Nat) (s : State) : Host.Outcome State Fault Refusal :=
  let gone := (s.net.peers.map fun e => e.2).filter fun p => losesLast s k p
  let t := { s with net := { s.net with links := s.net.links &&& ~~~(BitVec.ofNat 16 (2 ^ k)) } }
  let t := gone.foldl losePeer t
  .next (if gone.isEmpty then t else postAll 0x08 k t)

/-- LINK_UP (R275). -/
def execLinkUp (k : Nat) (s : State) : Host.Outcome State Fault Refusal :=
  .next { s with net := { s.net with links := s.net.links ||| BitVec.ofNat 16 (2 ^ k % 2 ^ 16) } }

end Sys2Proof.Machine
end

