-- ==== Sys2Proof/Machine/Predicates.lean ====
section
/-! DEFINITION. Predicates, the guard selection, and moves between register sets (R310, R332, R338, R354, R357, R358,
R360, R368). -/

namespace Sys2Proof.Machine

open Sys2Proof

/-- ICMP, lane form (R338). -/
def execIcmpLane (g : Bool) (c : ICond) (p : PReg) (a b : VReg) (s : State) : Host.Outcome State Fault Refusal :=
  laneOp g { vr := [a.toNat, b.toNat] }
    (fun e l => { preds := [(p.toNat, icond c (laneVal e l a.toNat) (laneVal e l b.toNat))] }) s

/-- ICMP, uniform form (R338). -/
def execIcmpUniform (c : ICond) (p : GPReg) (a b : GReg) (s : State) : Host.Outcome State Fault Refusal :=
  uniOp { gr := [a.toNat, b.toNat] } (fun g => { gps := [(p.toNat, icond c (getU g a.toNat) (getU g b.toNat))] }) s

/-- The PAND group, lane form (R357). -/
def lanePred (f : PFun) (g : Bool) (p a b : PReg) (s : State) : Host.Outcome State Fault Refusal :=
  laneOp g {} (fun e l =>
    let x := getFibre e.grp l
    { preds := [(p.toNat, pfun f (getPred x a.toNat) (getPred x b.toNat))] }) s

/-- The PAND group, uniform form (R357). -/
def uniPred (f : PFun) (p a b : GPReg) (s : State) : Host.Outcome State Fault Refusal :=
  uniOp {} (fun g => { gps := [(p.toNat, pfun f (getGp g a.toNat) (getGp g b.toNat))] }) s

/-- PAND, lane form (R357). -/
def execPandLane (g : Bool) (p a b : PReg) (s : State) : Host.Outcome State Fault Refusal := lanePred .and g p a b s
/-- POR, lane form (R357). -/
def execPorLane (g : Bool) (p a b : PReg) (s : State) : Host.Outcome State Fault Refusal := lanePred .or g p a b s
/-- PXOR, lane form (R357). -/
def execPxorLane (g : Bool) (p a b : PReg) (s : State) : Host.Outcome State Fault Refusal := lanePred .xor g p a b s
/-- PANDN, lane form (R357). -/
def execPandnLane (g : Bool) (p a b : PReg) (s : State) : Host.Outcome State Fault Refusal := lanePred .andn g p a b s
/-- PORN, lane form (R357). -/
def execPornLane (g : Bool) (p a b : PReg) (s : State) : Host.Outcome State Fault Refusal := lanePred .orn g p a b s
/-- PAND, uniform form (R357). -/
def execPandUniform (p a b : GPReg) (s : State) : Host.Outcome State Fault Refusal := uniPred .and p a b s
/-- POR, uniform form (R357). -/
def execPorUniform (p a b : GPReg) (s : State) : Host.Outcome State Fault Refusal := uniPred .or p a b s
/-- PXOR, uniform form (R357). -/
def execPxorUniform (p a b : GPReg) (s : State) : Host.Outcome State Fault Refusal := uniPred .xor p a b s
/-- PANDN, uniform form (R357). -/
def execPandnUniform (p a b : GPReg) (s : State) : Host.Outcome State Fault Refusal := uniPred .andn p a b s
/-- PORN, uniform form (R357). -/
def execPornUniform (p a b : GPReg) (s : State) : Host.Outcome State Fault Refusal := uniPred .orn p a b s

/-- GSEL: the guard selection of each acting lane (R73, R332). -/
def execGsel (g : Bool) (p : PReg) (neg : Bool) (s : State) : Host.Outcome State Fault Refusal :=
  laneOp g {} (fun _ _ => { guard := some (p, neg) }) s

/-- SEL: each lane of the path takes a or b by its own guard (R368). -/
def execSel (d a b : VReg) (s : State) : Host.Outcome State Fault Refusal :=
  laneOp false { vr := [a.toNat, b.toNat], vw := [d.toNat] } (fun e l =>
    { regs := [(d.toNat, if admits (getFibre e.grp l) then laneVal e l a.toNat else laneVal e l b.toNat)] }) s

/-- The 32 predicates of a quarter as a word; p0 reads as 1 (R360). -/
def packPreds (f : Fibre) (q : Nat) : Word :=
  BitVec.ofNat 32 ((List.range 32).foldl (fun v i => v + (if getPred f (32 * q + i) then 2 ^ i else 0)) 0)

/-- PPACK (R360). -/
def execPpack (g : Bool) (d : VReg) (q : BitVec 2) (s : State) : Host.Outcome State Fault Refusal :=
  laneOp g { vw := [d.toNat] } (fun e l => { regs := [(d.toNat, packPreds (getFibre e.grp l) q.toNat)] }) s

/-- PUNPACK; the bit meant for p0 is discarded (R360). -/
def execPunpack (g : Bool) (a : VReg) (q : BitVec 2) (s : State) : Host.Outcome State Fault Refusal :=
  laneOp g { vr := [a.toNat] } (fun e l =>
    { preds := (List.range 32).map fun i => (32 * q.toNat + i, (laneVal e l a.toNat).getLsbD i) }) s

/-- MOVX (R354). -/
def execMovx (d a : GReg10) (s : State) : Host.Outcome State Fault Refusal :=
  uniAlu d.toNat [a.toNat] (un fun x => x) s

/-- BCAST: a uniform register into a lane register of every lane of the path (R310). -/
def execBcast (d : VReg) (a : GReg) (s : State) : Host.Outcome State Fault Refusal :=
  runPre (regPre false s.cur.mask { vw := [d.toNat], gr := [a.toNat] } s) (fun s =>
    let g := curGroup s
    advance 4 (noteIssue 1 (setCurGroup s
      (modLanes g s.cur.mask fun _ f => setReg f d.toNat (getU g a.toNat))))) s

/-- PICK: the value of a lane register in one slot, which need not belong to the path; an empty slot gives 0 (R358). -/
def execPick (d : GReg) (a : VReg) (lane : BitVec 6) (s : State) : Host.Outcome State Fault Refusal :=
  let there := kvHas (curGroup s).fibres lane.toNat
  runPre (regPre false (if there then oneLane lane.toNat else 0) { vr := [a.toNat], gw := [d.toNat] } s) (fun s =>
    let g := curGroup s
    let v := if there then getReg (getFibre g lane.toNat) a.toNat else 0
    advance 4 (noteIssue 1 (setCurGroup s (setU g d.toNat v)))) s

end Sys2Proof.Machine
end

