-- ==== Sys2Proof/Machine/UniInt.lean ====
section
/-! DEFINITION. The uniform integer instructions (rows 1 to 52, R306 to R371). -/

namespace Sys2Proof.Machine

open Sys2Proof

/-- IADD, uniform form (R336). -/
def execIaddUniform (f : Sat) (d a : GReg) (b : GReg6) (s : State) :
    Host.Outcome State Fault Refusal :=
  uniAlu d.toNat [a.toNat, b.toNat] (bin (addSub false f)) s

/-- ISUB, uniform form (R336). -/
def execIsubUniform (f : Sat) (d a : GReg) (b : GReg6) (s : State) :
    Host.Outcome State Fault Refusal :=
  uniAlu d.toNat [a.toNat, b.toNat] (bin (addSub true f)) s

/-- IADDI, uniform form (R337). -/
def execIaddiUniform (d a : GReg) (imm : BitVec 9) (s : State) :
    Host.Outcome State Fault Refusal :=
  uniAlu d.toNat [a.toNat] (un fun x => x + imm.signExtend 32) s

/-- IMUL, uniform form (R342). -/
def execImulUniform (f : MulPart) (d a : GReg) (b : GReg6) (s : State) :
    Host.Outcome State Fault Refusal :=
  uniAlu d.toNat [a.toNat, b.toNat] (bin (mulPart f)) s

/-- IMAD, uniform form (R340). -/
def execImadUniform (d a b : GReg) (s : State) :
    Host.Outcome State Fault Refusal :=
  uniAlu d.toNat [d.toNat, a.toNat, b.toNat] (ter fun x y z => y * z + x) s

/-- IMIN, uniform form (R341). -/
def execIminUniform (nat : Bool) (d a b : GReg) (s : State) :
    Host.Outcome State Fault Refusal :=
  uniAlu d.toNat [a.toNat, b.toNat] (bin (minMax false nat)) s

/-- IMAX, uniform form (R341). -/
def execImaxUniform (nat : Bool) (d a b : GReg) (s : State) :
    Host.Outcome State Fault Refusal :=
  uniAlu d.toNat [a.toNat, b.toNat] (bin (minMax true nat)) s

/-- AND, uniform form (R306). -/
def execAndUniform (d a : GReg) (b : GReg6) (s : State) :
    Host.Outcome State Fault Refusal :=
  uniAlu d.toNat [a.toNat, b.toNat] (bin fun x y => x &&& y) s

/-- OR, uniform form (R306). -/
def execOrUniform (d a : GReg) (b : GReg6) (s : State) :
    Host.Outcome State Fault Refusal :=
  uniAlu d.toNat [a.toNat, b.toNat] (bin fun x y => x ||| y) s

/-- XOR, uniform form (R306). -/
def execXorUniform (d a : GReg) (b : GReg6) (s : State) :
    Host.Outcome State Fault Refusal :=
  uniAlu d.toNat [a.toNat, b.toNat] (bin fun x y => x ^^^ y) s

/-- ANDN, uniform form (R306). -/
def execAndnUniform (d a : GReg) (b : GReg6) (s : State) :
    Host.Outcome State Fault Refusal :=
  uniAlu d.toNat [a.toNat, b.toNat] (bin fun x y => x &&& ~~~y) s

/-- SHL, uniform form (R371). -/
def execShlUniform (d a : GReg) (b : GReg6) (s : State) :
    Host.Outcome State Fault Refusal :=
  uniAlu d.toNat [a.toNat, b.toNat] (bin shlFun) s

/-- SHR.n, uniform form (R371). -/
def execShrNUniform (d a : GReg) (b : GReg6) (s : State) :
    Host.Outcome State Fault Refusal :=
  uniAlu d.toNat [a.toNat, b.toNat] (bin shrNFun) s

/-- SHR.s, uniform form (R371). -/
def execShrSUniform (d a : GReg) (b : GReg6) (s : State) :
    Host.Outcome State Fault Refusal :=
  uniAlu d.toNat [a.toNat, b.toNat] (bin shrSFun) s

/-- ROT, uniform form (R371). -/
def execRotUniform (d a : GReg) (b : GReg6) (s : State) :
    Host.Outcome State Fault Refusal :=
  uniAlu d.toNat [a.toNat, b.toNat] (bin rotFun) s

/-- POPC, uniform form (R359). -/
def execPopcUniform (d a : GReg) (s : State) :
    Host.Outcome State Fault Refusal :=
  uniAlu d.toNat [a.toNat] (un popcount) s

/-- CLZ, uniform form (R317). -/
def execClzUniform (d a : GReg) (s : State) :
    Host.Outcome State Fault Refusal :=
  uniAlu d.toNat [a.toNat] (un leadingZeros) s

/-- BREV, uniform form (R313). -/
def execBrevUniform (d a : GReg) (s : State) :
    Host.Outcome State Fault Refusal :=
  uniAlu d.toNat [a.toNat] (un reverseBits) s

/-- IABS, uniform form (R335). -/
def execIabsUniform (d a : GReg) (s : State) :
    Host.Outcome State Fault Refusal :=
  uniAlu d.toNat [a.toNat] (un absFun) s

/-- INEG, uniform form (R335). -/
def execInegUniform (d a : GReg) (s : State) :
    Host.Outcome State Fault Refusal :=
  uniAlu d.toNat [a.toNat] (un fun x => 0 - x) s

/-- BFX, uniform form (R311). -/
def execBfxUniform (d a b : GReg) (s : State) :
    Host.Outcome State Fault Refusal :=
  uniAlu d.toNat [a.toNat, b.toNat] (bin fun x k => bfxFun x (bfControl k)) s

/-- BFXS, uniform form (R311). -/
def execBfxsUniform (d a b : GReg) (s : State) :
    Host.Outcome State Fault Refusal :=
  uniAlu d.toNat [a.toNat, b.toNat] (bin fun x k => bfxsFun x (bfControl k)) s

/-- BFI, uniform form (R311). -/
def execBfiUniform (d a b : GReg) (s : State) :
    Host.Outcome State Fault Refusal :=
  uniAlu d.toNat [d.toNat, a.toNat, b.toNat] (ter fun x y k => bfiFun x y (bfControl k)) s

/-- LEA, uniform form (R348). -/
def execLeaUniform (d a : GReg) (b : GReg6) (sh : BitVec 3) (s : State) :
    Host.Outcome State Fault Refusal :=
  uniAlu d.toNat [a.toNat, b.toNat] (bin fun x y => leaFun x y sh) s

/-- MOVK, uniform form (R353). -/
def execMovkUniform (d : GReg) (imm : BitVec 16) (s : State) :
    Host.Outcome State Fault Refusal :=
  uniAlu d.toNat [] (fun _ => imm.zeroExtend 32) s

/-- MOVK.hi, uniform form (R353). -/
def execMovkHiUniform (d : GReg) (imm : BitVec 16) (s : State) :
    Host.Outcome State Fault Refusal :=
  uniAlu d.toNat [d.toNat] (un fun x => movkHi x imm) s

end Sys2Proof.Machine
end

