-- ==== Sys2Proof/Machine/Dispatch.lean ====
section
/-! DEFINITION. Dispatch: each instruction and event to its meaning. -/

namespace Sys2Proof.Machine

open Sys2Proof

/-- The effect of an instruction of the issuing path, or of an event. -/
def exec (i : Instr) (s : State) : Host.Outcome State Fault Refusal :=
  match i with
  | .iaddLane g fn d a b => Sys2Proof.Machine.execIaddLane g fn d a b s
  | .iaddUniform fn d a b => Sys2Proof.Machine.execIaddUniform fn d a b s
  | .isubLane g fn d a b => Sys2Proof.Machine.execIsubLane g fn d a b s
  | .isubUniform fn d a b => Sys2Proof.Machine.execIsubUniform fn d a b s
  | .iaddiLane g d a imm => Sys2Proof.Machine.execIaddiLane g d a imm s
  | .iaddiUniform d a imm => Sys2Proof.Machine.execIaddiUniform d a imm s
  | .imulLane g fn d a b => Sys2Proof.Machine.execImulLane g fn d a b s
  | .imulUniform fn d a b => Sys2Proof.Machine.execImulUniform fn d a b s
  | .imadLane g d a b => Sys2Proof.Machine.execImadLane g d a b s
  | .imadUniform d a b => Sys2Proof.Machine.execImadUniform d a b s
  | .iminLane g nat d a b => Sys2Proof.Machine.execIminLane g nat d a b s
  | .iminUniform nat d a b => Sys2Proof.Machine.execIminUniform nat d a b s
  | .imaxLane g nat d a b => Sys2Proof.Machine.execImaxLane g nat d a b s
  | .imaxUniform nat d a b => Sys2Proof.Machine.execImaxUniform nat d a b s
  | .andLane g d a b => Sys2Proof.Machine.execAndLane g d a b s
  | .orLane g d a b => Sys2Proof.Machine.execOrLane g d a b s
  | .xorLane g d a b => Sys2Proof.Machine.execXorLane g d a b s
  | .andnLane g d a b => Sys2Proof.Machine.execAndnLane g d a b s
  | .andUniform d a b => Sys2Proof.Machine.execAndUniform d a b s
  | .orUniform d a b => Sys2Proof.Machine.execOrUniform d a b s
  | .xorUniform d a b => Sys2Proof.Machine.execXorUniform d a b s
  | .andnUniform d a b => Sys2Proof.Machine.execAndnUniform d a b s
  | .shlLane g d a b => Sys2Proof.Machine.execShlLane g d a b s
  | .shrNLane g d a b => Sys2Proof.Machine.execShrNLane g d a b s
  | .shrSLane g d a b => Sys2Proof.Machine.execShrSLane g d a b s
  | .rotLane g d a b => Sys2Proof.Machine.execRotLane g d a b s
  | .shlUniform d a b => Sys2Proof.Machine.execShlUniform d a b s
  | .shrNUniform d a b => Sys2Proof.Machine.execShrNUniform d a b s
  | .shrSUniform d a b => Sys2Proof.Machine.execShrSUniform d a b s
  | .rotUniform d a b => Sys2Proof.Machine.execRotUniform d a b s
  | .popcLane g d a => Sys2Proof.Machine.execPopcLane g d a s
  | .clzLane g d a => Sys2Proof.Machine.execClzLane g d a s
  | .brevLane g d a => Sys2Proof.Machine.execBrevLane g d a s
  | .iabsLane g d a => Sys2Proof.Machine.execIabsLane g d a s
  | .inegLane g d a => Sys2Proof.Machine.execInegLane g d a s
  | .popcUniform d a => Sys2Proof.Machine.execPopcUniform d a s
  | .clzUniform d a => Sys2Proof.Machine.execClzUniform d a s
  | .brevUniform d a => Sys2Proof.Machine.execBrevUniform d a s
  | .iabsUniform d a => Sys2Proof.Machine.execIabsUniform d a s
  | .inegUniform d a => Sys2Proof.Machine.execInegUniform d a s
  | .bfxLane g d a len pos => Sys2Proof.Machine.execBfxLane g d a len pos s
  | .bfxsLane g d a len pos => Sys2Proof.Machine.execBfxsLane g d a len pos s
  | .bfiLane g d a b => Sys2Proof.Machine.execBfiLane g d a b s
  | .bfxUniform d a b => Sys2Proof.Machine.execBfxUniform d a b s
  | .bfxsUniform d a b => Sys2Proof.Machine.execBfxsUniform d a b s
  | .bfiUniform d a b => Sys2Proof.Machine.execBfiUniform d a b s
  | .leaLane g d a b sh => Sys2Proof.Machine.execLeaLane g d a b sh s
  | .leaUniform d a b sh => Sys2Proof.Machine.execLeaUniform d a b sh s
  | .movkLane g d imm => Sys2Proof.Machine.execMovkLane g d imm s
  | .movkHiLane g d imm => Sys2Proof.Machine.execMovkHiLane g d imm s
  | .movkUniform d imm => Sys2Proof.Machine.execMovkUniform d imm s
  | .movkHiUniform d imm => Sys2Proof.Machine.execMovkHiUniform d imm s
  | .fadd g t d a b => Sys2Proof.Machine.execFadd g t d a b s
  | .fsub g t d a b => Sys2Proof.Machine.execFsub g t d a b s
  | .fmul g t d a b => Sys2Proof.Machine.execFmul g t d a b s
  | .fma g t d a b => Sys2Proof.Machine.execFma g t d a b s
  | .fmin g t d a b => Sys2Proof.Machine.execFmin g t d a b s
  | .fmax g t d a b => Sys2Proof.Machine.execFmax g t d a b s
  | .fabs g d a => Sys2Proof.Machine.execFabs g d a s
  | .fneg g d a => Sys2Proof.Machine.execFneg g d a s
  | .frndRn g d a => Sys2Proof.Machine.execFrndRn g d a s
  | .frndRz g d a => Sys2Proof.Machine.execFrndRz g d a s
  | .frndDn g d a => Sys2Proof.Machine.execFrndDn g d a s
  | .frndUp g d a => Sys2Proof.Machine.execFrndUp g d a s
  | .frcp g d a => Sys2Proof.Machine.execFrcp g d a s
  | .frsq g d a => Sys2Proof.Machine.execFrsq g d a s
  | .fsqrt g d a => Sys2Proof.Machine.execFsqrt g d a s
  | .fexp2 g d a => Sys2Proof.Machine.execFexp2 g d a s
  | .flog2 g d a => Sys2Proof.Machine.execFlog2 g d a s
  | .cvt g d a src dst rm => Sys2Proof.Machine.execCvt g d a src dst rm s
  | .cvtsE4m3Pack g d a b bsel => Sys2Proof.Machine.execCvtsE4m3Pack g d a b bsel s
  | .cvtsE4m3Unpack g d a b bsel => Sys2Proof.Machine.execCvtsE4m3Unpack g d a b bsel s
  | .cvtsE5m2Pack g d a b bsel => Sys2Proof.Machine.execCvtsE5m2Pack g d a b bsel s
  | .cvtsE5m2Unpack g d a b bsel => Sys2Proof.Machine.execCvtsE5m2Unpack g d a b bsel s
  | .cvtsE2m1Pack g d a b bsel => Sys2Proof.Machine.execCvtsE2m1Pack g d a b bsel s
  | .cvtsE2m1Unpack g d a b bsel => Sys2Proof.Machine.execCvtsE2m1Unpack g d a b bsel s
  | .icmpLane g c p a b => Sys2Proof.Machine.execIcmpLane g c p a b s
  | .icmpUniform c p a b => Sys2Proof.Machine.execIcmpUniform c p a b s
  | .fcmp g c p a b => Sys2Proof.Machine.execFcmp g c p a b s
  | .pandLane g p a b => Sys2Proof.Machine.execPandLane g p a b s
  | .porLane g p a b => Sys2Proof.Machine.execPorLane g p a b s
  | .pxorLane g p a b => Sys2Proof.Machine.execPxorLane g p a b s
  | .pandnLane g p a b => Sys2Proof.Machine.execPandnLane g p a b s
  | .pornLane g p a b => Sys2Proof.Machine.execPornLane g p a b s
  | .pandUniform p a b => Sys2Proof.Machine.execPandUniform p a b s
  | .porUniform p a b => Sys2Proof.Machine.execPorUniform p a b s
  | .pxorUniform p a b => Sys2Proof.Machine.execPxorUniform p a b s
  | .pandnUniform p a b => Sys2Proof.Machine.execPandnUniform p a b s
  | .pornUniform p a b => Sys2Proof.Machine.execPornUniform p a b s
  | .gsel g p neg => Sys2Proof.Machine.execGsel g p neg s
  | .sel d a b => Sys2Proof.Machine.execSel d a b s
  | .ppack g d q => Sys2Proof.Machine.execPpack g d q s
  | .punpack g a q => Sys2Proof.Machine.execPunpack g a q s
  | .shfl g fn d a b => Sys2Proof.Machine.execShfl g fn d a b s
  | .vscan g fn d a => Sys2Proof.Machine.execVscan g fn d a s
  | .vbal g d p => Sys2Proof.Machine.execVbal g d p s
  | .vred g fn d a => Sys2Proof.Machine.execVred g fn d a s
  | .ldLane g sz o sc d base off => Sys2Proof.Machine.execLdLane g sz o sc d base off s
  | .ldUniform o sc d base off => Sys2Proof.Machine.execLdUniform o sc d base off s
  | .stLane g sz o sc d base off => Sys2Proof.Machine.execStLane g sz o sc d base off s
  | .stUniform o sc d base off => Sys2Proof.Machine.execStUniform o sc d base off s
  | .ldq g sc q base off => Sys2Proof.Machine.execLdq g sc q base off s
  | .pref g sc base off => Sys2Proof.Machine.execPref g sc base off s
  | .braLane g p neg off => Sys2Proof.Machine.execBraLane g p neg off s
  | .braUniform p neg off => Sys2Proof.Machine.execBraUniform p neg off s
  | .jmpLane g a => Sys2Proof.Machine.execJmpLane g a s
  | .jmpUniform a => Sys2Proof.Machine.execJmpUniform a s
  | .callLane g d a => Sys2Proof.Machine.execCallLane g d a s
  | .callUniform d a => Sys2Proof.Machine.execCallUniform d a s
  | .nop g => Sys2Proof.Machine.execNop g s
  | .exit g => Sys2Proof.Machine.execExit g s
  | .yield g => Sys2Proof.Machine.execYield g s
  | .spawn g a b n => Sys2Proof.Machine.execSpawn g a b n s
  | .rjset g cv => Sys2Proof.Machine.execRjset g cv s
  | .rjwait g cv => Sys2Proof.Machine.execRjwait g cv s
  | .trap g code => Sys2Proof.Machine.execTrap g code s
  | .brk g => Sys2Proof.Machine.execBrk g s
  | .atom g op wide o sc ord d a b imm => Sys2Proof.Machine.execAtom g op wide o sc ord d a b imm s
  | .atomUniform op wide o sc ord c a b => Sys2Proof.Machine.execAtomUniform op wide o sc ord c a b s
  | .red g op wide o sc ord a b imm => Sys2Proof.Machine.execRed g op wide o sc ord a b imm s
  | .cpa g sz nb d a h => Sys2Proof.Machine.execCpa g sz nb d a h s
  | .stcmp g wide o sc ord neg a b p => Sys2Proof.Machine.execStcmp g wide o sc ord neg a b p s
  | .hld g sz d a b imm => Sys2Proof.Machine.execHld g sz d a b imm s
  | .hst g sz a b c imm => Sys2Proof.Machine.execHst g sz a b c imm s
  | .amsend g rel sys addr a b c => Sys2Proof.Machine.execAmsend g rel sys addr a b c s
  | .rtret g rel a b => Sys2Proof.Machine.execRtret g rel a b s
  | .movx d a => Sys2Proof.Machine.execMovx d a s
  | .bcast d a => Sys2Proof.Machine.execBcast d a s
  | .pick d a lane => Sys2Proof.Machine.execPick d a lane s
  | .fence o sc => Sys2Proof.Machine.execFence o sc s
  | .wait ld st cp tl => Sys2Proof.Machine.execWait ld st cp tl s
  | .tret => Sys2Proof.Machine.execTret s
  | .enter id => Sys2Proof.Machine.execEnter id s
  | .leave id => Sys2Proof.Machine.execLeave id s
  | .sread lane d n => Sys2Proof.Machine.execSread lane d n s
  | .swrite lane a n => Sys2Proof.Machine.execSwrite lane a n s
  | .binit a b => Sys2Proof.Machine.execBinit a b s
  | .barv exp d a b => Sys2Proof.Machine.execBarv exp d a b s
  | .bwait a b => Sys2Proof.Machine.execBwait a b s
  | .bexp a b => Sys2Proof.Machine.execBexp a b s
  | .binval a => Sys2Proof.Machine.execBinval a s
  | .ordrel => Sys2Proof.Machine.execOrdrel s
  | .shld cv t a => Sys2Proof.Machine.execShld cv t a s
  | .shev cv t => Sys2Proof.Machine.execShev cv t s
  | .tld cv bh t a b c => Sys2Proof.Machine.execTld cv bh t a b c s
  | .tst cv t a b c => Sys2Proof.Machine.execTst cv t a b c s
  | .mldb cv ty sc lt mask a b c => Sys2Proof.Machine.execMldb cv ty sc lt mask a b c s
  | .mma cv ty mode sc rv h t a b v => Sys2Proof.Machine.execMma cv ty mode sc rv h t a b v s
  | .topen cv auto t a => Sys2Proof.Machine.execTopen cv auto t a s
  | .tread cv ty h t a b => Sys2Proof.Machine.execTread cv ty h t a b s
  | .treadStat cv t c => Sys2Proof.Machine.execTreadStat cv t c s
  | .tred cv h t a b c => Sys2Proof.Machine.execTred cv h t a b c s
  | .attn cv ty nb a b c => Sys2Proof.Machine.execAttn cv ty nb a b c s
  | .attnMaxima cv nb a b c => Sys2Proof.Machine.execAttnMaxima cv nb a b c s
  | .attnGiven cv nb a b c => Sys2Proof.Machine.execAttnGiven cv nb a b c s
  | .attnFinish cv ty nb a b c => Sys2Proof.Machine.execAttnFinish cv ty nb a b c s
  | .kvapp cv a b c => Sys2Proof.Machine.execKvapp cv a b c s
  | .kvfork cv a b c => Sys2Proof.Machine.execKvfork cv a b c s
  | .kvdrop cv a => Sys2Proof.Machine.execKvdrop cv a s
  | .cins cv ord c v => Sys2Proof.Machine.execCins cv ord c v s
  | .cmrg cv bound c => Sys2Proof.Machine.execCmrg cv bound c s
  | .crdCent cv v a => Sys2Proof.Machine.execCrdCent cv v a s
  | .crdSum cv v a => Sys2Proof.Machine.execCrdSum cv v a s
  | .crdCnt cv c a => Sys2Proof.Machine.execCrdCnt cv c a s
  | .crdStat cv c => Sys2Proof.Machine.execCrdStat cv c s
  | .ccfg cv a => Sys2Proof.Machine.execCcfg cv a s
  | .ccfgKeep cv a => Sys2Proof.Machine.execCcfgKeep cv a s
  | .ccfgFree cv => Sys2Proof.Machine.execCcfgFree cv s
  | .ssmld cv a => Sys2Proof.Machine.execSsmld cv a s
  | .ssmscan cv t a b => Sys2Proof.Machine.execSsmscan cv t a b s
  | .ssmstep cv t a b => Sys2Proof.Machine.execSsmstep cv t a b s
  | .ssmst cv a => Sys2Proof.Machine.execSsmst cv a s
  | .ssmstFree cv a => Sys2Proof.Machine.execSsmstFree cv a s
  | .route cv bf16 pol k h nb rv t a b c v => Sys2Proof.Machine.execRoute cv bf16 pol k h nb rv t a b c v s
  | .rtbind cv a b => Sys2Proof.Machine.execRtbind cv a b s
  | .rtrd cv v c a => Sys2Proof.Machine.execRtrd cv v c a s
  | .rtrdFree cv v c a => Sys2Proof.Machine.execRtrdFree cv v c a s
  | .svrd cv c a => Sys2Proof.Machine.execSvrd cv c a s
  | .svwr cv a b => Sys2Proof.Machine.execSvwr cv a b s
  | .svclr cv a => Sys2Proof.Machine.execSvclr cv a s
  | .svsave cv slice a b => Sys2Proof.Machine.execSvsave cv slice a b s
  | .svload cv slice a b => Sys2Proof.Machine.execSvload cv slice a b s
  | .ambind cv a b => Sys2Proof.Machine.execAmbind cv a b s
  | .ambindAll cv a b => Sys2Proof.Machine.execAmbindAll cv a b s
  | .ambindInbox cv a => Sys2Proof.Machine.execAmbindInbox cv a s
  | .ambindNone cv a => Sys2Proof.Machine.execAmbindNone cv a s
  | .illegalOp => Sys2Proof.Machine.execIllegalOp s
  | .instructionFetchFault cause => Sys2Proof.Machine.execInstructionFetchFault cause s
  | .fibreAged gid => Sys2Proof.Machine.execFibreAged gid s
  | .binTimerExpiry core bin => Sys2Proof.Machine.execBinTimerExpiry core bin s
  | .binLaunch core bin => Sys2Proof.Machine.execBinLaunch core bin s
  | .overflowRedelivery owner core => Sys2Proof.Machine.execOverflowRedelivery owner core s
  | .amArrival k => Sys2Proof.Machine.execAmArrival k s
  | .peerPortTransfer gid port => Sys2Proof.Machine.execPeerPortTransfer gid port s
  | .loadCompletion gid seq lanes => Sys2Proof.Machine.execLoadCompletion gid seq lanes s
  | .storePerformed gid seq lanes => Sys2Proof.Machine.execStorePerformed gid seq lanes s
  | .ldqFill gid seq => Sys2Proof.Machine.execLdqFill gid seq s
  | .serviceGroupAtomic cluster => Sys2Proof.Machine.execServiceGroupAtomic cluster s
  | .sectorLanding team k => Sys2Proof.Machine.execSectorLanding team k s
  | .cpaLineTransfer gid seq => Sys2Proof.Machine.execCpaLineTransfer gid seq s
  | .tldComplete core cmd => Sys2Proof.Machine.execTldComplete core cmd s
  | .tstComplete core cmd => Sys2Proof.Machine.execTstComplete core cmd s
  | .mldbComplete core cmd => Sys2Proof.Machine.execMldbComplete core cmd s
  | .mmaComplete core cmd => Sys2Proof.Machine.execMmaComplete core cmd s
  | .tredComplete core cmd => Sys2Proof.Machine.execTredComplete core cmd s
  | .engineCommandComplete core cmd => Sys2Proof.Machine.execEngineCommandComplete core cmd s
  | .kvAccept => Sys2Proof.Machine.execKvAccept s
  | .attnPhase1 id => Sys2Proof.Machine.execAttnPhase1 id s
  | .attnPhase2 id => Sys2Proof.Machine.execAttnPhase2 id s
  | .attnComplete id => Sys2Proof.Machine.execAttnComplete id s
  | .routeAccept core => Sys2Proof.Machine.execRouteAccept core s
  | .routePairSend core ent => Sys2Proof.Machine.execRoutePairSend core ent s
  | .routeSpillReplay core ent => Sys2Proof.Machine.execRouteSpillReplay core ent s
  | .routeReturn k => Sys2Proof.Machine.execRouteReturn k s
  | .dropNotice k => Sys2Proof.Machine.execDropNotice k s
  | .routeTimeout core ent => Sys2Proof.Machine.execRouteTimeout core ent s
  | .orderedWindowOpen launch => Sys2Proof.Machine.execOrderedWindowOpen launch s
  | .prefetchLand core slot => Sys2Proof.Machine.execPrefetchLand core slot s
  | .sliceBankSwitch slice owner => Sys2Proof.Machine.execSliceBankSwitch slice owner s
  | .eccPatrol line => Sys2Proof.Machine.execEccPatrol line s
  | .drainEnd owner => Sys2Proof.Machine.execDrainEnd owner s
  | .drainTimeout owner => Sys2Proof.Machine.execDrainTimeout owner s
  | .coreDump owner => Sys2Proof.Machine.execCoreDump owner s
  | .domainReset dom => Sys2Proof.Machine.execDomainReset dom s
  | .watchdog owner detail => Sys2Proof.Machine.execWatchdog owner detail s
  | .groupRetire gid => Sys2Proof.Machine.execGroupRetire gid s
  | .launchEnd launch => Sys2Proof.Machine.execLaunchEnd launch s
  | .doorbell dom => Sys2Proof.Machine.execDoorbell dom s
  | .queuePull owner q => Sys2Proof.Machine.execQueuePull owner q s
  | .dependenceRecheck => Sys2Proof.Machine.execDependenceRecheck s
  | .launchBegin owner q => Sys2Proof.Machine.execLaunchBegin owner q s
  | .fenceRecordComplete owner q => Sys2Proof.Machine.execFenceRecordComplete owner q s
  | .teamPlacement team cores => Sys2Proof.Machine.execTeamPlacement team cores s
  | .starvationLimit who cluster => Sys2Proof.Machine.execStarvationLimit who cluster s
  | .secondStarvationLimit cluster victims => Sys2Proof.Machine.execSecondStarvationLimit cluster victims s
  | .timeSliceExpiry team chosen => Sys2Proof.Machine.execTimeSliceExpiry team chosen s
  | .preemption team => Sys2Proof.Machine.execPreemption team s
  | .preemptionSave team => Sys2Proof.Machine.execPreemptionSave team s
  | .resume saved cores => Sys2Proof.Machine.execResume saved cores s
  | .twinCompare launch team => Sys2Proof.Machine.execTwinCompare launch team s
  | .traceSample core dom => Sys2Proof.Machine.execTraceSample core dom s
  | .packetUrgent k => Sys2Proof.Machine.execPacketUrgent k s
  | .routerPowerDown r => Sys2Proof.Machine.execRouterPowerDown r s
  | .routerWake r => Sys2Proof.Machine.execRouterWake r s
  | .routerWakeEnd r => Sys2Proof.Machine.execRouterWakeEnd r s
  | .cPacketMerge j k => Sys2Proof.Machine.execCPacketMerge j k s
  | .linkDown k => Sys2Proof.Machine.execLinkDown k s
  | .linkUp k => Sys2Proof.Machine.execLinkUp k s
  | .createContext mgmt dom seq desc => Sys2Proof.Machine.execCreateContext mgmt dom seq desc s
  | .destroyContext mgmt dom seq owner => Sys2Proof.Machine.execDestroyContext mgmt dom seq owner s
  | .pageAbsentReply mgmt dom seq gid resolved => Sys2Proof.Machine.execPageAbsentReply mgmt dom seq gid resolved s
  | .installHandlerTable mgmt dom seq table => Sys2Proof.Machine.execInstallHandlerTable mgmt dom seq table s
  | .dumpConfiguration mgmt dom seq en base size => Sys2Proof.Machine.execDumpConfiguration mgmt dom seq en base size s
  | .acknowledgeDumpReady mgmt dom seq => Sys2Proof.Machine.execAcknowledgeDumpReady mgmt dom seq s
  | .replaySetting mgmt dom seq n => Sys2Proof.Machine.execReplaySetting mgmt dom seq n s
  | .restartQueues mgmt dom seq => Sys2Proof.Machine.execRestartQueues mgmt dom seq s
  | .traceRing mgmt dom seq base size mask period => Sys2Proof.Machine.execTraceRing mgmt dom seq base size mask period s
  | .debuggerHoldStopResume mgmt dom seq act => Sys2Proof.Machine.execDebuggerHoldStopResume mgmt dom seq act s
  | .profilingSession mgmt dom seq device events pc kernel snapshot => Sys2Proof.Machine.execProfilingSession mgmt dom seq device events pc kernel snapshot s
  | .eventRing mgmt dom seq base size => Sys2Proof.Machine.execEventRing mgmt dom seq base size s
  | .firmwarePolicy mgmt dom seq p => Sys2Proof.Machine.execFirmwarePolicy mgmt dom seq p s
  | .systemMap mgmt dom seq dev slots => Sys2Proof.Machine.execSystemMap mgmt dom seq dev slots s
  | .firmwareLoad mgmt dom seq image => Sys2Proof.Machine.execFirmwareLoad mgmt dom seq image s
  | .physicalRanges mgmt dom seq target ranges => Sys2Proof.Machine.execPhysicalRanges mgmt dom seq target ranges s
  | .deviceResetRelease => Sys2Proof.Machine.execDeviceResetRelease s
  | .memoryTraining fail => Sys2Proof.Machine.execMemoryTraining fail s
  | .powerThrottle die current temp => Sys2Proof.Machine.execPowerThrottle die current temp s
  | .registerWrite offset len value => Sys2Proof.Machine.execRegisterWrite offset len value s
  | .routerPowerDownCommit r => Sys2Proof.Machine.execRouterPowerDownCommit r s
  | .remoteAccess acc wide pa data => Sys2Proof.Machine.execRemoteAccess acc wide pa data s
  | .hostMemoryAccess write pa data => Sys2Proof.Machine.execHostMemoryAccess write pa data s
  | .powerCap steps => Sys2Proof.Machine.execPowerCap steps s
  | .contextMigration dom present => Sys2Proof.Machine.execContextMigration dom present s
  | .pageUnmap core page => Sys2Proof.Machine.execPageUnmap core page s

end Sys2Proof.Machine
end

