-- ==== Sys2Proof/Machine/Step.lean ====
section
/-! DEFINITION. One step of the machine: a turn of the schedule, one path of the cycle, or the end of a stage of the cycle
(log 1); and an instruction placed where the next step fetches. -/

namespace Sys2Proof.Machine

open Sys2Proof

/-- The path that was chosen issues: its instruction is fetched and executed (R19, R57 to R60), unless the path or its pipe
is held. -/
def issuePath (s : State) : Host.Outcome State Fault Refusal :=
  match heldLeaf s with
  | some leaf => .next (noteStall (if 6 < leaf ∧ pipeTaken s = true then 6 else leaf) s)
  | none =>
    match fetch s with
    | .instr i => if pipeFree i s then exec i (noteFetch s) else .next (losePipe i (exec i s) s)
    | .illegal => exec .illegalOp (noteFetch s)
    | .fault c => exec (.instructionFetchFault c) s

/-- The turn of the schedule that is due. -/
def takeTurn (a : Act) (s : State) : Host.Outcome State Fault Refusal :=
  match a with
  | .stall core slot port leaf => .next (waitTurn core slot port leaf (beginIssue s))
  | .event i => if i.isEvent then exec i (noteLate i s) else .next s

/-- The cycle goes on without a turn: the next path of the cycle issues, or the stage ends (R18, R33, R75). -/
def runCycle (s : State) : Host.Outcome State Fault Refusal :=
  match nextPath s with
  | some t => issuePath t
  | none => .next (endStage s)

/-- One step. -/
def step (s : State) : Host.Outcome State Fault Refusal :=
  match dueTurn s with
  | some (a, s) => takeTurn a s
  | none => runCycle (beginIssue s)

/-! ## Placing one instruction where the next step fetches -/

/-- A group of one fibre, in lane 0 at PC 0, of a launched team of one, with the largest register counts (log 12). -/
def probeGroup : Group :=
  newGroup { team := 1, launch := 1, hdr := { regs := 120, uregs := 1024 } }
    [(0, { regs := List.replicate 120 0, launch := some 1 })]

/-- The translation of code page 0 of context 0 to physical address 0. -/
def probePage : TlbEnt :=
  { owner := 0, va := 0, size := 65536, pa := 0, home := 0, hcore := 0, r := false, w := false, x := true }

/-- The machine with an instruction, its bits above `nbits` zero, as the next one that a step fetches (log 12): one group, of
one fibre, in slot 0 of core 0, the translation of its code page, the instruction's bytes there, no turn of the schedule
that is due first, and a cycle that begins. -/
def State.withFetchWord (s : State) (nbits w : Nat) : State :=
  let team : Team := { launch := 1, groups := [0], live := 1 }
  let s := { s with
    mem := memPut s.mem 0 (bytesOfNat 8 (w % 2 ^ nbits)),
    ctxs := kvSet s.ctxs 0 { desc := 65536 },
    launches := kvSet s.launches 1 { teams := 1, placed := 1 },
    teams := kvSet s.teams 1 team,
    groups := [(0, probeGroup)],
    tape := [],
    stage := .events }
  modCore s 0 fun c => { c with tlb := probePage :: c.tlb, issued := [], laneHeld := [] }

end Sys2Proof.Machine
end

