-- ==== Sys2Proof/Safety.lean ====
section
/-! DEFINITION. What a sound state is, and the words in which claims speak of a step: what the issue of an instruction
changes beside the instruction's own effect, and what it leaves alone. -/

namespace Sys2Proof

open Sys2Proof.Machine

/-- Memory is in its canonical form (log 2). -/
def MemOk (s : State) : Prop := Memory.wf s.mem = true

/-- Every byte that the machine holds is held in the canonical form (log 2): memory, the pages that cores hold in their SRAM
(R116), the local memory of every team and that of every saved team. Every step keeps it. -/
def MemSound (s : State) : Prop :=
  Memory.wf s.mem = true ∧ (∀ e ∈ s.cores, ∀ p ∈ e.2.sram, Memory.wf p.bytes = true) ∧
  (∀ e ∈ s.teams, Memory.wf e.2.mem = true) ∧ ∀ e ∈ s.saved, Memory.wf e.2.team.mem = true

/-- The path whose instruction is executed belongs to this resident group (R18, R19). -/
def OnPath (s : State) (g : Group) : Prop := kvGet s.groups (curGid s) = some g

/-- Every byte of memory and of every team's local memory reads as it did. -/
def SameBytes (s t : State) : Prop :=
  (∀ a, memByte t.mem a = memByte s.mem a) ∧
  ∀ k a, memByte (getTeam t k).mem a = memByte (getTeam s k).mem a

/-- Every group but one is as it was. -/
def OtherGroups (s t : State) (gid : Nat) : Prop := ∀ k, k ≠ gid → kvGet t.groups k = kvGet s.groups k

/-- A core after an instruction has issued on it: one more slot is charged to the leaf (R289), and the pipe has taken the
instruction in this cycle (R32); a lane instruction whose lanes lie in both halves holds its pipe for the next cycle too (R301). -/
def chargedCore (leaf : Nat) (s : State) (c : Core) : Core :=
  let sub := slotOfGid (curGid s) / 32
  { c with
    accounts := c.accounts.set leaf ((c.accounts.getD leaf 0 + 1) % 2 ^ 64), issued := (sub, leaf) :: c.issued,
    laneNext := if leaf = 0 ∧ oneHalf s.cur.mask = false then sub :: c.laneNext else c.laneNext }

/-- What the issue of an instruction does to the state beside the groups: the slot is charged to a leaf on the issuing core
(R289), and counted by the profiling sessions that name the leaf's event, in their totals and in the core's sketches (R291, R292),
the watchdog's time of the context restarts (R255), and nothing else changes. -/
structure Issued (leaf : Nat) (s t : State) : Prop where
  rest : t = { countSlot leaf s with groups := t.groups, ctxs := t.ctxs }
  bytes : SameBytes s t
  core : ∃ a b, kvGet t.cores s.cur.core =
    some { chargedCore leaf s (getCore s s.cur.core) with sketchPc := a, sketchKer := b }
  cores : ∀ c, c ≠ s.cur.core → kvGet t.cores c = kvGet s.cores c
  ctxs : ∀ o, kvGet t.ctxs o = (kvGet s.ctxs o).map fun c =>
    if o = (curGroup s).place.owner then { c with lastIssue := s.dev.clock } else c

/-- The issue state of a group one of whose paths has issued: ageing starts again (R33), nothing holds it, and the path's lanes have
issued in this cycle's vote (R71). -/
def issuedSched (s : State) (g : Group) : Sched :=
  { g.sched with
    ageing := 0, leaf := 6, issuedAt := some s.dev.clock,
    vote := g.sched.vote.map fun v => { v with ran := v.ran ||| s.cur.mask } }

/-- The trap state of a group one of whose paths has issued: where an STCMP of these lanes was to resume is used up (R154). -/
def issuedTrap (s : State) (g : Group) : TrapSt :=
  { g.trap with stcmpAt := g.trap.stcmpAt.filter fun r => !overlaps r.mask s.cur.mask }

/-- A fibre whose path has issued: its missed votes start again (R71), and it goes on `n` bytes further, unless the
instruction itself says where it goes. -/
def movedBy (n : Option Nat) (x : Fibre) : Fibre :=
  match n with
  | some n => { x with pc := x.pc + BitVec.ofNat 32 n, misses := 0, aged := false }
  | none => { x with misses := 0, aged := false }

/-- The fibres of a group afterwards, lane by lane; no lane gains or loses a fibre. -/
def FibresBecome (g g' : Group) (f : Nat → Fibre → Fibre) : Prop :=
  ∀ l, kvGet g'.fibres l = (kvGet g.fibres l).map (f l)

/-- The fibres of a group afterwards: those of the lanes of a mask are related as told to what they were, and the others
are as they were. -/
def LanesRelate (g h : Group) (m : LaneMask) (R : Nat → Fibre → Fibre → Prop) : Prop :=
  ∀ l, match kvGet g.fibres l with
    | none => kvGet h.fibres l = none
    | some x => if inMask m l then ∃ y, R l x y ∧ kvGet h.fibres l = some y else kvGet h.fibres l = some x

/-- An instruction makes the group of its path `h`, and has issued: its path goes on (R19, R33, R71, R289), every other
group is as it was, and so is everything that `Issued` names. -/
def PathStep (leaf : Nat) (n : Option Nat) (s t : State) (h : Group) : Prop :=
  Issued leaf s t ∧ OtherGroups s t (curGid s) ∧ ∃ g', kvGet t.groups (curGid s) = some g' ∧
    g' = { h with fibres := g'.fibres, sched := issuedSched s h, trap := issuedTrap s h } ∧
    FibresBecome h g' fun l x => if inMask s.cur.mask l then movedBy n x else x

/-- A path waits in this cycle (R59, R290): its group notes it, and the leaf of its first path. -/
def stalledAt (leaf : Nat) (s : State) (g : Group) : State :=
  setCurGroup s { g with sched := { g.sched with stalled := true, leaf := if s.cur.port = 0 then leaf else g.sched.leaf } }

/-- R15 and R59: the register numbers that an instruction uses are below the kernel's counts; lane registers by their
numbers, of which 120 to 127 are queue ports, and uniform registers. -/
def InCounts (g : Group) (vs us : List Nat) : Prop :=
  (∀ r ∈ vs, r < 120 → r < g.place.hdr.regs) ∧ ∀ r ∈ us, r < g.place.hdr.uregs

/-- R133: none of the registers that an instruction uses is pending, in the lanes of a mask. -/
def NotPending (g : Group) (m : LaneMask) (vs us : List Nat) : Prop :=
  (∀ l, inMask m l = true → ∀ r ∈ vs, r < 120 → (getFibre g l).pend.getLsbD r = false) ∧
  ∀ r ∈ us, g.upend.getLsbD r = false

/-- R37: the group may read each queue port among some register numbers, and its FIFO has an entry that has arrived. -/
def PortsFull (g : Group) (rs : List Nat) : Prop :=
  ∀ r ∈ rs, 120 ≤ r → portReadable (getPort g (r - 120)) = true ∧ (getPort g (r - 120)).fifo.headD [] ≠ []

/-- An operand of a lane: its register, or its word of the oldest entry of the queue port (R37, R41). -/
def operandOf (g : Group) (l r : Nat) : Word :=
  if r < 120 then getReg (getFibre g l) r else ((getPort g (r - 120)).fifo.headD []).getD l 0

/-- The ports of a group after an instruction that acts in some lane has read some operands: each port named is popped
once, however often it is named (R41). -/
def PortsPopped (g g' : Group) (rs : List Nat) (acts : Bool) : Prop :=
  ∀ p, getPort g' p = if acts && rs.contains (p + 120)
    then { getPort g p with fifo := (getPort g p).fifo.tail } else getPort g p

end Sys2Proof
end

