-- ==== Sys2Proof/Safety/Control.lean ====
section
/-! DEFINITION. The words in which claims speak of traps, branches, spawned fibres and special registers. -/

namespace Sys2Proof

open Sys2Proof.Machine

/-- R247, R248: a trap of the issuing path with this cause goes to the domain's handler at `pc` at once: no handler of the
group runs and nothing suspends it, its context is not on the fatal path, the cause does not go to the host runtime first
(R245), the domain's table has a valid entry for it, and no debugger stop waits. -/
structure HandlerTakes (s : State) (g : Group) (code : Nat) (pc : Word) : Prop where
  free : g.trap.handler = none ∧ g.st ≠ .suspended
  ctx : (getCtx s g.place.owner).fatal = none
  cause : 1 ≤ code ∧ code ≤ 0x1E ∧ code ≠ 0x04 ∧ code ≠ 0x17 ∧ code ≠ 0x1B
  table : ∃ e : Word, (getDom s g.place.dom).handlers[code]? = some e ∧ e.getLsbD 0 = true ∧ pc = e &&& 0xFFFFFFFC
  calm : g.sched.stopPending = false

/-- R248: the trap record is written, the group is handler-active, and every fibre of the trapped path goes to the
handler; nothing else changes. An instruction that traps does not issue. -/
def TrapEntry (s t : State) (g : Group) (i : TrapInfo) (pc : Word) : Prop :=
  t = { s with groups := t.groups } ∧ OtherGroups s t (curGid s) ∧ ∃ h, OnPath t h ∧
    h = { g with fibres := h.fibres, trap := { g.trap with
            words := trapWords i (!g.trap.held.isEmpty) g.depth (topRegion g), deliveredAt := some s.dev.clock,
            handler := some { mask := i.mask, faultPc := i.retPc, stcmp := i.stcmp } } } ∧
    LanesRelate g h i.mask fun _ x y => y = { x with pc := pc }

/-- A precise trap of the issuing path (R243, R244): its return PC is the instruction's. -/
def preciseInfo (s : State) (code addr progress : Nat) : TrapInfo :=
  { code := code, addr := addr, progress := progress, retPc := s.cur.pc, mask := s.cur.mask }

/-- An instruction of the issuing path raises a precise trap whenever its cause has a handler, and the handler takes it. -/
def TrapsTo (out : Host.Outcome State Fault Refusal) (s : State) (g : Group) (code addr progress : Nat) : Prop :=
  ∀ pc, HandlerTakes s g code pc → ∃ t, out = .next t ∧ TrapEntry s t g (preciseInfo s code addr progress) pc

/-- R70: the catch-up point after a branch of a fetch port that sends every lane of its path to one target. -/
def catchUpAfter (s : State) (old : Option Word) (target : Word) : Option Word :=
  if s.cur.port = 0 ∧ s.cur.pc < target then
    match old with
    | some c => some (if c < target then c else target)
    | none => some target
  else old

/-- R70, R72, R220: a branch sends each lane of its path to its own next PC, the taken ones to their targets and the others
to PC + 4; the predictor of the sub-core is trained by the lowest taken lane's target and held against the lowest next PC, and
the catch-up point moves only when every lane takes the branch to one target. `g1` is the group of the path with what else the instruction writes. -/
def BranchStep (leaf : Nat) (s t : State) (g g1 : Group) (taken : Nat → Bool) (target : Nat → Word) : Prop :=
  let m := maskOf fun l => inMask s.cur.mask l && taken l
  let u := trainBranch (if m = 0 then none else some (target (lowLane m)))
    (portNext s.cur.mask fun l => if taken l then target l else s.cur.pc + 4) s
  let whole := ∀ l, inMask s.cur.mask l = true → taken l = true ∧ target l = target (lowLane s.cur.mask)
  ∃ h, PathStep leaf none u t h ∧ SameBytes s t ∧ OtherGroups s t (curGid s) ∧
    h = { g1 with fibres := h.fibres, sched := { (curGroup u).sched with catchUp := h.sched.catchUp } } ∧
    (whole → s.cur.mask ≠ 0 → h.sched.catchUp = catchUpAfter s g.sched.catchUp (target (lowLane s.cur.mask))) ∧
    (¬ whole → h.sched.catchUp = g.sched.catchUp) ∧
    LanesRelate g1 h s.cur.mask fun l x y =>
      y = { x with pc := if taken l then target l else s.cur.pc + 4 }

/-- R20: the fibre that a lane spawns: the entry in register `a`, arguments in `n` registers from `b`, the spawning
fibre's header, launch and work identifier with fields 0 and 1 zero (field 0 is its lane number to be). -/
def SpawnedBy (g : Group) (l a b n : Nat) (f : NewFibre) : Prop :=
  let x := getFibre g l
  let w := 6 + g.place.hdr.widths.headD 0
  f.entry = getReg x a ∧ f.args = (List.range n).map (fun i => getReg x (b + i)) ∧ f.hdr = g.place.hdr ∧
    f.launch = x.launch ∧ f.karg = g.place.karg ∧ f.prio = g.place.prio ∧ f.teamId = g.place.teamId ∧
    f.message = false ∧ f.acq = 0 ∧
    ∀ i, f.wid.getLsbD i = (decide (w ≤ i) && x.wid.getLsbD i)

/-- The words of a special register of R36 as a lane reads them. -/
def specialWords (s : State) (g : Group) (l n : Nat) : List Word :=
  let x := getFibre g l
  match n with
  | 0x00 => [x.wid.extractLsb' 0 32]
  | 0x01 => [x.wid.extractLsb' 32 32]
  | 0x02 => [BitVec.ofNat 32 (widShape g.place.hdr)]
  | 0x03 => [BitVec.ofNat 32 l]
  | 0x04 => [s.cur.mask.extractLsb' 0 32, s.cur.mask.extractLsb' 32 32]
  | 0x05 => [BitVec.ofNat 32 (256 * (s.cur.slot / 32) + s.cur.slot)]
  | 0x06 => [g.place.teamId]
  | 0x07 => [BitVec.ofNat 32 s.cur.core]
  | 0x08 => [BitVec.ofNat 32 (s.cur.core / 4)]
  | 0x09 => [s.dev.num.zeroExtend 32]
  | 0x0A => [BitVec.ofNat 32 g.place.dom]
  | 0x0B => [BitVec.ofNat 32 g.place.owner]
  | 0x0C => [BitVec.ofNat 32 s.dev.clock]
  | 0x0D => [g.clockHi]
  | 0x0E => [x.fpctl]
  | 0x0F => [g.place.karg.extractLsb' 0 32, (g.place.karg.extractLsb' 32 20).zeroExtend 32]
  | 0x10 => [match (getCore s s.cur.core).banks.find? fun b => b.owner == g.place.owner with
      | some b => BitVec.ofNat 32 b.pfdist
      | none => 2]
  | 0x11 => [0]
  | 0x12 => [BitVec.ofNat 32 g.depth]
  | _ => [g.trap.words.getD (n - 0x18) 0]

/-- Put words into consecutive registers of a file. -/
def putWords (rs : List Word) (d : Nat) : List Word → List Word
  | [] => rs
  | w :: ws => putWords (rs.set d w) (d + 1) ws

end Sys2Proof
end

