-- ==== Sys2Proof/Safety/Memory.lean ====
section
/-! DEFINITION. The words in which claims speak of memory instructions: the form of each, when it issues, and what its issue
leaves. -/

namespace Sys2Proof

open Sys2Proof.Machine

/-- What accesses let the hardware change of itself: translations that are kept (R117), predictor tables that are trained
and prefetches sent (R217, R218), slice metadata (R222) and event counts (R292); and requests in the service queues, which
are told (R148). Nothing else changes but groups. -/
structure Serves (s u : State) (reqs : Nat → List SvcReq) : Prop where
  rest : u = { s with groups := u.groups, cores := u.cores, clusters := u.clusters, slices := u.slices,
                      domains := u.domains, dev := u.dev }
  dev : u.dev = { s.dev with profile := u.dev.profile }
  doms : ∀ d, getDom u d = { getDom s d with profile := (getDom u d).profile }
  cores : ∀ c, getCore u c = { getCore s c with
    tlb := (getCore u c).tlb, banks := (getCore u c).banks, pfSlots := (getCore u c).pfSlots,
    sketchPc := (getCore u c).sketchPc, sketchKer := (getCore u c).sketchKer }
  queues : ∀ c, svcQ u c = svcQ s c ++ reqs c

/-- A memory instruction of `n` bytes has made its group `h`, and has issued; `s'` is the state with what else it does. -/
def MemStep (n : Nat) (s' t : State) (h : Group) (reqs : Nat → List SvcReq) : Prop :=
  ∃ u, Serves s' u reqs ∧ kvGet u.groups (curGid s') = some h ∧ OtherGroups s' u (curGid s') ∧
    PathStep 2 (some n) u t h

/-- A memory instruction: what it counts as, the registers it names, where each lane's access goes or which fault it has (a cause
and an address), and what a lane stores or operates with, and the port that an LDQ fills. A uniform instruction has one access, of
lane 64. -/
structure MemForm where
  bytes : Nat
  gb : Bool := false
  unif : Bool := false
  cls : OpCls
  kind : OpKind
  order : Order := .none
  scope : Scope := .grp
  ord : Bool := false
  home : Bool := false
  regs : List Nat
  dest : Nat := 0
  dests : Nat := 0
  len : Nat
  place : State → Group → Nat → Except (Nat × Nat) (Nat × Loc)
  data : Group → Nat → List Byte := fun _ _ => []
  port : Option Nat := none

/-- The place of an access at an address (R118). -/
def placeAt (need : Need) (len va : Nat) (s : State) (g : Group) : Except (Nat × Nat) (Nat × Loc) :=
  match placeOf s s.cur.core g va len need with
  | .error c => .error (c, va)
  | .ok l => .ok (va, l)

/-- The place that an access has, for one that has a place. -/
def placeLoc : Except (Nat × Nat) (Nat × Loc) → Loc
  | .ok x => x.2
  | .error _ => .loc 0 0

/-- The field of a WAIT for a counter class (R386). -/
def waitField (ld st cp tl : BitVec 6) : OpCls → Nat
  | .ld => ld.toNat
  | .st => st.toNat
  | .cp => cp.toNat
  | .tl => tl.toNat

/-- The place of an atomic: `add.x64` and `fadd.f32` know no local memory (R146). -/
def atomAt (op : AOp) (len va : Nat) (s : State) (g : Group) : Except (Nat × Nat) (Nat × Loc) :=
  match placeAt .atomic len va s g with
  | .ok (_, .loc t off) => if op = .addX64 ∨ op = .faddF32 then .error (0x05, va) else .ok (va, .loc t off)
  | x => x

/-- The address of a lane: a register pair and an offset (R43). -/
def laneVa (g : Group) (base : Nat) (off : Int) (l : Nat) : Nat :=
  (getRegPair (getFibre g l) base + BitVec.ofInt 64 off).toNat

/-- The bytes of consecutive registers of a lane, low word first. -/
def laneBytes (r n len : Nat) (g : Group) (l : Nat) : List Byte :=
  (bytesOfWords ((List.range n).map fun i => getReg (getFibre g l) (r + i))).take len

/-- The bytes of consecutive uniform registers. -/
def uniBytes (r n : Nat) (g : Group) : List Byte := bytesOfWords ((List.range n).map fun i => getU g (r + i))

/-- How many registers an atomic's operand takes: two for CAS, which compares and exchanges, and each a pair for b64
(R50). -/
def operandRegs (op : AOp) (wide : Bool) : Nat := (if op = .cas then 2 else 1) * (if wide then 2 else 1)

/-- The memory instructions with one access per lane (R307, R334, R345, R346, R347, R362, R375). -/
def memForm : Instr → Option MemForm
  | .ldLane gb sz o sc d b off => some {
      bytes := 4, gb := gb, cls := .ld, kind := .load sz, order := o, scope := sc, dest := d.toNat, dests := sizeRegs sz,
      regs := [b.toNat, b.toNat + 1] ++ (List.range (sizeRegs sz)).map (d.toNat + ·), len := sizeBytes sz,
      place := fun s g l => placeAt .load (sizeBytes sz) (laneVa g b.toNat (off.toNat * sizeBytes sz) l) s g }
  | .ldUniform o sc d b off => some {
      bytes := 4, unif := true, cls := .ld, kind := .load .b32, order := o, scope := sc, dest := d.toNat, dests := 1,
      regs := [b.toNat, b.toNat + 1, d.toNat], len := 4,
      place := fun s g _ => placeAt .load 4 (getUPair g b.toNat + BitVec.ofNat 64 (off.toNat * 4)).toNat s g }
  | .ldq gb sc q b off => some {
      bytes := 4, gb := gb, cls := .ld, kind := .ldq (q.toNat - 120), scope := sc, regs := [b.toNat, b.toNat + 1], len := 4,
      place := fun s g l => placeAt .load 4 (laneVa g b.toNat (off.toNat * 4) l) s g
      port := some (q.toNat - 120) }
  | .stLane gb sz o sc d b off => some {
      bytes := 4, gb := gb, cls := .st, kind := .store, order := o, scope := sc,
      regs := [b.toNat, b.toNat + 1] ++ (List.range (sizeRegs sz)).map (d.toNat + ·), len := sizeBytes sz,
      place := fun s g l => placeAt .store (sizeBytes sz) (laneVa g b.toNat (off.toNat * sizeBytes sz) l) s g
      data := laneBytes d.toNat (sizeRegs sz) (sizeBytes sz) }
  | .stUniform o sc d b off => some {
      bytes := 4, unif := true, cls := .st, kind := .store, order := o, scope := sc,
      regs := [b.toNat, b.toNat + 1, d.toNat], len := 4,
      place := fun s g _ => placeAt .store 4 (getUPair g b.toNat + BitVec.ofNat 64 (off.toNat * 4)).toNat s g
      data := fun g _ => uniBytes d.toNat 1 g }
  | .atom gb op wide o sc ord d a b imm => some {
      bytes := 8, gb := gb, cls := .ld, kind := .atomic op wide true, order := o, scope := sc, ord := ord,
      dest := d.toNat, dests := atomBytes wide / 4, len := atomBytes wide,
      regs := [a.toNat, a.toNat + 1] ++ (List.range (operandRegs op wide)).map (b.toNat + ·)
        ++ (List.range (atomBytes wide / 4)).map (d.toNat + ·)
      place := fun s g l => atomAt op (atomBytes wide) (laneVa g a.toNat (imm.toInt * atomBytes wide) l) s g
      data := laneBytes b.toNat (operandRegs op wide) (4 * operandRegs op wide) }
  | .atomUniform op wide o sc ord c a b => some {
      bytes := 8, unif := true, cls := .ld, kind := .atomic op wide true, order := o, scope := sc, ord := ord,
      dest := c.toNat, dests := atomBytes wide / 4, len := atomBytes wide,
      regs := [a.toNat, a.toNat + 1] ++ (List.range (operandRegs op wide)).map (b.toNat + ·)
        ++ (List.range (atomBytes wide / 4)).map (c.toNat + ·)
      place := fun s g _ => atomAt op (atomBytes wide) (getUPair g a.toNat).toNat s g
      data := fun g _ => uniBytes b.toNat (operandRegs op wide) g }
  | .red gb op wide o sc ord a b imm => some {
      bytes := 8, gb := gb, cls := .st, kind := .atomic op wide false, order := o, scope := sc, ord := ord,
      len := atomBytes wide,
      regs := [a.toNat, a.toNat + 1] ++ (List.range (operandRegs op wide)).map (b.toNat + ·)
      place := fun s g l => atomAt op (atomBytes wide) (laneVa g a.toNat (imm.toInt * atomBytes wide) l) s g
      data := laneBytes b.toNat (operandRegs op wide) (4 * operandRegs op wide) }
  | .hld gb sz d a b imm => some {
      bytes := 8, gb := gb, cls := .ld, kind := .load sz, scope := .dev, home := true, dest := d.toNat, dests := sizeRegs sz,
      regs := [a.toNat, a.toNat + 1, b.toNat] ++ (List.range (sizeRegs sz)).map (d.toNat + ·), len := sizeBytes sz,
      place := fun s g l => kvLane s false (sizeBytes sz) (imm.toNat * sizeBytes sz)
        (getRegPair (getFibre g l) a.toNat).toNat (getReg (getFibre g l) b.toNat).toNat }
  | .hst gb sz a b c imm => some {
      bytes := 8, gb := gb, cls := .st, kind := .store, scope := .dev, home := true,
      regs := [a.toNat, a.toNat + 1, b.toNat] ++ (List.range (sizeRegs sz)).map (c.toNat + ·), len := sizeBytes sz,
      place := fun s g l => kvLane s true (sizeBytes sz) (imm.toNat * sizeBytes sz)
        (getRegPair (getFibre g l) a.toNat).toNat (getReg (getFibre g l) b.toNat).toNat
      data := laneBytes c.toNat (sizeRegs sz) (sizeBytes sz) }
  | _ => none

/-- The lanes that act. -/
def memMask (F : MemForm) (s : State) : LaneMask := if F.unif then s.cur.mask else actMask F.gb s

/-- The lanes of the accesses. -/
def memLanes (F : MemForm) (s : State) : List Nat := if F.unif then [64] else lanesOf (memMask F s)

/-- The access of a lane. -/
def memAcc (F : MemForm) (s : State) (g : Group) (l : Nat) : Acc :=
  let x := match F.place s g l with | .ok x => x | .error _ => (0, .loc 0 0)
  { lane := l, loc := x.2, va := x.1, len := F.len, data := F.data g l }

/-- The accesses of the acting lanes. -/
def memAccs (F : MemForm) (s : State) (g : Group) : List Acc := (memLanes F s).map (memAcc F s g)

/-- Whether an access is to global memory. -/
def isGlobal (a : Acc) : Bool := match a.loc with | .glob .. => true | .loc .. => false

/-- Whether a copy of a twin-checked team stages the instruction's global accesses (R281). -/
def stagesTwin (F : MemForm) (s : State) (g : Group) : Bool := F.cls == .st && twinCopy s g

/-- The accesses that are performed, and the entries of the twin stream that the others become. -/
def keptAccs (F : MemForm) (s : State) (g : Group) : List Acc :=
  if stagesTwin F s g then (memAccs F s g).filter fun a => !isGlobal a else memAccs F s g

/-- The entries of the twin stream. -/
def stagedItems (F : MemForm) (s : State) (g : Group) : List TwinItem :=
  if stagesTwin F s g then ((memAccs F s g).filter isGlobal).map fun a =>
    { addr := a.va, mask := 2 ^ a.len - 1, data := a.data, loc := a.loc,
      red := match F.kind with | .atomic op wide _ => some (op, wide) | _ => none }
  else []

/-- The operation with some accesses; it is over at once without one (R302). A twin copy reads
what it had staged when it issued (R281). -/
def memOp (F : MemForm) (s : State) (g : Group) (as : List Acc) : Op :=
  { seq := g.opSeq, cls := F.cls, kind := F.kind, pc := s.cur.pc, mask := s.cur.mask, act := memMask F s, unif := F.unif,
    order := F.order, scope := F.scope, home := F.home, dest := F.dest, dests := F.dests, accs := as, ord := F.ord,
    seen := (g.twin ++ stagedItems F s g).length, done := memMask F s == 0 || as.isEmpty }

/-- Whether an ordered operation waits for its window (R151). -/
def waitsWindow (F : MemForm) (s : State) (g : Group) : Bool := F.ord && !windowOpen s g

/-- The state with so many more elements of the issuing group's context in its core's staging buffer (R152). -/
def buffered (n : Nat) (s : State) (g : Group) : State :=
  let core := coreOfGid (curGid s)
  if n = 0 then s else setStaged core g.place.owner (stagedOf s core g.place.owner + n) s

/-- The buffer has room for so many. -/
def BufferRoom (n : Nat) (s : State) : Prop := n = 0 ∨ bufferFill s (coreOfGid (curGid s)) + n ≤ 4096

/-- The elements that the issue puts into the core's staging buffer: an ordered store that waits for its window (R152), and the
entries of a twin stream (R281). -/
def stagedBy (F : MemForm) (s : State) (g : Group) : Nat :=
  (if waitsWindow F s g ∧ F.cls = .st then (keptAccs F s g).length else 0) + streamElems (stagedItems F s g)

/-- The state with those elements in the buffer. -/
def bufferAfter (F : MemForm) (s : State) (g : Group) : State := buffered (stagedBy F s g) s g

/-- Whether the port that an LDQ of an acting lane fills is bound to loads (R37, R347). -/
def portBound (F : MemForm) (s : State) (g : Group) : Prop :=
  ∀ p, F.port = some p → memMask F s ≠ 0 → (getPort g p).kind = 1

/-- Whether it has a free entry, of 16. -/
def portRoom (F : MemForm) (s : State) (g : Group) : Prop :=
  ∀ p, F.port = some p → memMask F s ≠ 0 → (getPort g p).fifo.length < 16

/-- The group after an LDQ has reserved the next entry of its port. -/
def portReserved (F : MemForm) (s : State) (g : Group) : Group :=
  match F.port with
  | some p => if memMask F s = 0 then g else
      { g with ports := g.ports.set p { getPort g p with fifo := (getPort g p).fifo ++ [[]] } }
  | none => g

/-- The registers that a form names, as lane or as uniform registers. -/
def memRegs (F : MemForm) : List Nat × List Nat := if F.unif then ([], F.regs) else (F.regs, [])

/-- When a memory instruction issues: every lane's access has a place (R118); its counter is below 63 (R132), the core has room
for its line requests (R122) and each service queue for its requests (R148), unless its window holds it; an ordered one stands in
an ordered launch (R149), and the staging buffer has room for what it stages (R152); a twin copy returns no value from global
memory (R281); an LDQ finds its port bound and an entry of it free (R347). -/
structure MemReady (F : MemForm) (s : State) (g : Group) : Prop where
  places : ∀ l ∈ memLanes F s, ∃ x, F.place s g l = .ok x
  count : counter g F.cls < 63
  lines : (waitsWindow F s g = true ∧ F.cls = .st) ∨ outstanding s s.cur.core + (linesOf (memAccs F s g)).length ≤ 2048
  ordered : F.ord = true → memLanes F s ≠ [] → ordBad s g = false
  twin : F.cls = .ld → (∃ op wide ret, F.kind = .atomic op wide ret) → twinCopy s g = true →
    ∀ a ∈ memAccs F s g, isGlobal a = false
  service : waitsWindow F s g = false → ∀ c, (svcQ s c).length +
    ((memAccs F s g).filter fun a => svcCluster s (memOp F s g []) a == some c).length ≤ 1024
  bound : portBound F s g
  entry : portRoom F s g
  staging : BufferRoom (stagedBy F s g) s

/-- What the issue of a memory instruction leaves (R132, R133): its operation is outstanding and counted, with the accesses
its lanes have, its destinations are pending, an LDQ's entry is reserved, what is staged is in the buffer, and its path goes on.
Requests for a service group stand in its queue (R148). No memory changes. -/
def MemIssues (F : MemForm) (s t : State) (g : Group) : Prop :=
  let kept := keptAccs F s g
  let waits := waitsWindow F s g
  let served := fun a => svcCluster s (memOp F s g []) a
  let queue := fun (a : Acc) => if waits then F.cls == .st else (served a).isSome
  let o := { memOp F s g kept with accs := kept.map fun a => if queue a then { a with queued := true } else a }
  let s' := bufferAfter F s g
  let bits := 2 ^ F.dest * (2 ^ F.dests - 1)
  ∃ h, MemStep F.bytes s' t (portReserved F s (prune { h with ops := g.ops ++ [o], opSeq := g.opSeq + 1 }))
      (fun c => if waits then [] else
        (kept.filter fun a => served a == some c).map fun a => { gid := curGid s, seq := g.opSeq, lane := a.lane }) ∧
    h = { g with
      fibres := h.fibres,
      upend := if F.cls = .ld ∧ F.unif = true then g.upend ||| BitVec.ofNat 1024 bits else g.upend,
      twin := g.twin ++ stagedItems F s g } ∧
    LanesRelate g h (memMask F s) fun _ x y =>
      y = if F.cls = .ld ∧ F.unif = false then { x with pend := x.pend ||| BitVec.ofNat 128 bits } else x

/-! ## Barriers -/

/-- R137, R138: a handle names the barrier object `x` at an offset of the group's team. -/
def BarNames (s : State) (g : Group) (h off : Nat) (x : Bar) : Prop :=
  g.place.kind ≠ .spawned ∧ h < 4096 ∧ 16 * h + 16 ≤ (getTeam s g.place.team).hdr.localBytes ∧ x = barAt s g.place.team off ∧
  ∃ e, e = (kvGet (getTeam s g.place.team).barTab h).getD { v := true, gen := 0, off := h } ∧
    e.v = true ∧ off = 16 * e.off ∧ x.gen = e.gen

/-- The object at an offset of a team's local memory is `b`, and every other byte of it reads as before; the team keeps its
other fields but the barrier table and what it notes of ERROR. Nothing else of the state but groups changes. -/
def BarBecomes (s u : State) (k off : Nat) (b : Bar) : Prop :=
  u = { s with groups := u.groups, teams := u.teams } ∧ localRead u k off 16 = bytesOfBar b ∧
  (∀ a, ¬ (off ≤ a ∧ a < off + 16) → memByte (getTeam u k).mem a = memByte (getTeam s k).mem a) ∧
  getTeam u k = { getTeam s k with mem := (getTeam u k).mem, barTab := (getTeam u k).barTab, barOld := (getTeam u k).barOld } ∧
  ∀ j, j ≠ k → getTeam u j = getTeam s j

/-- The delay of a barrier update for a group (R143): 24 cycles on the home core of its team, and 48 elsewhere. -/
def barHold (s : State) (gid : Nat) (g : Group) : Nat := if coreOfGid gid = (getTeam s g.place.team).home then 24 else 48

/-- A barrier instruction has made its group `h`, and has issued; its path is held until the update is applied (R143). -/
def BarStep (s u t : State) (h : Group) : Prop :=
  kvGet u.groups (curGid s) = some h ∧
  PathStep 2 none u t { h with sched := { h.sched with
    holds := { mask := s.cur.mask, until_ := s.dev.clock + barHold s (curGid s) h, leaf := 11 } :: h.sched.holds } }

/-- The lanes of a group's path go past its instruction. -/
def pastPath (s : State) (g : Group) : Group := modLanes g s.cur.mask fun _ f => { f with pc := f.pc + 4 }

/-- The paths of a team that wait at a barrier are released (R139, R141): each fibre of them is past its BWAIT, its group's
gp15 tells whether the phase ended well, and it issues again after the delay. Other groups are as they were, and so are all
groups of a context in the drain of its fatal path (R253). -/
def Released (s u : State) (team off : Nat) (ph : Option Nat) (ok : Bool) : Prop :=
  u = { s with groups := u.groups } ∧ ∀ k, match kvGet s.groups k with
    | none => kvGet u.groups k = none
    | some x =>
      let freed := fun l f => l < 64 ∧ kvGet x.fibres l = some f ∧ x.place.team = team ∧
        (getCtx s x.place.owner).fatal = none ∧ waitsAt off ph f = true
      ((∀ l f, ¬ freed l f) → kvGet u.groups k = some x) ∧
      ((∃ l f, freed l f) → ∃ y, kvGet u.groups k = some y ∧
        y = { setGp x 15 ok with fibres := y.fibres, sched := { x.sched with holds := y.sched.holds } } ∧
        (∀ l, kvGet y.fibres l = (kvGet x.fibres l).map fun f =>
          if l < 64 ∧ waitsAt off ph f = true then { f with st := .resident, pc := f.pc + 4 } else f) ∧
        (∀ l f, freed l f → ∃ hd ∈ y.sched.holds, inMask hd.mask l = true ∧ hd.until_ = s.dev.clock + barHold s k x) ∧
        ∀ hd ∈ x.sched.holds, hd ∈ y.sched.holds)

/-- No copy that has counted into the phase of generation `gen` of a team's barrier has a fault that a BWAIT would still
raise (R141). -/
def NoCopyFault (s : State) (team off gen : Nat) : Prop :=
  ∀ k x, kvGet s.groups k = some x → x.place.team = team → ∀ o ∈ x.ops,
    copyBar o = some { off := off, gen := gen } → ∀ e, o.err = some e → ¬ (e.code = 0x19 ∧ e.counted = true)

/-! ## Accesses -/

/-- The bytes that a core's accesses see at a place (R116, R119): a team's local memory; the line that the L1 holds, or
memory; the SRAM that holds a HOME 0b10 page; or memory. -/
def seenBytes (s : State) (core : Nat) (l : Loc) (n : Nat) : List Byte :=
  match l with
  | .loc t off => memBytes (getTeam s t).mem off n
  | .glob pa home hcore =>
    if cachedHome home then
      match l1Find (getCore s core) pa with
      | some (_, ln) => (List.range n).map fun i => ln.data.extractLsb' (8 * (pa - ln.pa + i)) 8
      | none => memBytes s.mem pa n
    else if home = 2 then sramRead s hcore pa n
    else memBytes s.mem pa n

/-- An access of `n` bytes in one line that this device serves without moving another line: the L1 holds the line, or has a way
free for it and no prefetch of it is in flight; around the L1, no line of the core's L1 shares a byte, and a HOME 0b10 page is in
its core's SRAM. -/
def ServedHere (s : State) (core : Nat) (l : Loc) (n : Nat) : Prop :=
  match l with
  | .loc t _ => (∃ x, kvGet s.teams t = some x) ∧ Memory.wf (getTeam s t).mem = true
  | .glob pa home hcore => MemOk s ∧ 1 ≤ n ∧ pa % 128 + n ≤ 128 ∧ peerOf s pa = none ∧
    if cachedHome home then (∃ x, l1Find (getCore s core) pa = some x) ∨
      (∀ e ∈ (getCore s core).pfSlots, e.2.pa ≠ lineOf pa) ∧
      ∃ w, w < l1Ways s core ∧ kvGet (getCore s core).l1 (l1Set pa * 16 + w) = none
    else (∀ e ∈ (getCore s core).l1, rangesMeet e.2.pa 128 pa n = false) ∧
      (home = 2 → ∃ p, (getCore s hcore).sram.find? (fun p => p.pa == pa / 65536 * 65536) = some p ∧
        Memory.wf p.bytes = true)

/-- An access has changed, beside what it stores, only caches and what R222 and R292 count; `u` keeps the memories. -/
def OnlyCaches (s u : State) : Prop :=
  u = { s with cores := u.cores, slices := u.slices, domains := u.domains, dev := u.dev }

/-- A store of bytes at a place at an effective scope has been made (R112, R116, R119): the core sees them there, and at every
other address of the same kind of page what it saw; the bytes are in memory at once unless the L1 keeps them, which it does
below cluster scope. -/
def StoreMade (s u : State) (core scope : Nat) (l : Loc) (bs : List Byte) : Prop :=
  seenBytes u core l bs.length = bs ∧
  match l with
  | .loc t off => u = { s with teams := u.teams } ∧
      (∀ a, ¬ (off ≤ a ∧ a < off + bs.length) → memByte (getTeam u t).mem a = memByte (getTeam s t).mem a) ∧
      getTeam u t = { getTeam s t with mem := (getTeam u t).mem } ∧ ∀ j, j ≠ t → getTeam u j = getTeam s j
  | .glob pa home hcore => OnlyCaches { s with mem := u.mem } u ∧
      (∀ x, ¬ (pa ≤ x ∧ x < pa + bs.length) → seenBytes u core (.glob x home hcore) 1 = seenBytes s core (.glob x home hcore) 1) ∧
      (if home = 2 ∨ (cachedHome home = true ∧ scope < 3) then u.mem = s.mem else
        memBytes u.mem pa bs.length = bs ∧ ∀ x, ¬ (pa ≤ x ∧ x < pa + bs.length) → memByte u.mem x = memByte s.mem x)

/-- The place of an access that goes around the L1 to the point of coherence. -/
def around (l : Loc) : Loc :=
  match l with
  | .loc t off => .loc t off
  | .glob pa home hcore => .glob pa (if home = 2 then 2 else 3) hcore

/-- The access of a lane of an outstanding operation of a group that an event may perform now: it is still to be performed,
no earlier access orders it (R127, R128), its window is open if it is ordered (R151), and it meets no uncorrectable error and
no peer whose links are down (R123, R275). -/
structure AccNow (s : State) (gid : Nat) (g : Group) (o : Op) (a : Acc) : Prop where
  group : kvGet s.groups gid = some g
  op : findOp g o.seq = some o
  acc : (o.accs.find? fun b => b.lane == a.lane) = some a
  todo : a.done = false
  ready : accReady s gid g o a = true
  opened : o.ord = true → windowOpen s g = true
  sound : accessFails s o.lost a.loc = none

/-- The lanes that an event of a group names to perform the access alone: lane 64 is that of a uniform operation, which
every event performs. -/
def NamesOne (o : Op) (a : Acc) (lanes : LaneMask) : Prop :=
  a.lane ≤ 64 ∧ (∀ l, l < 64 → (inMask lanes l = true ↔ l = a.lane)) ∧ (a.lane = 64 ∨ ∀ b ∈ o.accs, b.lane ≠ 64)

/-- A list of registers after words have been written from a register on, into at most `n` registers. -/
def RegsWritten (old new : List Word) (r n : Nat) (ws : List Word) : Prop :=
  new.length = old.length ∧
    ∀ k, k < old.length → new.getD k 0 = if r ≤ k ∧ k < r + min n ws.length then ws.getD (k - r) 0 else old.getD k 0

/-- The group after the access of an operation is performed: it is done, and the bytes that it returns, if any, are in the
destination registers, zero-extended (R43). Pending bits stay for a WAIT to clear (R133). -/
def AccMade (g h : Group) (o : Op) (a : Acc) (bs : Option (List Byte)) : Prop :=
  h = { g with
    fibres := h.fibres, uregs := h.uregs,
    ops := g.ops.map fun p => if p.seq = o.seq then { p with
      accs := p.accs.map fun b => if b.lane = a.lane then { b with done := true, queued := false } else b } else p } ∧
  match bs with
  | none => h.fibres = g.fibres ∧ h.uregs = g.uregs
  | some bs =>
    if o.unif then h.fibres = g.fibres ∧ RegsWritten g.uregs h.uregs o.dest o.dests (resultWords bs)
    else h.uregs = g.uregs ∧ LanesRelate g h (oneLane a.lane) fun _ x y =>
      y = { x with regs := y.regs } ∧ RegsWritten x.regs y.regs o.dest o.dests (resultWords bs)

/-- The state once an access that goes around the L1 of its core has reached its home: the core has given up the line
(R126), and the slice has handled the access (R222). -/
def gaveUp (s : State) (w : Who) (n : Nat) (l : Loc) : State :=
  match l with
  | .loc _ _ => s
  | .glob pa home _ => reachHome w pa n home s

/-- An atomic of an agent at a place takes the old bytes and leaves new ones (R146): it is performed around the L1. -/
def AtomicMade (s u : State) (w : Who) (op : AOp) (wide : Bool) (l : Loc) (data old : List Byte) : Prop :=
  let n := atomBytes wide
  let v := gaveUp s w n l
  old = seenBytes v w.core (around l) n ∧
    StoreMade v u w.core 4 (around l) (bytesOfNat n (atomicNew op n (natOfBytes old) data))

/-- An operation whose accesses are all performed (R132). -/
def opOver (o : Op) : Bool :=
  !o.done && (match o.kind with | .engine .. => false | _ => true) && o.accs.all fun a => a.done

/-- An access of four bytes that moves no line: local memory, a line in the L1, or a place around the L1. -/
def ReadsInPlace (s : State) (core : Nat) (l : Loc) : Prop :=
  ServedHere s core l 4 ∧ ∀ pa home hcore, l = .glob pa home hcore → cachedHome home = true →
    ∃ x, l1Find (getCore s core) pa = some x

end Sys2Proof
end

