-- ==== Sys2Proof/Safety/Engines.lean ====
section
/-! DEFINITION. The words of the statements about the engines: the forms of the engine instructions, and what their
acceptance and their completion leave. -/

namespace Sys2Proof

open Sys2Proof.Machine

/-- An engine instruction: its convergence register, the lane registers and the uniform registers that it reads or writes, and
uniform registers that its operands name besides. -/
structure EngForm where
  cv : Nat
  lanes : List Nat := []
  unis : List Nat := []
  named : List Nat := []

/-- The registers from one on. -/
def span (r n : Nat) : List Nat := (List.range n).map (r + ·)

/-- R303 and the entries of the engine instructions. -/
def engForm : Instr → Option EngForm
  | .shld cv _ a => some { cv := cv.toNat, unis := span a.toNat 2 }
  | .shev cv _ => some { cv := cv.toNat }
  | .tld cv bh _ a b c => some { cv := cv.toNat, unis := [a.toNat, b.toNat] ++ span c.toNat (if bh then 2 else 1) }
  | .tst cv _ a b c => some { cv := cv.toNat, unis := [a.toNat, b.toNat, c.toNat] }
  | .mldb cv _ sc lt _ a b c => some { cv := cv.toNat, unis := span a.toNat 2 ++ (if sc then span b.toNat 2 else []) ++ (if lt then [c.toNat] else []) }
  | .mma cv _ mode sc _ _ _ a b v => some { cv := cv.toNat, unis := [a.toNat, b.toNat], lanes := if sc then span v.toNat (if mode = 6 then 2 else 1) else [] }
  | .topen cv _ _ a => some { cv := cv.toNat, unis := [a.toNat] }
  | .tread cv _ _ _ a b => some { cv := cv.toNat, unis := span a.toNat 2 ++ [b.toNat] }
  | .treadStat cv _ c => some { cv := cv.toNat, unis := [c.toNat] }
  | .tred cv _ _ a b c => some { cv := cv.toNat, unis := span a.toNat 2 ++ [b.toNat, c.toNat] }
  | .attn cv _ nb a b c => some { cv := cv.toNat, named := span b.toNat 4, unis := span a.toNat 2 ++ span b.toNat (if nb then 3 else 4) ++ span c.toNat 2 }
  | .attnMaxima cv nb a b c => some { cv := cv.toNat, named := span b.toNat 4, unis := span a.toNat 2 ++ span b.toNat (if nb then 3 else 4) ++ span c.toNat 2 }
  | .attnGiven cv nb a b c => some { cv := cv.toNat, named := span b.toNat 4, unis := span a.toNat 2 ++ span b.toNat (if nb then 3 else 4) ++ span c.toNat 2 }
  | .attnFinish cv _ nb a b c => some { cv := cv.toNat, named := span b.toNat 4, unis := span a.toNat 2 ++ span b.toNat 2 ++ (if nb then [] else [b.toNat + 3]) ++ span c.toNat 2 }
  | .kvapp cv a b c => some { cv := cv.toNat, unis := span a.toNat 2 ++ [b.toNat, c.toNat] }
  | .kvfork cv a b c => some { cv := cv.toNat, unis := span a.toNat 2 ++ [b.toNat] ++ span c.toNat 2 }
  | .kvdrop cv a => some { cv := cv.toNat, unis := span a.toNat 2 }
  | .cins cv _ c v => some { cv := cv.toNat, lanes := [v.toNat], unis := [c.toNat] }
  | .cmrg cv _ c => some { cv := cv.toNat, unis := [c.toNat] }
  | .crdCent cv v a => some { cv := cv.toNat, lanes := [v.toNat], unis := [a.toNat] }
  | .crdSum cv v a => some { cv := cv.toNat, lanes := span v.toNat 2, unis := [a.toNat] }
  | .crdCnt cv c a => some { cv := cv.toNat, unis := [c.toNat, a.toNat] }
  | .crdStat cv c => some { cv := cv.toNat, unis := span c.toNat 2 }
  | .ccfg cv a => some { cv := cv.toNat, unis := span a.toNat 2 }
  | .ccfgKeep cv a => some { cv := cv.toNat, unis := span a.toNat 2 }
  | .ccfgFree cv => some { cv := cv.toNat }
  | .ssmld cv a => some { cv := cv.toNat, unis := span a.toNat 2 }
  | .ssmscan cv _ a b => some { cv := cv.toNat, unis := [a.toNat, b.toNat] }
  | .ssmstep cv _ a b => some { cv := cv.toNat, unis := [a.toNat, b.toNat] }
  | .ssmst cv a => some { cv := cv.toNat, unis := span a.toNat 2 }
  | .ssmstFree cv a => some { cv := cv.toNat, unis := span a.toNat 2 }
  | .route cv _ _ _ _ nb _ _ a b c v => some { cv := cv.toNat, lanes := span v.toNat 3, named := span b.toNat 5, unis := [a.toNat] ++ span b.toNat 3 ++ (if nb then [] else [b.toNat + 3]) ++ [b.toNat + 4, c.toNat] }
  | .rtbind cv a b => some { cv := cv.toNat, unis := [a.toNat] ++ span b.toNat 2 }
  | .rtrd cv v c a => some { cv := cv.toNat, lanes := [v.toNat], unis := [a.toNat, c.toNat] }
  | .rtrdFree cv v c a => some { cv := cv.toNat, lanes := [v.toNat], unis := [a.toNat, c.toNat] }
  | .svrd cv c a => some { cv := cv.toNat, unis := [a.toNat] ++ span c.toNat 4 }
  | .svwr cv a b => some { cv := cv.toNat, unis := [a.toNat] ++ span b.toNat 4 }
  | .svclr cv a => some { cv := cv.toNat, unis := [a.toNat] }
  | .svsave cv slice a b => some { cv := cv.toNat, unis := span a.toNat 2 ++ (if slice then [b.toNat] else []) }
  | .svload cv slice a b => some { cv := cv.toNat, unis := span a.toNat 2 ++ (if slice then [b.toNat] else []) }
  | .ambind cv a b => some { cv := cv.toNat, unis := [a.toNat] ++ span b.toNat 2 }
  | .ambindAll cv a b => some { cv := cv.toNat, unis := [a.toNat] ++ span b.toNat 2 }
  | .ambindInbox cv a => some { cv := cv.toNat, unis := [a.toNat] }
  | .ambindNone cv a => some { cv := cv.toNat, unis := [a.toNat] }
  | _ => none

/-- What the acceptance of an instruction finds, for each engine that takes its instructions as they come, or for the
key-value sequencer: a fault, or a command and the state after the reads that the checks make. `home` is whether the engine
is that of the team's home core, and not that of the issuing core. -/
def acceptance (i : Instr) (e : EngEnv) (s : State) : Option (Bool × Accept) :=
  match i with
  | .shld _ t a => some (true, acceptShld t a e s)
  | .shev _ t => some (true, acceptShev t e s)
  | .tld _ bh t a b c => some (true, acceptTld bh t a b c e s)
  | .tst _ t a b c => some (true, acceptTst t a b c e s)
  | .mldb _ ty sc lt mask a b c => some (true, acceptMldb ty sc lt mask a b c e s)
  | .mma _ ty mode sc rv h t a b v => some (true, acceptMma ty mode sc rv h t a b v e s)
  | .topen _ auto t a => some (true, acceptTopen auto t a e s)
  | .tread _ ty h t a b => some (true, acceptTread ty h t a b e s)
  | .treadStat _ t c => some (true, acceptTreadStat t c e s)
  | .tred _ h t a b c => some (true, acceptTred h t a b c e s)
  | .cins _ ord c v => some (true, acceptCins ord c v e s)
  | .cmrg _ bound c => some (true, bankCmd (.cmrg bound c.toNat) s)
  | .crdCent _ v a => some (true, bankCmd (.crdCent v.toNat (uArg e a)) s)
  | .crdSum _ v a => some (true, bankCmd (.crdSum v.toNat (uArg e a)) s)
  | .crdCnt _ c a => some (true, bankCmd (.crdCnt c.toNat (uArg e a)) s)
  | .crdStat _ c => some (true, bankCmd (.crdStat c.toNat) s)
  | .ccfg _ a => some (true, bankCmd (.ccfg false (uPair e a)) s)
  | .ccfgKeep _ a => some (true, bankCmd (.ccfg true (uPair e a)) s)
  | .ccfgFree _ => some (true, bankCmd .ccfgFree s)
  | .ssmld _ a => some (true, acceptSsmld a e s)
  | .ssmscan _ t a b => some (true, acceptScan false t a b e s)
  | .ssmstep _ t a b => some (true, acceptScan true t a b e s)
  | .ssmst _ a => some (true, acceptSsmst false a e s)
  | .ssmstFree _ a => some (true, acceptSsmst true a e s)
  | .rtbind _ a b => some (true, acceptRtbind a b e s)
  | .rtrd _ v c a => some (true, acceptRtrd false v c a e s)
  | .rtrdFree _ v c a => some (true, acceptRtrd true v c a e s)
  | .svrd _ c a => some (false, surveyCmd (.svrd c.toNat (uArg e a)) s)
  | .svwr _ a b => some (false, surveyCmd (.svwr (uArg e a) ((span b.toNat 4).map (getU e.g))) s)
  | .svclr _ a => some (false, surveyCmd (.svclr (uArg e a)) s)
  | .svsave _ slice a b => some (false, surveyCmd (.svsave (if slice then some (uArg e b) else none) (uPair e a)) s)
  | .svload _ slice a b => some (false, surveyCmd (.svload (if slice then some (uArg e b) else none) (uPair e a)) s)
  | .ambind _ a b => some (false, acceptAmbind false a b e s)
  | .ambindAll _ a b => some (false, acceptAmbind true a b e s)
  | .ambindInbox _ a => some (false, acceptAmbindInbox a e s)
  | .ambindNone _ a => some (false, acceptAmbindNone a e s)
  | .kvapp _ a b c => some (true, acceptKvapp a b c e s)
  | .kvfork _ a b c => some (true, acceptKvfork a b c e s)
  | .kvdrop _ a => some (true, acceptKvdrop a e s)
  | _ => none

/-- The command that a core holds for an accepted instruction of a group (R100, R103). -/
def commandOf (s : State) (e : EngEnv) (a : Accepted) : Cmd :=
  { id := s.nextId + 1, gid := e.gid, seq := (getGroup s e.gid).opSeq, team := e.g.place.team, owner := e.g.place.owner,
    mask := e.mask, pc := e.pc, kind := a.kind, uses := a.uses, bar := a.bar, hold := a.hold }

/-- An instruction is accepted (R79, R132): its command is the last of its core's, it counts on TL, and its signers go on at
PC + 8 unless they are held until it completes. -/
def EngAccepted (core : Nat) (e : EngEnv) (a : Accepted) (s t : State) : Prop :=
  ∃ g h, kvGet s.groups e.gid = some g ∧ kvGet t.groups e.gid = some h ∧ OtherGroups s t e.gid ∧
    t = { s with groups := t.groups, cores := t.cores, nextId := s.nextId + 1 } ∧
    (∀ c, getCore t c = if c = core then
      { getCore s c with eng := { (getCore s c).eng with cmds := (getCore s c).eng.cmds ++ [commandOf s e a] } } else getCore s c) ∧
    h = { g with
      fibres := h.fibres, opSeq := g.opSeq + 1,
      upend := if 0 < a.dests then g.upend ||| BitVec.ofNat 1024 (2 ^ a.dest * (2 ^ a.dests - 1)) else g.upend,
      ops := g.ops ++ [{ seq := g.opSeq, cls := .tl, kind := .engine (s.nextId + 1) a.bar, pc := e.pc, mask := e.mask, act := e.mask,
                         unif := decide (0 < a.dests), dest := a.dest, dests := a.dests, ord := a.ord, seen := g.twin.length,
                         err := lineErr a.bad }] } ∧
    LanesRelate g h e.mask fun _ x y => y = if a.hold then x else { x with st := .resident, pc := e.pc + 8 }

/-- A command is complete (R79, R132): it has left its core, its operation is done, and the signers that it held go on at
PC + 8. -/
def EngDone (core : Nat) (c : Cmd) (s t : State) : Prop :=
  ∃ g h, kvGet s.groups c.gid = some g ∧ kvGet t.groups c.gid = some h ∧ OtherGroups s t c.gid ∧
    t = { s with groups := t.groups, cores := t.cores } ∧
    (∀ k, getCore t k = if k = core then
      { getCore s k with eng := { (getCore s k).eng with cmds := (getCore s k).eng.cmds.filter fun d => d.id != c.id } }
      else getCore s k) ∧
    h = { prune { g with ops := g.ops.map fun o => if o.seq = c.seq then { o with done := true } else o } with fibres := h.fibres } ∧
    LanesRelate g h c.mask fun _ x y => y = if c.hold then { x with st := .resident, pc := c.pc + 8 } else x

/-- The rest of the check of R75 over a group's registers, after one of them. -/
def settleAfter (gid n : Nat) (s : State) : State := ((List.range 16).drop (n + 1)).foldl (fun s k => completeCv gid k s) s

/-- The path of a group signs with all its lanes (R79), as the last signer of the register. -/
structure LastSigner (i : Instr) (n : Nat) (s : State) (g : Group) : Prop where
  aligned : s.cur.pc.extractLsb' 0 2 = 0
  acts : s.cur.mask ≠ 0
  first : (getCv g n).tv = true → (getCv g n).tag ++ 0#2 = s.cur.pc ∧ (getCv g n).eng = some i
  all : ∀ l, l < 64 → (if n = 0 then kvGet g.fibres l ≠ none else inMask (getCv g n).decl l = true) →
    inMask (getCv g n).sign l = true ∨ inMask s.cur.mask l = true
  before : ∀ k, k < n → cvComplete g k = false

/-- An engine instruction has made its group `h`, and its path has issued (R79). The watchdog's time restarts only when its
signature is complete (R255). -/
def SignStep (s u : State) (g h : Group) : Prop := u.ctxs = s.ctxs ∧ PathStep 3 none s (noteRun g.place.owner u) h

/-- The state when the register is complete: the path has issued, its lanes are blocked, and SIGN and TV are 0 (R75, R79). -/
def SignedBy (n : Nat) (s v : State) (g h : Group) : Prop :=
  PathStep 3 none s v h ∧
  h = { g with fibres := h.fibres, cvs := g.cvs.set n { decl := (getCv g n).decl, tag := s.cur.pc.extractLsb' 2 30 } } ∧
  LanesRelate g h s.cur.mask fun _ x y => y = { x with st := .blocked (.engine n) }

/-- The event at which a command completes: five kinds have one of their own (R103). -/
def commandEvent (k : CmdKind) (core id : Nat) : Instr :=
  match k with
  | .tld .. => .tldComplete core id
  | .tst .. => .tstComplete core id
  | .mldb .. => .mldbComplete core id
  | .mma .. => .mmaComplete core id
  | .tred .. => .tredComplete core id
  | _ => .engineCommandComplete core id

/-- What a command does to the state when it is applied, for each kind, or the fault that its checks find then (R176, R227). -/
def commandEffect (core : Nat) (c : Cmd) (s : State) : Except EngErr State :=
  match c.kind with
  | .shld n words phys => .ok (applyShape c n (some { words := words, phys := phys }) s)
  | .shev n => .ok (applyShape c n none s)
  | .tld addr pitch len rows => .ok (applyTld c addr pitch len rows s)
  | .tst addr pitch rows => .ok (applyTst c addr pitch rows s)
  | .mldb ty mask addr scale table ps qs => .ok (applyMldb c core ty mask addr scale table ps qs s)
  | .mma ty mode rv h t a pitch scales replay => .ok (applyMma c core ty mode rv h t a pitch scales replay s)
  | .topen t auto e => .ok (applyTopen c t auto e s)
  | .tread ty _ t _ rows => .ok (applyTread c ty t rows s)
  | .treadStat t d => .ok (cmdSetU c d (getTile s c.team t).status.toNat s)
  | .tred t head rows => .ok (applyTred c t head rows s)
  | .cins _ d vals => applyCins c core d vals s
  | .cmrg bound d => applyCmrg c core bound d s
  | .crdCent v a => applyCrdCent c core v a s
  | .crdSum v a => applyCrdSum c core v a s
  | .crdCnt d a => applyCrdCnt c core d a s
  | .crdStat d => applyCrdStat c core d s
  | .ccfg keep va => applyCcfg c core keep va s
  | .ccfgFree => applyCcfgFree c core s
  | .ssmld head ps => .ok (applySsmld c core head ps s)
  | .scan a t row n => .ok (applyScan c core a t row n s)
  | .ssmst free ps => .ok (applySsmst c core free ps s)
  | .kvapp | .kvfork | .kvdrop => .ok s
  | .rtbind v e => .ok (applyRtbind c v e s)
  | .rtrd free v d n gen ws done => .ok (applyRtrd core c free v d n gen ws done s)
  | .svrd d addr => applySvrd c d addr s
  | .svwr addr ws => applySvwr c addr ws s
  | .svclr mask => applySvclr c mask s
  | .svsave slice va => applySvsave c slice va s
  | .svload slice va => applySvload c slice va s
  | .ambind dom clus hid t => .ok (applyAmbind dom clus hid t s)

/-- The checks of the ATTN forms at acceptance: a fault, or the ATTN, the line that failed, and the state (R160, R166, R308). -/
def attnChecks (i : Instr) (e : EngEnv) (s : State) : Option (Except EngErr (Attn × Option Nat × State)) :=
  match i with
  | .attn _ ty nb a b c => some (attnScores 0 ty nb a b c e s)
  | .attnMaxima _ nb a b c => some (attnScores 1 .f32 nb a b c e s)
  | .attnGiven _ nb a b c => some (attnScores 2 .f32 nb a b c e s)
  | .attnFinish _ ty nb a b c => some (attnFinish ty nb a b c e s)
  | _ => none

end Sys2Proof
end

