-- ==== Sys2Proof/Safety/Events.lean ====
section
/-! DEFINITION. The words in which claims speak of the events of the device: routed pairs and returns. -/

namespace Sys2Proof

open Sys2Proof.Machine

/-! ## Mailboxes (R296) -/

/-- R296: a mailbox takes a request: its slot of 64 bytes holds the request word, with the operation and the sequence number, and
the operands; the machine goes as `P` says, and the reply carries that number and a status. -/
def Served (mgmt : Bool) (dom seq op status value : Nat) (i : Instr) (s : State) (P : State → State → Prop) : Prop :=
  ∃ bs t, bs.length = 64 ∧ bs.take 4 = bytesOfNat 4 (op + 2 ^ 16 * (seq % 2 ^ 16)) ∧
    P (setRequest (if mgmt then none else some dom) bs s) t ∧ exec i s = .next (putReply mgmt dom seq status value t)

/-- The request is refused: nothing else changes. -/
def Refused (mgmt : Bool) (dom seq op status : Nat) (i : Instr) (s : State) : Prop :=
  Served mgmt dom seq op status 0 i s fun u t => t = u

/-! ## Routed pairs (R197 to R206, R388) -/

/-- An entry that may send: it is not DONE, its context is not on the fatal path, its team is not being stopped for pre-emption
(R240), and every RTBIND accepted before it is written. -/
structure EntSends (s : State) (core n : Nat) (x : RouteEnt) : Prop where
  ent : getEnt s core n = some x
  live : x.st ≠ .done
  ctx : (getCtx s x.owner).fatal = none
  goes : (getTeam s x.team).stopAt = none
  bound : ∀ c ∈ (engOf s core).cmds, c.team = x.team → c.id < x.id → ∀ v e, c.kind ≠ .rtbind v e

/-- R197: no ROUTE of the team that was accepted earlier waits for capacity of a routing value. -/
def FirstFor (s : State) (core : Nat) (x : RouteEnt) (v : Nat) : Prop := earlierWants s core x v = false

/-- R201: the payload of a pair's message: the staging address of its row, the weight, the token, the routing value, L, the
element size and the row. -/
def pairWords (x : RouteEnt) (p : RPair) : List Word :=
  let step := (x.len * (if x.bf16 then 2 else 4) + 63) / 64 * 64
  let va := x.stage + p.row * step
  let token := x.core * 2 ^ 24 + x.num * 2 ^ 20 + p.row * 2 ^ 15 + p.slot * 2 ^ 13 + x.gen
  [BitVec.ofNat 32 va, BitVec.ofNat 32 (va / 2 ^ 32), BitVec.ofNat 32 (p.weight * 2 ^ 16), BitVec.ofNat 32 token,
   BitVec.ofNat 32 p.value, BitVec.ofNat 32 x.len, if x.bf16 then 3 else 2, BitVec.ofNat 32 p.row]

/-- What an event of an entry changes directly: the entry becomes `y`, and INFL of one routing value becomes `infl`. -/
structure EntBecomes (core n : Nat) (y : RouteEnt) (team v infl : Nat) (s t : State) : Prop where
  rest : t = { s with mem := t.mem, am := t.am, teams := t.teams, cores := t.cores }
  ent : getEnt t core n = some y
  cores : ∀ k, k ≠ core → getCore t k = getCore s k
  ents : ∀ k, k ≠ n → getEnt t core k = getEnt s core k
  infl : ∀ w, rtInfl (rtEntry t team w) = if w = v then infl else rtInfl (rtEntry s team w)
  cap : ∀ w, rtCap (rtEntry t team w) = rtCap (rtEntry s team w) ∧ rtClu (rtEntry t team w) = rtClu (rtEntry s team w) ∧
    rtHid (rtEntry t team w) = rtHid (rtEntry s team w)
  teams : ∀ k, k ≠ team → getTeam t k = getTeam s k

/-- R201, R202: pair `i` of an entry is sent, to the cluster and the handler id that its value is bound to; INFL rises. The
message is the ROUTE's, of its PC and kernel. -/
def PairSent (core n i : Nat) (x y : RouteEnt) (p : RPair) (s t : State) : Prop :=
  let e := rtEntry s x.team p.value
  EntBecomes core n { y with pairs := x.pairs.set i { p with st := .sent } } x.team p.value (rtInfl e + 1) s t ∧
  let m : Msg := {
    dom := x.owner / 64, owner := x.owner, launch := x.launch, dev := s.dev.num.toNat, clu := rtClu e, hid := rtHid e,
    payload := pairWords x p, pair := some { core := x.core, ent := x.num, gen := x.gen, row := p.row, pair := p.slot },
    src := some (core / 4), pc := x.pc, entry := entKernel s x }
  t.am = { s.am with msgs := s.am.msgs ++ [m] }

/-- An entry with a pair over and the counts of its row changed. -/
def pairOver (x : RouteEnt) (i : Nat) (p : RPair) (f : RowCount → RowCount) : RouteEnt :=
  { x with pairs := x.pairs.set i { p with st := .ended }, rows := x.rows.set p.row (f (x.rows.getD p.row {})) }

/-- R202: a pair is resolved as a drop: DROP rises and EXP falls by 1. -/
def droppedRow (r : RowCount) : RowCount := { r with drop := r.drop + 1, exp := r.exp - 1 }

/-- R204: a pair is resolved by its return: RECV rises by 1. -/
def receivedRow (r : RowCount) : RowCount := { r with recv := r.recv + 1 }

end Sys2Proof
end

