-- ==== Sys2Proof/Safety/Rules.lean ====
section
/-! DEFINITION. The rules of the register instructions, for claims: relations between operand values and results, and
tables of the instructions that follow them. -/

namespace Sys2Proof

open Sys2Proof.Machine

/-! ## The rules of the integer instructions (R306 to R371), as relations between operand values and the result -/

/-- R336: a sum or a difference, exact, then wrapped or saturated. -/
def sumRule (sub : Bool) (f : Sat) (a b v : Word) : Prop :=
  let op (x y : Int) : Int := if sub then x - y else x + y
  match f with
  | .wrap => (v.toNat : Int) = op a.toNat b.toNat % 2 ^ 32
  | .sats => v.toInt = max (-2 ^ 31) (min (2 ^ 31 - 1) (op a.toInt b.toInt))
  | .satn => (v.toNat : Int) = max 0 (min (2 ^ 32 - 1) (op a.toNat b.toNat))

/-- R337: a register plus a signed immediate, wrapped. -/
def immRule (n : Int) (a v : Word) : Prop := (v.toNat : Int) = (a.toNat + n) % 2 ^ 32

/-- R342: the part of the 64-bit product that is written. -/
def mulRule (f : MulPart) (a b v : Word) : Prop :=
  match f with
  | .lo => v.toNat = a.toNat * b.toNat % 2 ^ 32
  | .hiS => v.toInt = a.toInt * b.toInt / 2 ^ 32
  | .hiN => v.toNat = a.toNat * b.toNat / 2 ^ 32

/-- R340: a × b + d, with the operands d, a and b. -/
def madRule (d a b v : Word) : Prop := v.toNat = (a.toNat * b.toNat + d.toNat) % 2 ^ 32

/-- R341: the lesser or the greater, as signed or as natural numbers. -/
def minMaxRule (mx nat : Bool) (a b v : Word) : Prop :=
  if nat then v.toNat = (if mx then max a.toNat b.toNat else min a.toNat b.toNat)
  else v.toInt = (if mx then max a.toInt b.toInt else min a.toInt b.toInt)

/-- R306: a bitwise operation, bit by bit. -/
def bitsRule (f : Bool → Bool → Bool) (a b v : Word) : Prop :=
  ∀ i, i < 32 → v.getLsbD i = f (a.getLsbD i) (b.getLsbD i)

/-- R371: SHL. -/
def shlRule (a b v : Word) : Prop := v.toNat = if b.toNat < 32 then a.toNat * 2 ^ b.toNat % 2 ^ 32 else 0

/-- R371: SHR.n. -/
def shrNRule (a b v : Word) : Prop := v.toNat = if b.toNat < 32 then a.toNat / 2 ^ b.toNat else 0

/-- R371: SHR.s. -/
def shrSRule (a b v : Word) : Prop :=
  if b.toNat < 32 then v.toInt = a.toInt / 2 ^ b.toNat
  else v = if a.getLsbD 31 then 0xFFFFFFFF else 0

/-- R371: ROT, to the left by k mod 32. -/
def rotRule (a b v : Word) : Prop := ∀ i, i < 32 → v.getLsbD ((i + b.toNat) % 32) = a.getLsbD i

/-- R359: POPC. -/
def popcRule (a v : Word) : Prop := v.toNat = ((List.range 32).filter fun i => a.getLsbD i).length

/-- R317: CLZ. -/
def clzRule (a v : Word) : Prop :=
  (a = 0 ∧ v = 32) ∨
  (v.toNat ≤ 31 ∧ a.getLsbD (31 - v.toNat) = true ∧ ∀ i, 31 - v.toNat < i → i < 32 → a.getLsbD i = false)

/-- R313: BREV. -/
def brevRule (a v : Word) : Prop := ∀ i, i < 32 → v.getLsbD i = a.getLsbD (31 - i)

/-- R335: IABS. -/
def iabsRule (a v : Word) : Prop := if 0 ≤ a.toInt then v = a else (v.toNat : Int) = (0 - (a.toNat : Int)) % 2 ^ 32

/-- R335: INEG. -/
def inegRule (a v : Word) : Prop := (v.toNat : Int) = (0 - (a.toNat : Int)) % 2 ^ 32

/-- R311: the position P of a control value K. -/
def fieldPos (k : Nat) : Nat := k % 32

/-- R311: the width W of a control value K, with L := K[9:5] + 1. -/
def fieldWidth (k : Nat) : Nat := min (k / 32 % 32 + 1) (32 - fieldPos k)

/-- R311: BFX and BFXS. -/
def bfxRule (sgn : Bool) (k : Nat) (a v : Word) : Prop :=
  (∀ i, i < fieldWidth k → v.getLsbD i = a.getLsbD (fieldPos k + i)) ∧
  ∀ i, fieldWidth k ≤ i → i < 32 → v.getLsbD i = (sgn && a.getLsbD (fieldPos k + fieldWidth k - 1))

/-- R311: BFI, with the operands d and a. -/
def bfiRule (k : Nat) (d a v : Word) : Prop :=
  ∀ i, i < 32 → v.getLsbD i =
    if fieldPos k ≤ i ∧ i < fieldPos k + fieldWidth k then a.getLsbD (i - fieldPos k) else d.getLsbD i

/-- R311: the control value of a register form, bits 9 to 0 of the register. -/
def controlOf (b : Word) : Nat := b.toNat % 1024

/-- R348: LEA. -/
def leaRule (sh : Nat) (a b v : Word) : Prop := v.toNat = (a.toNat + b.toNat * 2 ^ sh) % 2 ^ 32

/-- R353: MOVK. -/
def movkRule (imm : BitVec 16) (v : Word) : Prop := v.toNat = imm.toNat

/-- R353: MOVK.hi, with the operand d. -/
def movkHiRule (imm : BitVec 16) (d v : Word) : Prop := v.toNat = imm.toNat * 65536 + d.toNat % 65536

/-- A rule of no operand. -/
def rule0 (r : Word → Prop) (_ : List Word) (v : Word) : Prop := r v
/-- A rule of one operand. -/
def rule1 (r : Word → Word → Prop) (ws : List Word) (v : Word) : Prop := r (ws.getD 0 0) v
/-- A rule of two operands. -/
def rule2 (r : Word → Word → Word → Prop) (ws : List Word) (v : Word) : Prop := r (ws.getD 0 0) (ws.getD 1 0) v
/-- A rule of three operands. -/
def rule3 (r : Word → Word → Word → Word → Prop) (ws : List Word) (v : Word) : Prop :=
  r (ws.getD 0 0) (ws.getD 1 0) (ws.getD 2 0) v

/-- A lane instruction with one destination register: its guard bit, its destination, the registers that it reads in the
order of its rule, and its rule. -/
structure LaneForm where
  g : Bool
  d : VReg
  srcs : List VReg
  rule : List Word → Word → Prop

/-- The lane integer instructions (R306 to R371). -/
def laneIntForm : Instr → Option LaneForm
  | .iaddLane g f d a b => some ⟨g, d, [a, b], rule2 (sumRule false f)⟩
  | .isubLane g f d a b => some ⟨g, d, [a, b], rule2 (sumRule true f)⟩
  | .iaddiLane g d a imm => some ⟨g, d, [a], rule1 (immRule imm.toInt)⟩
  | .imulLane g f d a b => some ⟨g, d, [a, b], rule2 (mulRule f)⟩
  | .imadLane g d a b => some ⟨g, d, [d, a, b], rule3 madRule⟩
  | .iminLane g nat d a b => some ⟨g, d, [a, b], rule2 (minMaxRule false nat)⟩
  | .imaxLane g nat d a b => some ⟨g, d, [a, b], rule2 (minMaxRule true nat)⟩
  | .andLane g d a b => some ⟨g, d, [a, b], rule2 (bitsRule fun x y => x && y)⟩
  | .orLane g d a b => some ⟨g, d, [a, b], rule2 (bitsRule fun x y => x || y)⟩
  | .xorLane g d a b => some ⟨g, d, [a, b], rule2 (bitsRule fun x y => x != y)⟩
  | .andnLane g d a b => some ⟨g, d, [a, b], rule2 (bitsRule fun x y => x && !y)⟩
  | .shlLane g d a b => some ⟨g, d, [a, b], rule2 shlRule⟩
  | .shrNLane g d a b => some ⟨g, d, [a, b], rule2 shrNRule⟩
  | .shrSLane g d a b => some ⟨g, d, [a, b], rule2 shrSRule⟩
  | .rotLane g d a b => some ⟨g, d, [a, b], rule2 rotRule⟩
  | .popcLane g d a => some ⟨g, d, [a], rule1 popcRule⟩
  | .clzLane g d a => some ⟨g, d, [a], rule1 clzRule⟩
  | .brevLane g d a => some ⟨g, d, [a], rule1 brevRule⟩
  | .iabsLane g d a => some ⟨g, d, [a], rule1 iabsRule⟩
  | .inegLane g d a => some ⟨g, d, [a], rule1 inegRule⟩
  | .bfxLane g d a len pos => some ⟨g, d, [a], rule1 (bfxRule false (len.toNat * 32 + pos.toNat))⟩
  | .bfxsLane g d a len pos => some ⟨g, d, [a], rule1 (bfxRule true (len.toNat * 32 + pos.toNat))⟩
  | .bfiLane g d a b => some ⟨g, d, [d, a, b], rule3 fun x y k => bfiRule (controlOf k) x y⟩
  | .leaLane g d a b sh => some ⟨g, d, [a, b], rule2 (leaRule sh.toNat)⟩
  | .movkLane g d imm => some ⟨g, d, [], rule0 (movkRule imm)⟩
  | .movkHiLane g d imm => some ⟨g, d, [d], rule1 (movkHiRule imm)⟩
  | _ => none

/-- A uniform instruction with one destination register. -/
structure UniForm where
  d : Nat
  srcs : List Nat
  rule : List Word → Word → Prop

/-- The uniform integer instructions (R306 to R371), and MOVX (R354). -/
def uniIntForm : Instr → Option UniForm
  | .iaddUniform f d a b => some ⟨d.toNat, [a.toNat, b.toNat], rule2 (sumRule false f)⟩
  | .isubUniform f d a b => some ⟨d.toNat, [a.toNat, b.toNat], rule2 (sumRule true f)⟩
  | .iaddiUniform d a imm => some ⟨d.toNat, [a.toNat], rule1 (immRule imm.toInt)⟩
  | .imulUniform f d a b => some ⟨d.toNat, [a.toNat, b.toNat], rule2 (mulRule f)⟩
  | .imadUniform d a b => some ⟨d.toNat, [d.toNat, a.toNat, b.toNat], rule3 madRule⟩
  | .iminUniform nat d a b => some ⟨d.toNat, [a.toNat, b.toNat], rule2 (minMaxRule false nat)⟩
  | .imaxUniform nat d a b => some ⟨d.toNat, [a.toNat, b.toNat], rule2 (minMaxRule true nat)⟩
  | .andUniform d a b => some ⟨d.toNat, [a.toNat, b.toNat], rule2 (bitsRule fun x y => x && y)⟩
  | .orUniform d a b => some ⟨d.toNat, [a.toNat, b.toNat], rule2 (bitsRule fun x y => x || y)⟩
  | .xorUniform d a b => some ⟨d.toNat, [a.toNat, b.toNat], rule2 (bitsRule fun x y => x != y)⟩
  | .andnUniform d a b => some ⟨d.toNat, [a.toNat, b.toNat], rule2 (bitsRule fun x y => x && !y)⟩
  | .shlUniform d a b => some ⟨d.toNat, [a.toNat, b.toNat], rule2 shlRule⟩
  | .shrNUniform d a b => some ⟨d.toNat, [a.toNat, b.toNat], rule2 shrNRule⟩
  | .shrSUniform d a b => some ⟨d.toNat, [a.toNat, b.toNat], rule2 shrSRule⟩
  | .rotUniform d a b => some ⟨d.toNat, [a.toNat, b.toNat], rule2 rotRule⟩
  | .popcUniform d a => some ⟨d.toNat, [a.toNat], rule1 popcRule⟩
  | .clzUniform d a => some ⟨d.toNat, [a.toNat], rule1 clzRule⟩
  | .brevUniform d a => some ⟨d.toNat, [a.toNat], rule1 brevRule⟩
  | .iabsUniform d a => some ⟨d.toNat, [a.toNat], rule1 iabsRule⟩
  | .inegUniform d a => some ⟨d.toNat, [a.toNat], rule1 inegRule⟩
  | .bfxUniform d a b => some ⟨d.toNat, [a.toNat, b.toNat], rule2 fun x k => bfxRule false (controlOf k) x⟩
  | .bfxsUniform d a b => some ⟨d.toNat, [a.toNat, b.toNat], rule2 fun x k => bfxRule true (controlOf k) x⟩
  | .bfiUniform d a b =>
    some ⟨d.toNat, [d.toNat, a.toNat, b.toNat], rule3 fun x y k => bfiRule (controlOf k) x y⟩
  | .leaUniform d a b sh => some ⟨d.toNat, [a.toNat, b.toNat], rule2 (leaRule sh.toNat)⟩
  | .movkUniform d imm => some ⟨d.toNat, [], rule0 (movkRule imm)⟩
  | .movkHiUniform d imm => some ⟨d.toNat, [d.toNat], rule1 (movkHiRule imm)⟩
  | .movx d a => some ⟨d.toNat, [a.toNat], rule1 fun x v => v = x⟩
  | _ => none

/-! ## Floating point (R84 to R88, R319 to R331) -/

/-- Whether an FP32 word is a NaN (R84). -/
def isNan32 (w : Word) : Bool := decide (0x7F800000 < w.toNat % 2 ^ 31)

/-- Whether an FP32 word is a signalling NaN: a NaN whose top fraction bit is 0 (R84). -/
def isSnan32 (w : Word) : Bool := isNan32 w && !w.getLsbD 22

/-- The order of the FP32 words that are not NaNs, as one of integers: the magnitude with its sign, so that −0 is +0. -/
def orderKey (w : Word) : Int := if w.getLsbD 31 then -((w.toNat % 2 ^ 31 : Nat) : Int) else (w.toNat % 2 ^ 31 : Nat)

/-- A floating-point instruction with one destination register: its guard bit, its destination, its sources, and what it
writes and which flags it raises, from FPCTL and the operands. -/
structure FloatForm where
  g : Bool
  d : VReg
  srcs : List VReg
  out : Word → List Word → Word × Word

/-- A function of FP32 on a word: a NaN gives the canonical NaN, with INV when it is signalling (R85, R325, R331). -/
def unary32 (op : Nat → FVal → Rounded) (_ : Word) (ws : List Word) : Word × Word :=
  let w := ws.getD 0 0
  if isNan32 w then (0x7FC00000, if isSnan32 w then flagINV else 0)
  else (BitVec.ofNat 32 (op w.toNat (fval fp32 w.toNat)).code, (op w.toNat (fval fp32 w.toNat)).flags)

/-- An operation of FADD to FMAX on two operands, in both halves of a packed type (R326), under FPCTL.RM. -/
def binary (t : FType) (op : FFmt → Rm → Nat → Nat → Rounded) (ctl : Word) (ws : List Word) : Word × Word :=
  perType t (fun f _ a b => op f (rmOf ctl) a b) 0 (ws.getD 0 0) (ws.getD 1 0)

/-- CVTS, pack: byte `i` of d is replaced (R88, R321). -/
def packOut (f : FFmt) (i : Nat) (ctl : Word) (ws : List Word) : Word × Word :=
  let r := packCode f (rmOf ctl) (ws.getD 1 0) (byteOf (ws.getD 2 0) i)
  (setByte (ws.getD 0 0) i r.code, r.flags)

/-- CVTS, unpack: byte `i` of a, or its low nibble for E2M1 (R88, R321). -/
def unpackOut (f : FFmt) (i : Nat) (ctl : Word) (ws : List Word) : Word × Word :=
  let c := byteOf (ws.getD 0 0) i % 2 ^ f.bits
  let r := unpackCode f (rmOf ctl) c (byteOf (ws.getD 1 0) i)
  (BitVec.ofNat 32 r.code, r.flags ||| snanFlag [fval f c])

/-- The floating-point instructions with one destination register (R324 to R331, R321). -/
def floatForm : Instr → Option FloatForm
  | .fadd g t d a b => some ⟨g, d, [a, b], binary t (addCode false)⟩
  | .fsub g t d a b => some ⟨g, d, [a, b], binary t (addCode true)⟩
  | .fmul g t d a b => some ⟨g, d, [a, b], binary t mulCode⟩
  | .fma g t d a b => some ⟨g, d, [d, a, b], fun ctl ws =>
      perType t (fun f z x y => fmaCode f (rmOf ctl) x y z) (ws.getD 0 0) (ws.getD 1 0) (ws.getD 2 0)⟩
  | .fmin g t d a b => some ⟨g, d, [a, b], binary t fun f _ => minMaxCode false f⟩
  | .fmax g t d a b => some ⟨g, d, [a, b], binary t fun f _ => minMaxCode true f⟩
  | .fabs g d a => some ⟨g, d, [a], unary32 fun c _ => { code := c % 2 ^ 31, flags := 0 }⟩
  | .fneg g d a => some ⟨g, d, [a], unary32 fun c _ => { code := (c + 2 ^ 31) % 2 ^ 32, flags := 0 }⟩
  | .frndRn g d a => some ⟨g, d, [a], unary32 (frndCode .rn)⟩
  | .frndRz g d a => some ⟨g, d, [a], unary32 (frndCode .rz)⟩
  | .frndDn g d a => some ⟨g, d, [a], unary32 (frndCode .dn)⟩
  | .frndUp g d a => some ⟨g, d, [a], unary32 (frndCode .up)⟩
  | .frcp g d a => some ⟨g, d, [a], unary32 fun _ x => frcpCode x⟩
  | .frsq g d a => some ⟨g, d, [a], unary32 fun _ x => frsqCode x⟩
  | .fsqrt g d a => some ⟨g, d, [a], unary32 fun _ x => fsqrtCode x⟩
  | .fexp2 g d a => some ⟨g, d, [a], unary32 fun _ x => fexp2Code x⟩
  | .flog2 g d a => some ⟨g, d, [a], unary32 fun _ x => flog2Code x⟩
  | .cvtsE4m3Pack g d a b i => some ⟨g, d, [d, a, b], packOut e4m3 i.toNat⟩
  | .cvtsE4m3Unpack g d a b i => some ⟨g, d, [a, b], unpackOut e4m3 i.toNat⟩
  | .cvtsE5m2Pack g d a b i => some ⟨g, d, [d, a, b], packOut e5m2 i.toNat⟩
  | .cvtsE5m2Unpack g d a b i => some ⟨g, d, [a, b], unpackOut e5m2 i.toNat⟩
  | .cvtsE2m1Pack g d a b i => some ⟨g, d, [d, a, b], packOut e2m1 i.toNat⟩
  | .cvtsE2m1Unpack g d a b i => some ⟨g, d, [a, b], unpackOut e2m1 i.toNat⟩
  | _ => none

/-! ## Predicates (R328, R338, R357, R360) -/

/-- The conditions of ICMP (R49). -/
def icondRule (c : ICond) (a b : Word) : Bool :=
  match c with
  | .eq => decide (a = b)
  | .ne => decide (a ≠ b)
  | .ltS => decide (a.toInt < b.toInt)
  | .leS => decide (a.toInt ≤ b.toInt)
  | .gtS => decide (b.toInt < a.toInt)
  | .geS => decide (b.toInt ≤ a.toInt)
  | .ltN => decide (a.toNat < b.toNat)
  | .geN => decide (b.toNat ≤ a.toNat)

/-- The conditions of FCMP (R328): with a NaN in either operand all but ne and un are false. -/
def fcondRule (c : FCond) (a b : Word) : Bool :=
  let un := isNan32 a || isNan32 b
  match c with
  | .eq => !un && decide (orderKey a = orderKey b)
  | .ne => un || decide (orderKey a ≠ orderKey b)
  | .lt => !un && decide (orderKey a < orderKey b)
  | .le => !un && decide (orderKey a ≤ orderKey b)
  | .gt => !un && decide (orderKey b < orderKey a)
  | .ge => !un && decide (orderKey b ≤ orderKey a)
  | .un => un
  | .num => !un

/-- The flag of FCMP (R328): lt, le, gt and ge raise INV on any NaN, the others on a signalling one. -/
def fcondFlags (c : FCond) (a b : Word) : Word :=
  match c with
  | .lt | .le | .gt | .ge => if isNan32 a || isNan32 b then flagINV else 0
  | _ => if isSnan32 a || isSnan32 b then flagINV else 0

/-- A lane instruction that writes predicates: its guard bit, its sources, which predicate takes which value in a fibre,
and the flags raised. -/
structure PredForm where
  g : Bool
  srcs : List VReg
  out : Fibre → List Word → Nat → Option Bool
  flags : List Word → Word

/-- One predicate takes a value. -/
def onePred (p : Nat) (b : Bool) (j : Nat) : Option Bool := if j = p then some b else none

/-- The lane instructions that write predicates. -/
def predForm : Instr → Option PredForm
  | .icmpLane g c p a b => some ⟨g, [a, b], fun _ ws => onePred p.toNat (icondRule c (ws.getD 0 0) (ws.getD 1 0)), fun _ => 0⟩
  | .fcmp g c p a b => some ⟨g, [a, b], fun _ ws => onePred p.toNat (fcondRule c (ws.getD 0 0) (ws.getD 1 0)),
      fun ws => fcondFlags c (ws.getD 0 0) (ws.getD 1 0)⟩
  | .pandLane g p a b => some ⟨g, [], fun x _ => onePred p.toNat (getPred x a.toNat && getPred x b.toNat), fun _ => 0⟩
  | .porLane g p a b => some ⟨g, [], fun x _ => onePred p.toNat (getPred x a.toNat || getPred x b.toNat), fun _ => 0⟩
  | .pxorLane g p a b => some ⟨g, [], fun x _ => onePred p.toNat (getPred x a.toNat != getPred x b.toNat), fun _ => 0⟩
  | .pandnLane g p a b => some ⟨g, [], fun x _ => onePred p.toNat (getPred x a.toNat && !getPred x b.toNat), fun _ => 0⟩
  | .pornLane g p a b => some ⟨g, [], fun x _ => onePred p.toNat (getPred x a.toNat || !getPred x b.toNat), fun _ => 0⟩
  | .punpack g a q => some ⟨g, [a], fun _ ws j =>
      if 32 * q.toNat ≤ j ∧ j < 32 * q.toNat + 32 then some ((ws.getD 0 0).getLsbD (j - 32 * q.toNat)) else none, fun _ => 0⟩
  | _ => none

/-- The predicates of a fibre afterwards: those that take a value, but for p0, whose writes are discarded (R12, R41), and
the others as they were. -/
def PredsTake (x y : Fibre) (w : Nat → Option Bool) : Prop :=
  ∀ j, y.preds.getLsbD j = if j = 0 ∨ 128 ≤ j then x.preds.getLsbD j else (w j).getD (x.preds.getLsbD j)

/-- The uniform instructions that write a uniform predicate: which, the registers read, and its value. -/
structure UniPredForm where
  p : Nat
  srcs : List Nat
  out : Group → Bool

/-- The uniform instructions that write a uniform predicate (R338, R357). -/
def uniPredForm : Instr → Option UniPredForm
  | .icmpUniform c p a b =>
    some ⟨p.toNat, [a.toNat, b.toNat], fun g => icondRule c (getU g a.toNat) (getU g b.toNat)⟩
  | .pandUniform p a b => some ⟨p.toNat, [], fun g => getGp g a.toNat && getGp g b.toNat⟩
  | .porUniform p a b => some ⟨p.toNat, [], fun g => getGp g a.toNat || getGp g b.toNat⟩
  | .pxorUniform p a b => some ⟨p.toNat, [], fun g => getGp g a.toNat != getGp g b.toNat⟩
  | .pandnUniform p a b => some ⟨p.toNat, [], fun g => getGp g a.toNat && !getGp g b.toNat⟩
  | .pornUniform p a b => some ⟨p.toNat, [], fun g => getGp g a.toNat || !getGp g b.toNat⟩
  | _ => none

/-! ## Lane-cross instructions (R370, R383 to R385) -/

/-- R370: what lane `l` receives, of operand words by lane. -/
def shflRule (f : Shfl) (path : LaneMask) (a b : Nat → Word) (l : Nat) (v : Word) : Prop :=
  let k : Nat := (b l).toNat
  let src : Int := match f with
    | .idx => (k % 64 : Nat)
    | .xor => (Nat.xor l (k % 64) : Nat)
    | .up => (l : Int) - k
    | .down => (l : Int) + k
  v = if 0 ≤ src ∧ src ≤ 63 ∧ inMask path src.toNat then a src.toNat else a l

/-- The sum of some lanes' words, modulo 2^32. -/
def sumIs (ls : List Nat) (a : Nat → Word) (v : Word) : Prop := v.toNat = (ls.map fun k => (a k).toNat).sum % 2 ^ 32

/-- The greatest, or least, of some lanes' words, read as signed. -/
def extremeIs (mx : Bool) (ls : List Nat) (a : Nat → Word) (v : Word) : Prop :=
  (∃ k ∈ ls, a k = v) ∧ ∀ k ∈ ls, if mx then (a k).toInt ≤ v.toInt else v.toInt ≤ (a k).toInt

/-- R385: a scan over the acting lanes, in ascending order. -/
def scanRule (f : Scan) (act : LaneMask) (a : Nat → Word) (l : Nat) (v : Word) : Prop :=
  let below := (List.range 64).filter fun k => inMask act k && decide (k < l)
  let upTo := (List.range 64).filter fun k => inMask act k && decide (k ≤ l)
  match f with
  | .addExcl => sumIs below a v
  | .addIncl => sumIs upTo a v
  | .maxIncl => extremeIs true upTo a v
  | .minIncl => extremeIs false upTo a v

/-- R384 and R95: a reduction over the acting lanes, with the flags raised. -/
def redRule (f : Red) (act : LaneMask) (a : Nat → Word) (v fl : Word) : Prop :=
  let ls := (List.range 64).filter fun k => inMask act k
  match f with
  | .add => sumIs ls a v ∧ fl = 0
  | .maxS => extremeIs true ls a v ∧ fl = 0
  | .minS => extremeIs false ls a v ∧ fl = 0
  | .faddExact => v = BitVec.ofNat 32 (faddExact (ls.map a)).code ∧ fl = (faddExact (ls.map a)).flags

end Sys2Proof
end

