-- ==== Sys2Proof/Certificates/Slice0/Obligations.lean ====
section
/-! DEFINITION. The statements: what the rules of the manual say that the machine does, for the provers. -/

open Sys2Proof Sys2Proof.Machine

/-! ## Register instructions -/

/-- Each lane integer instruction writes, in every acting lane, a destination value that its rule allows (R306, R311, R313,
R317, R335, R336, R337, R340, R341, R342, R348, R353, R359, R371); an operand may be a queue port, which is popped once.
Every other lane and register, every predicate and flag, and every byte of memory is as it was. -/
def Obligations.LaneIntegerResult : Prop :=
  ∀ (i : Instr) (F : LaneForm) (s : State) (g : Group), laneIntForm i = some F → OnPath s g →
    let act := actMask F.g s
    let vs := F.srcs.map BitVec.toNat
    InCounts g (vs ++ [F.d.toNat]) [] → NotPending g act (vs ++ [F.d.toNat]) [] →
    F.d.toNat < 120 → (act ≠ 0 → PortsFull g vs) →
    ∃ t h, exec i s = .next t ∧ PathStep 0 (some 4) s t h ∧
      h = { g with fibres := h.fibres, ports := h.ports } ∧ PortsPopped g h vs (act != 0) ∧
      LanesRelate g h act fun l x y =>
        ∃ v, F.rule (vs.map (operandOf g l)) v ∧ y = { x with regs := x.regs.set F.d.toNat v }

/-- Each uniform integer instruction, and MOVX, writes a destination value that its rule allows (the rules of the lane
forms, and R354), and nothing else of its group but the PC of its path. -/
def Obligations.UniformIntegerResult : Prop :=
  ∀ (i : Instr) (F : UniForm) (s : State) (g : Group), uniIntForm i = some F → OnPath s g →
    InCounts g [] (F.srcs ++ [F.d]) → NotPending g 0 [] (F.srcs ++ [F.d]) →
    ∃ t v, exec i s = .next t ∧ F.rule (F.srcs.map (getU g)) v ∧
      PathStep 1 (some 4) s t { g with uregs := g.uregs.set F.d v }

/-- Each floating-point instruction with one destination writes, in every acting lane, the value that `floatForm` gives
under the lane's FPCTL, and ORs its flags into FPCTL (R85, R88, R321, R324 to R327, R331). -/
def Obligations.LaneFloatResult : Prop :=
  ∀ (i : Instr) (F : FloatForm) (s : State) (g : Group), floatForm i = some F → OnPath s g →
    let act := actMask F.g s
    let vs := F.srcs.map BitVec.toNat
    InCounts g (vs ++ [F.d.toNat]) [] → NotPending g act (vs ++ [F.d.toNat]) [] →
    F.d.toNat < 120 → (act ≠ 0 → PortsFull g vs) →
    ∃ t h, exec i s = .next t ∧ PathStep 0 (some 4) s t h ∧
      h = { g with fibres := h.fibres, ports := h.ports } ∧ PortsPopped g h vs (act != 0) ∧
      LanesRelate g h act fun l x y =>
        let r := F.out x.fpctl (vs.map (operandOf g l))
        y = { x with regs := x.regs.set F.d.toNat r.1, fpctl := x.fpctl ||| r.2 }

/-- CVT writes, in every acting lane, its source's value in the destination type under its own rounding field, and ORs its
flags into FPCTL; a .s64 operand is a pair (R319, R320). -/
def Obligations.ConversionResult : Prop :=
  ∀ (gb : Bool) (d a : VReg) (src dst : Ty) (rm : Rm) (s : State) (g : Group), OnPath s g →
    let act := actMask gb s
    let vr := if src = .s64 then [a.toNat, a.toNat + 1] else [a.toNat]
    let vw := if dst = .s64 then [d.toNat, d.toNat + 1] else [d.toNat]
    InCounts g (vr ++ vw) [] → NotPending g act (vr ++ vw) [] →
    (∀ r ∈ vw, r < 120) → (src = .s64 → a.toNat + 1 < 120) → (act ≠ 0 → PortsFull g vr) →
    ∃ t h, exec (.cvt gb d a src dst rm) s = .next t ∧ PathStep 0 (some 4) s t h ∧
      h = { g with fibres := h.fibres, ports := h.ports } ∧ PortsPopped g h vr (act != 0) ∧
      LanesRelate g h act fun l x y =>
        let hi := if src = .s64 then getReg (getFibre g l) (a.toNat + 1) else 0
        let r := cvtResult dst rm (cvtSource src (operandOf g l a.toNat) hi)
        let regs := x.regs.set d.toNat (r.1.extractLsb' 0 32)
        y = { x with regs := if dst = .s64 then regs.set (d.toNat + 1) (r.1.extractLsb' 32 32) else regs,
                     fpctl := x.fpctl ||| r.2 }

/-- ICMP, FCMP, the PAND group and PUNPACK write predicates of the acting lanes, but for p0, and no register (R328, R338,
R357, R360). -/
def Obligations.PredicateResult : Prop :=
  ∀ (i : Instr) (F : PredForm) (s : State) (g : Group), predForm i = some F → OnPath s g →
    let act := actMask F.g s
    let vs := F.srcs.map BitVec.toNat
    InCounts g vs [] → NotPending g act vs [] → (act ≠ 0 → PortsFull g vs) →
    ∃ t h, exec i s = .next t ∧ PathStep 0 (some 4) s t h ∧
      h = { g with fibres := h.fibres, ports := h.ports } ∧ PortsPopped g h vs (act != 0) ∧
      LanesRelate g h act fun l x y =>
        PredsTake x y (F.out x (vs.map (operandOf g l))) ∧
        y = { x with preds := y.preds, fpctl := x.fpctl ||| F.flags (vs.map (operandOf g l)) }

/-- The uniform ICMP and PAND group write one uniform predicate, but for gp0 (R338, R357). -/
def Obligations.UniformPredicateResult : Prop :=
  ∀ (i : Instr) (F : UniPredForm) (s : State) (g : Group), uniPredForm i = some F → OnPath s g →
    InCounts g [] F.srcs → NotPending g 0 [] F.srcs →
    ∃ t gp, exec i s = .next t ∧
      (∀ j, gp.getLsbD j = if j = F.p ∧ j ≠ 0 then F.out g else g.gp.getLsbD j) ∧
      PathStep 1 (some 4) s t { g with gp := gp }

/-- GSEL sets the guard selection of the acting lanes (R73, R332); SEL takes a or b by each lane's own guard (R368); PPACK
packs a quarter of the predicates, p0 as 1 (R360). -/
def Obligations.GuardAndSelect : Prop :=
  (∀ (gb : Bool) (p : PReg) (neg : Bool) (s : State) (g : Group), OnPath s g →
    ∃ t h, exec (.gsel gb p neg) s = .next t ∧ PathStep 0 (some 4) s t h ∧ h = { g with fibres := h.fibres } ∧
      LanesRelate g h (actMask gb s) fun _ x y => y = { x with guardP := p, guardN := neg }) ∧
  (∀ (d a b : VReg) (s : State) (g : Group), OnPath s g →
    InCounts g [a.toNat, b.toNat, d.toNat] [] → NotPending g s.cur.mask [a.toNat, b.toNat, d.toNat] [] →
    d.toNat < 120 → (s.cur.mask ≠ 0 → PortsFull g [a.toNat, b.toNat]) →
    ∃ t h, exec (.sel d a b) s = .next t ∧ PathStep 0 (some 4) s t h ∧
      h = { g with fibres := h.fibres, ports := h.ports } ∧ PortsPopped g h [a.toNat, b.toNat] (s.cur.mask != 0) ∧
      LanesRelate g h s.cur.mask fun l x y =>
        let v := if getPred x x.guardP.toNat != x.guardN then operandOf g l a.toNat else operandOf g l b.toNat
        y = { x with regs := x.regs.set d.toNat v }) ∧
  (∀ (gb : Bool) (d : VReg) (q : BitVec 2) (s : State) (g : Group), OnPath s g →
    InCounts g [d.toNat] [] → NotPending g (actMask gb s) [d.toNat] [] → d.toNat < 120 →
    ∃ t h, exec (.ppack gb d q) s = .next t ∧ PathStep 0 (some 4) s t h ∧ h = { g with fibres := h.fibres } ∧
      LanesRelate g h (actMask gb s) fun _ x y => ∃ v : Word, y = { x with regs := x.regs.set d.toNat v } ∧
        ∀ i, i < 32 → v.getLsbD i = getPred x (32 * q.toNat + i))

/-- BCAST writes a uniform register into a lane register of every lane of the path (R310); PICK writes the register that a
slot's fibre holds, of any path, into a uniform register, and 0 for an empty slot (R358). -/
def Obligations.MovesBetweenSets : Prop :=
  (∀ (d : VReg) (a : GReg) (s : State) (g : Group), OnPath s g → InCounts g [d.toNat] [a.toNat] →
    NotPending g s.cur.mask [d.toNat] [a.toNat] →
    ∃ t h, exec (.bcast d a) s = .next t ∧ PathStep 1 (some 4) s t h ∧ h = { g with fibres := h.fibres } ∧
      LanesRelate g h s.cur.mask fun _ x y => y = { x with regs := x.regs.set d.toNat (getU g a.toNat) }) ∧
  ∀ (d : GReg) (a : VReg) (lane : BitVec 6) (s : State) (g : Group), OnPath s g → InCounts g [a.toNat] [d.toNat] →
    (∀ x, kvGet g.fibres lane.toNat = some x → a.toNat < 120 → x.pend.getLsbD a.toNat = false) →
    g.upend.getLsbD d.toNat = false →
    let v := match kvGet g.fibres lane.toNat with | some x => getReg x a.toNat | none => 0
    ∃ t, exec (.pick d a lane) s = .next t ∧ PathStep 1 (some 4) s t { g with uregs := g.uregs.set d.toNat v }

/-- SHFL gives each acting lane the word of a lane of the path, or its own (R370); VSCAN a sum, a maximum or a minimum over
the acting lanes up to it (R385). -/
def Obligations.ShuffleAndScan : Prop :=
  (∀ (gb : Bool) (f : Shfl) (d a b : VReg) (s : State) (g : Group), OnPath s g →
    let act := actMask gb s
    InCounts g [a.toNat, b.toNat, d.toNat] [] → NotPending g act [a.toNat, b.toNat, d.toNat] [] →
    d.toNat < 120 → (act ≠ 0 → PortsFull g [a.toNat, b.toNat]) →
    ∃ t h, exec (.shfl gb f d a b) s = .next t ∧ PathStep 0 (some 4) s t h ∧
      h = { g with fibres := h.fibres, ports := h.ports } ∧ PortsPopped g h [a.toNat, b.toNat] (act != 0) ∧
      LanesRelate g h act fun l x y => ∃ v,
        shflRule f s.cur.mask (fun k => operandOf g k a.toNat) (fun k => operandOf g k b.toNat) l v ∧
        y = { x with regs := x.regs.set d.toNat v }) ∧
  ∀ (gb : Bool) (f : Scan) (d a : VReg) (s : State) (g : Group), OnPath s g →
    let act := actMask gb s
    InCounts g [a.toNat, d.toNat] [] → NotPending g act [a.toNat, d.toNat] [] →
    d.toNat < 120 → (act ≠ 0 → PortsFull g [a.toNat]) →
    ∃ t h, exec (.vscan gb f d a) s = .next t ∧ PathStep 0 (some 4) s t h ∧
      h = { g with fibres := h.fibres, ports := h.ports } ∧ PortsPopped g h [a.toNat] (act != 0) ∧
      LanesRelate g h act fun l x y => ∃ v, scanRule f act (fun k => operandOf g k a.toNat) l v ∧
        y = { x with regs := x.regs.set d.toNat v }

/-- VBAL gives every acting lane the mask of the acting lanes whose predicate is true, in a register pair (R383); VRED a
reduction over the acting lanes, of which the exact floating-point sum alone writes FPCTL (R95, R384). -/
def Obligations.BallotAndReduce : Prop :=
  (∀ (gb : Bool) (d : VReg) (p : PReg) (s : State) (g : Group), OnPath s g →
    let act := actMask gb s
    InCounts g [d.toNat, d.toNat + 1] [] → NotPending g act [d.toNat, d.toNat + 1] [] → d.toNat + 1 < 120 →
    ∃ t h, exec (.vbal gb d p) s = .next t ∧ PathStep 0 (some 4) s t h ∧ h = { g with fibres := h.fibres } ∧
      LanesRelate g h act fun _ x y => ∃ lo hi : Word,
        y = { x with regs := (x.regs.set d.toNat lo).set (d.toNat + 1) hi } ∧
        ∀ l, l < 64 → (if l < 32 then lo.getLsbD l else hi.getLsbD (l - 32)) =
          (inMask act l && getPred (getFibre g l) p.toNat)) ∧
  ∀ (gb : Bool) (f : Red) (d a : VReg) (s : State) (g : Group), OnPath s g →
    let act := actMask gb s
    InCounts g [a.toNat, d.toNat] [] → NotPending g act [a.toNat, d.toNat] [] →
    d.toNat < 120 → (act ≠ 0 → PortsFull g [a.toNat]) →
    ∃ t h, exec (.vred gb f d a) s = .next t ∧ PathStep 0 (some 4) s t h ∧
      h = { g with fibres := h.fibres, ports := h.ports } ∧ PortsPopped g h [a.toNat] (act != 0) ∧
      LanesRelate g h act fun _ x y => ∃ v fl, redRule f act (fun k => operandOf g k a.toNat) v fl ∧
        y = { x with regs := x.regs.set d.toNat v, fpctl := x.fpctl ||| fl }

/-! ## Control flow -/

/-- BRA sends the lanes that its predicate and its guard take to PC + 4 × off and the others to PC + 4; the uniform form
moves the whole path (R312). It trains the predictor (R220) and moves the catch-up point as R70 says. -/
def Obligations.Branches : Prop :=
  (∀ (gb : Bool) (p : PReg) (neg : Bool) (off : BitVec 16) (s : State) (g : Group), OnPath s g →
    ∃ t, exec (.braLane gb p neg off) s = .next t ∧
      BranchStep 0 s t g g (fun l => inMask (actMask gb s) l && (getPred (getFibre g l) p.toNat != neg))
        (fun _ => s.cur.pc + 4 * off.signExtend 32)) ∧
  ∀ (p : GPReg) (neg : Bool) (off : BitVec 20) (s : State) (g : Group), OnPath s g →
    ∃ t, exec (.braUniform p neg off) s = .next t ∧
      BranchStep 1 s t g g (fun _ => getGp g p.toNat != neg) (fun _ => s.cur.pc + 4 * off.signExtend 32)

/-- JMP and CALL go to the target in each acting lane's register, or in the uniform register, and CALL links PC + 4, its
target read first (R315, R343); a target that is not a multiple of 4 is MISALIGNED_PC of the lowest such lane. -/
def Obligations.JumpsAndCalls : Prop :=
  (∀ (gb : Bool) (d : Option VReg) (a : VReg) (s : State) (g : Group), OnPath s g → a.toNat < 120 →
    let act := actMask gb s
    let i : Instr := match d with | some d => .callLane gb d a | none => .jmpLane gb a
    let vs := a.toNat :: (d.map BitVec.toNat).toList
    let target := fun l => getReg (getFibre g l) a.toNat
    InCounts g vs [] → NotPending g act vs [] →
    ((∀ l, inMask act l = true → (target l).extractLsb' 0 2 = 0) →
      ∃ t g1, exec i s = .next t ∧ BranchStep 0 s t g g1 (inMask act) target ∧
        g1 = { g with fibres := g1.fibres } ∧
        LanesRelate g g1 act fun _ x y => y = match d with
          | some d => { x with regs := x.regs.set d.toNat (s.cur.pc + 4) }
          | none => x) ∧
    ∀ l, inMask act l = true → (target l).extractLsb' 0 2 ≠ 0 →
      (∀ k, k < l → inMask act k = true → (target k).extractLsb' 0 2 = 0) →
      TrapsTo (exec i s) s g 0x02 (target l).toNat l) ∧
  ∀ (d : Option GReg) (a : GReg) (s : State) (g : Group), OnPath s g →
    let i : Instr := match d with | some d => .callUniform d a | none => .jmpUniform a
    let us := a.toNat :: (d.map BitVec.toNat).toList
    let target := getU g a.toNat
    InCounts g [] us → NotPending g 0 [] us →
    (target.extractLsb' 0 2 = 0 →
      ∃ t g1, exec i s = .next t ∧ BranchStep 1 s t g g1 (fun _ => true) (fun _ => target) ∧
        g1 = match d with
          | some d => { g with uregs := g.uregs.set d.toNat (s.cur.pc + 4) }
          | none => g) ∧
    (target.extractLsb' 0 2 ≠ 0 → TrapsTo (exec i s) s g 0x02 target.toNat 0)

/-- A branch trains one entry of its sub-core's fetch predictor in its owner's bank, if it is resident, and its fetch port
loses the next 4 cycles when the predictor named another next PC (R220), which is the lowest of those that the path's lanes go to
(the model's choice where a branch leaves them at two; log 13); nothing else changes. -/
def Obligations.BranchTraining : Prop :=
  (∀ (m : LaneMask) (next : Nat → Word), m ≠ 0 → (∃ l, inMask m l = true ∧ portNext m next = next l) ∧
    ∀ l, inMask m l = true → portNext m next ≤ next l) ∧
  ∀ (taken : Option Word) (next : Word) (s : State) (g : Group), OnPath s g →
    let t := trainBranch taken next s
    let k := 256 * (s.cur.slot / 32) + s.cur.pc.toNat / 4 % 256
    let bank := fun (u : State) => (getCore u s.cur.core).banks.find? fun b => b.owner == g.place.owner
    SameBytes s t ∧ OtherGroups s t (curGid s) ∧ t = { s with groups := t.groups, cores := t.cores } ∧
    (bank s = none → t = s) ∧
    ∀ b, bank s = some b →
      let e := kvGetD b.fetch k 0
      bank t = some { b with fetch := kvSet b.fetch k (fetchStep e s.cur.pc taken) } ∧
      kvGet t.groups (curGid s) = some
        (if predictedPc e s.cur.pc = next then g
         else { g with sched := { g.sched with
           portHolds := kvSet g.sched.portHolds s.cur.port (s.dev.clock + 5) } })

/-- NOP only goes on (R355); YIELD clears the catch-up point and holds its path's next instruction for 16 cycles, and is a
NOP when no lane acts (R387). -/
def Obligations.NopAndYield : Prop :=
  ∀ (gb : Bool) (s : State) (g : Group), OnPath s g →
    (∃ t, exec (.nop gb) s = .next t ∧ PathStep 0 (some 4) s t g) ∧
    (actMask gb s = 0 → ∃ t, exec (.yield gb) s = .next t ∧ PathStep 0 (some 4) s t g) ∧
    (actMask gb s ≠ 0 → ∃ t, exec (.yield gb) s = .next t ∧ PathStep 0 (some 4) s t { g with sched := { g.sched with
      catchUp := none
      holds := { mask := s.cur.mask, until_ := s.dev.clock + 16, leaf := 6 } :: g.sched.holds } })

/-- EXIT removes the acting lanes from their group and from every declared mask, and the others go on (R31, R323); the
group of the last fibre retires and its ordered sequence ends (R29, R151); a handler ends with its last fibre (R248). -/
def Obligations.ExitRemovesLanes : Prop :=
  ∀ (gb : Bool) (s : State) (g : Group), OnPath s g →
    let act := actMask gb s
    let empty := ∀ e ∈ g.fibres, inMask act e.1 = true
    (act = 0 → ∃ t, exec (.exit gb) s = .next t ∧ PathStep 0 (some 4) s t g) ∧
    (act ≠ 0 → ∃ u h t, exec (.exit gb) s = .next t ∧ PathStep 0 none s u h ∧
      h = { g with fibres := h.fibres, left := h.left, leaving := h.leaving, cvs := h.cvs, st := h.st, ordEnded := h.ordEnded } ∧
      (h.fibres = (g.fibres.filter fun e => !inMask act e.1).map fun e =>
        (e.1, if inMask s.cur.mask e.1 then { e.2 with pc := e.2.pc + 4 } else e.2)) ∧
      (h.cvs = g.cvs.map fun c => { c with decl := c.decl &&& ~~~act }) ∧
      (empty → h.st = .retiring ∧ h.ordEnded = true) ∧ (¬ empty → h.st = g.st ∧ h.ordEnded = g.ordEnded) ∧
      let ends := ∃ k, g.trap.handler = some k ∧
        ∀ e ∈ g.fibres, inMask k.mask e.1 = true → inMask act e.1 = true
      (¬ ends → t = u) ∧ (ends → t = deliverHeld (curGid s)
        (modGroup u (curGid s) fun x => { x with trap := { x.trap with handler := none } })))

/-- RJSET rewrites the path's share of a declared mask (R76); RJWAIT signs with the admitted lanes, which become blocked,
and is CONV_MISMATCH while the register is signed at another PC (R77). -/
def Obligations.RejoinSetAndWait : Prop :=
  ∀ (gb : Bool) (cv : CvNum) (s : State) (g : Group), OnPath s g →
    let act := actMask gb s
    let c := getCv g cv.toNat
    (∃ u, exec (.rjset gb cv) s = .next u ∧ PathStep 0 (some 4) s u { g with
      cvs := g.cvs.set cv.toNat { c with decl := (c.decl &&& ~~~s.cur.mask) ||| act } }) ∧
    (c.tv = true → c.tag ++ 0#2 ≠ s.cur.pc →
      TrapsTo (exec (.rjwait gb cv) s) s g 0x07 0 (lowLane s.cur.mask)) ∧
    ((c.tv = true → c.tag ++ 0#2 = s.cur.pc) →
      ∃ u h, exec (.rjwait gb cv) s = .next u ∧ PathStep 0 none s u h ∧
        (let c' := if c.tv then c else { c with tag := s.cur.pc.extractLsb' 2 30, tv := true, eng := none }
         h = { g with fibres := h.fibres, cvs := g.cvs.set cv.toNat { c' with sign := c.sign ||| act } }) ∧
        LanesRelate g h s.cur.mask fun l x y =>
          y = if inMask act l then { x with st := .blocked (.rejoin cv.toNat) } else { x with pc := x.pc + 4 })

/-- A register that is being signed for a rejoin and whose declared lanes have all signed completes: the signers go on past
the RJWAIT, SIGN and TV become 0 and DECL keeps its value; one that has no signer, or lacks one, stays (R75, R78). -/
def Obligations.ConvergenceCompletes : Prop :=
  ∀ (gid n : Nat) (s : State) (g : Group), kvGet s.groups gid = some g → n < g.cvs.length →
    let c := getCv g n
    let declared := fun l => if n = 0 then kvGet g.fibres l ≠ none else inMask c.decl l = true
    let complete := c.sign ≠ 0 ∧ ∀ l, l < 64 → declared l → inMask c.sign l = true
    (¬ complete → completeCv gid n s = s) ∧
    (complete → c.eng = none → ∃ h, completeCv gid n s = setGroup s gid h ∧
      h = { g with fibres := h.fibres, cvs := g.cvs.set n { c with sign := 0, tv := false } } ∧
      LanesRelate g h c.sign fun _ x y => y = { x with st := .resident, pc := (c.tag ++ 0#2) + 4 })

/-! ## Traps -/

/-- R243: where the trap record holds what. -/
def Obligations.TrapRecordLayout : Prop :=
  ∀ (i : TrapInfo) (held : Bool) (depth top : Nat), i.code < 256 → i.detail < 256 → i.addr < 2 ^ 64 →
    i.progress < 2 ^ 32 → depth < 256 → top < 2 ^ 16 →
    ∃ w0 w2 w3 w4 w5 w6 w7 : Word, trapWords i held depth top = [w0, i.retPc, w2, w3, w4, w5, w6, w7] ∧
      (w0.extractLsb' 0 8).toNat = i.code ∧ w0.getLsbD 8 = held ∧ w0.getLsbD 9 = i.async ∧ w0.getLsbD 10 = i.nested ∧
      w0.extractLsb' 11 5 = 0 ∧ (w0.extractLsb' 16 8).toNat = i.detail ∧ w0.extractLsb' 24 8 = 0 ∧
      w3 ++ w2 = i.mask ∧ (w5 ++ w4).toNat = i.addr ∧ w6.toNat = i.progress ∧
      (w7.extractLsb' 0 16).toNat = top ∧ (w7.extractLsb' 16 8).toNat = depth ∧ w7.extractLsb' 24 8 = 0

/-- TRAP and BRK, when a lane acts, raise TRAP_INSN with the low eight bits of the code, or BREAK, after the instruction:
TRAPREC1 is PC + 4 (R244, R314, R381); when none acts they do nothing; in a domain that a debugger session holds the group
stops at PC + 4 instead (R286). -/
def Obligations.TrapInstructions : Prop :=
  ∀ (gb : Bool) (n : Option (BitVec 10)) (s : State) (g : Group), OnPath s g →
    let i : Instr := match n with | some n => .trap gb n | none => .brk gb
    let code := if n.isSome then 0x10 else 0x11
    let detail := match n with | some n => n.toNat % 256 | none => 0
    (actMask gb s = 0 → ∃ t, exec i s = .next t ∧ PathStep 0 (some 4) s t g) ∧
    (actMask gb s ≠ 0 → (getDom s g.place.dom).session = false → ∀ pc, HandlerTakes s g code pc →
      let info : TrapInfo := { code := code, detail := detail, progress := lowLane (actMask gb s),
                               retPc := s.cur.pc + 4, mask := s.cur.mask }
      ∃ u h t, PathStep 0 (some 4) s u g ∧ OnPath u h ∧ exec i s = .next t ∧ TrapEntry u t h info pc) ∧
    (actMask gb s ≠ 0 → (getDom s g.place.dom).session = true →
      ∃ u, exec i s = .next (stopGroup (curGid s) (s.cur.pc + 4) u) ∧ PathStep 0 (some 4) s u g)

/-- A trap that no handler may take stops its context (R246, R249, R251): the first fault is recorded, every group of the
context is HALTED, and the context joins those to be drained. A trap of a running handler is NESTED, and the words of the
group's trap record stay (R243). Said of TRAP. -/
def Obligations.FatalTrapHaltsContext : Prop :=
  ∀ (n : BitVec 10) (s : State) (g : Group) (c : Ctx), OnPath s g → kvGet s.ctxs g.place.owner = some c →
    c.fatal = none → g.st ≠ .suspended → g.trap.pageFault = none → s.cur.mask ≠ 0 → (getDom s g.place.dom).session = false →
    (∀ k, g.trap.handler = some k → k.mask = s.cur.mask) →
    (g.trap.handler = none → ∀ e, (getDom s g.place.dom).handlers[0x10]? = some e → e.getLsbD 0 = false) →
    let info : TrapInfo := { code := 0x10, detail := n.toNat % 256, nested := g.trap.handler.isSome,
                             progress := lowLane s.cur.mask, retPc := s.cur.pc + 4, mask := s.cur.mask }
    ∃ t h d f, exec (.trap false n) s = .next t ∧ SameBytes s t ∧ kvGet t.groups (curGid s) = some h ∧
      kvGet t.ctxs g.place.owner = some d ∧ d.fatal = some f ∧ t.dumpQ = s.dumpQ ++ [g.place.owner] ∧
      (∀ k x, kvGet s.groups k = some x → x.place.owner = g.place.owner →
        ∃ y, kvGet t.groups k = some y ∧ y.halted = true) ∧
      (∀ k x, kvGet s.groups k = some x → x.place.owner ≠ g.place.owner → kvGet t.groups k = some x) ∧
      f.step = .halted ∧ f.clock = s.dev.clock ∧ f.group = g.place.num ∧ f.depth = g.depth ∧
      f.recWords = trapWords info (!g.trap.held.isEmpty) g.depth (topRegion g) ∧
      h.trap.words = if g.trap.handler.isSome then g.trap.words else f.recWords

/-- TRET sends every fibre of the trapped path to TRAPREC1 and ends the handler (R250), and an STCMP that trapped resumes at
the element that TRAPREC6 holds (R154); a held trap is then delivered (R82). Outside a handler it is ILLEGAL_OP, and a
TRAPREC1 that is not a multiple of 4 changes nothing but the fatal MISALIGNED_PC. -/
def Obligations.ReturnFromTrap : Prop :=
  ∀ (s : State) (g : Group), OnPath s g →
    let pc := g.trap.words.getD 1 0
    (∀ k, g.trap.handler = some k → pc.extractLsb' 0 2 = 0 →
      let resume : StcmpAt := { pc := pc, mask := k.mask, elt := (g.trap.words.getD 6 0).toNat }
      ∃ v x h, PathStep 1 none s v g ∧ OnPath v x ∧
        (let u := setCurGroup v h
         exec .tret s = .next (deliverHeld (curGid s) u) ∧ (g.trap.held = [] → deliverHeld (curGid s) u = u)) ∧
        h = { x with fibres := h.fibres, trap := { x.trap with handler := none, stcmpAt := h.trap.stcmpAt } } ∧
        (h.trap.stcmpAt = if k.stcmp = true ∧ pc = k.faultPc then
          resume :: x.trap.stcmpAt.filter (fun r => !overlaps r.mask k.mask) else x.trap.stcmpAt) ∧
        LanesRelate x h k.mask fun _ y z => z = { y with pc := pc }) ∧
    (∀ k c, g.trap.handler = some k → pc.extractLsb' 0 2 ≠ 0 → overlaps k.mask s.cur.mask = true → g.trap.pageFault = none →
      kvGet s.ctxs g.place.owner = some c → c.fatal = none →
      let info := { preciseInfo s 0x02 pc.toNat 0 with nested := true }
      ∃ t d f, exec .tret s = .next t ∧ SameBytes s t ∧
        kvGet t.groups (curGid s) = some { g with halted := true, sched := { g.sched with stopPending := false } } ∧
        kvGet t.ctxs g.place.owner = some d ∧ d.fatal = some f ∧ f.step = .halted ∧
        f.recWords = trapWords info (!g.trap.held.isEmpty) g.depth (topRegion g)) ∧
    (g.trap.handler = none → TrapsTo (exec .tret s) s g 0x01 0 0)

/-- Words that no encoding matches raise ILLEGAL_OP, precise, and a fetch that fails raises PERMISSION with the code
address, or suspends the group for PAGE_ABSENT and asks the host runtime (R57, R58, R245, R312). An instruction that traps does
not issue. Which lane the record names when word 0 could not be fetched is the model's choice (log 13). -/
def Obligations.UnfetchableWordsTrap : Prop :=
  ∀ (s : State) (g : Group), OnPath s g →
    -- PROGRESS: 0 for the word of a uniform or engine instruction
    let lane := match fetchWord s s.cur.pc.toNat with
      | .ok w => if w.getLsbD 31 then 0 else lowLane s.cur.mask
      | .error _ => lowLane s.cur.mask
    TrapsTo (exec .illegalOp s) s g 0x01 0 lane ∧
    let at_ := codeVa s g.place.owner (match fetchWord s s.cur.pc.toNat with
      | .ok _ => s.cur.pc.toNat + 4
      | .error _ => s.cur.pc.toNat)
    TrapsTo (exec (.instructionFetchFault .permission) s) s g 0x05 at_ lane ∧
    (g.trap.handler = none → g.st ≠ .suspended → (getCtx s g.place.owner).fatal = none →
      exec (.instructionFetchFault .pageAbsent) s = .next (postEvent g.place.dom g.place.owner 0x03 (at_ % 2 ^ 52)
        (setCurGroup s { g with st := .suspended, trap := { g.trap with pageFault := some (preciseInfo s 0x04 at_ lane) } })))

/-- R59 steps 2 and 3: a register number at or above the kernel's count is ILLEGAL_OP, and then a pending register is
UNWAITED_USE of the lowest acting lane that has it; neither has any other effect. Said of every lane integer form. -/
def Obligations.RegisterChecks : Prop :=
  ∀ (i : Instr) (F : LaneForm) (s : State) (g : Group), laneIntForm i = some F → OnPath s g →
    let act := actMask F.g s
    let vs := F.srcs.map BitVec.toNat ++ [F.d.toNat]
    (¬ InCounts g vs [] → TrapsTo (exec i s) s g 0x01 0 (lowLane s.cur.mask)) ∧
    ∀ l, InCounts g vs [] → inMask act l = true → (∃ r ∈ vs, r < 120 ∧ (getFibre g l).pend.getLsbD r = true) →
      (∀ k, k < l → inMask act k = true → ∀ r ∈ vs, r < 120 → (getFibre g k).pend.getLsbD r = false) →
      TrapsTo (exec i s) s g 0x06 0 l

/-! ## Regions, spawning and special registers -/

/-- ENTER pushes an id and LEAVE pops it (R284): a region edge is traced, and a stop that waits takes effect (R286); with
neither, only the group's stack and PC change. REGION_MISMATCH at depth 255, at depth 0, and on another id at depth 16
or less. -/
def Obligations.RegionStack : Prop :=
  ∀ (id : BitVec 16) (s : State) (g : Group), OnPath s g →
    let edge := fun (kind : Nat) (u : State) =>
      stopIfPending (curGid s) (s.cur.pc + 4) (traceRecord (curGid s) 0 kind id.toNat s.cur.pc u)
    let bad := g.depth = 0 ∨ (g.depth ≤ 16 ∧ regionAt g (g.depth - 1) ≠ id.toNat)
    (g.depth = 255 → TrapsTo (exec (.enter id) s) s g 0x0F 0 0) ∧
    let pushed := if g.depth < 16 then g.regions.take g.depth ++ [id.toNat] else g.regions
    (g.depth ≠ 255 → ∃ u, exec (.enter id) s = .next (edge 0 u) ∧
      PathStep 1 (some 4) s u { g with regions := pushed, depth := g.depth + 1 } ∧
      ((getDom s g.place.dom).trace = none → g.sched.stopPending = false → edge 0 u = u)) ∧
    (bad → TrapsTo (exec (.leave id) s) s g 0x0F 0 0) ∧
    (¬ bad → ∃ u, exec (.leave id) s = .next (edge 1 u) ∧ PathStep 1 (some 4) s u { g with depth := g.depth - 1 } ∧
      ((getDom s g.place.dom).trace = none → g.sched.stopPending = false → edge 1 u = u))

/-- SPAWN makes one fibre for each acting lane, in ascending lane order, each with the fields of R20, and each arrives at
the bins of the core as R21 to R23 say (R372); a misaligned entry address is MISALIGNED_PC of the lowest such lane, and
no fibre is created. -/
def Obligations.SpawnMakesFibres : Prop :=
  ∀ (gb : Bool) (a b : VReg) (n : BitVec 3) (s : State) (g : Group), OnPath s g →
    let act := actMask gb s
    let vs := a.toNat :: (List.range (n.toNat + 1)).map (b.toNat + ·)
    let target := fun l => getReg (getFibre g l) a.toNat
    InCounts g vs [] → NotPending g act vs [] →
    ((∀ l, inMask act l = true → (target l).extractLsb' 0 2 = 0) →
      (act ≠ 0 → 4096 ≤ ovfFree s g.place.owner) →
      (∀ o ∈ g.ops, o.cls = .ld ∨ o.cls = .st → o.done = true ∨ heldOp s g o = true ∨ overlaps o.act act = false) →
      ∃ t u, ∃ fs : List NewFibre, exec (.spawn gb a b n) s = .next t ∧ PathStep 2 (some 4) u t (curGroup u) ∧
        u = fs.foldl (fun u f => (arriveFibre s.cur.core g.place.owner f s.cur.pc g.place.hdr.entry.toNat u).2) s ∧
        fs.length = (lanesOf act).length ∧
        ∀ (k l : Nat) (f : NewFibre), (lanesOf act)[k]? = some l → fs[k]? = some f → SpawnedBy g l a.toNat b.toNat (n.toNat + 1) f) ∧
    ∀ l, inMask act l = true → (target l).extractLsb' 0 2 ≠ 0 →
      (∀ k, k < l → inMask act k = true → (target k).extractLsb' 0 2 = 0) →
      TrapsTo (exec (.spawn gb a b n) s) s g 0x02 (target l).toNat l

/-- SREAD gives the special registers of R36: each lane its own value of a register held per fibre, a uniform destination
that of the path's lowest lane, a 64-bit register in a pair, and CLOCKLO captures CLOCKHI (R373). -/
def Obligations.SpecialRegisterRead : Prop :=
  ∀ (lane : Bool) (d : GReg) (n : BitVec 6) (s : State) (g : Group), OnPath s g →
    let k := if n = 0x04 ∨ n = 0x0F then 2 else 1
    let ds := (List.range k).map (d.toNat + ·)
    let per := n = 0x00 ∨ n = 0x01 ∨ n = 0x03 ∨ n = 0x0E
    let src := fun l => if per then l else lowLane s.cur.mask
    let hi := if n = 0x0C then BitVec.ofNat 32 (s.dev.clock / 2 ^ 32) else g.clockHi
    InCounts g (if lane then ds else []) (if lane then [] else ds) →
    NotPending g s.cur.mask (if lane then ds else []) (if lane then [] else ds) →
    ∃ t h, exec (.sread lane d n) s = .next t ∧ PathStep 1 (some 4) s t h ∧
      if lane then h = { g with fibres := h.fibres, clockHi := hi } ∧
          LanesRelate g h s.cur.mask fun l x y =>
            y = { x with regs := putWords x.regs d.toNat (specialWords s g (src l) n.toNat) }
        else h = { g with uregs := putWords g.uregs d.toNat (specialWords s g (lowLane s.cur.mask) n.toNat), clockHi := hi }

/-- SWRITE writes FPCTL of each lane of its path, [31:7] ignored; PFDIST, saturated to 1 to 15, in the owner's bank of the core,
which is then the bank used last (R213); and a trap record word, whose reserved bits stay 0 (R36, R243, R373). A lane source gives FPCTL each lane's own value and the
others the lowest lane's. -/
def Obligations.SpecialRegisterWrite : Prop :=
  ∀ (lane : Bool) (a : GReg) (s : State) (g : Group), OnPath s g →
    let val := fun l => if lane then getReg (getFibre g l) a.toNat else getU g a.toNat
    let v := val (lowLane s.cur.mask)
    InCounts g (if lane then [a.toNat] else []) (if lane then [] else [a.toNat]) →
    NotPending g s.cur.mask (if lane then [a.toNat] else []) (if lane then [] else [a.toNat]) →
    (∃ t h, exec (.swrite lane a 0x0E) s = .next t ∧ PathStep 1 (some 4) s t h ∧ h = { g with fibres := h.fibres } ∧
      LanesRelate g h s.cur.mask fun l x y => y = { x with fpctl := val l &&& 0x7F }) ∧
    (∃ t u, exec (.swrite lane a 0x10) s = .next t ∧ PathStep 1 (some 4) u t g ∧ u = { s with cores := u.cores } ∧
      (∀ c, c ≠ s.cur.core → kvGet u.cores c = kvGet s.cores c) ∧
      let dist := if v.toInt < 1 then 1 else if 15 < v.toInt then 15 else v.toInt.toNat
      let banks := (getCore s s.cur.core).banks
      getCore u s.cur.core = { getCore s s.cur.core with
        banks := ((banks.filter fun b => b.owner == g.place.owner).map fun b => { b with pfdist := dist })
          ++ banks.filter fun b => b.owner != g.place.owner }) ∧
    -- the reserved bits of TRAPREC0 and TRAPREC7 stay 0 (R8, R243)
    ∀ k, k < 8 → let kept : Word := if k = 0 then 0x00FF07FF else if k = 7 then 0x00FFFFFF else 0xFFFFFFFF
      ∃ t, exec (.swrite lane a (BitVec.ofNat 6 (0x18 + k))) s = .next t ∧
        PathStep 1 (some 4) s t { g with trap := { g.trap with words := g.trap.words.set k (v &&& kept) } }

/-- SWRITE of QBIND binds one port of the group and empties it, and the FIFO of a peer link that it ends or makes (R37); a
kind above 4, a direction without a peer, a reserved bit, or a peer that is the group itself or not a resident group of
its team is QUEUE_MISUSE. -/
def Obligations.QueueBinding : Prop :=
  ∀ (lane : Bool) (a : GReg) (s : State) (g : Group), OnPath s g → g.ports.length = 8 →
    InCounts g (if lane then [a.toNat] else []) (if lane then [] else [a.toNat]) →
    NotPending g s.cur.mask (if lane then [a.toNat] else []) (if lane then [] else [a.toNat]) →
    let v := if lane then getReg (getFibre g (lowLane s.cur.mask)) a.toNat else getU g a.toNat
    let port := (v.extractLsb' 29 3).toNat
    let kind := (v.extractLsb' 26 3).toNat
    let peer := (v.extractLsb' 20 6).toNat
    let peerPort := (v.extractLsb' 17 3).toNat
    let old := getPort g port
    let bad := 5 ≤ kind ∨ (kind ≠ 4 ∧ v.getLsbD 16 = true) ∨ v.extractLsb' 0 16 ≠ 0 ∨
      (kind = 4 ∧ (peer = g.place.num ∨ groupOfTeam s g.place.team peer = none))
    (bad → TrapsTo (exec (.swrite lane a 0x11) s) s g 0x0E 0 0) ∧
    (¬ bad → ∃ t u h, exec (.swrite lane a 0x11) s = .next t ∧ PathStep 1 (some 4) u t h ∧
      u = { s with groups := u.groups } ∧ kvGet u.groups (curGid s) = some h ∧
      h = { g with ports := h.ports, ops := g.ops.map fun o => if o.kind = .ldq port then { o with kind := .ldq 8 } else o } ∧
      getPort h port = { kind := kind, peerGrp := peer, peerPort := peerPort, recv := v.getLsbD 16 } ∧
      ∀ k x, kvGet s.groups k = some x → ∃ y, kvGet u.groups k = some y ∧ (k ≠ curGid s → y = { x with ports := y.ports }) ∧
        ∀ p, (k = curGid s → p ≠ port) → getPort y p = getPort x p ∨
          (getPort y p = { getPort x p with fifo := [] } ∧
            ((portWritable old = true ∧ linkOf s g old port = some k ∧ p = old.peerPort) ∨
             (kind = 4 ∧ v.getLsbD 16 = false ∧ p = peerPort))))

/-! ## Memory instructions -/

/-- LD, ST, LDQ, ATOM, RED, HLD and HST, lane and uniform, issue when `MemReady` holds, with what `MemIssues` says: one access
per acting lane, at the lane's address, is outstanding (R307, R334, R345, R346, R347, R362, R375), and no byte of memory
changes before it is performed. -/
def Obligations.MemoryOperationsIssue : Prop :=
  ∀ (i : Instr) (F : MemForm) (s : State) (g : Group), memForm i = some F → OnPath s g →
    InCounts g (memRegs F).1 (memRegs F).2 → NotPending g (memMask F s) (memRegs F).1 (memRegs F).2 →
    MemReady F s g → ∃ t, exec i s = .next t ∧ MemIssues F s t g ∧ SameBytes s t

/-- An LDQ whose port is not bound to loads is QUEUE_MISUSE, and waits while no entry is free (R37, R347). A memory
instruction waits while its counter is at 63 (R132). Then the lowest acting lane whose access has no place traps with its
cause and address, and no lane's access issues (R118); with none, an ordered one is ORDER_VIOLATION where R149 says so, and
a value-returning atomic of a twin copy to global memory is TWIN_ATOMIC (R281). -/
def Obligations.MemoryFaults : Prop :=
  ∀ (i : Instr) (F : MemForm) (s : State) (g : Group), memForm i = some F → OnPath s g →
    InCounts g (memRegs F).1 (memRegs F).2 → NotPending g (memMask F s) (memRegs F).1 (memRegs F).2 →
    let lane := fun l => if F.unif then 0 else l
    let places := ∀ l ∈ memLanes F s, ∃ x, F.place s g l = .ok x
    let ordered := F.ord = true ∧ memLanes F s ≠ [] ∧ ordBad s g = true
    let waits := fun leaf => exec i s = .next (stalledAt leaf s g)
    (¬ portBound F s g → TrapsTo (exec i s) s g 0x0E 0 (lowLane (memMask F s))) ∧
    (portBound F s g → ¬ portRoom F s g → waits 13) ∧
    (portBound F s g → portRoom F s g → 63 ≤ counter g F.cls → waits (if F.cls = .ld then 7 else 8)) ∧
    (portBound F s g → portRoom F s g → counter g F.cls < 63 →
      (∀ l c a, l ∈ memLanes F s → F.place s g l = .error (c, a) →
        (∀ k ∈ memLanes F s, k < l → ∃ x, F.place s g k = .ok x) → TrapsTo (exec i s) s g c a (lane l)) ∧
      (places → ordered → TrapsTo (exec i s) s g 0x1C 0 (if F.unif then 0 else lowLane (memMask F s))) ∧
      ∀ l op wide, places → ¬ ordered → F.cls = .ld → F.kind = .atomic op wide true → twinCopy s g = true →
        l ∈ memLanes F s → isGlobal (memAcc F s g l) = true →
        (∀ k ∈ memLanes F s, k < l → isGlobal (memAcc F s g k) = false) → TrapsTo (exec i s) s g 0x18 0 (lane l))

/-- CPA counts on CP one copy of 4, 8 or 16 bytes for each acting lane, and captures its barrier's generation (R144, R318);
the first fault of the lowest faulting lane is precise, and then that of its handle (R138). -/
def Obligations.CopiesIssue : Prop :=
  ∀ (gb : Bool) (sz : Size) (nb : Bool) (d a : VReg) (h : BitVec 9) (s : State) (g : Group), OnPath s g →
    let act := actMask gb s
    let n := sizeBytes sz
    let vs := [a.toNat, a.toNat + 1, d.toNat]
    let us := if nb then [] else [h.toNat]
    let src := fun l => (getRegPair (getFibre g l) a.toNat).toNat
    let dst := fun l => (getReg (getFibre g l) d.toNat).toNat
    let fault := fun l =>
      if src l % n ≠ 0 then some (0x03, src l) else if dst l % n ≠ 0 then some (0x03, dst l)
      else if 2 ^ 52 ≤ src l ∨ localOffset (src l) ≠ none then some (0x05, src l)
      else if localOk g (dst l) n = false then some (0x05, dst l) else none
    let handle := if nb = true ∨ act = 0 then .ok none else
      (captureBar s g (getU g h.toNat).toNat).map some
    let accs := (lanesOf act).map fun l =>
      ({ lane := l, loc := .glob (src l) 0 0, va := src l, len := n, dst := some (dst l) } : Acc)
    InCounts g vs us → NotPending g act vs us → counter g .cp < 63 →
    (∀ l c v, inMask act l = true → fault l = some (c, v) → (∀ k, k < l → inMask act k = true → fault k = none) →
      TrapsTo (exec (.cpa gb sz nb d a h) s) s g c v l) ∧
    ((∀ l, inMask act l = true → fault l = none) →
      (∀ c v, handle = .error (c, v) → TrapsTo (exec (.cpa gb sz nb d a h) s) s g c v (lowLane act)) ∧
      ∀ cap, handle = .ok cap → outstanding s s.cur.core + (linesOf accs).length ≤ 2048 →
        let o : Op := { seq := g.opSeq, cls := .cp, kind := .copy cap, pc := s.cur.pc, mask := s.cur.mask, act := act,
                        accs := accs, seen := g.twin.length, done := act == 0 }
        ∃ t, exec (.cpa gb sz nb d a h) s = .next t ∧ SameBytes s t ∧
          MemStep 8 s t (prune { g with ops := g.ops ++ [o], opSeq := g.opSeq + 1 }) fun _ => [])

/-- AMSEND sends one message for each acting lane, in ascending lane order, with the fields of R192 and R193, and counts
on ST; a copy of a twin-checked team stages them (R281). A target word that R193 refuses is PERMISSION of the lowest such
lane, and no lane sends. RTRET sends each lane's address and token, once the row can be read (R367). -/
def Obligations.MessagesIssue : Prop :=
  (∀ (gb rel sys addr : Bool) (a b c : VReg) (s : State) (g : Group), OnPath s g →
    let act := actMask gb s
    let vs := [a.toNat] ++ (if addr then [b.toNat, b.toNat + 1] else []) ++ (List.range 8).map (c.toNat + ·)
    let target := fun l => getReg (getFibre g l) a.toNat
    let dev := fun l => ((target l).extractLsb' 20 12).toNat
    let clu := fun l => ((target l).extractLsb' 14 6).toNat
    let bad := fun l => (target l).extractLsb' 8 6 ≠ 0 ∨
      (dev l ≠ s.dev.num.toNat ∧ (sys = false ∨ ∀ k p, (k, p) ∈ s.net.peers → p.dev.toNat ≠ dev l)) ∨
      (dev l = s.dev.num.toNat ∧ s.dev.clusterMask.getLsbD (clu l) = false)
    let msgs := (lanesOf act).map fun l => ({
      gid := some (curGid s), seq := g.opSeq, lane := l, sender := some (curGid s), src := some (s.cur.core / 4),
      pc := s.cur.pc, entry := g.place.hdr.entry.toNat, dom := g.place.dom, owner := g.place.owner,
      launch := (getFibre g l).launch, dev := dev l, clu := clu l, hid := ((target l).extractLsb' 0 8).toNat,
      payload := (List.range 8).map fun i => getReg (getFibre g l) (c.toNat + i),
      addr := if addr then some (getRegPair (getFibre g l) b.toNat).toNat else none,
      acq := if rel then (if sys then 5 else 4) else 0 } : Msg)
    InCounts g vs [] → NotPending g act vs [] → counter g .st < 63 →
    (∀ l, inMask act l = true → bad l → (∀ k, k < l → inMask act k = true → ¬ bad k) →
      TrapsTo (exec (.amsend gb rel sys addr a b c) s) s g 0x05 0 l) ∧
    let twin := twinCopy s g
    let staged := if twin then streamElems (msgs.map msgItem) else 0
    ((∀ l, inMask act l = true → ¬ bad l) → BufferRoom staged s →
      let o : Op := {
        seq := g.opSeq, cls := .st, kind := .msg, pc := s.cur.pc, mask := s.cur.mask, act := act,
        order := if rel then .rel else .none, scope := if sys then .sys else .dev,
        accs := if twin then [] else (lanesOf act).map fun l => { lane := l, loc := .loc g.place.team 0, va := 0, len := 0 },
        seen := g.twin.length, done := act == 0 || twin }
      let s' := if twin then buffered staged s g else { s with am := { s.am with msgs := s.am.msgs ++ msgs } }
      let h := prune { g with ops := g.ops ++ [o], opSeq := g.opSeq + 1 }
      ∃ t, exec (.amsend gb rel sys addr a b c) s = .next t ∧ SameBytes s t ∧
        MemStep 8 s' t (if twin then { h with twin := g.twin ++ msgs.map msgItem } else h) fun _ => [])) ∧
  ∀ (gb rel : Bool) (a b : VReg) (s : State) (g : Group), OnPath s g →
    let act := actMask gb s
    let vs := [a.toNat, a.toNat + 1, b.toNat]
    let va := fun l => (getRegPair (getFibre g l) a.toNat).toNat
    let token := fun l => getReg (getFibre g l) b.toNat
    let place : Nat → Except (Nat × Nat) Loc := fun l => if va l % 16 ≠ 0 then .error (0x03, va l) else
      match placeOf s s.cur.core g (va l) 16 .load with
      | .error c => .error (c, va l)
      | .ok (.loc _ _) => .error (0x05, va l)
      | .ok (.glob pa home hcore) => .ok (.glob pa home hcore)
    let locOf := fun l => match place l with | .ok x => x | .error _ => .loc 0 0
    InCounts g vs [] → NotPending g act vs [] → counter g .st < 63 →
    (∀ l c v, inMask act l = true → place l = .error (c, v) →
      (∀ k, k < l → inMask act k = true → ∃ x, place k = .ok x) → TrapsTo (exec (.rtret gb rel a b) s) s g c v l) ∧
    ((∀ l, inMask act l = true → ∃ x, place l = .ok x) →
      let o : Op := {
        seq := g.opSeq, cls := .st, kind := .msg, pc := s.cur.pc, mask := s.cur.mask, act := act,
        order := if rel then .rel else .none, scope := .dev,
        accs := (lanesOf act).map fun l => { lane := l, loc := locOf l, va := va l, len := 0 }, seen := g.twin.length,
        done := act == 0 }
      let rets := (lanesOf act).map fun l => ({
        tag := { core := ((token l).extractLsb' 24 8).toNat, ent := ((token l).extractLsb' 20 4).toNat,
                 gen := ((token l).extractLsb' 0 13).toNat, row := ((token l).extractLsb' 15 5).toNat,
                 pair := ((token l).extractLsb' 13 2).toNat },
        dom := g.place.dom, gid := curGid s, seq := g.opSeq, lane := l, va := va l, loc := locOf l, pc := s.cur.pc,
        entry := g.place.hdr.entry.toNat } : Ret)
      ∃ t, exec (.rtret gb rel a b) s = .next t ∧ SameBytes s t ∧
        MemStep 8 { s with am := { s.am with rets := s.am.rets ++ rets } } t
          (prune { g with ops := g.ops ++ [o], opSeq := g.opSeq + 1 }) fun _ => [])

/-- PREF sends a prefetch for each distinct line that an acting lane names, in ascending address, into the L1 or, with
.clu, into the home slice only; lines in the local window or past 2^52 − 1 are dropped. It changes no register, no memory
and no counter, and never faults (R361). -/
def Obligations.PrefetchesNothingElse : Prop :=
  ∀ (gb : Bool) (sc : Scope) (base : VReg) (off : BitVec 3) (s : State) (g : Group), OnPath s g →
    let act := actMask gb s
    let vs := [base.toNat, base.toNat + 1]
    let va := laneVa g base.toNat (off.toNat * 4)
    let who : Who := { core := s.cur.core, owner := g.place.owner, pc := s.cur.pc, entry := g.place.hdr.entry.toNat }
    InCounts g vs [] → NotPending g act vs [] →
    ∃ t u, ∃ lines : List Nat, exec (.pref gb sc base off) s = .next t ∧ PathStep 2 (some 4) u t g ∧ SameBytes s t ∧
      Serves s u (fun _ => []) ∧ u.groups = s.groups ∧ lines.Pairwise (· < ·) ∧
      (∀ x, x ∈ lines ↔ ∃ l, inMask act l = true ∧ va l < 2 ^ 52 ∧ localOffset (va l) = none ∧ x = va l / 128 * 128) ∧
      u = lines.foldl (fun s x => if sc = .clu then prefetchSlice who x s else prefetchCore who x s) s

/-- STCMP (R154, R376): element k, the k-th selected lane in ascending order, goes to base + k × n; the elements from the
one that the path resumes at are outstanding, counted on ST, and no byte changes before they are performed. The base must
be aligned. Where element m has no place, those below it are performed (`performLanes`), and its fault is raised with
TRAPREC6 = m, the instruction not having issued; it waits while an earlier operation blocks one of them. -/
def Obligations.StoreCompact : Prop :=
  ∀ (gb wide : Bool) (o : Order) (sc : Scope) (ord neg : Bool) (a b : VReg) (p : PReg) (s : State) (g : Group),
    OnPath s g →
    let i := Instr.stcmp gb wide o sc ord neg a b p
    let act := actMask gb s
    let n := if wide then 8 else 4
    let vs := [a.toNat, a.toNat + 1] ++ (List.range (n / 4)).map (b.toNat + ·)
    let sel := (lanesOf act).filter fun l => getPred (getFibre g l) p.toNat != neg
    let base := (getRegPair (getFibre g (lowLane act)) a.toNat).toNat
    let first := match g.trap.stcmpAt.find? fun r => r.pc == s.cur.pc && r.mask == s.cur.mask with
      | some r => r.elt
      | none => 0
    let place := fun k => placeAt .store n (base + k * n) s g
    let elts := fun m => ((List.range m).filter fun k => decide (first ≤ k)).map fun k =>
      ({ lane := sel.getD k 0, loc := placeLoc (place k), va := base + k * n, len := n,
         data := laneBytes b.toNat (n / 4) n g (sel.getD k 0) } : Acc)
    let kept := fun m => if twinCopy s g then (elts m).filter fun q => !isGlobal q else elts m
    let items := fun m => if twinCopy s g then ((elts m).filter isGlobal).map fun q =>
      ({ addr := q.va, mask := 2 ^ q.len - 1, data := q.data, loc := q.loc } : TwinItem) else []
    let waits := ord && !windowOpen s g
    let op := fun m ghost => ({
      seq := g.opSeq, cls := .st, kind := .stcmp n, pc := s.cur.pc, mask := s.cur.mask, act := act, order := o, scope := sc,
      accs := if waits then (kept m).map fun q => { q with queued := true } else kept m
      ord := ord, seen := (g.twin ++ items m).length, ghost := ghost, done := act == 0 || (kept m).isEmpty } : Op)
    let grp := fun m ghost => prune { g with
      twin := g.twin ++ items m, ops := g.ops ++ [op m ghost], opSeq := g.opSeq + 1 }
    let staged := fun m => streamElems (items m) + if waits then (kept m).length else 0
    let room := fun m => (waits = true ∨ outstanding s s.cur.core + (linesOf (elts m)).length ≤ 2048) ∧
      BufferRoom (staged m) s
    InCounts g vs [] → NotPending g act vs [] → counter g .st < 63 →
    (act ≠ 0 → base % n ≠ 0 → TrapsTo (exec i s) s g 0x03 base 0) ∧
    (act ≠ 0 → base % n = 0 → ord = true → ordBad s g = true → TrapsTo (exec i s) s g 0x1C 0 0) ∧
    (act = 0 ∨ (base % n = 0 ∧ (ord = true → ordBad s g = false)) →
      ((∀ k, first ≤ k → k < sel.length → ∃ x, place k = .ok x) → room sel.length →
        ∃ t, exec i s = .next t ∧ SameBytes s t ∧
          MemStep 8 (buffered (staged sel.length) s g) t (grp sel.length false) fun _ => []) ∧
      ∀ m c v, first ≤ m → m < sel.length → place m = .error (c, v) → (∀ k, first ≤ k → k < m → ∃ x, place k = .ok x) →
        room m →
        let ready := ord = true ∨ ∀ q ∈ elts m, ∀ x ∈ g.ops, x.done = true ∨
          blocks s (curGid s) g x { op m false with accs := elts m } q = false
        (¬ ready → exec i s = .next (stalledAt 8 s g)) ∧
        (ready → holdsTrap s = false → ∃ v1 u gu, Serves (buffered (staged m) s g) v1 (fun _ => []) ∧ kvGet v1.groups (curGid s) = some (grp m true) ∧
          OtherGroups s v1 (curGid s) ∧ u = (if ord then v1 else performLanes (curGid s) g.opSeq act v1) ∧
          gu = getGroup u (curGid s) ∧
          (OnPath u gu → u.cur = s.cur → ∀ pc, HandlerTakes u gu c pc → ∃ t, exec i s = .next t ∧
            TrapEntry u t gu { preciseInfo s c v m with stcmp := true } pc)))

/-- FENCE holds its path while operations that it orders are outstanding, ordered ones that their window holds apart (R330); then,
at cluster scope or wider, a release cleans the L1 of the core, with its dirty bytes written back, and an acquire writes back
and invalidates the lines of cached pages (R120, R131); a release of a twin copy that is wider than its team waits for the
commit (R281). WAIT holds while a counter is above its field; it clears the pending bits of the operations that it
covers, and delivers the oldest error (R386). ORDREL ends the group's ordered sequence (R356). -/
def Obligations.OrderingInstructions : Prop :=
  (∀ (o : Order) (sc : Scope) (s : State) (g : Group), OnPath s g →
    let acq := o = .acq ∨ o = .ar
    let rel := o = .rel ∨ o = .ar
    let mine := fun (c : OpCls) (p : Op) =>
      p ∈ g.ops ∧ p.cls = c ∧ p.done = false ∧ heldOp s g p = false ∧ overlaps (opFibres p) s.cur.mask = true
    let atom := fun (p : Op) => ∃ op w ret, p.kind = .atomic op w ret
    let ld := ∃ p, mine .ld p ∧ (acq ∨ (rel ∧ isWriter p = true))
    let st := ∃ p, mine .st p ∧ ((acq ∧ atom p) ∨ (rel ∧ isWriter p = true))
    let waits := fun leaf => exec (.fence o sc) s = .next (stalledAt leaf s g)
    let scope := effScope s g sc
    let cleans := rel ∧ 3 ≤ (if twinCopy s g then min scope (effScope s g .team) else scope)
    let drops := acq ∧ 3 ≤ scope
    let lines := (getCore s s.cur.core).l1
    let written := fun (a : Nat) (v : Byte) => ∃ e ∈ lines, (cleans ∨ (drops ∧ cachedHome e.2.home = true)) ∧
      ∃ k, k < 128 ∧ e.2.dirty.getLsbD k = true ∧ a = e.2.pa + k ∧ v = e.2.data.extractLsb' (8 * k) 8
    (ld → waits 7) ∧ (¬ ld → st → waits 8) ∧
    (¬ ld → ¬ st → MemOk s → (∀ e ∈ lines, e.2.dirty ≠ 0 → e.2.pa ∉ s.ecc) →
      ∃ u t h, exec (.fence o sc) s = .next t ∧ PathStep 1 (some 4) u t h ∧
        u = { s with mem := u.mem, cores := u.cores } ∧
        (rel → h = prune { g with fences := (s.cur.mask, g.opSeq) :: g.fences }) ∧ (¬ rel → h = g) ∧
        (¬ cleans → ¬ drops → u = s) ∧
        (∀ c, c ≠ s.cur.core → kvGet u.cores c = kvGet s.cores c) ∧
        (∀ a, (∀ v, ¬ written a v) → memByte u.mem a = memByte s.mem a) ∧
        (∀ a v, written a v → (∀ v', written a v' → v' = v) → memByte u.mem a = v) ∧
        let clean := if cleans then lines.map fun e => (e.1, { e.2 with dirty := 0 }) else lines
        (¬ drops → getCore u s.cur.core = { getCore s s.cur.core with l1 := clean }) ∧
        (drops → getCore u s.cur.core = { getCore s s.cur.core with
          l1 := clean.filter fun e => !cachedHome e.2.home, pfSlots := [] }))) ∧
  (∀ (ld st cp tl : BitVec 6) (s : State) (g : Group), OnPath s g →
    let i := Instr.wait ld st cp tl
    let n := fun c => waitField ld st cp tl c
    let os := if ld = 63 ∧ st = 63 ∧ cp = 63 ∧ tl = 63 then [] else [OpCls.ld, .st, .cp, .tl].flatMap fun c =>
      let xs := g.ops.filter fun o => o.cls == c && !o.ghost
      xs.take (xs.length - n c)
    let hit := fun (o : Op) => os.any fun x => x.seq == o.seq
    let clears := fun (unif : Bool) (l r : Nat) => os.any fun o =>
      o.unif == unif && (unif || inMask o.act l) && decide (o.dest ≤ r) && decide (r < o.dest + o.dests)
    let Covered := fun (h : Group) =>
      h = { g with fibres := h.fibres, upend := h.upend, ops := h.ops } ∧
      h.ops = (g.ops.filter fun o => !(hit o && o.err.isNone)).map (fun o => if hit o then { o with dests := 0 } else o) ∧
      (∀ r, r < 1024 → h.upend.getLsbD r = (g.upend.getLsbD r && !clears true 0 r)) ∧
      ∀ l, match kvGet g.fibres l with
        | none => kvGet h.fibres l = none
        | some x => ∃ y, kvGet h.fibres l = some y ∧ y = { x with pend := y.pend } ∧
            ∀ r, r < 128 → y.pend.getLsbD r = (x.pend.getLsbD r && !clears false l r)
    (∀ c, n c < counter g c → (∀ d, clsLeaf d < clsLeaf c → counter g d ≤ n d) →
      exec i s = .next (stalledAt (clsLeaf c) s g)) ∧
    ((∀ c, counter g c ≤ n c) → (∀ o ∈ os, errHere s.cur.mask o = false) →
      ∃ t h, exec i s = .next t ∧ PathStep 1 (some 4) s t (prune h) ∧ Covered h) ∧
    ((∀ c, counter g c ≤ n c) → ∀ o e, o ∈ os → o.err = some e → errHere s.cur.mask o = true →
      (∀ x ∈ os, errHere s.cur.mask x = true → x = o ∨ o.seq < x.seq) →
      ∃ u h, Covered h ∧ u = setCurGroup s (prune { prune h with
            ops := (prune h).ops.map fun x => if x.seq = o.seq then { x with err := none } else x }) ∧
        ∀ pc, HandlerTakes u (curGroup u) e.code pc → ∃ t, exec i s = .next t ∧
          TrapEntry u t (curGroup u) { code := e.code, detail := e.detail, addr := e.addr, async := true,
                                       retPc := s.cur.pc, mask := s.cur.mask } pc)) ∧
  ∀ (s : State) (g : Group), OnPath s g → ∃ t, exec .ordrel s = .next t ∧
    PathStep 2 (some 4) s t { g with ordEnded := g.ordEnded ||
      ((getLaunch s g.place.launch).ord && g.place.kind == .launched) }

/-- Barrier instructions check their handle (R138), and apply their row of R140 to the object (R309): BINIT arms it, BARV
arrives and BEXP expects sectors, each with the completion check of R139, which releases the waiters of the phase; BINVAL
makes it INVALID and releases every waiter. BWAIT blocks on the present phase and otherwise returns (R141). -/
def Obligations.BarrierInstructions : Prop :=
  ∀ (a b d : GReg) (exp : Bool) (s : State) (g : Group), OnPath s g →
    let k := g.place.team
    let hv := (getU g a.toNat).toNat
    let n := (getU g b.toNat).toNat
    let sects := if exp then n else 0
    let us := [a.toNat, b.toNat, d.toNat]
    let team := getTeam s k
    let i := fun (j : Fin 5) => match j with
      | 0 => Instr.binit a b | 1 => Instr.barv exp d a b | 2 => Instr.bexp a b | 3 => Instr.bwait a b | 4 => Instr.binval a
    let inRange := hv < 4096 ∧ 16 * hv + 16 ≤ team.hdr.localBytes
    let e := (kvGet team.barTab hv).getD { v := true, gen := 0, off := hv }
    InCounts g [] us → NotPending g 0 [] us →
    (∀ j, g.place.kind = .spawned → TrapsTo (exec (i j) s) s g 0x05 0 0) ∧
    (∀ j, g.place.kind ≠ .spawned → ¬ inRange ∨ e.v = false → TrapsTo (exec (i j) s) s g 0x09 0 0) ∧
    (∀ j, g.place.kind ≠ .spawned → inRange → e.v = true → (barAt s k (16 * e.off)).gen ≠ e.gen →
      TrapsTo (exec (i j) s) s g 0x09 (16 * e.off) 0) ∧
    ∀ off x, BarNames s g hv off x → Memory.wf team.mem = true →
      let unarmed := x.reload = 0 ∧ x.invalid = false
      let arrived := fun (v : Nat) (w : Int) => { x with arrive := v, sect := w }
      let old := kvGetD team.barOld off false
      let whole := fun (y : Bar) => y.reload ≠ 0 ∧ y.arrive = 0 ∧ y.sect = 0
      let next := fun (y : Bar) => { y with phase := (y.phase + 1) % 16, arrive := y.reload, busy := false, error := y.error && !old }
      let Applied := fun (y : Bar) (s0 : State) (h0 : Group) (out : Host.Outcome State Fault Refusal) =>
        (¬ whole y → ∃ u t, out = .next t ∧ BarBecomes s u k off y ∧ OtherGroups s u (curGid s) ∧ BarStep s u t h0) ∧
        (whole y → NoCopyFault s k off x.gen ∨ (next y).error = false → ∃ v u t h, out = .next t ∧ BarBecomes s v k off (next y) ∧
          v.groups = s0.groups ∧ Released v u k off (some y.phase) (!(next y).error) ∧ BarStep s u t h)
      let gone := pastPath s g
      -- BINIT
      (x.busy = true → TrapsTo (exec (i 0) s) s g 0x08 off 0) ∧
      (x.busy = false → n = 0 ∨ 2 ^ 13 ≤ n → TrapsTo (exec (i 0) s) s g 0x09 off 0) ∧
      (x.busy = false → 1 ≤ n → n < 2 ^ 13 → ∃ u t, exec (i 0) s = .next t ∧
        BarBecomes s u k off { x with
          phase := 0, arrive := n, reload := n, sect := 0, gen := (x.gen + 1) % 2 ^ 16, error := false, orphan := false,
          invalid := false, busy := false } ∧
        (getTeam u k).barTab = kvSet team.barTab hv { e with gen := (x.gen + 1) % 2 ^ 16 } ∧
        OtherGroups s u (curGid s) ∧ BarStep s u t gone) ∧
      -- BARV
      (x.invalid = true → ∃ u t, exec (i 1) s = .next t ∧ u = { s with groups := u.groups } ∧ OtherGroups s u (curGid s) ∧
        BarStep s u t (setGp (setU gone d.toNat (BitVec.ofNat 32 x.phase)) 15 false)) ∧
      (x.invalid = false → x.reload = 0 ∨ x.arrive = 0 ∨ 2 ^ 24 ≤ sects ∨ 2 ^ 31 ≤ x.sect + sects →
        TrapsTo (exec (i 1) s) s g 0x09 off 0) ∧
      (x.invalid = false → x.reload ≠ 0 → x.arrive ≠ 0 → sects < 2 ^ 24 → x.sect + sects < 2 ^ 31 →
        let h := setGp (setU gone d.toNat (BitVec.ofNat 32 x.phase)) 15 true
        Applied (arrived (x.arrive - 1) (x.sect + sects)) (setCurGroup s h) h (exec (i 1) s)) ∧
      -- BEXP
      (x.invalid = true → ∃ u t, exec (i 2) s = .next t ∧ u = { s with groups := u.groups } ∧ OtherGroups s u (curGid s) ∧
        BarStep s u t (setGp gone 15 false)) ∧
      (x.invalid = false → x.reload = 0 ∨ 2 ^ 24 ≤ n ∨ 2 ^ 31 ≤ x.sect + n → TrapsTo (exec (i 2) s) s g 0x09 off 0) ∧
      (x.invalid = false → x.reload ≠ 0 → n < 2 ^ 24 → x.sect + n < 2 ^ 31 →
        Applied (arrived x.arrive (x.sect + n)) (setCurGroup s (setGp gone 15 true)) (setGp gone 15 true) (exec (i 2) s)) ∧
      -- BWAIT
      (unarmed → TrapsTo (exec (i 3) s) s g 0x09 off 0) ∧
      (¬ unarmed → x.invalid = false → n % 16 = x.phase → ∃ u t h, exec (i 3) s = .next t ∧
        BarBecomes s u k off { x with busy := true } ∧ u.groups = s.groups ∧ PathStep 2 none u t h ∧
        h = { g with fibres := h.fibres } ∧
        LanesRelate g h s.cur.mask fun _ f f' => f' = { f with st := .blocked (.barrier off x.phase) }) ∧
      (¬ unarmed → x.invalid = true ∨ n % 16 ≠ x.phase → x.error = false ∨ x.invalid = true ∨ NoCopyFault s k off x.gen →
        ∃ t h, exec (i 3) s = .next t ∧ PathStep 2 none s t h ∧
          h = { setGp g 15 (!x.invalid && !x.error) with fibres := h.fibres, sched := { g.sched with
            holds := { mask := s.cur.mask, until_ := s.dev.clock + barHold s (curGid s) g, leaf := 11 } :: g.sched.holds } } ∧
          LanesRelate g h s.cur.mask fun _ f f' => f' = { f with st := .resident, pc := s.cur.pc + 4 }) ∧
      -- BINVAL
      ∃ v u t h, exec (i 4) s = .next t ∧
        BarBecomes s v k off { x with invalid := true, gen := (x.gen + 1) % 2 ^ 16, busy := false } ∧
        (getTeam v k).barTab = kvSet team.barTab hv { e with gen := (x.gen + 1) % 2 ^ 16 } ∧
        v.groups = (setCurGroup s gone).groups ∧ Released v u k off none false ∧ BarStep s u t h

/-! ## Outstanding work -/

/-- A lane's load, store or atomic is performed (R116, R119, R146, R147): a load returns the bytes that its core sees, a store
leaves its bytes, an atomic takes the old value and leaves the new one; HLD and HST go around the L1 (R334); a release first
cleans the L1 (R120). Then an
operation whose accesses are all performed is complete, an acquire acts on the L1 (R120), and no counter sees the removal of
what is complete (R132). -/
def Obligations.MemoryOperationsComplete : Prop :=
  (∀ (gid : Nat) (lanes : LaneMask) (s : State) (g : Group) (o : Op) (a : Acc), AccNow s gid g o a → NamesOne o a lanes →
    (isRelease o = true → ∀ e ∈ (getCore s (coreOfGid gid)).l1, e.2.dirty ≠ 0 → e.2.pa ∉ s.ecc) →
    let core := coreOfGid gid
    let s0 := if isRelease o then releaseL1 core (relScope s g (opScope s g o)) s else s
    let w := whoOf gid g o
    let left := fun (v : State) => if o.ord && o.cls == .st && a.queued then unstage core g.place.owner v else v
    (∀ sz, o.kind = .load sz → o.cls = .ld → twinCopy s g = false →
      (o.home = true → ∀ e ∈ (getCore s core).l1, e.2.dirty ≠ 0 → e.2.pa ∉ s.ecc) →
      let from_ := if o.home then gaveUp s w a.len a.loc else s
      let loc := if o.home then around a.loc else a.loc
      ServedHere from_ core loc a.len →
      ∃ v h, exec (.loadCompletion gid o.seq lanes) s = .next (finishOps gid (setGroup v gid h)) ∧ OnlyCaches from_ v ∧
        AccMade g h o a (some (seenBytes from_ core loc a.len))) ∧
    (o.kind = .store ∨ (∃ k, o.kind = .stcmp k) → o.cls = .st →
      (o.home = true → ∀ e ∈ (getCore s core).l1, e.2.dirty ≠ 0 → e.2.pa ∉ s.ecc) →
      let from_ := if o.home then gaveUp s0 w a.data.length a.loc else s0
      let loc := if o.home then around a.loc else a.loc
      ServedHere from_ core loc a.data.length →
      ∃ v h, exec (.storePerformed gid o.seq lanes) s = .next (finishOps gid (setGroup (left v) gid h)) ∧
        StoreMade from_ v core (if o.home then 4 else accScope s0 g o.scope a.loc) loc a.data ∧ AccMade g h o a none) ∧
    (∀ op wide ret, o.kind = .atomic op wide ret → o.cls = (if ret then .ld else .st) → needsService s o a = false →
      (∀ pa home hcore, a.loc = .glob pa home hcore → peerOf s pa = none) →
      (∀ e ∈ (getCore s core).l1, e.2.dirty ≠ 0 → e.2.pa ∉ s.ecc) →
      ServedHere (gaveUp s0 w (atomBytes wide) a.loc) core (around a.loc) (atomBytes wide) →
      ∃ v h old, exec (if ret then .loadCompletion gid o.seq lanes else .storePerformed gid o.seq lanes) s =
          .next (finishOps gid (setGroup (left v) gid h)) ∧
        AtomicMade s0 v w op wide a.loc a.data old ∧ AccMade g h o a (if ret then some old else none))) ∧
  ∀ (gid : Nat) (s : State) (g : Group), kvGet s.groups gid = some g →
    let acqs := g.ops.filter fun o => opOver o && isAcquire o
    let h := { g with ops := g.ops.map fun o => if opOver o then { o with done := true } else o }
    (acqs = [] → finishOps gid s = setGroup s gid (prune h)) ∧
    (∀ o, acqs = [o] → (∀ e ∈ (getCore s (coreOfGid gid)).l1, e.2.dirty ≠ 0 → e.2.pa ∉ s.ecc) →
      finishOps gid s = setGroup (acquireL1 (coreOfGid gid) (opScope s g o) s) gid (prune h)) ∧
    ∀ c, counter (prune h) c = counter h c

/-- The service group of a cluster performs the first request of its queue that may be performed, as an atomic, and the queue
takes what waits for room (R146, R148). A block of a staging buffer spills to the ordered-spill area, one without room being
ORDER_VIOLATION (R152, R238). An LDQ's words land in its reserved entry, the first after those of the earlier LDQs in flight, with
0 in the other lanes (R347). -/
def Obligations.ServiceGroupsAndQueues : Prop :=
  (∀ (cluster : Nat) (s : State) (before after : List SvcReq) (r : SvcReq) (g : Group) (o : Op) (a : Acc) (op : AOp)
      (wide ret : Bool),
    svcQ s cluster = before ++ r :: after → svcTarget s r = some (g, o, a) → AccNow s r.gid g o a →
    (∀ b ∈ before, ∀ l n ready, svcView s b = some (l, n, ready) → ready = false ∧ locsMeet a.loc a.len l n = false) →
    o.kind = .atomic op wide ret → (∀ pa home hcore, a.loc = .glob pa home hcore → peerOf s pa = none) →
    (∀ e ∈ (getCore s (coreOfGid r.gid)).l1, e.2.dirty ≠ 0 → e.2.pa ∉ s.ecc) →
    let s1 := setSvcQ cluster ((before ++ r :: after).erase r) s
    let s0 := if isRelease o then releaseL1 (coreOfGid r.gid) (relScope s g (opScope s g o)) s1 else s1
    ServedHere (gaveUp s0 (whoOf r.gid g o) (atomBytes wide) a.loc) (coreOfGid r.gid) (around a.loc) (atomBytes wide) →
    ∃ v h old, exec (.serviceGroupAtomic cluster) s = .next (refillSvc (finishOps r.gid (setGroup
        (if o.ord && o.cls == .st && a.queued then unstage (coreOfGid r.gid) g.place.owner v else v) r.gid h))) ∧
      AtomicMade s0 v (whoOf r.gid g o) op wide a.loc a.data old ∧ AccMade g h o a (if ret then some old else none)) ∧
  (∀ (core owner : Nat) (s : State), MemOk s →
    let used := ((getCtx s owner).spilled + 255) / 256
    let n := min 256 (stagedOf s core owner)
    let u := setStaged core owner (stagedOf s core owner - n) s
    let base := descWord s owner 0x18 + 4096 * used
    (descWord s owner 0x20 < 4096 * (used + 1) → spillBlock core owner s = fatalCtx owner 0x1C 0 0 u) ∧
    (4096 * (used + 1) ≤ descWord s owner 0x20 → ∃ t, spillBlock core owner s = t ∧
      t = { modCtx u owner fun c => { c with spilled := c.spilled + n } with mem := t.mem } ∧
      ∀ a, ¬ (base ≤ a ∧ a < base + 4096) → memByte t.mem a = memByte s.mem a)) ∧
  ∀ (gid p : Nat) (s : State) (g : Group) (o : Op) (before after : List (List Word)),
    kvGet s.groups gid = some g → findOp g o.seq = some o → o.kind = .ldq p → o.done = false → p < 8 → twinCopy s g = false →
    (∀ a ∈ o.accs, accReady s gid g o a = true ∧ accessFails s o.lost a.loc = none ∧ ReadsInPlace s (coreOfGid gid) a.loc) →
    (getPort g p).fifo = before ++ [] :: after →
    (before.filter fun e => e == []).length = (g.ops.filter fun x => x.kind == .ldq p && !x.done && decide (x.seq < o.seq)).length →
    ∃ v h entry, exec (.ldqFill gid o.seq) s = .next (finishOps gid (setGroup v gid h)) ∧ OnlyCaches s v ∧
      entry.length = 64 ∧
      (∀ l, l < 64 → (∀ a ∈ o.accs, a.lane ≠ l) → entry.getD l 0 = 0) ∧
      (∀ a ∈ o.accs, a.lane < 64 → (∀ b ∈ o.accs, b.lane = a.lane → b = a) →
        entry.getD a.lane 0 = Machine.wordOfBytes (seenBytes s (coreOfGid gid) a.loc 4)) ∧
      h = { g with
        ports := g.ports.set p { getPort g p with fifo := before ++ entry :: after },
        ops := g.ops.map fun x => if x.seq = o.seq then { x with accs := x.accs.map fun a => { a with done := true } } else x }

/-- A landing falls off the sectors that its barrier expects, with ERROR when the copy faulted or the count leaves the signed
range, and completes the phase when nothing is left (R139, R140, R144); the L1s of the team's cores give up the lines that it
names (R134). An object that has been armed again, is unarmed or INVALID becomes ORPHAN. A copy moves its next line: the lanes'
bytes land, those of a higher lane staying, the sectors that are then whole go to the barrier, and a fault is recorded as
COPY_FAULT (R110, R318). -/
def Obligations.CopiesLand : Prop :=
  (∀ (k i : Nat) (s : State) (team : Team) (x : Landing), kvGet s.teams k = some team → team.landings[i]? = some x →
    Memory.wf team.mem = true →
    let off := x.bar.off
    let b := barAt s k off
    let s0 := modTeam s k fun y => { y with landings := y.landings.eraseIdx i }
    let s1 := dropLines k x.lines s0
    let s2 := if x.fault then modOp x.gid x.seq (fun o => { o with err := o.err.map fun e => { e with counted := true } }) s1 else s1
    let counts := b.gen = x.bar.gen ∧ b.reload ≠ 0 ∧ b.invalid = false
    let v := b.sect - x.sectors
    let low := decide (v < -(2 ^ 31 : Int))
    let y := { b with sect := if low then -(2 ^ 31) else v, error := b.error || (x.fault || low) }
    let old := !(x.fault || low) && kvGetD team.barOld off false
    let next := { y with phase := (y.phase + 1) % 16, arrive := y.reload, busy := false, error := y.error && !old }
    (counts → ¬ (y.arrive = 0 ∧ y.sect = 0) → ∃ t, exec (.sectorLanding k i) s = .next t ∧ BarBecomes s2 t k off y ∧
      t.groups = s2.groups) ∧
    (counts → y.arrive = 0 → y.sect = 0 → next.error = false ∨ NoCopyFault s2 k off b.gen →
      ∃ u t, exec (.sectorLanding k i) s = .next t ∧ BarBecomes s2 u k off next ∧ u.groups = s2.groups ∧
        Released u t k off (some y.phase) (!next.error)) ∧
    (¬ counts → ∃ u v, exec (.sectorLanding k i) s = .next v ∧
      BarBecomes s0 u k off { b with orphan := true } ∧ u.groups = s.groups ∧
      v = let w := groupEvent x.gid 0x0005 1 x.pc u
        if (getCtx s team.owner).fatal = none then w else
          lateTrap x.gid { code := 0x19, detail := 0xFF, addr := off, async := true, retPc := x.pc, mask := x.mask } w)) ∧
  (∀ (k : Nat) (lines : List Nat) (s : State), (∀ c, ∀ e ∈ (getCore s c).l1, e.2.dirty ≠ 0 → e.2.pa ∉ s.ecc) →
    ∃ u, dropLines k lines s = u ∧ u = { s with mem := u.mem, cores := u.cores } ∧
      ∀ gid ∈ (getTeam s k).groups, (getCore u (coreOfGid gid)).l1 =
        (getCore s (coreOfGid gid)).l1.filter fun e => !lines.contains e.2.pa) ∧
  (∀ (gid line : Nat) (s : State) (g : Group) (o : Op) (bar : Option BarCap), kvGet s.groups gid = some g →
    findOp g o.seq = some o → o.kind = .copy bar → o.done = false →
    let todo := o.accs.filter fun a => !a.done
    let as := todo.filter fun a => lineOf a.va == line
    as ≠ [] → (∀ a ∈ todo, line ≤ lineOf a.va) → copyMoves s gid g o = true → (∀ a ∈ as, accReady s gid g o a = true) →
    let mine := fun (a : Acc) => as.any fun b => b.lane == a.lane
    let place := fun (a : Acc) => placeOf s (coreOfGid gid) g a.va a.len .load
    let whole := (sectorsOf as).filter fun x => !(sectorsOf (o.accs.filter fun a => !a.done && !mine a)).contains x
    let after := fun (fault bad : Bool) (u : State) =>
      let u := modOp gid o.seq (fun o => { o with accs := o.accs.map fun a => if mine a then { a with done := true, failed := fault } else a }) u
      .next (finishOps gid (match bar with
        | some b => if whole.isEmpty then u else sendLanding g.place.team
            { bar := b, sectors := whole.length, fault := bad, gid := gid, seq := o.seq, pc := o.pc, mask := o.mask } u
        | none => u))
    ((∀ a ∈ as, ∃ l, place a = .ok l ∧ accessFails s o.lost l = none) → exec (.cpaLineTransfer gid o.seq) s =
      after false (o.accs.any fun a => a.failed && whole.contains ((a.dst.getD 0) / 32)) (landLine gid g o as s)) ∧
    ∀ good a rest c, as = good ++ a :: rest → (∀ b ∈ good, ∃ l, place b = .ok l ∧ accessFails s o.lost l = none) →
      place a = .error c ∨ (c = 0x1A ∧ ∃ l, place a = .ok l ∧ accessFails s o.lost l ≠ none) →
      exec (.cpaLineTransfer gid o.seq) s = after true true (setErr gid o.seq { code := 0x19, detail := c, addr := line } s)) ∧
  ∀ (gid : Nat) (s : State) (g : Group) (o : Op) (a : Acc) (l : Loc) (team : Team),
    placeOf s (coreOfGid gid) g a.va a.len .load = .ok l → twinCopy s g = false → kvGet s.teams g.place.team = some team →
    Memory.wf team.mem = true →
    let at_ := a.dst.getD 0
    let s0 := notePlace (coreOfGid gid) g a.va s
    ServedHere s0 (coreOfGid gid) l a.len →
    ∃ u, landLine gid g o [a] s = u ∧ OnlyCaches { s0 with teams := u.teams } u ∧
      (∀ x, memByte (getTeam u g.place.team).mem x =
        if at_ ≤ x ∧ x < at_ + a.len ∧ (∀ b ∈ o.accs, a.lane < b.lane → b.done = true → b.failed = false →
            ¬ (b.dst.getD 0 ≤ x ∧ x < b.dst.getD 0 + b.len)) then (seenBytes s0 (coreOfGid gid) l a.len).getD (x - at_) 0
        else memByte team.mem x) ∧
      (∀ j, j ≠ g.place.team → getTeam u j = getTeam s j)

/-! ## Engines -/

/-- An engine instruction signs its convergence register with all the lanes of its path, which become BLOCKED (R79); signing
at another PC is CONV_MISMATCH. The watchdog's time goes on until the signature is complete (R255). -/
def Obligations.EngineInstructionsSign : Prop :=
  ∀ (i : Instr) (F : EngForm) (s : State) (g : Group), engForm i = some F → OnPath s g →
    InCounts g F.lanes (F.unis ++ F.named) → NotPending g (liveMask g) F.lanes F.unis →
    let c := getCv g F.cv
    (c.tv = true → c.tag ++ 0#2 ≠ s.cur.pc → TrapsTo (exec i s) s g 0x07 0 0) ∧
    ((c.tv = true → c.tag ++ 0#2 = s.cur.pc) →
      ∃ u h, exec i s = .next u ∧ SignStep s u g h ∧
        (let c' := if c.tv then c else { c with tag := s.cur.pc.extractLsb' 2 30, tv := true, eng := some i }
         h = { g with fibres := h.fibres, cvs := g.cvs.set F.cv { c' with sign := c.sign ||| s.cur.mask } }) ∧
        LanesRelate g h s.cur.mask fun _ x y => y = { x with st := .blocked (.engine F.cv) })

/-- When its register is complete, in the check at the end of the cycle, an engine instruction issues once, for all its signers
(R75, R79). The engines of the core take it at once while TL is below 63: it is accepted, with its command, or its signers trap
with the fault that its checks find; otherwise it waits (R132). The key-value sequencer and the route sequencer queue it (R160,
R200). -/
def Obligations.EngineInstructionsIssue : Prop :=
  ∀ (i : Instr) (F : EngForm) (s : State) (g : Group), engForm i = some F → OnPath s g → F.cv < g.cvs.length →
    InCounts g F.lanes (F.unis ++ F.named) → NotPending g (liveMask g) F.lanes F.unis → LastSigner i F.cv s g →
    ∃ u v h, exec i s = .next u ∧ SignedBy F.cv s v g h ∧
      let gid := curGid s
      let m := (getCv g F.cv).sign ||| s.cur.mask
      let w : EngWait := { instr := i, mask := m, pc := s.cur.pc }
      let e := engEnv v gid m s.cur.pc
      let done := fun (t : State) => settle gid u = settleAfter gid F.cv t
      let free := (getCtx s g.place.owner).fatal = none ∧ g.sched.preempted = false ∧ counter g .tl < 63 ∧ g.engQ = []
      (unitOf i = .kv → done { v with kv := { v.kv with queue := v.kv.queue ++ [(gid, w)] } }) ∧
      (unitOf i = .route → done (modEng (homeOf v (getGroup v gid)) (fun x => { x with routeQ := x.routeQ ++ [(gid, w)] }) v)) ∧
      (unitOf i = .direct → ¬ ((getCtx s g.place.owner).fatal = none ∧ g.sched.preempted = false ∧ counter g .tl < 63) →
        done (modGroup v gid fun g => { g with engQ := g.engQ ++ [w] })) ∧
      (unitOf i = .direct → free → ∃ home r, acceptance i e v = some (home, r) ∧
        let core := if home then homeOf v (getGroup v gid) else coreOfGid gid
        (∀ f, r = .error f → done (engineTrap gid m s.cur.pc f v)) ∧
        ∀ a u, r = .ok (a, u) → kvHas u.groups gid = true → ∃ t, done t ∧ EngAccepted core e a u t)

/-- A command that runs has its effect, and is complete at its event: it leaves its core, TL may fall, and signers that it held
go on (R79, R103, R132); or its signers trap as if it had not been accepted. A TRED first sends its elements, in packets of
network C, and completes once they have been added (R97, R272). SHLD and SHEV change their slot (R369), TOPEN
clears the tile and writes its status word (R92), TREAD.stat reads it (R379). -/
def Obligations.EngineCommandsComplete : Prop :=
  ∀ (core id : Nat) (s : State) (c : Cmd) (g : Group) (team : Team), findCmd s core id = some c → kvGet s.groups c.gid = some g →
    g.place.team = c.team → kvGet s.teams c.team = some team → cmdReady s core c = true →
    let done := fun (t : State) => exec (commandEvent c.kind core id) s = .next (drainEngQ c.gid (settleRoutes core t))
    let sends := c.sent = false ∧ twinCopy s g = false
    (∀ t head rows, c.kind = .tred t head rows → sends →
      exec (.tredComplete core id) s = .next (markSent core id (sendTred c t rows s))) ∧
    (∀ t head rows, c.kind = .tred t head rows → ¬ sends → tredTravels s id = true → exec (.tredComplete core id) s = .next s) ∧
    (∀ (p : Piece) (es : List (BitVec 64)) pa home hcore, p.loc = .glob pa home hcore → ∃ k : Packet,
      sendRun c p es s = { s with net := inject k s.net, nextId := s.nextId + 1 } ∧ k.net = .c ∧
      k.src = .cluster (coreOfGid c.gid / 4) ∧ k.len = 1 + (es.length + 7) / 8 ∧ k.tag = some (.surface pa es.length) ∧ k.op = 1 ∧ k.count = 1 ∧ k.elems = es ∧
      k.place = [p] ∧ k.who = [c.id]) ∧
    ((∀ t head rows, c.kind = .tred t head rows → ¬ sends ∧ tredTravels s id = false) →
    (∀ u, commandEffect core c s = .ok u → kvHas u.groups c.gid = true → ∃ t, done t ∧ EngDone core c u t) ∧
    (∀ f, commandEffect core c s = .error f → done (engineTrap c.gid c.mask c.pc f (setGroup
      (modEng core (fun x => { x with cmds := x.cmds.filter fun d => d.id != c.id }) s) c.gid
      { g with ops := g.ops.filter fun o => o.seq != c.seq })))) ∧
    let gives := fun (t : Team) => ∃ u, commandEffect core c s = .ok u ∧ u = { s with teams := u.teams } ∧ getTeam u c.team = t ∧
      ∀ k, k ≠ c.team → getTeam u k = getTeam s k
    (∀ n words phys, c.kind = .shld n words phys →
      gives { team with shapes := kvSet team.shapes n { words := words, phys := phys } }) ∧
    (∀ n, c.kind = .shev n → gives { team with shapes := kvDel team.shapes n }) ∧
    (∀ n auto e, c.kind = .topen n auto e → -32768 ≤ e → e ≤ 32767 → ∃ w : Word,
      gives { team with tiles := kvSet team.tiles n { status := w } } ∧ (w.extractLsb' 0 16).toInt = e ∧
      w.getLsbD 16 = auto ∧ w.getLsbD 17 = true ∧ w.extractLsb' 18 14 = 0) ∧
    ∀ n d, c.kind = .treadStat n d → commandEffect core c s =
      .ok (setGroup s c.gid (setU g d (kvGetD team.tiles n {}).status))

/-- The key-value sequencer accepts its oldest instruction whose group may go on (R160): an operation on an entry, or an ATTN,
which the sequencer then holds; or the signers trap. -/
def Obligations.KeyValueAcceptance : Prop :=
  ∀ (s : State) (before after : List (Nat × EngWait)) (gid : Nat) (w : EngWait), s.kv.queue = before ++ (gid, w) :: after →
    (∀ q ∈ before, mayAccept s q.1 = false) → mayAccept s gid = true →
    let v := { s with kv := { s.kv with queue := before ++ after } }
    let e := engEnv v gid w.mask w.pc
    let accepted := fun (t : State) => exec .kvAccept s = .next t
    (∀ home r, acceptance w.instr e v = some (home, r) → unitOf w.instr = .kv →
      (∀ f, r = .error f → accepted (engineTrap gid w.mask w.pc f v)) ∧
      ∀ a u, r = .ok (a, u) → kvHas u.groups gid = true → ∃ t, accepted t ∧ EngAccepted (homeOf v e.g) e a u t) ∧
    ∀ r, attnChecks w.instr e v = some r →
      (∀ f, r = .error f → accepted (engineTrap gid w.mask w.pc f v)) ∧
      ∀ a bad u g, r = .ok (a, bad, u) → kvGet u.groups gid = some g → ∃ t h, accepted t ∧ kvGet t.groups gid = some h ∧
        OtherGroups u t gid ∧
        t = { u with
          groups := t.groups, nextId := u.nextId + 1,
          kv := { u.kv with attns := u.kv.attns ++ [{ a with id := u.nextId + 1, seq := g.opSeq }] } } ∧
        h = { g with
          fibres := h.fibres, opSeq := g.opSeq + 1,
          ops := g.ops ++ [{ seq := g.opSeq, cls := .tl, kind := .engine (u.nextId + 1) none, pc := w.pc, mask := w.mask,
                             act := w.mask, seen := g.twin.length, err := lineErr bad }] } ∧
        LanesRelate g h w.mask fun _ x y => y = { x with st := .resident, pc := w.pc + 8 }

/-- ATTN (R170 to R173): in phase 1 each slice that holds blocks sends the maxima of its rows, in phase 2 its sums, in packets of
network C of at most 64 elements (R263); the packets that arrive are combined, by maximum or by sum (R272); with all there the
ATTN completes. A row's maximum is that of its terms
that are not poisoned; a poisoned row of O is NaN and an empty one zero (R172); a term 25 or
more below the maximum weighs nothing. -/
def Obligations.AttentionPhases : Prop :=
  (∀ (id : Nat) (s : State) (a : Attn), findAttn s id = some a →
    (a.step = .accepted → a.mode ≠ 3 → (getCtx s a.owner).fatal = none →
      let v := putAttn { a with
        step := .scored, finished := [], parts := [], maxima := List.replicate 32 (-(2 ^ 63)), flags := List.replicate 32 0, got := 0 } s
      exec (.attnPhase1 id) s = .next ((attnSlices a).foldl (sliceSend a) v)) ∧
    (∀ b t, arrivedAttn id s = (some b, t) → b.step = .scored → b.mode ≠ 1 → (getCtx t b.owner).fatal = none →
      b.got = (attnSlices b).length →
      let m := attnGiven b t
      let c := { b with maxima := m.1 }
      let d := { c with
        step := .summed, finished := [], parts := [], sums := List.replicate 32 0, outs := List.replicate (32 * b.d) 0, got := 0 }
      exec (.attnPhase2 id) s = .next ((attnSlices b).foldl (sliceSend c) (putAttn d m.2)) ∧
      (b.mode = 0 → m = (b.maxima, t))) ∧
    ∀ b t, arrivedAttn id s = (some b, t) → twinBlocks t b.gid b.seq = false →
      (b.mode = 3 ∧ b.step = .accepted) ∨ (b.got = (attnSlices b).length ∧ b.mode = 1 ∧ b.step = .scored) ∨
        (b.got = (attnSlices b).length * ((32 + 32 * b.d + 63) / 64) ∧ (b.mode = 0 ∨ b.mode = 2) ∧ b.step = .summed) →
      exec (.attnComplete id) s = .next (drainAll (attnFinal b t))) ∧
  (∀ (a : Attn) (s : State) (x : Nat), a.step = .accepted → kvGet a.parts x = none →
    let keys := blockKeys a (sliceTodo a x) s
    let u := keys.2
    let rows := (List.range 32).map fun i => attnTerms a i keys.1
    ∃ p : Packet, sliceSend a s x = { u with net := inject p u.net, nextId := u.nextId + 1 } ∧ p.net = .c ∧
      p.src = .slice x ∧ p.dst = .cluster (coreOfGid a.gid / 4) ∧ p.len = 5 ∧ p.tag = some (.attn a.id 0 0) ∧ p.op = 0 ∧
      p.count = 1 ∧ p.elems = rows.map fun ts => BitVec.ofInt 64 (rowMax ts)) ∧
  (∀ ts : List (Option (Int × KeyRec)), (∀ x ∈ ts, ∀ y, x = some y → -(2 ^ 63) ≤ y.1) →
    (∀ y, some y ∈ ts → y.1 ≤ rowMax ts) ∧ (rowMax ts = -(2 ^ 63) ∨ ∃ y, some y ∈ ts ∧ y.1 = rowMax ts)) ∧
  (∀ (op : Nat) (xs ys : List (BitVec 64)) (i : Nat), i < xs.length → i < ys.length →
    (combineElems op xs ys).getD i 0 =
      if op = 0 then (if (xs.getD i 0).toInt < (ys.getD i 0).toInt then ys.getD i 0 else xs.getD i 0) else xs.getD i 0 + ys.getD i 0) ∧
  (∀ (ty : Ty) (f : FFmt) (vexp : Int) (flags l : Nat) (os : List Int), fmtOfTy ty = some f →
    (flags.testBit 1 = true → outRow ty vexp flags l os = os.flatMap fun _ => bytesOfNat (f.bits / 8) f.nan) ∧
    (flags.testBit 1 = false → flags.testBit 2 = true ∨ l = 0 → outRow ty vexp flags l os = os.flatMap fun _ => bytesOfNat (f.bits / 8) 0)) ∧
  ∀ x : Int, x < -(25 * 2 ^ 24) → attnWeight x = 0

/-! ## Events of the device -/

/-- ROUTE's events. The route sequencer takes the oldest instruction that it can: a ROUTE, for which an entry is free, and
which makes its checks (R200), an RTBIND or an RTRD (R198, R207); an entry's pairs are sent in pair order while there is
capacity, or meet their policy (R202), and the oldest ringed one is sent once its value has room (R388); a live return is read
and applied (R204), a late one counted, and a drop notice or a timeout resolves what it names (R204, R205). -/
def Obligations.RouteEvents : Prop :=
  (∀ (core gid n : Nat) (s : State) (before after : List (Nat × EngWait)) (w : EngWait) (r : RouteArgs),
    (engOf s core).routeQ = before ++ (gid, w) :: after → (∀ q ∈ before, routeTakes s core q = false) → mayAccept s gid = true →
    unusedEnt s core (getGroup s gid).place.team = some n →
    let v := modEng core (fun x => { x with routeQ := before ++ after }) s
    let e := engEnv v gid w.mask w.pc
    routeArgs e w.instr = some r →
    (∀ f, routeChecks e r v = .error f → exec (.routeAccept core) s =
      .next (settleRoutes core (engineTrap gid w.mask w.pc f v))) ∧
    ∀ ps st bar, routeChecks e r v = .ok (ps, st, bar) → exec (.routeAccept core) s =
      .next (settleRoutes core (makeEnt core n e r ps bar (stageRows e r st v).1 (stageRows e r st v).2))) ∧
  (∀ (core gid : Nat) (s : State) (before after : List (Nat × EngWait)) (w : EngWait),
    (engOf s core).routeQ = before ++ (gid, w) :: after → (∀ q ∈ before, routeTakes s core q = false) → mayAccept s gid = true →
    let v := modEng core (fun x => { x with routeQ := before ++ after }) s
    let e := engEnv v gid w.mask w.pc
    routeArgs e w.instr = none → unitOf w.instr = .route → ∃ r, acceptance w.instr e v = some (true, r) ∧
      (∀ f, r = .error f → exec (.routeAccept core) s = .next (engineTrap gid w.mask w.pc f v)) ∧
      ∀ a u, r = .ok (a, u) → kvHas u.groups gid = true → ∃ t, exec (.routeAccept core) s = .next t ∧
        EngAccepted (homeOf v e.g) e a u t) ∧
  (∀ (core n i : Nat) (s : State) (x : RouteEnt) (p : RPair), EntSends s core n x → x.pairs[i]? = some p → p.st = .unsent →
    (∀ j q, j < i → x.pairs[j]? = some q → q.st ≠ .unsent) →
    let e := rtEntry s x.team p.value
    let next := fun (t : State) => exec (.routePairSend core n) s = .next (drainAll (settleRoutes core t))
    (rtInfl e < rtCap e → FirstFor s core x p.value → (∀ j ∈ x.ringed, pairValue x j ≠ some p.value) →
      ∃ t, next t ∧ t.mem = s.mem ∧ PairSent core n i x x p s t) ∧
    (rtCap e ≤ rtInfl e → x.pol = .stall → next s) ∧
    (rtCap e ≤ rtInfl e → x.pol = .drop ∨ (x.pol = .spill ∧ ringSlot s x.owner = none) → ∃ t, next t ∧ t.mem = s.mem ∧
      t.am = s.am ∧ EntBecomes core n (pairOver x i p droppedRow) x.team p.value (rtInfl e) s t) ∧
    ∀ k, rtCap e ≤ rtInfl e → x.pol = .spill → ringSlot s x.owner = some k → ∃ t, next t ∧ t.am = s.am ∧
      t.mem = memPut s.mem (descWord s x.owner 0x40 + 64 * k)
        ([1, 0, 0, 0, 0, 0, 0, 0] ++ bytesOfWords (pairWords x p) ++ List.replicate 24 0) ∧
      EntBecomes core n { x with pairs := x.pairs.set i { p with st := .ringed k }, ringed := x.ringed ++ [i] }
        x.team p.value (rtInfl e) s t) ∧
  (∀ (core n i k : Nat) (s : State) (x : RouteEnt) (p : RPair) (after : List Nat), EntSends s core n x →
    x.ringed = i :: after → x.pairs[i]? = some p → p.st = .ringed k →
    rtInfl (rtEntry s x.team p.value) < rtCap (rtEntry s x.team p.value) → FirstFor s core x p.value →
    ∃ t, exec (.routeSpillReplay core n) s = .next (drainAll t) ∧ t.mem = memPut s.mem (descWord s x.owner 0x40 + 64 * k) [0] ∧
      PairSent core n i x { x with ringed := x.ringed.filter fun j => j != i } p s t) ∧
  (∀ (k core n i : Nat) (s : State) (r : Ret) (x : RouteEnt) (p : RPair), s.am.rets[k]? = some r →
    r.left = true → laneReady s r.gid r.seq r.lane = true → hasLanded s r.pkt = true → landsNext s r.pkt = true → (∀ o, findOp (getGroup s r.gid) r.seq = some o → isRelease o = false) →
    let v := takePacket r.pkt { s with am := { s.am with rets := s.am.rets.eraseIdx k } }
    let next := fun (t : State) => exec (.routeReturn k) s = .next (drainAll t)
    (liveEnt s r.dom r.tag = none → savedFor s r.dom r.tag = none →
      next (laneOver r.gid r.seq r.lane none (countEvent (coreOfGid r.gid) r.dom 0x0007 1 r.pc.toNat r.entry v))) ∧
    (liveEnt s r.dom r.tag = some (core, n, x, i, p) → (getCtx s x.owner).fatal = none →
      let y := returnRow r core (x.len * (if x.bf16 then 2 else 4)) v
      getEnt y.st core n = some x → ∃ t, next (laneOver r.gid r.seq r.lane (lineErr y.bad) (settleRoutes core t)) ∧
        EntBecomes core n
          (if y.bad.isSome then pairOver x i p droppedRow
           else { pairOver x i p receivedRow with adds := x.adds ++ [(i, y.bytes)] })
          x.team p.value (rtInfl (rtEntry y.st x.team p.value) - 1) y.st t)) ∧
  (∀ (k core n i : Nat) (s : State) (d : Drop) (x : RouteEnt) (p : RPair), s.am.drops[k]? = some d →
    hasLanded s d.pkt = true → landsNext s d.pkt = true → savedFor s d.dom d.tag = none →
    let v := takePacket d.pkt { s with am := { s.am with drops := s.am.drops.eraseIdx k } }
    (liveEnt s d.dom d.tag = none → exec (.dropNotice k) s = .next (drainAll v)) ∧
    (liveEnt s d.dom d.tag = some (core, n, x, i, p) → getEnt s core n = some x →
      ∃ u, exec (.dropNotice k) s = .next (drainAll (settleRoutes core u)) ∧
        EntBecomes core n (pairOver x i p droppedRow) x.team p.value (rtInfl (rtEntry s x.team p.value) - 1) v u)) ∧
  ∀ (core n due : Nat) (s : State) (x : RouteEnt), getEnt s core n = some x → x.st ≠ .done → x.due = some due → due ≤ s.dev.clock →
    ∃ t, exec (.routeTimeout core n) s = .next (drainAll (settleRoutes core t)) ∧
      t = { s with mem := t.mem, teams := t.teams, cores := t.cores } ∧
      getEnt t core n = some { x with
        due := none, ringed := [], pairs := x.pairs.map fun p => { p with st := .ended },
        rows := x.rows.map fun r => { r with miss := r.exp - r.recv } } ∧
      (∀ v, rtInfl (rtEntry t x.team v) =
        rtInfl (rtEntry s x.team v) - (x.pairs.filter fun p => p.st == .sent && p.value == v).length) ∧
      let slot := fun (k : Nat) => descWord s x.owner 0x40 + 64 * k
      let desc := (getCtx s x.owner).desc
      (Memory.wf s.mem = true → (∀ p ∈ x.pairs, ∀ k, p.st = .ringed k → slot k < desc + 0x40 ∨ desc + 0x48 ≤ slot k) →
        (∀ p ∈ x.pairs, ∀ k, p.st = .ringed k → memByte t.mem (slot k) = 0) ∧
        ∀ a, (∀ p ∈ x.pairs, ∀ k, p.st = .ringed k → a ≠ slot k) → memByte t.mem a = memByte s.mem a)

/-- A cycle whose vote passes over an eligible fibre is one that it misses, and 64 in a row age it (R71); a peer port that can
move an entry holds its group no longer (R37). A bin that is full, flushed or past its time becomes a resident group when its
resources are free, its fibres at their entries with their arguments (R12, R20, R22); the oldest item of a spawn overflow area
that can be taken leaves it, and its slots are zero (R23); a message takes its binding: a handler fibre in a bin, an entry of an
inbox port, or AM_DROPPED and a drop notice (R194, R196). -/
def Obligations.SpawnEvents : Prop :=
  (∀ (gid : Nat) (s : State) (g : Group), kvGet s.groups gid = some g →
    ∃ h, exec (.fibreAged gid) s = .next (setGroup s gid h) ∧
      h = { g with fibres := h.fibres } ∧
      LanesRelate g h (eligible g) fun _ x y => y = { x with aged := x.aged || decide (64 ≤ x.misses) }) ∧
  (∀ (clock : Nat) (g : Group) (v : Vote), g.sched.vote = some v →
    let h := endCycle clock g
    h = { g with fibres := h.fibres, sched := { g.sched with
      ageing := h.sched.ageing, holds := h.sched.holds, portHolds := h.sched.portHolds } } ∧
    LanesRelate g h (v.elig &&& ~~~v.ran) fun _ x y =>
      y = { x with misses := x.misses + 1, aged := x.aged || decide (64 ≤ x.misses + 1) }) ∧
  (∀ (gid port : Nat) (s : State) (g : Group), kvGet s.groups gid = some g → peerReady s g port = true →
    g.sched.leaf = 12 ∨ g.sched.leaf = 13 →
    exec (.peerPortTransfer gid port) s = .next (setGroup s gid { g with sched := { g.sched with leaf := 6 } })) ∧
  (∀ (core bin : Nat) (s : State) (b : Bin), kvGet (getCore s core).bins bin = some b →
    let ready := fun (i : Instr) => (i = .binLaunch core bin ∧ (b.flush = true ∨ b.fibres.length = 64)) ∨
      (i = .binTimerExpiry core bin ∧ b.due ≤ s.dev.clock)
    let s1 := { s with nextId := s.nextId + 1 }
    let place := placeGroup core (binGroup (s.nextId + 1) b) s1
    let free := homeFree s1 core (binTeam b).hdr = true ∧ (getCtx s b.owner).fatal = none
    (∀ i gid u, ready i → free → place = some (gid, u) → ∃ v, exec i s =
        .next (acquireL1 core (b.fibres.foldl (fun n e => max n e.2.acq) 0) (modCore v core fun c => { c with bins := kvDel c.bins bin })) ∧
      v = joinTeam (s.nextId + 1) gid (addTeam (s.nextId + 1) (binTeam b) core u)) ∧
    (¬ free ∨ place = none →
      (b.flush = true ∨ b.fibres.length = 64 → exec (.binLaunch core bin) s = .next s) ∧
      (b.due ≤ s.dev.clock → exec (.binTimerExpiry core bin) s =
        .next (modCore s core fun c => { c with bins := kvSet c.bins bin { b with flush := true } }))) ∧
    ∀ l f, kvGet b.fibres l = some f → l < 64 → ∃ x, kvGet (binGroup (s.nextId + 1) b).fibres l = some x ∧
      x.pc = f.entry ∧ x.launch = f.launch ∧ x.st = .resident ∧ x.preds = 1 ∧ x.fpctl = 0 ∧
      (∀ r, r < b.hdr.regs → getReg x r = f.args.getD r 0) ∧ x.wid.extractLsb' 0 6 = BitVec.ofNat 6 l ∧
      x.wid.extractLsb' 6 58 = f.wid.extractLsb' 6 58) ∧
  (∀ (owner core i : Nat) (s : State) (before after : List (Nat × OvfItem)) (x : OvfItem),
    (getCtx s owner).ovf = before ++ (i, x) :: after → (∀ e ∈ before, deliverable s owner core e.2 = false) →
    deliverable s owner core x = true →
    ∃ u, exec (.overflowRedelivery owner core) s = .next (deliverItem owner core x u) ∧
      u = { s with mem := u.mem, ctxs := kvMod s.ctxs owner fun c => { c with ovf := c.ovf.filter fun e => e.1 != i } } ∧
      (Memory.wf s.mem = true → ∀ a, memByte u.mem a =
        let at_ := descWord s owner 0x10 + 64 * i
        if at_ ≤ a ∧ a < at_ + 64 * slotsOf x then 0 else memByte s.mem a)) ∧
  (∀ (owner core team num index port n gid p : Nat) (ws : List Word) (s : State) (g : Group), kvGet s.groups gid = some g →
    groupOfTeam s team num = some gid → portOfKind g (if n = 1 then 2 else 3) = some p →
    deliverItem owner core (.entry team num index port ws n) s =
      setGroup s gid (modPort g p fun q => { q with fifo := q.fifo ++ [entryWords ws] })) ∧
  ∀ (k : Nat) (s : State) (m : Msg), s.am.msgs[k]? = some m → msgReady s k m = true → m.dev = s.dev.num.toNat →
    (∀ gid, m.gid = some gid → ∀ o, findOp (getGroup s gid) m.seq = some o → isRelease o = false) →
    let v := takePacket m.pkt { s with am := { s.am with msgs := s.am.msgs.eraseIdx k } }
    let next := fun (t : State) => exec (.amArrival k) s = .next (msgOver m none t)
    (bindingOf s m = none →
      let u := countEvent (4 * m.clu) m.dom 0x0006 1 m.pc.toNat m.entry v
      let notice := fun (t : PairTag) => ({
        id := u.nextId, net := .c, src := .cluster m.clu, dst := .cluster (t.core / 4), len := 1 } : Packet)
      next (match m.pair with
        | some t => { u with
            am := { u.am with drops := u.am.drops ++ [{ dom := m.dom, tag := t, pkt := some u.nextId }] },
            net := inject (notice t) u.net, nextId := u.nextId + 1 }
        | none => u)) ∧
    (∀ team num owner gid p g, bindingOf s m = some (.inbox team num owner) → groupOfTeam s team num = some gid →
      kvGet s.groups gid = some g → portOfKind g 2 = some p → (getPort g p).fifo.length < 16 →
      entryWaits s g.place.owner g.place.team g.place.num 1 = false → m.payload.length = 8 →
      ∃ entry, next (setGroup v gid (modPort g p fun q => { q with fifo := q.fifo ++ [entry] })) ∧ entry.length = 64 ∧
        (∀ l, l < 8 → entry.getD l 0 = m.payload.getD l 0) ∧
        entry.getD 8 0 = BitVec.ofNat 32 (m.addr.getD 0) ∧ entry.getD 9 0 = BitVec.ofNat 32 (m.addr.getD 0 / 2 ^ 32) ∧
        ∀ l, 10 ≤ l → entry.getD l 0 = 0) ∧
    ∀ owner hdr karg prio by_ core bin b l, bindingOf s m = some (.kernel owner hdr karg prio by_) →
      (getCtx s owner).out = false → core = msgCore v m.clu owner (msgFibre m owner hdr karg prio) →
      (getCore s core).bins.find? (fun e => keyOf owner (msgFibre m owner hdr karg prio) e.2) = some (bin, b) → emptySlot b = some l →
      next (putInBin core owner bin l (msgFibre m owner hdr karg prio) v)

/-- The queues (R233, R234, R236): a doorbell lets every queue of its domain pull that is not stopped, nor refused with its record
not rewritten; a pull takes the record at HEAD, or refuses it, posts it and leaves HEAD; a launch record begins once its
dependences are met, after INVTLB's clearing, and writes back and invalidates every L1; a fence record publishes its value, moves
DONE and interrupts; unmet dependences are read anew. -/
def Obligations.QueueEvents : Prop :=
  (∀ (dom : Nat) (s : State), ∃ t, exec (.doorbell dom) s = .next t ∧ t = { s with queues := t.queues } ∧
    ∀ o q, q < 16 →
      ((∃ c, (o, c) ∈ s.ctxs ∧ c.dom = dom) → qSize s o q ≠ 0 → qStatus s o q ≠ 3 → (getQueue s o q).refused = false →
        getQueue t o q = { getQueue s o q with rung := true }) ∧
      ((¬ ∃ c, (o, c) ∈ s.ctxs ∧ c.dom = dom) ∨ qSize s o q = 0 ∨ qStatus s o q = 3 ∨ (getQueue s o q).refused = true →
        getQueue t o q = getQueue s o q)) ∧
  (∀ (pa n owner q : Nat) (s : State), q < 16 → 0 < n →
    let at_ := recordAddr s owner q (qHead s owner q)
    let meets := ∃ a, pa ≤ a ∧ a < pa + n ∧ at_ ≤ a ∧ a < at_ + 128
    ∃ t, noteRewrite pa n s = t ∧ t = { s with queues := t.queues } ∧
      (meets → (getQueue t owner q) = { getQueue s owner q with refused := false }) ∧
      (¬ meets → getQueue t owner q = getQueue s owner q)) ∧
  (∀ (owner q : Nat) (s : State), s.dev.phase = 5 → kvHas s.ctxs owner = true → q < 16 → (getCtx s owner).fatal = none →
    let x := getQueue s owner q
    let i := qHead s owner q
    let at_ := (getCtx s owner).desc + 0x80 + 32 * q
    let v := recordAt s owner q i
    x.rung = true → qStatus s owner q ≠ 3 → i ≠ qTail s owner q → (∀ p ∈ x.pulled, p.begun = true) → x.refused = false →
    (checkRecord s owner i v = none →
      ∃ u, exec (.queuePull owner q) s = .next (postEvent (getCtx s owner).dom owner 0x01 (q * 2 ^ 32 + i) u) ∧
        u = { s with mem := memPut s.mem (at_ + 24) [2], queues := u.queues } ∧
        getQueue u owner q = { x with rung := false, refused := true }) ∧
    ∀ p, checkRecord s owner i v = some p →
      ∃ t, exec (.queuePull owner q) s = .next t ∧
        t = { s with mem := memPut (memPut s.mem (at_ + 16) (bytesOfNat 4 (i + 1))) (at_ + 24) [1], queues := t.queues } ∧
        (∃ r, getQueue t owner q = { x with pulled := x.pulled ++ [r] } ∧ r = { p with deps := r.deps, depsMet := r.deps.isEmpty }) ∧
        p.index = i ∧ p.fence = (field v 0 4 == 1) ∧ p.prio = field v 4 2 ∧ p.karg.toNat = field v 128 64 ∧ p.hdrAddr = field v 64 64 ∧
        p.deps.length = field v 14 3 ∧ field v 14 3 ≤ 4) ∧
  (∀ (s : State), ∃ t, exec .dependenceRecheck s = .next t ∧ t = { s with queues := t.queues } ∧ ∀ o q, q < 16 →
    (getQueue t o q).launches = (getQueue s o q).launches ∧
    (getQueue t o q).pulled = (getQueue s o q).pulled.map fun p =>
      let ds := unmetDeps s o p.deps
      if p.depsMet then p else { p with deps := ds, depsMet := ds.isEmpty }) ∧
  (∀ (owner q : Nat) (s : State) (before after : List Pulled) (p : Pulled), (getQueue s owner q).pulled = before ++ p :: after →
    let may := fun (p : Pulled) => p.begun = false ∧ p.depsMet = true ∧ (p.invtlb = true → launchesOpen s owner = false)
    may p → (∀ r ∈ before, ¬ may r) → (getCtx s owner).fatal = none →
    let w := flushAllL1 (if p.invtlb then clearTlb (fun o => o == owner) s else s)
    ∃ t l, exec (.launchBegin owner q) s = .next t ∧
      t = { w with nextId := w.nextId + 1, launches := kvSet w.launches (w.nextId + 1) l, queues := t.queues } ∧
      l = { owner := owner, queue := q, index := p.index, hdr := p.hdr, karg := p.karg, prio := p.prio, ord := p.ord, twin := p.twin,
            twink := p.twink, nopre := p.nopre, teams := hdrTeams p.hdr, placed := 0, waitSince := l.waitSince,
            window := if p.ord then some (0, 0) else none, windowAt := l.windowAt } ∧
      getQueue t owner q = { getQueue w owner q with
        pulled := (getQueue w owner q).pulled.map (fun r => if r.index = p.index then { r with begun := true } else r),
        launches := (getQueue w owner q).launches ++ [(p.index, w.nextId + 1)] }) ∧
  ∀ (owner q : Nat) (s : State) (p : Pulled) (rest : List Pulled) (e : TlbEnt), (getQueue s owner q).pulled = p :: rest →
    p.fence = true → p.depsMet = true → (getCtx s owner).fatal = none → devTranslate s owner p.hdrAddr .store = some e →
    let w := homeWrite (paOf e p.hdrAddr) (bytesOfNat 8 p.karg.toNat) e.home e.hcore s
    let dom := (getCtx w owner).dom
    let d := setDone owner q (p.index + 1) (modDom w dom fun d => { d with resets := 0 })
    let n := if p.irq then postEvent dom owner 0x0A (q * 2 ^ 32 + p.index) d else d
    exec (.fenceRecordComplete owner q) s = .next (recheckAll (recordOver owner q p.index n)) ∧
    (getQueue (recordOver owner q p.index n) owner q).pulled = (getQueue n owner q).pulled.filter fun r => r.index != p.index

/-- Launches and teams (R25 to R30, R151, R237): the placer gives the next team of a launch cores, on which its groups start at
the kernel's entry with their work identifiers; a retiring group with nothing outstanding leaves its slot; a launch whose teams
and fibres are over ends, with every L1 written back; a team that has waited too long reserves a cluster, and later its victims
are stopped or GANG_STARVED is posted; an ordered window closes and the next ticket's opens. -/
def Obligations.TeamEvents : Prop :=
  (∀ (id index copy : Nat) (cores cs : List Nat) (s t : State),
    let w : Waiter := .team id index copy
    placerTurn s w = true →
    (cores = [] ∧ waiterFits s w = some cs) ∨ (cores ≠ [] ∧ cs = cores ∧ s.dev.policy.ownPlacement = true ∧
      clusterOfCore (cores.headD 0) ∈ freeClusters s w ∧ homeFits s w (cores.headD 0) = true) →
    let team := s.nextId + 1
    let x := waiterTeam s w team
    placeTeam team x.1 x.2 cs { s with nextId := team } = some t →
    exec (.teamPlacement ⟨id, index, copy⟩ cores) s = .next { t with
      launches := kvMod t.launches id fun l => if copy = 2 then l else notePlaced index l,
      reserved := t.reserved.filter fun e => e.2 != w }) ∧
  (∀ (id index copy team : Nat) (s : State) (l : Launch), kvGet s.launches id = some l →
    waiterTeam s (.team id index copy) team =
      ({ launch := id, index := index, owner := l.owner, kind := .launched, hdr := l.hdr, prio := l.prio, copy := copy,
         streams := List.replicate l.hdr.e1 [] },
       (List.range l.hdr.e1).map fun n => launchGroup l id team index n)) ∧
  (∀ (index j : Nat) (l : Launch), isPlaced (notePlaced index l) j = true ↔ isPlaced l j = true ∨ j = index) ∧
  (∀ (id team index n lane : Nat) (l : Launch), lane < min 64 l.hdr.e0 → ∃ g x,
    launchGroup l id team index n = g ∧ g.place.num = n ∧ g.place.team = team ∧ g.st = .resident ∧
    g.uregs = List.replicate l.hdr.uregs 0 ∧ kvGet g.fibres lane = some x ∧ x.pc = l.hdr.entry ∧ x.launch = some id ∧
    x.regs = List.replicate l.hdr.regs 0 ∧ x.preds = 1 ∧ x.st = .resident ∧
    (n < 2 ^ l.hdr.widths.headD 0 → 6 + l.hdr.widths.headD 0 ≤ 64 →
      x.wid.extractLsb' 0 6 = BitVec.ofNat 6 lane ∧ ∀ i, i < l.hdr.widths.headD 0 → x.wid.getLsbD (6 + i) = n.testBit i)) ∧
  (∀ (gid : Nat) (s : State) (g : Group), kvGet s.groups gid = some g → g.st = .retiring → g.halted = false →
    (∀ o ∈ g.ops, o.done = true) → g.engQ = [] →
    ∃ u, exec (.groupRetire gid) s = .next (retireTeam g.place.team u) ∧
      u = { s with
        groups := kvDel s.groups gid,
        am := { s.am with binds := s.am.binds.filter fun b => b.target != .inbox g.place.team g.place.num g.place.owner },
        teams := kvMod s.teams g.place.team fun t => { t with
          streams := t.streams.set g.place.num g.twin, streamAt := kvSet t.streamAt g.place.num (coreOfGid gid),
          live := t.live - 1, groups := t.groups.filter fun x => x != gid } }) ∧
  (∀ (id : Nat) (s : State) (l : Launch), kvGet s.launches id = some l → l.teams ≤ l.placed → secondCopies s id = [] →
    launchAlive s id = false → (getCtx s l.owner).fatal = none →
    let w := flushAllL1 s
    exec (.launchEnd id) s = .next (recordOver l.owner l.queue l.index { w with launches := kvDel w.launches id })) ∧
  (∀ (w : Waiter) (cluster : Nat) (s : State), waits s w = true → reserves s w = false →
    waitingSince s w + cyclesOfUs s s.dev.policy.starve < s.dev.clock → longerWaits s (waitingSince s w) = false →
    cluster ∈ clustersPresent s → kvHas s.reserved cluster = false →
    (∀ k ∈ clustersPresent s, kvHas s.reserved k = false → freeSlots s k ≤ freeSlots s cluster) →
    exec (.starvationLimit w cluster) s = .next { s with reserved := kvSet s.reserved cluster w }) ∧
  (∀ (cluster : Nat) (w : Waiter) (victims : List Nat) (s : State), kvGet s.reserved cluster = some w →
    waitingSince s w + cyclesOfUs s s.dev.policy.starve2 < s.dev.clock →
    let t := (waiterTeam s w 0).1
    (s.dev.policy.preempt = false ∨ (∀ v ∈ victims, isVictim s w cluster v = false) →
      exec (.secondStarvationLimit cluster victims) s =
        .next (postEvent (getCtx s t.owner).dom t.owner 0x02 ((getLaunch s t.launch).queue * 2 ^ 32 + t.index % 2 ^ 32) s)) ∧
    ∀ v, s.dev.policy.preempt = true → victims = [v] → preemptible s v = true → (getTeam s v).prio < t.prio →
      clusterOfCore (getTeam s v).home = cluster → exec (.secondStarvationLimit cluster victims) s = .next (stopTeam v s)) ∧
  ∀ (id t n : Nat) (s : State) (l : Launch), kvGet s.launches id = some l → l.window = some (t, n) → ticketOver s id l t n = true →
    (getCtx s l.owner).fatal = none →
    let next := if n + 1 < l.hdr.e1 then some (t, n + 1) else if t + 1 < l.teams then some (t + 1, 0) else none
    let u := { s with launches := kvSet s.launches id { l with window := next, windowAt := s.dev.clock } }
    exec (.orderedWindowOpen id) s = .next (match next with | some k => releaseHeldOps id k.1 k.2 u | none => u)

/-- Pre-emption and twin checks (R209, R232, R240, R241, R282). A team that may be pre-empted stops: its groups issue nothing,
their paths that wait at a barrier will issue BWAIT again, and its drain begins. Drained, it is saved and its resources are free;
a saved team that is placed gets its items back. Two retired copies whose streams agree in address, mask and data commit once;
a difference is fatal to the context. -/
def Obligations.PreemptEvents : Prop :=
  (∀ (id : Nat) (w : Waiter) (s : State), kvGet s.saved id = none → preemptible s id = true → s.dev.policy.preempt = true →
    w ∈ waiters s → (getTeam s id).prio < (waiterTeam s w 0).1.prio →
    exec (.preemption id) s = .next (stopTeam id s)) ∧
  (∀ (id : Nat) (s : State) (x : Saved), kvGet s.saved id = some x → hasTeam s x.team.owner = false →
    exec (.preemption id) s = .next { s with ctxs := kvMod s.ctxs x.team.owner fun c => { c with out := true } }) ∧
  (∀ (id : Nat) (chosen : Bool) (s : State) (t : Team), kvGet s.teams id = some t →
    t.placedAt + cyclesOfUs s s.dev.policy.timeSlice ≤ s.dev.clock →
    (chosen = true → preemptible s id = true → exec (.timeSliceExpiry id chosen) s = .next (stopTeam id s)) ∧
    (chosen = false ∨ preemptible s id = false →
      exec (.timeSliceExpiry id chosen) s = .next { s with teams := kvSet s.teams id { t with placedAt := s.dev.clock } })) ∧
  (∀ (id gid : Nat) (s : State) (g : Group) (t : Team), kvGet s.teams id = some t → kvGet s.groups gid = some g →
    (gid ∉ t.groups → kvGet (stopTeam id s).groups gid = some g) ∧
    (gid ∈ t.groups → ∃ h, kvGet (stopTeam id s).groups gid = some h ∧
      h = { g with fibres := h.fibres, sched := { g.sched with preempted := true } } ∧
      FibresBecome g h fun _ x => { x with st := match x.st with | .blocked (.barrier ..) => .resident | y => y }) ∧
    ∃ u, kvGet (stopTeam id s).teams id = some u ∧ u.stopAt = some s.dev.clock) ∧
  (∀ (id : Nat) (s : State) (t : Team), kvGet s.teams id = some t → t.stopAt.isSome = true → (getCtx s t.owner).fatal = none →
    teamDrained s id = true →
    let u := stopScans t.home (fun t => t == id) (settleAttns (fun t => t == id) s)
    let w := spillBins t.owner (t.groups.foldl (fun s g => spillGroup g (unstageTwin g (recallWaits t.home g s))) u)
    ∃ u x, exec (.preemptionSave id) s = .next u ∧ kvGet u.saved id = some x ∧
      u.teams = kvDel w.teams id ∧ u.groups = w.groups.filter (fun e => e.2.place.team != id) ∧ x.id = id ∧
      x.team = { getTeam w id with stopAt := none } ∧
      x.groups = (getTeam w id).groups.map (fun gid => { getGroup w gid with
        leaving := [], sched := { (getGroup w gid).sched with holds := [], vote := none, preempted := false, leaf := 6 } }) ∧
      x.cmds = (engOf w (getTeam w id).home).cmds.filter (fun c => c.team == id) ∧
      x.ents.map (fun e => e.1) = (teamEnts w id).map fun e => e.1) ∧
  (∀ (id : Nat) (cores cs : List Nat) (s t : State) (x : Saved), kvGet s.saved id = some x →
    let w := Waiter.saved id
    let u := { s with ctxs := kvMod s.ctxs x.team.owner fun c => { c with out := false } }
    placerTurn u w = true →
    (cores = [] ∧ waiterFits u w = some cs) ∨ (cores ≠ [] ∧ cs = cores ∧ s.dev.policy.ownPlacement = true ∧
      clusterOfCore (cores.headD 0) ∈ freeClusters u w ∧ resumeHome u x (cores.headD 0) = true) →
    placeTeam id x.team x.groups cs u = some t →
    exec (.resume id cores) s = .next (restoreTeam x { t with reserved := t.reserved.filter fun e => e.2 != w })) ∧
  (∀ (launch index i j : Nat) (s : State) (a b : Team), retiredCopy s launch index 1 = some (i, a) →
    retiredCopy s launch index 2 = some (j, b) → (getCtx s a.owner).fatal = none →
    (streamsDiff a.streams b.streams = none → ∃ u, exec (.twinCompare launch index) s =
        .next { u with teams := kvDel (kvDel u.teams i) j } ∧
      u = a.streams.flatten.foldl (commitItem { core := a.home, owner := a.owner, pc := 0, entry := a.hdr.entry.toNat })
        (releaseCopy b (releaseCopy a s))) ∧
    ∀ addr, streamsDiff a.streams b.streams = some addr →
      exec (.twinCompare launch index) s = .next (fatalCtx a.owner 0x17 0 addr s)) ∧
  (∀ (as bs : List TwinItem), streamDiff as bs = none ↔ as.length = bs.length ∧ ∀ (k : Nat) (x y : TwinItem), as[k]? = some x → bs[k]? = some y →
    x.addr = y.addr ∧ x.mask = y.mask ∧ x.data = y.data)

/-- The fatal path (R251 to R261). A watchdog condition is fatal to its context. A drain ends when nothing remains in flight, or
after 200 µs, when what remains is abandoned and DRAINCUT is set; the dump of a drained context is written and DUMP_READY
posted, or DUMP_LOST while the host has not acknowledged the last one. When every fatal context of the domain has been dumped
the domain is reset: its fibres die, DOMAIN_RESET is posted, and its queues go back to DONE, to run again or to stop. -/
def Obligations.FatalEvents : Prop :=
  (∀ (owner detail : Nat) (s : State), kvHas s.ctxs owner = true → (getCtx s owner).fatal = none →
    let ms := descWord s owner 0x70
    let limit := cyclesOfUs s (1000 * (if ms = 0 then 1000 else ms))
    (detail = 0 ∧ hasCounted s owner = true ∧ (getCtx s owner).lastIssue + limit ≤ s.dev.clock) ∨
      (detail = 1 ∧ ∃ e ∈ s.launches, ∃ t n, e.2.owner = owner ∧ e.2.windowAt + limit ≤ s.dev.clock ∧
        e.2.window = some (t, n) ∧ laterHolds s e.1 t n = true) ∨
      (detail = 2 ∧ ∃ e ∈ s.teams, ∃ c, e.2.owner = owner ∧ e.2.stopAt = some c ∧ c + cyclesOfUs s 200 < s.dev.clock) →
    exec (.watchdog owner detail) s = .next (fatalCtx owner 0x1B detail 0 s)) ∧
  (∀ (owner : Nat) (s : State) (f : Fatal), activeFatal s = some owner → (getCtx s owner).fatal = some f → f.step = .halted →
    kvHas s.ctxs owner = true →
    let w := stopEngines owner s
    let ended := fun (cut : Bool) (t : State) =>
      (getCtx t owner).fatal = (getCtx w owner).fatal.map (fun f => { f with
        step := .drained, cut := cut, listed := listedOf w owner,
        attnTeams := ((w.kv.attns.filter fun a => a.owner == owner).map fun a => a.team).eraseDups }) ∧
      (∀ gid g, kvGet w.groups gid = some g →
        let mine := ∃ e ∈ w.groups, e.1 = gid ∧ e.2.place.owner = owner
        (¬ mine → kvGet t.groups gid = some g) ∧
        (mine → kvGet t.groups gid = some { g with ops := g.ops.filter (fun o => o.done), engQ := [] })) ∧
      (∀ k x, kvGet w.teams k = some x → kvGet t.teams k = some (if x.owner = owner then { x with landings := [] } else x)) ∧
      t.mem = w.mem ∧ t.kv.attns = w.kv.attns.filter fun a => a.owner != owner
    (ctxDrained s owner = true → ∃ t, exec (.drainEnd owner) s = .next t ∧ ended false t) ∧
    (f.clock + cyclesOfUs s 200 ≤ s.dev.clock → ∃ t, exec (.drainTimeout owner) s = .next t ∧ ended true t)) ∧
  (∀ (owner : Nat) (s : State) (f : Fatal), activeFatal s = some owner → (getCtx s owner).fatal = some f → f.step = .drained →
    let c := getCtx s owner
    let d := getDom s c.dom
    let dumped := fun (t : State) => exec (.coreDump owner) s = .next { t with
      ctxs := kvMod t.ctxs owner fun c => { c with fatal := c.fatal.map fun f => { f with step := .dumped } } }
    (d.dumpWait = true → dumped (postEvent c.dom owner 0x05 0 s)) ∧
    (d.dumpWait = false →
      let u := (dumpReadErrs (dumpTeams s owner)).foldl (lateEcc owner) s
      let ts := dumpTeams u owner
      let recs := dumpRecords u f ts
      let n := 128 + recs.length + (lateSection (getCtx u owner)).length
      (n ≤ dumpLimit s d.dumpBase d.dumpSize → dumped (postEvent c.dom owner 0x04 n (modDom { u with
        mem := memPut u.mem d.dumpBase
          (dumpHeader owner (getCtx u owner) f ts.length (128 + recs.length) n false true ++ (recs ++ lateSection (getCtx u owner))) }
        c.dom fun d => { d with dumpWait := true }))) ∧
      (dumpLimit s d.dumpBase d.dumpSize < 128 → dumped (postEvent c.dom owner 0x05 0 u)))) ∧
  (∀ (dom o : Nat) (os : List Nat) (s : State) (f : Fatal), fatalOf s dom = o :: os → (∀ p ∈ o :: os, dumpPending s p = false) →
    (getCtx s o).fatal = some f →
    let detail := (f.recWords.getD 0 0).toNat + 2 ^ 32 * (f.recWords.getD 1 0).toNat
    let u := postEvent dom 0 0x06 detail (flushDomain dom (killDomain dom s))
    let again := decide ((getDom u dom).resets < (getDom u dom).replay)
    let v := (domQueues u dom).foldl (resetQueue again) (modDom u dom fun d => { d with resets := d.resets + 1 })
    exec (.domainReset dom) s = .next (if again then v else postEvent dom 0 0x07 0 v)) ∧
  (∀ (dom : Nat) (s : State),
    let t := killDomain dom s
    (∀ e ∈ t.groups, e.2.place.owner / 64 ≠ dom) ∧
    (∀ e ∈ s.groups, (∀ e' ∈ s.groups, e'.1 = e.1 → e'.2.place.owner / 64 ≠ dom) → e ∈ t.groups) ∧
    (∀ e ∈ t.teams, e.2.owner / 64 ≠ dom) ∧ (∀ e ∈ t.launches, e.2.owner / 64 ≠ dom) ∧ (∀ e ∈ t.saved, e.2.team.owner / 64 ≠ dom) ∧
    (∀ b ∈ t.am.binds, b.dom ≠ dom) ∧ (∀ o ∈ t.dumpQ, o / 64 ≠ dom) ∧
    ∀ o c, kvGet t.ctxs o = some c → o / 64 = dom → c.fatal = none ∧ c.ovf = [] ∧ c.late = [] ∧ c.out = false) ∧
  ∀ (again : Bool) (s : State) (owner q : Nat), qSize s owner q ≠ 0 → q < 16 → Memory.wf s.mem = true →
    let t := resetQueue again s (owner, q)
    qHead t owner q = qDone s owner q ∧ qDone t owner q = qDone s owner q ∧ qStatus t owner q = (if again then 1 else 3) ∧
    (getQueue t owner q).pulled = [] ∧ (getQueue t owner q).launches = [] ∧ (getQueue t owner q).rung = again

/-- The network (R262, R264, R265, R268, R270, R272, R275), in network cycles, of which two make a core cycle. Flits go by row, then
by column, to the router of their endpoint, and no input FIFO holds more than four. A packet that has waited AGE cycles at the head
of a FIFO becomes urgent; a router idle for 128 cycles powers down, committing in the fourth cycle unless something wakes it, and
wakes in 20; two packets of one combine tag and operation that wait in one router for one output become one; a link goes down or up,
and when it was the last of a peer's, what is bound for the peer is lost and the host is told. -/
def Obligations.NetworkEvents : Prop :=
  (∀ (r : Nat) (dst : Endpoint), r < 40 → routerOf dst < 40 →
    let d := routerOf dst
    (r % 8 ≠ d % 8 → across r (outPort r dst) = (8 * (r / 8) + d % 8, r % 8)) ∧
    (r % 8 = d % 8 → r / 8 ≠ d / 8 → across r (outPort r dst) = (d, 8 + r / 8)) ∧
    (r = d → outPort r dst = localPort dst)) ∧
  (∀ (t : Nat) (n : Net), (∀ e ∈ n.chans, e.2.fifo.length ≤ 4) → ∀ e ∈ (netTick t n).chans, e.2.fifo.length ≤ 4) ∧
  (∀ (i : Nat) (s : State) (p : Packet), s.net.packets[i]? = some p → p.since + s.net.age ≤ 2 * s.dev.clock →
    (∃ e ∈ s.net.chans, e.2.fifo.head? = some { pkt := p.id, idx := 0 }) →
    exec (.packetUrgent i) s = .next { s with net := { s.net with packets := s.net.packets.set i { p with urgent := true } } }) ∧
  (∀ (r : Nat) (s : State), r < 40 →
    let x := getRouter s r
    let now := 2 * s.dev.clock
    let idle := ∀ e ∈ s.net.chans, keyRouter e.1 = r → e.2.fifo = [] ∧ e.2.source = []
    let becomes := fun (i : Instr) (y : Router) => exec i s = .next { s with net := { s.net with routers := kvSet s.net.routers r y } }
    (x.power = .on → idle → x.idleSince + 128 ≤ now → becomes (.routerPowerDown r) { x with power := .powering, wakeEnd := now + 3 }) ∧
    (x.power = .powering → x.wakeEnd ≤ now → idle → becomes (.routerPowerDownCommit r) { x with power := .off }) ∧
    (x.power = .powering → becomes (.routerWake r) { x with power := .on, idleSince := now }) ∧
    (x.power = .off → becomes (.routerWake r) { x with power := .waking, wakeEnd := now + 20 }) ∧
    (x.power = .waking → x.wakeEnd ≤ now → becomes (.routerWakeEnd r) { x with power := .on, idleSince := now })) ∧
  (∀ (i j k : Nat) (tag : CombineTag) (s : State) (a b : Packet), s.net.packets[i]? = some a → s.net.packets[j]? = some b →
    a.id ≠ b.id → a.tag = some tag → b.tag = some tag → a.op = b.op → a.net = b.net → a.dst = b.dst →
    waitsFor s.net a = some k → waitsFor s.net b = some k → a.elems.length = b.elems.length →
    ∃ c, exec (.cPacketMerge i j) s = .next { s with net := dropPackets (fun p => p.id == b.id) { s.net with
        packets := s.net.packets.map fun p => if p.id = a.id then mergePackets p b else p } } ∧
      c = mergePackets a b ∧
      c = { a with count := a.count + b.count, flags := a.flags ||| b.flags, elems := c.elems, who := c.who, urgent := c.urgent } ∧
      c.elems.length = a.elems.length ∧
      (∀ k, k < a.elems.length → c.elems.getD k 0 =
        let x := a.elems.getD k 0
        let y := b.elems.getD k 0
        if a.op = 0 then (if x.toInt < y.toInt then y else x) else x + y)) ∧
  (∀ (k : Nat) (s : State), k < 16 →
    let down := { s with net := { s.net with links := s.net.links &&& ~~~(1#16 <<< k) } }
    let last := fun (p : Peer) => p.links.getLsbD k = true ∧ p.links &&& s.net.links ≠ 0 ∧ p.links &&& down.net.links = 0
    ((∃ e ∈ s.net.peers, last e.2) →
      ∃ gone : List Peer, exec (.linkDown k) s = .next (postAll 0x08 k (gone.foldl losePeer down)) ∧
        ∀ p, p ∈ gone ↔ ∃ e ∈ s.net.peers, e.2 = p ∧ last p) ∧
    ((∀ e ∈ s.net.peers, ¬ last e.2) → exec (.linkDown k) s = .next down) ∧
    exec (.linkUp k) s = .next { s with net := { s.net with links := s.net.links ||| (1#16 <<< k) } }) ∧
  ∀ (s : State) (p : Peer), p.dev ≠ s.dev.num →
    let t := losePeer s p
    (∀ m ∈ t.am.msgs, m.dev ≠ p.dev.toNat) ∧
    ∀ gid g, kvGet s.groups gid = some g → (∀ m ∈ s.am.msgs, m.gid ≠ some gid) →
      kvGet t.groups gid = some { g with ops := g.ops.map fun o => if o.done then o else { o with lost := p.slot :: o.lost } }

/-- The settings that the host makes through a mailbox (R296), in READY: what each writes, with the limits that its rule gives (R232,
R247, R256, R261, R268, R273, R287, R297). A value out of its limits is refused, a management operation needs the management
mailbox, the reply carries the request's number, and a request waits during a reset of its domain. -/
def Obligations.MailboxSettings : Prop :=
  (∀ (mgmt : Bool) (dom seq status value : Nat) (s : State),
    let r : Reply := { seq := seq % 2 ^ 16, status := status, value := value }
    putReply mgmt dom seq status value s = if mgmt then { s with dev := { s.dev with reply := r } } else
      { s with domains := kvSet s.domains dom { getDom s dom with reply := r } }) ∧
  (∀ (mgmt : Bool) (dom seq : Nat) (s : State), s.dev.phase = 5 → dom < 64 → resetDue s dom = false →
    let done := fun (op : Nat) (i : Instr) (f : State → State) => Served mgmt dom seq op 0 0 i s fun u t => t = f u
    let refused := fun (op : Nat) (i : Instr) => Refused mgmt dom seq op 1 i s
    let sets := fun (op : Nat) (i : Instr) (f : Domain → Domain) =>
      done op i fun u => { u with domains := kvSet u.domains dom (f (getDom u dom)) }
    (∀ n, (n ≤ 15 → sets 7 (.replaySetting mgmt dom seq n) fun d => { d with replay := n }) ∧
      (15 < n → refused 7 (.replaySetting mgmt dom seq n))) ∧
    (∀ table : List Word,
      (table.length = 32 → (∀ w ∈ table, w.getLsbD 1 = false) →
        sets 4 (.installHandlerTable mgmt dom seq table) fun d => { d with handlers := table }) ∧
      ((∃ w ∈ table, w.getLsbD 1 = true) → refused 4 (.installHandlerTable mgmt dom seq table))) ∧
    (∀ en base size, base % 4096 = 0 → size % 4096 = 0 → base + size ≤ deviceBytes →
      sets 5 (.dumpConfiguration mgmt dom seq en base size) fun d => { d with dumpEn := en, dumpBase := base, dumpSize := size }) ∧
    (sets 6 (.acknowledgeDumpReady mgmt dom seq) fun d => { d with dumpWait := false }) ∧
    (∀ base k, base % 64 = 0 → 6 ≤ k → k ≤ 16 → paHost s base = true → paValid s base = true →
      done 0x0C (.eventRing mgmt dom seq base (2 ^ k)) fun u => { u with
        domains := kvSet u.domains dom { getDom u dom with evBase := some base, evSize := 2 ^ k, evLost := 0 },
        mem := memPut u.mem (base + 16) (bytesOfNat 8 (getDom s dom).evLost) }) ∧
    (∀ base k mask period, base % 64 = 0 → 8 ≤ k → k ≤ 24 → mask < 8 →
      let p := if period = 0 then 65536 else period
      1024 ≤ p → p ≤ 2 ^ 24 → Served mgmt dom seq 9 0 0 (.traceRing mgmt dom seq base (2 ^ k) mask period) s fun u t =>
        t = { u with
          cores := t.cores,
          domains := kvSet u.domains dom { getDom u dom with trace := some { base := base, size := 2 ^ k, mask := mask, period := p } } } ∧
        ∀ c, c < 256 → kvGet (getCore t c).samples dom = some (s.dev.clock + p, 0)) ∧
    done 8 (.restartQueues mgmt dom seq) fun u => (domQueues u dom).foldl restartQueue u) ∧
  (∀ (s : State) (owner q : Nat), qSize s owner q ≠ 0 → qStatus s owner q = 3 → Memory.wf s.mem = true →
    let t := restartQueue s (owner, q)
    qStatus t owner q = 1 ∧ (getQueue t owner q).rung = true ∧ qHead t owner q = qHead s owner q) ∧
  (∀ (dom seq : Nat) (s : State), s.dev.phase = 5 → dom < 64 → resetDue s dom = false →
    let done := fun (op : Nat) (i : Instr) (f : State → State) => Served true dom seq op 0 0 i s fun u t => t = f u
    (∀ p : PolicyArgs, 100 ≤ p.timeSlice → p.timeSlice ≤ 100000 → 100 ≤ p.starve → p.starve ≤ 100000 → 1000 ≤ p.starve2 →
      p.starve2 ≤ 1000000 → 800 ≤ p.capWatts → p.capWatts ≤ 2400 → 64 ≤ p.age → p.age ≤ 4095 →
      (∀ w ∈ p.weights, 1 ≤ w.2 ∧ w.2 ≤ 15) →
      done 0x20 (.firmwarePolicy true dom seq p) fun u => { u with
        dev := { u.dev with policy :=
          { timeSlice := p.timeSlice, starve := p.starve, starve2 := p.starve2, preempt := p.preempt, capWatts := p.capWatts,
            ownPlacement := p.ownPlacement } },
        net := { u.net with age := p.age, weights := p.weights.foldl (fun m w => kvSet m w.1 w.2) u.net.weights } }) ∧
    (∀ num slots, (∀ p ∈ slots, p.slot < 64 ∧ p.memSize ≤ 2 ^ 40) →
      Served true dom seq 0x21 0 0 (.systemMap true dom seq num slots) s fun u t =>
        t = { u with dev := { u.dev with num := num, mapped := true }, net := { u.net with peers := t.net.peers } } ∧
        ∀ before p after, slots = before ++ p :: after → p.enabled = true → (∀ q ∈ after, q.slot ≠ p.slot ∧ q.enabled = true) →
          kvGet t.net.peers p.slot = some { slot := p.slot, dev := p.dev, memSize := p.memSize, links := p.links }) ∧
    (∀ target ranges, target < 64 → ranges.length ≤ 256 → (∀ r ∈ ranges, r.1 % 65536 = 0 ∧ r.2 % 65536 = 0) →
      done 0x23 (.physicalRanges true dom seq target ranges) fun u =>
        { u with domains := kvSet u.domains target { getDom u target with ranges := ranges } }) ∧
    (∀ p num slots target ranges,
      Refused false dom seq 0x20 3 (.firmwarePolicy false dom seq p) s ∧
      Refused false dom seq 0x21 3 (.systemMap false dom seq num slots) s ∧
      Refused false dom seq 0x23 3 (.physicalRanges false dom seq target ranges) s)) ∧
  ∀ (mgmt : Bool) (dom seq n : Nat) (table : List Word) (s : State), dom < 64 →
    (s.dev.phase ≠ 5 → resetDue s dom = false →
      Refused mgmt dom seq 7 2 (.replaySetting mgmt dom seq n) s ∧ Refused mgmt dom seq 4 2 (.installHandlerTable mgmt dom seq table) s) ∧
    (resetDue s dom = true → exec (.replaySetting mgmt dom seq n) s = .next s)

/-- The commands on contexts (R154, R194, R233, R245, R286, R292, R293, R296): the lowest free context number of a domain is given
once the system map is written, its queues' descriptors at their reset values; a context with nothing left is gone with its bindings;
the runtime's reply lets a suspended group issue its instruction again, or delivers the fault; a debugger holds its domain, asks
groups to stop, at once where a trap was delivered in this cycle, and lets them go on; a profiling session starts at zero, and a
migration freezes the ids that the new part lacks and posts it. -/
def Obligations.ContextCommands : Prop :=
  (∀ (desc : Nat) (s : State), Memory.wf s.mem = true → ∃ t, clearQueues desc s = t ∧ t = { s with mem := t.mem } ∧
    ∀ a, memByte t.mem a =
      if desc + 0x80 ≤ a ∧ a < desc + 0x280 ∧ 12 ≤ (a - (desc + 0x80)) % 32 then 0 else memByte s.mem a) ∧
  (∀ (mgmt : Bool) (dom seq : Nat) (s : State), s.dev.phase = 5 → dom < 64 → resetDue s dom = false →
    let done := fun (op : Nat) (i : Instr) (v : Nat) (f : State → State) => Served mgmt dom seq op 0 v i s fun u t => t = f u
    -- CREATE_CONTEXT, DESTROY_CONTEXT
    (∀ k desc, s.dev.mapped = true → k < 64 → kvHas s.ctxs (64 * dom + k) = false → (∀ j, j < k → kvHas s.ctxs (64 * dom + j) = true) →
      desc % 64 = 0 → desc + 0x280 ≤ deviceBytes →
      done 1 (.createContext mgmt dom seq desc) (64 * dom + k) fun u => clearQueues desc { u with
        ctxs := kvSet u.ctxs (64 * dom + k) { dom := dom, desc := desc, lastIssue := u.dev.clock } }) ∧
    (∀ desc, s.dev.mapped = false → Refused mgmt dom seq 1 2 (.createContext mgmt dom seq desc) s) ∧
    (∀ owner, kvHas s.ctxs owner = true → owner / 64 = dom → ctxBusy s owner = false →
      Served mgmt dom seq 2 0 0 (.destroyContext mgmt dom seq owner) s fun u t => t.ctxs = kvDel u.ctxs owner ∧
        t.groups = u.groups ∧ t.mem = u.mem ∧ t.am.binds = u.am.binds.filter (fun b => !bindsTo owner b) ∧
        ∀ q, q < 16 → ∀ e ∈ t.queues, e.1 ≠ 16 * owner + q) ∧
    (∀ owner, ctxBusy s owner = true → Refused mgmt dom seq 2 1 (.destroyContext mgmt dom seq owner) s) ∧
    -- PAGE_ABSENT_REPLY
    (∀ gid g t, kvGet s.groups gid = some g → g.trap.pageFault = some t → g.place.dom = dom → (getCtx s g.place.owner).fatal = none →
      let goes := fun (x : List StcmpAt) (u : State) =>
        setGroup u gid { g with st := .resident, trap := { g.trap with pageFault := none, stcmpAt := x } }
      let at_ : StcmpAt := { pc := t.retPc, mask := t.mask, elt := t.progress }
      (done 3 (.pageAbsentReply mgmt dom seq gid true) 0 fun u => deliverHeld gid (goes
        (if t.stcmp then at_ :: g.trap.stcmpAt.filter (fun x => x.mask &&& t.mask == 0) else g.trap.stcmpAt) u)) ∧
      done 3 (.pageAbsentReply mgmt dom seq gid false) 0 fun u => deliverTrap gid t (goes g.trap.stcmpAt u)) ∧
    -- DEBUGGER_HOLD_STOP_RESUME
    (let sets := fun (i : Instr) (f : Domain → Domain) =>
       done 0x0A i 0 fun u => { u with domains := kvSet u.domains dom (f (getDom u dom)) }
     let ask := fun (g : Group) => if g.halted then g else { g with sched := { g.sched with stopPending := true } }
     (sets (.debuggerHoldStopResume mgmt dom seq .hold) fun d => { d with session := true }) ∧
     (sets (.debuggerHoldStopResume mgmt dom seq .release) fun d => { d with session := false }) ∧
     ∀ (act : DebugAct) (asked : Nat → Group → Prop) (f : Group → Group),
      (act = .stopAll ∧ asked = (fun _ _ => True) ∧ f = ask) ∨
      (∃ k, act = .stopGroup k ∧ asked = (fun gid _ => gid = k) ∧ f = ask) ∨
      (∃ k, act = .stopTeam k ∧ asked = (fun _ g => g.place.team = k) ∧ f = ask) ∨
      (∃ k, act = .cancel k ∧ asked = (fun gid _ => gid = k) ∧ f = fun g => { g with sched := { g.sched with stopPending := false } }) ∨
      (∃ k, act = .resume k ∧ asked = (fun gid _ => gid = k) ∧ f = fun g => { g with halted := false }) →
      (getDom s dom).session = true ∨ (∃ k, act = .resume k) →
      (∀ e ∈ s.groups, e.2.trap.deliveredAt ≠ some s.dev.clock) →
      Served mgmt dom seq 0x0A 0 0 (.debuggerHoldStopResume mgmt dom seq act) s fun u t => t = { u with groups := t.groups } ∧
        ∀ gid g, kvGet s.groups gid = some g → (∀ h, (gid, h) ∈ s.groups → h = g) →
          (asked gid g → g.place.dom = dom → (getCtx s g.place.owner).fatal = none → kvGet t.groups gid = some (f g)) ∧
          (¬ asked gid g ∨ g.place.dom ≠ dom ∨ (getCtx s g.place.owner).fatal ≠ none → kvGet t.groups gid = some g)) ∧
    (∀ gid g, kvGet s.groups gid = some g → g.halted = false → g.trap.deliveredAt = some s.dev.clock →
      ∃ u, askStop s gid = traceRecord gid 2 3 0 (g.trap.words.getD 1 0) u ∧ u = { s with
        groups := kvSet s.groups gid { g with halted := true, sched := { g.sched with stopPending := false } } }) ∧
    -- PROFILING_SESSION
    (∀ device events pc ker, (device = true → mgmt = true) → events.length ≤ 8 → (∀ e ∈ events, e ∈ eventSet) →
      (pc = 0 ∨ pc ∈ eventSet) → (ker = 0 ∨ ker ∈ eventSet) →
      Served mgmt dom seq 0x0B 0 0 (.profilingSession mgmt dom seq device events pc ker none) s fun u t => ∃ p,
        p = { events := events, totals := List.replicate events.length 0, absent := List.replicate events.length false,
              pcEvent := pc, kerEvent := ker : Profile } ∧
        (if device then t.dev.profile = some p else (getDom t dom).profile = some p) ∧
        (∀ c x, kvGet t.cores c = some x → x.sketchPc = [] ∧ x.sketchKer = []) ∧ t.groups = u.groups ∧ t.mem = u.mem) ∧
    ∀ a p, (getDom s dom).profile = some p → paHost s a = true → paValid s a = true →
      Served mgmt dom seq 0x0B 0 0 (.profilingSession mgmt dom seq false [] 0 0 (some a)) s fun u t =>
        t = { u with mem := t.mem } ∧ (Memory.wf s.mem = true → ∀ x, x < a → memByte t.mem x = memByte s.mem x)) ∧
  -- CONTEXT_MIGRATION
  ∀ (dom : Nat) (present : List Nat) (s : State) (p : Profile), (getDom s dom).profile = some p → p.absent.length = p.events.length →
    ∃ q, q = { p with absent := q.absent, pcAbsent := q.pcAbsent, kerAbsent := q.kerAbsent, changed := q.changed } ∧
      q.absent.length = p.absent.length ∧
      (∀ i, i < p.events.length → (q.absent.getD i false = true ↔ p.absent.getD i false = true ∨ p.events.getD i 0 ∉ present)) ∧
      (q.pcAbsent = true ↔ p.pcAbsent = true ∨ (p.pcEvent ≠ 0 ∧ p.pcEvent ∉ present)) ∧
      (q.kerAbsent = true ↔ p.kerAbsent = true ∨ (p.kerEvent ≠ 0 ∧ p.kerEvent ∉ present)) ∧
      let more := q.absent ≠ p.absent ∨ q.pcAbsent ≠ p.pcAbsent ∨ q.kerAbsent ≠ p.kerAbsent
      let t := { s with domains := kvSet s.domains dom { getDom s dom with profile := some q } }
      exec (.contextMigration dom present) s = .next (if more then postEvent dom 0 0x09 0 t else t) ∧
      (q.changed = true ↔ p.changed = true ∨ more)

/-- Bring-up, power, registers and samples (R8, R288, R294, R295, R298, R299). Out of reset the boot ROM clears the SRAM, and the
device waits for firmware, checks its image, and trains the memory, or fails; every stack trains, or the device fails with the
stacks that did not. A throttle puts the core clock at its lowest step and tells the host; a cap runs it steps below 1.25 GHz, at
least at a quarter. A register takes a write as its access code says: a request slot of a mailbox holds it, nothing else changes.
DEVSTAT reads the phase, the error and the stacks. A core whose sample period is over samples the next group of the domain, round
robin. -/
def Obligations.DeviceEvents : Prop :=
  (∀ s : State, s.dev.phase = 0 →
    exec .deviceResetRelease s = .next { s with dev := { s.dev with phase := 1 }, cores := [], clusters := [], slices := [] }) ∧
  (∀ s : State, (passCycle s).dev.phase = (bringUp s.dev).phase ∧ (passCycle s).dev.err = (bringUp s.dev).err) ∧
  (∀ d : Dev, (d.phase = 1 → bringUp d = { d with phase := 2 }) ∧
    (d.phase = 3 → bringUp d = if Config.imageOk d.image then { d with phase := 4 } else { d with phase := 15, err := 1 }) ∧
    (d.phase ≠ 1 → d.phase ≠ 3 → bringUp d = d)) ∧
  (∀ (dom seq : Nat) (image : List Byte) (s : State), s.dev.phase = 2 →
    (image.length ≤ 2 ^ 22 → Served true dom seq 0x22 0 0 (.firmwareLoad true dom seq image) s fun u t =>
      t = { u with dev := { u.dev with phase := 3, image := image } }) ∧
    (2 ^ 22 < image.length → Refused true dom seq 0x22 1 (.firmwareLoad true dom seq image) s) ∧
    (dom < 64 → Refused false dom seq 0x22 3 (.firmwareLoad false dom seq image) s)) ∧
  (∀ (fail : BitVec 12) (s : State), s.dev.phase = 4 →
    exec (.memoryTraining fail) s = .next { s with dev :=
      if fail = 0 then { s.dev with phase := 5 } else { s.dev with phase := 15, err := 2, stackFail := fail } }) ∧
  (∀ (die : BitVec 2) (current temp : Bool) (s : State), current = true ∨ temp = true →
    let detail := die.toNat + (if current then 256 else 0) + if temp then 512 else 0
    exec (.powerThrottle die current temp) s = .next (postAll 0x0C detail { s with dev := { s.dev with clkStep := 4 } })) ∧
  (∀ (code detail d : Nat) (s : State), postAll code detail s = (liveDoms s).foldl (fun s d => postEvent d 0 code detail s) s ∧
    (d ∈ liveDoms s ↔ d < 64 ∧ ((∃ e ∈ s.ctxs, e.2.dom = d) ∨ (getDom s d).evBase.isSome = true))) ∧
  (∀ (steps : Nat) (s : State), exec (.powerCap steps) s = .next { s with dev := { s.dev with
    clkStep := if steps ≤ 12 then 16 - steps else 4 } }) ∧
  (∀ (old v : Byte), regAfter .ro old v = old ∧ regAfter .rw old v = v ∧ regAfter .w1c old v = old &&& ~~~v) ∧
  (∀ (off n : Nat) (v : DWord) (s : State), (∀ i, i < n → accessAt (off + i) = .ro) → exec (.registerWrite off n v) s = .next s) ∧
  (∀ (off n : Nat) (d : Option Nat) (v : DWord) (s : State), mailAt off = some d → n ≤ 8 → off % 4096 + n ≤ 64 →
    ∃ t, exec (.registerWrite off n v) s = .next t ∧
      (∀ k, k < 64 → (requestOf t d).getD k 0 = if off % 4096 ≤ k ∧ k < off % 4096 + n then v.extractLsb' (8 * (k - off % 4096)) 8
        else (requestOf s d).getD k 0) ∧
      (∀ e, e ≠ d → requestOf t e = requestOf s e) ∧ t = { s with domains := t.domains, dev := { s.dev with request := t.dev.request } }) ∧
  (∀ s : State, s.dev.phase < 16 → (devStat s).extractLsb' 0 4 = BitVec.ofNat 4 s.dev.phase ∧
    (devStat s).extractLsb' 8 8 = BitVec.ofNat 8 s.dev.err ∧ (devStat s).extractLsb' 16 12 = s.dev.stackFail ∧
    ∀ k, k < 4 → windowByte s (0x10000 + k) = (devStat s).extractLsb' (8 * k) 8) ∧
  ∀ (core dom due next : Nat) (s : State) (t : Trace), (getDom s dom).trace = some t →
    kvGet (getCore s core).samples dom = some (due, next) → due ≤ s.dev.clock →
    let here := fun (gid : Nat) => ∃ g, (gid, g) ∈ s.groups ∧ coreOfGid gid = core ∧ g.place.dom = dom
    let samples := fun (n : Nat) (u : State) => u = { s with cores := u.cores } ∧
      getCore u core = { getCore s core with samples := kvSet (getCore s core).samples dom (due + t.period, n) }
    ((∀ gid, ¬ here gid) → ∃ u, exec (.traceSample core dom) s = .next u ∧ samples next u) ∧
    ((∃ gid, here gid) → ∃ u gid, exec (.traceSample core dom) s = .next (traceRecord gid 1 2 0 (samplePc (getGroup u gid)) u) ∧
      here gid ∧ samples (slotOfGid gid + 1) u ∧ (next ≤ slotOfGid gid ∨ ∀ k, here k → slotOfGid k < next))

/-- What reaches memory and the caches from outside the fibres (R8, R113, R116, R123, R214, R218, R236, R274, R294). A host or peer
access to device memory is performed byte by byte at its home, a line with an uncorrectable error keeping its bytes, and one outside
device memory stops the model; the host cannot write the read-only fields of a queue's descriptor, and rewriting a refused record
lets its queue pull. A peer's load is answered, its atomic waits for the owning service group, and its message goes to its cluster.
A page that a core gives back lands at its address; an error that the patrol finds is posted and resets who owns the line; a
prefetched line is installed unless it is there; a slice loads the bank of an owner that has accessed it. -/
def Obligations.OutsideAccess : Prop :=
  -- Plain pages: after a write each byte in range reads as written, unless its line has failed
  (∀ (pa : Nat) (data : List Byte) (s : State), Memory.wf s.mem = true → (∀ i, i < data.length → sramHome s (pa + i) = none) →
    ∃ t, busWrites pa data s = t ∧ t = { s with mem := t.mem } ∧ ∀ a, memByte t.mem a =
      if pa ≤ a ∧ a < pa + data.length ∧ lineOf a ∉ s.ecc then data.getD (a - pa) 0 else memByte s.mem a) ∧
  (∀ (pa c : Nat) (b : Byte) (s : State), sramHome s pa = some c → lineOf pa ∉ s.ecc → busWrite pa b s = sramWrite c pa [b] s) ∧
  (∀ (pa : Nat) (data : List Byte) (s : State),
    (pa + data.length ≤ deviceBytes →
      exec (.hostMemoryAccess true pa data) s = .next (noteRewrite pa data.length (hostWrites pa data s)) ∧
      exec (.hostMemoryAccess false pa data) s = .next s) ∧
    (deviceBytes < pa + data.length → ∀ write, exec (.hostMemoryAccess write pa data) s = .fault (.noSuchPhysicalAddress pa))) ∧
  (∀ (pa : Nat) (data : List Byte) (s : State),
    let readOnly := fun (a : Nat) => ∃ e ∈ s.ctxs, ∃ q o, q < 16 ∧ 16 ≤ o ∧ o < 32 ∧ a = e.2.desc + 0x80 + 32 * q + o
    ((∀ i, i < data.length → ¬ readOnly (pa + i)) → hostWrites pa data s = busWrites pa data s) ∧
    ((∀ i, i < data.length → readOnly (pa + i)) → hostWrites pa data s = s)) ∧
  (∀ (dev pa : Nat) (wide : Bool) (data : List Byte) (s : State), s.dev.phase = 5 →
    let goes := fun (acc : BusAccess) (t : State) => exec (.remoteAccess ⟨dev, acc⟩ wide pa data) s = .next t
    (∀ n, pa + n ≤ deviceBytes → goes (.load n) (busReply dev pa (busReads s pa n) s)) ∧
    (pa + data.length ≤ deviceBytes → goes .store (busWrites pa data s)) ∧
    (∀ op, pa + (if wide then 8 else 4) ≤ deviceBytes → (svcQ s (owningCluster s pa)).length < 1024 →
      goes (.atomic op) (setSvcQ (owningCluster s pa) (svcQ s (owningCluster s pa) ++
        [{ gid := 0, seq := 0, lane := 0, outside := some { dev := dev, op := op, wide := wide, pa := pa, data := data } }]) s)) ∧
    (pa + 8 ≤ deviceBytes → goes .tredAdd (busWrites pa (bytesOfNat 8 (natOfBytes (busReads s pa 8) + natOfBytes data)) s)) ∧
    (∀ dom clu hid words rel, pa ≤ deviceBytes → ∃ m, goes (.message dom clu hid words rel) { s with am := { s.am with msgs := s.am.msgs ++ [m] } } ∧
      m.dom = dom ∧ m.dev = s.dev.num.toNat ∧ m.clu = clu ∧ m.hid = hid ∧ m.payload = words.take 8 ∧ m.launch = none ∧
      m.acq = if rel then 5 else 0)) ∧
  (∀ (dev pa : Nat) (acc : BusAccess) (wide : Bool) (data : List Byte) (s : State), deviceBytes < pa + busLen acc wide data →
    exec (.remoteAccess ⟨dev, acc⟩ wide pa data) s = .fault (.noSuchPhysicalAddress pa)) ∧
  (∀ (x : Outside) (s : State),
    let n := if x.wide then 8 else 4
    let old := busReads s x.pa n
    performOutside x s = busReply x.dev x.pa old (busWrites x.pa (bytesOfNat n (atomicNew x.op n (natOfBytes old) x.data)) s)) ∧
  (∀ (dev pa : Nat) (bs : List Byte) (s : State) (p : Peer), (s.net.peers.map fun e => e.2).find? (fun p => p.dev.toNat == dev) = some p →
    (p.links &&& s.net.links ≠ 0 → ∃ r, busReply dev pa bs s = { s with net := { s.net with peerOut := s.net.peerOut ++ [r] } } ∧
      r.dev = dev ∧ r.pa = pa ∧ r.op = .reply ∧ r.data = bs) ∧
    (p.links &&& s.net.links = 0 → busReply dev pa bs s = s)) ∧
  -- PAGE_UNMAP
  (∀ (core page : Nat) (s : State) (p : SramPage), (getCore s core).sram.find? (fun q => q.pa == page) = some p →
    ∃ t, exec (.pageUnmap core page) s = .next t ∧ t = { s with mem := t.mem, cores := t.cores } ∧
      getCore t core = { getCore s core with sram := (getCore s core).sram.filter fun q => q.pa != page } ∧
      (Memory.wf s.mem = true → Memory.wf p.bytes = true → ∀ a, memByte t.mem a =
        if page ≤ a ∧ a < page + 65536 then memByte p.bytes (a - page) else memByte s.mem a)) ∧
  -- ECC_PATROL
  (∀ (line : Nat) (s : State), line ∈ s.ecc →
    (lineOwners s line = [] → exec (.eccPatrol line) s = .next (postAll 0x0B line s)) ∧
    ∀ o, lineOwners s line = [o] → kvHas s.ctxs o = true →
      exec (.eccPatrol line) s = .next (fatalCtx o 0x1A 0 line (postEvent (o / 64) o 0x0B line s))) ∧
  (∀ (line : Nat) (s : State), line ∉ s.ecc → line ∈ s.soft →
    exec (.eccPatrol line) s = .next (deviceAdd 0x0003 1 { s with soft := s.soft.filter fun l => l != line })) ∧
  -- PREFETCH_LAND
  (∀ (core slot : Nat) (s : State) (p : PfSlot), kvGet (getCore s core).pfSlots slot = some p →
    let u := modCore s core fun c => { c with pfSlots := kvDel c.pfSlots slot }
    let v := sliceAccess { core := core, owner := p.owner, pc := p.pc, entry := p.entry } p.pa p.home u
    (p.pa ∈ s.ecc ∨ l1Find (getCore u core) p.pa ≠ none → exec (.prefetchLand core slot) s = .next u) ∧
    (p.pa ∉ s.ecc → l1Find (getCore u core) p.pa = none →
      exec (.prefetchLand core slot) s = .next (l1Install core p.owner (l1SigIndex p.pc) p.pa p.home true v).2.2)) ∧
  -- SLICE_BANK_SWITCH
  ∀ (slice owner : Nat) (s : State), owner ∈ (getSlice s slice).wanted → kvHas s.ctxs owner = true →
    ∃ u, exec (.sliceBankSwitch slice owner) s = .next (residentSliceBank slice owner u) ∧ u = { s with slices := u.slices } ∧
      getSlice u slice = { getSlice s slice with wanted := (getSlice s slice).wanted.filter fun o => o != owner }

/-! ## Stepping and decoding -/

/-- One step (R18, R19, R32, R33, R57 to R60, R75; the schedule is log 1). When no turn of the schedule is due and a path of the
cycle is left that is not held, whose word or words decode to an instruction and whose pipe is free, the step is exactly `exec` of
that instruction on the state in which the groups have voted and the path is chosen, with the fetch's translation kept: the meaning
itself moves the PCs on. The chosen lanes all stand at the chosen PC; among the groups of a sub-core the keys of R33 choose. The
word is the four bytes at the translated address. Every other step is stated too: a path that waits, words that are no instruction,
a failed fetch, the end of a stage and of the cycle, and an event of the schedule. -/
def Obligations.StepRunsDecodedInstruction : Prop :=
  let words (t : State) (w0 w1 : Word) := fetchWord t t.cur.pc.toNat = .ok w0 ∧
    if twoWords w0 then fetchWord t (t.cur.pc.toNat + 4) = .ok w1 else w1 = 0
  (∀ (s t : State) (w0 w1 : Word) (i : Instr), dueTurn s = none → nextPath (beginIssue s) = some t → heldLeaf t = none →
    words t w0 w1 → decode w0 w1 = .ok i → pipeFree i t = true → step s = exec i (noteFetch t)) ∧
  -- the other paths: held, with a pipe that is taken, with words that are no instruction, with a failed fetch
  (∀ (s t : State), dueTurn s = none → nextPath (beginIssue s) = some t →
    (∀ leaf, heldLeaf t = some leaf → step s = .next (noteStall leaf t) ∨ step s = .next (noteStall 6 t)) ∧
    (heldLeaf t = none →
      (∀ w0 w1, words t w0 w1 →
        (∀ i, decode w0 w1 = .ok i → pipeFree i t = false → step s = .next (noteStall 6 t) ∨
          step s = .next (modGroup (noteStall 6 t) (curGid t) fun g => { g with sched := { g.sched with passedOver := true } })) ∧
        (∀ e, decode w0 w1 = .error e → step s = exec .illegalOp (noteFetch t))) ∧
      ∀ c, fetchWord t t.cur.pc.toNat = .error c ∨
          (∃ w, fetchWord t t.cur.pc.toNat = .ok w ∧ twoWords w = true ∧ fetchWord t (t.cur.pc.toNat + 4) = .error c) →
        step s = exec (.instructionFetchFault c) t)) ∧
  -- no path is left: the checks of R75, then the end of the cycle
  (∀ s : State, dueTurn s = none → nextPath (beginIssue s) = none →
    (s.stage = .events ∨ s.stage = .issue → step s = .next (endIssue (beginIssue s))) ∧
    (∀ k, s.stage = .late k → step s = .next (passCycle (netCycle (sendOut s))))) ∧
  (∀ s : State, (passCycle s).dev.clock = s.dev.clock + 1 ∧ (passCycle s).stage = .events ∧ (beginIssue s).stage ≠ .events) ∧
  -- the turns of the schedule
  (∀ s : State, s.tape = [] ∨ (∃ t rest, s.tape = t :: rest ∧ t.dt ≠ 0) → dueTurn s = none) ∧
  (∀ (s : State) (i : Instr) (rest : List Turn), s.tape = { dt := 0, act := .event i } :: rest → i.isEvent = true →
    (surveyGroup s i = none → s.stage = .events → step s = exec i { s with tape := rest }) ∧
    ∀ gid k, surveyGroup s i = some gid → s.stage = .late k → k ≤ gid → step s = exec i { s with tape := rest, stage := .late gid }) ∧
  (∀ (s : State) (core slot port leaf : Nat) (rest : List Turn), s.tape = { dt := 0, act := .stall core slot port leaf } :: rest →
    s.stage = .events ∨ s.stage = .issue → step s = .next (waitTurn core slot port leaf (beginIssue { s with tape := rest }))) ∧
  -- the chosen path
  (∀ (s t : State), nextPath s = some t → ∃ gid port, choosePath gid port s = some t ∧ nextGroup s = some (gid, port)) ∧
  (∀ (s : State) (gid port : Nat), nextGroup s = some (gid, port) → ∃ g, (gid, g) ∈ s.groups ∧ nextPort g = some port ∧
    (midway g = true ∨ ∀ e ∈ s.groups, subOfGid e.1 = subOfGid gid → nextPort e.2 ≠ none → goesBefore e (gid, g) = false)) ∧
  (∀ (gid port : Nat) (u t : State), choosePath gid port u = some t →
    t.cur.core = coreOfGid gid ∧ t.cur.slot = slotOfGid gid ∧ t.cur.mask ≠ 0 ∧
    ∀ l, inMask t.cur.mask l = true → (getFibre (curGroup t) l).pc = t.cur.pc) ∧
  -- the bytes of a word, and what keeping the translation changes
  (∀ (s : State) (pc : Nat) (e : TlbEnt), pc < 2 ^ 32 →
    translate s s.cur.core (curGroup s).place.owner (codeVa s (curGroup s).place.owner pc) .fetch = .ok e → e.home ≠ 2 →
    peerOf s (paOf e (codeVa s (curGroup s).place.owner pc)) = none →
    fetchWord s pc = .ok (Machine.wordOfBytes (memBytes s.mem (paOf e (codeVa s (curGroup s).place.owner pc)) 4))) ∧
  ∀ (s : State) (pc : Nat),
    (∀ e, translation s s.cur.core (curGroup s).place.owner (codeVa s (curGroup s).place.owner pc) = .ok e → e.home ≠ 2) →
    ∃ t, keepFetched pc s = t ∧ t = { s with cores := t.cores, clusters := t.clusters }

/-- R7, and words that the manual prints read as it says (the worked encodings of chapter 02, the listing at the head of chapter 03,
the table after R77, and R58's permanently illegal words). -/
def Obligations.BytesAndWords : Prop :=
  -- R7: a value in memory, read and written; instruction words; a value in a pair of lane or uniform registers
  (∀ (m : List Host.Cell) (a n : Nat),
    natOfBytes (memBytes m a (n + 1)) = (memByte m a).toNat + 256 * natOfBytes (memBytes m (a + 1) n)) ∧
  (∀ (m : List Host.Cell) (a n v : Nat), Memory.wf m = true → v < 256 ^ n →
    natOfBytes (memBytes (memPut m a (bytesOfNat n v)) a n) = v) ∧
  (∀ (m : List Host.Cell) (a : Nat) (rest : List Byte),
    let w (k : Nat) : Word := BitVec.ofNat 32 (natOfBytes (memBytes m (a + k) 4))
    twoWords (w 0) = true → decodeBytes (memBytes m a 8 ++ rest) = (decode (w 0) (w 4)).map fun i => (i, rest)) ∧
  (∀ (f : Fibre) (d : Nat), (getRegPair f d).extractLsb' 0 32 = getReg f d ∧
    (getRegPair f d).extractLsb' 32 32 = getReg f (d + 1)) ∧
  (∀ (g : Group) (d : Nat), (getUPair g d).extractLsb' 0 32 = getU g d ∧ (getUPair g d).extractLsb' 32 32 = getU g (d + 1)) ∧
  -- words of the manual
  decodeTableWord 32 0x02020818 = some (.iaddLane false .wrap 1 2 3) ∧
  decodeTableWord 32 0x1C020805 = some (.iaddiLane false 1 2 5) ∧
  decodeTableWord 32 0x82020418 = some (.iaddUniform .wrap 1 2 3) ∧
  decodeTableWord 32 0x6008212C = some (.ldLane false .b64 .acq .dev 4 8 2) ∧
  decodeTableWord 32 0x7006FFFD = some (.braLane false 3 false (-3)) ∧
  decodeTableWord 32 0xB603FFFF = some (.wait 0 63 63 63) ∧
  decodeTableWord 64 (0xF8008090 + 2 ^ 32 * 0x00004005) = some (.atomUniform .add false .none .dev false 5 8 9) ∧
  decodeTableWord 32 0xC8020103 = some (.sread true 1 3) ∧
  decodeTableWord 32 0x1A08080A = some (.leaLane false 4 2 1 2) ∧
  decodeTableWord 32 0x0E0A0C19 = some (.orLane false 5 3 3) ∧
  decodeTableWord 32 0x60001000 = some (.ldLane false .b32 .none .grp 0 4 0) ∧
  decodeTableWord 32 0x62001200 = some (.stLane false .b32 .none .grp 0 4 4) ∧
  decodeTableWord 32 0x74000001 = some (.exit false) ∧
  decodeTableWord 32 0x74000000 = some (.nop false) ∧
  decodeTableWord 32 0x78000400 = some (.rjset false 1) ∧
  decodeTableWord 32 0x79000400 = some (.rjset true 1) ∧
  decodeTableWord 32 0x78000401 = some (.rjwait false 1) ∧
  decodeTableWord 32 0x78000001 = some (.rjwait false 0) ∧
  decodeTableWord 32 0x78000000 = none ∧
  decodeTableWord 32 0x00000000 = none ∧ decodeTableWord 32 0xFFFFFFFF = none
/-- Decoding is the inverse of encoding (R38 to R58): the bytes of every well-formed instruction, with any bytes after them, decode
to that instruction and leave those bytes, and are as many as the instruction's length. So no operand bit of any format is dropped,
and no two instructions share an encoding. -/
def Obligations.DecodeEncode : Prop :=
  ∀ (i : Instr) (rest : List Byte), i.wf = true →
    decodeBytes (encodeBytes i ++ rest) = .ok (i, rest) ∧ (encodeBytes i).length = i.size

/-! ## What holds at the start, and what every step keeps -/

/-- What things hold when they start: a fibre at creation (R12), a group (R13), a cleared Survey bank (R223, R224), a sub-array's
lattice table (R90), and the device right after reset (R298), where nothing is resident and memory is sound. -/
def Obligations.StartingState : Prop :=
  let fresh (x : Fibre) (entry : Word) := x.pc = entry ∧ (∀ p, getPred x p = (p == 0)) ∧ x.guardP = 0 ∧ x.guardN = false ∧
    x.fpctl = 0 ∧ x.pend = 0 ∧ x.st = .resident
  -- a fibre of a launch, and a spawned or message fibre
  (∀ (h : Hdr) (launch team num l : Nat) (x : Fibre), (l, x) ∈ launchFibres h launch team num →
    fresh x h.entry ∧ ∀ r, getReg x r = 0) ∧
  (∀ (h : Hdr) (lane : Nat) (f : NewFibre), fresh (binnedFibre h lane f) f.entry ∧
    ∀ r, r < h.regs → getReg (binnedFibre h lane f) r = f.args.getD r 0) ∧
  -- a group, placed by a launch or launched by a bin
  (∀ (pl : Place) (fs : KV Fibre),
    let g := newGroup pl fs
    (∀ r, getU g r = 0) ∧ (∀ p, getGp g p = (p == 0)) ∧ g.upend = 0 ∧ g.ops = [] ∧ (∀ n, getCv g n = {}) ∧
    g.sched.catchUp = none ∧ (∀ q ∈ g.ports, q = {}) ∧ g.regions = [] ∧ g.depth = 0 ∧
    g.trap.words = List.replicate 8 0 ∧ g.sched.ageing = 0) ∧
  (∀ (l : Launch) (id team index num : Nat), ∃ pl, launchGroup l id team index num = newGroup pl (launchFibres l.hdr id index num)) ∧
  (∀ (team : Nat) (b : Bin), ∃ pl, binGroup team b = newGroup pl (b.fibres.map fun e => (e.1, binnedFibre b.hdr e.1 e.2))) ∧
  -- Survey and the lattice table
  (∀ o : Nat, let b : Bank := { owner := o }
    b.pfdist = 2 ∧ ∀ n, kvGet b.est n = none) ∧
  (∀ r, r < 256 → ({} : SubArray).table[r]? = some (BitVec.ofNat 8 r)) ∧
  -- the device
  (let s := State.reset
   s.dev.phase = 0 ∧ s.dev.err = 0 ∧ s.dev.stackFail = 0 ∧ s.dev.clock = 0 ∧ s.groups = [] ∧ s.teams = [] ∧ s.launches = [] ∧
   s.ctxs = [] ∧ s.saved = [] ∧ s.mem = [] ∧ MemSound s)
/-- Every step keeps memory sound: whatever turn the schedule takes, and whatever instruction or event it runs, memory, the
pages in the cores' SRAM, every team's local memory and that of the saved teams stay in the canonical form, so that equal
contents are equal states (log 2). -/
def Obligations.StepKeepsMemory : Prop := ∀ s t : State, MemSound s → step s = .next t → MemSound t
end

