-- ==== Sys2Proof/Laws/Data.lean ====
section
/-! SUPPORT. Laws of data by number and of memory: a read after a write, and that every operation over memory keeps the
canonical form and reads back as it was written. -/

namespace Sys2Proof.Laws

open Sys2Proof Sys2Proof.Machine

/-! ## Data by number -/

@[simp] theorem kvGet_kvSet_same {α : Type} (m : KV α) (a : Nat) (x : α) : kvGet (kvSet m a x) a = some x := by
  induction m with
  | nil => simp [kvSet, kvGet]
  | cons e m ih =>
    obtain ⟨k, v⟩ := e
    unfold kvSet
    split
    · simp [kvGet]
    · split
      · simp [kvGet]
      · simp_all [kvGet]

theorem kvGet_kvSet_ne {α : Type} (m : KV α) {a b : Nat} (x : α) (h : b ≠ a) : kvGet (kvSet m a x) b = kvGet m b := by
  induction m with
  | nil => simp [kvSet, kvGet, Ne.symm h]
  | cons e m ih =>
    obtain ⟨k, v⟩ := e
    unfold kvSet
    split
    · subst_vars; simp [kvGet, Ne.symm h]
    · split
      · rename_i h1 h2
        simp only [kvGet, Ne.symm h, if_false]
        by_cases hk : k = b
        · subst hk; simp [show ¬ k < a by omega]
        · by_cases hb : b < a
          · simp [hb, hk, show b < k by omega]
          · simp [hb, hk]
      · simp only [kvGet, ih]

theorem kvSet_self {α : Type} (m : KV α) {a : Nat} {x : α} (h : kvGet m a = some x) : kvSet m a x = m := by
  induction m with
  | nil => simp [kvGet] at h
  | cons e m ih =>
    obtain ⟨k, v⟩ := e
    simp only [kvGet, kvSet] at h ⊢
    split
    · subst_vars; simp_all
    · split <;> simp_all

theorem kvSet_kvSet {α : Type} (m : KV α) (a : Nat) (x y : α) : kvSet (kvSet m a x) a y = kvSet m a y := by
  induction m with
  | nil => simp [kvSet]
  | cons e m ih =>
    obtain ⟨q, v⟩ := e
    simp only [kvSet]
    split
    · simp [kvSet]
    · split
      · simp [kvSet]
      · simp [kvSet, *]

theorem kvGet_kvSet {α : Type} (m : KV α) (a b : Nat) (x : α) :
    kvGet (kvSet m a x) b = if b = a then some x else kvGet m b := by
  split
  · subst_vars; simp
  · exact kvGet_kvSet_ne m x ‹_›

theorem kvGet_kvMod {α : Type} (m : KV α) (a b : Nat) (f : α → α) :
    kvGet (kvMod m a f) b = if b = a then (kvGet m a).map f else kvGet m b := by
  unfold kvMod
  split
  · rename_i x hx; rw [kvGet_kvSet]; split <;> simp_all
  · rename_i hx; split <;> simp_all

@[simp] theorem kvGet_kvMod_same {α : Type} (m : KV α) (a : Nat) (f : α → α) :
    kvGet (kvMod m a f) a = (kvGet m a).map f := by simp [kvGet_kvMod]

theorem kvGet_kvMod_ne {α : Type} (m : KV α) {a b : Nat} (f : α → α) (h : b ≠ a) :
    kvGet (kvMod m a f) b = kvGet m b := by simp [kvGet_kvMod, h]

@[simp] theorem kvGet_kvMap {α : Type} (m : KV α) (f : Nat → α → α) (a : Nat) :
    kvGet (kvMap m f) a = (kvGet m a).map (f a) := by
  induction m with
  | nil => rfl
  | cons e m ih =>
    obtain ⟨k, v⟩ := e
    simp only [kvMap, List.map_cons, kvGet] at ih ⊢
    split
    · subst_vars; simp
    · split
      · rfl
      · exact ih

@[simp] theorem kvGet_nil {α : Type} (a : Nat) : kvGet ([] : KV α) a = none := rfl

theorem kvGetD_kvSet {α : Type} (m : KV α) (a b : Nat) (x d : α) :
    kvGetD (kvSet m a x) b d = if b = a then x else kvGetD m b d := by
  unfold kvGetD; rw [kvGet_kvSet]; split <;> rfl

@[simp] theorem kvGetD_kvSet_same {α : Type} (m : KV α) (a : Nat) (x d : α) : kvGetD (kvSet m a x) a d = x := by
  simp [kvGetD_kvSet]

theorem kvHas_iff {α : Type} (m : KV α) (a : Nat) : kvHas m a = true ↔ ∃ x, kvGet m a = some x := by
  simp [kvHas, Option.isSome_iff_exists]

@[simp] theorem kvHas_kvMap {α : Type} (m : KV α) (f : Nat → α → α) (a : Nat) : kvHas (kvMap m f) a = kvHas m a := by
  simp [kvHas]

/-! ## The canonical form -/

theorem cellsFrom_cons (lo a : Nat) (b : Byte) (m : List Host.Cell) :
    cellsFrom lo ((a, b) :: m) = true ↔ lo ≤ a ∧ b ≠ 0 ∧ cellsFrom (a + 1) m = true := by
  simp [cellsFrom, and_assoc]

theorem cellsFrom_mono {lo lo' : Nat} (h : lo' ≤ lo) {m : List Host.Cell} (hm : cellsFrom lo m = true) :
    cellsFrom lo' m = true := by
  cases m with
  | nil => rfl
  | cons e m =>
    obtain ⟨a, b⟩ := e
    rw [cellsFrom_cons] at hm ⊢
    exact ⟨Nat.le_trans h hm.1, hm.2⟩

theorem memByte_below {lo : Nat} {m : List Host.Cell} (hm : cellsFrom lo m = true) {x : Nat} (h : x < lo) :
    memByte m x = unlistedByte := by
  cases m with
  | nil => rfl
  | cons e m =>
    obtain ⟨a, b⟩ := e
    rw [cellsFrom_cons] at hm
    simp [memByte, show ¬ a = x by omega, show x < a by omega]

/-- Reading one byte of a list of cells in canonical form: a look at the head, then the rest. -/
theorem memByte_cons {lo a : Nat} {b : Byte} {m : List Host.Cell} (hm : cellsFrom lo ((a, b) :: m) = true) (x : Nat) :
    memByte ((a, b) :: m) x = if x = a then b else memByte m x := by
  rw [cellsFrom_cons] at hm
  by_cases h : a = x
  · subst h; simp [memByte]
  · by_cases h' : x < a
    · simp [memByte, h, h', Ne.symm h, memByte_below hm.2.2 (show x < a + 1 by omega)]
    · simp [memByte, h, h', Ne.symm h]

theorem cellsFrom_memSet {lo a : Nat} (b : Byte) {m : List Host.Cell} (ha : lo ≤ a) (hm : cellsFrom lo m = true) :
    cellsFrom lo (memSet m a b) = true := by
  induction m generalizing lo with
  | nil =>
    unfold memSet
    split
    · rfl
    · simp_all [cellsFrom_cons]; rfl
  | cons e m ih =>
    obtain ⟨k, v⟩ := e
    have hc := (cellsFrom_cons _ _ _ _).1 hm
    unfold memSet
    split
    · subst_vars
      split
      · exact cellsFrom_mono (by omega) hc.2.2
      · exact (cellsFrom_cons _ _ _ _).2 ⟨ha, ‹_›, hc.2.2⟩
    · split
      · split
        · exact hm
        · exact (cellsFrom_cons _ _ _ _).2 ⟨ha, ‹_›, (cellsFrom_cons _ _ _ _).2 ⟨by omega, hc.2⟩⟩
      · exact (cellsFrom_cons _ _ _ _).2 ⟨hc.1, hc.2.1, ih (by omega) hc.2.2⟩

theorem memByte_memSet {lo : Nat} (a : Nat) (b : Byte) {m : List Host.Cell} (hm : cellsFrom lo m = true) (x : Nat) :
    memByte (memSet m a b) x = if x = a then b else memByte m x := by
  induction m generalizing lo with
  | nil =>
    unfold memSet
    split
    · subst_vars; simp [memByte, unlistedByte]
    · simp only [memByte]
      split
      · subst_vars; simp
      · rename_i h; simp [Ne.symm h]
  | cons e m ih =>
    obtain ⟨k, v⟩ := e
    have hc := (cellsFrom_cons _ _ _ _).1 hm
    unfold memSet
    split
    · subst_vars
      split
      · subst_vars
        by_cases hx : x = k
        · subst hx; rw [memByte_below hc.2.2 (by omega)]; simp [unlistedByte]
        · rw [memByte_cons hm]; simp [hx]
      · rw [memByte_cons ((cellsFrom_cons _ _ _ _).2 ⟨hc.1, ‹_›, hc.2.2⟩), memByte_cons hm]
        split <;> simp_all
    · split
      · split
        · subst_vars
          by_cases hx : x = a
          · subst hx
            rw [memByte_below ((cellsFrom_cons _ _ _ _).2 ⟨Nat.lt_of_lt_of_le ‹_› (Nat.le_refl k), hc.2⟩) (Nat.lt_succ_self x)]
            simp [unlistedByte]
          · simp [hx]
        · rw [memByte_cons (lo := a) ((cellsFrom_cons _ _ _ _).2 ⟨Nat.le_refl _, ‹_›, (cellsFrom_cons _ _ _ _).2 ⟨by omega, hc.2⟩⟩)]
      · rw [memByte_cons (lo := lo) ((cellsFrom_cons _ _ _ _).2 ⟨hc.1, hc.2.1, cellsFrom_memSet b (by omega) hc.2.2⟩),
          memByte_cons hm, ih hc.2.2]
        have : k ≠ a := ‹_›
        split
        · subst_vars; simp [this]
        · rfl

theorem wf_memSet {m : List Host.Cell} (a : Nat) (b : Byte) (hm : Memory.wf m = true) :
    Memory.wf (memSet m a b) = true := cellsFrom_memSet b (Nat.zero_le a) hm

theorem wf_memPutAt {m : List Host.Cell} (bs : List (Nat × Byte)) (hm : Memory.wf m = true) :
    Memory.wf (memPutAt m bs) = true := by
  induction bs generalizing m with
  | nil => exact hm
  | cons e bs ih => exact ih (wf_memSet e.1 e.2 hm)

/-! ## Parts of a list of cells -/

theorem cellsFrom_filter {lo : Nat} {m : List Host.Cell} (p : Host.Cell → Bool) (hm : cellsFrom lo m = true) :
    cellsFrom lo (m.filter p) = true := by
  induction m generalizing lo with
  | nil => rfl
  | cons e m ih =>
    obtain ⟨a, b⟩ := e
    have hc := (cellsFrom_cons _ _ _ _).1 hm
    rw [List.filter_cons]
    split
    · exact (cellsFrom_cons _ _ _ _).2 ⟨hc.1, hc.2.1, ih hc.2.2⟩
    · exact cellsFrom_mono (by omega) (ih hc.2.2)

theorem memByte_filter {lo : Nat} {m : List Host.Cell} (p : Host.Cell → Bool) (q : Nat → Bool) (hp : ∀ c, p c = q c.1)
    (hm : cellsFrom lo m = true) (x : Nat) :
    memByte (m.filter p) x = if q x then memByte m x else unlistedByte := by
  induction m generalizing lo with
  | nil => simp [memByte]
  | cons e m ih =>
    obtain ⟨a, b⟩ := e
    have hc := (cellsFrom_cons _ _ _ _).1 hm
    rw [List.filter_cons, memByte_cons hm]
    split
    · rename_i h
      rw [memByte_cons (lo := lo) ((cellsFrom_cons _ _ _ _).2 ⟨hc.1, hc.2.1, cellsFrom_filter p hc.2.2⟩), ih hc.2.2]
      have := hp (a, b)
      split <;> simp_all
    · rename_i h
      rw [ih hc.2.2]
      have := hp (a, b)
      split
      · split <;> simp_all
      · rfl

theorem takeWhile_eq_filter {lo : Nat} {m : List Host.Cell} (a : Nat) (hm : cellsFrom lo m = true) :
    m.takeWhile (fun c => decide (c.1 < a)) = m.filter fun c => decide (c.1 < a) := by
  induction m generalizing lo with
  | nil => rfl
  | cons e m ih =>
    obtain ⟨k, v⟩ := e
    have hc := (cellsFrom_cons _ _ _ _).1 hm
    rw [List.takeWhile_cons, List.filter_cons]
    split
    · rw [ih hc.2.2]
    · rename_i h
      have h : a ≤ k := by simpa using h
      symm
      rw [List.filter_eq_nil_iff]
      have key : ∀ (n : List Host.Cell) (l : Nat), a ≤ l → cellsFrom l n = true → ∀ c ∈ n, ¬ c.1 < a := by
        intro n
        induction n with
        | nil => intro l _ _ c hcn; simp at hcn
        | cons f n ihn =>
          intro l hl hn c hcn
          obtain ⟨k', v'⟩ := f
          have hn' := (cellsFrom_cons _ _ _ _).1 hn
          rcases List.mem_cons.1 hcn with rfl | hcn
          · simp only; omega
          · exact ihn _ (by omega) hn'.2.2 c hcn
      intro c hcm
      simpa using key m (k + 1) (by omega) hc.2.2 c hcm

theorem dropWhile_eq_filter {lo : Nat} {m : List Host.Cell} (a : Nat) (hm : cellsFrom lo m = true) :
    m.dropWhile (fun c => decide (c.1 < a)) = m.filter fun c => decide (a ≤ c.1) := by
  induction m generalizing lo with
  | nil => rfl
  | cons e m ih =>
    obtain ⟨k, v⟩ := e
    have hc := (cellsFrom_cons _ _ _ _).1 hm
    rw [List.dropWhile_cons, List.filter_cons]
    split
    · rename_i h
      have h : k < a := by simpa using h
      rw [ih hc.2.2]; simp [show ¬ a ≤ k by omega]
    · rename_i h
      have h : a ≤ k := by simpa using h
      simp only [h, decide_true, if_true]
      congr 1
      symm
      rw [List.filter_eq_self]
      have key : ∀ (n : List Host.Cell) (l : Nat), a ≤ l → cellsFrom l n = true → ∀ c ∈ n, a ≤ c.1 := by
        intro n
        induction n with
        | nil => intro l _ _ c hcn; simp at hcn
        | cons f n ihn =>
          intro l hl hn c hcn
          obtain ⟨k', v'⟩ := f
          have hn' := (cellsFrom_cons _ _ _ _).1 hn
          rcases List.mem_cons.1 hcn with rfl | hcn
          · simp only; omega
          · exact ihn _ (by omega) hn'.2.2 c hcn
      intro c hcm
      simpa using key m (k + 1) (by omega) hc.2.2 c hcm

/-- Cells below an address, then cells from it on. -/
theorem cellsFrom_append {lo mid : Nat} {m n : List Host.Cell} (hm : cellsFrom lo m = true)
    (hlt : ∀ c ∈ m, c.1 < mid) (hlo : lo ≤ mid) (hn : cellsFrom mid n = true) : cellsFrom lo (m ++ n) = true := by
  induction m generalizing lo with
  | nil => exact cellsFrom_mono hlo hn
  | cons e m ih =>
    obtain ⟨a, b⟩ := e
    have hc := (cellsFrom_cons _ _ _ _).1 hm
    have ha : a < mid := hlt (a, b) (by simp)
    exact (cellsFrom_cons _ _ _ _).2 ⟨hc.1, hc.2.1, ih hc.2.2 (fun c h => hlt c (by simp [h])) ha⟩

theorem memByte_append {lo mid : Nat} {m n : List Host.Cell} (hm : cellsFrom lo m = true)
    (hlt : ∀ c ∈ m, c.1 < mid) (hlo : lo ≤ mid) (hn : cellsFrom mid n = true) (x : Nat) :
    memByte (m ++ n) x = if x < mid then memByte m x else memByte n x := by
  induction m generalizing lo with
  | nil =>
    split
    · simpa [memByte] using memByte_below hn ‹_›
    · rfl
  | cons e m ih =>
    obtain ⟨a, b⟩ := e
    have hc := (cellsFrom_cons _ _ _ _).1 hm
    have ha : a < mid := hlt (a, b) (by simp)
    have hr : ∀ c ∈ m, c.1 < mid := fun c h => hlt c (by simp [h])
    rw [List.cons_append, memByte_cons (lo := lo)
      ((cellsFrom_cons _ _ _ _).2 ⟨hc.1, hc.2.1, cellsFrom_append hc.2.2 hr ha hn⟩),
      memByte_cons hm, ih hc.2.2 hr ha]
    by_cases hx : x = a
    · subst hx; simp [ha]
    · simp [hx]

theorem cellsFrom_cellsOf (a : Nat) (bs : List Byte) : cellsFrom a (cellsOf a bs) = true := by
  induction bs generalizing a with
  | nil => rfl
  | cons b bs ih =>
    unfold cellsOf
    split
    · exact cellsFrom_mono (by omega) (ih (a + 1))
    · exact (cellsFrom_cons _ _ _ _).2 ⟨Nat.le_refl _, ‹_›, ih (a + 1)⟩

theorem cellsOf_below (a : Nat) (bs : List Byte) : ∀ c ∈ cellsOf a bs, c.1 < a + bs.length := by
  induction bs generalizing a with
  | nil => intro c h; simp [cellsOf] at h
  | cons b bs ih =>
    intro c h
    unfold cellsOf at h
    split at h
    · have := ih (a + 1) c h; simp only [List.length_cons]; omega
    · rcases List.mem_cons.1 h with rfl | h
      · simp
      · have := ih (a + 1) c h; simp only [List.length_cons]; omega

theorem memByte_cellsOf (a : Nat) (bs : List Byte) (x : Nat) :
    memByte (cellsOf a bs) x = if a ≤ x ∧ x < a + bs.length then bs.getD (x - a) 0 else 0 := by
  induction bs generalizing a with
  | nil => simp [cellsOf, memByte, unlistedByte]
  | cons b bs ih =>
    unfold cellsOf
    split
    · subst_vars
      rw [ih]
      by_cases hx : x = a
      · subst hx; simp [show ¬(x + 1 ≤ x ∧ x < x + 1 + bs.length) by omega]
      · by_cases hr : a + 1 ≤ x ∧ x < a + 1 + bs.length
        · have e : x - a = (x - (a + 1)) + 1 := by omega
          simp [hr, show a ≤ x ∧ x < a + (bs.length + 1) by omega, e]
        · rw [if_neg hr, if_neg (by simp only [List.length_cons]; omega)]
    · rw [memByte_cons (lo := a) ((cellsFrom_cons _ _ _ _).2 ⟨Nat.le_refl _, ‹_›, cellsFrom_cellsOf _ _⟩), ih]
      by_cases hx : x = a
      · subst hx; simp
      · by_cases hr : a + 1 ≤ x ∧ x < a + 1 + bs.length
        · have e : x - a = (x - (a + 1)) + 1 := by omega
          simp [hx, hr, show a ≤ x ∧ x < a + (bs.length + 1) by omega, e]
        · rw [if_neg hx, if_neg hr, if_neg (by simp only [List.length_cons]; omega)]

/-! ## Writing bytes -/

theorem filter_lt_below (m : List Host.Cell) (a : Nat) : ∀ c ∈ m.filter (fun c => decide (c.1 < a)), c.1 < a := by
  intro c h; simpa using (List.mem_filter.1 h).2

theorem cellsFrom_filter_ge {lo : Nat} {m : List Host.Cell} (a : Nat) (hm : cellsFrom lo m = true) :
    cellsFrom a (m.filter fun c => decide (a ≤ c.1)) = true := by
  induction m generalizing lo with
  | nil => rfl
  | cons e m ih =>
    obtain ⟨k, v⟩ := e
    have hc := (cellsFrom_cons _ _ _ _).1 hm
    rw [List.filter_cons]
    split
    · rename_i h
      have h : a ≤ k := by simpa using h
      exact (cellsFrom_cons _ _ _ _).2 ⟨h, hc.2.1, cellsFrom_filter _ hc.2.2⟩
    · exact ih hc.2.2

/-- The cells of a range replaced by others: the canonical form is kept, and a read finds the new cells in the range and
the old ones elsewhere. -/
theorem splice {m new : List Host.Cell} {a n : Nat} (hm : Memory.wf m = true) (hn : cellsFrom a new = true)
    (hb : ∀ c ∈ new, c.1 < a + n) :
    let r := m.takeWhile (fun c => decide (c.1 < a)) ++ new ++ m.dropWhile (fun c => decide (c.1 < a + n))
    Memory.wf r = true ∧ ∀ x, memByte r x = if a ≤ x ∧ x < a + n then memByte new x else memByte m x := by
  intro r
  have e1 := takeWhile_eq_filter a (m := m) (lo := 0) hm
  have e2 := dropWhile_eq_filter (a + n) (m := m) (lo := 0) hm
  have hlow : cellsFrom 0 (m.filter fun c => decide (c.1 < a)) = true := cellsFrom_filter _ hm
  have hhigh : cellsFrom (a + n) (m.filter fun c => decide (a + n ≤ c.1)) = true := cellsFrom_filter_ge _ hm
  have hmid : cellsFrom a (new ++ m.filter fun c => decide (a + n ≤ c.1)) = true :=
    cellsFrom_append hn hb (Nat.le_add_right a n) hhigh
  have er : r = (m.filter fun c => decide (c.1 < a)) ++ (new ++ m.filter fun c => decide (a + n ≤ c.1)) := by
    simp only [r, e1, e2, List.append_assoc]
  rw [er]
  refine ⟨cellsFrom_append hlow (filter_lt_below m a) (Nat.zero_le a) hmid, fun x => ?_⟩
  rw [memByte_append hlow (filter_lt_below m a) (Nat.zero_le a) hmid,
    memByte_append hn hb (Nat.le_add_right a n) hhigh,
    memByte_filter _ (fun y => decide (y < a)) (fun _ => rfl) hm,
    memByte_filter _ (fun y => decide (a + n ≤ y)) (fun _ => rfl) hm]
  by_cases h1 : x < a
  · simp [h1, show ¬ a ≤ x by omega]
  · by_cases h2 : x < a + n
    · simp [h1, h2, show a ≤ x by omega]
    · simp [h1, h2, show a + n ≤ x by omega]

theorem wf_memPut {m : List Host.Cell} (a : Nat) (bs : List Byte) (hm : Memory.wf m = true) :
    Memory.wf (memPut m a bs) = true := (splice hm (cellsFrom_cellsOf a bs) (cellsOf_below a bs)).1

/-- What memory holds after bytes are written. -/
theorem memByte_memPut {m : List Host.Cell} (a : Nat) (bs : List Byte) (hm : Memory.wf m = true) (x : Nat) :
    memByte (memPut m a bs) x = if a ≤ x ∧ x < a + bs.length then bs.getD (x - a) 0 else memByte m x := by
  refine ((splice hm (cellsFrom_cellsOf a bs) (cellsOf_below a bs)).2 x).trans ?_
  rw [memByte_cellsOf]
  split <;> simp_all

theorem wf_memZero {m : List Host.Cell} (a n : Nat) (hm : Memory.wf m = true) : Memory.wf (memZero m a n) = true :=
  cellsFrom_filter _ hm

theorem memByte_memZero {m : List Host.Cell} (a n : Nat) (hm : Memory.wf m = true) (x : Nat) :
    memByte (memZero m a n) x = if a ≤ x ∧ x < a + n then 0 else memByte m x := by
  unfold memZero
  rw [memByte_filter _ (fun y => decide (y < a) || decide (a + n ≤ y)) (fun _ => rfl) hm]
  by_cases h : a ≤ x ∧ x < a + n
  · simp [h, show ¬ x < a by omega, show ¬ a + n ≤ x by omega, unlistedByte]
  · have h' : x < a ∨ a + n ≤ x := by omega
    rcases h' with h' | h' <;> simp [h, h']

theorem cellsFrom_shiftUp {lo : Nat} {m : List Host.Cell} (a : Nat) (hm : cellsFrom lo m = true) :
    cellsFrom (lo + a) (m.map fun c => (c.1 + a, c.2)) = true := by
  induction m generalizing lo with
  | nil => rfl
  | cons e m ih =>
    obtain ⟨k, v⟩ := e
    have hc := (cellsFrom_cons _ _ _ _).1 hm
    refine (cellsFrom_cons _ _ _ _).2 ⟨by simp only; omega, hc.2.1, ?_⟩
    simpa [Nat.add_right_comm] using ih hc.2.2

theorem wf_memPaste {m page : List Host.Cell} (a n : Nat) (hm : Memory.wf m = true) (hp : Memory.wf page = true) :
    Memory.wf (memPaste m a n page) = true := by
  refine (splice hm ?_ ?_).1
  · simpa using cellsFrom_shiftUp a (cellsFrom_filter (fun c => decide (c.1 < n)) hp)
  · intro c h
    obtain ⟨d, hd, rfl⟩ := List.mem_map.1 h
    have : d.1 < n := by simpa using (List.mem_filter.1 hd).2
    simp only; omega

theorem cellsFrom_shiftDown {lo : Nat} {m : List Host.Cell} (a : Nat) (hlo : a ≤ lo) (hm : cellsFrom lo m = true) :
    cellsFrom (lo - a) (m.map fun c => (c.1 - a, c.2)) = true := by
  induction m generalizing lo with
  | nil => rfl
  | cons e m ih =>
    obtain ⟨k, v⟩ := e
    have hc := (cellsFrom_cons _ _ _ _).1 hm
    refine (cellsFrom_cons _ _ _ _).2 ⟨by simp only; omega, hc.2.1, ?_⟩
    have := ih (lo := k + 1) (by omega) hc.2.2
    simpa [show k + 1 - a = k - a + 1 by omega] using this

theorem wf_memCut {m : List Host.Cell} (a n : Nat) (hm : Memory.wf m = true) : Memory.wf (memCut m a n) = true := by
  have h := cellsFrom_filter (fun c => decide (c.1 < a + n)) (cellsFrom_filter_ge a hm)
  have := cellsFrom_shiftDown a (Nat.le_refl a) h
  simpa [memCut, Memory.wf, List.filter_filter, Bool.and_comm] using this

@[simp] theorem length_memBytes (m : List Host.Cell) (a n : Nat) : (memBytes m a n).length = n := by
  induction n generalizing a with
  | zero => rfl
  | succ n ih => simp [memBytes, ih]

/-- Bytes that read alike, one by one. -/
theorem memBytes_congr (m : List Host.Cell) (a n : Nat) (m' : List Host.Cell)
    (h : ∀ i, i < n → memByte m (a + i) = memByte m' (a + i)) : memBytes m a n = memBytes m' a n := by
  induction n generalizing a with
  | zero => rfl
  | succ n ih =>
    simp only [memBytes]
    have h0 := h 0 (by omega)
    rw [Nat.add_zero] at h0
    rw [h0, ih (a + 1) fun i hi => by
      have := h (i + 1) (by omega); rw [show a + 1 + i = a + (i + 1) by omega]; exact this]

/-- Bytes outside those written. -/
theorem memBytes_memPut_ne {m : List Host.Cell} (a : Nat) (bs : List Byte) (b n : Nat) (hm : Memory.wf m = true)
    (h : b + n ≤ a ∨ a + bs.length ≤ b) : memBytes (memPut m a bs) b n = memBytes m b n := by
  apply memBytes_congr
  intro i hi
  rw [memByte_memPut a bs hm, if_neg (by omega)]

/-- The bytes read back after a write are the bytes written. -/
theorem memBytes_memPut {m : List Host.Cell} (a : Nat) (bs : List Byte) (hm : Memory.wf m = true) :
    memBytes (memPut m a bs) a bs.length = bs := by
  have key : ∀ (k i : Nat), i + k ≤ bs.length → memBytes (memPut m a bs) (a + i) k = (bs.drop i).take k := by
    intro k
    induction k with
    | zero => intro i _; simp [memBytes]
    | succ k ih =>
      intro i hi
      have h1 : i < bs.length := by omega
      rw [memBytes, memByte_memPut a bs hm, Nat.add_assoc, ih (i + 1) (by omega)]
      rw [List.drop_eq_getElem_cons h1, List.take_succ_cons]
      simp [show a ≤ a + i ∧ a + i < a + bs.length by omega, h1]
  have := key bs.length 0 (by omega)
  simpa using this

end Sys2Proof.Laws
end

