-- ==== Sys2Proof/Laws/State.lean ====
section
/-! SUPPORT. What each update of the state, of a group and of a fibre leaves as it was, field by field, and what it puts
into the field it writes. -/

namespace Sys2Proof.Laws

open Sys2Proof Sys2Proof.Machine

/-! ## Updates of the state -/

@[simp] theorem setGroup_dev (s : State) (k : Nat) (g : Group) : (setGroup s k g).dev = s.dev := rfl
@[simp] theorem setGroup_mem (s : State) (k : Nat) (g : Group) : (setGroup s k g).mem = s.mem := rfl
@[simp] theorem setGroup_ecc (s : State) (k : Nat) (g : Group) : (setGroup s k g).ecc = s.ecc := rfl
@[simp] theorem setGroup_soft (s : State) (k : Nat) (g : Group) : (setGroup s k g).soft = s.soft := rfl
@[simp] theorem setGroup_cores (s : State) (k : Nat) (g : Group) : (setGroup s k g).cores = s.cores := rfl
@[simp] theorem setGroup_clusters (s : State) (k : Nat) (g : Group) : (setGroup s k g).clusters = s.clusters := rfl
@[simp] theorem setGroup_slices (s : State) (k : Nat) (g : Group) : (setGroup s k g).slices = s.slices := rfl
@[simp] theorem setGroup_net (s : State) (k : Nat) (g : Group) : (setGroup s k g).net = s.net := rfl
@[simp] theorem setGroup_teams (s : State) (k : Nat) (g : Group) : (setGroup s k g).teams = s.teams := rfl
@[simp] theorem setGroup_launches (s : State) (k : Nat) (g : Group) : (setGroup s k g).launches = s.launches := rfl
@[simp] theorem setGroup_queues (s : State) (k : Nat) (g : Group) : (setGroup s k g).queues = s.queues := rfl
@[simp] theorem setGroup_ctxs (s : State) (k : Nat) (g : Group) : (setGroup s k g).ctxs = s.ctxs := rfl
@[simp] theorem setGroup_domains (s : State) (k : Nat) (g : Group) : (setGroup s k g).domains = s.domains := rfl
@[simp] theorem setGroup_am (s : State) (k : Nat) (g : Group) : (setGroup s k g).am = s.am := rfl
@[simp] theorem setGroup_kv (s : State) (k : Nat) (g : Group) : (setGroup s k g).kv = s.kv := rfl
@[simp] theorem setGroup_saved (s : State) (k : Nat) (g : Group) : (setGroup s k g).saved = s.saved := rfl
@[simp] theorem setGroup_reserved (s : State) (k : Nat) (g : Group) : (setGroup s k g).reserved = s.reserved := rfl
@[simp] theorem setGroup_dumpQ (s : State) (k : Nat) (g : Group) : (setGroup s k g).dumpQ = s.dumpQ := rfl
@[simp] theorem setGroup_tape (s : State) (k : Nat) (g : Group) : (setGroup s k g).tape = s.tape := rfl
@[simp] theorem setGroup_stage (s : State) (k : Nat) (g : Group) : (setGroup s k g).stage = s.stage := rfl
@[simp] theorem setGroup_cur (s : State) (k : Nat) (g : Group) : (setGroup s k g).cur = s.cur := rfl
@[simp] theorem setGroup_free (s : State) (k : Nat) (g : Group) : (setGroup s k g).free = s.free := rfl
@[simp] theorem setGroup_nextId (s : State) (k : Nat) (g : Group) : (setGroup s k g).nextId = s.nextId := rfl

@[simp] theorem modGroup_dev (s : State) (k : Nat) (f : Group → Group) : (modGroup s k f).dev = s.dev := rfl
@[simp] theorem modGroup_mem (s : State) (k : Nat) (f : Group → Group) : (modGroup s k f).mem = s.mem := rfl
@[simp] theorem modGroup_ecc (s : State) (k : Nat) (f : Group → Group) : (modGroup s k f).ecc = s.ecc := rfl
@[simp] theorem modGroup_soft (s : State) (k : Nat) (f : Group → Group) : (modGroup s k f).soft = s.soft := rfl
@[simp] theorem modGroup_cores (s : State) (k : Nat) (f : Group → Group) : (modGroup s k f).cores = s.cores := rfl
@[simp] theorem modGroup_clusters (s : State) (k : Nat) (f : Group → Group) : (modGroup s k f).clusters = s.clusters := rfl
@[simp] theorem modGroup_slices (s : State) (k : Nat) (f : Group → Group) : (modGroup s k f).slices = s.slices := rfl
@[simp] theorem modGroup_net (s : State) (k : Nat) (f : Group → Group) : (modGroup s k f).net = s.net := rfl
@[simp] theorem modGroup_teams (s : State) (k : Nat) (f : Group → Group) : (modGroup s k f).teams = s.teams := rfl
@[simp] theorem modGroup_launches (s : State) (k : Nat) (f : Group → Group) : (modGroup s k f).launches = s.launches := rfl
@[simp] theorem modGroup_queues (s : State) (k : Nat) (f : Group → Group) : (modGroup s k f).queues = s.queues := rfl
@[simp] theorem modGroup_ctxs (s : State) (k : Nat) (f : Group → Group) : (modGroup s k f).ctxs = s.ctxs := rfl
@[simp] theorem modGroup_domains (s : State) (k : Nat) (f : Group → Group) : (modGroup s k f).domains = s.domains := rfl
@[simp] theorem modGroup_am (s : State) (k : Nat) (f : Group → Group) : (modGroup s k f).am = s.am := rfl
@[simp] theorem modGroup_kv (s : State) (k : Nat) (f : Group → Group) : (modGroup s k f).kv = s.kv := rfl
@[simp] theorem modGroup_saved (s : State) (k : Nat) (f : Group → Group) : (modGroup s k f).saved = s.saved := rfl
@[simp] theorem modGroup_reserved (s : State) (k : Nat) (f : Group → Group) : (modGroup s k f).reserved = s.reserved := rfl
@[simp] theorem modGroup_dumpQ (s : State) (k : Nat) (f : Group → Group) : (modGroup s k f).dumpQ = s.dumpQ := rfl
@[simp] theorem modGroup_tape (s : State) (k : Nat) (f : Group → Group) : (modGroup s k f).tape = s.tape := rfl
@[simp] theorem modGroup_stage (s : State) (k : Nat) (f : Group → Group) : (modGroup s k f).stage = s.stage := rfl
@[simp] theorem modGroup_cur (s : State) (k : Nat) (f : Group → Group) : (modGroup s k f).cur = s.cur := rfl
@[simp] theorem modGroup_free (s : State) (k : Nat) (f : Group → Group) : (modGroup s k f).free = s.free := rfl
@[simp] theorem modGroup_nextId (s : State) (k : Nat) (f : Group → Group) : (modGroup s k f).nextId = s.nextId := rfl

@[simp] theorem setCurGroup_dev (s : State) (g : Group) : (setCurGroup s g).dev = s.dev := rfl
@[simp] theorem setCurGroup_mem (s : State) (g : Group) : (setCurGroup s g).mem = s.mem := rfl
@[simp] theorem setCurGroup_ecc (s : State) (g : Group) : (setCurGroup s g).ecc = s.ecc := rfl
@[simp] theorem setCurGroup_soft (s : State) (g : Group) : (setCurGroup s g).soft = s.soft := rfl
@[simp] theorem setCurGroup_cores (s : State) (g : Group) : (setCurGroup s g).cores = s.cores := rfl
@[simp] theorem setCurGroup_clusters (s : State) (g : Group) : (setCurGroup s g).clusters = s.clusters := rfl
@[simp] theorem setCurGroup_slices (s : State) (g : Group) : (setCurGroup s g).slices = s.slices := rfl
@[simp] theorem setCurGroup_net (s : State) (g : Group) : (setCurGroup s g).net = s.net := rfl
@[simp] theorem setCurGroup_teams (s : State) (g : Group) : (setCurGroup s g).teams = s.teams := rfl
@[simp] theorem setCurGroup_launches (s : State) (g : Group) : (setCurGroup s g).launches = s.launches := rfl
@[simp] theorem setCurGroup_queues (s : State) (g : Group) : (setCurGroup s g).queues = s.queues := rfl
@[simp] theorem setCurGroup_ctxs (s : State) (g : Group) : (setCurGroup s g).ctxs = s.ctxs := rfl
@[simp] theorem setCurGroup_domains (s : State) (g : Group) : (setCurGroup s g).domains = s.domains := rfl
@[simp] theorem setCurGroup_am (s : State) (g : Group) : (setCurGroup s g).am = s.am := rfl
@[simp] theorem setCurGroup_kv (s : State) (g : Group) : (setCurGroup s g).kv = s.kv := rfl
@[simp] theorem setCurGroup_saved (s : State) (g : Group) : (setCurGroup s g).saved = s.saved := rfl
@[simp] theorem setCurGroup_reserved (s : State) (g : Group) : (setCurGroup s g).reserved = s.reserved := rfl
@[simp] theorem setCurGroup_dumpQ (s : State) (g : Group) : (setCurGroup s g).dumpQ = s.dumpQ := rfl
@[simp] theorem setCurGroup_tape (s : State) (g : Group) : (setCurGroup s g).tape = s.tape := rfl
@[simp] theorem setCurGroup_stage (s : State) (g : Group) : (setCurGroup s g).stage = s.stage := rfl
@[simp] theorem setCurGroup_cur (s : State) (g : Group) : (setCurGroup s g).cur = s.cur := rfl
@[simp] theorem setCurGroup_free (s : State) (g : Group) : (setCurGroup s g).free = s.free := rfl
@[simp] theorem setCurGroup_nextId (s : State) (g : Group) : (setCurGroup s g).nextId = s.nextId := rfl

@[simp] theorem modTeam_dev (s : State) (k : Nat) (f : Team → Team) : (modTeam s k f).dev = s.dev := rfl
@[simp] theorem modTeam_mem (s : State) (k : Nat) (f : Team → Team) : (modTeam s k f).mem = s.mem := rfl
@[simp] theorem modTeam_ecc (s : State) (k : Nat) (f : Team → Team) : (modTeam s k f).ecc = s.ecc := rfl
@[simp] theorem modTeam_soft (s : State) (k : Nat) (f : Team → Team) : (modTeam s k f).soft = s.soft := rfl
@[simp] theorem modTeam_cores (s : State) (k : Nat) (f : Team → Team) : (modTeam s k f).cores = s.cores := rfl
@[simp] theorem modTeam_clusters (s : State) (k : Nat) (f : Team → Team) : (modTeam s k f).clusters = s.clusters := rfl
@[simp] theorem modTeam_slices (s : State) (k : Nat) (f : Team → Team) : (modTeam s k f).slices = s.slices := rfl
@[simp] theorem modTeam_net (s : State) (k : Nat) (f : Team → Team) : (modTeam s k f).net = s.net := rfl
@[simp] theorem modTeam_groups (s : State) (k : Nat) (f : Team → Team) : (modTeam s k f).groups = s.groups := rfl
@[simp] theorem modTeam_launches (s : State) (k : Nat) (f : Team → Team) : (modTeam s k f).launches = s.launches := rfl
@[simp] theorem modTeam_queues (s : State) (k : Nat) (f : Team → Team) : (modTeam s k f).queues = s.queues := rfl
@[simp] theorem modTeam_ctxs (s : State) (k : Nat) (f : Team → Team) : (modTeam s k f).ctxs = s.ctxs := rfl
@[simp] theorem modTeam_domains (s : State) (k : Nat) (f : Team → Team) : (modTeam s k f).domains = s.domains := rfl
@[simp] theorem modTeam_am (s : State) (k : Nat) (f : Team → Team) : (modTeam s k f).am = s.am := rfl
@[simp] theorem modTeam_kv (s : State) (k : Nat) (f : Team → Team) : (modTeam s k f).kv = s.kv := rfl
@[simp] theorem modTeam_saved (s : State) (k : Nat) (f : Team → Team) : (modTeam s k f).saved = s.saved := rfl
@[simp] theorem modTeam_reserved (s : State) (k : Nat) (f : Team → Team) : (modTeam s k f).reserved = s.reserved := rfl
@[simp] theorem modTeam_dumpQ (s : State) (k : Nat) (f : Team → Team) : (modTeam s k f).dumpQ = s.dumpQ := rfl
@[simp] theorem modTeam_tape (s : State) (k : Nat) (f : Team → Team) : (modTeam s k f).tape = s.tape := rfl
@[simp] theorem modTeam_stage (s : State) (k : Nat) (f : Team → Team) : (modTeam s k f).stage = s.stage := rfl
@[simp] theorem modTeam_cur (s : State) (k : Nat) (f : Team → Team) : (modTeam s k f).cur = s.cur := rfl
@[simp] theorem modTeam_free (s : State) (k : Nat) (f : Team → Team) : (modTeam s k f).free = s.free := rfl
@[simp] theorem modTeam_nextId (s : State) (k : Nat) (f : Team → Team) : (modTeam s k f).nextId = s.nextId := rfl

@[simp] theorem setCore_dev (s : State) (k : Nat) (c : Core) : (setCore s k c).dev = s.dev := rfl
@[simp] theorem setCore_mem (s : State) (k : Nat) (c : Core) : (setCore s k c).mem = s.mem := rfl
@[simp] theorem setCore_ecc (s : State) (k : Nat) (c : Core) : (setCore s k c).ecc = s.ecc := rfl
@[simp] theorem setCore_soft (s : State) (k : Nat) (c : Core) : (setCore s k c).soft = s.soft := rfl
@[simp] theorem setCore_clusters (s : State) (k : Nat) (c : Core) : (setCore s k c).clusters = s.clusters := rfl
@[simp] theorem setCore_slices (s : State) (k : Nat) (c : Core) : (setCore s k c).slices = s.slices := rfl
@[simp] theorem setCore_net (s : State) (k : Nat) (c : Core) : (setCore s k c).net = s.net := rfl
@[simp] theorem setCore_groups (s : State) (k : Nat) (c : Core) : (setCore s k c).groups = s.groups := rfl
@[simp] theorem setCore_teams (s : State) (k : Nat) (c : Core) : (setCore s k c).teams = s.teams := rfl
@[simp] theorem setCore_launches (s : State) (k : Nat) (c : Core) : (setCore s k c).launches = s.launches := rfl
@[simp] theorem setCore_queues (s : State) (k : Nat) (c : Core) : (setCore s k c).queues = s.queues := rfl
@[simp] theorem setCore_ctxs (s : State) (k : Nat) (c : Core) : (setCore s k c).ctxs = s.ctxs := rfl
@[simp] theorem setCore_domains (s : State) (k : Nat) (c : Core) : (setCore s k c).domains = s.domains := rfl
@[simp] theorem setCore_am (s : State) (k : Nat) (c : Core) : (setCore s k c).am = s.am := rfl
@[simp] theorem setCore_kv (s : State) (k : Nat) (c : Core) : (setCore s k c).kv = s.kv := rfl
@[simp] theorem setCore_saved (s : State) (k : Nat) (c : Core) : (setCore s k c).saved = s.saved := rfl
@[simp] theorem setCore_reserved (s : State) (k : Nat) (c : Core) : (setCore s k c).reserved = s.reserved := rfl
@[simp] theorem setCore_dumpQ (s : State) (k : Nat) (c : Core) : (setCore s k c).dumpQ = s.dumpQ := rfl
@[simp] theorem setCore_tape (s : State) (k : Nat) (c : Core) : (setCore s k c).tape = s.tape := rfl
@[simp] theorem setCore_stage (s : State) (k : Nat) (c : Core) : (setCore s k c).stage = s.stage := rfl
@[simp] theorem setCore_cur (s : State) (k : Nat) (c : Core) : (setCore s k c).cur = s.cur := rfl
@[simp] theorem setCore_free (s : State) (k : Nat) (c : Core) : (setCore s k c).free = s.free := rfl
@[simp] theorem setCore_nextId (s : State) (k : Nat) (c : Core) : (setCore s k c).nextId = s.nextId := rfl

@[simp] theorem modCore_dev (s : State) (k : Nat) (f : Core → Core) : (modCore s k f).dev = s.dev := rfl
@[simp] theorem modCore_mem (s : State) (k : Nat) (f : Core → Core) : (modCore s k f).mem = s.mem := rfl
@[simp] theorem modCore_ecc (s : State) (k : Nat) (f : Core → Core) : (modCore s k f).ecc = s.ecc := rfl
@[simp] theorem modCore_soft (s : State) (k : Nat) (f : Core → Core) : (modCore s k f).soft = s.soft := rfl
@[simp] theorem modCore_clusters (s : State) (k : Nat) (f : Core → Core) : (modCore s k f).clusters = s.clusters := rfl
@[simp] theorem modCore_slices (s : State) (k : Nat) (f : Core → Core) : (modCore s k f).slices = s.slices := rfl
@[simp] theorem modCore_net (s : State) (k : Nat) (f : Core → Core) : (modCore s k f).net = s.net := rfl
@[simp] theorem modCore_groups (s : State) (k : Nat) (f : Core → Core) : (modCore s k f).groups = s.groups := rfl
@[simp] theorem modCore_teams (s : State) (k : Nat) (f : Core → Core) : (modCore s k f).teams = s.teams := rfl
@[simp] theorem modCore_launches (s : State) (k : Nat) (f : Core → Core) : (modCore s k f).launches = s.launches := rfl
@[simp] theorem modCore_queues (s : State) (k : Nat) (f : Core → Core) : (modCore s k f).queues = s.queues := rfl
@[simp] theorem modCore_ctxs (s : State) (k : Nat) (f : Core → Core) : (modCore s k f).ctxs = s.ctxs := rfl
@[simp] theorem modCore_domains (s : State) (k : Nat) (f : Core → Core) : (modCore s k f).domains = s.domains := rfl
@[simp] theorem modCore_am (s : State) (k : Nat) (f : Core → Core) : (modCore s k f).am = s.am := rfl
@[simp] theorem modCore_kv (s : State) (k : Nat) (f : Core → Core) : (modCore s k f).kv = s.kv := rfl
@[simp] theorem modCore_saved (s : State) (k : Nat) (f : Core → Core) : (modCore s k f).saved = s.saved := rfl
@[simp] theorem modCore_reserved (s : State) (k : Nat) (f : Core → Core) : (modCore s k f).reserved = s.reserved := rfl
@[simp] theorem modCore_dumpQ (s : State) (k : Nat) (f : Core → Core) : (modCore s k f).dumpQ = s.dumpQ := rfl
@[simp] theorem modCore_tape (s : State) (k : Nat) (f : Core → Core) : (modCore s k f).tape = s.tape := rfl
@[simp] theorem modCore_stage (s : State) (k : Nat) (f : Core → Core) : (modCore s k f).stage = s.stage := rfl
@[simp] theorem modCore_cur (s : State) (k : Nat) (f : Core → Core) : (modCore s k f).cur = s.cur := rfl
@[simp] theorem modCore_free (s : State) (k : Nat) (f : Core → Core) : (modCore s k f).free = s.free := rfl
@[simp] theorem modCore_nextId (s : State) (k : Nat) (f : Core → Core) : (modCore s k f).nextId = s.nextId := rfl

@[simp] theorem modCtx_dev (s : State) (k : Nat) (f : Ctx → Ctx) : (modCtx s k f).dev = s.dev := rfl
@[simp] theorem modCtx_mem (s : State) (k : Nat) (f : Ctx → Ctx) : (modCtx s k f).mem = s.mem := rfl
@[simp] theorem modCtx_ecc (s : State) (k : Nat) (f : Ctx → Ctx) : (modCtx s k f).ecc = s.ecc := rfl
@[simp] theorem modCtx_soft (s : State) (k : Nat) (f : Ctx → Ctx) : (modCtx s k f).soft = s.soft := rfl
@[simp] theorem modCtx_cores (s : State) (k : Nat) (f : Ctx → Ctx) : (modCtx s k f).cores = s.cores := rfl
@[simp] theorem modCtx_clusters (s : State) (k : Nat) (f : Ctx → Ctx) : (modCtx s k f).clusters = s.clusters := rfl
@[simp] theorem modCtx_slices (s : State) (k : Nat) (f : Ctx → Ctx) : (modCtx s k f).slices = s.slices := rfl
@[simp] theorem modCtx_net (s : State) (k : Nat) (f : Ctx → Ctx) : (modCtx s k f).net = s.net := rfl
@[simp] theorem modCtx_groups (s : State) (k : Nat) (f : Ctx → Ctx) : (modCtx s k f).groups = s.groups := rfl
@[simp] theorem modCtx_teams (s : State) (k : Nat) (f : Ctx → Ctx) : (modCtx s k f).teams = s.teams := rfl
@[simp] theorem modCtx_launches (s : State) (k : Nat) (f : Ctx → Ctx) : (modCtx s k f).launches = s.launches := rfl
@[simp] theorem modCtx_queues (s : State) (k : Nat) (f : Ctx → Ctx) : (modCtx s k f).queues = s.queues := rfl
@[simp] theorem modCtx_domains (s : State) (k : Nat) (f : Ctx → Ctx) : (modCtx s k f).domains = s.domains := rfl
@[simp] theorem modCtx_am (s : State) (k : Nat) (f : Ctx → Ctx) : (modCtx s k f).am = s.am := rfl
@[simp] theorem modCtx_kv (s : State) (k : Nat) (f : Ctx → Ctx) : (modCtx s k f).kv = s.kv := rfl
@[simp] theorem modCtx_saved (s : State) (k : Nat) (f : Ctx → Ctx) : (modCtx s k f).saved = s.saved := rfl
@[simp] theorem modCtx_reserved (s : State) (k : Nat) (f : Ctx → Ctx) : (modCtx s k f).reserved = s.reserved := rfl
@[simp] theorem modCtx_dumpQ (s : State) (k : Nat) (f : Ctx → Ctx) : (modCtx s k f).dumpQ = s.dumpQ := rfl
@[simp] theorem modCtx_tape (s : State) (k : Nat) (f : Ctx → Ctx) : (modCtx s k f).tape = s.tape := rfl
@[simp] theorem modCtx_stage (s : State) (k : Nat) (f : Ctx → Ctx) : (modCtx s k f).stage = s.stage := rfl
@[simp] theorem modCtx_cur (s : State) (k : Nat) (f : Ctx → Ctx) : (modCtx s k f).cur = s.cur := rfl
@[simp] theorem modCtx_free (s : State) (k : Nat) (f : Ctx → Ctx) : (modCtx s k f).free = s.free := rfl
@[simp] theorem modCtx_nextId (s : State) (k : Nat) (f : Ctx → Ctx) : (modCtx s k f).nextId = s.nextId := rfl

@[simp] theorem modDom_dev (s : State) (k : Nat) (f : Domain → Domain) : (modDom s k f).dev = s.dev := rfl
@[simp] theorem modDom_mem (s : State) (k : Nat) (f : Domain → Domain) : (modDom s k f).mem = s.mem := rfl
@[simp] theorem modDom_ecc (s : State) (k : Nat) (f : Domain → Domain) : (modDom s k f).ecc = s.ecc := rfl
@[simp] theorem modDom_soft (s : State) (k : Nat) (f : Domain → Domain) : (modDom s k f).soft = s.soft := rfl
@[simp] theorem modDom_cores (s : State) (k : Nat) (f : Domain → Domain) : (modDom s k f).cores = s.cores := rfl
@[simp] theorem modDom_clusters (s : State) (k : Nat) (f : Domain → Domain) : (modDom s k f).clusters = s.clusters := rfl
@[simp] theorem modDom_slices (s : State) (k : Nat) (f : Domain → Domain) : (modDom s k f).slices = s.slices := rfl
@[simp] theorem modDom_net (s : State) (k : Nat) (f : Domain → Domain) : (modDom s k f).net = s.net := rfl
@[simp] theorem modDom_groups (s : State) (k : Nat) (f : Domain → Domain) : (modDom s k f).groups = s.groups := rfl
@[simp] theorem modDom_teams (s : State) (k : Nat) (f : Domain → Domain) : (modDom s k f).teams = s.teams := rfl
@[simp] theorem modDom_launches (s : State) (k : Nat) (f : Domain → Domain) : (modDom s k f).launches = s.launches := rfl
@[simp] theorem modDom_queues (s : State) (k : Nat) (f : Domain → Domain) : (modDom s k f).queues = s.queues := rfl
@[simp] theorem modDom_ctxs (s : State) (k : Nat) (f : Domain → Domain) : (modDom s k f).ctxs = s.ctxs := rfl
@[simp] theorem modDom_am (s : State) (k : Nat) (f : Domain → Domain) : (modDom s k f).am = s.am := rfl
@[simp] theorem modDom_kv (s : State) (k : Nat) (f : Domain → Domain) : (modDom s k f).kv = s.kv := rfl
@[simp] theorem modDom_saved (s : State) (k : Nat) (f : Domain → Domain) : (modDom s k f).saved = s.saved := rfl
@[simp] theorem modDom_reserved (s : State) (k : Nat) (f : Domain → Domain) : (modDom s k f).reserved = s.reserved := rfl
@[simp] theorem modDom_dumpQ (s : State) (k : Nat) (f : Domain → Domain) : (modDom s k f).dumpQ = s.dumpQ := rfl
@[simp] theorem modDom_tape (s : State) (k : Nat) (f : Domain → Domain) : (modDom s k f).tape = s.tape := rfl
@[simp] theorem modDom_stage (s : State) (k : Nat) (f : Domain → Domain) : (modDom s k f).stage = s.stage := rfl
@[simp] theorem modDom_cur (s : State) (k : Nat) (f : Domain → Domain) : (modDom s k f).cur = s.cur := rfl
@[simp] theorem modDom_free (s : State) (k : Nat) (f : Domain → Domain) : (modDom s k f).free = s.free := rfl
@[simp] theorem modDom_nextId (s : State) (k : Nat) (f : Domain → Domain) : (modDom s k f).nextId = s.nextId := rfl

@[simp] theorem modLaunch_dev (s : State) (k : Nat) (f : Launch → Launch) : (modLaunch s k f).dev = s.dev := rfl
@[simp] theorem modLaunch_mem (s : State) (k : Nat) (f : Launch → Launch) : (modLaunch s k f).mem = s.mem := rfl
@[simp] theorem modLaunch_ecc (s : State) (k : Nat) (f : Launch → Launch) : (modLaunch s k f).ecc = s.ecc := rfl
@[simp] theorem modLaunch_soft (s : State) (k : Nat) (f : Launch → Launch) : (modLaunch s k f).soft = s.soft := rfl
@[simp] theorem modLaunch_cores (s : State) (k : Nat) (f : Launch → Launch) : (modLaunch s k f).cores = s.cores := rfl
@[simp] theorem modLaunch_clusters (s : State) (k : Nat) (f : Launch → Launch) : (modLaunch s k f).clusters = s.clusters := rfl
@[simp] theorem modLaunch_slices (s : State) (k : Nat) (f : Launch → Launch) : (modLaunch s k f).slices = s.slices := rfl
@[simp] theorem modLaunch_net (s : State) (k : Nat) (f : Launch → Launch) : (modLaunch s k f).net = s.net := rfl
@[simp] theorem modLaunch_groups (s : State) (k : Nat) (f : Launch → Launch) : (modLaunch s k f).groups = s.groups := rfl
@[simp] theorem modLaunch_teams (s : State) (k : Nat) (f : Launch → Launch) : (modLaunch s k f).teams = s.teams := rfl
@[simp] theorem modLaunch_queues (s : State) (k : Nat) (f : Launch → Launch) : (modLaunch s k f).queues = s.queues := rfl
@[simp] theorem modLaunch_ctxs (s : State) (k : Nat) (f : Launch → Launch) : (modLaunch s k f).ctxs = s.ctxs := rfl
@[simp] theorem modLaunch_domains (s : State) (k : Nat) (f : Launch → Launch) : (modLaunch s k f).domains = s.domains := rfl
@[simp] theorem modLaunch_am (s : State) (k : Nat) (f : Launch → Launch) : (modLaunch s k f).am = s.am := rfl
@[simp] theorem modLaunch_kv (s : State) (k : Nat) (f : Launch → Launch) : (modLaunch s k f).kv = s.kv := rfl
@[simp] theorem modLaunch_saved (s : State) (k : Nat) (f : Launch → Launch) : (modLaunch s k f).saved = s.saved := rfl
@[simp] theorem modLaunch_reserved (s : State) (k : Nat) (f : Launch → Launch) : (modLaunch s k f).reserved = s.reserved := rfl
@[simp] theorem modLaunch_dumpQ (s : State) (k : Nat) (f : Launch → Launch) : (modLaunch s k f).dumpQ = s.dumpQ := rfl
@[simp] theorem modLaunch_tape (s : State) (k : Nat) (f : Launch → Launch) : (modLaunch s k f).tape = s.tape := rfl
@[simp] theorem modLaunch_stage (s : State) (k : Nat) (f : Launch → Launch) : (modLaunch s k f).stage = s.stage := rfl
@[simp] theorem modLaunch_cur (s : State) (k : Nat) (f : Launch → Launch) : (modLaunch s k f).cur = s.cur := rfl
@[simp] theorem modLaunch_free (s : State) (k : Nat) (f : Launch → Launch) : (modLaunch s k f).free = s.free := rfl
@[simp] theorem modLaunch_nextId (s : State) (k : Nat) (f : Launch → Launch) : (modLaunch s k f).nextId = s.nextId := rfl

@[simp] theorem putDWord_dev (s : State) (a v : Nat) : (putDWord s a v).dev = s.dev := rfl
@[simp] theorem putDWord_ecc (s : State) (a v : Nat) : (putDWord s a v).ecc = s.ecc := rfl
@[simp] theorem putDWord_soft (s : State) (a v : Nat) : (putDWord s a v).soft = s.soft := rfl
@[simp] theorem putDWord_cores (s : State) (a v : Nat) : (putDWord s a v).cores = s.cores := rfl
@[simp] theorem putDWord_clusters (s : State) (a v : Nat) : (putDWord s a v).clusters = s.clusters := rfl
@[simp] theorem putDWord_slices (s : State) (a v : Nat) : (putDWord s a v).slices = s.slices := rfl
@[simp] theorem putDWord_net (s : State) (a v : Nat) : (putDWord s a v).net = s.net := rfl
@[simp] theorem putDWord_groups (s : State) (a v : Nat) : (putDWord s a v).groups = s.groups := rfl
@[simp] theorem putDWord_teams (s : State) (a v : Nat) : (putDWord s a v).teams = s.teams := rfl
@[simp] theorem putDWord_launches (s : State) (a v : Nat) : (putDWord s a v).launches = s.launches := rfl
@[simp] theorem putDWord_queues (s : State) (a v : Nat) : (putDWord s a v).queues = s.queues := rfl
@[simp] theorem putDWord_ctxs (s : State) (a v : Nat) : (putDWord s a v).ctxs = s.ctxs := rfl
@[simp] theorem putDWord_domains (s : State) (a v : Nat) : (putDWord s a v).domains = s.domains := rfl
@[simp] theorem putDWord_am (s : State) (a v : Nat) : (putDWord s a v).am = s.am := rfl
@[simp] theorem putDWord_kv (s : State) (a v : Nat) : (putDWord s a v).kv = s.kv := rfl
@[simp] theorem putDWord_saved (s : State) (a v : Nat) : (putDWord s a v).saved = s.saved := rfl
@[simp] theorem putDWord_reserved (s : State) (a v : Nat) : (putDWord s a v).reserved = s.reserved := rfl
@[simp] theorem putDWord_dumpQ (s : State) (a v : Nat) : (putDWord s a v).dumpQ = s.dumpQ := rfl
@[simp] theorem putDWord_tape (s : State) (a v : Nat) : (putDWord s a v).tape = s.tape := rfl
@[simp] theorem putDWord_stage (s : State) (a v : Nat) : (putDWord s a v).stage = s.stage := rfl
@[simp] theorem putDWord_cur (s : State) (a v : Nat) : (putDWord s a v).cur = s.cur := rfl
@[simp] theorem putDWord_free (s : State) (a v : Nat) : (putDWord s a v).free = s.free := rfl
@[simp] theorem putDWord_nextId (s : State) (a v : Nat) : (putDWord s a v).nextId = s.nextId := rfl

@[simp] theorem noteRan_dev (s : State)  : (noteRan s).dev = s.dev := rfl
@[simp] theorem noteRan_mem (s : State)  : (noteRan s).mem = s.mem := rfl
@[simp] theorem noteRan_ecc (s : State)  : (noteRan s).ecc = s.ecc := rfl
@[simp] theorem noteRan_soft (s : State)  : (noteRan s).soft = s.soft := rfl
@[simp] theorem noteRan_cores (s : State)  : (noteRan s).cores = s.cores := rfl
@[simp] theorem noteRan_clusters (s : State)  : (noteRan s).clusters = s.clusters := rfl
@[simp] theorem noteRan_slices (s : State)  : (noteRan s).slices = s.slices := rfl
@[simp] theorem noteRan_net (s : State)  : (noteRan s).net = s.net := rfl
@[simp] theorem noteRan_teams (s : State)  : (noteRan s).teams = s.teams := rfl
@[simp] theorem noteRan_launches (s : State)  : (noteRan s).launches = s.launches := rfl
@[simp] theorem noteRan_queues (s : State)  : (noteRan s).queues = s.queues := rfl
@[simp] theorem noteRan_ctxs (s : State)  : (noteRan s).ctxs = s.ctxs := rfl
@[simp] theorem noteRan_domains (s : State)  : (noteRan s).domains = s.domains := rfl
@[simp] theorem noteRan_am (s : State)  : (noteRan s).am = s.am := rfl
@[simp] theorem noteRan_kv (s : State)  : (noteRan s).kv = s.kv := rfl
@[simp] theorem noteRan_saved (s : State)  : (noteRan s).saved = s.saved := rfl
@[simp] theorem noteRan_reserved (s : State)  : (noteRan s).reserved = s.reserved := rfl
@[simp] theorem noteRan_dumpQ (s : State)  : (noteRan s).dumpQ = s.dumpQ := rfl
@[simp] theorem noteRan_tape (s : State)  : (noteRan s).tape = s.tape := rfl
@[simp] theorem noteRan_stage (s : State)  : (noteRan s).stage = s.stage := rfl
@[simp] theorem noteRan_cur (s : State)  : (noteRan s).cur = s.cur := rfl
@[simp] theorem noteRan_free (s : State)  : (noteRan s).free = s.free := rfl
@[simp] theorem noteRan_nextId (s : State)  : (noteRan s).nextId = s.nextId := rfl

@[simp] theorem noteRun_dev (s : State) (o : Nat) : (noteRun o s).dev = s.dev := rfl
@[simp] theorem noteRun_mem (s : State) (o : Nat) : (noteRun o s).mem = s.mem := rfl
@[simp] theorem noteRun_ecc (s : State) (o : Nat) : (noteRun o s).ecc = s.ecc := rfl
@[simp] theorem noteRun_soft (s : State) (o : Nat) : (noteRun o s).soft = s.soft := rfl
@[simp] theorem noteRun_cores (s : State) (o : Nat) : (noteRun o s).cores = s.cores := rfl
@[simp] theorem noteRun_clusters (s : State) (o : Nat) : (noteRun o s).clusters = s.clusters := rfl
@[simp] theorem noteRun_slices (s : State) (o : Nat) : (noteRun o s).slices = s.slices := rfl
@[simp] theorem noteRun_net (s : State) (o : Nat) : (noteRun o s).net = s.net := rfl
@[simp] theorem noteRun_groups (s : State) (o : Nat) : (noteRun o s).groups = s.groups := rfl
@[simp] theorem noteRun_teams (s : State) (o : Nat) : (noteRun o s).teams = s.teams := rfl
@[simp] theorem noteRun_launches (s : State) (o : Nat) : (noteRun o s).launches = s.launches := rfl
@[simp] theorem noteRun_queues (s : State) (o : Nat) : (noteRun o s).queues = s.queues := rfl
@[simp] theorem noteRun_domains (s : State) (o : Nat) : (noteRun o s).domains = s.domains := rfl
@[simp] theorem noteRun_am (s : State) (o : Nat) : (noteRun o s).am = s.am := rfl
@[simp] theorem noteRun_kv (s : State) (o : Nat) : (noteRun o s).kv = s.kv := rfl
@[simp] theorem noteRun_saved (s : State) (o : Nat) : (noteRun o s).saved = s.saved := rfl
@[simp] theorem noteRun_reserved (s : State) (o : Nat) : (noteRun o s).reserved = s.reserved := rfl
@[simp] theorem noteRun_dumpQ (s : State) (o : Nat) : (noteRun o s).dumpQ = s.dumpQ := rfl
@[simp] theorem noteRun_tape (s : State) (o : Nat) : (noteRun o s).tape = s.tape := rfl
@[simp] theorem noteRun_stage (s : State) (o : Nat) : (noteRun o s).stage = s.stage := rfl
@[simp] theorem noteRun_cur (s : State) (o : Nat) : (noteRun o s).cur = s.cur := rfl
@[simp] theorem noteRun_free (s : State) (o : Nat) : (noteRun o s).free = s.free := rfl
@[simp] theorem noteRun_nextId (s : State) (o : Nat) : (noteRun o s).nextId = s.nextId := rfl

@[simp] theorem noteStall_dev (s : State) (leaf : Nat) : (noteStall leaf s).dev = s.dev := rfl
@[simp] theorem noteStall_mem (s : State) (leaf : Nat) : (noteStall leaf s).mem = s.mem := rfl
@[simp] theorem noteStall_ecc (s : State) (leaf : Nat) : (noteStall leaf s).ecc = s.ecc := rfl
@[simp] theorem noteStall_soft (s : State) (leaf : Nat) : (noteStall leaf s).soft = s.soft := rfl
@[simp] theorem noteStall_cores (s : State) (leaf : Nat) : (noteStall leaf s).cores = s.cores := rfl
@[simp] theorem noteStall_clusters (s : State) (leaf : Nat) : (noteStall leaf s).clusters = s.clusters := rfl
@[simp] theorem noteStall_slices (s : State) (leaf : Nat) : (noteStall leaf s).slices = s.slices := rfl
@[simp] theorem noteStall_net (s : State) (leaf : Nat) : (noteStall leaf s).net = s.net := rfl
@[simp] theorem noteStall_teams (s : State) (leaf : Nat) : (noteStall leaf s).teams = s.teams := rfl
@[simp] theorem noteStall_launches (s : State) (leaf : Nat) : (noteStall leaf s).launches = s.launches := rfl
@[simp] theorem noteStall_queues (s : State) (leaf : Nat) : (noteStall leaf s).queues = s.queues := rfl
@[simp] theorem noteStall_ctxs (s : State) (leaf : Nat) : (noteStall leaf s).ctxs = s.ctxs := rfl
@[simp] theorem noteStall_domains (s : State) (leaf : Nat) : (noteStall leaf s).domains = s.domains := rfl
@[simp] theorem noteStall_am (s : State) (leaf : Nat) : (noteStall leaf s).am = s.am := rfl
@[simp] theorem noteStall_kv (s : State) (leaf : Nat) : (noteStall leaf s).kv = s.kv := rfl
@[simp] theorem noteStall_saved (s : State) (leaf : Nat) : (noteStall leaf s).saved = s.saved := rfl
@[simp] theorem noteStall_reserved (s : State) (leaf : Nat) : (noteStall leaf s).reserved = s.reserved := rfl
@[simp] theorem noteStall_dumpQ (s : State) (leaf : Nat) : (noteStall leaf s).dumpQ = s.dumpQ := rfl
@[simp] theorem noteStall_tape (s : State) (leaf : Nat) : (noteStall leaf s).tape = s.tape := rfl
@[simp] theorem noteStall_stage (s : State) (leaf : Nat) : (noteStall leaf s).stage = s.stage := rfl
@[simp] theorem noteStall_cur (s : State) (leaf : Nat) : (noteStall leaf s).cur = s.cur := rfl
@[simp] theorem noteStall_free (s : State) (leaf : Nat) : (noteStall leaf s).free = s.free := rfl
@[simp] theorem noteStall_nextId (s : State) (leaf : Nat) : (noteStall leaf s).nextId = s.nextId := rfl

@[simp] theorem advance_dev (s : State) (n : Nat) : (advance n s).dev = s.dev := rfl
@[simp] theorem advance_mem (s : State) (n : Nat) : (advance n s).mem = s.mem := rfl
@[simp] theorem advance_ecc (s : State) (n : Nat) : (advance n s).ecc = s.ecc := rfl
@[simp] theorem advance_soft (s : State) (n : Nat) : (advance n s).soft = s.soft := rfl
@[simp] theorem advance_cores (s : State) (n : Nat) : (advance n s).cores = s.cores := rfl
@[simp] theorem advance_clusters (s : State) (n : Nat) : (advance n s).clusters = s.clusters := rfl
@[simp] theorem advance_slices (s : State) (n : Nat) : (advance n s).slices = s.slices := rfl
@[simp] theorem advance_net (s : State) (n : Nat) : (advance n s).net = s.net := rfl
@[simp] theorem advance_teams (s : State) (n : Nat) : (advance n s).teams = s.teams := rfl
@[simp] theorem advance_launches (s : State) (n : Nat) : (advance n s).launches = s.launches := rfl
@[simp] theorem advance_queues (s : State) (n : Nat) : (advance n s).queues = s.queues := rfl
@[simp] theorem advance_ctxs (s : State) (n : Nat) : (advance n s).ctxs = s.ctxs := rfl
@[simp] theorem advance_domains (s : State) (n : Nat) : (advance n s).domains = s.domains := rfl
@[simp] theorem advance_am (s : State) (n : Nat) : (advance n s).am = s.am := rfl
@[simp] theorem advance_kv (s : State) (n : Nat) : (advance n s).kv = s.kv := rfl
@[simp] theorem advance_saved (s : State) (n : Nat) : (advance n s).saved = s.saved := rfl
@[simp] theorem advance_reserved (s : State) (n : Nat) : (advance n s).reserved = s.reserved := rfl
@[simp] theorem advance_dumpQ (s : State) (n : Nat) : (advance n s).dumpQ = s.dumpQ := rfl
@[simp] theorem advance_tape (s : State) (n : Nat) : (advance n s).tape = s.tape := rfl
@[simp] theorem advance_stage (s : State) (n : Nat) : (advance n s).stage = s.stage := rfl
@[simp] theorem advance_cur (s : State) (n : Nat) : (advance n s).cur = s.cur := rfl
@[simp] theorem advance_free (s : State) (n : Nat) : (advance n s).free = s.free := rfl
@[simp] theorem advance_nextId (s : State) (n : Nat) : (advance n s).nextId = s.nextId := rfl

@[simp] theorem holdPath_dev (s : State) (n leaf : Nat) : (holdPath n leaf s).dev = s.dev := rfl
@[simp] theorem holdPath_mem (s : State) (n leaf : Nat) : (holdPath n leaf s).mem = s.mem := rfl
@[simp] theorem holdPath_ecc (s : State) (n leaf : Nat) : (holdPath n leaf s).ecc = s.ecc := rfl
@[simp] theorem holdPath_soft (s : State) (n leaf : Nat) : (holdPath n leaf s).soft = s.soft := rfl
@[simp] theorem holdPath_cores (s : State) (n leaf : Nat) : (holdPath n leaf s).cores = s.cores := rfl
@[simp] theorem holdPath_clusters (s : State) (n leaf : Nat) : (holdPath n leaf s).clusters = s.clusters := rfl
@[simp] theorem holdPath_slices (s : State) (n leaf : Nat) : (holdPath n leaf s).slices = s.slices := rfl
@[simp] theorem holdPath_net (s : State) (n leaf : Nat) : (holdPath n leaf s).net = s.net := rfl
@[simp] theorem holdPath_teams (s : State) (n leaf : Nat) : (holdPath n leaf s).teams = s.teams := rfl
@[simp] theorem holdPath_launches (s : State) (n leaf : Nat) : (holdPath n leaf s).launches = s.launches := rfl
@[simp] theorem holdPath_queues (s : State) (n leaf : Nat) : (holdPath n leaf s).queues = s.queues := rfl
@[simp] theorem holdPath_ctxs (s : State) (n leaf : Nat) : (holdPath n leaf s).ctxs = s.ctxs := rfl
@[simp] theorem holdPath_domains (s : State) (n leaf : Nat) : (holdPath n leaf s).domains = s.domains := rfl
@[simp] theorem holdPath_am (s : State) (n leaf : Nat) : (holdPath n leaf s).am = s.am := rfl
@[simp] theorem holdPath_kv (s : State) (n leaf : Nat) : (holdPath n leaf s).kv = s.kv := rfl
@[simp] theorem holdPath_saved (s : State) (n leaf : Nat) : (holdPath n leaf s).saved = s.saved := rfl
@[simp] theorem holdPath_reserved (s : State) (n leaf : Nat) : (holdPath n leaf s).reserved = s.reserved := rfl
@[simp] theorem holdPath_dumpQ (s : State) (n leaf : Nat) : (holdPath n leaf s).dumpQ = s.dumpQ := rfl
@[simp] theorem holdPath_tape (s : State) (n leaf : Nat) : (holdPath n leaf s).tape = s.tape := rfl
@[simp] theorem holdPath_stage (s : State) (n leaf : Nat) : (holdPath n leaf s).stage = s.stage := rfl
@[simp] theorem holdPath_cur (s : State) (n leaf : Nat) : (holdPath n leaf s).cur = s.cur := rfl
@[simp] theorem holdPath_free (s : State) (n leaf : Nat) : (holdPath n leaf s).free = s.free := rfl
@[simp] theorem holdPath_nextId (s : State) (n leaf : Nat) : (holdPath n leaf s).nextId = s.nextId := rfl

@[simp] theorem sketchEvent_dev (core : Nat) (sess : List Profile) (id w pc entry : Nat) (s : State) :
    (sketchEvent core sess id w pc entry s).dev = s.dev := by
  unfold sketchEvent; dsimp only; split <;> rfl
@[simp] theorem sketchEvent_mem (core : Nat) (sess : List Profile) (id w pc entry : Nat) (s : State) :
    (sketchEvent core sess id w pc entry s).mem = s.mem := by
  unfold sketchEvent; dsimp only; split <;> rfl
@[simp] theorem sketchEvent_ecc (core : Nat) (sess : List Profile) (id w pc entry : Nat) (s : State) :
    (sketchEvent core sess id w pc entry s).ecc = s.ecc := by
  unfold sketchEvent; dsimp only; split <;> rfl
@[simp] theorem sketchEvent_soft (core : Nat) (sess : List Profile) (id w pc entry : Nat) (s : State) :
    (sketchEvent core sess id w pc entry s).soft = s.soft := by
  unfold sketchEvent; dsimp only; split <;> rfl
@[simp] theorem sketchEvent_clusters (core : Nat) (sess : List Profile) (id w pc entry : Nat) (s : State) :
    (sketchEvent core sess id w pc entry s).clusters = s.clusters := by
  unfold sketchEvent; dsimp only; split <;> rfl
@[simp] theorem sketchEvent_slices (core : Nat) (sess : List Profile) (id w pc entry : Nat) (s : State) :
    (sketchEvent core sess id w pc entry s).slices = s.slices := by
  unfold sketchEvent; dsimp only; split <;> rfl
@[simp] theorem sketchEvent_net (core : Nat) (sess : List Profile) (id w pc entry : Nat) (s : State) :
    (sketchEvent core sess id w pc entry s).net = s.net := by
  unfold sketchEvent; dsimp only; split <;> rfl
@[simp] theorem sketchEvent_groups (core : Nat) (sess : List Profile) (id w pc entry : Nat) (s : State) :
    (sketchEvent core sess id w pc entry s).groups = s.groups := by
  unfold sketchEvent; dsimp only; split <;> rfl
@[simp] theorem sketchEvent_teams (core : Nat) (sess : List Profile) (id w pc entry : Nat) (s : State) :
    (sketchEvent core sess id w pc entry s).teams = s.teams := by
  unfold sketchEvent; dsimp only; split <;> rfl
@[simp] theorem sketchEvent_launches (core : Nat) (sess : List Profile) (id w pc entry : Nat) (s : State) :
    (sketchEvent core sess id w pc entry s).launches = s.launches := by
  unfold sketchEvent; dsimp only; split <;> rfl
@[simp] theorem sketchEvent_queues (core : Nat) (sess : List Profile) (id w pc entry : Nat) (s : State) :
    (sketchEvent core sess id w pc entry s).queues = s.queues := by
  unfold sketchEvent; dsimp only; split <;> rfl
@[simp] theorem sketchEvent_ctxs (core : Nat) (sess : List Profile) (id w pc entry : Nat) (s : State) :
    (sketchEvent core sess id w pc entry s).ctxs = s.ctxs := by
  unfold sketchEvent; dsimp only; split <;> rfl
@[simp] theorem sketchEvent_domains (core : Nat) (sess : List Profile) (id w pc entry : Nat) (s : State) :
    (sketchEvent core sess id w pc entry s).domains = s.domains := by
  unfold sketchEvent; dsimp only; split <;> rfl
@[simp] theorem sketchEvent_am (core : Nat) (sess : List Profile) (id w pc entry : Nat) (s : State) :
    (sketchEvent core sess id w pc entry s).am = s.am := by
  unfold sketchEvent; dsimp only; split <;> rfl
@[simp] theorem sketchEvent_kv (core : Nat) (sess : List Profile) (id w pc entry : Nat) (s : State) :
    (sketchEvent core sess id w pc entry s).kv = s.kv := by
  unfold sketchEvent; dsimp only; split <;> rfl
@[simp] theorem sketchEvent_saved (core : Nat) (sess : List Profile) (id w pc entry : Nat) (s : State) :
    (sketchEvent core sess id w pc entry s).saved = s.saved := by
  unfold sketchEvent; dsimp only; split <;> rfl
@[simp] theorem sketchEvent_reserved (core : Nat) (sess : List Profile) (id w pc entry : Nat) (s : State) :
    (sketchEvent core sess id w pc entry s).reserved = s.reserved := by
  unfold sketchEvent; dsimp only; split <;> rfl
@[simp] theorem sketchEvent_dumpQ (core : Nat) (sess : List Profile) (id w pc entry : Nat) (s : State) :
    (sketchEvent core sess id w pc entry s).dumpQ = s.dumpQ := by
  unfold sketchEvent; dsimp only; split <;> rfl
@[simp] theorem sketchEvent_tape (core : Nat) (sess : List Profile) (id w pc entry : Nat) (s : State) :
    (sketchEvent core sess id w pc entry s).tape = s.tape := by
  unfold sketchEvent; dsimp only; split <;> rfl
@[simp] theorem sketchEvent_stage (core : Nat) (sess : List Profile) (id w pc entry : Nat) (s : State) :
    (sketchEvent core sess id w pc entry s).stage = s.stage := by
  unfold sketchEvent; dsimp only; split <;> rfl
@[simp] theorem sketchEvent_cur (core : Nat) (sess : List Profile) (id w pc entry : Nat) (s : State) :
    (sketchEvent core sess id w pc entry s).cur = s.cur := by
  unfold sketchEvent; dsimp only; split <;> rfl
@[simp] theorem sketchEvent_free (core : Nat) (sess : List Profile) (id w pc entry : Nat) (s : State) :
    (sketchEvent core sess id w pc entry s).free = s.free := by
  unfold sketchEvent; dsimp only; split <;> rfl
@[simp] theorem sketchEvent_nextId (core : Nat) (sess : List Profile) (id w pc entry : Nat) (s : State) :
    (sketchEvent core sess id w pc entry s).nextId = s.nextId := by
  unfold sketchEvent; dsimp only; split <;> rfl

@[simp] theorem domainAdd_dev (dom id w : Nat) (s : State) : (domainAdd dom id w s).dev = s.dev := by
  unfold domainAdd; split <;> rfl
@[simp] theorem domainAdd_mem (dom id w : Nat) (s : State) : (domainAdd dom id w s).mem = s.mem := by
  unfold domainAdd; split <;> rfl
@[simp] theorem domainAdd_ecc (dom id w : Nat) (s : State) : (domainAdd dom id w s).ecc = s.ecc := by
  unfold domainAdd; split <;> rfl
@[simp] theorem domainAdd_soft (dom id w : Nat) (s : State) : (domainAdd dom id w s).soft = s.soft := by
  unfold domainAdd; split <;> rfl
@[simp] theorem domainAdd_cores (dom id w : Nat) (s : State) : (domainAdd dom id w s).cores = s.cores := by
  unfold domainAdd; split <;> rfl
@[simp] theorem domainAdd_clusters (dom id w : Nat) (s : State) : (domainAdd dom id w s).clusters = s.clusters := by
  unfold domainAdd; split <;> rfl
@[simp] theorem domainAdd_slices (dom id w : Nat) (s : State) : (domainAdd dom id w s).slices = s.slices := by
  unfold domainAdd; split <;> rfl
@[simp] theorem domainAdd_net (dom id w : Nat) (s : State) : (domainAdd dom id w s).net = s.net := by
  unfold domainAdd; split <;> rfl
@[simp] theorem domainAdd_groups (dom id w : Nat) (s : State) : (domainAdd dom id w s).groups = s.groups := by
  unfold domainAdd; split <;> rfl
@[simp] theorem domainAdd_teams (dom id w : Nat) (s : State) : (domainAdd dom id w s).teams = s.teams := by
  unfold domainAdd; split <;> rfl
@[simp] theorem domainAdd_launches (dom id w : Nat) (s : State) : (domainAdd dom id w s).launches = s.launches := by
  unfold domainAdd; split <;> rfl
@[simp] theorem domainAdd_queues (dom id w : Nat) (s : State) : (domainAdd dom id w s).queues = s.queues := by
  unfold domainAdd; split <;> rfl
@[simp] theorem domainAdd_ctxs (dom id w : Nat) (s : State) : (domainAdd dom id w s).ctxs = s.ctxs := by
  unfold domainAdd; split <;> rfl
@[simp] theorem domainAdd_am (dom id w : Nat) (s : State) : (domainAdd dom id w s).am = s.am := by
  unfold domainAdd; split <;> rfl
@[simp] theorem domainAdd_kv (dom id w : Nat) (s : State) : (domainAdd dom id w s).kv = s.kv := by
  unfold domainAdd; split <;> rfl
@[simp] theorem domainAdd_saved (dom id w : Nat) (s : State) : (domainAdd dom id w s).saved = s.saved := by
  unfold domainAdd; split <;> rfl
@[simp] theorem domainAdd_reserved (dom id w : Nat) (s : State) : (domainAdd dom id w s).reserved = s.reserved := by
  unfold domainAdd; split <;> rfl
@[simp] theorem domainAdd_dumpQ (dom id w : Nat) (s : State) : (domainAdd dom id w s).dumpQ = s.dumpQ := by
  unfold domainAdd; split <;> rfl
@[simp] theorem domainAdd_tape (dom id w : Nat) (s : State) : (domainAdd dom id w s).tape = s.tape := by
  unfold domainAdd; split <;> rfl
@[simp] theorem domainAdd_stage (dom id w : Nat) (s : State) : (domainAdd dom id w s).stage = s.stage := by
  unfold domainAdd; split <;> rfl
@[simp] theorem domainAdd_cur (dom id w : Nat) (s : State) : (domainAdd dom id w s).cur = s.cur := by
  unfold domainAdd; split <;> rfl
@[simp] theorem domainAdd_free (dom id w : Nat) (s : State) : (domainAdd dom id w s).free = s.free := by
  unfold domainAdd; split <;> rfl
@[simp] theorem domainAdd_nextId (dom id w : Nat) (s : State) : (domainAdd dom id w s).nextId = s.nextId := by
  unfold domainAdd; split <;> rfl

@[simp] theorem countEvent_mem (core dom id w pc entry : Nat) (s : State) :
    (countEvent core dom id w pc entry s).mem = s.mem := by
  unfold countEvent; dsimp only; split
  · rfl
  · rw [sketchEvent_mem]; exact domainAdd_mem ..
@[simp] theorem countEvent_ecc (core dom id w pc entry : Nat) (s : State) :
    (countEvent core dom id w pc entry s).ecc = s.ecc := by
  unfold countEvent; dsimp only; split
  · rfl
  · rw [sketchEvent_ecc]; exact domainAdd_ecc ..
@[simp] theorem countEvent_soft (core dom id w pc entry : Nat) (s : State) :
    (countEvent core dom id w pc entry s).soft = s.soft := by
  unfold countEvent; dsimp only; split
  · rfl
  · rw [sketchEvent_soft]; exact domainAdd_soft ..
@[simp] theorem countEvent_clusters (core dom id w pc entry : Nat) (s : State) :
    (countEvent core dom id w pc entry s).clusters = s.clusters := by
  unfold countEvent; dsimp only; split
  · rfl
  · rw [sketchEvent_clusters]; exact domainAdd_clusters ..
@[simp] theorem countEvent_slices (core dom id w pc entry : Nat) (s : State) :
    (countEvent core dom id w pc entry s).slices = s.slices := by
  unfold countEvent; dsimp only; split
  · rfl
  · rw [sketchEvent_slices]; exact domainAdd_slices ..
@[simp] theorem countEvent_net (core dom id w pc entry : Nat) (s : State) :
    (countEvent core dom id w pc entry s).net = s.net := by
  unfold countEvent; dsimp only; split
  · rfl
  · rw [sketchEvent_net]; exact domainAdd_net ..
@[simp] theorem countEvent_groups (core dom id w pc entry : Nat) (s : State) :
    (countEvent core dom id w pc entry s).groups = s.groups := by
  unfold countEvent; dsimp only; split
  · rfl
  · rw [sketchEvent_groups]; exact domainAdd_groups ..
@[simp] theorem countEvent_teams (core dom id w pc entry : Nat) (s : State) :
    (countEvent core dom id w pc entry s).teams = s.teams := by
  unfold countEvent; dsimp only; split
  · rfl
  · rw [sketchEvent_teams]; exact domainAdd_teams ..
@[simp] theorem countEvent_launches (core dom id w pc entry : Nat) (s : State) :
    (countEvent core dom id w pc entry s).launches = s.launches := by
  unfold countEvent; dsimp only; split
  · rfl
  · rw [sketchEvent_launches]; exact domainAdd_launches ..
@[simp] theorem countEvent_queues (core dom id w pc entry : Nat) (s : State) :
    (countEvent core dom id w pc entry s).queues = s.queues := by
  unfold countEvent; dsimp only; split
  · rfl
  · rw [sketchEvent_queues]; exact domainAdd_queues ..
@[simp] theorem countEvent_ctxs (core dom id w pc entry : Nat) (s : State) :
    (countEvent core dom id w pc entry s).ctxs = s.ctxs := by
  unfold countEvent; dsimp only; split
  · rfl
  · rw [sketchEvent_ctxs]; exact domainAdd_ctxs ..
@[simp] theorem countEvent_am (core dom id w pc entry : Nat) (s : State) :
    (countEvent core dom id w pc entry s).am = s.am := by
  unfold countEvent; dsimp only; split
  · rfl
  · rw [sketchEvent_am]; exact domainAdd_am ..
@[simp] theorem countEvent_kv (core dom id w pc entry : Nat) (s : State) :
    (countEvent core dom id w pc entry s).kv = s.kv := by
  unfold countEvent; dsimp only; split
  · rfl
  · rw [sketchEvent_kv]; exact domainAdd_kv ..
@[simp] theorem countEvent_saved (core dom id w pc entry : Nat) (s : State) :
    (countEvent core dom id w pc entry s).saved = s.saved := by
  unfold countEvent; dsimp only; split
  · rfl
  · rw [sketchEvent_saved]; exact domainAdd_saved ..
@[simp] theorem countEvent_reserved (core dom id w pc entry : Nat) (s : State) :
    (countEvent core dom id w pc entry s).reserved = s.reserved := by
  unfold countEvent; dsimp only; split
  · rfl
  · rw [sketchEvent_reserved]; exact domainAdd_reserved ..
@[simp] theorem countEvent_dumpQ (core dom id w pc entry : Nat) (s : State) :
    (countEvent core dom id w pc entry s).dumpQ = s.dumpQ := by
  unfold countEvent; dsimp only; split
  · rfl
  · rw [sketchEvent_dumpQ]; exact domainAdd_dumpQ ..
@[simp] theorem countEvent_tape (core dom id w pc entry : Nat) (s : State) :
    (countEvent core dom id w pc entry s).tape = s.tape := by
  unfold countEvent; dsimp only; split
  · rfl
  · rw [sketchEvent_tape]; exact domainAdd_tape ..
@[simp] theorem countEvent_stage (core dom id w pc entry : Nat) (s : State) :
    (countEvent core dom id w pc entry s).stage = s.stage := by
  unfold countEvent; dsimp only; split
  · rfl
  · rw [sketchEvent_stage]; exact domainAdd_stage ..
@[simp] theorem countEvent_cur (core dom id w pc entry : Nat) (s : State) :
    (countEvent core dom id w pc entry s).cur = s.cur := by
  unfold countEvent; dsimp only; split
  · rfl
  · rw [sketchEvent_cur]; exact domainAdd_cur ..
@[simp] theorem countEvent_free (core dom id w pc entry : Nat) (s : State) :
    (countEvent core dom id w pc entry s).free = s.free := by
  unfold countEvent; dsimp only; split
  · rfl
  · rw [sketchEvent_free]; exact domainAdd_free ..
@[simp] theorem countEvent_nextId (core dom id w pc entry : Nat) (s : State) :
    (countEvent core dom id w pc entry s).nextId = s.nextId := by
  unfold countEvent; dsimp only; split
  · rfl
  · rw [sketchEvent_nextId]; exact domainAdd_nextId ..

@[simp] theorem countSlot_mem (leaf : Nat) (s : State) : (countSlot leaf s).mem = s.mem := countEvent_mem ..
@[simp] theorem countSlot_ecc (leaf : Nat) (s : State) : (countSlot leaf s).ecc = s.ecc := countEvent_ecc ..
@[simp] theorem countSlot_soft (leaf : Nat) (s : State) : (countSlot leaf s).soft = s.soft := countEvent_soft ..
@[simp] theorem countSlot_clusters (leaf : Nat) (s : State) : (countSlot leaf s).clusters = s.clusters := countEvent_clusters ..
@[simp] theorem countSlot_slices (leaf : Nat) (s : State) : (countSlot leaf s).slices = s.slices := countEvent_slices ..
@[simp] theorem countSlot_net (leaf : Nat) (s : State) : (countSlot leaf s).net = s.net := countEvent_net ..
@[simp] theorem countSlot_groups (leaf : Nat) (s : State) : (countSlot leaf s).groups = s.groups := countEvent_groups ..
@[simp] theorem countSlot_teams (leaf : Nat) (s : State) : (countSlot leaf s).teams = s.teams := countEvent_teams ..
@[simp] theorem countSlot_launches (leaf : Nat) (s : State) : (countSlot leaf s).launches = s.launches := countEvent_launches ..
@[simp] theorem countSlot_queues (leaf : Nat) (s : State) : (countSlot leaf s).queues = s.queues := countEvent_queues ..
@[simp] theorem countSlot_ctxs (leaf : Nat) (s : State) : (countSlot leaf s).ctxs = s.ctxs := countEvent_ctxs ..
@[simp] theorem countSlot_am (leaf : Nat) (s : State) : (countSlot leaf s).am = s.am := countEvent_am ..
@[simp] theorem countSlot_kv (leaf : Nat) (s : State) : (countSlot leaf s).kv = s.kv := countEvent_kv ..
@[simp] theorem countSlot_saved (leaf : Nat) (s : State) : (countSlot leaf s).saved = s.saved := countEvent_saved ..
@[simp] theorem countSlot_reserved (leaf : Nat) (s : State) : (countSlot leaf s).reserved = s.reserved := countEvent_reserved ..
@[simp] theorem countSlot_dumpQ (leaf : Nat) (s : State) : (countSlot leaf s).dumpQ = s.dumpQ := countEvent_dumpQ ..
@[simp] theorem countSlot_tape (leaf : Nat) (s : State) : (countSlot leaf s).tape = s.tape := countEvent_tape ..
@[simp] theorem countSlot_stage (leaf : Nat) (s : State) : (countSlot leaf s).stage = s.stage := countEvent_stage ..
@[simp] theorem countSlot_cur (leaf : Nat) (s : State) : (countSlot leaf s).cur = s.cur := countEvent_cur ..
@[simp] theorem countSlot_free (leaf : Nat) (s : State) : (countSlot leaf s).free = s.free := countEvent_free ..
@[simp] theorem countSlot_nextId (leaf : Nat) (s : State) : (countSlot leaf s).nextId = s.nextId := countEvent_nextId ..

@[simp] theorem noteSlot_mem (leaf : Nat) (s : State) : (noteSlot leaf s).mem = s.mem := countSlot_mem ..
@[simp] theorem noteSlot_ecc (leaf : Nat) (s : State) : (noteSlot leaf s).ecc = s.ecc := countSlot_ecc ..
@[simp] theorem noteSlot_soft (leaf : Nat) (s : State) : (noteSlot leaf s).soft = s.soft := countSlot_soft ..
@[simp] theorem noteSlot_clusters (leaf : Nat) (s : State) : (noteSlot leaf s).clusters = s.clusters := countSlot_clusters ..
@[simp] theorem noteSlot_slices (leaf : Nat) (s : State) : (noteSlot leaf s).slices = s.slices := countSlot_slices ..
@[simp] theorem noteSlot_net (leaf : Nat) (s : State) : (noteSlot leaf s).net = s.net := countSlot_net ..
@[simp] theorem noteSlot_teams (leaf : Nat) (s : State) : (noteSlot leaf s).teams = s.teams := countSlot_teams ..
@[simp] theorem noteSlot_launches (leaf : Nat) (s : State) : (noteSlot leaf s).launches = s.launches := countSlot_launches ..
@[simp] theorem noteSlot_queues (leaf : Nat) (s : State) : (noteSlot leaf s).queues = s.queues := countSlot_queues ..
@[simp] theorem noteSlot_ctxs (leaf : Nat) (s : State) : (noteSlot leaf s).ctxs = s.ctxs := countSlot_ctxs ..
@[simp] theorem noteSlot_am (leaf : Nat) (s : State) : (noteSlot leaf s).am = s.am := countSlot_am ..
@[simp] theorem noteSlot_kv (leaf : Nat) (s : State) : (noteSlot leaf s).kv = s.kv := countSlot_kv ..
@[simp] theorem noteSlot_saved (leaf : Nat) (s : State) : (noteSlot leaf s).saved = s.saved := countSlot_saved ..
@[simp] theorem noteSlot_reserved (leaf : Nat) (s : State) : (noteSlot leaf s).reserved = s.reserved := countSlot_reserved ..
@[simp] theorem noteSlot_dumpQ (leaf : Nat) (s : State) : (noteSlot leaf s).dumpQ = s.dumpQ := countSlot_dumpQ ..
@[simp] theorem noteSlot_tape (leaf : Nat) (s : State) : (noteSlot leaf s).tape = s.tape := countSlot_tape ..
@[simp] theorem noteSlot_stage (leaf : Nat) (s : State) : (noteSlot leaf s).stage = s.stage := countSlot_stage ..
@[simp] theorem noteSlot_cur (leaf : Nat) (s : State) : (noteSlot leaf s).cur = s.cur := countSlot_cur ..
@[simp] theorem noteSlot_free (leaf : Nat) (s : State) : (noteSlot leaf s).free = s.free := countSlot_free ..
@[simp] theorem noteSlot_nextId (leaf : Nat) (s : State) : (noteSlot leaf s).nextId = s.nextId := countSlot_nextId ..

@[simp] theorem noteIssue_mem (leaf : Nat) (s : State) : (noteIssue leaf s).mem = s.mem := noteSlot_mem leaf s
@[simp] theorem noteIssue_ecc (leaf : Nat) (s : State) : (noteIssue leaf s).ecc = s.ecc := noteSlot_ecc leaf s
@[simp] theorem noteIssue_soft (leaf : Nat) (s : State) : (noteIssue leaf s).soft = s.soft := noteSlot_soft leaf s
@[simp] theorem noteIssue_clusters (leaf : Nat) (s : State) : (noteIssue leaf s).clusters = s.clusters := noteSlot_clusters leaf s
@[simp] theorem noteIssue_slices (leaf : Nat) (s : State) : (noteIssue leaf s).slices = s.slices := noteSlot_slices leaf s
@[simp] theorem noteIssue_net (leaf : Nat) (s : State) : (noteIssue leaf s).net = s.net := noteSlot_net leaf s
@[simp] theorem noteIssue_teams (leaf : Nat) (s : State) : (noteIssue leaf s).teams = s.teams := noteSlot_teams leaf s
@[simp] theorem noteIssue_launches (leaf : Nat) (s : State) : (noteIssue leaf s).launches = s.launches := noteSlot_launches leaf s
@[simp] theorem noteIssue_queues (leaf : Nat) (s : State) : (noteIssue leaf s).queues = s.queues := noteSlot_queues leaf s
@[simp] theorem noteIssue_am (leaf : Nat) (s : State) : (noteIssue leaf s).am = s.am := noteSlot_am leaf s
@[simp] theorem noteIssue_kv (leaf : Nat) (s : State) : (noteIssue leaf s).kv = s.kv := noteSlot_kv leaf s
@[simp] theorem noteIssue_saved (leaf : Nat) (s : State) : (noteIssue leaf s).saved = s.saved := noteSlot_saved leaf s
@[simp] theorem noteIssue_reserved (leaf : Nat) (s : State) : (noteIssue leaf s).reserved = s.reserved := noteSlot_reserved leaf s
@[simp] theorem noteIssue_dumpQ (leaf : Nat) (s : State) : (noteIssue leaf s).dumpQ = s.dumpQ := noteSlot_dumpQ leaf s
@[simp] theorem noteIssue_tape (leaf : Nat) (s : State) : (noteIssue leaf s).tape = s.tape := noteSlot_tape leaf s
@[simp] theorem noteIssue_stage (leaf : Nat) (s : State) : (noteIssue leaf s).stage = s.stage := noteSlot_stage leaf s
@[simp] theorem noteIssue_cur (leaf : Nat) (s : State) : (noteIssue leaf s).cur = s.cur := noteSlot_cur leaf s
@[simp] theorem noteIssue_free (leaf : Nat) (s : State) : (noteIssue leaf s).free = s.free := noteSlot_free leaf s
@[simp] theorem noteIssue_nextId (leaf : Nat) (s : State) : (noteIssue leaf s).nextId = s.nextId := noteSlot_nextId leaf s

@[simp] theorem setGroup_groups (s : State) (k : Nat) (g : Group) : (setGroup s k g).groups = kvSet s.groups k g := rfl
@[simp] theorem modGroup_groups (s : State) (k : Nat) (f : Group → Group) : (modGroup s k f).groups = kvMod s.groups k f := rfl
@[simp] theorem setCurGroup_groups (s : State) (g : Group) : (setCurGroup s g).groups = kvSet s.groups (curGid s) g := rfl
@[simp] theorem modTeam_teams (s : State) (k : Nat) (f : Team → Team) : (modTeam s k f).teams = kvMod s.teams k f := rfl
@[simp] theorem setCore_cores (s : State) (k : Nat) (c : Core) : (setCore s k c).cores = kvSet s.cores k c := rfl
@[simp] theorem modCore_cores (s : State) (k : Nat) (f : Core → Core) :
    (modCore s k f).cores = kvSet s.cores k (f (getCore s k)) := rfl
@[simp] theorem modCtx_ctxs (s : State) (k : Nat) (f : Ctx → Ctx) : (modCtx s k f).ctxs = kvMod s.ctxs k f := rfl
@[simp] theorem modDom_domains (s : State) (k : Nat) (f : Domain → Domain) :
    (modDom s k f).domains = kvSet s.domains k (f (getDom s k)) := rfl
@[simp] theorem modLaunch_launches (s : State) (k : Nat) (f : Launch → Launch) :
    (modLaunch s k f).launches = kvMod s.launches k f := rfl
@[simp] theorem putDWord_mem (s : State) (a v : Nat) : (putDWord s a v).mem = memPut s.mem a (bytesOfNat 8 v) := rfl

/-! ## Updates of a group -/

@[simp] theorem modLanes_place (g : Group) (m : LaneMask) (f : Nat → Fibre → Fibre) : (modLanes g m f).place = g.place := rfl
@[simp] theorem modLanes_leaving (g : Group) (m : LaneMask) (f : Nat → Fibre → Fibre) : (modLanes g m f).leaving = g.leaving := rfl
@[simp] theorem modLanes_left (g : Group) (m : LaneMask) (f : Nat → Fibre → Fibre) : (modLanes g m f).left = g.left := rfl
@[simp] theorem modLanes_uregs (g : Group) (m : LaneMask) (f : Nat → Fibre → Fibre) : (modLanes g m f).uregs = g.uregs := rfl
@[simp] theorem modLanes_upend (g : Group) (m : LaneMask) (f : Nat → Fibre → Fibre) : (modLanes g m f).upend = g.upend := rfl
@[simp] theorem modLanes_gp (g : Group) (m : LaneMask) (f : Nat → Fibre → Fibre) : (modLanes g m f).gp = g.gp := rfl
@[simp] theorem modLanes_cvs (g : Group) (m : LaneMask) (f : Nat → Fibre → Fibre) : (modLanes g m f).cvs = g.cvs := rfl
@[simp] theorem modLanes_ports (g : Group) (m : LaneMask) (f : Nat → Fibre → Fibre) : (modLanes g m f).ports = g.ports := rfl
@[simp] theorem modLanes_ops (g : Group) (m : LaneMask) (f : Nat → Fibre → Fibre) : (modLanes g m f).ops = g.ops := rfl
@[simp] theorem modLanes_opSeq (g : Group) (m : LaneMask) (f : Nat → Fibre → Fibre) : (modLanes g m f).opSeq = g.opSeq := rfl
@[simp] theorem modLanes_regions (g : Group) (m : LaneMask) (f : Nat → Fibre → Fibre) : (modLanes g m f).regions = g.regions := rfl
@[simp] theorem modLanes_depth (g : Group) (m : LaneMask) (f : Nat → Fibre → Fibre) : (modLanes g m f).depth = g.depth := rfl
@[simp] theorem modLanes_clockHi (g : Group) (m : LaneMask) (f : Nat → Fibre → Fibre) : (modLanes g m f).clockHi = g.clockHi := rfl
@[simp] theorem modLanes_st (g : Group) (m : LaneMask) (f : Nat → Fibre → Fibre) : (modLanes g m f).st = g.st := rfl
@[simp] theorem modLanes_halted (g : Group) (m : LaneMask) (f : Nat → Fibre → Fibre) : (modLanes g m f).halted = g.halted := rfl
@[simp] theorem modLanes_sched (g : Group) (m : LaneMask) (f : Nat → Fibre → Fibre) : (modLanes g m f).sched = g.sched := rfl
@[simp] theorem modLanes_trap (g : Group) (m : LaneMask) (f : Nat → Fibre → Fibre) : (modLanes g m f).trap = g.trap := rfl
@[simp] theorem modLanes_engQ (g : Group) (m : LaneMask) (f : Nat → Fibre → Fibre) : (modLanes g m f).engQ = g.engQ := rfl
@[simp] theorem modLanes_fences (g : Group) (m : LaneMask) (f : Nat → Fibre → Fibre) : (modLanes g m f).fences = g.fences := rfl
@[simp] theorem modLanes_ordEnded (g : Group) (m : LaneMask) (f : Nat → Fibre → Fibre) : (modLanes g m f).ordEnded = g.ordEnded := rfl
@[simp] theorem modLanes_twin (g : Group) (m : LaneMask) (f : Nat → Fibre → Fibre) : (modLanes g m f).twin = g.twin := rfl

@[simp] theorem setU_place (g : Group) (r : Nat) (w : Word) : (setU g r w).place = g.place := rfl
@[simp] theorem setU_fibres (g : Group) (r : Nat) (w : Word) : (setU g r w).fibres = g.fibres := rfl
@[simp] theorem setU_leaving (g : Group) (r : Nat) (w : Word) : (setU g r w).leaving = g.leaving := rfl
@[simp] theorem setU_left (g : Group) (r : Nat) (w : Word) : (setU g r w).left = g.left := rfl
@[simp] theorem setU_upend (g : Group) (r : Nat) (w : Word) : (setU g r w).upend = g.upend := rfl
@[simp] theorem setU_gp (g : Group) (r : Nat) (w : Word) : (setU g r w).gp = g.gp := rfl
@[simp] theorem setU_cvs (g : Group) (r : Nat) (w : Word) : (setU g r w).cvs = g.cvs := rfl
@[simp] theorem setU_ports (g : Group) (r : Nat) (w : Word) : (setU g r w).ports = g.ports := rfl
@[simp] theorem setU_ops (g : Group) (r : Nat) (w : Word) : (setU g r w).ops = g.ops := rfl
@[simp] theorem setU_opSeq (g : Group) (r : Nat) (w : Word) : (setU g r w).opSeq = g.opSeq := rfl
@[simp] theorem setU_regions (g : Group) (r : Nat) (w : Word) : (setU g r w).regions = g.regions := rfl
@[simp] theorem setU_depth (g : Group) (r : Nat) (w : Word) : (setU g r w).depth = g.depth := rfl
@[simp] theorem setU_clockHi (g : Group) (r : Nat) (w : Word) : (setU g r w).clockHi = g.clockHi := rfl
@[simp] theorem setU_st (g : Group) (r : Nat) (w : Word) : (setU g r w).st = g.st := rfl
@[simp] theorem setU_halted (g : Group) (r : Nat) (w : Word) : (setU g r w).halted = g.halted := rfl
@[simp] theorem setU_sched (g : Group) (r : Nat) (w : Word) : (setU g r w).sched = g.sched := rfl
@[simp] theorem setU_trap (g : Group) (r : Nat) (w : Word) : (setU g r w).trap = g.trap := rfl
@[simp] theorem setU_engQ (g : Group) (r : Nat) (w : Word) : (setU g r w).engQ = g.engQ := rfl
@[simp] theorem setU_fences (g : Group) (r : Nat) (w : Word) : (setU g r w).fences = g.fences := rfl
@[simp] theorem setU_ordEnded (g : Group) (r : Nat) (w : Word) : (setU g r w).ordEnded = g.ordEnded := rfl
@[simp] theorem setU_twin (g : Group) (r : Nat) (w : Word) : (setU g r w).twin = g.twin := rfl

@[simp] theorem modPort_place (g : Group) (p : Nat) (f : Port → Port) : (modPort g p f).place = g.place := rfl
@[simp] theorem modPort_fibres (g : Group) (p : Nat) (f : Port → Port) : (modPort g p f).fibres = g.fibres := rfl
@[simp] theorem modPort_leaving (g : Group) (p : Nat) (f : Port → Port) : (modPort g p f).leaving = g.leaving := rfl
@[simp] theorem modPort_left (g : Group) (p : Nat) (f : Port → Port) : (modPort g p f).left = g.left := rfl
@[simp] theorem modPort_uregs (g : Group) (p : Nat) (f : Port → Port) : (modPort g p f).uregs = g.uregs := rfl
@[simp] theorem modPort_upend (g : Group) (p : Nat) (f : Port → Port) : (modPort g p f).upend = g.upend := rfl
@[simp] theorem modPort_gp (g : Group) (p : Nat) (f : Port → Port) : (modPort g p f).gp = g.gp := rfl
@[simp] theorem modPort_cvs (g : Group) (p : Nat) (f : Port → Port) : (modPort g p f).cvs = g.cvs := rfl
@[simp] theorem modPort_ops (g : Group) (p : Nat) (f : Port → Port) : (modPort g p f).ops = g.ops := rfl
@[simp] theorem modPort_opSeq (g : Group) (p : Nat) (f : Port → Port) : (modPort g p f).opSeq = g.opSeq := rfl
@[simp] theorem modPort_regions (g : Group) (p : Nat) (f : Port → Port) : (modPort g p f).regions = g.regions := rfl
@[simp] theorem modPort_depth (g : Group) (p : Nat) (f : Port → Port) : (modPort g p f).depth = g.depth := rfl
@[simp] theorem modPort_clockHi (g : Group) (p : Nat) (f : Port → Port) : (modPort g p f).clockHi = g.clockHi := rfl
@[simp] theorem modPort_st (g : Group) (p : Nat) (f : Port → Port) : (modPort g p f).st = g.st := rfl
@[simp] theorem modPort_halted (g : Group) (p : Nat) (f : Port → Port) : (modPort g p f).halted = g.halted := rfl
@[simp] theorem modPort_sched (g : Group) (p : Nat) (f : Port → Port) : (modPort g p f).sched = g.sched := rfl
@[simp] theorem modPort_trap (g : Group) (p : Nat) (f : Port → Port) : (modPort g p f).trap = g.trap := rfl
@[simp] theorem modPort_engQ (g : Group) (p : Nat) (f : Port → Port) : (modPort g p f).engQ = g.engQ := rfl
@[simp] theorem modPort_fences (g : Group) (p : Nat) (f : Port → Port) : (modPort g p f).fences = g.fences := rfl
@[simp] theorem modPort_ordEnded (g : Group) (p : Nat) (f : Port → Port) : (modPort g p f).ordEnded = g.ordEnded := rfl
@[simp] theorem modPort_twin (g : Group) (p : Nat) (f : Port → Port) : (modPort g p f).twin = g.twin := rfl

@[simp] theorem setGp_place (g : Group) (p : Nat) (b : Bool) : (setGp g p b).place = g.place := by
  unfold setGp; split <;> rfl
@[simp] theorem setGp_fibres (g : Group) (p : Nat) (b : Bool) : (setGp g p b).fibres = g.fibres := by
  unfold setGp; split <;> rfl
@[simp] theorem setGp_leaving (g : Group) (p : Nat) (b : Bool) : (setGp g p b).leaving = g.leaving := by
  unfold setGp; split <;> rfl
@[simp] theorem setGp_left (g : Group) (p : Nat) (b : Bool) : (setGp g p b).left = g.left := by
  unfold setGp; split <;> rfl
@[simp] theorem setGp_uregs (g : Group) (p : Nat) (b : Bool) : (setGp g p b).uregs = g.uregs := by
  unfold setGp; split <;> rfl
@[simp] theorem setGp_upend (g : Group) (p : Nat) (b : Bool) : (setGp g p b).upend = g.upend := by
  unfold setGp; split <;> rfl
@[simp] theorem setGp_cvs (g : Group) (p : Nat) (b : Bool) : (setGp g p b).cvs = g.cvs := by
  unfold setGp; split <;> rfl
@[simp] theorem setGp_ports (g : Group) (p : Nat) (b : Bool) : (setGp g p b).ports = g.ports := by
  unfold setGp; split <;> rfl
@[simp] theorem setGp_ops (g : Group) (p : Nat) (b : Bool) : (setGp g p b).ops = g.ops := by
  unfold setGp; split <;> rfl
@[simp] theorem setGp_opSeq (g : Group) (p : Nat) (b : Bool) : (setGp g p b).opSeq = g.opSeq := by
  unfold setGp; split <;> rfl
@[simp] theorem setGp_regions (g : Group) (p : Nat) (b : Bool) : (setGp g p b).regions = g.regions := by
  unfold setGp; split <;> rfl
@[simp] theorem setGp_depth (g : Group) (p : Nat) (b : Bool) : (setGp g p b).depth = g.depth := by
  unfold setGp; split <;> rfl
@[simp] theorem setGp_clockHi (g : Group) (p : Nat) (b : Bool) : (setGp g p b).clockHi = g.clockHi := by
  unfold setGp; split <;> rfl
@[simp] theorem setGp_st (g : Group) (p : Nat) (b : Bool) : (setGp g p b).st = g.st := by
  unfold setGp; split <;> rfl
@[simp] theorem setGp_halted (g : Group) (p : Nat) (b : Bool) : (setGp g p b).halted = g.halted := by
  unfold setGp; split <;> rfl
@[simp] theorem setGp_sched (g : Group) (p : Nat) (b : Bool) : (setGp g p b).sched = g.sched := by
  unfold setGp; split <;> rfl
@[simp] theorem setGp_trap (g : Group) (p : Nat) (b : Bool) : (setGp g p b).trap = g.trap := by
  unfold setGp; split <;> rfl
@[simp] theorem setGp_engQ (g : Group) (p : Nat) (b : Bool) : (setGp g p b).engQ = g.engQ := by
  unfold setGp; split <;> rfl
@[simp] theorem setGp_fences (g : Group) (p : Nat) (b : Bool) : (setGp g p b).fences = g.fences := by
  unfold setGp; split <;> rfl
@[simp] theorem setGp_ordEnded (g : Group) (p : Nat) (b : Bool) : (setGp g p b).ordEnded = g.ordEnded := by
  unfold setGp; split <;> rfl
@[simp] theorem setGp_twin (g : Group) (p : Nat) (b : Bool) : (setGp g p b).twin = g.twin := by
  unfold setGp; split <;> rfl

/-! ## Updates of a fibre -/

@[simp] theorem setReg_pc (x : Fibre) (r : Nat) (w : Word) : (setReg x r w).pc = x.pc := rfl
@[simp] theorem setReg_preds (x : Fibre) (r : Nat) (w : Word) : (setReg x r w).preds = x.preds := rfl
@[simp] theorem setReg_guardP (x : Fibre) (r : Nat) (w : Word) : (setReg x r w).guardP = x.guardP := rfl
@[simp] theorem setReg_guardN (x : Fibre) (r : Nat) (w : Word) : (setReg x r w).guardN = x.guardN := rfl
@[simp] theorem setReg_fpctl (x : Fibre) (r : Nat) (w : Word) : (setReg x r w).fpctl = x.fpctl := rfl
@[simp] theorem setReg_wid (x : Fibre) (r : Nat) (w : Word) : (setReg x r w).wid = x.wid := rfl
@[simp] theorem setReg_winBase (x : Fibre) (r : Nat) (w : Word) : (setReg x r w).winBase = x.winBase := rfl
@[simp] theorem setReg_pend (x : Fibre) (r : Nat) (w : Word) : (setReg x r w).pend = x.pend := rfl
@[simp] theorem setReg_st (x : Fibre) (r : Nat) (w : Word) : (setReg x r w).st = x.st := rfl
@[simp] theorem setReg_misses (x : Fibre) (r : Nat) (w : Word) : (setReg x r w).misses = x.misses := rfl
@[simp] theorem setReg_aged (x : Fibre) (r : Nat) (w : Word) : (setReg x r w).aged = x.aged := rfl
@[simp] theorem setReg_launch (x : Fibre) (r : Nat) (w : Word) : (setReg x r w).launch = x.launch := rfl
@[simp] theorem setReg_regs (x : Fibre) (r : Nat) (w : Word) : (setReg x r w).regs = x.regs.set r w := rfl
@[simp] theorem setPred_pc (x : Fibre) (p : Nat) (b : Bool) : (setPred x p b).pc = x.pc := by
  unfold setPred; split <;> rfl
@[simp] theorem setPred_guardP (x : Fibre) (p : Nat) (b : Bool) : (setPred x p b).guardP = x.guardP := by
  unfold setPred; split <;> rfl
@[simp] theorem setPred_guardN (x : Fibre) (p : Nat) (b : Bool) : (setPred x p b).guardN = x.guardN := by
  unfold setPred; split <;> rfl
@[simp] theorem setPred_fpctl (x : Fibre) (p : Nat) (b : Bool) : (setPred x p b).fpctl = x.fpctl := by
  unfold setPred; split <;> rfl
@[simp] theorem setPred_wid (x : Fibre) (p : Nat) (b : Bool) : (setPred x p b).wid = x.wid := by
  unfold setPred; split <;> rfl
@[simp] theorem setPred_winBase (x : Fibre) (p : Nat) (b : Bool) : (setPred x p b).winBase = x.winBase := by
  unfold setPred; split <;> rfl
@[simp] theorem setPred_regs (x : Fibre) (p : Nat) (b : Bool) : (setPred x p b).regs = x.regs := by
  unfold setPred; split <;> rfl
@[simp] theorem setPred_pend (x : Fibre) (p : Nat) (b : Bool) : (setPred x p b).pend = x.pend := by
  unfold setPred; split <;> rfl
@[simp] theorem setPred_st (x : Fibre) (p : Nat) (b : Bool) : (setPred x p b).st = x.st := by
  unfold setPred; split <;> rfl
@[simp] theorem setPred_misses (x : Fibre) (p : Nat) (b : Bool) : (setPred x p b).misses = x.misses := by
  unfold setPred; split <;> rfl
@[simp] theorem setPred_aged (x : Fibre) (p : Nat) (b : Bool) : (setPred x p b).aged = x.aged := by
  unfold setPred; split <;> rfl
@[simp] theorem setPred_launch (x : Fibre) (p : Nat) (b : Bool) : (setPred x p b).launch = x.launch := by
  unfold setPred; split <;> rfl

end Sys2Proof.Laws
end

