-- ==== Sys2Proof/Laws/Issue.lean ====
section
/-! SUPPORT. What issuing an instruction does, said once: noting the issue, moving the path on, and the two together after
the group has been changed. -/

namespace Sys2Proof.Laws

open Sys2Proof Sys2Proof.Machine

theorem curGroup_of {s : State} {g : Group} (h : OnPath s g) : curGroup s = g := by
  unfold OnPath at h
  simp [curGroup, getGroup, kvGetD, h]

@[simp] theorem curGid_setCurGroup (s : State) (g : Group) : curGid (setCurGroup s g) = curGid s := rfl
@[simp] theorem curGid_noteIssue (k : Nat) (s : State) : curGid (noteIssue k s) = curGid s := by
  simp only [curGid, noteIssue_cur]

@[simp] theorem curGroup_setCurGroup (s : State) (g : Group) : curGroup (setCurGroup s g) = g := by
  simp [curGroup, getGroup]

theorem getFibre_modLanes (g : Group) (m : LaneMask) (f : Nat → Fibre → Fibre) (l : Nat) :
    kvGet (modLanes g m f).fibres l = (kvGet g.fibres l).map fun x => if inMask m l then f l x else x := by
  simp [modLanes]

theorem fibresBecome_trans {a b c : Group} {f h : Nat → Fibre → Fibre} (h1 : FibresBecome a b f)
    (h2 : FibresBecome b c h) : FibresBecome a c fun l x => h l (f l x) := by
  intro l
  rw [h2 l, h1 l, Option.map_map]
  rfl

theorem fibresBecome_modLanes (g : Group) (m : LaneMask) (f : Nat → Fibre → Fibre) :
    FibresBecome g (modLanes g m f) fun l x => if inMask m l then f l x else x := getFibre_modLanes g m f

theorem sameBytes_refl (s : State) : SameBytes s s := ⟨fun _ => rfl, fun _ _ => rfl⟩

theorem cur_issued {k : Nat} {s t : State} (h : Issued k s t) : t.cur = s.cur := by
  rw [h.rest]; exact countEvent_cur ..

theorem curGid_issued {k : Nat} {s t : State} (h : Issued k s t) : curGid t = curGid s := by
  unfold curGid; rw [cur_issued h]

/-- A sketch takes an event whatever the groups and the contexts are. -/
theorem sketchEvent_with (a : Nat) (sess : List Profile) (c d e f : Nat) (s : State) (G : KV Group) (C : KV Ctx) :
    sketchEvent a sess c d e f { s with groups := G, ctxs := C } =
      { sketchEvent a sess c d e f s with groups := G, ctxs := C } := by
  unfold sketchEvent; dsimp only; split <;> rfl

/-- Counting an event neither reads nor writes the groups and the contexts. -/
theorem countEvent_with (a b c d e f : Nat) (s : State) (G : KV Group) (C : KV Ctx) :
    countEvent a b c d e f { s with groups := G, ctxs := C } = { countEvent a b c d e f s with groups := G, ctxs := C } := by
  have h : domainAdd b c d { s with groups := G, ctxs := C } = { domainAdd b c d s with groups := G, ctxs := C } := by
    unfold domainAdd
    rw [show domainSession { s with groups := G, ctxs := C } b c = domainSession s b c from rfl]
    split <;> rfl
  unfold countEvent
  rw [show domainSession { s with groups := G, ctxs := C } b c = domainSession s b c from rfl]
  dsimp only
  split
  · rfl
  · rw [h, ← sketchEvent_with]; rfl

/-- The cores after an event: the core's own sketches, and nothing else. -/
theorem countEvent_cores (a b c d e f : Nat) (s : State) {x : Core} (hx : kvGet s.cores a = some x) :
    (∃ y z, kvGet (countEvent a b c d e f s).cores a = some { x with sketchPc := y, sketchKer := z }) ∧
    ∀ k, k ≠ a → kvGet (countEvent a b c d e f s).cores k = kvGet s.cores k := by
  have h1 : (deviceAdd c d (domainAdd b c d s)).cores = s.cores := domainAdd_cores ..
  unfold countEvent
  dsimp only
  split
  · exact ⟨⟨_, _, hx⟩, fun _ _ => rfl⟩
  · unfold sketchEvent
    dsimp only
    split
    · refine ⟨?_, fun k hk => ?_⟩
      · rw [modCore_cores, kvGet_kvSet_same]
        simp only [getCore, kvGetD, h1, hx, Option.getD_some]
        exact ⟨_, _, rfl⟩
      · rw [modCore_cores, kvGet_kvSet_ne _ _ hk, h1]
    · rw [h1]; exact ⟨⟨_, _, hx⟩, fun _ _ => rfl⟩

/-- Counting an event leaves the clock. -/
theorem countEvent_clock (a b c d e f : Nat) (s : State) : (countEvent a b c d e f s).dev.clock = s.dev.clock := by
  unfold countEvent
  dsimp only
  split
  · rfl
  · rw [sketchEvent_dev]
    show (domainAdd ..).dev.clock = _
    rw [domainAdd_dev]

/-- The group after its path has issued, and gone on if `n` is given. -/
def issuedGroup (s : State) (g : Group) (n : Option Nat) : Group :=
  { g with
    fibres := kvMap g.fibres fun l x => if inMask s.cur.mask l then movedBy n x else x
    trap := issuedTrap s g
    sched := issuedSched s g }

theorem pathStep_of {k : Nat} {n : Option Nat} {s t : State} {h : Group} (h1 : Issued k s t)
    (h2 : OtherGroups s t (curGid s)) (h3 : kvGet t.groups (curGid s) = some (issuedGroup s h n)) :
    PathStep k n s t h :=
  ⟨h1, h2, _, h3, rfl, fun l => by simp [issuedGroup]⟩

/-- Noting an issue. -/
theorem noteIssue_eq (k : Nat) (s : State) :
    noteIssue k s = { countSlot k s with
      groups := kvSet s.groups (curGid s) (issuedGroup s (curGroup s) none),
      ctxs := kvMod s.ctxs (curGroup s).place.owner fun c => { c with lastIssue := s.dev.clock } } := by
  have hd : (countSlot k s).dev.clock = s.dev.clock := countEvent_clock ..
  have hg : curGroup (countSlot k s) = curGroup s := by
    simp only [curGroup, getGroup, curGid, countSlot_groups, countSlot_cur]
  have e : noteRan (countSlot k s) =
      { countSlot k s with groups := kvSet s.groups (curGid s) (issuedGroup s (curGroup s) none) } := by
    unfold noteRan
    rw [hg]
    simp only [setCurGroup, setGroup, curGid, countSlot_groups, countSlot_cur, hd]
    rfl
  unfold noteIssue noteSlot noteRun
  rw [e]
  simp only [modCtx, countSlot_ctxs, hd]

/-- Storing the group does not change what the slot of its instruction counts. -/
theorem countSlot_setCurGroup (k : Nat) (s : State) (g : Group) (hp : g.place = (curGroup s).place) :
    countSlot k (setCurGroup s g) = setCurGroup (countSlot k s) g := by
  have h := countEvent_with s.cur.core (curGroup s).place.dom (0x10 + k) 1 s.cur.pc.toNat (curGroup s).place.hdr.entry.toNat
    (modCore s s.cur.core (takeSlot k s)) (kvSet s.groups (curGid s) g) s.ctxs
  have hg : (countSlot k s).groups = s.groups := countSlot_groups ..
  have hc : (countSlot k s).ctxs = s.ctxs := countSlot_ctxs ..
  have hu : (countSlot k s).cur = s.cur := countSlot_cur ..
  have e : setCurGroup (countSlot k s) g = { countSlot k s with groups := kvSet s.groups (curGid s) g, ctxs := s.ctxs } := by
    simp only [setCurGroup, setGroup, curGid, hg, hu, ← hc]
  rw [e]
  refine Eq.trans ?_ h
  conv => lhs; unfold countSlot
  rw [curGroup_setCurGroup, hp]
  rfl

/-- Noting an issue after the group has been stored. -/
theorem noteIssue_setCurGroup (k : Nat) (s : State) (g : Group) (hp : g.place = (curGroup s).place) :
    noteIssue k (setCurGroup s g) = { countSlot k s with
      groups := kvSet s.groups (curGid s) (issuedGroup s g none),
      ctxs := kvMod s.ctxs (curGroup s).place.owner fun c => { c with lastIssue := s.dev.clock } } := by
  have e1 : issuedGroup (setCurGroup s g) g none = issuedGroup s g none := rfl
  rw [noteIssue_eq, countSlot_setCurGroup k s g hp, curGroup_setCurGroup, hp, e1]
  simp only [setCurGroup, setGroup, curGid, countSlot_groups, countSlot_cur, kvSet_kvSet]

/-- Noting an issue after the group has been stored. -/
theorem noteIssue_facts (k : Nat) (s : State) (g : Group) (hp : g.place = (curGroup s).place) :
    Issued k s (noteIssue k (setCurGroup s g)) ∧ OtherGroups s (noteIssue k (setCurGroup s g)) (curGid s) ∧
    kvGet (noteIssue k (setCurGroup s g)).groups (curGid s) = some (issuedGroup s g none) := by
  rw [noteIssue_setCurGroup k s g hp]
  have hc0 : kvGet (modCore s s.cur.core (takeSlot k s)).cores s.cur.core =
      some (chargedCore k s (getCore s s.cur.core)) := by rw [modCore_cores, kvGet_kvSet_same]; rfl
  refine ⟨⟨rfl, ⟨fun a => ?_, fun t a => ?_⟩, ?_, fun c hc => ?_, fun o => ?_⟩, fun j hj => kvGet_kvSet_ne _ _ hj, by simp⟩
  · rw [show (countSlot k s).mem = s.mem from countEvent_mem ..]
  · show memByte (kvGetD (countSlot k s).teams t {}).mem a = _
    rw [show (countSlot k s).teams = s.teams from countEvent_teams ..]; rfl
  · exact (countEvent_cores _ _ _ _ _ _ _ hc0).1
  · refine ((countEvent_cores _ _ _ _ _ _ _ hc0).2 c hc).trans ?_
    rw [modCore_cores, kvGet_kvSet_ne _ _ hc]
  · simp only [kvGet_kvMod]
    split
    · subst_vars; rfl
    · simp

/-- An instruction that says itself where its path goes has issued. -/
theorem noteIssue_law (k : Nat) (s : State) (g : Group) (hp : g.place = (curGroup s).place) :
    PathStep k none s (noteIssue k (setCurGroup s g)) g := by
  obtain ⟨h1, h2, h3⟩ := noteIssue_facts k s g hp
  exact pathStep_of h1 h2 h3

theorem kvMap_kvMap {α : Type} (m : KV α) (f h : Nat → α → α) : kvMap (kvMap m f) h = kvMap m fun l x => h l (f l x) := by
  simp [kvMap]

theorem issued_setCurGroup {k : Nat} {s t : State} (g : Group) (h : Issued k s t) : Issued k s (setCurGroup t g) := by
  obtain ⟨h1, h2, h3, h4, h5⟩ := h
  refine ⟨?_, h2, h3, h4, h5⟩
  unfold setCurGroup setGroup
  rw [h1]

theorem curGroup_noteIssue (k : Nat) (s : State) (g : Group) (hp : g.place = (curGroup s).place) :
    curGroup (noteIssue k (setCurGroup s g)) = issuedGroup s g none := by
  unfold curGroup getGroup kvGetD
  rw [curGid_noteIssue, curGid_setCurGroup, (noteIssue_facts k s g hp).2.2]; rfl

/-- An instruction that changes its group has issued, and its path goes on `n` bytes further. -/
theorem advance_law (n k : Nat) (s : State) (g : Group) (hp : g.place = (curGroup s).place) :
    PathStep k (some n) s (advance n (noteIssue k (setCurGroup s g))) g := by
  obtain ⟨h1, h2, h3⟩ := noteIssue_facts k s g hp
  have hc := curGroup_noteIssue k s g hp
  refine pathStep_of (issued_setCurGroup _ h1) ?_ ?_
  · intro j hj
    simp only [advance, setCurGroup_groups, curGid_noteIssue, curGid_setCurGroup]
    rw [kvGet_kvSet_ne _ _ hj]
    exact h2 j hj
  · simp only [advance, setCurGroup_groups, curGid_noteIssue, curGid_setCurGroup, kvGet_kvSet_same, hc]
    simp only [modLanes, issuedGroup, noteIssue_cur, setCurGroup_cur, kvMap_kvMap, Option.some.injEq]
    congr 1
    unfold kvMap
    apply List.map_congr_left
    intro e _
    by_cases h : inMask s.cur.mask e.1 = true <;> simp [h, movedBy]

theorem setCurGroup_self {s : State} {g : Group} (hs : OnPath s g) :
    ∀ k, kvGet (setCurGroup s g).groups k = kvGet s.groups k := by
  intro k
  simp only [setCurGroup_groups, kvGet_kvSet]
  split
  · subst_vars; exact hs.symm
  · rfl

theorem setCurGroup_setCurGroup (s : State) (a b : Group) : setCurGroup (setCurGroup s a) b = setCurGroup s b := by
  simp only [setCurGroup, setGroup, curGid, kvSet_kvSet]

theorem setCurGroup_eq {s : State} {g : Group} (hs : OnPath s g) : setCurGroup s g = s := by
  simp only [setCurGroup, setGroup, kvSet_self _ hs]

theorem curGroup_pathStep {k : Nat} {n : Option Nat} {s t : State} {h : Group} (hp : PathStep k n s t h) :
    ∃ fs, curGroup t = { h with fibres := fs, sched := issuedSched s h, trap := issuedTrap s h } ∧
      ∀ l, kvGet fs l = (kvGet h.fibres l).map fun x => if inMask s.cur.mask l then movedBy n x else x := by
  obtain ⟨hi, -, g', h1, h2, h3⟩ := hp
  refine ⟨g'.fibres, ?_, h3⟩
  rw [← h2]
  simp only [curGroup, getGroup, kvGetD, curGid_issued hi, h1, Option.getD_some]

/-- After an instruction has issued its group is changed once more. -/
theorem pathStep_set {k : Nat} {n : Option Nat} {s t : State} {h g2 : Group} (h2 : Group) (hp : PathStep k n s t h)
    (he : g2 = { h2 with fibres := g2.fibres, sched := issuedSched s h2, trap := issuedTrap s h2 })
    (hf : FibresBecome h2 g2 fun l x => if inMask s.cur.mask l then movedBy n x else x) :
    PathStep k n s (setCurGroup t g2) h2 := by
  obtain ⟨hi, ho, -⟩ := hp
  refine ⟨issued_setCurGroup _ hi, ?_, g2, ?_, he, hf⟩
  · intro j hj
    rw [setCurGroup_groups, curGid_issued hi, kvGet_kvSet_ne _ _ hj]
    exact ho j hj
  · rw [setCurGroup_groups, curGid_issued hi, kvGet_kvSet_same]

/-- Storing the group as it is changes nothing for the issue of an instruction. -/
theorem noteIssue_any (k : Nat) (s : State) : noteIssue k (setCurGroup s (curGroup s)) = noteIssue k s := by
  rw [noteIssue_setCurGroup k s _ rfl, noteIssue_eq]

/-- An instruction that has done something else first has issued. -/
theorem advance_any (n k : Nat) (s : State) : PathStep k (some n) s (advance n (noteIssue k s)) (curGroup s) := by
  have := advance_law n k s (curGroup s) rfl
  rwa [noteIssue_any] at this

theorem advance_self (n k : Nat) {s : State} {g : Group} (hs : OnPath s g) :
    PathStep k (some n) s (advance n (noteIssue k s)) g := by
  have := advance_law n k s g (by rw [curGroup_of hs])
  rwa [setCurGroup_eq hs] at this

theorem issue_self (k : Nat) {s : State} {g : Group} (hs : OnPath s g) : PathStep k none s (noteIssue k s) g := by
  have := noteIssue_law k s g (by rw [curGroup_of hs])
  rwa [setCurGroup_eq hs] at this

/-- The path is held for some cycles after an instruction has issued. -/
theorem holdPath_law {k c leaf : Nat} {n : Option Nat} {s t : State} {h : Group} (hp : PathStep k n s t h) :
    PathStep k n s (holdPath c leaf t) { h with sched := { h.sched with
      holds := { mask := s.cur.mask, until_ := s.dev.clock + c, leaf := leaf } :: h.sched.holds } } := by
  obtain ⟨fs, h1, h4⟩ := curGroup_pathStep hp
  have hcur : t.cur = s.cur := cur_issued hp.1
  have hdev : t.dev.clock = s.dev.clock := by rw [hp.1.rest]; exact countEvent_clock ..
  unfold holdPath
  rw [h1, hcur, hdev]
  exact pathStep_set _ hp rfl h4

/-- Counting an event changes nothing of a domain but what its profiling session has counted. -/
theorem getDom_countEvent (core dom id w pc entry : Nat) (s : State) (d : Nat) :
    getDom (countEvent core dom id w pc entry s) d =
      { getDom s d with profile := (getDom (countEvent core dom id w pc entry s) d).profile } := by
  have key : ∃ q, getDom (domainAdd dom id w s) d = { getDom s d with profile := q } := by
    unfold domainAdd
    split
    · by_cases hd : d = dom
      · subst hd; exact ⟨_, kvGetD_kvSet_same ..⟩
      · exact ⟨(getDom s d).profile, by simp only [getDom, modDom, kvGetD, kvGet_kvSet_ne _ _ hd]⟩
    · exact ⟨(getDom s d).profile, rfl⟩
  obtain ⟨q, hq⟩ : ∃ q, getDom (countEvent core dom id w pc entry s) d = { getDom s d with profile := q } := by
    unfold countEvent; dsimp only; split
    · exact ⟨_, rfl⟩
    · simp only [getDom, sketchEvent_domains]; exact key
  rw [hq]

/-- The slot of an instruction changes nothing of a domain but what its profiling session has counted. -/
theorem getDom_countSlot (k : Nat) (s : State) (d : Nat) :
    getDom (countSlot k s) d = { getDom s d with profile := (getDom (countSlot k s) d).profile } := getDom_countEvent ..

end Sys2Proof.Laws
end

