-- ==== Sys2Proof/Laws/Operands.lean ====
section
/-! SUPPORT. Operands: what the checks of an instruction let through, the ports it pops, and everything that a lane or a
uniform register instruction can do, said once for each shape. -/

namespace Sys2Proof.Laws

open Sys2Proof Sys2Proof.Machine

/-! ## Masks -/

theorem mem_lanesOf (m : LaneMask) (l : Nat) : l ∈ lanesOf m ↔ inMask m l = true := by
  simp only [lanesOf, allLanes, List.mem_filter, List.mem_range, inMask]
  constructor
  · exact fun h => h.2
  · intro h
    refine ⟨?_, h⟩
    by_cases hl : l < 64
    · exact hl
    · simp [BitVec.getLsbD_of_ge m l (by omega)] at h

theorem lanesOf_eq_nil (m : LaneMask) : lanesOf m = [] ↔ m = 0 := by
  constructor
  · intro h
    apply BitVec.eq_of_getLsbD_eq
    intro i _
    have : ¬ i ∈ lanesOf m := by simp [h]
    rw [mem_lanesOf] at this
    simpa [inMask] using this
  · rintro rfl
    simp [lanesOf, inMask]

theorem maskSum_law (p : Nat → Bool) (n : Nat) :
    ((List.range n).filter p).foldl (fun v l => v + 2 ^ l) 0 < 2 ^ n ∧
    ∀ i, (((List.range n).filter p).foldl (fun v l => v + 2 ^ l) 0).testBit i = (decide (i < n) && p i) := by
  induction n with
  | zero => simp
  | succ n ih =>
    obtain ⟨h1, h2⟩ := ih
    rw [List.range_succ, List.filter_append, List.foldl_append]
    generalize ((List.range n).filter p).foldl (fun v l => v + 2 ^ l) 0 = v at h1 h2
    have hi : ∀ i, ¬ i < n → v.testBit i = false := by intro i hi; simp [h2, hi]
    by_cases hp : p n = true
    · simp only [List.filter_cons, hp, if_true, List.filter_nil, List.foldl_cons, List.foldl_nil]
      refine ⟨by rw [Nat.pow_succ]; omega, fun i => ?_⟩
      rw [Nat.add_comm]
      rcases Nat.lt_trichotomy i n with h | h | h
      · rw [Nat.testBit_two_pow_add_gt h, h2]; simp [h, show i < n + 1 by omega]
      · subst h; rw [Nat.testBit_two_pow_add_eq, hi i (by omega)]; simp [hp]
      · have : 2 ^ n + v < 2 ^ i := by
          calc 2 ^ n + v < 2 ^ (n + 1) := by rw [Nat.pow_succ]; omega
            _ ≤ 2 ^ i := Nat.pow_le_pow_right (by omega) h
        rw [Nat.testBit_lt_two_pow this]; simp [show ¬ i < n + 1 by omega]
    · simp only [List.filter_cons, hp, List.filter_nil]
      refine ⟨by simp only [Nat.pow_succ]; simp; omega, fun i => ?_⟩
      rcases Nat.lt_trichotomy i n with h | h | h
      · simp [h2, h, show i < n + 1 by omega]
      · subst h; simpa [hp] using hi i (by omega)
      · simp [h2, show ¬ i < n by omega, show ¬ i < n + 1 by omega]

@[simp] theorem inMask_maskOf (p : Nat → Bool) (l : Nat) : inMask (maskOf p) l = (decide (l < 64) && p l) := by
  unfold inMask maskOf allLanes
  rw [BitVec.getLsbD_ofNat, (maskSum_law p 64).2 l]
  by_cases h : l < 64 <;> simp [h]

theorem actMask_path {gb : Bool} {s : State} {l : Nat} (h : inMask (actMask gb s) l = true) :
    inMask s.cur.mask l = true := by
  simp only [actMask, inMask_maskOf, Bool.and_eq_true] at h
  exact h.2.1

theorem inMask_or (a b : LaneMask) (l : Nat) : inMask (a ||| b) l = (inMask a l || inMask b l) := by simp [inMask]
theorem inMask_andNot (a b : LaneMask) (l : Nat) (h : inMask a l = true) : inMask (a &&& ~~~b) l = !inMask b l := by
  have : l < 64 := by
    by_cases hl : l < 64
    · exact hl
    · simp [inMask, BitVec.getLsbD_of_ge a l (by omega)] at h
  simp [inMask, this] at h ⊢; exact fun _ => h

/-! ## Checks -/

theorem countsOk_iff (g : Group) (u : Use) : countsOk g u = true ↔ InCounts g (u.vr ++ u.vw) (u.gr ++ u.gw) := by
  simp only [countsOk, Bool.and_eq_true, List.all_eq_true, Bool.or_eq_true, decide_eq_true_eq, InCounts]
  constructor
  · rintro ⟨h1, h2⟩; exact ⟨fun r hr hl => (h1 r hr).resolve_left (by omega), h2⟩
  · rintro ⟨h1, h2⟩; exact ⟨fun r hr => (Nat.lt_or_ge r 120).elim (fun hl => .inr (h1 r hr hl)) .inl, h2⟩

theorem find_lanesOf {act : LaneMask} {p : Nat → Bool} {l : Nat} (hl : inMask act l = true) (hp : p l = true)
    (hm : ∀ k, k < l → inMask act k = true → p k = false) : (lanesOf act).find? p = some l := by
  rw [List.find?_eq_some_iff_append]
  refine ⟨hp, ?_⟩
  have hmem := (mem_lanesOf act l).2 hl
  have hsort : (lanesOf act).Pairwise (· < ·) := by
    unfold lanesOf allLanes
    exact (List.pairwise_lt_range).filter _
  obtain ⟨as, bs, h⟩ := List.append_of_mem hmem
  refine ⟨as, bs, h, fun k hk => ?_⟩
  rw [h, List.pairwise_append] at hsort
  have hkl : k < l := hsort.2.2 k hk l (by simp)
  have : k ∈ lanesOf act := by rw [h]; simp [hk]
  simp [hm k hkl ((mem_lanesOf act k).1 this)]

theorem regPre_count {act : LaneMask} {lane : Bool} {u : Use} {s : State} {g : Group} (hs : OnPath s g)
    (h : ¬ InCounts g (u.vr ++ u.vw) (u.gr ++ u.gw)) :
    regPre lane act u s = .trap 0x01 0 (if lane then lowLane s.cur.mask else 0) := by
  have : countsOk g u = false := by
    cases hb : countsOk g u
    · rfl
    · exact absurd ((countsOk_iff g u).1 hb) h
  simp [regPre, curGroup_of hs, this]

theorem regPre_pending {act : LaneMask} {u : Use} {s : State} {g : Group} {l : Nat} (hs : OnPath s g)
    (h : InCounts g (u.vr ++ u.vw) (u.gr ++ u.gw)) (hl : inMask act l = true)
    (hp : ∃ r ∈ u.vr ++ u.vw, r < 120 ∧ (getFibre g l).pend.getLsbD r = true)
    (hm : ∀ k, k < l → inMask act k = true → ∀ r ∈ u.vr ++ u.vw, r < 120 → (getFibre g k).pend.getLsbD r = false) :
    regPre true act u s = .trap 0x06 0 l := by
  have hf : (lanesOf act).find? (fun l => lanePending (getFibre g l) u) = some l := by
    apply find_lanesOf hl
    · simp only [lanePending, List.any_eq_true, Bool.and_eq_true, decide_eq_true_eq]
      obtain ⟨r, a, b, c⟩ := hp; exact ⟨r, a, b, c⟩
    · intro k hk ha
      simp only [lanePending, List.any_eq_false, Bool.and_eq_true, decide_eq_true_eq, not_and, Bool.not_eq_true]
      exact fun r hr hlt => hm k hk ha r hr hlt
  simp [regPre, curGroup_of hs, (countsOk_iff g u).2 h, hf]

@[simp] theorem orPre_go (a b : Pre) : orPre a b = .go ↔ a = .go ∧ b = .go := by
  cases a <;> simp [orPre]

theorem countsOk_of {g : Group} {u : Use} (h : InCounts g (u.vr ++ u.vw) (u.gr ++ u.gw)) : countsOk g u = true := by
  obtain ⟨h1, h2⟩ := h
  simp only [countsOk, Bool.and_eq_true, List.all_eq_true, Bool.or_eq_true, decide_eq_true_eq]
  exact ⟨fun r hr => (Nat.lt_or_ge r 120).elim (fun hl => .inr (h1 r hr hl)) .inl, h2⟩

theorem regPre_go {lane : Bool} {act : LaneMask} {u : Use} {s : State} {g : Group} (hg : curGroup s = g)
    (hc : InCounts g (u.vr ++ u.vw) (u.gr ++ u.gw)) (hp : NotPending g act (u.vr ++ u.vw) (u.gr ++ u.gw)) :
    regPre lane act u s = .go := by
  have hl : (lanesOf act).find? (fun l => lanePending (getFibre g l) u) = none := by
    rw [List.find?_eq_none]
    intro l hl
    have hm := (mem_lanesOf act l).1 hl
    simp only [lanePending, Bool.not_eq_true, List.any_eq_false, Bool.and_eq_true, decide_eq_true_eq, not_and,
      Bool.not_eq_true]
    exact fun r hr hlt => hp.1 l hm r hr hlt
  have hu : uniPending g u = false := by
    simp only [uniPending, List.any_eq_false, Bool.not_eq_true]
    exact hp.2
  simp [regPre, hg, countsOk_of hc, hl, hu]

theorem portPre_zero (u : Use) (s : State) : portPre 0 u s = .go := by simp [portPre]

theorem mem_portsOf (rs : List Nat) (p : Nat) : p ∈ portsOf rs ↔ p + 120 ∈ rs := by
  simp only [portsOf, List.mem_eraseDups, List.mem_map, List.mem_filter, decide_eq_true_eq]
  constructor
  · rintro ⟨r, ⟨hr, h⟩, rfl⟩; rwa [Nat.sub_add_cancel h]
  · intro h; exact ⟨p + 120, ⟨h, by omega⟩, by omega⟩

theorem portsOf_nil_of {rs : List Nat} (h : ∀ r ∈ rs, r < 120) : portsOf rs = [] := by
  rw [List.eq_nil_iff_forall_not_mem]
  intro p hp
  have := h _ ((mem_portsOf rs p).1 hp)
  omega

theorem portPre_read {act : LaneMask} {u : Use} {s : State} {g : Group} (hg : curGroup s = g)
    (hw : portsOf u.vw = []) (hf : act ≠ 0 → PortsFull g u.vr) : portPre act u s = .go := by
  by_cases ha : act = 0
  · simp [portPre, ha]
  · have hf := hf ha
    have h1 : (portsOf u.vr).any (fun p => !portReadable (getPort g p)) = false := by
      simp only [List.any_eq_false, Bool.not_eq_true, Bool.not_eq_false']
      intro p hp
      simpa using (hf _ ((mem_portsOf _ p).1 hp) (by omega)).1
    have h2 : (portsOf u.vr).any (fun p => ((getPort g p).fifo.headD []).isEmpty) = false := by
      simp only [List.any_eq_false, List.isEmpty_iff]
      intro p hp
      simpa using (hf _ ((mem_portsOf _ p).1 hp) (by omega)).2
    have h3 : ((portsOf u.vr).any (fun p => !portReadable (getPort g p)) ||
        (portsOf u.vw).any fun p => !portWritable (getPort g p)) = false := by rw [h1, hw]; rfl
    simp only [portPre, if_neg ha, hg, h2, h3]
    rw [hw]
    rfl

theorem lanePre_go {act : LaneMask} {u : Use} {s : State} {g : Group} (hg : curGroup s = g)
    (hc : InCounts g (u.vr ++ u.vw) (u.gr ++ u.gw)) (hp : NotPending g act (u.vr ++ u.vw) (u.gr ++ u.gw))
    (hw : portsOf u.vw = []) (hf : act ≠ 0 → PortsFull g u.vr) : lanePre act u s = .go := by
  simp [lanePre, regPre_go hg hc hp, portPre_read hg hw hf]

/-! ## Ports -/

theorem getPort_modPort (g : Group) (p q : Nat) (f : Port → Port) :
    getPort (modPort g p f) q = if q = p ∧ p < g.ports.length then f (getPort g p) else getPort g q := by
  simp only [getPort, modPort, List.getD_eq_getElem?_getD, List.getElem?_set]
  by_cases h : p = q
  · subst h
    by_cases hl : p < g.ports.length <;> simp [hl]
  · simp [h, Ne.symm h]

/-- A port popped once. -/
def popped (x : Port) : Port := { x with fifo := x.fifo.tail }

theorem getPort_pop (g : Group) (p q : Nat) :
    getPort (modPort g p popped) q = if q = p then popped (getPort g p) else getPort g q := by
  rw [getPort_modPort]
  by_cases h : q = p
  · subst h
    by_cases hl : q < g.ports.length
    · simp [hl]
    · have : getPort g q = {} := by simp [getPort, List.getD_eq_getElem?_getD, hl]
      simp [this, popped]
  · simp [h]

theorem popPorts_fields (rd : List Nat) (g : Group) : popPorts rd g = { g with ports := (popPorts rd g).ports } := by
  induction rd generalizing g with
  | nil => rfl
  | cons p rd ih =>
    have : popPorts (p :: rd) g = popPorts rd (modPort g p popped) := rfl
    rw [this, ih]; rfl

theorem getPort_popPorts (rd : List Nat) (hn : rd.Nodup) (g : Group) (q : Nat) :
    getPort (popPorts rd g) q = if q ∈ rd then popped (getPort g q) else getPort g q := by
  induction rd generalizing g with
  | nil => rfl
  | cons p rd ih =>
    have hp := List.nodup_cons.1 hn
    have : popPorts (p :: rd) g = popPorts rd (modPort g p popped) := rfl
    rw [this, ih hp.2, getPort_pop]
    by_cases hq : q = p
    · subst hq; simp [hp.1]
    · simp [hq]

theorem nodup_eraseDups (l : List Nat) : l.eraseDups.Nodup := by
  suffices h : ∀ n, ∀ l : List Nat, l.length ≤ n → l.eraseDups.Nodup from h l.length l (Nat.le_refl _)
  intro n
  induction n with
  | zero => intro l hl; have : l = [] := List.eq_nil_of_length_eq_zero (by omega); subst this; simp
  | succ n ih =>
    intro l hl
    cases l with
    | nil => simp
    | cons a l =>
      rw [List.eraseDups_cons, List.nodup_cons]
      refine ⟨by simp [List.mem_eraseDups], ih _ ?_⟩
      have := List.length_filter_le (fun b => !b == a) l
      simp only [List.length_cons] at hl
      omega

theorem portsPopped_law (g : Group) (rs : List Nat) (act : LaneMask) :
    PortsPopped g (if act = 0 then g else popPorts (portsOf rs) g) rs (act != 0) := by
  intro p
  by_cases ha : act = 0
  · simp [ha]
  · have hb : (act != 0) = true := by simpa using ha
    rw [if_neg ha, getPort_popPorts (portsOf rs) (nodup_eraseDups _) g p, hb]
    simp only [mem_portsOf, Bool.true_and, List.contains_iff_mem, popped]

/-! ## Lane instructions -/

/-- What a lane instruction of the issuing path sees. -/
def laneEnv (s : State) (act : LaneMask) (rs : List Nat) : LaneEnv :=
  { grp := curGroup s, cur := s.cur, act := act, pops := headsOf (curGroup s) (portsOf rs) }

theorem find_headsOf (g : Group) (rd : List Nat) (p : Nat) (h : p ∈ rd) :
    (headsOf g rd).find? (fun x => x.1 == p) = some (p, (getPort g p).fifo.headD []) := by
  induction rd with
  | nil => simp at h
  | cons q rd ih =>
    simp only [headsOf, List.map_cons, List.find?_cons]
    by_cases hq : q = p
    · subst hq; simp
    · have hm : p ∈ rd := by
        rcases List.mem_cons.1 h with h | h
        · exact absurd h.symm hq
        · exact h
      have : (q == p) = false := by simpa using hq
      simp only [this]
      exact ih hm

theorem laneVal_law (s : State) (act : LaneMask) (rs : List Nat) (l r : Nat) (h : r ∈ rs) :
    laneVal (laneEnv s act rs) l r = operandOf (curGroup s) l r := by
  unfold laneVal operandOf
  by_cases hr : r < 120
  · simp [hr, laneEnv]
  · have hm : r - 120 ∈ portsOf rs := (mem_portsOf _ _).2 (by rwa [Nat.sub_add_cancel (by omega)])
    simp only [hr, if_false, laneEnv, find_headsOf _ _ _ hm]
    rfl

/-- Everything that a lane register instruction does which writes no queue port. -/
theorem laneOp_law {gb : Bool} {u : Use} {f : LaneEnv → Nat → LaneOut} {s : State} {g : Group} (hs : OnPath s g)
    (hc : InCounts g (u.vr ++ u.vw) (u.gr ++ u.gw))
    (hp : NotPending g (actMask gb s) (u.vr ++ u.vw) (u.gr ++ u.gw))
    (hw : ∀ r ∈ u.vw, r < 120) (hf : actMask gb s ≠ 0 → PortsFull g u.vr) :
    ∃ t h, laneOp gb u f s = .next t ∧ PathStep 0 (some 4) s t h ∧
      h = { g with fibres := h.fibres, ports := h.ports } ∧ PortsPopped g h u.vr (actMask gb s != 0) ∧
      ((∀ r ∈ u.vr, r < 120) → h = { g with fibres := h.fibres }) ∧
      FibresBecome g h fun l x =>
        if inMask (actMask gb s) l then applyOut (f (laneEnv s (actMask gb s) u.vr) l) x else x := by
  have hg := curGroup_of hs
  have hw' := portsOf_nil_of hw
  generalize ha : actMask gb s = act at *
  let g1 : Group := modLanes (if act = 0 then g else popPorts (portsOf u.vr) g) act
    fun l x => applyOut (f (laneEnv s act u.vr) l) x
  have he : laneEffect act u f s = setCurGroup s g1 := by
    simp only [laneEffect, hw', List.foldl_nil, ite_self, hg]
    simp only [g1, laneEnv, hg]
  have hfi : (if act = 0 then g else popPorts (portsOf u.vr) g).fibres = g.fibres := by
    split
    · rfl
    · rw [popPorts_fields]
  have hpl : g1.place = g.place := by
    show (if act = 0 then g else popPorts (portsOf u.vr) g).place = g.place
    split
    · rfl
    · rw [popPorts_fields]
  refine ⟨advance 4 (noteIssue 0 (setCurGroup s g1)), g1, ?_, advance_law 4 0 s g1 (by rw [hpl, hg]), ?_, ?_, ?_, ?_⟩
  · rw [laneOp]; simp only [ha, lanePre_go hg hc hp hw' hf, runPre, he]
  · simp only [g1, modLanes]
    split
    · rfl
    · rw [popPorts_fields]
  · exact fun p => portsPopped_law g u.vr act p
  · intro hr
    have : popPorts (portsOf u.vr) g = g := by rw [portsOf_nil_of hr]; rfl
    simp only [g1, modLanes, this, ite_self]
  · intro l
    simp only [g1, getFibre_modLanes, hfi]

theorem lanesRelate_of {g h : Group} {m : LaneMask} {R : Nat → Fibre → Fibre → Prop} {f : Nat → Fibre → Fibre}
    (hb : FibresBecome g h fun l x => if inMask m l then f l x else x)
    (hr : ∀ l x, kvGet g.fibres l = some x → inMask m l = true → R l x (f l x)) : LanesRelate g h m R := by
  intro l
  have hl := hb l
  cases hx : kvGet g.fibres l with
  | none => simpa [hx] using hl
  | some x =>
    simp only [hx, Option.map_some] at hl
    simp only
    split
    · rename_i hm; rw [if_pos hm] at hl; exact ⟨_, hr l x hx hm, hl⟩
    · rename_i hm; rw [if_neg hm] at hl; exact hl

theorem getFibre_of {g : Group} {l : Nat} {x : Fibre} (h : kvGet g.fibres l = some x) : getFibre g l = x := by
  simp [getFibre, kvGetD, h]

/-- The operand words of a lane of a lane instruction. -/
theorem laneVals_law {s : State} {g : Group} (hs : OnPath s g) (act : LaneMask) (rs : List VReg) (vs : List Nat)
    (h : ∀ r ∈ rs, r.toNat ∈ vs) (l : Nat) :
    (rs.map fun r => laneVal (laneEnv s act vs) l r.toNat) = (rs.map BitVec.toNat).map (operandOf g l) := by
  rw [List.map_map]
  apply List.map_congr_left
  intro r hr
  rw [laneVal_law _ _ _ _ _ (h r hr), curGroup_of hs]; rfl

theorem mask_eq_of {a b : LaneMask} (h : ∀ l, l < 64 → inMask a l = inMask b l) : a = b :=
  BitVec.eq_of_getLsbD_eq fun i hi => h i hi

@[simp] theorem actMask_false (s : State) : actMask false s = s.cur.mask := by
  apply mask_eq_of
  intro l hl
  simp [actMask, hl]

/-! ## Uniform instructions -/

theorem applyUni_fibres (o : UniOut) (g : Group) :
    applyUni o g = { g with uregs := (applyUni o g).uregs, gp := (applyUni o g).gp } := by
  have h1 : ∀ (rs : List (Nat × Word)) (g : Group),
      rs.foldl (fun g e => setU g e.1 e.2) g = { g with uregs := (rs.foldl (fun g e => setU g e.1 e.2) g).uregs } := by
    intro rs
    induction rs with
    | nil => intro g; rfl
    | cons e rs ih => intro g; rw [List.foldl_cons, ih]; rfl
  have h2 : ∀ (ps : List (Nat × Bool)) (g : Group),
      ps.foldl (fun g e => setGp g e.1 e.2) g = { g with gp := (ps.foldl (fun g e => setGp g e.1 e.2) g).gp } := by
    intro ps
    induction ps with
    | nil => intro g; rfl
    | cons e ps ih =>
      intro g; rw [List.foldl_cons, ih]
      unfold setGp
      split <;> rfl
  unfold applyUni
  simp only
  rw [h2, h1]

/-- Everything that a uniform register instruction does. -/
theorem uniOp_law {u : Use} {f : Group → UniOut} {s : State} {g : Group} (hs : OnPath s g)
    (hc : InCounts g (u.vr ++ u.vw) (u.gr ++ u.gw)) (hp : ∀ r ∈ u.gr ++ u.gw, g.upend.getLsbD r = false) :
    ∃ t, uniOp u f s = .next t ∧ PathStep 1 (some 4) s t (applyUni (f g) g) := by
  have hg := curGroup_of hs
  have hr : regPre false 0 u s = .go := regPre_go hg hc ⟨by simp [inMask], hp⟩
  refine ⟨_, ?_, advance_law 4 1 s (applyUni (f g) g) (by rw [applyUni_fibres, hg])⟩
  rw [uniOp, hr]; simp only [runPre, hg]

/-! ## Instructions with one destination -/

theorem laneAlu_law {gb : Bool} {d : VReg} {srcs : List VReg} {f : List Word → Word} {s : State} {g : Group}
    {rule : List Word → Word → Prop} (hr : ∀ ws, rule ws (f ws)) (hs : OnPath s g)
    (hc : InCounts g (srcs.map BitVec.toNat ++ [d.toNat]) [])
    (hp : NotPending g (actMask gb s) (srcs.map BitVec.toNat ++ [d.toNat]) [])
    (hd : d.toNat < 120) (hf : actMask gb s ≠ 0 → PortsFull g (srcs.map BitVec.toNat)) :
    ∃ t h, laneAlu gb d srcs f s = .next t ∧ PathStep 0 (some 4) s t h ∧
      h = { g with fibres := h.fibres, ports := h.ports } ∧ PortsPopped g h (srcs.map BitVec.toNat) (actMask gb s != 0) ∧
      LanesRelate g h (actMask gb s) fun l x y =>
        ∃ v, rule ((srcs.map BitVec.toNat).map (operandOf g l)) v ∧ y = { x with regs := x.regs.set d.toNat v } := by
  obtain ⟨t, h, h1, h2, h3, h4, -, h5⟩ := laneOp_law (gb := gb) (u := { vr := srcs.map BitVec.toNat, vw := [d.toNat] })
    (f := fun e l => { regs := [(d.toNat, f (srcs.map fun r => laneVal e l r.toNat))] }) hs hc hp (by simpa using hd) hf
  refine ⟨t, h, h1, h2, h3, h4, lanesRelate_of h5 fun l x _ _ => ⟨_, hr _, ?_⟩⟩
  rw [laneVals_law hs _ _ _ (fun r hr => List.mem_map.2 ⟨r, hr, rfl⟩)]
  simp [applyOut, setReg]

theorem uniAlu_law {d : Nat} {srcs : List Nat} {f : List Word → Word} {s : State} {g : Group}
    {rule : List Word → Word → Prop} (hr : ∀ ws, rule ws (f ws)) (hs : OnPath s g)
    (hc : InCounts g [] (srcs ++ [d])) (hp : NotPending g 0 [] (srcs ++ [d])) :
    ∃ t v, uniAlu d srcs f s = .next t ∧ rule (srcs.map (getU g)) v ∧
      PathStep 1 (some 4) s t { g with uregs := g.uregs.set d v } := by
  obtain ⟨t, h1, h2⟩ := uniOp_law (u := { gr := srcs, gw := [d] })
    (f := fun g => { regs := [(d, f (srcs.map (getU g)))] }) hs hc hp.2
  exact ⟨t, _, h1, hr _, h2⟩

end Sys2Proof.Laws
end

