-- ==== Sys2Proof/Laws/Memory.lean ====
section
/-! SUPPORT. What accesses let the hardware change of itself, said once for each operation, and the issue of a memory
operation. -/

namespace Sys2Proof.Laws

open Sys2Proof Sys2Proof.Machine

/-- What keeps the groups, and changes only what `Serves` allows. -/
def Keeps (s u : State) (reqs : Nat → List SvcReq) : Prop := Serves s u reqs ∧ u.groups = s.groups

theorem serves_refl (s : State) : Serves s s fun _ => [] :=
  ⟨rfl, rfl, fun _ => rfl, fun _ => rfl, fun _ => by simp⟩

theorem serves_trans {a b c : State} {p q : Nat → List SvcReq} (h1 : Serves a b p) (h2 : Serves b c q) :
    Serves a c fun k => p k ++ q k := by
  refine ⟨?_, ?_, fun d => ?_, fun k => ?_, fun k => ?_⟩
  · rw [h2.rest, h1.rest]
  · rw [h2.dev, h1.dev]
  · rw [h2.doms d, h1.doms d]
  · rw [h2.cores k, h1.cores k]
  · rw [h2.queues k, h1.queues k, List.append_assoc]

theorem keeps_refl (s : State) : Keeps s s fun _ => [] := ⟨serves_refl s, rfl⟩

theorem keeps_trans {a b c : State} {q : Nat → List SvcReq} (h1 : Keeps a b fun _ => []) (h2 : Keeps b c q) :
    Keeps a c q := by
  refine ⟨?_, h2.2.trans h1.2⟩
  simpa using serves_trans h1.1 h2.1

theorem keeps_foldl {α : Type} (f : State → α → State) (h : ∀ s a, Keeps s (f s a) fun _ => []) (l : List α) (s : State) :
    Keeps s (l.foldl f s) fun _ => [] := by
  induction l generalizing s with
  | nil => exact keeps_refl s
  | cons a l ih => exact keeps_trans (h s a) (ih _)

theorem getCore_modCore (s : State) (n k : Nat) (f : Core → Core) :
    getCore (modCore s n f) k = if k = n then f (getCore s n) else getCore s k := by
  simp only [getCore, modCore, setCore, kvGetD_kvSet]
  split <;> rfl

theorem keeps_modCore (s : State) (n : Nat) (f : Core → Core)
    (hf : ∀ c, f c = { c with tlb := (f c).tlb, banks := (f c).banks, pfSlots := (f c).pfSlots,
                              sketchPc := (f c).sketchPc, sketchKer := (f c).sketchKer }) :
    Keeps s (modCore s n f) fun _ => [] := by
  refine ⟨⟨rfl, rfl, fun _ => rfl, fun k => ?_, fun _ => by simp [svcQ]⟩, rfl⟩
  rw [getCore_modCore]
  split
  · subst_vars; exact hf _
  · rfl

theorem keeps_fillTlb (n : Nat) (e : TlbEnt) (s : State) : Keeps s (fillTlb n e s) fun _ => [] := by
  unfold fillTlb
  have h1 : Keeps s (if (tlbFind (getCore s n).tlb e.owner e.va).isSome then s
      else modCore s n fun c => { c with tlb := tlbAdd 512 c.tlb e }) fun _ => [] := by
    split
    · exact keeps_refl s
    · exact keeps_modCore _ _ _ fun _ => rfl
  refine keeps_trans h1 ?_
  generalize (if (tlbFind (getCore s n).tlb e.owner e.va).isSome then s
      else modCore s n fun c => { c with tlb := tlbAdd 512 c.tlb e }) = u
  simp only
  split
  · exact keeps_refl u
  · refine ⟨⟨rfl, rfl, fun _ => rfl, fun _ => rfl, fun k => ?_⟩, rfl⟩
    simp only [svcQ, kvGetD_kvSet, List.append_nil]
    split
    · subst_vars; rfl
    · rfl

theorem keeps_notePlace (n : Nat) (g : Group) (va : Nat) (s : State) : Keeps s (notePlace n g va s) fun _ => [] := by
  unfold notePlace
  split
  · exact keeps_refl s
  · split
    · exact keeps_fillTlb _ _ _
    · exact keeps_refl s

theorem keeps_noteAccs (as : List Acc) (s : State) : Keeps s (noteAccs as s) fun _ => [] :=
  keeps_foldl _ (fun _ _ => keeps_notePlace _ _ _ _) as s

theorem keeps_modBank (n o : Nat) (f : Bank → Bank) (s : State) : Keeps s (modBank n o f s) fun _ => [] :=
  keeps_modCore _ _ _ fun _ => rfl

theorem keeps_domainAdd (dom id w : Nat) (s : State) : Keeps s (domainAdd dom id w s) fun _ => [] := by
  unfold domainAdd
  split
  · refine ⟨⟨rfl, rfl, fun d => ?_, fun _ => rfl, fun _ => by simp [svcQ, modDom]⟩, rfl⟩
    simp only [getDom, modDom, kvGetD_kvSet]
    split
    · subst_vars; rfl
    · rfl
  · exact keeps_refl s

theorem keeps_deviceAdd (id w : Nat) (s : State) : Keeps s (deviceAdd id w s) fun _ => [] :=
  ⟨⟨rfl, rfl, fun _ => rfl, fun _ => rfl, fun _ => by simp [svcQ, deviceAdd]⟩, rfl⟩

theorem keeps_sketchEvent (core : Nat) (sess : List Profile) (id w pc entry : Nat) (s : State) :
    Keeps s (sketchEvent core sess id w pc entry s) fun _ => [] := by
  unfold sketchEvent
  simp only
  split
  · exact keeps_modCore _ _ _ fun _ => rfl
  · exact keeps_refl s

theorem keeps_countEvent (core dom id w pc entry : Nat) (s : State) :
    Keeps s (countEvent core dom id w pc entry s) fun _ => [] := by
  unfold countEvent
  simp only
  split
  · exact keeps_refl s
  · exact keeps_trans (keeps_domainAdd _ _ _ _) (keeps_trans (keeps_deviceAdd _ _ _) (keeps_sketchEvent _ _ _ _ _ _ _))

theorem keeps_sendPrefetch (a : Who) (va : Nat) (s : State) : Keeps s (sendPrefetch a va s) fun _ => [] := by
  unfold sendPrefetch
  simp only
  split
  · exact keeps_refl s
  · split
    · exact keeps_refl s
    · split
      · exact keeps_modCore _ _ _ fun _ => rfl
      · exact keeps_countEvent _ _ _ _ _ _ _

theorem keeps_trainLoad (w : Who) (slot a : Nat) (s : State) : Keeps s (trainLoad w slot a s) fun _ => [] := by
  unfold trainLoad
  simp only
  split
  · exact keeps_refl s
  · exact keeps_trans (keeps_modBank _ _ _ _) (keeps_foldl _ (fun _ _ => keeps_sendPrefetch _ _ _) _ _)

theorem keeps_trainAccess (as : List Acc) (s : State) : Keeps s (trainAccess as s) fun _ => [] := by
  unfold trainAccess
  split
  · exact keeps_refl s
  · split
    · exact keeps_refl s
    · simp only
      split
      · exact keeps_trainLoad _ _ _ _
      · exact keeps_refl s

/-! ## Issue -/

theorem svcCluster_serves {s u : State} {q : Nat → List SvcReq} (h : Serves s u q) (o : Op) (a : Acc) :
    svcCluster u o a = svcCluster s o a := by
  have h1 : u.net = s.net := by rw [h.rest]
  have h2 : u.dev.clusterMask = s.dev.clusterMask := by rw [h.dev]
  unfold svcCluster needsService owningCluster clustersPresent peerOf
  rw [h1, h2]

theorem svcCluster_kind (s : State) {o p : Op} (h : o.kind = p.kind) (a : Acc) : svcCluster s o a = svcCluster s p a := by
  unfold svcCluster needsService
  rw [h]

theorem windowOpen_serves {s u : State} {q : Nat → List SvcReq} (h : Serves s u q) (g : Group) :
    windowOpen u g = windowOpen s g := by
  have h1 : u.launches = s.launches := by rw [h.rest]
  have h2 : u.teams = s.teams := by rw [h.rest]
  simp only [windowOpen, getLaunch, getTeam, h1, h2]

theorem windowOpen_place (s : State) {g h : Group} (hp : g.place = h.place) : windowOpen s g = windowOpen s h := by
  simp only [windowOpen, hp]

theorem keeps_sendSvc (gid seq : Nat) (o : Op) (s : State) :
    Keeps s (sendSvc gid seq o s) fun c =>
      (o.accs.filter fun a => svcCluster s o a == some c).map fun a => { gid := gid, seq := seq, lane := a.lane } := by
  have go : ∀ (as : List Acc) (u : State), Keeps u (as.foldl (fun s a => match svcCluster s o a with
        | some c => setSvcQ c (svcQ s c ++ [{ gid := gid, seq := seq, lane := a.lane }]) s
        | none => s) u) fun c =>
      (as.filter fun a => svcCluster u o a == some c).map fun a => { gid := gid, seq := seq, lane := a.lane } := by
    intro as
    induction as with
    | nil => exact fun u => keeps_refl u
    | cons a as ih =>
      intro u
      have h1 : Keeps u (match svcCluster u o a with
          | some c => setSvcQ c (svcQ u c ++ [{ gid := gid, seq := seq, lane := a.lane }]) u
          | none => u) fun c => if svcCluster u o a = some c then [{ gid := gid, seq := seq, lane := a.lane }] else [] := by
        cases hc : svcCluster u o a with
        | none => simpa using keeps_refl u
        | some c =>
          refine ⟨⟨rfl, rfl, fun _ => rfl, fun _ => rfl, fun k => ?_⟩, rfl⟩
          simp only [svcQ, setSvcQ, kvGetD_kvSet]
          by_cases hk : k = c
          · subst hk; simp
          · simp [hk, Ne.symm hk]
      have h2 := ih (match svcCluster u o a with
          | some c => setSvcQ c (svcQ u c ++ [{ gid := gid, seq := seq, lane := a.lane }]) u
          | none => u)
      refine ⟨?_, h2.2.trans h1.2⟩
      have h3 := serves_trans h1.1 h2.1
      simp only [svcCluster_serves h1.1] at h3
      refine ⟨h3.rest, h3.dev, h3.doms, h3.cores, fun c => ?_⟩
      rw [List.foldl_cons, h3.queues c, List.filter_cons]
      congr 1
      by_cases hc : svcCluster u o a = some c <;> simp [hc]
  exact go o.accs s

/-! ## The staging buffer -/

theorem sum_kvSet (n a : Nat) (m : KV Nat) (i : Nat) :
    (kvSet m a (kvGetD m a 0 + n)).foldl (fun k e => k + e.2) i = m.foldl (fun k e => k + e.2) i + n := by
  have shift : ∀ (l : KV Nat) (i j : Nat), l.foldl (fun k e => k + e.2) (i + j) = l.foldl (fun k e => k + e.2) i + j := by
    intro l
    induction l with
    | nil => exact fun _ _ => rfl
    | cons x l ih => intro i j; rw [List.foldl_cons, List.foldl_cons, show i + j + x.2 = i + x.2 + j by omega, ih]
  induction m generalizing i with
  | nil => simp [kvSet, kvGetD, kvGet]
  | cons x m ih =>
    obtain ⟨k, v⟩ := x
    unfold kvSet kvGetD kvGet
    split
    · rw [List.foldl_cons, List.foldl_cons, Option.getD_some, show i + (v + n) = i + v + n by omega, shift]
    · split
      · simp only [List.foldl_cons, Option.getD_none, Nat.zero_add]
        rw [show i + n + v = i + v + n by omega, shift]
      · rw [List.foldl_cons, List.foldl_cons]; exact ih _

/-- A buffer with room takes some elements, and none of them spills. -/
theorem stageElements_room {core owner n : Nat} {s : State} (h : bufferFill s core + n ≤ 4096) :
    stageElements core owner n s = if n = 0 then s else setStaged core owner (stagedOf s core owner + n) s := by
  unfold stageElements
  split
  · rfl
  · have : bufferFill (setStaged core owner (stagedOf s core owner + n) s) core = bufferFill s core + n := by
      simp only [bufferFill, setStaged, getCore_modCore, if_true, stagedOf, sum_kvSet]
    rw [spillOver, if_neg (by omega)]

theorem bufferFill_serves {s u : State} {q : Nat → List SvcReq} (h : Serves s u q) (core : Nat) :
    bufferFill u core = bufferFill s core := by
  unfold bufferFill; rw [h.cores core]

theorem stagedOf_serves {s u : State} {q : Nat → List SvcReq} (h : Serves s u q) (core owner : Nat) :
    stagedOf u core owner = stagedOf s core owner := by
  unfold stagedOf; rw [h.cores core]

/-- Elements are staged beside what accesses let the hardware change. -/
theorem serves_setStaged {s u : State} (h : Serves s u fun _ => []) (core owner n : Nat) :
    Serves (setStaged core owner n s) (setStaged core owner n u) fun _ => [] := by
  refine ⟨?_, h.dev, h.doms, fun c => ?_, fun c => h.queues c⟩
  · have : ∀ cs, ({ u with cores := cs } : State) = { s with
        groups := u.groups, cores := cs, clusters := u.clusters, slices := u.slices, domains := u.domains, dev := u.dev } := by
      intro cs
      conv => lhs; rw [h.rest]
    exact this _
  · simp only [setStaged, getCore_modCore]
    split
    · subst_vars; conv => lhs; rw [h.cores c]
    · exact h.cores c

theorem setStaged_setStaged (core owner m n : Nat) (s : State) :
    setStaged core owner n (setStaged core owner m s) = setStaged core owner n s := by
  simp only [setStaged, modCore, setCore, getCore, kvGetD_kvSet, if_true, kvSet_kvSet]

/-- The fields that the staging buffer of an issue leaves alone. -/
theorem bufferAfter_rest (F : MemForm) (s : State) (g : Group) :
    bufferAfter F s g = { s with cores := (bufferAfter F s g).cores } := by
  unfold bufferAfter buffered; simp only; split <;> rfl

/-- An issue that stages nothing. -/
theorem bufferAfter_none {F : MemForm} {s : State} {g : Group} (h : stagedBy F s g = 0) : bufferAfter F s g = s := by
  unfold bufferAfter buffered; simp only; rw [if_pos h]

theorem stagedBy_load {F : MemForm} (s : State) (g : Group) (h : F.cls = .ld) : stagedBy F s g = 0 := by
  simp [stagedBy, h, stagedItems, stagesTwin, streamElems]

/-! ## The operation of a form -/

/-- What is left once the operation of a form is outstanding: `MemIssues` before the path goes on. -/
def Outstanding (F : MemForm) (s u : State) (g : Group) : Prop :=
  let kept := keptAccs F s g
  let waits := waitsWindow F s g
  let served := fun a => svcCluster s (memOp F s g []) a
  let queue := fun (a : Acc) => if waits then F.cls == .st else (served a).isSome
  let o := { memOp F s g kept with accs := kept.map fun a => if queue a then { a with queued := true } else a }
  let s' := bufferAfter F s g
  let bits := 2 ^ F.dest * (2 ^ F.dests - 1)
  ∃ h, (Serves s' u (fun c => if waits then [] else
        (kept.filter fun a => served a == some c).map fun a => { gid := curGid s, seq := g.opSeq, lane := a.lane }) ∧
      kvGet u.groups (curGid s') = some (prune { h with ops := g.ops ++ [o], opSeq := g.opSeq + 1 }) ∧
      OtherGroups s' u (curGid s')) ∧
    h = { g with
      fibres := h.fibres,
      upend := if F.cls = .ld ∧ F.unif = true then g.upend ||| BitVec.ofNat 1024 bits else g.upend,
      twin := g.twin ++ stagedItems F s g } ∧
    LanesRelate g h (memMask F s) fun _ x y =>
      y = if F.cls = .ld ∧ F.unif = false then { x with pend := x.pend ||| BitVec.ofNat 128 bits } else x

theorem serves_keeps {a b c : State} {q : Nat → List SvcReq} (h1 : Serves a b q) (h2 : Keeps b c fun _ => []) :
    Serves a c q := by
  have := serves_trans h1 h2.1
  simpa using this

theorem outstanding_keeps {F : MemForm} {s u v : State} {g : Group} (h : Outstanding F s u g)
    (hk : Keeps u v fun _ => []) : Outstanding F s v g := by
  obtain ⟨h, ⟨h1, h2, h3⟩, h4, h5⟩ := h
  refine ⟨h, ⟨serves_keeps h1 hk, by rw [hk.2]; exact h2, fun k hn => by rw [hk.2]; exact h3 k hn⟩, h4, h5⟩

theorem memStep_of {n : Nat} {s' u : State} {h : Group} {q : Nat → List SvcReq} (h1 : Serves s' u q)
    (h2 : kvGet u.groups (curGid s') = some h) (h3 : OtherGroups s' u (curGid s')) :
    MemStep n s' (advance n (noteIssue 2 u)) h q := by
  refine ⟨u, h1, h2, h3, ?_⟩
  have hc : curGid u = curGid s' := by rw [h1.rest]; rfl
  have hg : curGroup u = h := by simp only [curGroup, getGroup, kvGetD, hc, h2, Option.getD_some]
  rw [← hg]; exact advance_any n 2 u

theorem memStep_bytes {n : Nat} {s' t : State} {h : Group} {q : Nat → List SvcReq} (hm : MemStep n s' t h q) :
    SameBytes s' t := by
  obtain ⟨u, h1, -, -, h2⟩ := hm
  have hm : u.mem = s'.mem := by rw [h1.rest]
  have ht : u.teams = s'.teams := by rw [h1.rest]
  have hb := h2.1.bytes
  refine ⟨fun a => by rw [hb.1, hm], fun k a => ?_⟩
  rw [hb.2]; simp only [getTeam, ht]

theorem serves_setCurGroup {s' v : State} {q : Nat → List SvcReq} (h : Serves s' v q) (g : Group) :
    Serves s' (setCurGroup v g) q := by
  refine ⟨?_, h.dev, h.doms, h.cores, h.queues⟩
  have : ∀ gs, ({ v with groups := gs } : State) = { s' with
      groups := gs, cores := v.cores, clusters := v.clusters, slices := v.slices, domains := v.domains, dev := v.dev } := by
    intro gs
    conv => lhs; rw [h.rest]
  exact this _

/-- A memory instruction that reserves no entry has issued once its operation is outstanding. -/
theorem memIssues_of {F : MemForm} {s u : State} {g : Group} (h : Outstanding F s u g) (hp : F.port = none := by rfl) :
    MemIssues F s (advance F.bytes (noteIssue 2 u)) g ∧ SameBytes s (advance F.bytes (noteIssue 2 u)) := by
  obtain ⟨h, ⟨h1, h2, h3⟩, h4, h5⟩ := h
  have hm := memStep_of (n := F.bytes) h1 h2 h3
  refine ⟨⟨h, ?_, h4, h5⟩, ?_⟩
  · simp only [portReserved, hp]; exact hm
  · have hb := memStep_bytes hm
    rw [bufferAfter_rest] at hb
    exact hb

/-- An LDQ has issued once its operation is outstanding and its entry is reserved. -/
theorem memIssues_port {F : MemForm} {s u : State} {g : Group} {p : Nat} (h : Outstanding F s u g) (hp : F.port = some p)
    (ho : F.ord = false) (hl : F.cls = .ld) :
    let v := if memMask F s = 0 then u else
      setCurGroup u (modPort (curGroup u) p fun x => { x with fifo := x.fifo ++ [[]] })
    MemIssues F s (advance F.bytes (noteIssue 2 v)) g ∧ SameBytes s (advance F.bytes (noteIssue 2 v)) := by
  obtain ⟨h, ⟨h1, h2, h3⟩, h4, h5⟩ := h
  have hw : waitsWindow F s g = false := by simp [waitsWindow, ho]
  rw [bufferAfter_none (stagedBy_load s g hl)] at h1 h2 h3
  intro v
  have hc : curGid u = curGid s := by rw [h1.rest]; rfl
  have hm : ∃ w, v = w ∧ Serves s w (fun c => if waitsWindow F s g then [] else
        ((keptAccs F s g).filter fun a => svcCluster s (memOp F s g []) a == some c).map
          fun a => { gid := curGid s, seq := g.opSeq, lane := a.lane }) ∧
      (∀ x, kvGet u.groups (curGid s) = some x → kvGet w.groups (curGid s) = some (portReserved F s x)) ∧
      OtherGroups s w (curGid s) := by
    by_cases hz : memMask F s = 0
    · refine ⟨u, if_pos hz, h1, fun x hx => ?_, h3⟩
      simp only [portReserved, hp]; rw [if_pos hz]; exact hx
    · refine ⟨_, if_neg hz, serves_setCurGroup h1 _, fun x hx => ?_, fun k hk => ?_⟩
      · rw [setCurGroup_groups, hc, kvGet_kvSet_same]
        simp only [portReserved, hp]; rw [if_neg hz]
        have hx' : curGroup u = x := by simp only [curGroup, getGroup, kvGetD, hc, hx, Option.getD_some]
        rw [hx']; rfl
      · rw [setCurGroup_groups, hc, kvGet_kvSet_ne _ _ hk]; exact h3 k hk
  obtain ⟨w, hvw, w1, w2, w3⟩ := hm
  have hs := memStep_of (n := F.bytes) w1 (w2 _ h2) w3
  rw [hvw]
  refine ⟨⟨h, ?_, h4, h5⟩, memStep_bytes hs⟩
  rw [bufferAfter_none (stagedBy_load s g hl)]
  exact hs

theorem setPending_law (o : Op) (g : Group) :
    setPending o g = { g with
      fibres := (setPending o g).fibres,
      upend := if o.cls = .ld ∧ o.unif = true then
        g.upend ||| BitVec.ofNat 1024 (2 ^ o.dest * (2 ^ o.dests - 1)) else g.upend } ∧
    LanesRelate g (setPending o g) o.act fun _ x y => y = if o.cls = .ld ∧ o.unif = false then
      { x with pend := x.pend ||| BitVec.ofNat 128 (2 ^ o.dest * (2 ^ o.dests - 1)) } else x := by
  have self : ∀ R : Nat → Fibre → Fibre → Prop, (∀ l x, R l x x) → LanesRelate g g o.act R := by
    intro R hR l
    cases kvGet g.fibres l with
    | none => rfl
    | some x => simp only; split
                · exact ⟨x, hR l x, rfl⟩
                · trivial
  unfold setPending
  by_cases hc : o.cls = .ld
  · cases hu : o.unif
    · simp only [hc, bne_self_eq_false, Bool.false_eq_true, if_false, and_false]
      refine ⟨rfl, ?_⟩
      refine lanesRelate_of (f := fun _ x => { x with pend := x.pend ||| BitVec.ofNat 128 (2 ^ o.dest * (2 ^ o.dests - 1)) }) ?_ ?_
      · exact getFibre_modLanes _ _ _
      · intro l x _ _; simp
    · simp only [hc, bne_self_eq_false, Bool.false_eq_true, if_false, if_true, and_self]
      refine ⟨trivial, ?_⟩
      exact self _ fun _ _ => by simp
  · simp only [bne_iff_ne, ne_eq, hc, not_false_eq_true, if_true, false_and, if_false]
    exact ⟨trivial, self _ fun _ _ => rfl⟩

/-- The accesses of an operation as the issue finds them: an ordered store that waits for its window is staged. -/
def stagedAccs (F : MemForm) (s : State) (g : Group) : List Acc :=
  if waitsWindow F s g && F.cls == .st then (keptAccs F s g).map fun a => { a with queued := true } else keptAccs F s g

theorem outstanding_addOp {s' v : State} {g1 : Group} {q : Nat → List SvcReq} (h1 : Serves s' v q)
    (h2 : kvGet v.groups (curGid s') = some g1) (h3 : OtherGroups s' v (curGid s')) (o : Op) :
    Serves s' (addOp o v) q ∧ kvGet (addOp o v).groups (curGid s') =
      some (prune { setPending o g1 with ops := g1.ops ++ [countedOp v o], opSeq := g1.opSeq + 1 }) ∧
    OtherGroups s' (addOp o v) (curGid s') := by
  have hc : curGid v = curGid s' := by rw [h1.rest]; rfl
  have hg : curGroup v = g1 := by simp only [curGroup, getGroup, kvGetD, hc, h2, Option.getD_some]
  have ho : (setPending o g1).ops = g1.ops ∧ (setPending o g1).opSeq = g1.opSeq := by
    rw [(setPending_law o g1).1]; exact ⟨rfl, rfl⟩
  refine ⟨⟨?_, h1.dev, h1.doms, h1.cores, h1.queues⟩, ?_, fun k hk => ?_⟩
  · have : ∀ gs, ({ v with groups := gs } : State) = { s' with
        groups := gs, cores := v.cores, clusters := v.clusters, slices := v.slices, domains := v.domains, dev := v.dev } := by
      intro gs
      conv => lhs; rw [h1.rest]
    exact this _
  · simp only [addOp, setCurGroup_groups, hc, kvGet_kvSet_same, hg, ho]
  · simp only [addOp, setCurGroup_groups, hc]
    rw [kvGet_kvSet_ne _ _ hk]; exact h3 k hk

theorem outstanding_issueOp {F : MemForm} {s v : State} {g : Group} (o : Op)
    (ho : o = { memOp F s g (stagedAccs F s g) with seq := 0, pc := 0, mask := 0, done := false })
    (h1 : Serves (bufferAfter F s g) v fun _ => [])
    (h2 : kvGet v.groups (curGid s) = some { g with twin := g.twin ++ stagedItems F s g })
    (h3 : OtherGroups s v (curGid s)) : Outstanding F s (issueOp o v) g := by
  generalize hs' : bufferAfter F s g = s' at *
  have e1 : curGid s' = curGid s := by rw [← hs', bufferAfter_rest]; rfl
  have e2 : s'.groups = s.groups := by rw [← hs', bufferAfter_rest]
  have e3 : s'.cur = s.cur := by rw [← hs', bufferAfter_rest]
  have e4 : s'.dev = s.dev ∧ s'.net = s.net ∧ s'.launches = s.launches ∧ s'.teams = s.teams := by
    rw [← hs', bufferAfter_rest]; exact ⟨rfl, rfl, rfl, rfl⟩
  obtain ⟨k1, k2⟩ := keeps_noteAccs o.accs v
  let w := noteAccs o.accs v
  have w1 : Serves s' w fun _ => [] := serves_keeps h1 ⟨k1, k2⟩
  have w2 : kvGet w.groups (curGid s') = some { g with twin := g.twin ++ stagedItems F s g } := by
    show kvGet (noteAccs o.accs v).groups _ = _; rw [k2, e1]; exact h2
  have w3 : OtherGroups s' w (curGid s') := fun k hk => by
    show kvGet (noteAccs o.accs v).groups _ = _; rw [k2, e2]; exact h3 k (by rwa [← e1])
  have wc : curGid w = curGid s' := by rw [w1.rest]; rfl
  have wg : curGroup w = { g with twin := g.twin ++ stagedItems F s g } := by
    simp only [curGroup, getGroup, kvGetD, wc, w2, Option.getD_some]
  have wcur : w.cur = s.cur := by rw [w1.rest]; exact e3
  have hsv : ∀ (p : Op), p.kind = F.kind → ∀ a, svcCluster w p a = svcCluster s (memOp F s g []) a := by
    intro p hp a
    rw [svcCluster_serves w1, svcCluster_kind s' (p := memOp F s g []) hp]
    unfold svcCluster needsService owningCluster clustersPresent peerOf
    rw [e4.1, e4.2.1]
  have hwo : windowOpen w (curGroup w) = windowOpen s g := by
    rw [wg, windowOpen_serves w1, show windowOpen s' { g with twin := g.twin ++ stagedItems F s g } = windowOpen s' g from rfl]
    simp only [windowOpen, getLaunch, getTeam, e4.2.2.1, e4.2.2.2]
  have hord : o.ord = F.ord := by rw [ho]; rfl
  -- the pending bits
  let h := setPending o { g with twin := g.twin ++ stagedItems F s g }
  obtain ⟨p1, p2⟩ := setPending_law o { g with twin := g.twin ++ stagedItems F s g }
  have oc : o.cls = F.cls ∧ o.unif = F.unif ∧ o.dest = F.dest ∧ o.dests = F.dests ∧ o.act = memMask F s := by
    rw [ho]; exact ⟨rfl, rfl, rfl, rfl, rfl⟩
  have hres : ∀ (p : Op), setPending p = setPending o → countedOp w p = { memOp F s g (keptAccs F s g) with
        accs := (keptAccs F s g).map fun a => if (if waitsWindow F s g then F.cls == .st
          else (svcCluster s (memOp F s g []) a).isSome) then { a with queued := true } else a } →
      ∀ (u : State), Serves s' u (fun c => if waitsWindow F s g then [] else
          ((keptAccs F s g).filter fun a => svcCluster s (memOp F s g []) a == some c).map
            fun a => { gid := curGid s, seq := g.opSeq, lane := a.lane }) →
        u.groups = (addOp p w).groups → Outstanding F s u g := by
    intro p hp hco u hu hgr
    obtain ⟨a1, a2, a3⟩ := outstanding_addOp w1 w2 w3 p
    refine ⟨h, ⟨by rw [hs']; exact hu, ?_, ?_⟩, ?_, ?_⟩
    · rw [hs', hgr, a2, hp, hco]
    · rw [hs', OtherGroups]; intro k hk; rw [hgr]; exact a3 k hk
    · show setPending o _ = _
      rw [p1, oc.1, oc.2.1, oc.2.2.1, oc.2.2.2.1]
    · have := p2
      rw [oc.1, oc.2.1, oc.2.2.1, oc.2.2.2.1, oc.2.2.2.2] at this
      exact this
  have hdone : ∀ (as : List Acc), as.isEmpty = (keptAccs F s g).isEmpty → ∀ p : Op, p = { memOp F s g as with seq := 0, pc := 0, mask := 0, done := false } →
      countedOp w p = { memOp F s g (keptAccs F s g) with accs := as } := by
    intro as hl p hp
    subst hp
    simp only [countedOp, wg, wcur, memOp, hl]
  by_cases hw : waitsWindow F s g = true
  · have e : issueOp o v = addOp o w := by
      have : (o.ord && !windowOpen w (curGroup w)) = true := by rw [hord, hwo]; exact hw
      show (if (o.ord && !windowOpen w (curGroup w)) = true then addOp o w else _) = _
      rw [if_pos this]
    rw [e]
    refine hres o rfl ?_ _ ?_ rfl
    · rw [hdone (stagedAccs F s g) ?_ o ho]
      · congr 1
        simp only [stagedAccs, hw, Bool.true_and, if_true]
        by_cases hc : F.cls = .st
        · simp [hc]
        · simp [hc]
      · simp only [stagedAccs]; split <;> simp
    · simp only [hw, if_true]; exact (outstanding_addOp w1 w2 w3 o).1
  · have hw' : waitsWindow F s g = false := by simpa using hw
    have hst : stagedAccs F s g = keptAccs F s g := by simp [stagedAccs, hw']
    have e : issueOp o v = sendSvc (curGid w) (nextSeq w) o (addOp (servedOp w o) w) := by
      have : ¬ (o.ord && !windowOpen w (curGroup w)) = true := by rw [hord, hwo]; exact hw
      show (if (o.ord && !windowOpen w (curGroup w)) = true then _ else _) = _
      rw [if_neg this]
    rw [e]
    have hacc : o.accs = keptAccs F s g := by rw [ho, ← hst]; rfl
    have hkind : o.kind = F.kind := by rw [ho]; rfl
    obtain ⟨a1, a2, a3⟩ := outstanding_addOp w1 w2 w3 (servedOp w o)
    obtain ⟨b1, b2⟩ := keeps_sendSvc (curGid w) (nextSeq w) o (addOp (servedOp w o) w)
    refine hres (servedOp w o) rfl ?_ _ ?_ b2
    · have := hdone ((keptAccs F s g).map fun a => if (svcCluster w o a).isSome then { a with queued := true } else a) (by simp) (servedOp w o) (by
        have hse : servedOp w o = { o with
            accs := (keptAccs F s g).map fun a => if (svcCluster w o a).isSome then { a with queued := true } else a } := by
          rw [← hacc]; rfl
        rw [hse]; simp only [ho]; rfl)
      rw [this]; congr 1
      simp only [hw', Bool.false_eq_true, if_false, hsv o hkind]
    · have := serves_trans a1 b1
      refine ⟨this.rest, this.dev, this.doms, this.cores, fun c => ?_⟩
      rw [this.queues c]
      have hn : nextSeq w = g.opSeq := by simp only [nextSeq, wg]
      have hsvc : ∀ a, svcCluster (addOp (servedOp w o) w) o a = svcCluster s (memOp F s g []) a := by
        intro a; rw [← hsv o hkind a]; rfl
      simp only [hw', Bool.false_eq_true, if_false, List.nil_append, hn, wc, e1, hacc, hsvc]

end Sys2Proof.Laws
end

