-- ==== Sys2Proof/Laws/Caches.lean ====
section
/-! SUPPORT. What writing back L1 lines does, said once: the bytes of memory and the lines that remain. -/

namespace Sys2Proof.Laws

open Sys2Proof Sys2Proof.Machine

/-- The byte that a line holds dirty at an address. -/
def DirtyAt (l : Line) (a : Nat) (v : Byte) : Prop :=
  ∃ k, k < 128 ∧ l.dirty.getLsbD k = true ∧ a = l.pa + k ∧ v = l.data.extractLsb' (8 * k) 8

theorem memPutAt_other {m : List Host.Cell} (bs : List (Nat × Byte)) (hm : Memory.wf m = true) (a : Nat)
    (h : ∀ e ∈ bs, e.1 ≠ a) : memByte (memPutAt m bs) a = memByte m a := by
  induction bs generalizing m with
  | nil => rfl
  | cons e bs ih =>
    obtain ⟨k, v⟩ := e
    simp only [memPutAt]
    rw [ih (wf_memSet _ _ hm) fun e he => h e (by simp [he]), memByte_memSet _ _ hm]
    rw [if_neg]
    exact fun hx => h (k, v) (by simp) hx.symm

theorem memPutAt_same {m : List Host.Cell} (bs : List (Nat × Byte)) (hm : Memory.wf m = true) (a : Nat) (v : Byte)
    (h : (a, v) ∈ bs) (hu : ∀ e ∈ bs, e.1 = a → e.2 = v) : memByte (memPutAt m bs) a = v := by
  induction bs generalizing m with
  | nil => cases h
  | cons e bs ih =>
    obtain ⟨k, w⟩ := e
    simp only [memPutAt]
    by_cases hb : (a, v) ∈ bs
    · exact ih (wf_memSet _ _ hm) hb fun e he => hu e (by simp [he])
    · by_cases hc : ¬ ∃ e ∈ bs, e.1 = a
      · rw [memPutAt_other _ (wf_memSet _ _ hm) _ (fun e he hx => hc ⟨e, he, hx⟩), memByte_memSet _ _ hm]
        rcases List.mem_cons.1 h with he | he
        · cases he; simp
        · exact absurd he hb
      · obtain ⟨e, he, hk⟩ := Classical.not_not.1 hc
        exact absurd (by have := hu e (by simp [he]) hk; rw [← hk, ← this]; exact he) hb

theorem mem_dirtyBytes (l : Line) (a : Nat) (v : Byte) : (a, v) ∈ dirtyBytes l ↔ DirtyAt l a v := by
  simp only [dirtyBytes, List.mem_map, List.mem_filter, List.mem_range, DirtyAt, Prod.mk.injEq]
  constructor
  · rintro ⟨k, ⟨h1, h2⟩, h3, h4⟩; exact ⟨k, h1, h2, h3.symm, h4.symm⟩
  · rintro ⟨k, h1, h2, h3, h4⟩; exact ⟨k, ⟨h1, h2⟩, h3.symm, h4.symm⟩

/-- Lines without an uncorrectable error are written back: only memory changes, byte by byte. -/
theorem writeBacks_law (p : Line → Bool) (ls : KV Line) (s : State) (hm : MemOk s)
    (hc : ∀ e ∈ ls, e.2.dirty ≠ 0 → e.2.pa ∉ s.ecc) :
    ∃ m, ls.foldl (fun s e => if p e.2 then writeBack e.2 s else s) s = { s with mem := m } ∧ Memory.wf m = true ∧
      (∀ a, (∀ v, ¬ ∃ e ∈ ls, p e.2 = true ∧ DirtyAt e.2 a v) → memByte m a = memByte s.mem a) ∧
      ∀ a v, (∃ e ∈ ls, p e.2 = true ∧ DirtyAt e.2 a v) →
        (∀ v', (∃ e ∈ ls, p e.2 = true ∧ DirtyAt e.2 a v') → v' = v) → memByte m a = v := by
  induction ls generalizing s with
  | nil => exact ⟨s.mem, rfl, hm, fun _ _ => rfl, fun a v h => by obtain ⟨e, he, _⟩ := h; cases he⟩
  | cons e ls ih =>
    rw [List.foldl_cons]
    have h0 : ∃ m0, (if p e.2 then writeBack e.2 s else s) = { s with mem := m0 } ∧ Memory.wf m0 = true ∧
        (∀ a, (∀ v, ¬ (p e.2 = true ∧ DirtyAt e.2 a v)) → memByte m0 a = memByte s.mem a) ∧
        (∀ a v, p e.2 = true → DirtyAt e.2 a v → memByte m0 a = v) := by
      by_cases hp : p e.2 = true
      · rw [if_pos hp]
        have hd : (s.ecc.contains e.2.pa && e.2.dirty != 0) = false := by
          by_cases hz : e.2.dirty = 0
          · simp [hz]
          · have := hc e (by simp) hz
            simp [this]
        refine ⟨memPutAt s.mem (dirtyBytes e.2), by unfold writeBack; rw [hd]; rfl, wf_memPutAt _ hm, ?_, ?_⟩
        · intro a ha
          refine memPutAt_other _ hm _ fun x hx hxa => ha x.2 ⟨hp, (mem_dirtyBytes _ _ _).1 ?_⟩
          rw [← hxa]; exact hx
        · intro a v _ hv
          refine memPutAt_same _ hm _ _ ((mem_dirtyBytes _ _ _).2 hv) fun x hx hxa => ?_
          obtain ⟨k, -, -, h3, h4⟩ := (mem_dirtyBytes e.2 x.1 x.2).1 hx
          obtain ⟨k', -, -, h3', h4'⟩ := hv
          have : k = k' := by omega
          rw [h4, h4', this]
      · rw [if_neg hp]
        exact ⟨s.mem, rfl, hm, fun _ _ => rfl, fun _ _ h => absurd h hp⟩
    obtain ⟨m0, e0, w0, o0, s0⟩ := h0
    rw [e0]
    obtain ⟨m, e1, w1, o1, s1⟩ := ih { s with mem := m0 } w0 fun x hx => hc x (by simp [hx])
    refine ⟨m, e1, w1, ?_, ?_⟩
    · intro a ha
      rw [o1 a fun v hv => ha v (by obtain ⟨x, hx, hv⟩ := hv; exact ⟨x, by simp [hx], hv⟩)]
      exact o0 a fun v hv => ha v ⟨e, by simp, hv⟩
    · intro a v hv hu
      by_cases hx : ∃ x ∈ ls, p x.2 = true ∧ ∃ w, DirtyAt x.2 a w
      · obtain ⟨x, hx, hp, w, hw⟩ := hx
        have : w = v := hu w ⟨x, by simp [hx], hp, hw⟩
        subst this
        exact s1 a w ⟨x, hx, hp, hw⟩ fun v' hv' => hu v' (by obtain ⟨y, hy, hv'⟩ := hv'; exact ⟨y, by simp [hy], hv'⟩)
      · rw [o1 a fun w hw => hx (by obtain ⟨x, h1, h2, h3⟩ := hw; exact ⟨x, h1, h2, w, h3⟩)]
        obtain ⟨x, h1, h2, h3⟩ := hv
        rcases List.mem_cons.1 h1 with rfl | h1
        · exact s0 a v h2 h3
        · exact absurd ⟨x, h1, h2, v, h3⟩ hx

end Sys2Proof.Laws
end

