-- ==== Sys2Proof/Laws/Values.lean ====
section
/-! SUPPORT. The integer functions of Flags meet the rules of the manual. -/

namespace Sys2Proof.Laws

open Sys2Proof Sys2Proof.Machine

theorem toNat_wordOfInt (v : Int) : ((wordOfInt v).toNat : Int) = v % 2 ^ 32 := by
  simp only [wordOfInt, BitVec.toNat_ofInt]
  omega

theorem toInt_wordOfInt {v : Int} (h1 : -2 ^ 31 ≤ v) (h2 : v < 2 ^ 31) : (wordOfInt v).toInt = v := by
  simp only [wordOfInt, BitVec.toInt_ofInt]
  rw [Int.bmod_def]
  split <;> omega

theorem toInt_emod (a : Word) : a.toInt % 2 ^ 32 = (a.toNat : Int) := by
  have := a.isLt
  rw [BitVec.toInt_eq_toNat_cond]
  split <;> omega

theorem sum_law (sub : Bool) (f : Sat) (a b : Word) : sumRule sub f a b (addSub sub f a b) := by
  have ha := a.isLt
  have hb := b.isLt
  have ea := toInt_emod a
  have eb := toInt_emod b
  cases f <;> cases sub <;> simp only [sumRule, addSub, if_true, if_false, Bool.false_eq_true, Int.ofNat_eq_natCast]
  · rw [toNat_wordOfInt]; omega
  · rw [toNat_wordOfInt]; omega
  · have : clampInt (-2147483648) 2147483647 (a.toInt + b.toInt)
        = max (-2 ^ 31) (min (2 ^ 31 - 1) (a.toInt + b.toInt)) := by unfold clampInt; split <;> (try split) <;> omega
    rw [this]; apply toInt_wordOfInt <;> omega
  · have : clampInt (-2147483648) 2147483647 (a.toInt - b.toInt)
        = max (-2 ^ 31) (min (2 ^ 31 - 1) (a.toInt - b.toInt)) := by unfold clampInt; split <;> (try split) <;> omega
    rw [this]; apply toInt_wordOfInt <;> omega
  · have : clampInt 0 4294967295 ((a.toNat : Int) + b.toNat)
        = max 0 (min (2 ^ 32 - 1) ((a.toNat : Int) + b.toNat)) := by unfold clampInt; split <;> (try split) <;> omega
    rw [this, toNat_wordOfInt]; omega
  · have : clampInt 0 4294967295 ((a.toNat : Int) - b.toNat)
        = max 0 (min (2 ^ 32 - 1) ((a.toNat : Int) - b.toNat)) := by unfold clampInt; split <;> (try split) <;> omega
    rw [this, toNat_wordOfInt]; omega

theorem imm_law (n : Nat) (hn : n ≤ 32) (k : BitVec n) (a : Word) : immRule k.toInt a (a + k.signExtend 32) := by
  have h : ((k.signExtend 32).toNat : Int) = k.toInt % 2 ^ 32 := by
    rw [← toInt_emod, BitVec.toInt_signExtend_of_le hn]
  have ha := a.isLt
  simp only [immRule, BitVec.toNat_add]
  omega

theorem mul_bounds (a b : Word) : -2 ^ 62 ≤ a.toInt * b.toInt ∧ a.toInt * b.toInt ≤ 2 ^ 62 := by
  have h1 := BitVec.toInt_lt (x := a); have h2 := BitVec.le_toInt (x := a)
  have h3 := BitVec.toInt_lt (x := b); have h4 := BitVec.le_toInt (x := b)
  have ha : a.toInt.natAbs ≤ 2 ^ 31 := by omega
  have hb : b.toInt.natAbs ≤ 2 ^ 31 := by omega
  have := Nat.mul_le_mul ha hb
  rw [← Int.natAbs_mul] at this
  omega

theorem mul_law (f : MulPart) (a b : Word) : mulRule f a b (mulPart f a b) := by
  cases f <;> simp only [mulRule, mulPart]
  · exact BitVec.toNat_mul a b
  · obtain ⟨h1, h2⟩ := mul_bounds a b
    generalize a.toInt * b.toInt = p at *
    rw [BitVec.toInt_eq_toNat_cond]
    simp only [BitVec.extractLsb'_toNat, BitVec.toNat_ofInt, Nat.shiftRight_eq_div_pow]
    split <;> omega
  · have := Nat.mul_le_mul (Nat.le_of_lt_succ (Nat.lt_succ_of_le (Nat.le_sub_one_of_lt a.isLt)))
      (Nat.le_of_lt_succ (Nat.lt_succ_of_le (Nat.le_sub_one_of_lt b.isLt)))
    simp only [BitVec.extractLsb'_toNat, BitVec.toNat_ofNat, Nat.shiftRight_eq_div_pow]
    generalize a.toNat * b.toNat = p at *
    omega

theorem mad_law (d a b : Word) : madRule d a b (a * b + d) := by
  simp [madRule, BitVec.toNat_add, BitVec.toNat_mul]

theorem minMax_law (mx nat : Bool) (a b : Word) : minMaxRule mx nat a b (minMax mx nat a b) := by
  cases mx <;> cases nat <;> simp only [minMaxRule, minMax, if_true, if_false, Bool.false_eq_true, decide_eq_true_eq] <;>
    split <;> omega

theorem and_law (a b : Word) : bitsRule (fun x y => x && y) a b (a &&& b) := by intro i _; simp
theorem or_law (a b : Word) : bitsRule (fun x y => x || y) a b (a ||| b) := by intro i _; simp
theorem xor_law (a b : Word) : bitsRule (fun x y => x != y) a b (a ^^^ b) := by
  intro i _; simp only [BitVec.getLsbD_xor]
theorem andn_law (a b : Word) : bitsRule (fun x y => x && !y) a b (a &&& ~~~b) := by intro i hi; simp [hi]

theorem shl_law (a b : Word) : shlRule a b (shlFun a b) := by
  unfold shlRule shlFun
  split <;> simp [Nat.shiftLeft_eq]

theorem shrN_law (a b : Word) : shrNRule a b (shrNFun a b) := by
  unfold shrNRule shrNFun
  split <;> simp [Nat.shiftRight_eq_div_pow]

theorem shrS_law (a b : Word) : shrSRule a b (shrSFun a b) := by
  unfold shrSRule shrSFun
  split
  · rename_i h
    rw [Nat.min_eq_left (by omega), BitVec.toInt_sshiftRight]
    exact Int.shiftRight_eq_div_pow _ _
  · rename_i h
    rw [Nat.min_eq_right (by omega)]
    apply BitVec.eq_of_getLsbD_eq
    intro i hi
    rw [BitVec.getLsbD_sshiftRight]
    have e : a.msb = a.getLsbD 31 := by simp [BitVec.msb_eq_getLsbD_last]
    cases h31 : a.getLsbD 31
    · have h31' : a[31] = false := by simpa using h31
      by_cases h0 : 31 + i < 32
      · have : i = 0 := by omega
        subst this; simp [h31']
      · simp [h0, e, h31']
    · have h31' : a[31] = true := by simpa using h31
      by_cases h0 : 31 + i < 32
      · have : i = 0 := by omega
        subst this; simp [h31']
      · simp only [h0, if_false, e, h31]
        have : (0xFFFFFFFF : Word) = BitVec.allOnes 32 := by decide
        simp only [if_true, this, BitVec.getLsbD_allOnes, hi]
        simp; omega

theorem rot_law (a b : Word) : rotRule a b (rotFun a b) := by
  intro i hi
  unfold rotFun
  have hb : b.toNat % 32 < 32 := Nat.mod_lt _ (by omega)
  rw [BitVec.getLsbD_rotateLeft]
  have e : (i + b.toNat) % 32 = (i + b.toNat % 32) % 32 := by omega
  rw [e]
  generalize b.toNat % 32 = k at *
  by_cases hk : i + k < 32
  · rw [Nat.mod_eq_of_lt hk]
    simp [Nat.mod_eq_of_lt hb, show ¬ i + k < k by omega, hk]
  · have h2 : (i + k) % 32 = i + k - 32 := by omega
    rw [h2]
    simp [Nat.mod_eq_of_lt hb, show i + k - 32 < k by omega]
    congr 1; omega

theorem brev_sum (f : Nat → Bool) (n : Nat) :
    (List.range n).foldl (fun v i => v + (if f i then 2 ^ i else 0)) 0 =
      ((List.range n).filter f).foldl (fun v l => v + 2 ^ l) 0 := by
  induction n with
  | zero => rfl
  | succ n ih =>
    rw [List.range_succ, List.filter_append, List.foldl_append, List.foldl_append, ih]
    by_cases h : f n = true <;> simp [h]

theorem brev_law (a : Word) : brevRule a (reverseBits a) := by
  intro i hi
  unfold reverseBits
  rw [brev_sum fun i => a.getLsbD (31 - i), BitVec.getLsbD_ofNat, (maskSum_law _ 32).2 i]
  simp [hi]

theorem abs_law (a : Word) : iabsRule a (absFun a) := by
  unfold iabsRule absFun
  by_cases h : a.toInt < 0
  · have ha := a.isLt
    simp only [h, if_true, show ¬ 0 ≤ a.toInt by omega, if_false, BitVec.toNat_sub]
    simp; omega
  · simp [h, show 0 ≤ a.toInt by omega]

theorem neg_law (a : Word) : inegRule a (0 - a) := by
  have ha := a.isLt
  simp only [inegRule, BitVec.toNat_sub]
  simp; omega

theorem testBit_field (a p w i : Nat) : (field a p w).testBit i = (decide (i < w) && a.testBit (p + i)) := by
  simp only [field, Nat.testBit_mod_two_pow, Nat.testBit_div_two_pow, Nat.add_comm]

theorem width_bound (k : Nat) : 1 ≤ fieldWidth k ∧ fieldPos k + fieldWidth k ≤ 32 := by
  unfold fieldWidth fieldPos; omega

theorem bfx_law (k : Nat) (a : Word) : bfxRule false k a (bfxFun a k) := by
  have hw := width_bound k
  have e : bfWidth k = fieldWidth k := rfl
  constructor
  · intro i hi
    simp only [bfxFun, BitVec.getLsbD_ofNat, testBit_field, e]
    simp [hi, show i < 32 by omega, fieldPos, BitVec.getLsbD]
  · intro i hi h32
    simp only [bfxFun, BitVec.getLsbD_ofNat, testBit_field, e]
    simp [show ¬ i < fieldWidth k by omega]

theorem signedOf_toInt (w v : Nat) (hw : 0 < w) : signedOf w v = (BitVec.ofNat w v).toInt := by
  have h2 : 2 ^ w = 2 * 2 ^ (w - 1) := by rw [← Nat.pow_succ']; congr 1; omega
  rw [BitVec.toInt_eq_toNat_cond, BitVec.toNat_ofNat]
  unfold signedOf
  simp only [Int.ofNat_eq_natCast]
  split <;> split <;> omega

theorem bfxs_law (k : Nat) (a : Word) : bfxRule true k a (bfxsFun a k) := by
  have hw := width_bound k
  have e : bfWidth k = fieldWidth k := rfl
  have es : bfxsFun a k = (BitVec.ofNat (fieldWidth k) (field a.toNat (fieldPos k) (fieldWidth k))).signExtend 32 := by
    unfold bfxsFun wordOfInt
    rw [e, signedOf_toInt _ _ (by omega)]
    rfl
  rw [es]
  constructor
  · intro i hi
    rw [BitVec.getLsbD_signExtend]
    simp [hi, show i < 32 by omega, testBit_field, BitVec.getLsbD]
  · intro i hi h32
    rw [BitVec.getLsbD_signExtend]
    simp only [h32, decide_true, Bool.true_and, show ¬ i < fieldWidth k by omega, if_false]
    rw [BitVec.msb_eq_getLsbD_last, BitVec.getLsbD_ofNat, testBit_field]
    simp [BitVec.getLsbD, show fieldWidth k - 1 < fieldWidth k by omega, show fieldPos k + (fieldWidth k - 1) = fieldPos k + fieldWidth k - 1 by omega]

theorem bfi_law (k : Nat) (d a : Word) : bfiRule k d a (bfiFun d a k) := by
  have hw := width_bound k
  have e : bfWidth k = fieldWidth k := rfl
  intro i hi
  unfold bfiFun
  simp only [e, show k % 32 = fieldPos k from rfl, BitVec.getLsbD_ofNat, hi, decide_true, Bool.true_and]
  generalize fieldPos k = p at *
  generalize fieldWidth k = w at *
  have hs : d.toNat - field d.toNat p w * 2 ^ p + a.toNat % 2 ^ w * 2 ^ p =
      2 ^ p * (2 ^ w * (d.toNat / 2 ^ p / 2 ^ w) + a.toNat % 2 ^ w) + d.toNat % 2 ^ p := by
    unfold field
    have h1 := Nat.div_add_mod d.toNat (2 ^ p)
    have h2 := Nat.div_add_mod (d.toNat / 2 ^ p) (2 ^ w)
    rw [Nat.mul_add, ← Nat.mul_assoc]
    have h3 : 2 ^ p * (2 ^ w * (d.toNat / 2 ^ p / 2 ^ w)) + 2 ^ p * (d.toNat / 2 ^ p % 2 ^ w) + d.toNat % 2 ^ p = d.toNat := by
      rw [← Nat.mul_add, h2, h1]
    rw [← Nat.mul_assoc] at h3
    rw [Nat.mul_comm (d.toNat / 2 ^ p % 2 ^ w), Nat.mul_comm (a.toNat % 2 ^ w)]
    omega
  rw [hs, Nat.testBit_two_pow_mul_add _ (Nat.mod_lt _ (Nat.two_pow_pos p)),
    Nat.testBit_two_pow_mul_add _ (Nat.mod_lt _ (Nat.two_pow_pos w))]
  by_cases h1 : i < p
  · simp [h1, show ¬ p ≤ i by omega, Nat.testBit_mod_two_pow, BitVec.getLsbD]
  · by_cases h2 : i - p < w
    · simp [h1, h2, show p ≤ i ∧ i < p + w by omega, Nat.testBit_mod_two_pow, BitVec.getLsbD]
    · simp [h1, h2, show ¬(p ≤ i ∧ i < p + w) by omega, BitVec.getLsbD, Nat.testBit_div_two_pow]
      congr 1; omega

theorem lea_law (sh : BitVec 3) (a b : Word) : leaRule sh.toNat a b (leaFun a b sh) := by
  simp [leaRule, leaFun, BitVec.toNat_add, Nat.shiftLeft_eq]

theorem movk_law (imm : BitVec 16) : movkRule imm (imm.zeroExtend 32) := by
  have := imm.isLt
  simp [movkRule]; omega

theorem movkHi_law (imm : BitVec 16) (d : Word) : movkHiRule imm d (movkHi d imm) := by
  unfold movkHiRule movkHi
  rw [BitVec.toNat_append, ← Nat.shiftLeft_add_eq_or_of_lt (by exact (d.extractLsb' 0 16).isLt)]
  simp [Nat.shiftLeft_eq]

theorem popc_law (a : Word) : popcRule a (popcount a) := by
  unfold popcRule popcount
  rw [BitVec.toNat_ofNat, List.countP_eq_length_filter]
  apply Nat.mod_eq_of_lt
  have := List.length_filter_le (fun i => a.getLsbD i) (List.range 32)
  simp only [List.length_range] at this
  omega

theorem clz_law (a : Word) : clzRule a (leadingZeros a) := by
  unfold clzRule leadingZeros
  cases h : (List.range 32).find? (fun i => a.getLsbD (31 - i)) with
  | none =>
    left
    rw [List.find?_eq_none] at h
    refine ⟨?_, rfl⟩
    apply BitVec.eq_of_getLsbD_eq
    intro i hi
    have := h (31 - i) (by simp; omega)
    rw [show 31 - (31 - i) = i by omega] at this
    simpa using this
  | some k =>
    right
    rw [List.find?_range_eq_some] at h
    obtain ⟨h1, h2, h3⟩ := h
    have hk : k < 32 := by simpa using h2
    have e : (BitVec.ofNat 32 k).toNat = k := by simp; omega
    simp only [Option.getD_some, e]
    refine ⟨by omega, h1, fun i hi1 hi2 => ?_⟩
    have := h3 (31 - i) (by omega)
    rw [show 31 - (31 - i) = i by omega] at this
    simpa using this

/-! ## Predicates -/

/-- One bit of a vector replaced. -/
theorem bit_put {n : Nat} (x : BitVec n) (p : Nat) (b : Bool) (hp : p < n) (j : Nat) :
    ((x &&& ~~~(BitVec.ofNat n (2 ^ p))) ||| (if b then BitVec.ofNat n (2 ^ p) else 0)).getLsbD j =
      if j = p then b else x.getLsbD j := by
  have ho : (BitVec.ofNat n (2 ^ p)).getLsbD j = decide (j = p) := by
    rw [BitVec.getLsbD_ofNat, Nat.testBit_two_pow]
    by_cases h : p = j
    · subst h; simp [hp]
    · simp [h, Ne.symm h]
  rw [BitVec.getLsbD_or, BitVec.getLsbD_and, BitVec.getLsbD_not, ho]
  by_cases hj : j < n
  · by_cases h : j = p
    · rw [if_pos h]
      cases b
      · simp only [if_false, Bool.false_eq_true, h, decide_true]; simp
      · rw [if_pos rfl, ho]; simp [h]
    · rw [if_neg h]
      cases b
      · simp only [if_false, Bool.false_eq_true, h, decide_false, hj, decide_true]; simp
      · simp only [if_true, ho, h, decide_false, hj, decide_true]; simp
  · have hx : x.getLsbD j = false := BitVec.getLsbD_of_ge _ _ (by omega)
    have hne : ¬ j = p := by omega
    rw [if_neg hne, hx]
    cases b
    · simp only [if_false, Bool.false_eq_true]; simp
    · simp only [if_true, ho, hne, decide_false]; simp

theorem setPred_bits (x : Fibre) (p : Nat) (b : Bool) (hp : p < 128) (j : Nat) :
    (setPred x p b).preds.getLsbD j = if j = p ∧ p ≠ 0 then b else x.preds.getLsbD j := by
  unfold setPred
  by_cases h : p = 0
  · simp [h]
  · rw [if_neg h]
    exact (bit_put x.preds p b hp j).trans (by simp [h])

theorem setGp_bits (g : Group) (p : Nat) (b : Bool) (hp : p < 16) (j : Nat) :
    (setGp g p b).gp.getLsbD j = if j = p ∧ p ≠ 0 then b else g.gp.getLsbD j := by
  unfold setGp
  by_cases h : p = 0
  · simp [h]
  · rw [if_neg h]
    exact (bit_put g.gp p b hp j).trans (by simp [h])

theorem setPred_eq (x : Fibre) (p : Nat) (b : Bool) : setPred x p b = { x with preds := (setPred x p b).preds } := by
  unfold setPred; split <;> rfl

theorem setGp_eq (g : Group) (p : Nat) (b : Bool) : setGp g p b = { g with gp := (setGp g p b).gp } := by
  unfold setGp; split <;> rfl

end Sys2Proof.Laws
end

