-- ==== Sys2Proof/Laws/Barriers.lean ====
section
/-! SUPPORT. What the updates of barrier objects do, said once: the bytes of an object and its fields, storing an object, and
the release of the paths that wait at it. -/

namespace Sys2Proof.Laws

open Sys2Proof Sys2Proof.Machine

@[simp] theorem length_bytesOfNat (n v : Nat) : (bytesOfNat n v).length = n := by
  induction n generalizing v with
  | zero => rfl
  | succ n ih => simp [bytesOfNat, ih]

theorem natOfBytes_bytesOfNat (n v : Nat) : natOfBytes (bytesOfNat n v) = v % 256 ^ n := by
  induction n generalizing v with
  | zero => simp [bytesOfNat, natOfBytes, Nat.mod_one]
  | succ n ih =>
    simp only [bytesOfNat, natOfBytes, ih, BitVec.toNat_ofNat]
    rw [show 256 ^ (n + 1) = 256 ^ n * 256 from rfl, Nat.mul_comm (256 ^ n) 256, Nat.mod_mul]

/-- The fields of a barrier object fit their places (R136). -/
structure BarFits (b : Bar) : Prop where
  phase : b.phase < 16
  arrive : b.arrive < 2 ^ 13
  reload : b.reload < 2 ^ 13
  sect : -2 ^ 31 ≤ b.sect ∧ b.sect < 2 ^ 31
  gen : b.gen < 2 ^ 16
  rest : b.rest < 2 ^ 46

theorem signedOf_range (n v : Nat) (hn : 0 < n) : -2 ^ (n - 1) ≤ signedOf n v ∧ signedOf n v < 2 ^ (n - 1) := by
  have h1 : v % 2 ^ n < 2 ^ n := Nat.mod_lt _ (Nat.two_pow_pos n)
  have h2 : 2 ^ n = 2 * 2 ^ (n - 1) := by
    rw [← Nat.pow_succ']; congr 1; omega
  have h3 : (2 : Int) ^ (n - 1) = ((2 ^ (n - 1) : Nat) : Int) := by simp
  unfold signedOf
  rw [h3]
  generalize hp : 2 ^ (n - 1) = p at *
  generalize hq : v % 2 ^ n = q at *
  simp only [Int.ofNat_eq_natCast]
  split
  · omega
  · omega

theorem signedOf_unsignedOf (v : Int) (h : -2 ^ 31 ≤ v ∧ v < 2 ^ 31) : signedOf 32 (unsignedOf 32 v) = v := by
  have h1 : ((unsignedOf 32 v : Nat) : Int) = v % 4294967296 := by
    unfold unsignedOf; rw [show (Int.ofNat (2 ^ 32)) = 4294967296 from rfl]; omega
  unfold signedOf
  have h2 : unsignedOf 32 v < 4294967296 := by omega
  simp only [Int.ofNat_eq_natCast]
  split <;> omega

theorem unsignedOf_lt (v : Int) : unsignedOf 32 v < 2 ^ 32 := by
  unfold unsignedOf; rw [show (Int.ofNat (2 ^ 32)) = 4294967296 from rfl]; omega

theorem barFits (s : State) (t off : Nat) : BarFits (barAt s t off) := by
  unfold barAt barOfBytes field
  refine ⟨?_, ?_, ?_, ?_, ?_, ?_⟩
  · exact Nat.mod_lt _ (by decide)
  · exact Nat.mod_lt _ (by decide)
  · exact Nat.mod_lt _ (by decide)
  · exact signedOf_range 32 _ (by decide)
  · exact Nat.mod_lt _ (by decide)
  · exact Nat.mod_lt _ (by decide)

theorem bitNum_lt (b : Bool) : bitNum b < 2 := by cases b <;> decide

theorem testBit_bitNum (v k : Nat) (b : Bool) (h : v / 2 ^ k % 2 = bitNum b) : v.testBit k = b := by
  rw [Nat.testBit_eq_decide_div_mod_eq, h]
  cases b <;> rfl

/-- An object's fields are read back from its bytes. -/
theorem barOfBytes_bytesOfBar {b : Bar} (h : BarFits b) : barOfBytes (bytesOfBar b) = b := by
  obtain ⟨h1, h2, h3, h4, h5, h6⟩ := h
  unfold barOfBytes bytesOfBar
  rw [natOfBytes_bytesOfNat]
  have hu := unsignedOf_lt b.sect
  have hs := signedOf_unsignedOf b.sect h4
  have e1 := bitNum_lt b.error
  have e2 := bitNum_lt b.orphan
  have e3 := bitNum_lt b.invalid
  have e4 := bitNum_lt b.busy
  obtain ⟨p, a, r, sc, g, er, orp, inv, bu, rs⟩ := b
  simp only at *
  generalize unsignedOf 32 sc = u at *
  have t1 := fun v => testBit_bitNum v 78 er
  have t2 := fun v => testBit_bitNum v 79 orp
  have t3 := fun v => testBit_bitNum v 80 inv
  have t4 := fun v => testBit_bitNum v 81 bu
  generalize bitNum er = w1 at *
  generalize bitNum orp = w2 at *
  generalize bitNum inv = w3 at *
  generalize bitNum bu = w4 at *
  simp only [field, Bar.mk.injEq]
  refine ⟨by omega, by omega, by omega, ?_, by omega, t1 _ (by omega), t2 _ (by omega), t3 _ (by omega), t4 _ (by omega), by omega⟩
  rw [← hs]
  congr 1
  omega

theorem getTeam_modTeam {s : State} {n : Nat} {x : Team} (h : kvGet s.teams n = some x) (k : Nat) (f : Team → Team) :
    getTeam (modTeam s n f) k = if k = n then f (getTeam s n) else getTeam s k := by
  simp only [getTeam, modTeam, kvMod, h, kvGetD_kvSet]
  split
  · simp [kvGetD, h]
  · rfl

/-- Storing an object. -/
theorem putBar_law {k : Nat} {s : State} {x : Team} (hk : kvGet s.teams k = some x) (off : Nat) (b : Bar)
    (hm : Memory.wf (getTeam s k).mem = true) :
    BarBecomes s (putBar k off b s) k off b ∧ Memory.wf (getTeam (putBar k off b s) k).mem = true ∧
    (getTeam (putBar k off b s) k).barTab = (getTeam s k).barTab ∧
    (getTeam (putBar k off b s) k).barOld = (getTeam s k).barOld ∧ (putBar k off b s).groups = s.groups ∧
    ∃ y, kvGet (putBar k off b s).teams k = some y := by
  have hg : getTeam (putBar k off b s) k = { getTeam s k with mem := memPut (getTeam s k).mem off (bytesOfBar b) } := by
    simp only [putBar, localWrite, getTeam_modTeam hk, if_true]
  have hl : (bytesOfBar b).length = 16 := length_bytesOfNat _ _
  refine ⟨⟨rfl, ?_, ?_, ?_, ?_⟩, ?_, ?_, ?_, rfl, ?_⟩
  · simp only [localRead, hg]
    have := memBytes_memPut off (bytesOfBar b) hm
    rwa [hl] at this
  · intro a ha
    rw [hg]
    simp only
    rw [memByte_memPut _ _ hm, hl, if_neg ha]
  · rw [hg]
  · intro j hj
    simp only [putBar, localWrite, getTeam_modTeam hk, if_neg hj]
  · rw [hg]; exact wf_memPut _ _ hm
  · rw [hg]
  · rw [hg]
  · exact ⟨_, by simp only [putBar, localWrite, modTeam, kvGet_kvMod, if_true, hk]; rfl⟩

theorem barAt_put {k : Nat} {s u : State} {off : Nat} {b : Bar} (hb : BarBecomes s u k off b) (hf : BarFits b) :
    barAt u k off = b := by
  simp only [barAt, hb.2.1, barOfBytes_bytesOfBar hf]

/-! ## Releases -/

theorem mem_of_kvGet {α : Type} {m : KV α} {k : Nat} {x : α} (h : kvGet m k = some x) : (k, x) ∈ m := by
  induction m with
  | nil => cases h
  | cons e m ih =>
    obtain ⟨j, y⟩ := e
    simp only [kvGet] at h
    split at h
    · subst_vars; cases h; simp
    · split at h
      · cases h
      · simp [ih h]

/-- A group after one of its paths has returned from BWAIT, and is held for some cycles. -/
def returned (ok : Bool) (hold : Hold) (pc : Word) (g : Group) : Group :=
  let h := setGp (modLanes g hold.mask fun _ f => { f with st := .resident, pc := pc + 4 }) 15 ok
  { h with sched := { h.sched with holds := hold :: h.sched.holds } }

theorem setGp_twice (g : Group) (p : Nat) (b : Bool) : setGp (setGp g p b) p b = setGp g p b := by
  unfold setGp
  split
  · rfl
  · congr 1
    simp only
    generalize BitVec.ofNat 16 (2 ^ p) = m
    apply BitVec.eq_of_getLsbD_eq
    intro i hi
    cases b <;> simp only [Bool.false_eq_true, if_true, if_false, BitVec.or_zero, BitVec.getLsbD_and, BitVec.getLsbD_or, BitVec.getLsbD_not, hi, decide_true, Bool.true_and] <;>
      cases g.gp.getLsbD i <;> cases m.getLsbD i <;> simp

theorem setGp_fields (g : Group) (p : Nat) (b : Bool) : setGp g p b = { g with gp := (setGp g p b).gp } := by
  unfold setGp; split <;> rfl

theorem returned_eq (ok : Bool) (hd : Hold) (pc : Word) (y : Group) : returned ok hd pc y =
    { y with fibres := (returned ok hd pc y).fibres, gp := (setGp y 15 ok).gp,
             sched := { y.sched with holds := hd :: y.sched.holds } } := by
  simp only [returned]; rw [setGp_fields]; simp only [modLanes, setGp]; rfl

/-- A path returns from BWAIT without a fault to deliver. -/
theorem returnBwait_law {gid off : Nat} {m : LaneMask} {pc : Word} {b : Bar} {s : State}
    (h : b.invalid = true ∨ b.error = false ∨ copyFault (getGroup s gid) off b.gen m = none) :
    returnBwait gid off m pc b true s = setGroup s gid (returned (!b.invalid && !b.error)
      { mask := m, until_ := s.dev.clock + barHold s gid (getGroup s gid), leaf := 11 } pc (getGroup s gid)) := by
  have hd : barDelay s gid (setGp (modLanes (getGroup s gid) m fun _ f => { f with st := .resident, pc := pc + 4 }) 15
      (!b.invalid && !b.error)) = barHold s gid (getGroup s gid) := by
    simp only [barDelay, barHold]; rw [setGp_fields]; rfl
  unfold returnBwait
  simp only [if_true, hd]
  rcases h with h | h | h
  · simp only [h, Bool.not_true, Bool.false_and, Bool.false_eq_true, if_false]; rfl
  · simp only [h, Bool.and_false, Bool.false_eq_true, if_false]; rfl
  · have hops : copyFault (returned (!b.invalid && !b.error)
      { mask := m, until_ := s.dev.clock + barHold s gid (getGroup s gid), leaf := 11 } pc (getGroup s gid)) off b.gen m = none := by
      simp only [copyFault, returned]; rw [setGp_fields]; exact h
    split
    · show (match copyFault (returned (!b.invalid && !b.error)
        { mask := m, until_ := s.dev.clock + barHold s gid (getGroup s gid), leaf := 11 } pc (getGroup s gid)) off b.gen m with
        | some o => _ | none => _) = _
      rw [hops]; rfl
    · rfl

theorem copyFault_none {s : State} {k team off gen : Nat} {x : Group} (h : NoCopyFault s team off gen)
    (hk : kvGet s.groups k = some x) (ht : x.place.team = team) (m : LaneMask) : copyFault x off gen m = none := by
  unfold copyFault
  rw [List.filter_eq_nil_iff.2]
  · rfl
  · intro o ho hc
    simp only [Bool.and_eq_true, beq_iff_eq] at hc
    cases he : o.err with
    | none => rw [he] at hc; cases hc.2
    | some e =>
      rw [he] at hc
      simp only [Bool.and_eq_true, beq_iff_eq] at hc
      exact h k x hk ht o ho hc.1.1 e he hc.2

/-- A group after its waiting paths have returned, one PC after the other. -/
def returnedAll (ok : Bool) (until_ : Nat) (g : Group) (ps : List (Word × LaneMask)) : Group :=
  ps.foldl (fun g p => returned ok { mask := p.2, until_ := until_, leaf := 11 } p.1 g) g

theorem returned_place (ok : Bool) (hd : Hold) (pc : Word) (g : Group) :
    (returned ok hd pc g).place = g.place ∧ (returned ok hd pc g).ops = g.ops := by
  simp only [returned]; rw [setGp_fields]; exact ⟨rfl, rfl⟩

theorem releaseGroup_fold {gid off : Nat} {b : Bar} (ps : List (Word × LaneMask)) (s : State) (x : Group)
    (hx : kvGet s.groups gid = some x)
    (h : b.invalid = true ∨ b.error = false ∨ NoCopyFault s x.place.team off b.gen) :
    ps.foldl (fun s p => returnBwait gid off p.2 p.1 b true s) s =
      { s with groups := kvSet s.groups gid (returnedAll (!b.invalid && !b.error)
        (s.dev.clock + barHold s gid x) x ps) } := by
  induction ps generalizing s x with
  | nil =>
    simp only [List.foldl_nil, returnedAll]
    rw [kvSet_self _ hx]
  | cons p ps ih =>
    have hg : getGroup s gid = x := by simp only [getGroup, kvGetD, hx, Option.getD_some]
    rw [List.foldl_cons, returnBwait_law (by
      rcases h with h | h | h
      · exact .inl h
      · exact .inr (.inl h)
      · exact .inr (.inr (by rw [hg]; exact copyFault_none h hx rfl _))), hg]
    let y := returned (!b.invalid && !b.error) { mask := p.2, until_ := s.dev.clock + barHold s gid x, leaf := 11 } p.1 x
    obtain ⟨y1, y2⟩ := returned_place (!b.invalid && !b.error) { mask := p.2, until_ := s.dev.clock + barHold s gid x, leaf := 11 } p.1 x
    rw [ih (setGroup s gid y) y (by simp only [setGroup_groups, kvGet_kvSet_same]) (by
      rcases h with h | h | h
      · exact .inl h
      · exact .inr (.inl h)
      · refine .inr (.inr fun k z hz ht o ho hc => ?_)
        rw [setGroup_groups, kvGet_kvSet] at hz
        split at hz
        · cases hz
          exact h gid x hx rfl o (by rw [← y2]; exact ho) hc
        · exact h k z hz (by rw [ht, y1]) o ho hc)]
    have hb : barHold (setGroup s gid y) gid y = barHold s gid x := by simp only [barHold, y1]; rfl
    simp only [setGroup, kvSet_kvSet, hb]
    rfl

theorem returnedAll_law (ok : Bool) (u : Nat) (x : Group) (m : LaneMask) (qs : List Word) (y : Group) :
    let ps := qs.map fun q => (q, maskOf fun l => inMask m l && (getFibre x l).pc == q)
    let z := returnedAll ok u y ps
    z = { y with fibres := z.fibres, gp := z.gp, sched := { y.sched with holds := z.sched.holds } } ∧
    z.gp = (if qs = [] then y.gp else (setGp y 15 ok).gp) ∧
    (∀ l, kvGet z.fibres l = (kvGet y.fibres l).map fun f => if l < 64 ∧ inMask m l = true ∧ (getFibre x l).pc ∈ qs then
      { f with st := .resident, pc := (getFibre x l).pc + 4 } else f) ∧
    (∀ q ∈ qs, ∃ hd ∈ z.sched.holds, hd.until_ = u ∧ hd.mask = maskOf fun l => inMask m l && (getFibre x l).pc == q) ∧
    ∀ hd ∈ y.sched.holds, hd ∈ z.sched.holds := by
  induction qs generalizing y with
  | nil => exact ⟨rfl, rfl, (fun l => by simp [returnedAll]), (fun q h => by simp at h), fun _ h => h⟩
  | cons q qs ih =>
    intro ps z
    let hd : Hold := { mask := maskOf fun l => inMask m l && (getFibre x l).pc == q, until_ := u, leaf := 11 }
    let y1 := returned ok hd q y
    have y1r : y1 = { y with fibres := y1.fibres, gp := (setGp y 15 ok).gp, sched := { y.sched with holds := hd :: y.sched.holds } } := by
      simp only [y1]; rw [returned_eq]
    have y1f : ∀ l, kvGet y1.fibres l = (kvGet y.fibres l).map fun f => if inMask hd.mask l then { f with st := .resident, pc := q + 4 } else f := by
      intro l; simp only [y1, returned]; rw [setGp_fields]; exact getFibre_modLanes y hd.mask (fun _ f => { f with st := .resident, pc := q + 4 }) l
    obtain ⟨a1, a2, a3, a4, a5⟩ := ih y1
    have hz : z = returnedAll ok u y1 (qs.map fun q => (q, maskOf fun l => inMask m l && (getFibre x l).pc == q)) := rfl
    rw [← hz] at a1 a2 a3 a4 a5
    have yh : y1.sched.holds = hd :: y.sched.holds := by rw [y1r]
    have yg : y1.gp = (setGp y 15 ok).gp := by rw [y1r]
    have yg2 : (setGp y1 15 ok).gp = (setGp y 15 ok).gp := by
      have h1 := setGp_twice y 15 ok
      have h2 : (setGp (setGp y 15 ok) 15 ok).gp = (setGp y 15 ok).gp := by rw [h1]
      rw [← h2]; simp only [setGp, yg]; rfl
    refine ⟨?_, ?_, fun l => ?_, fun p hp => ?_, fun h hh => a5 h (by rw [yh]; simp [hh])⟩
    · rw [a1, y1r]
    · rw [a2]; simp only [List.cons_ne_nil, if_false]; split
      · exact yg
      · exact yg2
    · rw [a3 l, y1f l, Option.map_map]
      congr 1
      funext f
      simp only [Function.comp, hd, inMask_maskOf, List.mem_cons, Bool.and_eq_true, beq_iff_eq, decide_eq_true_eq]
      by_cases h1 : l < 64 ∧ inMask m l = true
      · by_cases h2 : (getFibre x l).pc = q
        · simp [h1, h2]
        · by_cases h3 : (getFibre x l).pc ∈ qs
          · simp [h1, h2, h3]
          · simp [h1, h2, h3]
      · have h2 : ∀ P : Prop, ¬ (l < 64 ∧ inMask m l = true ∧ P) := fun P h => h1 ⟨h.1, h.2.1⟩
        simp only [h2, if_false]
    · rcases List.mem_cons.1 hp with rfl | hp
      · exact ⟨hd, a5 hd (by rw [yh]; simp), rfl, rfl⟩
      · exact a4 p hp

/-- What becomes of a group when the waiters at a barrier of a team are released. -/
def releasedGroup (s : State) (t off : Nat) (ph : Option Nat) (ok : Bool) (k : Nat) (x : Group) : Group :=
  if x.place.team = t ∧ (getCtx s x.place.owner).fatal.isNone = true then returnedAll ok (s.dev.clock + barHold s k x) x (waitingPaths x off ph) else x

theorem releaseGroup_law {t off : Nat} {ph : Option Nat} {b : Bar} {s : State} {k : Nat}
    (h : b.invalid = true ∨ b.error = false ∨ NoCopyFault s t off b.gen) :
    releaseGroup t off ph b s k = { s with groups := kvMod s.groups k (releasedGroup s t off ph (!b.invalid && !b.error) k) } := by
  cases hx : kvGet s.groups k with
  | none =>
    have hg : getGroup s k = {} := by simp only [getGroup, kvGetD, hx, Option.getD_none]
    have hw : waitingPaths {} off ph = [] := by
      have : waitingLanes {} off ph = 0 := by
        simp only [waitingLanes, kvGet_nil]
        rfl
      simp only [waitingPaths, this, (lanesOf_eq_nil 0).2 rfl, List.map_nil, List.eraseDups_nil]
    simp only [releaseGroup, hg, hw, List.foldl_nil, kvMod, hx, ite_self]
  | some x =>
    have hg : getGroup s k = x := by simp only [getGroup, kvGetD, hx, Option.getD_some]
    simp only [releaseGroup, hg, kvMod, hx, releasedGroup]
    split
    · rename_i ht
      rw [releaseGroup_fold _ s x hx (by rw [ht.1]; exact h)]
    · rw [kvSet_self _ hx]

theorem waiting_iff (x : Group) (off : Nat) (ph : Option Nat) (l : Nat) : inMask (waitingLanes x off ph) l = true ↔
    l < 64 ∧ ∃ f, kvGet x.fibres l = some f ∧ waitsAt off ph f = true := by
  simp only [waitingLanes, inMask_maskOf, Bool.and_eq_true, decide_eq_true_eq]
  cases kvGet x.fibres l <;> simp

/-- The release of a group that holds waiting fibres, or none. -/
theorem releasedGroup_law (s : State) (t off : Nat) (ph : Option Nat) (ok : Bool) (k : Nat) (x : Group) :
    let freed := fun l f => l < 64 ∧ kvGet x.fibres l = some f ∧ x.place.team = t ∧ (getCtx s x.place.owner).fatal = none ∧ waitsAt off ph f = true
    let y := releasedGroup s t off ph ok k x
    ((∀ l f, ¬ freed l f) → y = x) ∧
    ((∃ l f, freed l f) →
      y = { setGp x 15 ok with fibres := y.fibres, sched := { x.sched with holds := y.sched.holds } } ∧
      (∀ l, kvGet y.fibres l = (kvGet x.fibres l).map fun f =>
        if l < 64 ∧ waitsAt off ph f = true then { f with st := .resident, pc := f.pc + 4 } else f) ∧
      (∀ l f, freed l f → ∃ hd ∈ y.sched.holds, inMask hd.mask l = true ∧ hd.until_ = s.dev.clock + barHold s k x) ∧
      ∀ hd ∈ x.sched.holds, hd ∈ y.sched.holds) := by
  intro freed y
  have law := returnedAll_law ok (s.dev.clock + barHold s k x) x (waitingLanes x off ph)
    ((lanesOf (waitingLanes x off ph)).map fun l => (getFibre x l).pc).eraseDups x
  have hmem : ∀ q, q ∈ ((lanesOf (waitingLanes x off ph)).map fun l => (getFibre x l).pc).eraseDups ↔
      ∃ l, inMask (waitingLanes x off ph) l = true ∧ (getFibre x l).pc = q := by
    intro q; simp only [List.mem_eraseDups, List.mem_map, mem_lanesOf]
  refine ⟨fun hno => ?_, fun ⟨l0, f0, hf0⟩ => ?_⟩
  · by_cases ht : x.place.team = t ∧ (getCtx s x.place.owner).fatal.isNone = true
    · have hm : waitingPaths x off ph = [] := by
        have : lanesOf (waitingLanes x off ph) = [] := by
          rw [List.eq_nil_iff_forall_not_mem]
          intro l hl
          obtain ⟨h1, f, h2, h3⟩ := (waiting_iff x off ph l).1 ((mem_lanesOf _ _).1 hl)
          exact hno l f ⟨h1, h2, ht.1, Option.isNone_iff_eq_none.1 ht.2, h3⟩
        simp only [waitingPaths, this, List.map_nil, List.eraseDups_nil]
      simp only [y, releasedGroup, if_pos ht, hm, returnedAll, List.foldl_nil]
    · simp only [y, releasedGroup, if_neg ht]
  · have ht : x.place.team = t ∧ (getCtx s x.place.owner).fatal.isNone = true := ⟨hf0.2.2.1, by rw [hf0.2.2.2.1]; rfl⟩
    have hy : y = returnedAll ok (s.dev.clock + barHold s k x) x (waitingPaths x off ph) := by
      simp only [y, releasedGroup, if_pos ht]
    have hw0 := (waiting_iff x off ph l0).2 ⟨hf0.1, f0, hf0.2.1, hf0.2.2.2.2⟩
    have hne : ((lanesOf (waitingLanes x off ph)).map fun l => (getFibre x l).pc).eraseDups ≠ [] := by
      intro hnil
      have := (hmem (getFibre x l0).pc).2 ⟨l0, hw0, rfl⟩
      rw [hnil] at this; cases this
    obtain ⟨a1, a2, a3, a4, a5⟩ := law
    rw [if_neg hne] at a2
    have hyw : y = returnedAll ok (s.dev.clock + barHold s k x) x ((((lanesOf (waitingLanes x off ph)).map fun l => (getFibre x l).pc).eraseDups).map
      fun q => (q, maskOf fun l => inMask (waitingLanes x off ph) l && (getFibre x l).pc == q)) := hy
    rw [← hyw] at a1 a2 a3 a4 a5
    refine ⟨?_, fun l => ?_, fun l f hf => ?_, a5⟩
    · rw [a1, setGp_fields, a2]
    · rw [a3 l]
      cases hx : kvGet x.fibres l with
      | none => rfl
      | some f =>
        have hgf : getFibre x l = f := by simp only [getFibre, kvGetD, hx, Option.getD_some]
        simp only [Option.map_some, hgf]
        by_cases hc : l < 64 ∧ waitsAt off ph f = true
        · have hi := (waiting_iff x off ph l).2 ⟨hc.1, f, hx, hc.2⟩
          rw [if_pos hc, if_pos ⟨hc.1, hi, (hmem _).2 ⟨l, hi, by rw [hgf]⟩⟩]
        · rw [if_neg hc, if_neg]
          rintro ⟨h1, h2, -⟩
          obtain ⟨-, f', h3, h4⟩ := (waiting_iff x off ph l).1 h2
          rw [hx] at h3; cases h3; exact hc ⟨h1, h4⟩
    · have hi := (waiting_iff x off ph l).2 ⟨hf.1, f, hf.2.1, hf.2.2.2.2⟩
      obtain ⟨hd, h1, h2, h3⟩ := a4 _ ((hmem (getFibre x l).pc).2 ⟨l, hi, rfl⟩)
      refine ⟨hd, h1, ?_, h2⟩
      rw [h3, inMask_maskOf]; simp [hf.1, hi]

/-- The waiters at a barrier of a team are released. -/
theorem releaseWaiters_law {t off : Nat} (ph : Option Nat) {b : Bar} {s : State}
    (h : b.invalid = true ∨ b.error = false ∨ NoCopyFault s t off b.gen) :
    Released s (releaseWaiters t off ph b s) t off ph (!b.invalid && !b.error) := by
  have go : ∀ (ks : List Nat) (v : State), ks.Nodup →
      (b.invalid = true ∨ b.error = false ∨ NoCopyFault v t off b.gen) → v = { s with groups := v.groups } →
      ks.foldl (releaseGroup t off ph b) v = { s with groups := (ks.foldl (releaseGroup t off ph b) v).groups } ∧
      ∀ k, kvGet (ks.foldl (releaseGroup t off ph b) v).groups k =
        if k ∈ ks then (kvGet v.groups k).map (releasedGroup s t off ph (!b.invalid && !b.error) k) else kvGet v.groups k := by
    intro ks
    induction ks with
    | nil => intro v _ _ hv; exact ⟨hv, fun k => by simp⟩
    | cons j ks ih =>
      intro v hn hf hv
      rw [List.foldl_cons, releaseGroup_law hf]
      have hr : releasedGroup v t off ph (!b.invalid && !b.error) j = releasedGroup s t off ph (!b.invalid && !b.error) j := by
        have : ∀ x, barHold v j x = barHold s j x := fun x => by rw [hv]; rfl
        funext x; simp only [releasedGroup, this]; rw [hv]; rfl
      rw [hr]
      have hnd := List.nodup_cons.1 hn
      obtain ⟨i1, i2⟩ := ih { v with groups := kvMod v.groups j (releasedGroup s t off ph (!b.invalid && !b.error) j) } hnd.2 (by
          rcases hf with hf | hf | hf
          · exact .inl hf
          · exact .inr (.inl hf)
          · refine .inr (.inr fun k x hx ht o ho hc => ?_)
            simp only [kvGet_kvMod] at hx
            split at hx
            · subst_vars
              obtain ⟨w, hw, hx⟩ := Option.map_eq_some_iff.1 hx
              obtain ⟨l1, l2⟩ := releasedGroup_law s x.place.team off ph (!b.invalid && !b.error) k w
              have hp : x.place = w.place ∧ x.ops = w.ops := by
                by_cases he : ∃ l f, l < 64 ∧ kvGet w.fibres l = some f ∧ w.place.team = x.place.team ∧
                    (getCtx s w.place.owner).fatal = none ∧ waitsAt off ph f = true
                · have := (l2 he).1
                  rw [hx] at this
                  rw [this, setGp_fields]; exact ⟨rfl, rfl⟩
                · have := l1 fun l f hh => he ⟨l, f, hh⟩
                  rw [hx] at this; rw [this]; exact ⟨rfl, rfl⟩
              exact hf k w hw (by rw [hp.1]) o (by rw [← hp.2]; exact ho) hc
            · exact hf k x hx ht o ho hc) (by rw [hv])
      refine ⟨i1, fun k => ?_⟩
      rw [i2 k]
      simp only [List.mem_cons]
      by_cases hkj : k = j
      · subst hkj
        rw [if_neg hnd.1]; simp
      · simp only [kvGet_kvMod_ne _ _ hkj, hkj, false_or]
  obtain ⟨g1, g2⟩ := go (s.groups.map fun e => e.1).eraseDups s (nodup_eraseDups _) h rfl
  refine ⟨g1, fun k => ?_⟩
  cases hk : kvGet s.groups k with
  | none =>
    simp only
    show kvGet ((s.groups.map fun e => e.1).eraseDups.foldl (releaseGroup t off ph b) s).groups k = none
    rw [g2 k, hk]; simp
  | some x =>
    have hin : k ∈ (s.groups.map fun e => e.1).eraseDups := by
      rw [List.mem_eraseDups, List.mem_map]
      exact ⟨(k, x), mem_of_kvGet hk, rfl⟩
    have hu : kvGet (releaseWaiters t off ph b s).groups k = some (releasedGroup s t off ph (!b.invalid && !b.error) k x) := by
      show kvGet ((s.groups.map fun e => e.1).eraseDups.foldl (releaseGroup t off ph b) s).groups k = _
      rw [g2 k, hk, if_pos hin]; rfl
    obtain ⟨l1, l2⟩ := releasedGroup_law s t off ph (!b.invalid && !b.error) k x
    exact ⟨fun hno => by rw [hu, l1 hno], fun hex => ⟨_, hu, l2 hex⟩⟩

end Sys2Proof.Laws
end

