-- ==== Sys2Proof/Laws/Lines.lean ====
section
/-! SUPPORT. The bytes of L1 lines, and which line of a core's L1 an address finds, said once. -/

namespace Sys2Proof.Laws

open Sys2Proof Sys2Proof.Machine

theorem testBit_natOfBytes (bs : List Byte) (i j : Nat) (hj : j < 8) :
    (natOfBytes bs).testBit (8 * i + j) = (bs.getD i 0).getLsbD j := by
  induction bs generalizing i with
  | nil => simp [natOfBytes]
  | cons b bs ih =>
    have hb : b.toNat < 2 ^ 8 := b.isLt
    have e : b.toNat + 256 * natOfBytes bs = 2 ^ 8 * natOfBytes bs + b.toNat := by omega
    rw [natOfBytes, e]
    cases i with
    | zero =>
      rw [Nat.testBit_two_pow_mul_add _ hb]
      simp [hj, BitVec.getLsbD]
    | succ i =>
      rw [Nat.testBit_two_pow_mul_add _ hb, if_neg (by omega), show 8 * (i + 1) + j - 8 = 8 * i + j by omega, ih i]
      simp

theorem testBit_natOfBytes_ge (bs : List Byte) (k : Nat) (h : 8 * bs.length ≤ k) : (natOfBytes bs).testBit k = false := by
  have : k = 8 * (k / 8) + k % 8 := by omega
  rw [this, testBit_natOfBytes _ _ _ (Nat.mod_lt _ (by decide))]
  have : bs.length ≤ k / 8 := by omega
  simp [List.getD, List.getElem?_eq_none this]

theorem testBit_span (w lo n k : Nat) : (spanMask w lo n).testBit k = (decide (w * lo ≤ k) && decide (k < w * lo + w * n)) := by
  unfold spanMask
  rw [← Nat.shiftLeft_eq, Nat.testBit_shiftLeft, Nat.testBit_two_pow_sub_one]
  by_cases h : w * lo ≤ k
  · have : decide (k - w * lo < w * n) = decide (k < w * lo + w * n) := by
      apply decide_eq_decide.2; omega
    rw [this]
  · simp [h]

/-- A byte of a line. -/
def byteAt (l : Line) (k : Nat) : Byte := l.data.extractLsb' (8 * k) 8

theorem lineBytes_eq (l : Line) (pa n : Nat) : lineBytes l pa n = (List.range n).map fun i => byteAt l (pa - l.pa + i) := rfl

theorem byteAt_fresh (l : Line) (bs : List Byte) (h : l.data = BitVec.ofNat 1024 (natOfBytes bs)) (k : Nat) (hk : k < 128) :
    byteAt l k = bs.getD k 0 := by
  unfold byteAt
  rw [h]
  apply BitVec.eq_of_getLsbD_eq
  intro j hj
  rw [BitVec.getLsbD_extractLsb', BitVec.getLsbD_ofNat, testBit_natOfBytes _ _ _ hj]
  have : decide (8 * k + j < 1024) = true := by simp only [decide_eq_true_eq]; omega
  simp [hj, this]

theorem byteAt_store (l : Line) (pa : Nat) (bs : List Byte) (tag : Nat) (thr : Bool) (k : Nat) (hk : k < 128) (hl : l.pa ≤ pa) :
    byteAt (lineStore l pa bs tag thr) k =
      if pa - l.pa ≤ k ∧ k < pa - l.pa + bs.length then bs.getD (k - (pa - l.pa)) 0 else byteAt l k := by
  generalize hlo : pa - l.pa = lo
  unfold byteAt lineStore
  simp only [hlo]
  apply BitVec.eq_of_getLsbD_eq
  intro j hj
  have h1 : decide (8 * k + j < 1024) = true := by simp only [decide_eq_true_eq]; omega
  rw [BitVec.getLsbD_extractLsb', BitVec.getLsbD_or, BitVec.getLsbD_and, BitVec.getLsbD_not, BitVec.getLsbD_ofNat, BitVec.getLsbD_ofNat, testBit_span,
    ← Nat.shiftLeft_eq, Nat.testBit_shiftLeft, h1]
  simp only [hj, decide_true, Bool.true_and]
  by_cases hin : lo ≤ k ∧ k < lo + bs.length
  · rw [if_pos hin]
    have a1 : decide (8 * lo ≤ 8 * k + j) = true := by simp only [decide_eq_true_eq]; omega
    have a2 : decide (8 * k + j < 8 * lo + 8 * bs.length) = true := by simp only [decide_eq_true_eq]; omega
    have a3 : 8 * k + j ≥ 8 * lo := by omega
    rw [a1, a2, show 8 * k + j - 8 * lo = 8 * (k - lo) + j by omega, testBit_natOfBytes _ _ _ hj]
    simp [a3]
  · rw [if_neg hin, BitVec.getLsbD_extractLsb']
    simp only [hj, decide_true, Bool.true_and]
    by_cases h2 : lo ≤ k
    · have a2 : decide (8 * k + j < 8 * lo + 8 * bs.length) = false := by simp only [decide_eq_false_iff_not]; omega
      have a3 : (natOfBytes bs).testBit (8 * k + j - 8 * lo) = false := testBit_natOfBytes_ge _ _ (by omega)
      simp [a2, a3]
    · have a1 : decide (8 * lo ≤ 8 * k + j) = false := by simp only [decide_eq_false_iff_not]; omega
      simp [a1]

theorem memBytes_getD (m : List Host.Cell) (a n k : Nat) (h : k < n) : (memBytes m a n).getD k 0 = memByte m (a + k) := by
  induction n generalizing a k with
  | zero => omega
  | succ n ih =>
    cases k with
    | zero => simp [memBytes]
    | succ k =>
      simp only [memBytes, List.getD_cons_succ]
      rw [ih (a + 1) k (by omega)]; congr 1; omega

theorem memBytes_map (m : List Host.Cell) (a n : Nat) : memBytes m a n = (List.range n).map fun i => memByte m (a + i) := by
  apply List.ext_getElem
  · simp
  · intro i h1 h2
    have hi : i < n := by simpa using h1
    have := memBytes_getD m a n i hi
    rw [List.getD_eq_getElem?_getD, List.getElem?_eq_getElem h1, Option.getD_some] at this
    rw [this]; simp

/-! ## Which line an address finds -/

theorem findSome_congr {α β : Type} {f g : α → Option β} {l : List α} (h : ∀ x ∈ l, f x = g x) :
    l.findSome? f = l.findSome? g := by
  induction l with
  | nil => rfl
  | cons a l ih => simp only [List.findSome?_cons, h a (by simp), ih fun x hx => h x (by simp [hx])]

theorem l1Find_some {c : Core} {pa w : Nat} {l : Line} (h : l1Find c pa = some (w, l)) :
    w < 16 ∧ kvGet c.l1 (l1Set pa * 16 + w) = some l ∧ l.pa = lineOf pa := by
  unfold l1Find at h
  obtain ⟨x, hx, hf⟩ := List.exists_of_findSome?_eq_some h
  have hx' := List.mem_range.1 hx
  cases hk : kvGet c.l1 (l1Set pa * 16 + x) with
  | none => rw [hk] at hf; cases hf
  | some y =>
    rw [hk] at hf
    simp only at hf
    split at hf
    · rename_i hp; cases hf; exact ⟨hx', hk, hp⟩
    · cases hf

theorem l1Find_none {c : Core} {pa : Nat} : l1Find c pa = none ↔
    ∀ w, w < 16 → ∀ l, kvGet c.l1 (l1Set pa * 16 + w) = some l → l.pa ≠ lineOf pa := by
  unfold l1Find
  rw [List.findSome?_eq_none_iff]
  simp only [List.mem_range]
  constructor
  · intro h w hw l hl
    have := h w hw
    rw [hl] at this
    simp only at this
    split at this
    · cases this
    · assumption
  · intro h w hw
    cases hk : kvGet c.l1 (l1Set pa * 16 + w) with
    | none => rfl
    | some l => simp only; rw [if_neg (h w hw l hk)]

theorem lineOf_eq {a b : Nat} (h : lineOf a = lineOf b) : l1Set a = l1Set b := by
  unfold lineOf at h
  have : a / 128 = b / 128 := by omega
  simp only [l1Set, field]; rw [show (2 : Nat) ^ 7 = 128 by decide, this]

theorem l1Find_line (c : Core) {a b : Nat} (h : lineOf a = lineOf b) : l1Find c a = l1Find c b := by
  unfold l1Find; rw [lineOf_eq h, h]

/-- A line is put where its address found it, or where none was. -/
theorem l1Find_put (c : Core) (pa w : Nat) (l : Line) (hw : w < 16) (hl : l.pa = lineOf pa)
    (hc : (∃ l0, l1Find c pa = some (w, l0)) ∨ (l1Find c pa = none)) :
    l1Find { c with l1 := kvSet c.l1 (l1Set pa * 16 + w) l } pa = some (w, l) := by
  have hbefore : ∀ v, v < w → ∀ y, kvGet c.l1 (l1Set pa * 16 + v) = some y → y.pa ≠ lineOf pa := by
    intro v hv y hy
    rcases hc with ⟨l0, h0⟩ | h0
    · intro he
      unfold l1Find at h0
      have h1 := h0
      rw [List.findSome?_eq_some_iff] at h1
      obtain ⟨l1, x, l2, e1, e2, e3⟩ := h1
      have hxw : x = w := by
        cases hk : kvGet c.l1 (l1Set pa * 16 + x) with
        | none => rw [hk] at e2; cases e2
        | some z =>
          rw [hk] at e2; simp only at e2; split at e2
          · cases e2; rfl
          · cases e2
      subst hxw
      have hvm : v ∈ l1 := by
        have hlen : l1 = (List.range 16).take l1.length := by rw [e1]; simp
        have hx : x = l1.length := by
          have : (List.range 16)[l1.length]? = some x := by rw [e1]; simp
          rw [List.getElem?_range] at this
          · simpa using this.symm
          · have := congrArg List.length e1; simp at this; omega
        rw [hlen, List.take_range]
        simp; omega
      have := e3 v hvm
      rw [hy] at this
      simp [he] at this
    · exact l1Find_none.1 h0 v (by omega) y hy
  unfold l1Find
  rw [List.findSome?_eq_some_iff]
  refine ⟨List.range w, w, (List.range 16).drop (w + 1), ?_, ?_, ?_⟩
  · have : w = (List.range 16)[w]'(by simpa using hw) := by simp
    conv => lhs; rw [← List.take_append_drop w (List.range 16)]
    rw [List.drop_eq_getElem_cons (by simpa using hw), List.take_range, show min w 16 = w by omega]
    simp
  · simp only [kvGet_kvSet_same, hl, if_true]
  · intro v hv
    have hv' := List.mem_range.1 hv
    simp only
    rw [kvGet_kvSet_ne _ _ (by omega)]
    cases hk : kvGet c.l1 (l1Set pa * 16 + v) with
    | none => rfl
    | some y => simp only; rw [if_neg (hbefore v hv' y hk)]

/-- Other addresses find the lines that they found. -/
theorem l1Find_put_other (c : Core) (pa w : Nat) (l : Line) (hw : w < 16) (hl : l.pa = lineOf pa)
    (hc : kvGet c.l1 (l1Set pa * 16 + w) = none ∨ ∃ l0, kvGet c.l1 (l1Set pa * 16 + w) = some l0 ∧ l0.pa = lineOf pa)
    (x : Nat) (hx : lineOf x ≠ lineOf pa) : l1Find { c with l1 := kvSet c.l1 (l1Set pa * 16 + w) l } x = l1Find c x := by
  unfold l1Find
  apply findSome_congr
  intro v hv
  have hv' := List.mem_range.1 hv
  simp only [kvGet_kvSet]
  by_cases he : l1Set x * 16 + v = l1Set pa * 16 + w
  · rw [if_pos he, he]
    simp only
    rw [if_neg (by rw [hl]; exact fun h => hx h.symm)]
    rcases hc with h | ⟨l0, h, h0⟩
    · rw [h]
    · rw [h]; simp only; rw [if_neg (by rw [h0]; exact fun h => hx h.symm)]
  · rw [if_neg he]

end Sys2Proof.Laws
end

