-- ==== Sys2Proof/Laws/Access.lean ====
section
/-! SUPPORT. What one access does, said once: what it reads, and what a store leaves. -/

namespace Sys2Proof.Laws

open Sys2Proof Sys2Proof.Machine

theorem keeps_sliceAccess (w : Who) (pa : Nat) (home : BitVec 2) (s : State) : Keeps s (sliceAccess w pa home s) fun _ => [] := by
  unfold sliceAccess
  split
  · exact keeps_refl s
  · simp only
    have hmod : ∀ (n : Nat) (f : Slice → Slice) (s : State), Keeps s (modSlice n f s) fun _ => [] := fun n f s =>
      ⟨⟨rfl, rfl, fun _ => rfl, fun _ => rfl, fun _ => by simp [svcQ, modSlice]⟩, rfl⟩
    have h1 : Keeps s (match findSliceBank s (sliceOf pa) w.owner with
        | some _ => residentSliceBank (sliceOf pa) w.owner s
        | none => modSlice (sliceOf pa) (fun x => { x with
            wanted := if x.wanted.contains w.owner then x.wanted else w.owner :: x.wanted }) s) fun _ => [] := by
      cases hf : findSliceBank s (sliceOf pa) w.owner with
      | none => exact hmod _ _ _
      | some b => simp only [residentSliceBank, hf]; exact hmod _ _ _
    refine keeps_trans h1 (keeps_trans ?_ (keeps_countEvent _ _ _ _ _ _ _))
    exact ⟨⟨rfl, rfl, fun _ => rfl, fun _ => rfl, fun _ => by simp only [List.append_nil]; rfl⟩, rfl⟩

theorem caches_refl (s : State) : OnlyCaches s s := rfl

theorem caches_trans {a b c : State} (h1 : OnlyCaches a b) (h2 : OnlyCaches b c) : OnlyCaches a c := by
  unfold OnlyCaches at *
  rw [h2, h1]

theorem caches_modCore (s : State) (c : Nat) (f : Core → Core) : OnlyCaches s (modCore s c f) := rfl

/-- What changes no byte that a core sees, and no prefetch in flight. -/
def Quiet (s u : State) : Prop :=
  OnlyCaches s u ∧ ∀ c, (getCore u c).l1 = (getCore s c).l1 ∧ (getCore u c).sram = (getCore s c).sram ∧
    (getCore u c).pfSlots = (getCore s c).pfSlots

theorem quiet_refl (s : State) : Quiet s s := ⟨caches_refl s, fun _ => ⟨rfl, rfl, rfl⟩⟩

theorem quiet_trans {a b c : State} (h1 : Quiet a b) (h2 : Quiet b c) : Quiet a c :=
  ⟨caches_trans h1.1 h2.1, fun k => ⟨(h2.2 k).1.trans (h1.2 k).1, (h2.2 k).2.1.trans (h1.2 k).2.1,
    (h2.2 k).2.2.trans (h1.2 k).2.2⟩⟩

/-- A change of a core that leaves its lines, pages and prefetches. -/
theorem quiet_modCore (s : State) (n : Nat) (f : Core → Core)
    (hf : ∀ c, (f c).l1 = c.l1 ∧ (f c).sram = c.sram ∧ (f c).pfSlots = c.pfSlots) : Quiet s (modCore s n f) := by
  refine ⟨caches_modCore _ _ _, fun c => ?_⟩
  rw [getCore_modCore]
  split
  · subst_vars; exact hf _
  · exact ⟨rfl, rfl, rfl⟩

theorem quiet_countEvent (core dom id w pc entry : Nat) (s : State) : Quiet s (countEvent core dom id w pc entry s) := by
  unfold countEvent
  simp only
  split
  · exact quiet_refl s
  · have h1 : Quiet s (deviceAdd id w (domainAdd dom id w s)) := by
      unfold domainAdd
      split
      · exact ⟨rfl, fun _ => ⟨rfl, rfl, rfl⟩⟩
      · exact ⟨rfl, fun _ => ⟨rfl, rfl, rfl⟩⟩
    refine quiet_trans h1 ?_
    unfold sketchEvent
    simp only
    split
    · exact quiet_modCore _ _ _ fun _ => ⟨rfl, rfl, rfl⟩
    · exact quiet_refl _

theorem quiet_meetSoft (w : Who) (pa : Nat) (s : State) : Quiet s (meetSoft w pa s) := by
  unfold meetSoft
  split
  · exact quiet_countEvent _ _ _ _ _ _ _
  · exact quiet_refl s

theorem quiet_sliceAccess (w : Who) (pa : Nat) (home : BitVec 2) (s : State) : Quiet s (sliceAccess w pa home s) := by
  unfold sliceAccess
  split
  · exact quiet_refl s
  · simp only
    refine quiet_trans ?_ (quiet_countEvent _ _ _ _ _ _ _)
    cases hf : findSliceBank s (sliceOf pa) w.owner with
    | none => exact ⟨rfl, fun _ => ⟨rfl, rfl, rfl⟩⟩
    | some b => simp only [residentSliceBank, hf]; exact ⟨rfl, fun _ => ⟨rfl, rfl, rfl⟩⟩

theorem quiet_mem {s u : State} (h : Quiet s u) : u.mem = s.mem ∧ u.teams = s.teams ∧ u.net = s.net := by
  rw [h.1]; exact ⟨rfl, rfl, rfl⟩

theorem l1Find_core {c d : Core} (h : c.l1 = d.l1) (pa : Nat) : l1Find c pa = l1Find d pa := by unfold l1Find; rw [h]

theorem l1Ways_quiet {s u : State} (h : Quiet s u) (core : Nat) : l1Ways u core = l1Ways s core := by
  simp only [l1Ways, pinnedBytes, (quiet_mem h).2.1, (h.2 core).2.1]

theorem seen_quiet {s u : State} (h : Quiet s u) (core : Nat) (l : Loc) (n : Nat) : seenBytes u core l n = seenBytes s core l n := by
  cases l with
  | loc t off => simp only [seenBytes, getTeam, (quiet_mem h).2.1]
  | glob pa home hcore => simp only [seenBytes, l1Find_core (h.2 core).1, (quiet_mem h).1, sramRead, (h.2 hcore).2.1]

theorem served_quiet {s u : State} (h : Quiet s u) {core : Nat} {l : Loc} {n : Nat} (hs : ServedHere s core l n) :
    ServedHere u core l n := by
  obtain ⟨hm, ht, hn⟩ := quiet_mem h
  cases l with
  | loc t off => simp only [ServedHere, getTeam, ht] at hs ⊢; exact hs
  | glob pa home hcore =>
    have hp : peerOf u pa = peerOf s pa := by unfold peerOf; rw [hn]
    simp only [ServedHere, MemOk, hm, hp, l1Find_core (h.2 core).1, (h.2 core).2.2, l1Ways_quiet h, (h.2 core).1, (h.2 hcore).2.1] at hs ⊢
    exact hs

/-- A store to global memory made after what changes no byte. -/
theorem storeMade_after {s v u : State} (h : Quiet s v) {core scope pa hcore : Nat} {home : BitVec 2} {bs : List Byte}
    (hs : StoreMade v u core scope (.glob pa home hcore) bs) : StoreMade s u core scope (.glob pa home hcore) bs := by
  obtain ⟨h1, a1, a2, a3⟩ := hs
  refine ⟨h1, ?_, fun x hx => by rw [a2 x hx, seen_quiet h], by rwa [(quiet_mem h).1] at a3⟩
  have e : OnlyCaches { s with mem := u.mem } { v with mem := u.mem } := by
    show _ = _
    conv => lhs; rw [h.1]
  exact caches_trans e a1

/-- The line of a cached access: it is in the L1 afterwards, with the bytes that the core saw. -/
theorem l1Line_law (w : Who) (pa n : Nat) (home : BitVec 2) (s : State) (hcore : Nat) (hc : cachedHome home = true)
    (h : ServedHere s w.core (.glob pa home hcore) n) :
    let r := l1Line w pa home s
    OnlyCaches s r.2.2 ∧ r.2.1.pa = lineOf pa ∧ r.1 < 16 ∧
    (∃ l, l1Find (getCore r.2.2 w.core) pa = some (r.1, l) ∧ l.pa = lineOf pa ∧ l.data = r.2.1.data) ∧
    (∀ k, k < 128 → byteAt r.2.1 k = (seenBytes s w.core (.glob (lineOf pa + k) home hcore) 1).getD 0 0) ∧
    ∀ x, lineOf x ≠ lineOf pa → l1Find (getCore r.2.2 w.core) x = l1Find (getCore s w.core) x := by
  obtain ⟨hm, h1, h2, h3, h4⟩ := h
  rw [if_pos hc] at h4
  have hline : ∀ k, k < 128 → lineOf (lineOf pa + k) = lineOf pa := by intro k hk; unfold lineOf; omega
  intro r
  cases hf : l1Find (getCore s w.core) pa with
  | some x =>
    obtain ⟨v, l⟩ := x
    obtain ⟨f1, f2, f3⟩ := l1Find_some hf
    have hr : r = (v, l, l1Hit w.core v l w.owner s) := by
      simp only [r, l1Line, hf, Option.isSome_some, if_true]
    rw [hr]
    let l' : Line := { l with rrpv := 0, reused := l.reused || l.owner == w.owner, prefetched := false }
    have hcore : (getCore (l1Hit w.core v l w.owner s) w.core).l1 = kvSet (getCore s w.core).l1 (l1Set pa * 16 + v) l' := by
      have hset : l1Set l.pa = l1Set pa := lineOf_eq (by rw [f3]; unfold lineOf; omega)
      unfold l1Hit
      simp only
      split
      · simp only [modBank, getCore_modCore, l1Put, if_true, hset, l']
      · simp only [getCore_modCore, l1Put, if_true, hset, l']
    have hfind : ∀ (c : Core) (x : Nat), l1Find c x = l1Find { getCore s w.core with l1 := c.l1 } x := fun _ _ => rfl
    refine ⟨?_, f3, f1, ⟨l', ?_, f3, rfl⟩, fun k hk => ?_, fun x hx => ?_⟩
    · unfold l1Hit; simp only; split
      · exact caches_trans (caches_modCore _ _ _) (caches_modCore _ _ _)
      · exact caches_modCore _ _ _
    · rw [hfind, hcore]
      exact l1Find_put _ pa v l' f1 f3 (.inl ⟨l, hf⟩)
    · have : l1Find (getCore s w.core) (lineOf pa + k) = some (v, l) := by rw [l1Find_line _ (hline k hk), hf]
      simp only [seenBytes, hc, if_true, this, byteAt, f3]
      simp [show lineOf pa + k - lineOf pa = k by omega]
    · rw [hfind, hcore]
      exact l1Find_put_other _ pa v l' f1 f3 (.inr ⟨l, f2, f3⟩) x hx
  | none =>
    obtain ⟨hpf, v0, hv0, hfree⟩ := h4.resolve_left fun ⟨x, hx⟩ => by rw [hf] at hx; cases hx
    let s1 := sliceAccess w pa home s
    have q1 : Quiet s s1 := quiet_sliceAccess w pa home s
    let s2 := modBank w.core w.owner id s1
    have q2 : Quiet s1 s2 := quiet_modCore _ _ _ fun _ => ⟨rfl, rfl, rfl⟩
    have hwait : awaitPrefetch w.core pa s = s := by
      unfold awaitPrefetch
      rw [List.find?_eq_none.2 fun e he => by simpa using hpf e he]
    have hr : r = l1Install w.core w.owner (l1SigIndex w.pc) pa home false s1 := by
      simp only [r, l1Line, hf, Option.isSome_none, Bool.false_eq_true, if_false, hwait]; rfl
    have c3 : OnlyCaches s s2 := (quiet_trans q1 q2).1
    have hl1 : (getCore s1 w.core).l1 = (getCore s w.core).l1 := (q1.2 w.core).1
    have hl2 : (getCore s2 w.core).l1 = (getCore s w.core).l1 := ((quiet_trans q1 q2).2 w.core).1
    have hways : l1Ways s1 w.core = l1Ways s w.core := l1Ways_quiet q1 _
    have h16 : l1Ways s w.core ≤ 16 := by simp only [l1Ways]; omega
    have hfw : ∃ v, l1Free w.core (l1Set pa) s1 = (v, s1) ∧ v < 16 ∧ kvGet (getCore s w.core).l1 (l1Set pa * 16 + v) = none := by
      unfold l1Free
      simp only [hways, hl1]
      cases hfd : (((List.range (l1Ways s w.core)).map fun v => (v, kvGet (getCore s w.core).l1 (l1Set pa * 16 + v))).find? fun e => e.2.isNone) with
      | none =>
        rw [List.find?_eq_none] at hfd
        exact absurd (by simp [hfree]) (hfd (v0, kvGet (getCore s w.core).l1 (l1Set pa * 16 + v0)) (List.mem_map.2 ⟨v0, List.mem_range.2 hv0, rfl⟩))
      | some e =>
        have hmem := List.mem_of_find?_eq_some hfd
        have hnone := List.find?_some hfd
        obtain ⟨v, hv, rfl⟩ := List.mem_map.1 hmem
        refine ⟨v, rfl, by have := List.mem_range.1 hv; omega, by simpa using hnone⟩
    obtain ⟨v, e1, e2, e3⟩ := hfw
    have hmem : s2.mem = s.mem := by rw [c3]
    obtain ⟨l, hl, hlp, hld⟩ : ∃ l : Line, r = (v, l, l1Put w.core v l s2) ∧ l.pa = lineOf pa ∧
        l.data = BitVec.ofNat 1024 (natOfBytes (memBytes s.mem (lineOf pa) 128)) := by
      rw [hr]; simp only [l1Install, e1]
      exact ⟨_, rfl, rfl, by rw [← hmem]⟩
    have hset : l1Set l.pa = l1Set pa := lineOf_eq (by rw [hlp]; unfold lineOf; omega)
    have hcore : (getCore (l1Put w.core v l s2) w.core).l1 = kvSet (getCore s w.core).l1 (l1Set pa * 16 + v) l := by
      simp only [l1Put, getCore_modCore, if_true, hset, hl2]
    have hfind : ∀ (c : Core) (x : Nat), l1Find c x = l1Find { getCore s w.core with l1 := c.l1 } x := fun _ _ => rfl
    rw [hl]
    refine ⟨caches_trans c3 (show OnlyCaches s2 (l1Put w.core v l s2) from caches_modCore _ _ _), hlp, e2, ⟨l, ?_, hlp, rfl⟩, fun k hk => ?_, fun x hx => ?_⟩
    · rw [hfind, hcore]; exact l1Find_put _ pa v l e2 hlp (.inr hf)
    · have : l1Find (getCore s w.core) (lineOf pa + k) = none := by rw [l1Find_line _ (hline k hk), hf]
      rw [byteAt_fresh l _ hld k hk, memBytes_getD _ _ _ _ hk]
      simp [seenBytes, hc, this, memBytes]
    · rw [hfind, hcore]; exact l1Find_put_other _ pa v l e2 hlp (.inl e3) x hx

/-- A core's L1 gives up no line where none shares a byte. -/
theorem dropRange_law {s : State} {core pa n : Nat} (hm : MemOk s)
    (h : ∀ e ∈ (getCore s core).l1, rangesMeet e.2.pa 128 pa n = false) :
    OnlyCaches s (dropRange core pa n s) ∧ ∀ c, getCore (dropRange core pa n s) c = getCore s c := by
  have hfold : ∀ (ls : KV Line) (v : State), (∀ e ∈ ls, rangesMeet e.2.pa 128 pa n = false) →
      ls.foldl (fun s e => if rangesMeet e.2.pa 128 pa n then writeBack e.2 s else s) v = v := by
    intro ls
    induction ls with
    | nil => intro v _; rfl
    | cons e ls ih =>
      intro v hv
      rw [List.foldl_cons, hv e (by simp)]
      exact ih _ fun x hx => hv x (by simp [hx])
  have : dropRange core pa n s = modCore s core fun c => { c with l1 := c.l1.filter fun e => !rangesMeet e.2.pa 128 pa n } := by
    simp only [dropRange, flushLines]
    rw [hfold _ _ h]
  rw [this]
  refine ⟨caches_modCore _ _ _, fun c => ?_⟩
  rw [getCore_modCore]
  by_cases hcc : c = core
  · rw [if_pos hcc, hcc]
    have : (getCore s core).l1.filter (fun e => !rangesMeet e.2.pa 128 pa n) = (getCore s core).l1 :=
      List.filter_eq_self.2 fun e he => by rw [h e he]; rfl
    rw [this]
  · rw [if_neg hcc]

theorem quiet_dropRange {s : State} {core pa n : Nat} (hm : MemOk s)
    (h : ∀ e ∈ (getCore s core).l1, rangesMeet e.2.pa 128 pa n = false) : Quiet s (dropRange core pa n s) := by
  obtain ⟨h1, h2⟩ := dropRange_law hm h
  exact ⟨h1, fun c => by rw [h2 c]; exact ⟨rfl, rfl, rfl⟩⟩

theorem touchPage_there {s : State} {hcore pa : Nat} {p : SramPage}
    (h : (getCore s hcore).sram.find? (fun p => p.pa == pa / 65536 * 65536) = some p) : touchPage hcore pa s = s := by
  unfold touchPage
  simp only
  rw [if_pos]
  rw [List.any_eq_true]
  refine ⟨p, List.mem_of_find?_eq_some h, ?_⟩
  have := List.find?_some h
  exact this

theorem range_line {pa n i : Nat} (h : pa % 128 + n ≤ 128) (hi : i < n) : pa - lineOf pa + i < 128 ∧ lineOf pa + (pa - lineOf pa + i) = pa + i := by
  unfold lineOf; omega

/-- The bytes seen at an address range of one line, one by one. -/
theorem seen_each (s : State) (core pa n : Nat) (home : BitVec 2) (hcore : Nat) (h : pa % 128 + n ≤ 128) (hc : cachedHome home = true) :
    seenBytes s core (.glob pa home hcore) n = (List.range n).map fun i =>
      (seenBytes s core (.glob (lineOf pa + (pa - lineOf pa + i)) home hcore) 1).getD 0 0 := by
  simp only [seenBytes, hc, if_true]
  cases hf : l1Find (getCore s core) pa with
  | none =>
    simp only
    rw [memBytes_map]
    apply List.map_congr_left
    intro i hi
    have := range_line h (List.mem_range.1 hi)
    rw [this.2, l1Find_line (getCore s core) (b := pa) (by unfold lineOf at *; omega), hf]
    simp [memBytes]
  | some x =>
    obtain ⟨w, l⟩ := x
    simp only
    apply List.map_congr_left
    intro i hi
    have := range_line h (List.mem_range.1 hi)
    have hp := (l1Find_some hf).2.2
    rw [this.2, l1Find_line (getCore s core) (b := pa) (by unfold lineOf at *; omega), hf]
    simp [show pa + i - l.pa = pa - l.pa + i by rw [hp]; omega]

/-- Reading at the point of coherence reads what the core sees there. -/
theorem homeRead_law {s : State} {core pa n hcore : Nat} {home : BitVec 2} (hc : cachedHome home = false)
    (h : ServedHere s core (.glob pa home hcore) n) :
    homeRead pa n home hcore s = (seenBytes s core (.glob pa home hcore) n, s) := by
  obtain ⟨-, -, -, h4, h5⟩ := h
  rw [if_neg (by simp [hc])] at h5
  simp only [homeRead, seenBytes, hc, Bool.false_eq_true, if_false]
  by_cases hh : home = 2
  · obtain ⟨p, hp, -⟩ := h5.2 hh
    simp only [hh, if_true, touchPage_there hp]
  · simp only [hh, if_false, h4]

/-- A load's access reads what its core sees (R116, R119). -/
theorem readLoc_law (w : Who) (l : Loc) (n : Nat) (s : State) (h : ServedHere s w.core l n) :
    ∃ u, readLoc w l n s = (seenBytes s w.core l n, u) ∧ OnlyCaches s u := by
  cases l with
  | loc t off => exact ⟨s, rfl, rfl⟩
  | glob pa home hcore =>
    have q := quiet_meetSoft w pa s
    have h' := served_quiet q h
    rw [← seen_quiet q]
    simp only [readLoc]
    generalize meetSoft w pa s = v at *
    cases hc : cachedHome home with
    | true =>
      obtain ⟨a1, a2, a3, -, a4, -⟩ := l1Line_law w pa n home v hcore hc h'
      refine ⟨(l1Line w pa home v).2.2, ?_, caches_trans q.1 a1⟩
      simp only [if_true]
      rw [seen_each _ _ _ _ _ _ h'.2.2.1 hc, lineBytes_eq]
      congr 1
      apply List.map_congr_left
      intro i hi
      have := range_line h'.2.2.1 (List.mem_range.1 hi)
      rw [a2, a4 _ this.1]
    | false =>
      have h5 := h'.2.2.2.2
      rw [if_neg (by simp [hc])] at h5
      have d := quiet_dropRange h'.1 h5.1
      refine ⟨_, ?_, caches_trans q.1 d.1⟩
      simp only [Bool.false_eq_true, if_false]
      rw [homeRead_law hc (served_quiet d h'), seen_quiet d]

theorem map_range_getD (bs : List Byte) : (List.range bs.length).map (fun i => bs.getD i 0) = bs := by
  apply List.ext_getElem
  · simp
  · intro i h1 h2; simp [h2]

theorem memBytes_other {m : List Host.Cell} (a : Nat) (bs : List Byte) (hm : Memory.wf m = true) (x : Nat)
    (h : ¬ (a ≤ x ∧ x < a + bs.length)) : memByte (memPut m a bs) x = memByte m x := by
  rw [memByte_memPut _ _ hm, if_neg h]

/-- A cached store goes into the line that its core holds, and to memory at cluster scope or wider. -/
theorem writeLine_law (w : Who) (code scope pa hcore : Nat) (home : BitVec 2) (bs : List Byte) (s : State) (hc : cachedHome home = true)
    (h : ServedHere s w.core (.glob pa home hcore) bs.length) :
    let r := l1Line w pa home s
    let u := match l1Find (getCore r.2.2 w.core) pa with
      | some (v, l) => l1Put w.core v (lineStore l pa bs code (decide (3 ≤ scope))) r.2.2
      | none => r.2.2
    StoreMade s (if 3 ≤ scope then { sliceAccess w pa home u with mem := memPut (sliceAccess w pa home u).mem pa bs } else u)
      w.core scope (.glob pa home hcore) bs := by
  intro r0 u0
  obtain ⟨a1, a2, a3, ⟨l, b1, b2, b3⟩, a4, a5⟩ := l1Line_law w pa bs.length home s hcore hc h
  obtain ⟨hm, h1, h2, -, -⟩ := h
  let v := (l1Line w pa home s).1
  let r := (l1Line w pa home s).2.2
  let l' := lineStore l pa bs code (decide (3 ≤ scope))
  have hl' : l'.pa = lineOf pa := b2
  have hset : l1Set l'.pa = l1Set pa := lineOf_eq (by rw [hl']; unfold lineOf; omega)
  let u1 := l1Put w.core v l' r
  have hl1 : (getCore u1 w.core).l1 = kvSet (getCore r w.core).l1 (l1Set pa * 16 + v) l' := by
    simp only [u1, l1Put, getCore_modCore, if_true, hset]
  obtain ⟨f1, f2, f3⟩ := l1Find_some b1
  have hfind : ∀ (c : Core) (x : Nat), l1Find c x = l1Find { getCore r w.core with l1 := c.l1 } x := fun _ _ => rfl
  have hhere : l1Find (getCore u1 w.core) pa = some (v, l') := by
    rw [hfind, hl1]; exact l1Find_put _ pa v l' f1 hl' (.inl ⟨l, b1⟩)
  have hother : ∀ x, lineOf x ≠ lineOf pa → l1Find (getCore u1 w.core) x = l1Find (getCore s w.core) x := by
    intro x hx
    rw [hfind, hl1, l1Find_put_other _ pa v l' f1 hl' (.inr ⟨l, f2, f3⟩) x hx]
    exact a5 x hx
  have hu0 : u0 = u1 := by simp only [u0, r0, b1]; rfl
  let u2 := if 3 ≤ scope then sliceAccess w pa home u1 else u1
  have q2 : Quiet u1 u2 := by
    simp only [u2]; split
    · exact quiet_sliceAccess _ _ _ _
    · exact quiet_refl _
  generalize hw : (if 3 ≤ scope then { sliceAccess w pa home u0 with mem := memPut (sliceAccess w pa home u0).mem pa bs } else u0) = out
  have hu : out = if 3 ≤ scope then { u2 with mem := memPut u2.mem pa bs } else u2 := by
    rw [← hw, hu0]; simp only [u2]; split <;> rfl
  have hmem : u2.mem = s.mem := by rw [(quiet_mem q2).1]; show r.mem = s.mem; rw [show r = _ from a1]
  have hcores : ∀ c, l1Find (getCore out w.core) c = l1Find (getCore u1 w.core) c := by
    intro c; rw [hu]
    have : l1Find (getCore u2 w.core) c = l1Find (getCore u1 w.core) c := l1Find_core (q2.2 _).1 c
    split
    · exact this
    · exact this
  have hcu : OnlyCaches s u2 := caches_trans (caches_trans a1 (show OnlyCaches r u1 from caches_modCore _ _ _)) q2.1
  have hbyte : ∀ k, k < 128 → byteAt l k = (seenBytes s w.core (.glob (lineOf pa + k) home hcore) 1).getD 0 0 := by
    intro k hk; rw [← a4 k hk]; simp only [byteAt, b3]
  have hrange : ∀ i, i < bs.length → pa - lineOf pa + i < 128 := fun i hi => (range_line h2 hi).1
  have hwm : out.mem = if 3 ≤ scope then memPut s.mem pa bs else s.mem := by
    rw [hu]; split
    · show memPut u2.mem pa bs = _; rw [hmem]
    · exact hmem
  refine ⟨?_, ?_, fun x hx => ?_, ?_⟩
  · simp only [seenBytes, hc, if_true, hcores, hhere]
    refine (List.map_congr_left fun i hi => ?_).trans (map_range_getD bs)
    have hi' := List.mem_range.1 hi
    show byteAt l' (pa - l'.pa + i) = _
    rw [byteAt_store _ _ _ _ _ _ (by rw [hl']; exact hrange i hi') (by rw [b2]; unfold lineOf; omega), b2, hl',
      if_pos (by omega), show pa - lineOf pa + i - (pa - lineOf pa) = i by omega]
  · show _ = _
    rw [hu]; split
    · have : ∀ m, ({ u2 with mem := m } : State) = { s with mem := m, cores := u2.cores, slices := u2.slices, domains := u2.domains, dev := u2.dev } := by
        intro m; conv => lhs; rw [hcu]
      exact this _
    · conv => lhs; rw [hcu]
      simp only [hmem]
  · by_cases hlx : lineOf x = lineOf pa
    · have hk : x - lineOf pa < 128 ∧ lineOf pa + (x - lineOf pa) = x := by unfold lineOf at *; omega
      have hb := hbyte _ hk.1
      rw [hk.2] at hb
      have h1 : l1Find (getCore u1 w.core) x = some (v, l') := by rw [l1Find_line _ hlx, hhere]
      have h3 : seenBytes s w.core (.glob x home hcore) 1 = [(seenBytes s w.core (.glob x home hcore) 1).getD 0 0] := by
        simp only [seenBytes, hc, if_true]; split <;> simp [memBytes]
      rw [h3, ← hb]
      simp only [seenBytes, hc, if_true, hcores, h1]
      show [byteAt l' (x - l'.pa + 0)] = _
      rw [hl', Nat.add_zero, byteAt_store _ _ _ _ _ _ hk.1 (by rw [b2]; unfold lineOf; omega), b2, if_neg]
      intro hin
      exact hx (by have : lineOf pa ≤ pa := by unfold lineOf; omega
                   omega)
    · simp only [seenBytes, hc, if_true, hcores, hother x hlx]
      split
      · rfl
      · rw [hwm]; split
        · simp only [memBytes]; rw [memBytes_other _ _ hm _ hx]
        · rfl
  · rw [hwm]
    by_cases hsc : 3 ≤ scope
    · rw [if_pos hsc, if_neg]
      · exact ⟨memBytes_memPut _ _ hm, fun x hx => memBytes_other _ _ hm _ hx⟩
      · rintro (h | h)
        · rw [h] at hc; cases hc
        · omega
    · rw [if_neg hsc, if_pos]
      exact .inr ⟨hc, by omega⟩

/-- Storing at the point of coherence. -/
theorem homeWrite_law (core scope pa hcore : Nat) (home : BitVec 2) (bs : List Byte) (s : State) (hc : cachedHome home = false)
    (h : ServedHere s core (.glob pa home hcore) bs.length) :
    StoreMade s (homeWrite pa bs home hcore s) core scope (.glob pa home hcore) bs := by
  obtain ⟨h1, h2, h3, h4, h5⟩ := h
  rw [if_neg (by simp [hc])] at h5
  by_cases hh : home = 2
  · subst hh
    have hseen : ∀ v x n, seenBytes v core (.glob x 2 hcore) n = sramRead v hcore x n := fun _ _ _ => rfl
    obtain ⟨p, hp, hpw⟩ := h5.2 rfl
    have ht : touchPage hcore pa s = s := touchPage_there hp
    let u := sramWrite hcore pa bs s
    have hu : homeWrite pa bs 2 hcore s = u := by simp only [homeWrite, if_true, ht]; rfl
    rw [hu]
    have hcu : OnlyCaches s u := caches_modCore _ _ _
    have hum : u.mem = s.mem := by rw [hcu]
    have hsr : (getCore u hcore).sram = (getCore s hcore).sram.map fun q =>
        if q.pa = pa / 65536 * 65536 then { q with bytes := memPut q.bytes (pa % 65536) bs } else q := by
      simp only [u, sramWrite, getCore_modCore, if_true]
    have hfm : ∀ x, (getCore u hcore).sram.find? (fun q => q.pa == x / 65536 * 65536) =
        ((getCore s hcore).sram.find? (fun q => q.pa == x / 65536 * 65536)).map fun q =>
          if q.pa = pa / 65536 * 65536 then { q with bytes := memPut q.bytes (pa % 65536) bs } else q := by
      intro x
      rw [hsr, List.find?_map]
      congr 1
      congr 1
      funext q
      simp only [Function.comp]; split <;> rfl
    have hpp : p.pa = pa / 65536 * 65536 := by simpa using List.find?_some hp
    refine ⟨?_, ?_, fun x hx => ?_, ?_⟩
    · rw [hseen]; simp only [sramRead, hfm pa, hp, Option.map_some, hpp, if_true]
      exact memBytes_memPut _ _ hpw
    · show _ = _
      rw [hum]; exact hcu
    · rw [hseen, hseen]; simp only [sramRead, hfm x, hum]
      cases hq : (getCore s hcore).sram.find? (fun q => q.pa == x / 65536 * 65536) with
      | none => rfl
      | some q =>
        have hqp : q.pa = x / 65536 * 65536 := by simpa using List.find?_some hq
        show memBytes (if q.pa = pa / 65536 * 65536 then ({ q with bytes := memPut q.bytes (pa % 65536) bs } : SramPage) else q).bytes
          (x % 65536) 1 = memBytes q.bytes (x % 65536) 1
        by_cases he : q.pa = pa / 65536 * 65536
        · rw [if_pos he]
          have hxp : x / 65536 * 65536 = pa / 65536 * 65536 := by rw [← hqp, he]
          have hqe : q = p := by rw [hxp, hp] at hq; cases hq; rfl
          simp only [memBytes]
          rw [memBytes_other (pa % 65536) bs (by rw [hqe]; exact hpw) _ (by omega)]
        · rw [if_neg he]
    · rw [if_pos (.inl rfl)]; exact hum
  · have hu : homeWrite pa bs home hcore s = { s with mem := memPut s.mem pa bs } := by
      simp only [homeWrite, hh, if_false, h4]
    rw [hu]
    refine ⟨?_, ?_, fun x hx => ?_, ?_⟩
    · simp only [seenBytes, hc, Bool.false_eq_true, if_false, hh]
      exact memBytes_memPut _ _ h1
    · rfl
    · simp only [seenBytes, hc, Bool.false_eq_true, if_false, hh, memBytes]
      rw [memBytes_other _ _ h1 _ hx]
    · rw [if_neg]
      · exact ⟨memBytes_memPut _ _ h1, fun x hx => memBytes_other _ _ h1 _ hx⟩
      · rintro (h | h)
        · exact hh h
        · rw [hc] at h; cases h.1

theorem localWrite_law (core scope t off : Nat) (bs : List Byte) (s : State) (h : ServedHere s core (.loc t off) bs.length) :
    StoreMade s (localWrite t off bs s) core scope (.loc t off) bs := by
  obtain ⟨⟨x, hx⟩, hm⟩ := h
  have hg : getTeam (localWrite t off bs s) t = { getTeam s t with mem := memPut (getTeam s t).mem off bs } := by
    simp only [localWrite, getTeam_modTeam hx, if_true]
  refine ⟨?_, rfl, fun a ha => ?_, ?_, fun j hj => ?_⟩
  · simp only [seenBytes, hg]; exact memBytes_memPut _ _ hm
  · rw [hg]; exact memBytes_other _ _ hm _ ha
  · rw [hg]
  · simp only [localWrite, getTeam_modTeam hx, if_neg hj]

/-- A store's access leaves its bytes where its core and, at cluster scope or wider, everyone sees them. -/
theorem writeLoc_law (w : Who) (code scope : Nat) (l : Loc) (bs : List Byte) (s : State) (h : ServedHere s w.core l bs.length) :
    StoreMade s (writeLoc w code scope l bs s) w.core scope l bs := by
  cases l with
  | loc t off => exact localWrite_law _ _ _ _ _ _ h
  | glob pa home hcore =>
    have q := quiet_meetSoft w pa s
    have h' := served_quiet q h
    refine storeMade_after q ?_
    simp only [writeLoc]
    generalize meetSoft w pa s = v at *
    cases hc : cachedHome home with
    | true =>
      simp only [if_true]
      exact writeLine_law w code scope pa hcore home bs v hc h'
    | false =>
      have h5 := h'.2.2.2.2
      rw [if_neg (by simp [hc])] at h5
      have d := quiet_dropRange h'.1 h5.1
      simp only [Bool.false_eq_true, if_false]
      exact storeMade_after d (homeWrite_law w.core scope pa hcore home bs _ hc (served_quiet d h'))

end Sys2Proof.Laws
end

