-- ==== Sys2Proof/Laws/Traps.lean ====
section
/-! SUPPORT. Taking a trap: what a trap of the issuing path does when a handler takes it, said once. -/

namespace Sys2Proof.Laws

open Sys2Proof Sys2Proof.Machine

theorem handlerPc_of {s : State} {g : Group} {code : Nat} {pc : Word} (h : HandlerTakes s g code pc) :
    handlerPc s g.place.dom code = some pc := by
  obtain ⟨e, h1, h2, h3⟩ := h.table
  have hc := h.cause
  simp [handlerPc, handlerAllowed, List.getD_eq_getElem?_getD, h1, h2, h3, hc.1, hc.2.1, hc.2.2.2.1, hc.2.2.2.2]

/-- After the issue has been noted, the context is on the fatal path only if it was. -/
theorem getCtx_noteIssue {k : Nat} {s u : State} (h : Issued k s u) (o : Nat) :
    (getCtx u o).fatal = (getCtx s o).fatal := by
  have h5 := h.ctxs o
  unfold getCtx kvGetD
  rw [h5]
  cases kvGet s.ctxs o with
  | none => rfl
  | some x => simp only [Option.map_some, Option.getD_some]; split <;> rfl

/-- A group whose fibres went elsewhere before its path traps: where they stood is forgotten. -/
theorem raiseTrap_moved {i : TrapInfo} {s : State} {g : Group} {fs1 : KV Fibre} {pc : Word} (q : Nat → Fibre → Word)
    (hs : OnPath s g) (hi : i.mask = s.cur.mask)
    (hf : ∀ l, kvGet fs1 l = (kvGet g.fibres l).map fun x => if inMask s.cur.mask l then { x with pc := q l x } else x)
    (h : HandlerTakes s g i.code pc) : TrapEntry s (raiseTrap i (setCurGroup s { g with fibres := fs1 })) g i pc := by
  have hfree := h.free
  have hp := handlerPc_of h
  generalize hu : setCurGroup s { g with fibres := fs1 } = u
  have hgid : curGid u = curGid s := by rw [← hu]; rfl
  have hgg : getGroup u (curGid s) = { g with fibres := fs1 } := by rw [← hu]; exact curGroup_setCurGroup ..
  have hcg : curGroup u = { g with fibres := fs1 } := by rw [← hu, curGroup_setCurGroup]
  have hctx : ∀ o, getCtx u o = getCtx s o := fun _ => by rw [← hu]; rfl
  have hck : u.dev.clock = s.dev.clock := by rw [← hu]; rfl
  have e1 : raiseTrap i u = enterHandler (curGid s) i pc u := by
    have hnh : holdsTrap u = false := by simp [holdsTrap, hcg, hfree.1, hfree.2]
    have hcode : ¬ i.code = 4 := h.cause.2.2.1
    have hq : handlerPc u g.place.dom i.code = some pc := by
      rw [show handlerPc u = handlerPc s from by rw [← hu]; rfl]; exact hp
    simp only [raiseTrap, hnh, deliverOrSuspend, hcode, deliverTrap, hgid, hgg]
    simp [hctx, h.ctx, hfree.1, hq]
  let tr : TrapSt := { g.trap with
    words := trapWords i (!g.trap.held.isEmpty) g.depth (topRegion g), deliveredAt := some s.dev.clock,
    handler := some { mask := i.mask, faultPc := i.retPc, stcmp := i.stcmp } }
  have e2 : enterHandler (curGid s) i pc u = setCurGroup u
      (modLanes { g with fibres := fs1, trap := tr } i.mask fun _ x => { x with pc := pc }) := by
    have htop : topRegion { g with fibres := fs1 } = topRegion g := rfl
    simp only [enterHandler, hgg, stopIfPending, htop, hck]
    simp [setCurGroup, getGroup, hgid, h.calm, tr]
  rw [e1, e2, ← hu, setCurGroup_setCurGroup]
  refine ⟨rfl, fun k hk => kvGet_kvSet_ne _ _ hk, _, kvGet_kvSet_same .., rfl, fun l => ?_⟩
  simp only [modLanes, kvGet_kvMap, hf l, Option.map_map]
  cases kvGet g.fibres l with
  | none => rfl
  | some x => by_cases hm : inMask s.cur.mask l = true <;> simp [hm, hi]

/-- A trap of the issuing path that a handler takes enters it. -/
theorem raiseTrap_law {i : TrapInfo} {s : State} {g : Group} {pc : Word} (hs : OnPath s g) (hi : i.mask = s.cur.mask)
    (h : HandlerTakes s g i.code pc) : TrapEntry s (raiseTrap i s) g i pc := by
  have := raiseTrap_moved (i := i) (fs1 := g.fibres) (fun _ x => x.pc) hs hi (fun l => by
    cases kvGet g.fibres l <;> simp) h
  rwa [show ({ g with fibres := g.fibres } : Group) = g from rfl, setCurGroup_eq hs] at this

/-- A precise trap of the issuing path. -/
theorem trapNow_law {code addr k : Nat} {s : State} {g : Group} (hs : OnPath s g) :
    TrapsTo (.next (trapNow code addr k s)) s g code addr k :=
  fun _ h => ⟨_, rfl, raiseTrap_law hs rfl h⟩

/-- Checks that find a trap raise it. -/
theorem runPre_trap {p : Pre} {e : State → State} {code addr k : Nat} {s : State} {g : Group} (hs : OnPath s g)
    (h : p = .trap code addr k) : TrapsTo (runPre p e s) s g code addr k := by
  subst h
  exact trapNow_law hs

end Sys2Proof.Laws
end

