-- ==== Sys2Proof/Laws/Branch.lean ====
section
/-! SUPPORT. Branches: training the fetch predictor, and everything that a branch of the issuing path can do, said once. -/

namespace Sys2Proof.Laws

open Sys2Proof Sys2Proof.Machine

theorem curGroup_modBank (c o : Nat) (f : Bank → Bank) (s : State) : curGroup (modBank c o f s) = curGroup s := rfl

theorem holds_self (g1 : Group) (x : KV Nat) (h : g1.sched.portHolds = x) :
    ({ g1 with sched := { g1.sched with portHolds := x } } : Group) = g1 := by subst h; rfl

/-- Training goes on beside whatever else an instruction does to its group. -/
theorem trainBranch_set (tk : Option Word) (nx : Word) {s : State} {g g1 : Group} (hs : OnPath s g) (hp : g1.place = g.place)
    (hh : g1.sched.portHolds = g.sched.portHolds) :
    trainBranch tk nx (setCurGroup s g1) = setCurGroup (trainBranch tk nx s) { g1 with sched := { g1.sched with portHolds := (curGroup (trainBranch tk nx s)).sched.portHolds } } := by
  have hg := curGroup_of hs
  have hb : ∀ c o, findBank (setCurGroup s g1) c o = findBank s c o := fun _ _ => rfl
  have ho : g1.place.owner = g.place.owner := by rw [hp]
  simp only [trainBranch, curGroup_setCurGroup, ho, hg, setCurGroup_cur, hb]
  cases h : findBank s s.cur.core g.place.owner with
  | none => simp only [hg]; exact congrArg _ (holds_self _ _ hh).symm
  | some b =>
    simp only
    generalize hk : 256 * subOfSlot s.cur.slot + field (BitVec.toNat s.cur.pc) 2 8 = k
    have hcur : ∀ c o f (u : State), (modBank c o f u).cur = u.cur := fun _ _ _ _ => rfl
    simp only [hcur, setCurGroup_cur]
    by_cases hpr : predictedPc (kvGetD b.fetch k 0) s.cur.pc = nx
    · rw [if_pos hpr, if_pos hpr, curGroup_modBank, hg, holds_self _ _ hh]; rfl
    · rw [if_neg hpr, if_neg hpr]
      have hc : ∀ c o f, modBank c o f (setCurGroup s g1) = setCurGroup (modBank c o f s) g1 := fun _ _ _ => rfl
      simp only [holdPort]
      rw [hc, curGroup_setCurGroup, setCurGroup_setCurGroup, curGroup_setCurGroup, setCurGroup_setCurGroup, curGroup_modBank, hg, hh]
      rfl

theorem trainBranch_frame (tk : Option Word) (nx : Word) {s : State} {g : Group} (hs : OnPath s g) :
    trainBranch tk nx s = { s with groups := (trainBranch tk nx s).groups, cores := (trainBranch tk nx s).cores } ∧
    OtherGroups s (trainBranch tk nx s) (curGid s) ∧ ∃ hh, kvGet (trainBranch tk nx s).groups (curGid s) = some { g with sched := { g.sched with portHolds := hh } } := by
  have hg := curGroup_of hs
  simp only [trainBranch, hg]
  cases h : findBank s s.cur.core g.place.owner with
  | none => exact ⟨rfl, fun _ _ => rfl, _, hs⟩
  | some b =>
    simp only
    split
    · exact ⟨rfl, fun _ _ => rfl, _, hs⟩
    · refine ⟨rfl, fun k hk => kvGet_kvSet_ne _ _ hk, kvSet g.sched.portHolds s.cur.port (s.dev.clock + 4 + 1), ?_⟩
      simp only [holdPort, curGroup_modBank, hg]
      exact kvGet_kvSet_same _ _ _

theorem mask_ext {a b : LaneMask} (h : ∀ l, l < 64 → inMask a l = inMask b l) : a = b :=
  BitVec.eq_of_getLsbD_eq fun i hi => h i hi

theorem lowLane_mem {m : LaneMask} (h : m ≠ 0) : inMask m (lowLane m) = true := by
  have hne : lanesOf m ≠ [] := fun x => h ((lanesOf_eq_nil m).1 x)
  rw [← mem_lanesOf]
  unfold lowLane
  cases hl : lanesOf m with
  | nil => exact absurd hl hne
  | cons a l => simp

theorem inMask_lt {m : LaneMask} {l : Nat} (h : inMask m l = true) : l < 64 := by
  by_cases hl : l < 64
  · exact hl
  · simp [inMask, BitVec.getLsbD_of_ge m l (by omega)] at h

/-- The common target of some lanes. -/
theorem commonTarget_some {m : LaneMask} {target : Nat → Word}
    (h : ∀ l, inMask m l = true → target l = target (lowLane m)) : commonTarget m target = some (target (lowLane m)) := by
  refine if_pos ?_
  simp only [List.all_eq_true, beq_iff_eq, mem_lanesOf]
  exact h

theorem commonTarget_none {m : LaneMask} {target : Nat → Word}
    (h : ¬ ∀ l, inMask m l = true → target l = target (lowLane m)) : commonTarget m target = none := by
  refine if_neg ?_
  simp only [List.all_eq_true, beq_iff_eq, mem_lanesOf]
  exact h

/-- A branch of the issuing path, after what else the instruction has done to its group. -/
theorem branch_law (leaf : Nat) {s : State} {g g1 : Group} (taken : Nat → Bool) (target : Nat → Word) (hs : OnPath s g)
    (hp : g1.place = g.place) (hsc : g1.sched = g.sched) :
    BranchStep leaf s (noteIssue leaf (branch (maskOf fun l => inMask s.cur.mask l && taken l) target (setCurGroup s g1)))
      g g1 taken target := by
  generalize hm : (maskOf fun l => inMask s.cur.mask l && taken l) = m
  have hin : ∀ l, inMask m l = (inMask s.cur.mask l && taken l) := by
    intro l
    rw [← hm, inMask_maskOf]
    by_cases hl : l < 64
    · simp [hl]
    · have : inMask s.cur.mask l = false := by
        cases h : inMask s.cur.mask l
        · rfl
        · exact absurd (inMask_lt h) hl
      simp [this]
  have hwhole : (∀ l, inMask s.cur.mask l = true → taken l = true ∧ target l = target (lowLane s.cur.mask)) ↔
      m = s.cur.mask ∧ ∀ l, inMask m l = true → target l = target (lowLane m) := by
    constructor
    · intro h
      have hms : m = s.cur.mask := mask_ext fun l _ => by
        rw [hin]
        cases hl : inMask s.cur.mask l
        · rfl
        · simp [(h l hl).1]
      exact ⟨hms, by rw [hms]; exact fun l hl => (h l hl).2⟩
    · rintro ⟨h1, h2⟩ l hl
      rw [h1] at h2
      have h3 := hin l
      rw [h1, hl] at h3
      exact ⟨by simpa using h3.symm, h2 l hl⟩
  let tk := if m = 0 then none else some (target (lowLane m))
  let nx := portNext s.cur.mask fun l => if inMask m l then target l else s.cur.pc + 4
  have hnx : nx = portNext s.cur.mask fun l => if taken l then target l else s.cur.pc + 4 := by
    refine congrArg (fun x => (leastBy _ x).getD 0) (List.map_congr_left fun l hl => ?_)
    simp [hin, (mem_lanesOf _ _).1 hl]
  let g2 : Group := modLanes g1 s.cur.mask fun l f => { f with pc := if inMask m l then target l else s.cur.pc + 4 }
  let cu := if m = s.cur.mask then
      (match commonTarget m target with
       | some t => if s.cur.port = 0 ∧ s.cur.pc.toNat < t.toNat then
           some (match g.sched.catchUp with | some c => if c.toNat < t.toNat then c else t | none => t) else g.sched.catchUp
       | none => g.sched.catchUp) else g.sched.catchUp
  let g3 : Group := { g2 with sched := { g2.sched with catchUp := cu } }
  have e1 : branch m target (setCurGroup s g1) = trainBranch tk nx (setCurGroup s g3) := by
    have hsc2 : g2.sched = g.sched := hsc
    have hself : ({ g2 with sched := { g2.sched with catchUp := g.sched.catchUp } } : Group) = g2 := by
      rw [← hsc2]
    simp only [branch, curGroup_setCurGroup, setCurGroup_cur, setCurGroup_setCurGroup]
    congr 1
    simp only [g3, cu]
    by_cases h1 : m = s.cur.mask
    · rw [if_pos h1, if_pos h1]
      cases hc : commonTarget m target with
      | none => simp only; rw [hself]
      | some t =>
        simp only [catchUpTo, curGroup_setCurGroup, setCurGroup_cur, setCurGroup_setCurGroup]
        by_cases h2 : s.cur.port = 0 ∧ s.cur.pc.toNat < t.toNat
        · rw [if_pos h2, if_pos h2]
          show setCurGroup s { g2 with sched := { g2.sched with catchUp := _ } } = _
          rw [hsc2] <;> cases g.sched.catchUp <;> rfl
        · rw [if_neg h2, if_neg h2, hself]
    · rw [if_neg h1, if_neg h1, hself]
  have hp3 : g3.place = g.place := hp
  have hh3 : g3.sched.portHolds = g.sched.portHolds := by show g1.sched.portHolds = _; rw [hsc]
  rw [e1, trainBranch_set tk nx hs hp3 hh3]
  obtain ⟨f1, f2, hh, f3⟩ := trainBranch_frame tk nx hs
  have hgid : curGid (trainBranch tk nx s) = curGid s := by rw [f1]; rfl
  have hcg : curGroup (trainBranch tk nx s) = { g with sched := { g.sched with portHolds := hh } } := by
    simp only [curGroup, getGroup, kvGetD, hgid, f3, Option.getD_some]
  let g4 : Group := { g3 with sched := { g3.sched with portHolds := (curGroup (trainBranch tk nx s)).sched.portHolds } }
  have hpath := noteIssue_law leaf (trainBranch tk nx s) g4 (by rw [hcg]; exact hp)
  refine ⟨g4, by rw [hm, ← hnx]; exact hpath, ?_, ?_, ?_, ?_, ?_, ?_⟩
  · have hb := hpath.1.bytes
    have hb0 : SameBytes s (trainBranch tk nx s) := by rw [f1]; exact sameBytes_refl s
    exact ⟨fun a => (hb.1 a).trans (hb0.1 a), fun k a => (hb.2 k a).trans (hb0.2 k a)⟩
  · intro k hk
    have := hpath.2.1 k (by rw [hgid]; exact hk)
    rw [this, f2 k hk]
  · rw [hm, ← hnx]
    show g4 = { g1 with fibres := g4.fibres, sched := { (curGroup (trainBranch tk nx s)).sched with catchUp := g4.sched.catchUp } }
    rw [hcg]
    simp only [g4, g3, g2, modLanes, hcg]
    rw [hsc]
  · intro hw hne
    obtain ⟨h1, h2⟩ := hwhole.1 hw
    show cu = _
    simp only [cu, if_pos h1, commonTarget_some h2]
    rw [h1]
    simp only [catchUpAfter, BitVec.lt_def]
    split
    · cases g.sched.catchUp <;> rfl
    · rfl
  · intro hw
    show cu = _
    simp only [cu]
    by_cases h1 : m = s.cur.mask
    · have h2 : ¬ ∀ l, inMask m l = true → target l = target (lowLane m) := fun h2 => hw (hwhole.2 ⟨h1, h2⟩)
      rw [if_pos h1, commonTarget_none h2]
    · rw [if_neg h1]
  · intro l
    show match kvGet g1.fibres l with
      | none => kvGet g2.fibres l = none
      | some x => if inMask s.cur.mask l then ∃ y, _ ∧ kvGet g2.fibres l = some y else kvGet g2.fibres l = some x
    simp only [g2, modLanes, kvGet_kvMap]
    cases kvGet g1.fibres l with
    | none => rfl
    | some x => by_cases a : inMask s.cur.mask l = true <;> simp [a, hin]

end Sys2Proof.Laws
end

