-- ==== Sys2Proof/Laws/Encoding.lean ====
section
/-! SUPPORT. What the fields of a word read when a format has laid it out (R40, R44): one law per format, and what
each small code reads as when it is decoded again. -/

namespace Sys2Proof.Laws

open Sys2Proof

theorem bit_append_low {m n : Nat} (x : BitVec m) (y : BitVec n) (i : Nat) (h : i < n) :
    (x ++ y).getLsbD i = y.getLsbD i := by
  rw [BitVec.getLsbD_append, if_pos h]

theorem bit_append_high {m n : Nat} (x : BitVec m) (y : BitVec n) (i : Nat) (h : n ≤ i) :
    (x ++ y).getLsbD i = x.getLsbD (i - n) := by
  rw [BitVec.getLsbD_append, if_neg (Nat.not_lt.2 h)]

theorem field_append_low {m n : Nat} (x : BitVec m) (y : BitVec n) (s k : Nat) (h : s + k ≤ n) :
    (x ++ y).extractLsb' s k = y.extractLsb' s k := BitVec.extractLsb'_append_eq_of_add_le h

theorem field_append_high {m n : Nat} (x : BitVec m) (y : BitVec n) (s k : Nat) (h : n ≤ s) :
    (x ++ y).extractLsb' s k = x.extractLsb' (s - n) k := BitVec.extractLsb'_append_eq_of_le h

theorem fmtLR_fields (m g d a b f) :
    bit (fmtLR m g d a b f) 31 = false ∧ fld (fmtLR m g d a b f) 25 6 = m ∧ bit (fmtLR m g d a b f) 24 = g ∧
    fld (fmtLR m g d a b f) 17 7 = d ∧ fld (fmtLR m g d a b f) 10 7 = a ∧ fld (fmtLR m g d a b f) 3 7 = b ∧
    fld (fmtLR m g d a b f) 0 3 = f ∧ fld (fmtLR m g d a b f) 0 2 = f.extractLsb' 0 2 ∧
    fld (fmtLR m g d a b f) 1 2 = f.extractLsb' 1 2 ∧ bit (fmtLR m g d a b f) 0 = f.getLsbD 0 ∧
    bit (fmtLR m g d a b f) 2 = f.getLsbD 2 ∧ fld (fmtLR m g d a b f) 11 6 = a.extractLsb' 1 6 ∧
    bit (fmtLR m g d a b f) 10 = a.getLsbD 0 ∧ fld (fmtLR m g d a b f) 14 3 = a.extractLsb' 4 3 ∧
    fld (fmtLR m g d a b f) 10 4 = a.extractLsb' 0 4 := by
  unfold fmtLR
  refine ⟨?_, ?_, ?_, ?_, ?_, ?_, ?_, ?_, ?_, ?_, ?_, ?_, ?_, ?_, ?_⟩
  all_goals
    repeat first
      | refine (bit_append_low _ _ _ (by decide)).trans ?_
      | refine (bit_append_high _ _ _ (by decide)).trans ?_
      | refine (field_append_low _ _ _ _ (by decide)).trans ?_
      | refine (field_append_high _ _ _ _ (by decide)).trans ?_
  all_goals first | rfl | exact BitVec.extractLsb'_eq_self | exact (BitVec.getLsbD_ofBool _ _).trans (by simp)

theorem fmtLI_fields (m g d a i) :
    bit (fmtLI m g d a i) 31 = false ∧ fld (fmtLI m g d a i) 25 6 = m ∧ bit (fmtLI m g d a i) 24 = g ∧
    fld (fmtLI m g d a i) 17 7 = d ∧ fld (fmtLI m g d a i) 10 7 = a ∧ fld (fmtLI m g d a i) 0 10 = i ∧
    fld (fmtLI m g d a i) 0 2 = i.extractLsb' 0 2 ∧ fld (fmtLI m g d a i) 2 4 = i.extractLsb' 2 4 ∧
    fld (fmtLI m g d a i) 6 4 = i.extractLsb' 6 4 ∧ fld (fmtLI m g d a i) 0 5 = i.extractLsb' 0 5 ∧
    fld (fmtLI m g d a i) 5 5 = i.extractLsb' 5 5 := by
  unfold fmtLI
  refine ⟨?_, ?_, ?_, ?_, ?_, ?_, ?_, ?_, ?_, ?_, ?_⟩
  all_goals
    repeat first
      | refine (bit_append_low _ _ _ (by decide)).trans ?_
      | refine (bit_append_high _ _ _ (by decide)).trans ?_
      | refine (field_append_low _ _ _ _ (by decide)).trans ?_
      | refine (field_append_high _ _ _ _ (by decide)).trans ?_
  all_goals first | rfl | exact BitVec.extractLsb'_eq_self | exact (BitVec.getLsbD_ofBool _ _).trans (by simp)

theorem fmtLK_fields (m g d h i) :
    bit (fmtLK m g d h i) 31 = false ∧ fld (fmtLK m g d h i) 25 6 = m ∧ bit (fmtLK m g d h i) 24 = g ∧
    fld (fmtLK m g d h i) 17 7 = d ∧ bit (fmtLK m g d h i) 16 = h ∧ fld (fmtLK m g d h i) 0 16 = i := by
  unfold fmtLK
  refine ⟨?_, ?_, ?_, ?_, ?_, ?_⟩
  all_goals
    repeat first
      | refine (bit_append_low _ _ _ (by decide)).trans ?_
      | refine (bit_append_high _ _ _ (by decide)).trans ?_
      | refine (field_append_low _ _ _ _ (by decide)).trans ?_
      | refine (field_append_high _ _ _ _ (by decide)).trans ?_
  all_goals first | rfl | exact BitVec.extractLsb'_eq_self | exact (BitVec.getLsbD_ofBool _ _).trans (by simp)

theorem fmtLM_fields (m g d a x z o c) :
    bit (fmtLM m g d a x z o c) 31 = false ∧ fld (fmtLM m g d a x z o c) 25 6 = m ∧
    bit (fmtLM m g d a x z o c) 24 = g ∧ fld (fmtLM m g d a x z o c) 17 7 = d ∧
    fld (fmtLM m g d a x z o c) 10 7 = a ∧ fld (fmtLM m g d a x z o c) 7 3 = x ∧
    fld (fmtLM m g d a x z o c) 5 2 = z ∧ fld (fmtLM m g d a x z o c) 3 2 = o ∧ fld (fmtLM m g d a x z o c) 0 3 = c := by
  unfold fmtLM
  refine ⟨?_, ?_, ?_, ?_, ?_, ?_, ?_, ?_, ?_⟩
  all_goals
    repeat first
      | refine (bit_append_low _ _ _ (by decide)).trans ?_
      | refine (bit_append_high _ _ _ (by decide)).trans ?_
      | refine (field_append_low _ _ _ _ (by decide)).trans ?_
      | refine (field_append_high _ _ _ _ (by decide)).trans ?_
  all_goals first | rfl | exact BitVec.extractLsb'_eq_self | exact (BitVec.getLsbD_ofBool _ _).trans (by simp)

theorem fmtLW1_fields (p o s z c l i) :
    fld (fmtLW1 p o s z c l i) 27 5 = p ∧ fld (fmtLW1 p o s z c l i) 25 2 = o ∧
    fld (fmtLW1 p o s z c l i) 22 3 = s ∧ fld (fmtLW1 p o s z c l i) 20 2 = z ∧
    fld (fmtLW1 p o s z c l i) 13 7 = c ∧ fld (fmtLW1 p o s z c l i) 9 4 = l ∧ fld (fmtLW1 p o s z c l i) 0 9 = i ∧
    bit (fmtLW1 p o s z c l i) 12 = l.getLsbD 3 ∧ bit (fmtLW1 p o s z c l i) 11 = l.getLsbD 2 ∧
    bit (fmtLW1 p o s z c l i) 10 = l.getLsbD 1 ∧ bit (fmtLW1 p o s z c l i) 9 = l.getLsbD 0 := by
  unfold fmtLW1
  refine ⟨?_, ?_, ?_, ?_, ?_, ?_, ?_, ?_, ?_, ?_, ?_⟩
  all_goals
    repeat first
      | refine (bit_append_low _ _ _ (by decide)).trans ?_
      | refine (bit_append_high _ _ _ (by decide)).trans ?_
      | refine (field_append_low _ _ _ _ (by decide)).trans ?_
      | refine (field_append_high _ _ _ _ (by decide)).trans ?_
  all_goals first | rfl | exact BitVec.extractLsb'_eq_self | exact (BitVec.getLsbD_ofBool _ _).trans (by simp)

theorem fmtGR_fields (m d a b s) :
    bit (fmtGR m d a b s) 31 = true ∧ fld (fmtGR m d a b s) 25 6 = m ∧ fld (fmtGR m d a b s) 17 8 = d ∧
    fld (fmtGR m d a b s) 9 8 = a ∧ fld (fmtGR m d a b s) 1 8 = b ∧ bit (fmtGR m d a b s) 0 = s ∧
    bit (fmtGR m d a b s) 24 = d.getLsbD 7 ∧ fld (fmtGR m d a b s) 17 7 = d.extractLsb' 0 7 := by
  unfold fmtGR
  refine ⟨?_, ?_, ?_, ?_, ?_, ?_, ?_, ?_⟩
  all_goals
    repeat first
      | refine (bit_append_low _ _ _ (by decide)).trans ?_
      | refine (bit_append_high _ _ _ (by decide)).trans ?_
      | refine (field_append_low _ _ _ _ (by decide)).trans ?_
      | refine (field_append_high _ _ _ _ (by decide)).trans ?_
  all_goals first | rfl | exact BitVec.extractLsb'_eq_self | exact (BitVec.getLsbD_ofBool _ _).trans (by simp)

theorem fmtGRF_fields (m d a b f) :
    bit (fmtGRF m d a b f) 31 = true ∧ fld (fmtGRF m d a b f) 25 6 = m ∧ fld (fmtGRF m d a b f) 17 8 = d ∧
    fld (fmtGRF m d a b f) 9 8 = a ∧ fld (fmtGRF m d a b f) 3 6 = b ∧ fld (fmtGRF m d a b f) 0 3 = f := by
  unfold fmtGRF
  refine ⟨?_, ?_, ?_, ?_, ?_, ?_⟩
  all_goals
    repeat first
      | refine (bit_append_low _ _ _ (by decide)).trans ?_
      | refine (bit_append_high _ _ _ (by decide)).trans ?_
      | refine (field_append_low _ _ _ _ (by decide)).trans ?_
      | refine (field_append_high _ _ _ _ (by decide)).trans ?_
  all_goals first | rfl | exact BitVec.extractLsb'_eq_self | exact (BitVec.getLsbD_ofBool _ _).trans (by simp)

theorem fmtGI_fields (m d a i) :
    bit (fmtGI m d a i) 31 = true ∧ fld (fmtGI m d a i) 25 6 = m ∧ fld (fmtGI m d a i) 17 8 = d ∧
    fld (fmtGI m d a i) 9 8 = a ∧ fld (fmtGI m d a i) 0 9 = i ∧ bit (fmtGI m d a i) 16 = a.getLsbD 7 ∧
    fld (fmtGI m d a i) 9 7 = a.extractLsb' 0 7 ∧ fld (fmtGI m d a i) 6 3 = i.extractLsb' 6 3 ∧
    fld (fmtGI m d a i) 0 6 = i.extractLsb' 0 6 ∧ fld (fmtGI m d a i) 6 2 = i.extractLsb' 6 2 ∧
    bit (fmtGI m d a i) 8 = i.getLsbD 8 := by
  unfold fmtGI
  refine ⟨?_, ?_, ?_, ?_, ?_, ?_, ?_, ?_, ?_, ?_, ?_⟩
  all_goals
    repeat first
      | refine (bit_append_low _ _ _ (by decide)).trans ?_
      | refine (bit_append_high _ _ _ (by decide)).trans ?_
      | refine (field_append_low _ _ _ _ (by decide)).trans ?_
      | refine (field_append_high _ _ _ _ (by decide)).trans ?_
  all_goals first | rfl | exact BitVec.extractLsb'_eq_self | exact (BitVec.getLsbD_ofBool _ _).trans (by simp)

theorem fmtGK_fields (m d h i) :
    bit (fmtGK m d h i) 31 = true ∧ fld (fmtGK m d h i) 25 6 = m ∧ fld (fmtGK m d h i) 17 8 = d ∧
    bit (fmtGK m d h i) 16 = h ∧ fld (fmtGK m d h i) 0 16 = i := by
  unfold fmtGK
  refine ⟨?_, ?_, ?_, ?_, ?_⟩
  all_goals
    repeat first
      | refine (bit_append_low _ _ _ (by decide)).trans ?_
      | refine (bit_append_high _ _ _ (by decide)).trans ?_
      | refine (field_append_low _ _ _ _ (by decide)).trans ?_
      | refine (field_append_high _ _ _ _ (by decide)).trans ?_
  all_goals first | rfl | exact BitVec.extractLsb'_eq_self | exact (BitVec.getLsbD_ofBool _ _).trans (by simp)

theorem fmtGX_fields (m d a) :
    bit (fmtGX m d a) 31 = true ∧ fld (fmtGX m d a) 25 6 = m ∧ fld (fmtGX m d a) 15 10 = d ∧
    fld (fmtGX m d a) 5 10 = a ∧ fld (fmtGX m d a) 0 5 = 0 := by
  unfold fmtGX
  refine ⟨?_, ?_, ?_, ?_, ?_⟩
  all_goals
    repeat first
      | refine (bit_append_low _ _ _ (by decide)).trans ?_
      | refine (bit_append_high _ _ _ (by decide)).trans ?_
      | refine (field_append_low _ _ _ _ (by decide)).trans ?_
      | refine (field_append_high _ _ _ _ (by decide)).trans ?_
  all_goals first | rfl | exact BitVec.extractLsb'_eq_self | exact (BitVec.getLsbD_ofBool _ _).trans (by simp)

theorem fmtGM_fields (m d a x o c) :
    bit (fmtGM m d a x o c) 31 = true ∧ fld (fmtGM m d a x o c) 25 6 = m ∧ fld (fmtGM m d a x o c) 17 8 = d ∧
    fld (fmtGM m d a x o c) 9 8 = a ∧ fld (fmtGM m d a x o c) 5 4 = x ∧ fld (fmtGM m d a x o c) 3 2 = o ∧
    fld (fmtGM m d a x o c) 0 3 = c := by
  unfold fmtGM
  refine ⟨?_, ?_, ?_, ?_, ?_, ?_, ?_⟩
  all_goals
    repeat first
      | refine (bit_append_low _ _ _ (by decide)).trans ?_
      | refine (bit_append_high _ _ _ (by decide)).trans ?_
      | refine (field_append_low _ _ _ _ (by decide)).trans ?_
      | refine (field_append_high _ _ _ _ (by decide)).trans ?_
  all_goals first | rfl | exact BitVec.extractLsb'_eq_self | exact (BitVec.getLsbD_ofBool _ _).trans (by simp)

theorem fmtGC_fields (m p c a b) :
    bit (fmtGC m p c a b) 31 = true ∧ fld (fmtGC m p c a b) 25 6 = m ∧ fld (fmtGC m p c a b) 21 4 = p ∧
    fld (fmtGC m p c a b) 17 4 = c ∧ fld (fmtGC m p c a b) 9 8 = a ∧ fld (fmtGC m p c a b) 1 8 = b ∧
    bit (fmtGC m p c a b) 20 = c.getLsbD 3 ∧ fld (fmtGC m p c a b) 17 3 = c.extractLsb' 0 3 ∧
    fld (fmtGC m p c a b) 13 4 = a.extractLsb' 4 4 ∧ fld (fmtGC m p c a b) 9 4 = a.extractLsb' 0 4 ∧
    fld (fmtGC m p c a b) 5 4 = b.extractLsb' 4 4 ∧ fld (fmtGC m p c a b) 1 4 = b.extractLsb' 0 4 ∧
    bit (fmtGC m p c a b) 0 = false := by
  unfold fmtGC
  refine ⟨?_, ?_, ?_, ?_, ?_, ?_, ?_, ?_, ?_, ?_, ?_, ?_, ?_⟩
  all_goals
    repeat first
      | refine (bit_append_low _ _ _ (by decide)).trans ?_
      | refine (bit_append_high _ _ _ (by decide)).trans ?_
      | refine (field_append_low _ _ _ _ (by decide)).trans ?_
      | refine (field_append_high _ _ _ _ (by decide)).trans ?_
  all_goals first | rfl | exact BitVec.extractLsb'_eq_self | exact (BitVec.getLsbD_ofBool _ _).trans (by simp)

theorem fmtGT_fields (m l s c t) :
    bit (fmtGT m l s c t) 31 = true ∧ fld (fmtGT m l s c t) 25 6 = m ∧ fld (fmtGT m l s c t) 18 6 = l ∧
    fld (fmtGT m l s c t) 12 6 = s ∧ fld (fmtGT m l s c t) 6 6 = c ∧ fld (fmtGT m l s c t) 0 6 = t ∧
    bit (fmtGT m l s c t) 24 = false := by
  unfold fmtGT
  refine ⟨?_, ?_, ?_, ?_, ?_, ?_, ?_⟩
  all_goals
    repeat first
      | refine (bit_append_low _ _ _ (by decide)).trans ?_
      | refine (bit_append_high _ _ _ (by decide)).trans ?_
      | refine (field_append_low _ _ _ _ (by decide)).trans ?_
      | refine (field_append_high _ _ _ _ (by decide)).trans ?_
  all_goals first | rfl | exact BitVec.extractLsb'_eq_self | exact (BitVec.getLsbD_ofBool _ _).trans (by simp)

theorem fmtGB_fields (m p n x) :
    bit (fmtGB m p n x) 31 = true ∧ fld (fmtGB m p n x) 25 6 = m ∧ fld (fmtGB m p n x) 21 4 = p ∧
    bit (fmtGB m p n x) 20 = n ∧ fld (fmtGB m p n x) 0 20 = x := by
  unfold fmtGB
  refine ⟨?_, ?_, ?_, ?_, ?_⟩
  all_goals
    repeat first
      | refine (bit_append_low _ _ _ (by decide)).trans ?_
      | refine (bit_append_high _ _ _ (by decide)).trans ?_
      | refine (field_append_low _ _ _ _ (by decide)).trans ?_
      | refine (field_append_high _ _ _ _ (by decide)).trans ?_
  all_goals first | rfl | exact BitVec.extractLsb'_eq_self | exact (BitVec.getLsbD_ofBool _ _).trans (by simp)

theorem fmtGW0_fields (m s a b x) :
    bit (fmtGW0 m s a b x) 31 = true ∧ fld (fmtGW0 m s a b x) 25 6 = m ∧ fld (fmtGW0 m s a b x) 20 5 = s ∧
    fld (fmtGW0 m s a b x) 12 8 = a ∧ fld (fmtGW0 m s a b x) 4 8 = b ∧ fld (fmtGW0 m s a b x) 0 4 = x ∧
    bit (fmtGW0 m s a b x) 3 = x.getLsbD 3 ∧ bit (fmtGW0 m s a b x) 2 = x.getLsbD 2 ∧
    bit (fmtGW0 m s a b x) 1 = x.getLsbD 1 ∧ bit (fmtGW0 m s a b x) 0 = x.getLsbD 0 ∧
    fld (fmtGW0 m s a b x) 1 3 = x.extractLsb' 1 3 ∧ fld (fmtGW0 m s a b x) 0 2 = x.extractLsb' 0 2 ∧
    fld (fmtGW0 m s a b x) 2 2 = x.extractLsb' 2 2 := by
  unfold fmtGW0
  refine ⟨?_, ?_, ?_, ?_, ?_, ?_, ?_, ?_, ?_, ?_, ?_, ?_, ?_⟩
  all_goals
    repeat first
      | refine (bit_append_low _ _ _ (by decide)).trans ?_
      | refine (bit_append_high _ _ _ (by decide)).trans ?_
      | refine (field_append_low _ _ _ _ (by decide)).trans ?_
      | refine (field_append_high _ _ _ _ (by decide)).trans ?_
  all_goals first | rfl | exact BitVec.extractLsb'_eq_self | exact (BitVec.getLsbD_ofBool _ _).trans (by simp)

theorem fmtGW1_fields (t v r f m c) :
    fld (fmtGW1 t v r f m c) 27 5 = t ∧ fld (fmtGW1 t v r f m c) 23 4 = v ∧ fld (fmtGW1 t v r f m c) 16 7 = r ∧
    fld (fmtGW1 t v r f m c) 12 4 = f ∧ fld (fmtGW1 t v r f m c) 8 4 = m ∧ fld (fmtGW1 t v r f m c) 0 8 = c ∧
    fld (fmtGW1 t v r f m c) 9 3 = m.extractLsb' 1 3 ∧ bit (fmtGW1 t v r f m c) 8 = m.getLsbD 0 ∧
    fld (fmtGW1 t v r f m c) 8 2 = m.extractLsb' 0 2 ∧ fld (fmtGW1 t v r f m c) 10 2 = m.extractLsb' 2 2 ∧
    bit (fmtGW1 t v r f m c) 10 = m.getLsbD 2 ∧ bit (fmtGW1 t v r f m c) 11 = m.getLsbD 3 := by
  unfold fmtGW1
  refine ⟨?_, ?_, ?_, ?_, ?_, ?_, ?_, ?_, ?_, ?_, ?_, ?_⟩
  all_goals
    repeat first
      | refine (bit_append_low _ _ _ (by decide)).trans ?_
      | refine (bit_append_high _ _ _ (by decide)).trans ?_
      | refine (field_append_low _ _ _ _ (by decide)).trans ?_
      | refine (field_append_high _ _ _ _ (by decide)).trans ?_
  all_goals first | rfl | exact BitVec.extractLsb'_eq_self | exact (BitVec.getLsbD_ofBool _ _).trans (by simp)

theorem fmtGA1_fields (o s c) :
    bit (fmtGA1 o s c) 15 = o ∧ fld (fmtGA1 o s c) 12 3 = s ∧ fld (fmtGA1 o s c) 0 8 = c ∧
    fld (fmtGA1 o s c) 16 16 = 0 ∧ fld (fmtGA1 o s c) 8 4 = 0 := by
  unfold fmtGA1
  refine ⟨?_, ?_, ?_, ?_, ?_⟩
  all_goals
    repeat first
      | refine (bit_append_low _ _ _ (by decide)).trans ?_
      | refine (bit_append_high _ _ _ (by decide)).trans ?_
      | refine (field_append_low _ _ _ _ (by decide)).trans ?_
      | refine (field_append_high _ _ _ _ (by decide)).trans ?_
  all_goals first | rfl | exact BitVec.extractLsb'_eq_self | exact (BitVec.getLsbD_ofBool _ _).trans (by simp)

theorem Sat_ofBits_bits (x : Sat) : Sat.ofBits x.bits = some x := by
  cases x <;> rfl

theorem MulPart_ofBits_bits (x : MulPart) : MulPart.ofBits x.bits = some x := by
  cases x <;> rfl

theorem FType_ofBits_bits (x : FType) : FType.ofBits x.bits = some x := by
  cases x <;> rfl

theorem Rm_ofBits_bits (x : Rm) : Rm.ofBits x.bits = x := by
  cases x <;> rfl

theorem ICond_ofBits_bits (x : ICond) : ICond.ofBits x.bits = x := by
  cases x <;> rfl

theorem FCond_ofBits_bits (x : FCond) : FCond.ofBits x.bits = x := by
  cases x <;> rfl

theorem Shfl_ofBits_bits (x : Shfl) : Shfl.ofBits x.bits = x := by
  cases x <;> rfl

theorem Scan_ofBits_bits (x : Scan) : Scan.ofBits x.bits = x := by
  cases x <;> rfl

theorem Red_ofBits_bits (x : Red) : Red.ofBits x.bits = x := by
  cases x <;> rfl

theorem Size_ofBits_bits (x : Size) : Size.ofBits x.bits = x := by
  cases x <;> rfl

theorem Order_ofBits_bits (x : Order) : Order.ofBits x.bits = x := by
  cases x <;> rfl

theorem Scope_ofBits_bits (x : Scope) : Scope.ofBits x.bits = some x := by
  cases x <;> rfl

theorem AOp_ofBits_bits (x : AOp) : AOp.ofBits x.bits = some x := by
  cases x <;> rfl

theorem Ty_ofBits_bits (x : Ty) : Ty.ofBits x.bits = some x := by
  cases x <;> rfl

theorem Policy_ofBits_bits (x : Policy) : Policy.ofBits x.bits = some x := by
  cases x <;> rfl

theorem wideOf_wideBits (x : Bool) : wideOf (wideBits x) = some x := by
  cases x <;> rfl

theorem nPart (n : Bool) :
    (0#2 ++ BitVec.ofBool n : BitVec 3).extractLsb' 1 2 = 0 ∧
    (0#2 ++ BitVec.ofBool n : BitVec 3).getLsbD 0 = n := by
  refine ⟨?_, ?_⟩
  all_goals
    repeat first
      | refine (bit_append_low _ _ _ (by decide)).trans ?_
      | refine (bit_append_high _ _ _ (by decide)).trans ?_
      | refine (field_append_low _ _ _ _ (by decide)).trans ?_
      | refine (field_append_high _ _ _ _ (by decide)).trans ?_
  all_goals first | rfl | exact BitVec.extractLsb'_eq_self | exact (BitVec.getLsbD_ofBool _ _).trans (by simp)

theorem lenPosPart (x y : BitVec 5) :
    (x ++ y : BitVec 10).extractLsb' 5 5 = x ∧
    (x ++ y : BitVec 10).extractLsb' 0 5 = y := by
  refine ⟨?_, ?_⟩
  all_goals
    repeat first
      | refine (bit_append_low _ _ _ (by decide)).trans ?_
      | refine (bit_append_high _ _ _ (by decide)).trans ?_
      | refine (field_append_low _ _ _ _ (by decide)).trans ?_
      | refine (field_append_high _ _ _ _ (by decide)).trans ?_
  all_goals first | rfl | exact BitVec.extractLsb'_eq_self | exact (BitVec.getLsbD_ofBool _ _).trans (by simp)

theorem cvtPart (x y : BitVec 4) (z : BitVec 2) :
    (x ++ y ++ z : BitVec 10).extractLsb' 6 4 = x ∧
    (x ++ y ++ z : BitVec 10).extractLsb' 2 4 = y ∧
    (x ++ y ++ z : BitVec 10).extractLsb' 0 2 = z := by
  refine ⟨?_, ?_, ?_⟩
  all_goals
    repeat first
      | refine (bit_append_low _ _ _ (by decide)).trans ?_
      | refine (bit_append_high _ _ _ (by decide)).trans ?_
      | refine (field_append_low _ _ _ _ (by decide)).trans ?_
      | refine (field_append_high _ _ _ _ (by decide)).trans ?_
  all_goals first | rfl | exact BitVec.extractLsb'_eq_self | exact (BitVec.getLsbD_ofBool _ _).trans (by simp)

theorem packPart (x : BitVec 2) :
    (x ++ 0#1 : BitVec 3).extractLsb' 1 2 = x ∧
    (x ++ 0#1 : BitVec 3).getLsbD 0 = false := by
  refine ⟨?_, ?_⟩
  all_goals
    repeat first
      | refine (bit_append_low _ _ _ (by decide)).trans ?_
      | refine (bit_append_high _ _ _ (by decide)).trans ?_
      | refine (field_append_low _ _ _ _ (by decide)).trans ?_
      | refine (field_append_high _ _ _ _ (by decide)).trans ?_
  all_goals first | rfl | exact BitVec.extractLsb'_eq_self | exact (BitVec.getLsbD_ofBool _ _).trans (by simp)

theorem unpackPart (x : BitVec 2) :
    (x ++ 1#1 : BitVec 3).extractLsb' 1 2 = x ∧
    (x ++ 1#1 : BitVec 3).getLsbD 0 = true := by
  refine ⟨?_, ?_⟩
  all_goals
    repeat first
      | refine (bit_append_low _ _ _ (by decide)).trans ?_
      | refine (bit_append_high _ _ _ (by decide)).trans ?_
      | refine (field_append_low _ _ _ _ (by decide)).trans ?_
      | refine (field_append_high _ _ _ _ (by decide)).trans ?_
  all_goals first | rfl | exact BitVec.extractLsb'_eq_self | exact (BitVec.getLsbD_ofBool _ _).trans (by simp)

theorem lowPart (x : BitVec 2) :
    (0#1 ++ x : BitVec 3).extractLsb' 0 2 = x ∧
    (0#1 ++ x : BitVec 3).getLsbD 2 = false := by
  refine ⟨?_, ?_⟩
  all_goals
    repeat first
      | refine (bit_append_low _ _ _ (by decide)).trans ?_
      | refine (bit_append_high _ _ _ (by decide)).trans ?_
      | refine (field_append_low _ _ _ _ (by decide)).trans ?_
      | refine (field_append_high _ _ _ _ (by decide)).trans ?_
  all_goals first | rfl | exact BitVec.extractLsb'_eq_self | exact (BitVec.getLsbD_ofBool _ _).trans (by simp)

theorem highPart (x : BitVec 2) :
    (1#1 ++ x : BitVec 3).extractLsb' 0 2 = x ∧
    (1#1 ++ x : BitVec 3).getLsbD 2 = true := by
  refine ⟨?_, ?_⟩
  all_goals
    repeat first
      | refine (bit_append_low _ _ _ (by decide)).trans ?_
      | refine (bit_append_high _ _ _ (by decide)).trans ?_
      | refine (field_append_low _ _ _ _ (by decide)).trans ?_
      | refine (field_append_high _ _ _ _ (by decide)).trans ?_
  all_goals first | rfl | exact BitVec.extractLsb'_eq_self | exact (BitVec.getLsbD_ofBool _ _).trans (by simp)

theorem negPart (n : Bool) :
    (0#6 ++ BitVec.ofBool n : BitVec 7).extractLsb' 1 6 = 0 ∧
    (0#6 ++ BitVec.ofBool n : BitVec 7).getLsbD 0 = n := by
  refine ⟨?_, ?_⟩
  all_goals
    repeat first
      | refine (bit_append_low _ _ _ (by decide)).trans ?_
      | refine (bit_append_high _ _ _ (by decide)).trans ?_
      | refine (field_append_low _ _ _ _ (by decide)).trans ?_
      | refine (field_append_high _ _ _ _ (by decide)).trans ?_
  all_goals first | rfl | exact BitVec.extractLsb'_eq_self | exact (BitVec.getLsbD_ofBool _ _).trans (by simp)

theorem cvPart (x : BitVec 4) :
    (0#3 ++ x : BitVec 7).extractLsb' 4 3 = 0 ∧
    (0#3 ++ x : BitVec 7).extractLsb' 0 4 = x := by
  refine ⟨?_, ?_⟩
  all_goals
    repeat first
      | refine (bit_append_low _ _ _ (by decide)).trans ?_
      | refine (bit_append_high _ _ _ (by decide)).trans ?_
      | refine (field_append_low _ _ _ _ (by decide)).trans ?_
      | refine (field_append_high _ _ _ _ (by decide)).trans ?_
  all_goals first | rfl | exact BitVec.extractLsb'_eq_self | exact (BitVec.getLsbD_ofBool _ _).trans (by simp)

theorem condPart (x : BitVec 3) :
    (0#1 ++ x : BitVec 4).getLsbD 3 = false ∧
    (0#1 ++ x : BitVec 4).extractLsb' 0 3 = x := by
  refine ⟨?_, ?_⟩
  all_goals
    repeat first
      | refine (bit_append_low _ _ _ (by decide)).trans ?_
      | refine (bit_append_high _ _ _ (by decide)).trans ?_
      | refine (field_append_low _ _ _ _ (by decide)).trans ?_
      | refine (field_append_high _ _ _ _ (by decide)).trans ?_
  all_goals first | rfl | exact BitVec.extractLsb'_eq_self | exact (BitVec.getLsbD_ofBool _ _).trans (by simp)

theorem predPart (x : BitVec 4) :
    (0#4 ++ x : BitVec 8).extractLsb' 4 4 = 0 ∧
    (0#4 ++ x : BitVec 8).extractLsb' 0 4 = x := by
  refine ⟨?_, ?_⟩
  all_goals
    repeat first
      | refine (bit_append_low _ _ _ (by decide)).trans ?_
      | refine (bit_append_high _ _ _ (by decide)).trans ?_
      | refine (field_append_low _ _ _ _ (by decide)).trans ?_
      | refine (field_append_high _ _ _ _ (by decide)).trans ?_
  all_goals first | rfl | exact BitVec.extractLsb'_eq_self | exact (BitVec.getLsbD_ofBool _ _).trans (by simp)

theorem lanePart (x : BitVec 7) :
    (0#1 ++ x : BitVec 8).getLsbD 7 = false ∧
    (0#1 ++ x : BitVec 8).extractLsb' 0 7 = x := by
  refine ⟨?_, ?_⟩
  all_goals
    repeat first
      | refine (bit_append_low _ _ _ (by decide)).trans ?_
      | refine (bit_append_high _ _ _ (by decide)).trans ?_
      | refine (field_append_low _ _ _ _ (by decide)).trans ?_
      | refine (field_append_high _ _ _ _ (by decide)).trans ?_
  all_goals first | rfl | exact BitVec.extractLsb'_eq_self | exact (BitVec.getLsbD_ofBool _ _).trans (by simp)

theorem pickPart (x : BitVec 6) :
    (0#3 ++ x : BitVec 9).extractLsb' 6 3 = 0 ∧
    (0#3 ++ x : BitVec 9).extractLsb' 0 6 = x := by
  refine ⟨?_, ?_⟩
  all_goals
    repeat first
      | refine (bit_append_low _ _ _ (by decide)).trans ?_
      | refine (bit_append_high _ _ _ (by decide)).trans ?_
      | refine (field_append_low _ _ _ _ (by decide)).trans ?_
      | refine (field_append_high _ _ _ _ (by decide)).trans ?_
  all_goals first | rfl | exact BitVec.extractLsb'_eq_self | exact (BitVec.getLsbD_ofBool _ _).trans (by simp)

theorem srPart (n : Bool) (x : BitVec 6) :
    (BitVec.ofBool n ++ 0#2 ++ x : BitVec 9).extractLsb' 6 2 = 0 ∧
    (BitVec.ofBool n ++ 0#2 ++ x : BitVec 9).extractLsb' 0 6 = x ∧
    (BitVec.ofBool n ++ 0#2 ++ x : BitVec 9).getLsbD 8 = n := by
  refine ⟨?_, ?_, ?_⟩
  all_goals
    repeat first
      | refine (bit_append_low _ _ _ (by decide)).trans ?_
      | refine (bit_append_high _ _ _ (by decide)).trans ?_
      | refine (field_append_low _ _ _ _ (by decide)).trans ?_
      | refine (field_append_high _ _ _ _ (by decide)).trans ?_
  all_goals first | rfl | exact BitVec.extractLsb'_eq_self | exact (BitVec.getLsbD_ofBool _ _).trans (by simp)

theorem atomPart (x y : BitVec 2) :
    (x ++ y : BitVec 4).extractLsb' 2 2 = x ∧
    (x ++ y : BitVec 4).extractLsb' 0 2 = y := by
  refine ⟨?_, ?_⟩
  all_goals
    repeat first
      | refine (bit_append_low _ _ _ (by decide)).trans ?_
      | refine (bit_append_high _ _ _ (by decide)).trans ?_
      | refine (field_append_low _ _ _ _ (by decide)).trans ?_
      | refine (field_append_high _ _ _ _ (by decide)).trans ?_
  all_goals first | rfl | exact BitVec.extractLsb'_eq_self | exact (BitVec.getLsbD_ofBool _ _).trans (by simp)

theorem fmtLM_clear (m g d a x c) : fld (fmtLM m g d a x 0#2 0#2 c) 3 4 = 0 := by
  have e : fld (fmtLM m g d a x 0#2 0#2 c) 3 4 = fld (fmtLM m g d a x 0#2 0#2 c) 5 2 ++ fld (fmtLM m g d a x 0#2 0#2 c) 3 2 :=
    (BitVec.extractLsb'_append_extractLsb'_eq_extractLsb' (start₁ := 3) (len₁ := 2) (start₂ := 5) (len₂ := 2) rfl).symm
  rw [e, (fmtLM_fields m g d a x 0#2 0#2 c).2.2.2.2.2.2.1, (fmtLM_fields m g d a x 0#2 0#2 c).2.2.2.2.2.2.2.1]
  rfl

theorem nib_fields (b3 b2 b1 b0 : Bool) :
    (nib b3 b2 b1 b0).getLsbD 3 = b3 ∧ (nib b3 b2 b1 b0).getLsbD 2 = b2 ∧ (nib b3 b2 b1 b0).getLsbD 1 = b1 ∧
    (nib b3 b2 b1 b0).getLsbD 0 = b0 := by
  revert b3 b2 b1 b0; decide

theorem nib_low (b : Bool) : (nib false false false b).extractLsb' 1 3 = 0 := by
  revert b; decide

theorem nib_mode (b1 b0 n : Bool) : (nib false n b1 b0).extractLsb' 0 2 = BitVec.ofBool b1 ++ BitVec.ofBool b0 := by
  revert b1 b0 n; decide

theorem lwFlags_fields (b3 b2 b1 b0 : Bool) :
    (lwFlags b3 b2 b1 b0).getLsbD 3 = b3 ∧ (lwFlags b3 b2 b1 b0).getLsbD 2 = b2 ∧
    (lwFlags b3 b2 b1 b0).getLsbD 1 = b1 ∧ (lwFlags b3 b2 b1 b0).getLsbD 0 = b0 := by
  revert b3 b2 b1 b0; decide

end Sys2Proof.Laws
end

