-- ==== Sys2Proof/Laws/Floats.lean ====
section
/-! SUPPORT. FP32 words and their values: which words are NaNs, and that the order of values is that of `orderKey`. -/

namespace Sys2Proof.Laws

open Sys2Proof Sys2Proof.Machine

/-- The magnitude of an FP32 word that is a number, in units of 2^−149. -/
def unitsOf (e m : Nat) : Nat := if e = 0 then m else (2 ^ 23 + m) * 2 ^ (e - 1)

theorem unitsOf_lt {e m e' m' : Nat} (hm : m < 2 ^ 23) (hm' : m' < 2 ^ 23) :
    unitsOf e m < unitsOf e' m' ↔ e * 2 ^ 23 + m < e' * 2 ^ 23 + m' := by
  have key : ∀ {e m e' m' : Nat}, m < 2 ^ 23 → m' < 2 ^ 23 → e * 2 ^ 23 + m < e' * 2 ^ 23 + m' →
      unitsOf e m < unitsOf e' m' := by
    intro e m e' m' hm hm' h
    have hle : e ≤ e' := by omega
    rcases Nat.lt_or_eq_of_le hle with hlt | rfl
    · have he' : ¬ e' = 0 := by omega
      have h2 : 2 ^ 23 * 2 ^ (e' - 1) ≤ unitsOf e' m' := by
        unfold unitsOf; rw [if_neg he']; exact Nat.mul_le_mul_right _ (by omega)
      refine Nat.lt_of_lt_of_le ?_ h2
      unfold unitsOf
      split
      · have := Nat.two_pow_pos (e' - 1)
        calc m < 2 ^ 23 * 1 := by omega
          _ ≤ 2 ^ 23 * 2 ^ (e' - 1) := Nat.mul_le_mul_left _ this
      · have e1 : 2 ^ 23 * 2 ^ e = 2 ^ 24 * 2 ^ (e - 1) := by rw [← Nat.pow_add, ← Nat.pow_add]; congr 1; omega
        calc (2 ^ 23 + m) * 2 ^ (e - 1) < 2 ^ 24 * 2 ^ (e - 1) :=
              Nat.mul_lt_mul_of_pos_right (by omega) (Nat.two_pow_pos _)
          _ = 2 ^ 23 * 2 ^ e := e1.symm
          _ ≤ 2 ^ 23 * 2 ^ (e' - 1) := Nat.mul_le_mul_left _ (Nat.pow_le_pow_right (by omega) (by omega))
    · unfold unitsOf
      split
      · omega
      · exact Nat.mul_lt_mul_of_pos_right (by omega) (Nat.two_pow_pos _)
  constructor
  · intro h
    by_cases hc : e * 2 ^ 23 + m < e' * 2 ^ 23 + m'
    · exact hc
    · rcases Nat.lt_or_eq_of_le (Nat.le_of_not_lt hc) with h1 | h1
      · exact absurd (key hm' hm h1) (by omega)
      · have : e' = e := by omega
        subst this
        have : m' = m := by omega
        subst this; omega
  · exact key hm hm'

/-- The exponent and fraction fields of an FP32 word, and its sign. -/
def expOf (w : Word) : Nat := w.toNat / 2 ^ 23 % 2 ^ 8
def fracOf (w : Word) : Nat := w.toNat % 2 ^ 23

theorem mag_eq (w : Word) : w.toNat % 2 ^ 31 = expOf w * 2 ^ 23 + fracOf w := by
  unfold expOf fracOf; omega

theorem sign_eq (w : Word) : (w.toNat / 2 ^ (8 + 23) % 2 == 1) = w.getLsbD 31 := by
  rw [BitVec.getLsbD, Nat.testBit_eq_decide_div_mod_eq]; rfl

theorem isNan32_eq (w : Word) : isNan32 w = decide (expOf w = 255 ∧ fracOf w ≠ 0) := by
  unfold isNan32
  rw [mag_eq]
  have : fracOf w < 2 ^ 23 := Nat.mod_lt _ (by omega)
  have : expOf w < 2 ^ 8 := Nat.mod_lt _ (by omega)
  congr 1
  apply propext
  constructor <;> intro h <;> omega

/-- The value of an FP32 word, by its fields. -/
theorem fval32 (w : Word) : fval fp32 w.toNat =
    if expOf w = 255 then (if fracOf w = 0 then .inf (w.getLsbD 31) else .nan (fracOf w < 2 ^ 22))
    else if expOf w = 0 then .fin (w.getLsbD 31) (fracOf w) (-149)
    else .fin (w.getLsbD 31) (2 ^ 23 + fracOf w) (Int.ofNat (expOf w) - 150) := by
  have hs := sign_eq w
  have e1 : w.toNat / 2 ^ 23 % 2 ^ 8 = expOf w := rfl
  have e2 : w.toNat % 2 ^ 23 = fracOf w := rfl
  simp only [fval, fp32, hs, e1, e2]
  have i1 : (1 : Int) - Int.ofNat 127 - Int.ofNat 23 = -149 := by decide
  have i2 : Int.ofNat (expOf w) - Int.ofNat 127 - Int.ofNat 23 = Int.ofNat (expOf w) - 150 := by
    simp only [Int.ofNat_eq_natCast]; omega
  rw [i1, i2] <;> rfl

theorem isNaN_fval (w : Word) : isNaN (fval fp32 w.toNat) = isNan32 w := by
  rw [fval32, isNan32_eq]
  by_cases h : expOf w = 255
  · by_cases h' : fracOf w = 0 <;> simp [h, h', isNaN]
  · by_cases h' : expOf w = 0 <;> simp [h, h', isNaN]

theorem isSNaN_fval (w : Word) : isSNaN (fval fp32 w.toNat) = isSnan32 w := by
  unfold isSnan32
  rw [fval32, isNan32_eq]
  by_cases h : expOf w = 255
  · by_cases h' : fracOf w = 0
    · simp [h, h', isSNaN]
    · simp only [h, if_true, h', if_false, isSNaN, ne_eq, not_false_eq_true, and_self, decide_true, Bool.true_and]
      rw [BitVec.getLsbD, Nat.testBit_eq_decide_div_mod_eq]
      unfold fracOf
      rw [← decide_not]
      congr 1
      apply propext
      constructor <;> intro h <;> omega
  · by_cases h' : expOf w = 0 <;> simp [h, h', isSNaN]

/-- A magnitude scaled to a unit that divides it. -/
theorem units_scaled {e m : Nat} (k : Nat) :
    (if e = 0 then m else 2 ^ 23 + m) * 2 ^ ((if e = 0 then 0 else e - 1) + k) = unitsOf e m * 2 ^ k := by
  unfold unitsOf
  split
  · simp
  · rw [Nat.pow_add, Nat.mul_assoc]

theorem fval32_fin (w : Word) (h : expOf w ≠ 255) : fval fp32 w.toNat =
    .fin (w.getLsbD 31) (if expOf w = 0 then fracOf w else 2 ^ 23 + fracOf w)
      (Int.ofNat (if expOf w = 0 then 0 else expOf w - 1) - 149) := by
  rw [fval32, if_neg h]
  split
  · rfl
  · simp only [Int.ofNat_eq_natCast, FVal.fin.injEq, true_and]; omega

theorem scaled_lt (n n' : Bool) {a b : Nat} {k : Nat} (c d : Nat) (hk : 0 < k)
    (h1 : a * k = c) (h2 : b * k = d) :
    ((if n then -(Int.ofNat a) else Int.ofNat a) < (if n' then -(Int.ofNat b) else Int.ofNat b)) ↔
    ((if n then -(c : Int) else c) < (if n' then -(d : Int) else d)) := by
  subst h1; subst h2
  have hk' : (0 : Int) < k := by omega
  have e : ∀ (n : Bool) (a : Nat), (if n then -((a * k : Nat) : Int) else ((a * k : Nat) : Int)) =
      (if n then -(Int.ofNat a) else Int.ofNat a) * k := by
    intro n a
    cases n <;> simp [Int.neg_mul]
  rw [e, e, Int.mul_lt_mul_right hk']

theorem signed_lt (n n' : Bool) {ua ub va vb : Nat} (h1 : ua < ub ↔ va < vb) (h2 : ub < ua ↔ vb < va)
    (h3 : 0 < ua ↔ 0 < va) (h4 : 0 < ub ↔ 0 < vb) :
    ((if n then -(ua : Int) else ua) < (if n' then -(ub : Int) else ub)) ↔
    ((if n then -(va : Int) else va) < (if n' then -(vb : Int) else vb)) := by
  cases n <;> cases n' <;> simp only [if_true, if_false, Bool.false_eq_true] <;> omega

/-- The order of two FP32 words that are not NaNs. -/
theorem fless_fval (a b : Word) (ha : isNan32 a = false) (hb : isNan32 b = false) :
    fless (fval fp32 a.toNat) (fval fp32 b.toNat) = decide (orderKey a < orderKey b) := by
  rw [isNan32_eq] at ha hb
  have ha' : expOf a = 255 → fracOf a = 0 := by simpa using ha
  have hb' : expOf b = 255 → fracOf b = 0 := by simpa using hb
  have la : fracOf a < 2 ^ 23 := Nat.mod_lt _ (by omega)
  have lb : fracOf b < 2 ^ 23 := Nat.mod_lt _ (by omega)
  have xa : expOf a < 2 ^ 8 := Nat.mod_lt _ (by omega)
  have xb : expOf b < 2 ^ 8 := Nat.mod_lt _ (by omega)
  unfold orderKey
  rw [mag_eq, mag_eq]
  by_cases h1 : expOf a = 255
  · rw [fval32 a, if_pos h1, if_pos (ha' h1)]
    by_cases h2 : expOf b = 255
    · rw [fval32 b, if_pos h2, if_pos (hb' h2)]
      rw [h1, h2, ha' h1, hb' h2]
      cases a.getLsbD 31 <;> cases b.getLsbD 31 <;> simp [fless]
    · rw [fval32_fin b h2, h1, ha' h1]
      cases a.getLsbD 31 <;> cases b.getLsbD 31 <;> simp [fless] <;> omega
  · rw [fval32_fin a h1]
    by_cases h2 : expOf b = 255
    · rw [fval32 b, if_pos h2, if_pos (hb' h2), h2, hb' h2]
      cases a.getLsbD 31 <;> cases b.getLsbD 31 <;> simp [fless] <;> omega
    · rw [fval32_fin b h2]
      simp only [fless]
      congr 1
      apply propext
      have lt1 := unitsOf_lt (e := expOf a) (e' := expOf b) la lb
      have lt2 := unitsOf_lt (e := expOf b) (e' := expOf a) lb la
      generalize hka : (if expOf a = 0 then 0 else expOf a - 1) = ka
      generalize hkb : (if expOf b = 0 then 0 else expOf b - 1) = kb
      have sa := units_scaled (e := expOf a) (m := fracOf a) 0
      have sb := units_scaled (e := expOf b) (m := fracOf b) 0
      rw [hka] at sa
      rw [hkb] at sb
      simp only [Nat.add_zero, Nat.pow_zero, Nat.mul_one] at sa sb
      simp only [scaledInt]
      have m1 : (Int.ofNat ka - 149 - min (Int.ofNat ka - 149) (Int.ofNat kb - 149)).toNat = ka - min ka kb := by
        simp only [Int.ofNat_eq_natCast]; omega
      have m2 : (Int.ofNat kb - 149 - min (Int.ofNat ka - 149) (Int.ofNat kb - 149)).toNat = kb - min ka kb := by
        simp only [Int.ofNat_eq_natCast]; omega
      rw [m1, m2]
      rw [scaled_lt (k := 2 ^ min ka kb) _ _ (unitsOf (expOf a) (fracOf a)) (unitsOf (expOf b) (fracOf b)) (Nat.two_pow_pos _)
        (by rw [Nat.mul_assoc, ← Nat.pow_add, Nat.sub_add_cancel (Nat.min_le_left _ _), sa])
        (by rw [Nat.mul_assoc, ← Nat.pow_add, Nat.sub_add_cancel (Nat.min_le_right _ _), sb])]
      have za := unitsOf_lt (e := 0) (m := 0) (e' := expOf a) (m' := fracOf a) (by omega) la
      have zb := unitsOf_lt (e := 0) (m := 0) (e' := expOf b) (m' := fracOf b) (by omega) lb
      rw [show unitsOf 0 0 = 0 from rfl, Nat.zero_mul, Nat.zero_add] at za zb
      exact signed_lt _ _ lt1 lt2 za zb

end Sys2Proof.Laws
end

