-- ==== Sys2Proof/Laws/Outstanding.lean ====
section
/-! SUPPORT. Outstanding operations: delivering a value, marking an access done, and what dropping complete ones leaves. -/

namespace Sys2Proof.Laws

open Sys2Proof Sys2Proof.Machine

theorem getGroup_of {s : State} {gid : Nat} {g : Group} (h : kvGet s.groups gid = some g) : getGroup s gid = g := by
  simp [getGroup, kvGetD, h]

theorem modGroup_of {s : State} {gid : Nat} {g : Group} (h : kvGet s.groups gid = some g) (f : Group → Group) :
    modGroup s gid f = setGroup s gid (f g) := by
  simp [modGroup, setGroup, kvMod, h]

@[simp] theorem kvGet_setGroup (s : State) (gid : Nat) (g : Group) : kvGet (setGroup s gid g).groups gid = some g := by
  simp [setGroup]

@[simp] theorem setGroup_setGroup (s : State) (gid : Nat) (a b : Group) : setGroup (setGroup s gid a) gid b = setGroup s gid b := by
  simp [setGroup, kvSet_kvSet]

theorem setGroup_self {s : State} {gid : Nat} {g : Group} (h : kvGet s.groups gid = some g) : setGroup s gid g = s := by
  simp [setGroup, kvSet_self _ h]

/-- Words put into registers one after another. -/
theorem regsWritten_law (r n : Nat) (ws : List Word) (old : List Word) :
    RegsWritten old (((regRange r n).zip ws).foldl (fun (x : List Word) e => x.set e.1 e.2) old) r n ws := by
  induction n generalizing r ws old with
  | zero => exact ⟨rfl, fun k _ => by rw [if_neg (by omega)]; rfl⟩
  | succ n ih =>
    cases ws with
    | nil => exact ⟨by simp, fun k _ => by rw [if_neg (by simp only [List.length_nil]; omega)]; simp⟩
    | cons w ws =>
      have hr : regRange r (n + 1) = r :: regRange (r + 1) n := by
        simp only [regRange, List.range_succ_eq_map, List.map_cons, List.map_map, Nat.add_zero]
        congr 1
        apply List.map_congr_left
        intro i _
        simp only [Function.comp]; omega
      rw [hr, List.zip_cons_cons, List.foldl_cons]
      obtain ⟨h1, h2⟩ := ih (r + 1) ws (old.set r w)
      refine ⟨by rw [h1, List.length_set], fun k hk => ?_⟩
      rw [h2 k (by simpa using hk)]
      by_cases hrk : k = r
      · subst hrk
        rw [if_neg (by omega), if_pos (by simp)]
        simp [hk]
      · have hset : (old.set r w).getD k 0 = old.getD k 0 := by
          simp [List.getD, List.getElem?_set, Ne.symm hrk]
        rw [hset]
        by_cases hin : r + 1 ≤ k ∧ k < r + 1 + min n ws.length
        · rw [if_pos hin, if_pos (by simp only [List.length_cons]; omega), show k - r = (k - (r + 1)) + 1 by omega]
          rfl
        · rw [if_neg hin, if_neg (by simp only [List.length_cons]; omega)]

theorem fold_setReg (es : List (Nat × Word)) (f : Fibre) :
    es.foldl (fun f e => setReg f e.1 e.2) f = { f with regs := es.foldl (fun (x : List Word) e => x.set e.1 e.2) f.regs } := by
  induction es generalizing f with
  | nil => rfl
  | cons e es ih => rw [List.foldl_cons, ih]; rfl

theorem fold_setU (es : List (Nat × Word)) (g : Group) :
    es.foldl (fun g e => setU g e.1 e.2) g = { g with uregs := es.foldl (fun (x : List Word) e => x.set e.1 e.2) g.uregs } := by
  induction es generalizing g with
  | nil => rfl
  | cons e es ih => rw [List.foldl_cons, ih]; rfl

/-- The accesses of an operation after that of a lane is done. -/
def accDoneOps (g : Group) (seq lane : Nat) : List Op :=
  g.ops.map fun p => if p.seq = seq then { p with
    accs := p.accs.map fun b => if b.lane = lane then { b with done := true, queued := false } else b } else p

theorem modAcc_law {s : State} {gid : Nat} {g : Group} (h : kvGet s.groups gid = some g) (seq lane : Nat) :
    modAcc gid seq lane (fun a => { a with done := true, queued := false }) s = setGroup s gid { g with ops := accDoneOps g seq lane } := by
  simp only [modAcc, modOp]
  rw [modGroup_of h]
  rfl

theorem accMade_none (g : Group) (o : Op) (a : Acc) : AccMade g { g with ops := accDoneOps g o.seq a.lane } o a none := ⟨rfl, rfl, rfl⟩

/-- A value is delivered and its access done. -/
theorem accMade_some {s : State} {gid : Nat} {g : Group} (h : kvGet s.groups gid = some g) (o : Op) (a : Acc) (bs : List Byte) :
    ∃ g', AccMade g g' o a (some bs) ∧
      modAcc gid o.seq a.lane (fun a => { a with done := true, queued := false }) (deliver gid o a.lane bs s) = setGroup s gid g' := by
  simp only [deliver]
  rw [modGroup_of h, modAcc_law (kvGet_setGroup _ _ _), setGroup_setGroup]
  refine ⟨_, ⟨?_, ?_⟩, rfl⟩
  · cases hu : o.unif with
    | true => simp only [if_true, fold_setU]; rfl
    | false => rfl
  · cases hu : o.unif with
    | true =>
      simp only [if_true, fold_setU]
      exact ⟨trivial, regsWritten_law _ _ _ _⟩
    | false =>
      simp only [Bool.false_eq_true, if_false, fold_setReg]
      let put := fun (x : List Word) => ((regRange o.dest o.dests).zip (resultWords bs)).foldl (fun (x : List Word) e => x.set e.1 e.2) x
      exact ⟨rfl, lanesRelate_of (f := fun _ f => { f with regs := put f.regs })
        (fun l => fibresBecome_modLanes g (oneLane a.lane) (fun _ f => { f with regs := put f.regs }) l)
        fun l x hx hm => ⟨rfl, regsWritten_law _ _ _ _⟩⟩

/-- The operations of a class that its counter counts. -/
def countedOps (c : OpCls) (ops : List Op) : List Op := ops.filter fun o => o.cls == c && !o.ghost

theorem counted_prune (c : OpCls) (ops : List Op) : ∀ seen : List OpCls,
    (seen.contains c = true → countedOps c (pruneOps seen ops) = countedOps c ops) ∧
    (seen.contains c = false →
      (countedOps c (pruneOps seen ops)).dropWhile (fun o => o.done) = (countedOps c ops).dropWhile fun o => o.done) := by
  induction ops with
  | nil => exact fun _ => ⟨fun _ => rfl, fun _ => rfl⟩
  | cons o os ih =>
    intro seen
    have hcons : ∀ (o : Op) (os : List Op), countedOps c (o :: os) =
        if (o.cls == c && !o.ghost) = true then o :: countedOps c os else countedOps c os := fun _ _ => List.filter_cons
    unfold pruneOps
    by_cases hd : (o.done && o.err.isNone && (o.ghost || (o.dests == 0 && !seen.contains o.cls))) = true
    · rw [if_pos hd]
      simp only [Bool.and_eq_true, Bool.or_eq_true, Bool.not_eq_true'] at hd
      refine ⟨fun h => ?_, fun h => ?_⟩
      · rw [(ih seen).1 h, hcons, if_neg]
        intro hm
        simp only [Bool.and_eq_true, beq_iff_eq, Bool.not_eq_true'] at hm
        rcases hd.2 with hg | hg
        · rw [hm.2] at hg; cases hg
        · rw [hm.1, h] at hg; cases hg.2
      · rw [(ih seen).2 h, hcons]
        split
        · rw [List.dropWhile_cons_of_pos (by simpa using hd.1.1)]
        · rfl
    · rw [if_neg hd]
      refine ⟨fun h => ?_, fun h => ?_⟩
      · rw [hcons, hcons, (ih _).1]
        split
        · exact h
        · simp only [List.contains_cons, h, Bool.or_true]
      · rw [hcons, hcons]
        split
        · rename_i hm
          simp only [Bool.and_eq_true, beq_iff_eq, Bool.not_eq_true'] at hm
          rw [(ih _).1 (by rw [hm.2]; simp [hm.1])]
        · rename_i hm
          refine (ih _).2 ?_
          split
          · exact h
          · rename_i hg
            simp only [List.contains_cons, h, Bool.or_false, beq_eq_false_iff_ne]
            intro hc
            exact hm (by rw [← hc]; simp [hg])

/-- Dropping what nothing looks at again leaves every counter (R132). -/
theorem counter_prune (g : Group) (c : OpCls) : counter (prune g) c = counter g c := by
  have := (counted_prune c g.ops []).2 rfl
  exact congrArg List.length this

end Sys2Proof.Laws
end

