-- ==== Sys2Proof/Laws/PerInstr.lean ====
section
/-! SUPPORT. What holds of every instruction as syntax, one lemma per constructor: a well-formed instruction encodes in as many
bytes as its PC advances by (R38), and is no event. -/

namespace Sys2Proof.Laws.EncodedSize

open Sys2Proof

/-- The encoding is as long as the instruction, and an event is not well-formed as an instruction (R38, R58). -/
def Statement (i : Instr) : Prop := i.wf = true → (encodeBytes i).length = i.size ∧ i.isEvent = false

theorem iaddLane (a0 a1 a2 a3 a4) : Statement (.iaddLane a0 a1 a2 a3 a4) := fun _ => ⟨rfl, rfl⟩
theorem iaddUniform (a0 a1 a2 a3) : Statement (.iaddUniform a0 a1 a2 a3) := fun _ => ⟨rfl, rfl⟩
theorem isubLane (a0 a1 a2 a3 a4) : Statement (.isubLane a0 a1 a2 a3 a4) := fun _ => ⟨rfl, rfl⟩
theorem isubUniform (a0 a1 a2 a3) : Statement (.isubUniform a0 a1 a2 a3) := fun _ => ⟨rfl, rfl⟩
theorem iaddiLane (a0 a1 a2 a3) : Statement (.iaddiLane a0 a1 a2 a3) := fun _ => ⟨rfl, rfl⟩
theorem iaddiUniform (a0 a1 a2) : Statement (.iaddiUniform a0 a1 a2) := fun _ => ⟨rfl, rfl⟩
theorem imulLane (a0 a1 a2 a3 a4) : Statement (.imulLane a0 a1 a2 a3 a4) := fun _ => ⟨rfl, rfl⟩
theorem imulUniform (a0 a1 a2 a3) : Statement (.imulUniform a0 a1 a2 a3) := fun _ => ⟨rfl, rfl⟩
theorem imadLane (a0 a1 a2 a3) : Statement (.imadLane a0 a1 a2 a3) := fun _ => ⟨rfl, rfl⟩
theorem imadUniform (a0 a1 a2) : Statement (.imadUniform a0 a1 a2) := fun _ => ⟨rfl, rfl⟩
theorem iminLane (a0 a1 a2 a3 a4) : Statement (.iminLane a0 a1 a2 a3 a4) := fun _ => ⟨rfl, rfl⟩
theorem iminUniform (a0 a1 a2 a3) : Statement (.iminUniform a0 a1 a2 a3) := fun _ => ⟨rfl, rfl⟩
theorem imaxLane (a0 a1 a2 a3 a4) : Statement (.imaxLane a0 a1 a2 a3 a4) := fun _ => ⟨rfl, rfl⟩
theorem imaxUniform (a0 a1 a2 a3) : Statement (.imaxUniform a0 a1 a2 a3) := fun _ => ⟨rfl, rfl⟩
theorem andLane (a0 a1 a2 a3) : Statement (.andLane a0 a1 a2 a3) := fun _ => ⟨rfl, rfl⟩
theorem orLane (a0 a1 a2 a3) : Statement (.orLane a0 a1 a2 a3) := fun _ => ⟨rfl, rfl⟩
theorem xorLane (a0 a1 a2 a3) : Statement (.xorLane a0 a1 a2 a3) := fun _ => ⟨rfl, rfl⟩
theorem andnLane (a0 a1 a2 a3) : Statement (.andnLane a0 a1 a2 a3) := fun _ => ⟨rfl, rfl⟩
theorem andUniform (a0 a1 a2) : Statement (.andUniform a0 a1 a2) := fun _ => ⟨rfl, rfl⟩
theorem orUniform (a0 a1 a2) : Statement (.orUniform a0 a1 a2) := fun _ => ⟨rfl, rfl⟩
theorem xorUniform (a0 a1 a2) : Statement (.xorUniform a0 a1 a2) := fun _ => ⟨rfl, rfl⟩
theorem andnUniform (a0 a1 a2) : Statement (.andnUniform a0 a1 a2) := fun _ => ⟨rfl, rfl⟩
theorem shlLane (a0 a1 a2 a3) : Statement (.shlLane a0 a1 a2 a3) := fun _ => ⟨rfl, rfl⟩
theorem shrNLane (a0 a1 a2 a3) : Statement (.shrNLane a0 a1 a2 a3) := fun _ => ⟨rfl, rfl⟩
theorem shrSLane (a0 a1 a2 a3) : Statement (.shrSLane a0 a1 a2 a3) := fun _ => ⟨rfl, rfl⟩
theorem rotLane (a0 a1 a2 a3) : Statement (.rotLane a0 a1 a2 a3) := fun _ => ⟨rfl, rfl⟩
theorem shlUniform (a0 a1 a2) : Statement (.shlUniform a0 a1 a2) := fun _ => ⟨rfl, rfl⟩
theorem shrNUniform (a0 a1 a2) : Statement (.shrNUniform a0 a1 a2) := fun _ => ⟨rfl, rfl⟩
theorem shrSUniform (a0 a1 a2) : Statement (.shrSUniform a0 a1 a2) := fun _ => ⟨rfl, rfl⟩
theorem rotUniform (a0 a1 a2) : Statement (.rotUniform a0 a1 a2) := fun _ => ⟨rfl, rfl⟩
theorem popcLane (a0 a1 a2) : Statement (.popcLane a0 a1 a2) := fun _ => ⟨rfl, rfl⟩
theorem clzLane (a0 a1 a2) : Statement (.clzLane a0 a1 a2) := fun _ => ⟨rfl, rfl⟩
theorem brevLane (a0 a1 a2) : Statement (.brevLane a0 a1 a2) := fun _ => ⟨rfl, rfl⟩
theorem iabsLane (a0 a1 a2) : Statement (.iabsLane a0 a1 a2) := fun _ => ⟨rfl, rfl⟩
theorem inegLane (a0 a1 a2) : Statement (.inegLane a0 a1 a2) := fun _ => ⟨rfl, rfl⟩
theorem popcUniform (a0 a1) : Statement (.popcUniform a0 a1) := fun _ => ⟨rfl, rfl⟩
theorem clzUniform (a0 a1) : Statement (.clzUniform a0 a1) := fun _ => ⟨rfl, rfl⟩
theorem brevUniform (a0 a1) : Statement (.brevUniform a0 a1) := fun _ => ⟨rfl, rfl⟩
theorem iabsUniform (a0 a1) : Statement (.iabsUniform a0 a1) := fun _ => ⟨rfl, rfl⟩
theorem inegUniform (a0 a1) : Statement (.inegUniform a0 a1) := fun _ => ⟨rfl, rfl⟩
theorem bfxLane (a0 a1 a2 a3 a4) : Statement (.bfxLane a0 a1 a2 a3 a4) := fun _ => ⟨rfl, rfl⟩
theorem bfxsLane (a0 a1 a2 a3 a4) : Statement (.bfxsLane a0 a1 a2 a3 a4) := fun _ => ⟨rfl, rfl⟩
theorem bfiLane (a0 a1 a2 a3) : Statement (.bfiLane a0 a1 a2 a3) := fun _ => ⟨rfl, rfl⟩
theorem bfxUniform (a0 a1 a2) : Statement (.bfxUniform a0 a1 a2) := fun _ => ⟨rfl, rfl⟩
theorem bfxsUniform (a0 a1 a2) : Statement (.bfxsUniform a0 a1 a2) := fun _ => ⟨rfl, rfl⟩
theorem bfiUniform (a0 a1 a2) : Statement (.bfiUniform a0 a1 a2) := fun _ => ⟨rfl, rfl⟩
theorem leaLane (a0 a1 a2 a3 a4) : Statement (.leaLane a0 a1 a2 a3 a4) := fun _ => ⟨rfl, rfl⟩
theorem leaUniform (a0 a1 a2 a3) : Statement (.leaUniform a0 a1 a2 a3) := fun _ => ⟨rfl, rfl⟩
theorem movkLane (a0 a1 a2) : Statement (.movkLane a0 a1 a2) := fun _ => ⟨rfl, rfl⟩
theorem movkHiLane (a0 a1 a2) : Statement (.movkHiLane a0 a1 a2) := fun _ => ⟨rfl, rfl⟩
theorem movkUniform (a0 a1) : Statement (.movkUniform a0 a1) := fun _ => ⟨rfl, rfl⟩
theorem movkHiUniform (a0 a1) : Statement (.movkHiUniform a0 a1) := fun _ => ⟨rfl, rfl⟩
theorem fadd (a0 a1 a2 a3 a4) : Statement (.fadd a0 a1 a2 a3 a4) := fun _ => ⟨rfl, rfl⟩
theorem fsub (a0 a1 a2 a3 a4) : Statement (.fsub a0 a1 a2 a3 a4) := fun _ => ⟨rfl, rfl⟩
theorem fmul (a0 a1 a2 a3 a4) : Statement (.fmul a0 a1 a2 a3 a4) := fun _ => ⟨rfl, rfl⟩
theorem fma (a0 a1 a2 a3 a4) : Statement (.fma a0 a1 a2 a3 a4) := fun _ => ⟨rfl, rfl⟩
theorem fmin (a0 a1 a2 a3 a4) : Statement (.fmin a0 a1 a2 a3 a4) := fun _ => ⟨rfl, rfl⟩
theorem fmax (a0 a1 a2 a3 a4) : Statement (.fmax a0 a1 a2 a3 a4) := fun _ => ⟨rfl, rfl⟩
theorem fabs (a0 a1 a2) : Statement (.fabs a0 a1 a2) := fun _ => ⟨rfl, rfl⟩
theorem fneg (a0 a1 a2) : Statement (.fneg a0 a1 a2) := fun _ => ⟨rfl, rfl⟩
theorem frndRn (a0 a1 a2) : Statement (.frndRn a0 a1 a2) := fun _ => ⟨rfl, rfl⟩
theorem frndRz (a0 a1 a2) : Statement (.frndRz a0 a1 a2) := fun _ => ⟨rfl, rfl⟩
theorem frndDn (a0 a1 a2) : Statement (.frndDn a0 a1 a2) := fun _ => ⟨rfl, rfl⟩
theorem frndUp (a0 a1 a2) : Statement (.frndUp a0 a1 a2) := fun _ => ⟨rfl, rfl⟩
theorem frcp (a0 a1 a2) : Statement (.frcp a0 a1 a2) := fun _ => ⟨rfl, rfl⟩
theorem frsq (a0 a1 a2) : Statement (.frsq a0 a1 a2) := fun _ => ⟨rfl, rfl⟩
theorem fsqrt (a0 a1 a2) : Statement (.fsqrt a0 a1 a2) := fun _ => ⟨rfl, rfl⟩
theorem fexp2 (a0 a1 a2) : Statement (.fexp2 a0 a1 a2) := fun _ => ⟨rfl, rfl⟩
theorem flog2 (a0 a1 a2) : Statement (.flog2 a0 a1 a2) := fun _ => ⟨rfl, rfl⟩
theorem cvt (a0 a1 a2 a3 a4 a5) : Statement (.cvt a0 a1 a2 a3 a4 a5) := fun _ => ⟨rfl, rfl⟩
theorem cvtsE4m3Pack (a0 a1 a2 a3 a4) : Statement (.cvtsE4m3Pack a0 a1 a2 a3 a4) := fun _ => ⟨rfl, rfl⟩
theorem cvtsE4m3Unpack (a0 a1 a2 a3 a4) : Statement (.cvtsE4m3Unpack a0 a1 a2 a3 a4) := fun _ => ⟨rfl, rfl⟩
theorem cvtsE5m2Pack (a0 a1 a2 a3 a4) : Statement (.cvtsE5m2Pack a0 a1 a2 a3 a4) := fun _ => ⟨rfl, rfl⟩
theorem cvtsE5m2Unpack (a0 a1 a2 a3 a4) : Statement (.cvtsE5m2Unpack a0 a1 a2 a3 a4) := fun _ => ⟨rfl, rfl⟩
theorem cvtsE2m1Pack (a0 a1 a2 a3 a4) : Statement (.cvtsE2m1Pack a0 a1 a2 a3 a4) := fun _ => ⟨rfl, rfl⟩
theorem cvtsE2m1Unpack (a0 a1 a2 a3 a4) : Statement (.cvtsE2m1Unpack a0 a1 a2 a3 a4) := fun _ => ⟨rfl, rfl⟩
theorem icmpLane (a0 a1 a2 a3 a4) : Statement (.icmpLane a0 a1 a2 a3 a4) := fun _ => ⟨rfl, rfl⟩
theorem icmpUniform (a0 a1 a2 a3) : Statement (.icmpUniform a0 a1 a2 a3) := fun _ => ⟨rfl, rfl⟩
theorem fcmp (a0 a1 a2 a3 a4) : Statement (.fcmp a0 a1 a2 a3 a4) := fun _ => ⟨rfl, rfl⟩
theorem pandLane (a0 a1 a2 a3) : Statement (.pandLane a0 a1 a2 a3) := fun _ => ⟨rfl, rfl⟩
theorem porLane (a0 a1 a2 a3) : Statement (.porLane a0 a1 a2 a3) := fun _ => ⟨rfl, rfl⟩
theorem pxorLane (a0 a1 a2 a3) : Statement (.pxorLane a0 a1 a2 a3) := fun _ => ⟨rfl, rfl⟩
theorem pandnLane (a0 a1 a2 a3) : Statement (.pandnLane a0 a1 a2 a3) := fun _ => ⟨rfl, rfl⟩
theorem pornLane (a0 a1 a2 a3) : Statement (.pornLane a0 a1 a2 a3) := fun _ => ⟨rfl, rfl⟩
theorem pandUniform (a0 a1 a2) : Statement (.pandUniform a0 a1 a2) := fun _ => ⟨rfl, rfl⟩
theorem porUniform (a0 a1 a2) : Statement (.porUniform a0 a1 a2) := fun _ => ⟨rfl, rfl⟩
theorem pxorUniform (a0 a1 a2) : Statement (.pxorUniform a0 a1 a2) := fun _ => ⟨rfl, rfl⟩
theorem pandnUniform (a0 a1 a2) : Statement (.pandnUniform a0 a1 a2) := fun _ => ⟨rfl, rfl⟩
theorem pornUniform (a0 a1 a2) : Statement (.pornUniform a0 a1 a2) := fun _ => ⟨rfl, rfl⟩
theorem gsel (a0 a1 a2) : Statement (.gsel a0 a1 a2) := fun _ => ⟨rfl, rfl⟩
theorem sel (a0 a1 a2) : Statement (.sel a0 a1 a2) := fun _ => ⟨rfl, rfl⟩
theorem ppack (a0 a1 a2) : Statement (.ppack a0 a1 a2) := fun _ => ⟨rfl, rfl⟩
theorem punpack (a0 a1 a2) : Statement (.punpack a0 a1 a2) := fun _ => ⟨rfl, rfl⟩
theorem shfl (a0 a1 a2 a3 a4) : Statement (.shfl a0 a1 a2 a3 a4) := fun _ => ⟨rfl, rfl⟩
theorem vscan (a0 a1 a2 a3) : Statement (.vscan a0 a1 a2 a3) := fun _ => ⟨rfl, rfl⟩
theorem vbal (a0 a1 a2) : Statement (.vbal a0 a1 a2) := fun _ => ⟨rfl, rfl⟩
theorem vred (a0 a1 a2 a3) : Statement (.vred a0 a1 a2 a3) := fun _ => ⟨rfl, rfl⟩
theorem ldLane (a0 a1 a2 a3 a4 a5 a6) : Statement (.ldLane a0 a1 a2 a3 a4 a5 a6) := fun _ => ⟨rfl, rfl⟩
theorem ldUniform (a0 a1 a2 a3 a4) : Statement (.ldUniform a0 a1 a2 a3 a4) := fun _ => ⟨rfl, rfl⟩
theorem stLane (a0 a1 a2 a3 a4 a5 a6) : Statement (.stLane a0 a1 a2 a3 a4 a5 a6) := fun _ => ⟨rfl, rfl⟩
theorem stUniform (a0 a1 a2 a3 a4) : Statement (.stUniform a0 a1 a2 a3 a4) := fun _ => ⟨rfl, rfl⟩
theorem ldq (a0 a1 a2 a3 a4) : Statement (.ldq a0 a1 a2 a3 a4) := fun _ => ⟨rfl, rfl⟩
theorem pref (a0 a1 a2 a3) : Statement (.pref a0 a1 a2 a3) := fun _ => ⟨rfl, rfl⟩
theorem braLane (a0 a1 a2 a3) : Statement (.braLane a0 a1 a2 a3) := fun _ => ⟨rfl, rfl⟩
theorem braUniform (a0 a1 a2) : Statement (.braUniform a0 a1 a2) := fun _ => ⟨rfl, rfl⟩
theorem jmpLane (a0 a1) : Statement (.jmpLane a0 a1) := fun _ => ⟨rfl, rfl⟩
theorem jmpUniform (a0) : Statement (.jmpUniform a0) := fun _ => ⟨rfl, rfl⟩
theorem callLane (a0 a1 a2) : Statement (.callLane a0 a1 a2) := fun _ => ⟨rfl, rfl⟩
theorem callUniform (a0 a1) : Statement (.callUniform a0 a1) := fun _ => ⟨rfl, rfl⟩
theorem nop (a0) : Statement (.nop a0) := fun _ => ⟨rfl, rfl⟩
theorem exit (a0) : Statement (.exit a0) := fun _ => ⟨rfl, rfl⟩
theorem yield (a0) : Statement (.yield a0) := fun _ => ⟨rfl, rfl⟩
theorem spawn (a0 a1 a2 a3) : Statement (.spawn a0 a1 a2 a3) := fun _ => ⟨rfl, rfl⟩
theorem rjset (a0 a1) : Statement (.rjset a0 a1) := fun _ => ⟨rfl, rfl⟩
theorem rjwait (a0 a1) : Statement (.rjwait a0 a1) := fun _ => ⟨rfl, rfl⟩
theorem trap (a0 a1) : Statement (.trap a0 a1) := fun _ => ⟨rfl, rfl⟩
theorem brk (a0) : Statement (.brk a0) := fun _ => ⟨rfl, rfl⟩
theorem atom (a0 a1 a2 a3 a4 a5 a6 a7 a8 a9) : Statement (.atom a0 a1 a2 a3 a4 a5 a6 a7 a8 a9) := fun _ => ⟨rfl, rfl⟩
theorem atomUniform (a0 a1 a2 a3 a4 a5 a6 a7) : Statement (.atomUniform a0 a1 a2 a3 a4 a5 a6 a7) := fun _ => ⟨rfl, rfl⟩
theorem red (a0 a1 a2 a3 a4 a5 a6 a7 a8) : Statement (.red a0 a1 a2 a3 a4 a5 a6 a7 a8) := fun _ => ⟨rfl, rfl⟩
theorem cpa (a0 a1 a2 a3 a4 a5) : Statement (.cpa a0 a1 a2 a3 a4 a5) := fun _ => ⟨rfl, rfl⟩
theorem stcmp (a0 a1 a2 a3 a4 a5 a6 a7 a8) : Statement (.stcmp a0 a1 a2 a3 a4 a5 a6 a7 a8) := fun _ => ⟨rfl, rfl⟩
theorem hld (a0 a1 a2 a3 a4 a5) : Statement (.hld a0 a1 a2 a3 a4 a5) := fun _ => ⟨rfl, rfl⟩
theorem hst (a0 a1 a2 a3 a4 a5) : Statement (.hst a0 a1 a2 a3 a4 a5) := fun _ => ⟨rfl, rfl⟩
theorem amsend (a0 a1 a2 a3 a4 a5 a6) : Statement (.amsend a0 a1 a2 a3 a4 a5 a6) := fun _ => ⟨rfl, rfl⟩
theorem rtret (a0 a1 a2 a3) : Statement (.rtret a0 a1 a2 a3) := fun _ => ⟨rfl, rfl⟩
theorem movx (a0 a1) : Statement (.movx a0 a1) := fun _ => ⟨rfl, rfl⟩
theorem bcast (a0 a1) : Statement (.bcast a0 a1) := fun _ => ⟨rfl, rfl⟩
theorem pick (a0 a1 a2) : Statement (.pick a0 a1 a2) := fun _ => ⟨rfl, rfl⟩
theorem fence (a0 a1) : Statement (.fence a0 a1) := fun _ => ⟨rfl, rfl⟩
theorem wait (a0 a1 a2 a3) : Statement (.wait a0 a1 a2 a3) := fun _ => ⟨rfl, rfl⟩
theorem tret : Statement .tret := fun _ => ⟨rfl, rfl⟩
theorem enter (a0) : Statement (.enter a0) := fun _ => ⟨rfl, rfl⟩
theorem leave (a0) : Statement (.leave a0) := fun _ => ⟨rfl, rfl⟩
theorem sread (a0 a1 a2) : Statement (.sread a0 a1 a2) := fun _ => ⟨rfl, rfl⟩
theorem swrite (a0 a1 a2) : Statement (.swrite a0 a1 a2) := fun _ => ⟨rfl, rfl⟩
theorem binit (a0 a1) : Statement (.binit a0 a1) := fun _ => ⟨rfl, rfl⟩
theorem barv (a0 a1 a2 a3) : Statement (.barv a0 a1 a2 a3) := fun _ => ⟨rfl, rfl⟩
theorem bwait (a0 a1) : Statement (.bwait a0 a1) := fun _ => ⟨rfl, rfl⟩
theorem bexp (a0 a1) : Statement (.bexp a0 a1) := fun _ => ⟨rfl, rfl⟩
theorem binval (a0) : Statement (.binval a0) := fun _ => ⟨rfl, rfl⟩
theorem ordrel : Statement .ordrel := fun _ => ⟨rfl, rfl⟩
theorem shld (a0 a1 a2) : Statement (.shld a0 a1 a2) := fun _ => ⟨rfl, rfl⟩
theorem shev (a0 a1) : Statement (.shev a0 a1) := fun _ => ⟨rfl, rfl⟩
theorem tld (a0 a1 a2 a3 a4 a5) : Statement (.tld a0 a1 a2 a3 a4 a5) := fun _ => ⟨rfl, rfl⟩
theorem tst (a0 a1 a2 a3 a4) : Statement (.tst a0 a1 a2 a3 a4) := fun _ => ⟨rfl, rfl⟩
theorem mldb (a0 a1 a2 a3 a4 a5 a6 a7) : Statement (.mldb a0 a1 a2 a3 a4 a5 a6 a7) := fun _ => ⟨rfl, rfl⟩
theorem mma (a0 a1 a2 a3 a4 a5 a6 a7 a8 a9) : Statement (.mma a0 a1 a2 a3 a4 a5 a6 a7 a8 a9) := fun _ => ⟨rfl, rfl⟩
theorem topen (a0 a1 a2 a3) : Statement (.topen a0 a1 a2 a3) := fun _ => ⟨rfl, rfl⟩
theorem tread (a0 a1 a2 a3 a4 a5) : Statement (.tread a0 a1 a2 a3 a4 a5) := fun _ => ⟨rfl, rfl⟩
theorem treadStat (a0 a1 a2) : Statement (.treadStat a0 a1 a2) := fun _ => ⟨rfl, rfl⟩
theorem tred (a0 a1 a2 a3 a4 a5) : Statement (.tred a0 a1 a2 a3 a4 a5) := fun _ => ⟨rfl, rfl⟩
theorem attn (a0 a1 a2 a3 a4 a5) : Statement (.attn a0 a1 a2 a3 a4 a5) := fun _ => ⟨rfl, rfl⟩
theorem attnMaxima (a0 a1 a2 a3 a4) : Statement (.attnMaxima a0 a1 a2 a3 a4) := fun _ => ⟨rfl, rfl⟩
theorem attnGiven (a0 a1 a2 a3 a4) : Statement (.attnGiven a0 a1 a2 a3 a4) := fun _ => ⟨rfl, rfl⟩
theorem attnFinish (a0 a1 a2 a3 a4 a5) : Statement (.attnFinish a0 a1 a2 a3 a4 a5) := fun _ => ⟨rfl, rfl⟩
theorem kvapp (a0 a1 a2 a3) : Statement (.kvapp a0 a1 a2 a3) := fun _ => ⟨rfl, rfl⟩
theorem kvfork (a0 a1 a2 a3) : Statement (.kvfork a0 a1 a2 a3) := fun _ => ⟨rfl, rfl⟩
theorem kvdrop (a0 a1) : Statement (.kvdrop a0 a1) := fun _ => ⟨rfl, rfl⟩
theorem cins (a0 a1 a2 a3) : Statement (.cins a0 a1 a2 a3) := fun _ => ⟨rfl, rfl⟩
theorem cmrg (a0 a1 a2) : Statement (.cmrg a0 a1 a2) := fun _ => ⟨rfl, rfl⟩
theorem crdCent (a0 a1 a2) : Statement (.crdCent a0 a1 a2) := fun _ => ⟨rfl, rfl⟩
theorem crdSum (a0 a1 a2) : Statement (.crdSum a0 a1 a2) := fun _ => ⟨rfl, rfl⟩
theorem crdCnt (a0 a1 a2) : Statement (.crdCnt a0 a1 a2) := fun _ => ⟨rfl, rfl⟩
theorem crdStat (a0 a1) : Statement (.crdStat a0 a1) := fun _ => ⟨rfl, rfl⟩
theorem ccfg (a0 a1) : Statement (.ccfg a0 a1) := fun _ => ⟨rfl, rfl⟩
theorem ccfgKeep (a0 a1) : Statement (.ccfgKeep a0 a1) := fun _ => ⟨rfl, rfl⟩
theorem ccfgFree (a0) : Statement (.ccfgFree a0) := fun _ => ⟨rfl, rfl⟩
theorem ssmld (a0 a1) : Statement (.ssmld a0 a1) := fun _ => ⟨rfl, rfl⟩
theorem ssmscan (a0 a1 a2 a3) : Statement (.ssmscan a0 a1 a2 a3) := fun _ => ⟨rfl, rfl⟩
theorem ssmstep (a0 a1 a2 a3) : Statement (.ssmstep a0 a1 a2 a3) := fun _ => ⟨rfl, rfl⟩
theorem ssmst (a0 a1) : Statement (.ssmst a0 a1) := fun _ => ⟨rfl, rfl⟩
theorem ssmstFree (a0 a1) : Statement (.ssmstFree a0 a1) := fun _ => ⟨rfl, rfl⟩
theorem route (a0 a1 a2 a3 a4 a5 a6 a7 a8 a9 a10 a11) : Statement (.route a0 a1 a2 a3 a4 a5 a6 a7 a8 a9 a10 a11) := fun _ => ⟨rfl, rfl⟩
theorem rtbind (a0 a1 a2) : Statement (.rtbind a0 a1 a2) := fun _ => ⟨rfl, rfl⟩
theorem rtrd (a0 a1 a2 a3) : Statement (.rtrd a0 a1 a2 a3) := fun _ => ⟨rfl, rfl⟩
theorem rtrdFree (a0 a1 a2 a3) : Statement (.rtrdFree a0 a1 a2 a3) := fun _ => ⟨rfl, rfl⟩
theorem svrd (a0 a1 a2) : Statement (.svrd a0 a1 a2) := fun _ => ⟨rfl, rfl⟩
theorem svwr (a0 a1 a2) : Statement (.svwr a0 a1 a2) := fun _ => ⟨rfl, rfl⟩
theorem svclr (a0 a1) : Statement (.svclr a0 a1) := fun _ => ⟨rfl, rfl⟩
theorem svsave (a0 a1 a2 a3) : Statement (.svsave a0 a1 a2 a3) := fun _ => ⟨rfl, rfl⟩
theorem svload (a0 a1 a2 a3) : Statement (.svload a0 a1 a2 a3) := fun _ => ⟨rfl, rfl⟩
theorem ambind (a0 a1 a2) : Statement (.ambind a0 a1 a2) := fun _ => ⟨rfl, rfl⟩
theorem ambindAll (a0 a1 a2) : Statement (.ambindAll a0 a1 a2) := fun _ => ⟨rfl, rfl⟩
theorem ambindInbox (a0 a1) : Statement (.ambindInbox a0 a1) := fun _ => ⟨rfl, rfl⟩
theorem ambindNone (a0 a1) : Statement (.ambindNone a0 a1) := fun _ => ⟨rfl, rfl⟩
theorem illegalOp : Statement .illegalOp := fun h => absurd h Bool.false_ne_true
theorem instructionFetchFault (a0) : Statement (.instructionFetchFault a0) := fun h => absurd h Bool.false_ne_true
theorem fibreAged (a0) : Statement (.fibreAged a0) := fun h => absurd h Bool.false_ne_true
theorem binTimerExpiry (a0 a1) : Statement (.binTimerExpiry a0 a1) := fun h => absurd h Bool.false_ne_true
theorem binLaunch (a0 a1) : Statement (.binLaunch a0 a1) := fun h => absurd h Bool.false_ne_true
theorem overflowRedelivery (a0 a1) : Statement (.overflowRedelivery a0 a1) := fun h => absurd h Bool.false_ne_true
theorem amArrival (a0) : Statement (.amArrival a0) := fun h => absurd h Bool.false_ne_true
theorem peerPortTransfer (a0 a1) : Statement (.peerPortTransfer a0 a1) := fun h => absurd h Bool.false_ne_true
theorem loadCompletion (a0 a1 a2) : Statement (.loadCompletion a0 a1 a2) := fun h => absurd h Bool.false_ne_true
theorem storePerformed (a0 a1 a2) : Statement (.storePerformed a0 a1 a2) := fun h => absurd h Bool.false_ne_true
theorem ldqFill (a0 a1) : Statement (.ldqFill a0 a1) := fun h => absurd h Bool.false_ne_true
theorem serviceGroupAtomic (a0) : Statement (.serviceGroupAtomic a0) := fun h => absurd h Bool.false_ne_true
theorem sectorLanding (a0 a1) : Statement (.sectorLanding a0 a1) := fun h => absurd h Bool.false_ne_true
theorem cpaLineTransfer (a0 a1) : Statement (.cpaLineTransfer a0 a1) := fun h => absurd h Bool.false_ne_true
theorem tldComplete (a0 a1) : Statement (.tldComplete a0 a1) := fun h => absurd h Bool.false_ne_true
theorem tstComplete (a0 a1) : Statement (.tstComplete a0 a1) := fun h => absurd h Bool.false_ne_true
theorem mldbComplete (a0 a1) : Statement (.mldbComplete a0 a1) := fun h => absurd h Bool.false_ne_true
theorem mmaComplete (a0 a1) : Statement (.mmaComplete a0 a1) := fun h => absurd h Bool.false_ne_true
theorem tredComplete (a0 a1) : Statement (.tredComplete a0 a1) := fun h => absurd h Bool.false_ne_true
theorem engineCommandComplete (a0 a1) : Statement (.engineCommandComplete a0 a1) := fun h => absurd h Bool.false_ne_true
theorem kvAccept : Statement .kvAccept := fun h => absurd h Bool.false_ne_true
theorem attnPhase1 (a0) : Statement (.attnPhase1 a0) := fun h => absurd h Bool.false_ne_true
theorem attnPhase2 (a0) : Statement (.attnPhase2 a0) := fun h => absurd h Bool.false_ne_true
theorem attnComplete (a0) : Statement (.attnComplete a0) := fun h => absurd h Bool.false_ne_true
theorem routeAccept (a0) : Statement (.routeAccept a0) := fun h => absurd h Bool.false_ne_true
theorem routePairSend (a0 a1) : Statement (.routePairSend a0 a1) := fun h => absurd h Bool.false_ne_true
theorem routeSpillReplay (a0 a1) : Statement (.routeSpillReplay a0 a1) := fun h => absurd h Bool.false_ne_true
theorem routeReturn (a0) : Statement (.routeReturn a0) := fun h => absurd h Bool.false_ne_true
theorem dropNotice (a0) : Statement (.dropNotice a0) := fun h => absurd h Bool.false_ne_true
theorem routeTimeout (a0 a1) : Statement (.routeTimeout a0 a1) := fun h => absurd h Bool.false_ne_true
theorem orderedWindowOpen (a0) : Statement (.orderedWindowOpen a0) := fun h => absurd h Bool.false_ne_true
theorem prefetchLand (a0 a1) : Statement (.prefetchLand a0 a1) := fun h => absurd h Bool.false_ne_true
theorem sliceBankSwitch (a0 a1) : Statement (.sliceBankSwitch a0 a1) := fun h => absurd h Bool.false_ne_true
theorem eccPatrol (a0) : Statement (.eccPatrol a0) := fun h => absurd h Bool.false_ne_true
theorem drainEnd (a0) : Statement (.drainEnd a0) := fun h => absurd h Bool.false_ne_true
theorem drainTimeout (a0) : Statement (.drainTimeout a0) := fun h => absurd h Bool.false_ne_true
theorem coreDump (a0) : Statement (.coreDump a0) := fun h => absurd h Bool.false_ne_true
theorem domainReset (a0) : Statement (.domainReset a0) := fun h => absurd h Bool.false_ne_true
theorem watchdog (a0 a1) : Statement (.watchdog a0 a1) := fun h => absurd h Bool.false_ne_true
theorem groupRetire (a0) : Statement (.groupRetire a0) := fun h => absurd h Bool.false_ne_true
theorem launchEnd (a0) : Statement (.launchEnd a0) := fun h => absurd h Bool.false_ne_true
theorem doorbell (a0) : Statement (.doorbell a0) := fun h => absurd h Bool.false_ne_true
theorem queuePull (a0 a1) : Statement (.queuePull a0 a1) := fun h => absurd h Bool.false_ne_true
theorem dependenceRecheck : Statement .dependenceRecheck := fun h => absurd h Bool.false_ne_true
theorem launchBegin (a0 a1) : Statement (.launchBegin a0 a1) := fun h => absurd h Bool.false_ne_true
theorem fenceRecordComplete (a0 a1) : Statement (.fenceRecordComplete a0 a1) := fun h => absurd h Bool.false_ne_true
theorem teamPlacement (a0 a1) : Statement (.teamPlacement a0 a1) := fun h => absurd h Bool.false_ne_true
theorem starvationLimit (a0 a1) : Statement (.starvationLimit a0 a1) := fun h => absurd h Bool.false_ne_true
theorem secondStarvationLimit (a0 a1) : Statement (.secondStarvationLimit a0 a1) := fun h => absurd h Bool.false_ne_true
theorem timeSliceExpiry (a0 a1) : Statement (.timeSliceExpiry a0 a1) := fun h => absurd h Bool.false_ne_true
theorem preemption (a0) : Statement (.preemption a0) := fun h => absurd h Bool.false_ne_true
theorem preemptionSave (a0) : Statement (.preemptionSave a0) := fun h => absurd h Bool.false_ne_true
theorem resume (a0 a1) : Statement (.resume a0 a1) := fun h => absurd h Bool.false_ne_true
theorem twinCompare (a0 a1) : Statement (.twinCompare a0 a1) := fun h => absurd h Bool.false_ne_true
theorem traceSample (a0 a1) : Statement (.traceSample a0 a1) := fun h => absurd h Bool.false_ne_true
theorem packetUrgent (a0) : Statement (.packetUrgent a0) := fun h => absurd h Bool.false_ne_true
theorem routerPowerDown (a0) : Statement (.routerPowerDown a0) := fun h => absurd h Bool.false_ne_true
theorem routerWake (a0) : Statement (.routerWake a0) := fun h => absurd h Bool.false_ne_true
theorem routerWakeEnd (a0) : Statement (.routerWakeEnd a0) := fun h => absurd h Bool.false_ne_true
theorem cPacketMerge (a0 a1) : Statement (.cPacketMerge a0 a1) := fun h => absurd h Bool.false_ne_true
theorem linkDown (a0) : Statement (.linkDown a0) := fun h => absurd h Bool.false_ne_true
theorem linkUp (a0) : Statement (.linkUp a0) := fun h => absurd h Bool.false_ne_true
theorem createContext (a0 a1 a2 a3) : Statement (.createContext a0 a1 a2 a3) := fun h => absurd h Bool.false_ne_true
theorem destroyContext (a0 a1 a2 a3) : Statement (.destroyContext a0 a1 a2 a3) := fun h => absurd h Bool.false_ne_true
theorem pageAbsentReply (a0 a1 a2 a3 a4) : Statement (.pageAbsentReply a0 a1 a2 a3 a4) := fun h => absurd h Bool.false_ne_true
theorem installHandlerTable (a0 a1 a2 a3) : Statement (.installHandlerTable a0 a1 a2 a3) := fun h => absurd h Bool.false_ne_true
theorem dumpConfiguration (a0 a1 a2 a3 a4 a5) : Statement (.dumpConfiguration a0 a1 a2 a3 a4 a5) := fun h => absurd h Bool.false_ne_true
theorem acknowledgeDumpReady (a0 a1 a2) : Statement (.acknowledgeDumpReady a0 a1 a2) := fun h => absurd h Bool.false_ne_true
theorem replaySetting (a0 a1 a2 a3) : Statement (.replaySetting a0 a1 a2 a3) := fun h => absurd h Bool.false_ne_true
theorem restartQueues (a0 a1 a2) : Statement (.restartQueues a0 a1 a2) := fun h => absurd h Bool.false_ne_true
theorem traceRing (a0 a1 a2 a3 a4 a5 a6) : Statement (.traceRing a0 a1 a2 a3 a4 a5 a6) := fun h => absurd h Bool.false_ne_true
theorem debuggerHoldStopResume (a0 a1 a2 a3) : Statement (.debuggerHoldStopResume a0 a1 a2 a3) := fun h => absurd h Bool.false_ne_true
theorem profilingSession (a0 a1 a2 a3 a4 a5 a6 a7) : Statement (.profilingSession a0 a1 a2 a3 a4 a5 a6 a7) := fun h => absurd h Bool.false_ne_true
theorem eventRing (a0 a1 a2 a3 a4) : Statement (.eventRing a0 a1 a2 a3 a4) := fun h => absurd h Bool.false_ne_true
theorem firmwarePolicy (a0 a1 a2 a3) : Statement (.firmwarePolicy a0 a1 a2 a3) := fun h => absurd h Bool.false_ne_true
theorem systemMap (a0 a1 a2 a3 a4) : Statement (.systemMap a0 a1 a2 a3 a4) := fun h => absurd h Bool.false_ne_true
theorem firmwareLoad (a0 a1 a2 a3) : Statement (.firmwareLoad a0 a1 a2 a3) := fun h => absurd h Bool.false_ne_true
theorem physicalRanges (a0 a1 a2 a3 a4) : Statement (.physicalRanges a0 a1 a2 a3 a4) := fun h => absurd h Bool.false_ne_true
theorem deviceResetRelease : Statement .deviceResetRelease := fun h => absurd h Bool.false_ne_true
theorem memoryTraining (a0) : Statement (.memoryTraining a0) := fun h => absurd h Bool.false_ne_true
theorem powerThrottle (a0 a1 a2) : Statement (.powerThrottle a0 a1 a2) := fun h => absurd h Bool.false_ne_true
theorem registerWrite (a0 a1 a2) : Statement (.registerWrite a0 a1 a2) := fun h => absurd h Bool.false_ne_true
theorem routerPowerDownCommit (a0) : Statement (.routerPowerDownCommit a0) := fun h => absurd h Bool.false_ne_true
theorem remoteAccess (a0 a1 a2 a3) : Statement (.remoteAccess a0 a1 a2 a3) := fun h => absurd h Bool.false_ne_true
theorem hostMemoryAccess (a0 a1 a2) : Statement (.hostMemoryAccess a0 a1 a2) := fun h => absurd h Bool.false_ne_true
theorem powerCap (a0) : Statement (.powerCap a0) := fun h => absurd h Bool.false_ne_true
theorem contextMigration (a0 a1) : Statement (.contextMigration a0 a1) := fun h => absurd h Bool.false_ne_true
theorem pageUnmap (a0 a1) : Statement (.pageUnmap a0 a1) := fun h => absurd h Bool.false_ne_true

end Sys2Proof.Laws.EncodedSize
end

