-- ==== Sys2Proof/Laws/Routes.lean ====
section
/-! SUPPORT. What the operations on the route table and on reassembly entries do. -/

namespace Sys2Proof.Laws

open Sys2Proof Sys2Proof.Machine

theorem field_extract (x : DWord) (a n : Nat) : field x.toNat a n = (x.extractLsb' a n).toNat := by
  simp [field, BitVec.extractLsb'_toNat, Nat.shiftRight_eq_div_pow]

theorem rtInfl_withInfl (e : DWord) (k : Nat) : rtInfl (withInfl e k) = k % 2 ^ 16 := by
  rw [rtInfl, field_extract]
  have h : (withInfl e k).extractLsb' 16 16 = BitVec.ofNat 16 k := by
    ext i hi
    simp only [withInfl, BitVec.getElem_extractLsb', BitVec.getLsbD_or, BitVec.getLsbD_and, BitVec.getLsbD_ofNat,
      Nat.testBit_mul_two_pow, Nat.testBit_mod_two_pow]
    have h1 : (~~~(0xFFFF0000 : DWord)).getLsbD (16 + i) = false := by
      revert i; decide
    rw [h1]
    have h2 : 16 + i < 64 := by omega
    have h3 : 16 + i - 16 = i := by omega
    have h4 := Nat.testBit_mod_two_pow k 16 i
    simp only [hi, decide_true, Bool.true_and] at h4
    simp only [h2, h3, hi, decide_true, Bool.true_and, Bool.and_false, Bool.false_or, Nat.le_add_right,
      BitVec.getElem_eq_testBit_toNat, BitVec.toNat_ofNat, h4]
  rw [h]; simp

/-- Bits outside INFL stay. -/
theorem extract_withInfl (e : DWord) (k a n : Nat) (h : a + n ≤ 16 ∨ 32 ≤ a) (h2 : a + n ≤ 64) :
    (withInfl e k).extractLsb' a n = e.extractLsb' a n := by
  ext i hi
  simp only [withInfl, BitVec.getElem_extractLsb', BitVec.getLsbD_or, BitVec.getLsbD_and, BitVec.getLsbD_ofNat,
    Nat.testBit_mul_two_pow, Nat.testBit_mod_two_pow]
  have h1 : ∀ j, j < 64 → (j < 16 ∨ 32 ≤ j) → (~~~(0xFFFF0000 : DWord)).getLsbD j = true := by decide
  rw [h1 (a + i) (by omega) (by omega)]
  have h3 : ¬ (16 ≤ a + i ∧ a + i - 16 < 16) := by omega
  by_cases h4 : 16 ≤ a + i
  · have h5 : ¬ a + i - 16 < 16 := by omega
    simp [h5]
  · simp [h4]

theorem rtCap_withInfl (e : DWord) (k : Nat) : rtCap (withInfl e k) = rtCap e := by
  rw [rtCap, rtCap, field_extract, field_extract, extract_withInfl _ _ _ _ (by omega) (by omega)]
theorem rtClu_withInfl (e : DWord) (k : Nat) : rtClu (withInfl e k) = rtClu e := by
  rw [rtClu, rtClu, field_extract, field_extract, extract_withInfl _ _ _ _ (by omega) (by omega)]
theorem rtHid_withInfl (e : DWord) (k : Nat) : rtHid (withInfl e k) = rtHid e := by
  rw [rtHid, rtHid, field_extract, field_extract, extract_withInfl _ _ _ _ (by omega) (by omega)]

theorem rtInfl_lt (e : DWord) : rtInfl e < 2 ^ 16 := by rw [rtInfl, field]; exact Nat.mod_lt _ (by decide)
theorem rtCap_lt (e : DWord) : rtCap e < 2 ^ 16 := by rw [rtCap, field]; exact Nat.mod_lt _ (by decide)

/-- A change of INFL: of one value of one team, to a number that fits. -/
theorem bumpInfl_law (team v : Nat) (f : Nat → Nat) (s : State) (h0 : f 0 = 0 ∨ ∃ t, kvGet s.teams team = some t)
    (hlt : f (rtInfl (rtEntry s team v)) < 2 ^ 16) :
    (bumpInfl team v f s) = { s with teams := (bumpInfl team v f s).teams } ∧
    (∀ w, rtInfl (rtEntry (bumpInfl team v f s) team w) = if w = v then f (rtInfl (rtEntry s team v)) else rtInfl (rtEntry s team w)) ∧
    (∀ w, rtCap (rtEntry (bumpInfl team v f s) team w) = rtCap (rtEntry s team w) ∧
      rtClu (rtEntry (bumpInfl team v f s) team w) = rtClu (rtEntry s team w) ∧
      rtHid (rtEntry (bumpInfl team v f s) team w) = rtHid (rtEntry s team w)) ∧
    ∀ k, k ≠ team → getTeam (bumpInfl team v f s) k = getTeam s k := by
  refine ⟨rfl, ?_, ?_, ?_⟩
  · intro w
    cases ht : kvGet s.teams team with
    | none =>
      have : ∀ w, rtEntry s team w = 0 := by intro w; simp [rtEntry, getTeam, kvGetD, ht]
      have h2 : ∀ w, rtEntry (bumpInfl team v f s) team w = 0 := by
        intro w
        simp [rtEntry, getTeam, kvGetD, bumpInfl, modTeam, ht]
      have hz : rtInfl 0 = 0 := by decide
      rw [h2, this, this, hz]
      rcases h0 with h0 | ⟨t, h0⟩
      · simp [h0]
      · rw [ht] at h0; cases h0
    | some t =>
      have h1 : ∀ w, rtEntry s team w = kvGetD t.routeTab w 0 := by intro w; simp [rtEntry, getTeam, kvGetD, ht]
      have h2 : rtEntry (bumpInfl team v f s) team w =
          if w = v then withInfl (kvGetD t.routeTab v 0) (f (rtInfl (kvGetD t.routeTab v 0))) else kvGetD t.routeTab w 0 := by
        simp only [rtEntry, getTeam, bumpInfl, modTeam]
        simp only [kvGetD, kvGet_kvMod_same, ht, Option.map_some, Option.getD_some]
        exact kvGetD_kvSet _ _ _ _ _
      rw [h1] at hlt
      rw [h2, h1, h1]
      by_cases hw : w = v
      · subst hw; simp only [if_true]; rw [rtInfl_withInfl, Nat.mod_eq_of_lt hlt]
      · simp only [hw, if_false]
  · intro w
    cases ht : kvGet s.teams team with
    | none =>
      have h1 : rtEntry s team w = 0 := by simp [rtEntry, getTeam, kvGetD, ht]
      have h2 : rtEntry (bumpInfl team v f s) team w = 0 := by
        simp [rtEntry, getTeam, kvGetD, bumpInfl, modTeam, ht]
      rw [h1, h2]; exact ⟨rfl, rfl, rfl⟩
    | some t =>
      have h1 : rtEntry s team w = kvGetD t.routeTab w 0 := by simp [rtEntry, getTeam, kvGetD, ht]
      have h2 : rtEntry (bumpInfl team v f s) team w =
          if w = v then withInfl (kvGetD t.routeTab v 0) (f (rtInfl (kvGetD t.routeTab v 0))) else kvGetD t.routeTab w 0 := by
        simp only [rtEntry, getTeam, bumpInfl, modTeam]
        simp only [kvGetD, kvGet_kvMod_same, ht, Option.map_some, Option.getD_some]
        exact kvGetD_kvSet _ _ _ _ _
      rw [h2, h1]
      by_cases hw : w = v
      · subst hw; simp only [if_true]; exact ⟨rtCap_withInfl _ _, rtClu_withInfl _ _, rtHid_withInfl _ _⟩
      · simp only [hw, if_false]; exact ⟨trivial, trivial, trivial⟩
  · intro k hk
    simp only [getTeam, bumpInfl, modTeam, kvGetD]
    rw [kvGet_kvMod_ne _ _ hk]

/-! ## Entries -/

theorem modEnt_law (core n : Nat) (f : RouteEnt → RouteEnt) {s : State} {x : RouteEnt} (h : getEnt s core n = some x) :
    modEnt core n f s = { s with cores := (modEnt core n f s).cores } ∧ getEnt (modEnt core n f s) core n = some (f x) ∧
    (∀ k, k ≠ core → getCore (modEnt core n f s) k = getCore s k) ∧
    ∀ k, k ≠ n → getEnt (modEnt core n f s) core k = getEnt s core k := by
  have hc : ∀ k, getCore (modEnt core n f s) k = if k = core then
      { getCore s core with eng := { (getCore s core).eng with ents := kvMod (getCore s core).eng.ents n f } } else getCore s k := by
    intro k
    simp only [modEnt, modEng, getCore_modCore]
  refine ⟨rfl, ?_, ?_, ?_⟩
  · have := hc core
    simp only [if_true] at this
    simp only [getEnt, engOf, this, kvGet_kvMod_same]
    have h' : kvGet (getCore s core).eng.ents n = some x := h
    rw [h']; rfl
  · intro k hk; rw [hc]; simp only [hk, if_false]
  · intro k hk
    have := hc core
    simp only [if_true] at this
    simp only [getEnt, engOf, this]
    exact kvGet_kvMod_ne _ _ hk

theorem zipRange_map {α : Type} (l : List α) (i : Nat) (g : α → α) (k : Nat) :
    ((l.zip (List.range' k l.length)).map fun p => if p.2 = k + i then g p.1 else p.1) =
      match l[i]? with | some x => l.set i (g x) | none => l := by
  induction l generalizing i k with
  | nil => rfl
  | cons a l ih =>
    cases i with
    | zero =>
      simp only [List.length_cons, List.range'_succ, List.zip_cons_cons, List.map_cons, Nat.add_zero, if_true,
        List.getElem?_cons_zero, List.set_cons_zero, List.cons.injEq, true_and]
      have : ∀ p ∈ l.zip (List.range' (k + 1) l.length), (if p.2 = k then g p.1 else p.1) = p.1 := by
        intro p hp
        have h2 := (List.of_mem_zip hp).2
        rw [List.mem_range'_1] at h2
        have : p.2 ≠ k := by omega
        simp only [this, if_false]
      rw [List.map_congr_left this, List.map_fst_zip (by simp)]
    | succ i =>
      simp only [List.length_cons, List.range'_succ, List.zip_cons_cons, List.map_cons, List.getElem?_cons_succ]
      have h1 : ¬ k = k + (i + 1) := by omega
      simp only [h1, if_false]
      have := ih i (k + 1)
      have h2 : k + 1 + i = k + (i + 1) := by omega
      rw [h2] at this
      rw [this]
      cases l[i]? <;> rfl

theorem setPair_law {x : RouteEnt} {i : Nat} {p : RPair} (h : x.pairs[i]? = some p) (st : PairSt) :
    setPair x i st = { x with pairs := x.pairs.set i { p with st := st } } := by
  have := zipRange_map x.pairs i (fun p => { p with st := st }) 0
  rw [h] at this
  simp only [Nat.zero_add, ← List.range_eq_range'] at this
  simp only [setPair, this]

theorem modRow_law (x : RouteEnt) (r : Nat) (f : RowCount → RowCount) :
    modRow x r f = { x with rows := x.rows.set r (f (x.rows.getD r {})) } := by
  have := zipRange_map x.rows r f 0
  simp only [Nat.zero_add, ← List.range_eq_range'] at this
  simp only [modRow, this]
  cases h : x.rows[r]? with
  | none =>
    have hl : x.rows.length ≤ r := by simpa using h
    simp [List.set_eq_of_length_le hl]
  | some y => simp [List.getD, h]

theorem dropPair_law {x : RouteEnt} {i : Nat} {p : RPair} (h : x.pairs[i]? = some p) :
    dropPair x i p.row = pairOver x i p droppedRow := by
  rw [dropPair, setPair_law h, modRow_law]; rfl

theorem find_zipRange {α : Type} (l : List α) (q : α → Bool) (k i : Nat) (a : α)
    (h : ((List.range' k l.length).zip l).find? (fun p => q p.2) = some (i, a)) : k ≤ i ∧ l[i - k]? = some a ∧ q a = true := by
  induction l generalizing k with
  | nil => simp at h
  | cons b l ih =>
    simp only [List.length_cons, List.range'_succ, List.zip_cons_cons, List.find?_cons] at h
    by_cases hq : q b = true
    · simp only [hq] at h
      cases h
      exact ⟨Nat.le_refl _, by simp, hq⟩
    · simp only [hq] at h
      obtain ⟨h1, h2, h3⟩ := ih (k + 1) h
      refine ⟨by omega, ?_, h3⟩
      have : i - k = (i - (k + 1)) + 1 := by omega
      rw [this, List.getElem?_cons_succ]; exact h2

theorem pairAt_law {x : RouteEnt} {row slot i : Nat} {p : RPair} (h : pairAt x row slot = some (i, p)) : x.pairs[i]? = some p := by
  rw [pairAt, List.range_eq_range'] at h
  have := (find_zipRange x.pairs (fun p => p.row == row && p.slot == slot) 0 i p h).2.1
  simpa using this

theorem find_zipRange_first {α : Type} (l : List α) (q : α → Bool) (k i : Nat) (a : α) (ha : l[i]? = some a) (hq : q a = true)
    (hb : ∀ j b, j < i → l[j]? = some b → q b = false) :
    ((List.range' k l.length).zip l).find? (fun p => q p.2) = some (k + i, a) := by
  induction l generalizing k i with
  | nil => simp at ha
  | cons b l ih =>
    simp only [List.length_cons, List.range'_succ, List.zip_cons_cons, List.find?_cons]
    cases i with
    | zero =>
      simp only [List.getElem?_cons_zero, Option.some.injEq] at ha
      subst ha
      simp [hq]
    | succ i =>
      have h0 := hb 0 b (by omega) (by simp)
      simp only [h0]
      have := ih (k + 1) i (by simpa using ha) (fun j b hj hl => hb (j + 1) b (by omega) (by simpa using hl))
      rw [this]
      congr 2
      omega

theorem nextPair_law {x : RouteEnt} {i : Nat} {p : RPair} (h : x.pairs[i]? = some p) (hp : p.st = .unsent)
    (hb : ∀ j q, j < i → x.pairs[j]? = some q → q.st ≠ .unsent) : nextPair x = some (i, p) := by
  rw [nextPair, List.range_eq_range']
  have := find_zipRange_first x.pairs (fun p => p.st == .unsent) 0 i p h (by simp [hp])
    (fun j q hj hq => by have := hb j q hj hq; simpa using this)
  simpa using this

end Sys2Proof.Laws
end

