-- ==== Sys2Proof/Tests/Slice0.lean ====
section
/-! SUPPORT. The model's own tests: words of the manual that decode as it prints them, words composed from its format
tables, terms that each check of the encoding refuses, and states that meet the hypotheses of the statements. -/

namespace Sys2Proof.Tests

open Sys2Proof Sys2Proof.Machine

/-! ## Decoding: words that the manual prints (chapters 02 to 17, and the entries of chapters 19 to 22) -/

/-- One-word instructions. -/
def dec1 (ws : List Nat) : List (Option Instr) := ws.map (decodeTableWord 32)

/-- Two-word instructions, word 1 at bits 63 to 32. -/
def dec2 (ws : List (Nat × Nat)) : List (Option Instr) := ws.map fun w => decodeTableWord 64 (w.1 + 2 ^ 32 * w.2)

/-- What the words should decode to. -/
def are (is : List Instr) : List (Option Instr) := is.map some

theorem test_decode_integer_words :
    dec1 [0x02020818, 0x82020418, 0x02020819, 0x04020818, 0x1C020805, 0x9C0205FF, 0x0602081A, 0x08142028,
          0x0A2244C9, 0x8C020406, 0x0E020818, 0x0E02081A, 0x8E020418, 0x102244D8, 0x10102049, 0x900E0A30] =
      are [.iaddLane false .wrap 1 2 3, .iaddUniform .wrap 1 2 3, .iaddLane false .sats 1 2 3, .isubLane false .wrap 1 2 3,
           .iaddiLane false 1 2 5, .iaddiUniform 1 2 (-1), .imulLane false .hiN 1 2 3, .imadLane false 10 8 5,
           .iminLane false true 17 17 25, .imaxUniform false 1 2 3, .andLane false 1 2 3, .xorLane false 1 2 3,
           .andUniform 1 2 3, .shlLane false 17 17 27, .shrNLane false 8 8 9, .shlUniform 7 5 6] := rfl

theorem test_decode_unary_and_field_words :
    dec1 [0x12020802, 0x12020801, 0x12202C03, 0x92020404, 0x12244000, 0x92020400, 0x140208E4, 0x18020818, 0x94020406,
          0x1A08080A, 0x1E041234, 0x1E07000F, 0x9E200000, 0x9E210001] =
      are [.brevLane false 1 2, .clzLane false 1 2, .iabsLane false 16 11, .inegUniform 1 2, .popcLane false 18 16,
           .popcUniform 1 2, .bfxLane false 1 2 7 4, .bfiLane false 1 2 3, .bfxUniform 1 2 3, .leaLane false 4 2 1 2,
           .movkLane false 2 0x1234, .movkHiLane false 3 0xF, .movkUniform 16 0, .movkHiUniform 16 1] := rfl

theorem test_decode_float_words :
    dec1 [0x20020818, 0x26081431, 0x2C020800, 0x2C020804, 0x2E020801, 0x2E020803, 0x30020808, 0x30061081, 0x320C143A,
          0x320C143B] =
      are [.fadd false .f32 1 2 3, .fma false .bf16x2 4 5 6, .fabs false 1 2, .frndDn false 1 2, .frsq false 1 2,
           .fexp2 false 1 2, .cvt false 1 2 .s32 .f32 .rn, .cvt false 3 4 .f32 .s32 .rz, .cvtsE4m3Pack false 6 5 7 1,
           .cvtsE4m3Unpack false 6 5 7 1] := rfl

theorem test_decode_predicate_and_cross_words :
    dec1 [0x4202081A, 0x40020C16, 0x4002081A, 0xA620020A, 0x46060000, 0x46060400, 0x44020818, 0xA8220406, 0x483058A8,
          0x4A020001, 0x4A000804, 0x500A1033, 0x522E5800, 0x54200400, 0x56263400] =
      are [.fcmp false .lt 1 2 3, .icmpLane false .ltN 1 3 2, .icmpLane false .ltS 1 2 3, .icmpUniform .eq 1 1 5,
           .gsel false 3 false, .gsel false 3 true, .pandLane false 1 2 3, .porUniform 1 2 3, .sel 24 22 21,
           .ppack false 1 1, .punpack false 2 0, .shfl false .xor 5 4 6, .vscan false .addExcl 23 22, .vbal false 16 1,
           .vred false .add 19 13] := rfl

theorem test_decode_move_and_special_words :
    dec1 [0xA1F40060, 0xA2300A00, 0xA4122600, 0xC8020103, 0xC804000F, 0xCA000810] =
      are [.movx 1000 3, .bcast 24 5, .pick 9 19 0, .sread true 1 3, .sread false 2 0x0F, .swrite false 4 0x10] := rfl

theorem test_decode_memory_words :
    dec1 [0x60001000, 0x6008212C, 0xB0140480, 0xB0140449, 0x64F01000, 0x66001380, 0x66001383, 0x62001200, 0xB2100451] =
      are [.ldLane false .b32 .none .grp 0 4 0, .ldLane false .b64 .acq .dev 4 8 2, .ldUniform .none .grp 10 2 4,
           .ldUniform .acq .team 10 2 2, .ldq false .grp 120 4 0, .pref false .grp 4 7, .pref false .clu 4 7,
           .stLane false .b32 .none .grp 0 4 4, .stUniform .rel .team 8 2 2] ∧
    dec2 [(0x7C1C0878, 0x00400001), (0xF8008090, 0x00004005), (0x7C000891, 0x00400004), (0x7C000891, 0x04400004),
          (0x7C100802, 0x00000014), (0x7C100802, 0x00000200), (0x7C006873, 0x00002000), (0x7C006873, 0x00002400),
          (0x7C141034, 0x00100002), (0x7C001035, 0x00018000)] =
      are [.atom false .add false .none .team false 14 2 15 1, .atomUniform .add false .none .dev false 5 8 9,
           .red false .add false .none .team false 2 18 4, .red false .add false .rel .team false 2 18 4,
           .cpa false .b32 false 8 2 20, .cpa false .b32 true 8 2 0,
           .stcmp false false .none .grp false false 26 14 1, .stcmp false false .none .grp false true 26 14 1,
           .hld false .b64 10 4 6 2, .hst false .b32 4 6 12 0] := ⟨rfl, rfl⟩

theorem test_decode_message_words :
    dec2 [(0x7C001006, 0x01010000), (0x7C001006, 0x05010000), (0x7C001016, 0x01410400), (0x7C00001F, 0), (0x7C00001F, 0x04000000)] =
      are [.amsend false false false false 4 0 8, .amsend false true false false 4 0 8, .amsend false false true true 4 2 8,
           .rtret false false 0 3, .rtret false true 0 3] := rfl

theorem test_decode_control_words :
    dec1 [0x7006FFFD, 0xC0300006, 0x723C1001, 0xC23C0801, 0x72007800, 0xC2003C00, 0x74000000, 0x75000000, 0x74000001,
          0x75000001, 0x74000002, 0x75000002, 0x76001047, 0x78000400, 0x79000400, 0x78000401, 0x78000001, 0x7A000000,
          0x7B000000, 0x7A000005, 0x7B00000C, 0xC4000000, 0xC6000003, 0xC6010003] =
      are [.braLane false 3 false (-3), .braUniform 1 true 6, .callLane false 30 4, .callUniform 30 4, .jmpLane false 30,
           .jmpUniform 30, .nop false, .nop true, .exit false, .exit true, .yield false, .yield true, .spawn false 4 8 7,
           .rjset false 1, .rjset true 1, .rjwait false 1, .rjwait false 0, .brk false, .brk true, .trap false 5,
           .trap true 12, .tret, .enter 3, .leave 3] := rfl

theorem test_decode_ordering_and_barrier_words :
    dec1 [0xB4000011, 0xB4000009, 0xB400001C, 0xB603FFFF, 0xB6FC0FFF, 0xB603FFC0, 0xD000280E, 0xD20C2800, 0xD20C282B,
          0xD400280C, 0xD600282A, 0xD8002800, 0xDA000000] =
      are [.fence .rel .team, .fence .acq .team, .fence .ar .dev, .wait 0 63 63 63, .wait 63 0 63 63, .wait 0 63 63 0,
           .binit 20 7, .barv false 6 20 0, .barv true 6 20 21, .bwait 20 6, .bexp 20 21, .binval 20, .ordrel] := rfl

theorem test_decode_engine_words :
    dec2 [(0xE000A000, 0x18000000), (0xE0100000, 0x18000000), (0xE200A0C1, 0x10000010), (0xE210A0C0, 0x10000010),
          (0xE400A000, 0x00007F00), (0xE400A002, 0x0000D10E), (0xE600A0B0, 0x00007000), (0xE600A0B4, 0x0014A600),
          (0xE8008000, 0), (0xE8008000, 0x00000100), (0xE8114160, 0x00002000), (0xE8100000, 0x00000209),
          (0xE8214160, 0x08000017), (0xEA0080C0, 0x00002010)] =
      are [.shld 0 3 10, .shev 0 3, .tld 0 true 2 10 12 16, .tst 0 2 10 12 16, .mldb 0 .s8 false false 0xF 10 0 0,
           .mldb 0 .cb2 false true 1 10 0 14, .mma 0 .s8 0 false false false 0 10 11 0,
           .mma 0 .e4m3 6 true false false 0 10 11 20, .topen 0 false 0 8, .topen 0 true 0 8,
           .tread 0 .f32 false 0 20 22, .treadStat 0 0 9, .tred 0 false 1 20 22 23, .attn 0 .f32 false 8 12 16] := rfl

theorem test_decode_unit_words :
    dec2 [(0xEC008140, 0x00000015), (0xEC108160, 0x00000018), (0xEC208000, 0), (0xEE000000, 0x00040009),
          (0xEE000001, 0x00040009), (0xEE100000, 0x00000109), (0xEE209000, 0x00060000), (0xEE20C000, 0x00000209),
          (0xEE30A000, 0), (0xF000A000, 0), (0xF010C0D0, 0x10000000), (0xF020C0D0, 0x10000000), (0xF030A000, 0x00000100),
          (0xF200A0C0, 0x00183009), (0xF200A0C0, 0x00183109), (0xF2111120, 0), (0xF2209000, 0x001C0116),
          (0xF4004000, 8), (0xF4104080, 0), (0xF4204000, 0), (0xF430A000, 0), (0xF440A000, 0), (0xF6011040, 0x00000100)] =
      are [.kvapp 0 8 20 21, .kvfork 0 8 22 24, .kvdrop 0 8, .cins 0 false 9 4, .cins 0 true 9 4, .cmrg 0 true 9,
           .crdCent 0 6 9, .crdCnt 0 9 12, .ccfg 0 10, .ssmld 0 10, .ssmscan 0 2 12 13, .ssmstep 0 2 12 13,
           .ssmstFree 0 10, .route 0 true .stall 0 false false false 0 10 12 9 24,
           .route 0 true .drop 0 false false false 0 10 12 9 24, .rtbind 0 17 18, .rtrdFree 0 28 22 9, .svrd 0 8 4,
           .svwr 0 4 8, .svclr 0 4, .svsave 0 false 10 0, .svload 0 false 10 0, .ambindAll 0 17 4] := rfl

/-! ## Decoding: words composed from the format tables of R40, R44 and R46, for the rows of which no word is printed -/

/-- An LR word. -/
def lr (major g d a b f : Nat) : Nat := major * 2 ^ 25 + g * 2 ^ 24 + d * 2 ^ 17 + a * 2 ^ 10 + b * 2 ^ 3 + f
/-- A GRF word. -/
def grf (major d a b f : Nat) : Nat := 2 ^ 31 + major * 2 ^ 25 + d * 2 ^ 17 + a * 2 ^ 9 + b * 2 ^ 3 + f
/-- A GR word. -/
def gr (major d a b s : Nat) : Nat := 2 ^ 31 + major * 2 ^ 25 + d * 2 ^ 17 + a * 2 ^ 9 + b * 2 + s
/-- A GC word. -/
def gc (major gp cond a b : Nat) : Nat := 2 ^ 31 + major * 2 ^ 25 + gp * 2 ^ 21 + cond * 2 ^ 17 + a * 2 ^ 9 + b * 2
/-- The words of a GW instruction. -/
def gw (major sub a b misc t cv v fmt mode c : Nat) : Nat × Nat :=
  (2 ^ 31 + major * 2 ^ 25 + sub * 2 ^ 20 + a * 2 ^ 12 + b * 2 ^ 4 + misc,
   t * 2 ^ 27 + cv * 2 ^ 23 + v * 2 ^ 16 + fmt * 2 ^ 12 + mode * 2 ^ 8 + c)

theorem test_decode_composed_lane_integer :
    dec1 [lr 0x06 1 3 127 120 1, lr 0x07 0 1 2 3 1, lr 0x07 1 1 2 3 3, lr 0x08 0 1 2 3 2, lr 0x08 1 119 118 117 3,
          lr 0x09 0 9 8 0 4, 0x0B * 2 ^ 25 + 5 * 2 ^ 17 + 6 * 2 ^ 10 + 31 * 2 ^ 5 + 1] =
      are [.imaxLane true true 3 127 120, .orLane false 1 2 3, .andnLane true 1 2 3, .shrSLane false 1 2 3,
           .rotLane true 119 118 117, .inegLane false 9 8, .bfxsLane false 5 6 31 1] := rfl

theorem test_decode_composed_uniform_integer :
    dec1 [grf 0x02 1 2 63 2, grf 0x03 255 254 3 1, gr 0x04 1 2 3 0, gr 0x05 1 2 255 1, grf 0x07 1 2 3 1, grf 0x07 1 2 3 2,
          grf 0x07 1 2 3 3, grf 0x08 1 2 3 1, grf 0x08 1 2 3 2, grf 0x08 1 2 3 3, grf 0x09 1 2 0 1, grf 0x09 1 2 0 2,
          grf 0x09 1 2 0 3, gr 0x0B 1 2 3 0, gr 0x0C 1 2 3 0, grf 0x0D 1 2 3 7] =
      are [.isubUniform .satn 1 2 63, .imulUniform .hiS 255 254 3, .imadUniform 1 2 3, .iminUniform true 1 2 255,
           .orUniform 1 2 3, .xorUniform 1 2 3, .andnUniform 1 2 3, .shrNUniform 1 2 3, .shrSUniform 1 2 3, .rotUniform 1 2 3,
           .clzUniform 1 2, .brevUniform 1 2, .iabsUniform 1 2, .bfxsUniform 1 2 3, .bfiUniform 1 2 3, .leaUniform 1 2 3 7] := rfl

theorem test_decode_composed_float :
    dec1 [lr 0x11 0 1 2 3 2, lr 0x12 0 1 2 3 1, lr 0x14 0 1 2 3 0, lr 0x15 1 1 2 3 0, lr 0x16 0 1 2 0 1, lr 0x16 0 1 2 0 2,
          lr 0x16 0 1 2 0 3, lr 0x16 0 1 2 0 5, lr 0x17 0 1 2 0 0, lr 0x17 0 1 2 0 2, lr 0x17 0 1 2 0 4, lr 0x1A 0 1 2 3 6,
          lr 0x1A 0 1 2 3 1, lr 0x1B 0 1 2 3 4, lr 0x1B 0 1 2 3 3] =
      are [.fsub false .f16x2 1 2 3, .fmul false .bf16x2 1 2 3, .fmin false .f32 1 2 3, .fmax true .f32 1 2 3, .fneg false 1 2,
           .frndRn false 1 2, .frndRz false 1 2, .frndUp false 1 2, .frcp false 1 2, .fsqrt false 1 2, .flog2 false 1 2,
           .cvtsE5m2Pack false 1 2 3 3, .cvtsE5m2Unpack false 1 2 3 0, .cvtsE2m1Pack false 1 2 3 2,
           .cvtsE2m1Unpack false 1 2 3 1] := rfl

theorem test_decode_composed_predicates :
    dec1 [lr 0x22 0 127 2 3 1, lr 0x22 0 1 2 3 2, lr 0x22 0 1 2 3 3, lr 0x22 0 1 2 3 4, gc 0x14 15 0 2 3, gc 0x14 1 2 2 3,
          gc 0x14 1 3 2 3, gc 0x14 1 4 2 3] =
      are [.porLane false 127 2 3, .pxorLane false 1 2 3, .pandnLane false 1 2 3, .pornLane false 1 2 3, .pandUniform 15 2 3,
           .pxorUniform 1 2 3, .pandnUniform 1 2 3, .pornUniform 1 2 3] := rfl

theorem test_decode_composed_engines :
    dec2 [gw 0x35 0 8 12 0 0 1 0 0 5 16, gw 0x35 0 8 12 0 0 15 0 0 2 16, gw 0x35 0 8 12 0 0 0 0 4 7 16,
          gw 0x37 2 9 0 0 0 0 6 0 1 0, gw 0x37 2 0 0 0 0 0 0 0 3 8, gw 0x37 3 10 0 0 0 0 0 0 1 0, gw 0x37 3 0 0 0 0 2 0 0 2 0,
          gw 0x38 3 10 0 0 0 0 0 0 0 0, gw 0x39 2 9 0 0 0 0 28 0 0 22, gw 0x3B 0 17 4 0 0 0 0 0 0 0, gw 0x3B 0 17 0 0 0 0 0 0 2 0,
          gw 0x3B 0 17 0 0 0 0 0 0 3 0, gw 0x33 0 10 11 7 28 0 119 6 4 0, gw 0x39 0 10 12 7 31 15 117 2 14 255] =
      are [.attnMaxima 1 true 8 12 16, .attnGiven 15 false 8 12 16, .attnFinish 0 .f16 true 8 12 16, .crdSum 0 6 9,
           .crdStat 0 8, .ccfgKeep 0 10, .ccfgFree 2, .ssmst 0 10, .rtrd 0 28 22 9, .ambind 0 17 4, .ambindInbox 0 17,
           .ambindNone 0 17] ++ [none, some (.route 15 false .spill 3 true true true 31 10 12 255 117)] := rfl

/-- Reserved majors, function codes, sizes, orders and scopes, odd pairs, and fields that a rule names as zero (R58). -/
theorem test_decode_refuses_reserved :
    dec1 [0, 0xFFFFFFFF, lr 0x1C 0 0 0 0 0, lr 0x01 0 1 2 3 3, lr 0x09 0 1 2 3 0, lr 0x24 1 1 2 3 0, 0x60000400,
          0x60001010, 0x60001006, lr 0x3A 0 0 0 0 3, lr 0x2B 0 1 2 0 4, lr 0x3B 0 4 4 8 7, 0xC8000020, 0xB4000000] =
      [none, none, none, none, none, none, none, none, none, none, none, none, none, none] ∧
    dec2 [(0x7C1C0878, 0x60400001), (0x7C1C0C78, 0x00400001), (0xE600A0B0, 0x00008000), (0xE0200000, 0), (0xEC208000, 1)] =
      [none, none, none, none, none] := ⟨rfl, rfl⟩

/-! ## What the encoding refuses: an ill-formed term for each check of WellFormed -/

/-- No instruction of a list is well-formed. -/
def refused (is : List Instr) : Bool := is.all fun i => !i.wf

theorem test_wf_registers :
    refused [.vbal false 3 1, .vbal false 120 1, .jmpLane false 120, .callLane false 120 4, .callLane false 4 120,
      .spawn false 120 0 0, .spawn false 0 113 7, .bcast 120 0, .pick 0 120 0, .rjset false 0, .trap false 0,
      .fence .none .dev, .cins 0 false 9 120, .crdCent 0 120 9, .crdSum 0 7 9, .rtrd 0 120 22 9, .rtrdFree 0 120 22 9,
      .cvt false 1 2 .s32 .s32 .rn, .cvt false 1 2 .s4 .f32 .rn, .cvt false 1 2 .f32 .e4m3 .rn, .cvt false 1 3 .s64 .f32 .rn,
      .cvt false 3 2 .f32 .s64 .rn] = true := rfl

theorem test_wf_memory :
    refused [.ldLane false .b32 .rel .grp 0 4 0, .ldLane false .b64 .none .grp 3 4 0, .ldLane false .b128 .none .grp 2 4 0,
      .ldLane false .b32 .none .grp 120 4 0, .ldLane false .b32 .none .grp 0 5 0, .ldUniform .rel .grp 0 4 0,
      .ldUniform .none .grp 0 5 0, .stLane false .b32 .acq .grp 0 4 0, .stLane false .b128 .none .grp 6 4 0,
      .stLane false .b32 .none .grp 0 120 0, .stUniform .acq .grp 0 4 0, .stUniform .none .grp 0 5 0, .ldq false .grp 7 4 0,
      .ldq false .grp 120 5 0, .pref false .team 4 0, .pref false .grp 5 0, .hld false .b64 3 4 6 0, .hld false .b32 3 5 6 0,
      .hld false .b32 3 4 120 0, .hst false .b128 4 6 2 0, .hst false .b32 5 6 2 0, .hst false .b32 4 120 2 0,
      .cpa false .b16 false 8 2 0, .cpa false .b32 false 120 2 0, .cpa false .b32 false 8 3 0, .cpa false .b32 true 8 2 1,
      .stcmp false false .acq .grp false false 4 6 1, .stcmp false false .none .grp false false 5 6 1,
      .stcmp false true .none .grp false false 4 7 1] = true := rfl

theorem test_wf_atomics :
    refused [.atom false .addX64 false .none .dev false 4 2 6 0, .atom false .faddF32 true .none .dev false 4 2 6 0,
      .atom false .add true .none .dev false 5 2 6 0, .atom false .add false .none .dev false 120 2 6 0,
      .atom false .add false .none .dev false 4 3 6 0, .atom false .cas false .none .dev false 4 2 119 0,
      .atom false .cas true .none .dev false 4 2 118 0, .atomUniform .addX64 false .none .dev false 4 2 6,
      .atomUniform .add true .none .dev false 5 2 6, .atomUniform .add false .none .dev false 4 3 6,
      .atomUniform .cas false .none .dev false 4 2 255, .atomUniform .cas true .none .dev false 4 2 254,
      .red false .exch false .none .dev false 2 6 0, .red false .cas false .none .dev false 2 6 0,
      .red false .add false .acq .dev false 2 6 0, .red false .add false .none .dev false 3 6 0,
      .red false .faddF32 true .none .dev false 2 6 0] = true := rfl

theorem test_wf_messages_and_special :
    refused [.amsend false false false false 120 0 8, .amsend false false false false 4 0 4, .amsend false false false false 4 0 120,
      .amsend false false false false 4 2 8, .amsend false false false true 4 3 8, .rtret false false 3 4,
      .rtret false false 2 120, .sread false 0 0x13, .sread false 0 0x20, .sread true 120 0, .sread false 3 0x0F,
      .swrite false 0 0x00, .swrite true 120 0x0E, .barv false 6 20 1] = true := rfl

theorem test_wf_engines :
    refused [.shld 0 3 9, .tld 0 true 2 10 12 255, .mldb 0 .f32 false false 1 10 0 0, .mldb 0 .s8 false false 0 10 0 0,
      .mldb 0 .s8 false false 1 11 0 0, .mldb 0 .s8 true false 1 10 3 0, .mldb 0 .s8 false false 1 10 2 0,
      .mldb 0 .s8 false true 1 10 0 14, .mldb 0 .cb2 false false 1 10 0 14, .mma 0 .f32 0 false false false 0 10 11 0,
      .mma 0 .s8 7 false false false 0 10 11 0, .mma 0 .s8 4 false false false 29 10 11 0, .mma 0 .s8 5 false false false 31 10 11 0,
      .mma 0 .s8 0 false false false 0 10 11 1, .mma 0 .s8 0 true false false 0 10 11 120, .mma 0 .s8 6 true false false 0 10 11 119,
      .tread 0 .s4 false 0 20 22, .tread 0 .f32 false 0 21 22, .tred 0 false 1 21 22 23, .attn 0 .s32 false 8 12 16,
      .attn 0 .f32 false 9 12 16, .attn 0 .f32 false 8 253 16, .attn 0 .f32 false 8 12 17, .attnMaxima 0 false 9 12 16,
      .attnMaxima 0 false 8 253 16, .attnMaxima 0 false 8 12 17, .attnGiven 0 false 9 12 16, .attnGiven 0 false 8 253 16,
      .attnGiven 0 false 8 12 17, .attnFinish 0 .s32 false 8 12 16, .attnFinish 0 .f32 false 9 12 16,
      .attnFinish 0 .f32 false 8 13 16, .attnFinish 0 .f32 false 8 254 16, .attnFinish 0 .f32 false 8 12 17] = true := rfl

theorem test_wf_units :
    refused [.kvapp 0 9 20 21, .kvfork 0 9 22 24, .kvfork 0 8 22 25, .kvdrop 0 9, .crdStat 0 9, .ccfg 0 9, .ccfgKeep 0 9,
      .ssmld 0 9, .ssmst 0 9, .ssmstFree 0 9, .route 0 true .stall 0 false false false 0 10 13 9 24,
      .route 0 true .stall 0 false false false 0 10 252 9 24, .route 0 true .stall 0 false false false 0 10 12 9 118,
      .rtbind 0 17 19, .svrd 0 6 4, .svwr 0 4 6, .svsave 0 true 11 4, .svsave 0 false 10 1, .svload 0 true 11 4,
      .svload 0 false 10 1, .ambind 0 17 5, .ambindAll 0 17 5, .illegalOp, .doorbell 0] = true := rfl

/-! ## The network: places, routes and power as chapter 15 gives them -/

/-- R262, R265: cluster 0 stands at column 0 of row 1 and cluster 63 at column 7 of row 3, two hops away: by row, then by column. -/
theorem test_route : clusterRouter 0 = 8 ∧ clusterRouter 63 = 31 ∧ across 8 (outPort 8 (.cluster 63)) = (15, 0) ∧
    across 15 (outPort 15 (.cluster 63)) = (31, 9) ∧ outPort 31 (.cluster 63) = localPort (.cluster 63) := by decide

/-- R271, cases A to C, for a router whose inputs fall empty after cycle 0. -/
theorem test_router_power :
    let p := beginPowerDown 128 { power := .on, idleSince := 0 }
    let off := commitPowerDown 131 p
    p.power = .powering ∧ (wakeRouter 130 p).power = .on ∧
    (kvGetD (powerRouters 131 [0] [] { routers := [(0, p)] }).routers 0 {}).power = .on ∧
    off.power = .off ∧ (wakeRouter 132 off).power = .waking ∧ (endWake 152 (wakeRouter 132 off)).power = .on ∧
    (endWake 151 (wakeRouter 132 off)).power = .waking := by decide +kernel

/-! ## States that meet the hypotheses of the statements -/

/-- A fibre of eight registers: v1 is no multiple of 4, v3:v2 is an address in local memory, v5:v4 the address 128 and v7:v6
one in local memory that is no multiple of 4. -/
def demoFibre : Fibre := { regs := [0, 0x42, 0, 0xF0000, 128, 0, 2, 0xF0000], launch := some 1 }

/-- A group of team 1 with some fibres; its uniform registers hold what v0 to v7 do and then zeros, and its port 0 is bound to
loads and holds one entry. -/
def demoGroupOf (fs : KV Fibre) : Group :=
  let g := newGroup { team := 1, launch := 1, hdr := { regs := 8, uregs := 32, localBytes := 4096 } } fs
  { g with
    uregs := [0, 0x42, 0, 0xF0000, 128, 0, 2, 0xF0000] ++ List.replicate 24 0,
    ports := g.ports.set 0 { kind := 1, fifo := [[7]] } }

/-- A translation of the first 64 KiB to themselves, with every permission. -/
def demoPage : TlbEnt :=
  { owner := 0, va := 0, size := 65536, pa := 0, home := 0, hcore := 0, r := true, w := true, x := true }

/-- The machine in READY with one group, in slot 0 of core 0, whose path of lane 0 is the one that issues. Every cause has a
handler at 0. -/
def demoWith (g : Group) : State :=
  { dev := { phase := 5 },
    cores := [(0, { tlb := [demoPage], banks := [{ owner := 0 }] })],
    groups := [(0, g)],
    teams := [(1, { launch := 1, hdr := { localBytes := 4096 }, groups := [0], live := 1 })],
    launches := [(1, { teams := 1, placed := 1 })],
    ctxs := [(0, { desc := 4096 })],
    domains := [(0, { handlers := List.replicate 32 1 })],
    cur := { mask := 1 } }

/-- The group of one fibre. -/
def demoGroup : Group := demoGroupOf [(0, demoFibre)]

/-- The machine with that group. -/
def demo : State := demoWith demoGroup

/-- The guard of its fibre is false. -/
def demoOff : Group := demoGroupOf [(0, { demoFibre with guardN := true })]

/-- A group of two fibres, of which lane 0 is the path that issues. -/
def demoTwo : Group := demoGroupOf [(0, demoFibre), (1, demoFibre)]

theorem demo_gid (g : Group) : curGid (demoWith g) = 0 := by simp [curGid, gidOf, demoWith]

theorem demo_on (g : Group) : OnPath (demoWith g) g := by rw [OnPath, demo_gid]; rfl

theorem demo_on_of {s : State} {g : Group} (h : s.groups = [(0, g)]) (hc : s.cur = { mask := 1 }) : OnPath s g := by
  simp [OnPath, curGid, gidOf, h, hc, kvGet]

theorem demo_counts {fs : KV Fibre} {vs us : List Nat}
    (h : (vs.all (fun r => decide (r < 8 ∨ 120 ≤ r)) && us.all fun r => decide (r < 32)) = true) :
    InCounts (demoGroupOf fs) vs us := by
  simp only [Bool.and_eq_true, List.all_eq_true, decide_eq_true_eq] at h
  exact ⟨fun r hr _ => by show r < 8; have := h.1 r hr; omega, fun r hr => by show r < 32; exact h.2 r hr⟩

theorem demo_pending (m : LaneMask) (vs us : List Nat) : NotPending demoGroup m vs us := by
  refine ⟨fun l _ r _ _ => ?_, fun r _ => ?_⟩
  · have : (getFibre demoGroup l).pend = 0 := by
      by_cases hl : l = 0
      · subst hl; rfl
      · have : kvGet demoGroup.fibres l = none := by
          simp [demoGroup, demoGroupOf, newGroup, kvGet, List.find?, hl]
          try exact fun h => hl h.symm
        simp [getFibre, kvGetD, this]
    rw [this]; simp
  · show (0 : BitVec 1024).getLsbD r = false
    simp

theorem demo_ports {rs : List Nat} (h : rs.all (fun r => decide (r ≤ 120)) = true) : PortsFull demoGroup rs := by
  intro r hr h1
  have := List.all_eq_true.mp h r hr
  simp only [decide_eq_true_eq] at this
  have : r = 120 := by omega
  subst this
  exact ⟨rfl, by decide⟩

theorem witness_demo : OnPath demo demoGroup ∧ demo.cur.mask ≠ 0 ∧ actMask true demo = 1 :=
  ⟨demo_on _, by decide, by decide⟩

/-- A trap of every cause that a domain may handle goes to the handler. -/
theorem demo_handler {g : Group} {code : Nat} (hg : g.trap.handler = none) (hs : g.st = .resident) (hp : g.place = demoGroup.place)
    (hq : g.sched.stopPending = false)
    (hc : 1 ≤ code ∧ code ≤ 0x1E ∧ code ≠ 0x04 ∧ code ≠ 0x17 ∧ code ≠ 0x1B) : HandlerTakes (demoWith g) g code 0 := by
  refine ⟨⟨hg, by rw [hs]; decide⟩, ?_, hc, ⟨1, ?_, by decide, by decide⟩, hq⟩
  · rw [hp]; rfl
  · rw [hp]
    show (List.replicate 32 (1 : Word))[code]? = some 1
    rw [List.getElem?_replicate, if_pos (by omega)]

theorem witness_HandlerTakes : HandlerTakes demo demoGroup 0x01 0 ∧ HandlerTakes demo demoGroup 0x1E 0 :=
  ⟨demo_handler rfl rfl rfl rfl (by decide), demo_handler rfl rfl rfl rfl (by decide)⟩

theorem witness_LaneIntegerResult : ∃ F, laneIntForm (.iaddLane true .sats 7 120 3) = some F ∧ OnPath demo demoGroup ∧
    InCounts demoGroup (F.srcs.map BitVec.toNat ++ [F.d.toNat]) [] ∧
    NotPending demoGroup (actMask F.g demo) (F.srcs.map BitVec.toNat ++ [F.d.toNat]) [] ∧ F.d.toNat < 120 ∧
    actMask F.g demo ≠ 0 ∧ PortsFull demoGroup (F.srcs.map BitVec.toNat) :=
  ⟨_, rfl, demo_on _, demo_counts rfl, demo_pending .., by decide, by decide, demo_ports rfl⟩

theorem witness_UniformIntegerResult : ∃ F, uniIntForm (.iaddUniform .satn 31 31 0) = some F ∧ OnPath demo demoGroup ∧
    InCounts demoGroup [] (F.srcs ++ [F.d]) ∧ NotPending demoGroup 0 [] (F.srcs ++ [F.d]) :=
  ⟨_, rfl, demo_on _, demo_counts rfl, demo_pending ..⟩

theorem witness_LaneFloatResult : ∃ F, floatForm (.fma false .bf16x2 7 120 120) = some F ∧ OnPath demo demoGroup ∧
    InCounts demoGroup (F.srcs.map BitVec.toNat ++ [F.d.toNat]) [] ∧
    NotPending demoGroup (actMask F.g demo) (F.srcs.map BitVec.toNat ++ [F.d.toNat]) [] ∧ F.d.toNat < 120 ∧
    actMask F.g demo ≠ 0 ∧ PortsFull demoGroup (F.srcs.map BitVec.toNat) :=
  ⟨_, rfl, demo_on _, demo_counts rfl, demo_pending .., by decide, by decide, demo_ports rfl⟩

/-- Of a pair to a single register, and the other way. -/
theorem witness_ConversionResult : OnPath demo demoGroup ∧
    InCounts demoGroup [6, 7, 5] [] ∧ NotPending demoGroup (actMask false demo) [6, 7, 5] [] ∧ (∀ r ∈ [5], r < 120) ∧
    PortsFull demoGroup [6, 7] ∧ InCounts demoGroup [120, 6, 7] [] ∧ NotPending demoGroup (actMask false demo) [120, 6, 7] [] ∧
    (∀ r ∈ [6, 7], r < 120) ∧ PortsFull demoGroup [120] :=
  ⟨demo_on _, demo_counts rfl, demo_pending .., by decide, demo_ports rfl, demo_counts rfl, demo_pending .., by decide, demo_ports rfl⟩

theorem witness_PredicateResult : ∃ F, predForm (.icmpLane false .ltN 127 120 0) = some F ∧ OnPath demo demoGroup ∧
    InCounts demoGroup (F.srcs.map BitVec.toNat) [] ∧ NotPending demoGroup (actMask F.g demo) (F.srcs.map BitVec.toNat) [] ∧
    actMask F.g demo ≠ 0 ∧ PortsFull demoGroup (F.srcs.map BitVec.toNat) :=
  ⟨_, rfl, demo_on _, demo_counts rfl, demo_pending .., by decide, demo_ports rfl⟩

theorem witness_UniformPredicateResult : ∃ F, uniPredForm (.icmpUniform .geN 15 31 0) = some F ∧ OnPath demo demoGroup ∧
    InCounts demoGroup [] F.srcs ∧ NotPending demoGroup 0 [] F.srcs :=
  ⟨_, rfl, demo_on _, demo_counts rfl, demo_pending ..⟩

/-- SEL of v7 from q0 and v0; PPACK into v7. -/
theorem witness_GuardAndSelect : OnPath demo demoGroup ∧ InCounts demoGroup [120, 0, 7] [] ∧
    NotPending demoGroup demo.cur.mask [120, 0, 7] [] ∧ (7#7).toNat < 120 ∧ PortsFull demoGroup [120, 0] ∧
    InCounts demoGroup [7] [] ∧ NotPending demoGroup (actMask true demo) [7] [] :=
  ⟨demo_on _, demo_counts rfl, demo_pending .., by decide, demo_ports rfl, demo_counts rfl, demo_pending ..⟩

/-- BCAST of g31 into v7; PICK of v7 of an empty slot and of lane 0 into g31. -/
theorem witness_MovesBetweenSets : OnPath demo demoGroup ∧ InCounts demoGroup [7] [31] ∧
    NotPending demoGroup demo.cur.mask [7] [31] ∧ kvGet demoGroup.fibres 63 = none ∧
    (∀ x, kvGet demoGroup.fibres 0 = some x → 7 < 120 → x.pend.getLsbD 7 = false) ∧ demoGroup.upend.getLsbD 31 = false :=
  ⟨demo_on _, demo_counts rfl, demo_pending .., rfl, by intro x h _; cases h; simp [demoFibre],
    by simp [demoGroup, demoGroupOf, newGroup]⟩

/-- SHFL of v7 from q0 by v0, and VSCAN of v7 from q0. -/
theorem witness_ShuffleAndScan : OnPath demo demoGroup ∧ InCounts demoGroup [120, 0, 7] [] ∧
    NotPending demoGroup (actMask false demo) [120, 0, 7] [] ∧ PortsFull demoGroup [120, 0] ∧ InCounts demoGroup [120, 7] [] ∧
    NotPending demoGroup (actMask false demo) [120, 7] [] ∧ PortsFull demoGroup [120] :=
  ⟨demo_on _, demo_counts rfl, demo_pending .., demo_ports rfl, demo_counts rfl, demo_pending .., demo_ports rfl⟩

/-- VBAL into v6 and v7, and VRED of v7 from q0. -/
theorem witness_BallotAndReduce : OnPath demo demoGroup ∧ InCounts demoGroup [6, 7] [] ∧
    NotPending demoGroup (actMask false demo) [6, 7] [] ∧ InCounts demoGroup [120, 7] [] ∧
    NotPending demoGroup (actMask false demo) [120, 7] [] ∧ PortsFull demoGroup [120] :=
  ⟨demo_on _, demo_counts rfl, demo_pending .., demo_counts rfl, demo_pending .., demo_ports rfl⟩

/-- The targets in v0 and g0 are aligned; those in v1 and g1 are not. -/
theorem witness_JumpsAndCalls : OnPath demo demoGroup ∧ InCounts demoGroup [0, 7] [] ∧ InCounts demoGroup [] [0, 31] ∧
    NotPending demoGroup (actMask true demo) [0, 7] [] ∧ NotPending demoGroup 0 [] [0, 31] ∧
    (∀ l, inMask (actMask true demo) l = true → (getReg (getFibre demoGroup l) 0).extractLsb' 0 2 = 0) ∧
    inMask (actMask true demo) 0 = true ∧ (getReg (getFibre demoGroup 0) 1).extractLsb' 0 2 ≠ 0 ∧
    (getU demoGroup 0).extractLsb' 0 2 = 0 ∧ (getU demoGroup 1).extractLsb' 0 2 ≠ 0 ∧ HandlerTakes demo demoGroup 0x02 0 := by
  refine ⟨demo_on _, demo_counts rfl, demo_counts rfl, demo_pending .., demo_pending .., ?_, rfl, by decide, rfl, by decide,
    demo_handler rfl rfl rfl rfl (by decide)⟩
  intro l _
  by_cases hl : l = 0
  · subst hl; rfl
  · have : kvGet demoGroup.fibres l = none := by
      simp [demoGroup, demoGroupOf, newGroup, kvGet, List.find?, hl]
      try exact fun h => hl h.symm
    simp [getFibre, kvGetD, this, getReg]

/-- The owner's bank is resident, or it is not; a predictor with no entry names PC + 4. -/
theorem witness_BranchTraining : OnPath demo demoGroup ∧
    (getCore demo 0).banks.find? (fun b => b.owner == demoGroup.place.owner) = some { owner := 0 } ∧
    predictedPc 0 demo.cur.pc = demo.cur.pc + 4 ∧
    (getCore { demo with cores := [] } 0).banks.find? (fun b => b.owner == demoGroup.place.owner) = none :=
  ⟨demo_on _, by decide, by decide, by decide⟩

/-- No lane acts; the only lane acts, and none stays; one of two acts; the last lane of a handler acts. -/
theorem witness_NopYieldExit : OnPath (demoWith demoOff) demoOff ∧ actMask true (demoWith demoOff) = 0 ∧ actMask false demo ≠ 0 ∧
    (∀ e ∈ demoGroup.fibres, inMask (actMask false demo) e.1 = true) ∧
    ¬ (∀ e ∈ demoTwo.fibres, inMask (actMask false (demoWith demoTwo)) e.1 = true) ∧
    (∃ k, ({ demoTwo with trap := { demoTwo.trap with handler := some ⟨1, 0, false⟩ } } : Group).trap.handler = some k ∧
      ∀ e ∈ demoTwo.fibres, inMask k.mask e.1 = true → inMask (actMask false (demoWith demoTwo)) e.1 = true) :=
  ⟨demo_on _, by decide, by decide, by decide, by decide, ⟨_, rfl, by decide⟩⟩

/-- A register not being signed, being signed here, and being signed elsewhere. -/
theorem witness_RejoinSetAndWait : (getCv demoGroup 15).tv = false ∧
    (let g := { demoGroup with cvs := demoGroup.cvs.set 1 { decl := 3, sign := 2, tag := 0, tv := true } }
     OnPath (demoWith g) g ∧ (getCv g 1).tv = true ∧ (getCv g 1).tag ++ 0#2 = (demoWith g).cur.pc) ∧
    (let g := { demoGroup with cvs := demoGroup.cvs.set 1 { decl := 3, sign := 2, tag := 1, tv := true } }
     OnPath (demoWith g) g ∧ (getCv g 1).tv = true ∧ (getCv g 1).tag ++ 0#2 ≠ (demoWith g).cur.pc ∧
       HandlerTakes (demoWith g) g 0x07 0) :=
  ⟨rfl, ⟨demo_on _, by decide, by decide⟩, ⟨demo_on _, by decide, by decide, demo_handler rfl rfl rfl rfl (by decide)⟩⟩

/-- A register that all its declared lanes have signed, cv0, which every fibre of the group has, and one that lane 63 has not. -/
theorem witness_ConvergenceCompletes :
    (let g := { demoTwo with cvs := (demoTwo.cvs.set 15 { decl := 3, sign := 3, tv := true }).set 0 { sign := 3, tv := true } }
     kvGet (demoWith g).groups 0 = some g ∧ 15 < g.cvs.length ∧ (getCv g 15).sign ≠ 0 ∧
       (∀ l, l < 64 → inMask (getCv g 15).decl l = true → inMask (getCv g 15).sign l = true) ∧ (getCv g 15).eng = none ∧
       (∀ l, l < 64 → kvGet g.fibres l ≠ none → inMask (getCv g 0).sign l = true)) ∧
    (let g := { demoTwo with cvs := demoTwo.cvs.set 1 { decl := 1#64 <<< 63 ||| 1, sign := 1, tv := true } }
     ¬ ∀ l, l < 64 → inMask (getCv g 1).decl l = true → inMask (getCv g 1).sign l = true) :=
  ⟨⟨rfl, by decide, by decide, fun _ _ h => h, rfl, by decide +kernel⟩, fun h => absurd (h 63) (by decide)⟩

theorem witness_TrapRecordLayout : (0xFF < 256 ∧ 2 ^ 64 - 1 < 2 ^ 64 ∧ 2 ^ 32 - 1 < 2 ^ 32 ∧ 2 ^ 16 - 1 < 2 ^ 16) ∧
    trapWords { code := 0x1E, detail := 255, addr := 2 ^ 64 - 1, progress := 63, async := true, retPc := 8, mask := 5 } true 255 0xFFFF =
      [0x00FF031E, 8, 5, 0, 0xFFFFFFFF, 0xFFFFFFFF, 63, 0x00FFFFFF] := by decide

/-- No lane acts; a lane acts and the cause has a handler; a debugger session holds the domain. -/
theorem witness_TrapInstructions : OnPath (demoWith demoOff) demoOff ∧ actMask true (demoWith demoOff) = 0 ∧ OnPath demo demoGroup ∧
    actMask true demo ≠ 0 ∧ (getDom demo demoGroup.place.dom).session = false ∧ HandlerTakes demo demoGroup 0x10 0 ∧
    HandlerTakes demo demoGroup 0x11 0 ∧
    (getDom { demo with domains := [(0, { session := true })] } demoGroup.place.dom).session = true :=
  ⟨demo_on _, by decide, demo_on _, by decide, rfl, demo_handler rfl rfl rfl rfl (by decide), demo_handler rfl rfl rfl rfl (by decide), rfl⟩

/-- No handler runs and the table has no valid entry; a handler runs for the path itself. -/
theorem witness_FatalTrapHaltsContext :
    (let s := { demo with domains := [(0, { handlers := List.replicate 32 0 })] }
     OnPath s demoGroup ∧ kvGet s.ctxs demoGroup.place.owner = some { desc := 4096 } ∧ demoGroup.st ≠ .suspended ∧ s.cur.mask ≠ 0 ∧
       (getDom s demoGroup.place.dom).session = false ∧ demoGroup.trap.handler = none ∧
       ∀ e, (getDom s demoGroup.place.dom).handlers[0x10]? = some e → e.getLsbD 0 = false) ∧
    (let g := { demoGroup with trap := { demoGroup.trap with handler := some ⟨1, 0, false⟩ } }
     OnPath (demoWith g) g ∧ ∀ k, g.trap.handler = some k → k.mask = (demoWith g).cur.mask) :=
  ⟨⟨demo_on_of rfl rfl, rfl, by decide, by decide, rfl, rfl,
    by intro e h; have h0 : e = 0 := (Option.some.inj (h.symm.trans (by decide : _ = some (0 : Word)))); subst h0; decide⟩, demo_on _, by intro k h; cases h; rfl⟩

/-- A handler of an STCMP that trapped at the PC it goes back to, a handler whose TRAPREC1 is misaligned, and TRET outside a
handler. -/
theorem witness_ReturnFromTrap :
    (let g := { demoGroup with trap := { demoGroup.trap with handler := some ⟨1, 0, true⟩ } }
     OnPath (demoWith g) g ∧ ∃ k, g.trap.handler = some k ∧ (g.trap.words.getD 1 0).extractLsb' 0 2 = 0 ∧ k.stcmp = true ∧
       g.trap.words.getD 1 0 = k.faultPc) ∧
    (let g := { demoGroup with trap := { demoGroup.trap with words := List.replicate 8 2, handler := some ⟨1, 0, false⟩ } }
     OnPath (demoWith g) g ∧ (g.trap.words.getD 1 0).extractLsb' 0 2 ≠ 0 ∧ overlaps 1 (demoWith g).cur.mask = true ∧
       g.trap.pageFault = none ∧ kvGet (demoWith g).ctxs g.place.owner = some { desc := 4096 }) ∧
    demoGroup.trap.handler = none ∧ HandlerTakes demo demoGroup 0x01 0 :=
  ⟨⟨demo_on _, _, rfl, by decide, rfl, by decide⟩, ⟨demo_on _, by decide, by decide, rfl, rfl⟩, rfl, demo_handler rfl rfl rfl rfl (by decide)⟩

theorem witness_UnfetchableWordsTrap : OnPath demo demoGroup ∧ HandlerTakes demo demoGroup 0x05 0 ∧ demoGroup.trap.handler = none ∧
    demoGroup.st ≠ .suspended ∧ (getCtx demo demoGroup.place.owner).fatal = none :=
  ⟨demo_on _, demo_handler rfl rfl rfl rfl (by decide), rfl, by decide, rfl⟩

/-- v8 is past the kernel's count; v7 is pending in lane 0. -/
theorem witness_RegisterChecks : ∃ F, laneIntForm (.iaddLane false .wrap 7 0 1) = some F ∧
    ¬ InCounts demoGroup [0, 1, 8] [] ∧
    (let g := demoGroupOf [(0, { demoFibre with pend := 128 })]
     OnPath (demoWith g) g ∧ InCounts g (F.srcs.map BitVec.toNat ++ [F.d.toNat]) [] ∧ inMask (actMask F.g (demoWith g)) 0 = true ∧
       ∃ r ∈ F.srcs.map BitVec.toNat ++ [F.d.toNat], r < 120 ∧ (getFibre g 0).pend.getLsbD r = true) :=
  ⟨_, rfl, fun h => absurd (h.1 8 (by decide)) (by decide), demo_on _, demo_counts rfl, by decide, 7, by decide, by decide, by decide⟩

/-- The stack is full, is empty, holds another id at its top, and holds the id at its top. -/
theorem witness_RegionStack : OnPath (demoWith { demoGroup with depth := 255 }) { demoGroup with depth := 255 } ∧
    demoGroup.depth = 0 ∧
    (let g := { demoGroup with regions := List.replicate 15 1 ++ [2], depth := 16 }
     OnPath (demoWith g) g ∧ g.depth ≠ 255 ∧ (g.depth ≤ 16 ∧ regionAt g (g.depth - 1) ≠ (3#16).toNat) ∧
       regionAt g (g.depth - 1) = (2#16).toNat ∧ (getDom (demoWith g) g.place.dom).trace = none ∧ g.sched.stopPending = false) :=
  ⟨demo_on _, rfl, demo_on _, by decide, by decide, by decide, rfl, rfl⟩

/-- An entry address in v0 with arguments v0 to v7, and a misaligned one in v1. -/
theorem witness_SpawnMakesFibres : OnPath demo demoGroup ∧ InCounts demoGroup [0, 0, 1, 2, 3, 4, 5, 6, 7] [] ∧
    NotPending demoGroup (actMask false demo) [0, 0, 1, 2, 3, 4, 5, 6, 7] [] ∧ 4096 ≤ ovfFree demo demoGroup.place.owner ∧
    (∀ o ∈ demoGroup.ops, o.done = true ∨ overlaps o.act (actMask false demo) = false) ∧
    (getReg (getFibre demoGroup 0) 0).extractLsb' 0 2 = 0 ∧ (getReg (getFibre demoGroup 0) 1).extractLsb' 0 2 ≠ 0 :=
  ⟨demo_on _, demo_counts rfl, demo_pending .., by decide, by decide, by decide, by decide⟩

/-- PATHMASK into v6 and v7, and into g30 and g31. -/
theorem witness_SpecialRegisterRead : OnPath demo demoGroup ∧ InCounts demoGroup [6, 7] [] ∧ InCounts demoGroup [] [30, 31] ∧
    NotPending demoGroup demo.cur.mask [6, 7] [] ∧ NotPending demoGroup demo.cur.mask [] [30, 31] :=
  ⟨demo_on _, demo_counts rfl, demo_counts rfl, demo_pending .., demo_pending ..⟩

theorem witness_SpecialRegisterWrite : OnPath demo demoGroup ∧ InCounts demoGroup [7] [] ∧ InCounts demoGroup [] [31] ∧
    NotPending demoGroup demo.cur.mask [7] [] ∧ NotPending demoGroup demo.cur.mask [] [31] ∧ 7 < 8 :=
  ⟨demo_on _, demo_counts rfl, demo_counts rfl, demo_pending .., demo_pending .., by decide⟩

/-- Words of QBIND that bind port 7 to loads, and to send to port 7 of group 1, are in order; kind 5, the direction of a
kind that has none, a reserved bit, the group itself and a group that is absent are not. -/
theorem witness_QueueBinding : OnPath demo demoGroup ∧ demoGroup.ports.length = 8 ∧ InCounts demoGroup [] [31] ∧
    NotPending demoGroup demo.cur.mask [] [31] ∧
    ((0xE4000000#32).extractLsb' 26 3).toNat = 1 ∧ (0xE4000000#32).getLsbD 16 = false ∧ (0xE4000000#32).extractLsb' 0 16 = 0 ∧
    ((0xF01E0000#32).extractLsb' 26 3).toNat = 4 ∧ ((0xF01E0000#32).extractLsb' 20 6).toNat = 1 ∧
    (groupOfTeam { demo with groups := [(0, demoGroup), (1, { demoGroup with place := { demoGroup.place with num := 1 } })] } 1 1).isSome ∧
    5 ≤ ((0x14000000#32).extractLsb' 26 3).toNat ∧ (0x04010000#32).getLsbD 16 = true ∧ (0x04000001#32).extractLsb' 0 16 ≠ 0 ∧
    ((0x10000000#32).extractLsb' 20 6).toNat = demoGroup.place.num ∧ groupOfTeam demo 1 63 = none :=
  ⟨demo_on _, rfl, demo_counts rfl, demo_pending .., by decide⟩

/-! ### Memory -/

theorem demo_queue (g : Group) (c : Nat) : svcQ (demoWith g) c = [] := rfl

/-- The accesses of an instruction all have a place. -/
theorem places_of {F : MemForm} {s : State} {g : Group} (ls : List Nat) (h : memLanes F s = ls)
    (h2 : ls.all (fun l => (F.place s g l).isOk) = true) : ∀ l ∈ memLanes F s, ∃ x, F.place s g l = .ok x := by
  intro l hl
  rw [h] at hl
  have := List.all_eq_true.mp h2 l hl
  revert this
  cases F.place s g l with
  | ok x => exact fun _ => ⟨x, rfl⟩
  | error e => exact fun h => absurd h (by simp [Except.isOk, Except.toBool])

theorem demo_service {F : MemForm} (h : (memAccs F demo demoGroup).length ≤ 1) (c : Nat) : (svcQ demo c).length +
    ((memAccs F demo demoGroup).filter fun a => svcCluster demo (memOp F demo demoGroup []) a == some c).length ≤ 1024 := by
  have := List.length_filter_le (fun a => svcCluster demo (memOp F demo demoGroup []) a == some c) (memAccs F demo demoGroup)
  rw [show svcQ demo c = [] from rfl, List.length_nil]
  omega

/-- A load of one lane from global memory, and a uniform store to local memory, may issue. -/
theorem witness_MemoryOperationsIssue :
    (∃ F, memForm (.ldLane false .b64 .acq .dev 6 4 7) = some F ∧ OnPath demo demoGroup ∧
      InCounts demoGroup (memRegs F).1 (memRegs F).2 ∧ NotPending demoGroup (memMask F demo) (memRegs F).1 (memRegs F).2 ∧
      MemReady F demo demoGroup) ∧
    ∃ F, memForm (.stUniform .rel .team 31 2 15) = some F ∧ InCounts demoGroup (memRegs F).1 (memRegs F).2 ∧
      NotPending demoGroup (memMask F demo) (memRegs F).1 (memRegs F).2 ∧ MemReady F demo demoGroup := by
  refine ⟨⟨_, rfl, demo_on _, demo_counts rfl, demo_pending .., ?_⟩, ⟨_, rfl, demo_counts rfl, demo_pending .., ?_⟩⟩
  · refine ⟨places_of [0] (by decide) (by decide), by decide, by decide, fun h => absurd h (by decide), ?_,
      fun _ => demo_service (by decide), ?_, ?_, .inl (by decide)⟩
    · rintro _ ⟨op, w, r, h⟩; cases h
    · rintro p h; cases h
    · rintro p h; cases h
  · refine ⟨places_of [64] (by decide) (by decide), by decide, by decide, fun h => absurd h (by decide),
      fun h => absurd h (by decide), fun _ => demo_service (by decide), ?_, ?_, .inl (by decide)⟩
    · rintro p h; cases h
    · rintro p h; cases h

/-- The error of a result. -/
def errOf {ε α : Type} : Except ε α → Option ε
  | .ok _ => none
  | .error e => some e

theorem ok_of {ε α : Type} {x : Except ε α} {a : α} (h : x.toOption = some a) : x = .ok a := by
  cases x with
  | ok b => exact congrArg _ (Option.some.inj h)
  | error e => cases h

theorem err_of {ε α : Type} {x : Except ε α} {e : ε} (h : errOf x = some e) : x = .error e := by
  cases x with
  | ok b => cases h
  | error e' => exact congrArg _ (Option.some.inj h)

/-- No register of a group is pending. -/
theorem pending_of {g : Group} (h : g.fibres.all (fun e => e.2.pend == 0) = true) (hu : g.upend = 0) (m : LaneMask)
    (vs us : List Nat) : NotPending g m vs us := by
  refine ⟨fun l _ r _ _ => ?_, fun r _ => by rw [hu]; simp⟩
  have key : ∀ (fs : KV Fibre), fs.all (fun e => e.2.pend == 0) = true → (kvGetD fs l {}).pend = 0 := by
    intro fs
    induction fs with
    | nil => exact fun _ => rfl
    | cons e fs ih =>
      intro h
      simp only [List.all_cons, Bool.and_eq_true, beq_iff_eq] at h
      by_cases hk : e.1 = l
      · simp only [kvGetD, kvGet, if_pos hk, Option.getD_some]; exact h.1
      · by_cases hlt : l < e.1
        · simp [kvGetD, kvGet, if_neg hk, if_pos hlt]
        · simp only [kvGetD, kvGet, if_neg hk, if_neg hlt]; exact ih h.2
  rw [show getFibre g l = kvGetD g.fibres l {} from rfl, key _ h]
  simp

theorem lane_zero {l : Nat} (h : inMask 1 l = true) : l = 0 := by
  by_cases hl : l = 0
  · exact hl
  · exfalso; revert h; simp [inMask, BitVec.getLsbD_one, hl]

/-- Sixty-three loads of lane 0 that are outstanding. -/
def manyLoads : List Op := (List.range 63).map fun k => { seq := k, cls := .ld, kind := .load .b32, pc := 0, mask := 1, act := 1 }

/-- An LDQ of a port that is not bound to loads, one that finds sixteen entries, a load while 63 are outstanding, one whose address
is misaligned, an ordered atomic in a launch that is not ordered, and an atomic of a twin copy to global memory. -/
theorem witness_MemoryFaults :
    (∃ F, memForm (.ldq false .grp 127 4 0) = some F ∧ ¬ portBound F demo demoGroup ∧ HandlerTakes demo demoGroup 0x0E 0) ∧
    (let g := { demoGroup with ports := demoGroup.ports.set 0 { kind := 1, fifo := List.replicate 16 [7] } }
     ∃ F, memForm (.ldq false .grp 120 4 0) = some F ∧ OnPath (demoWith g) g ∧ portBound F (demoWith g) g ∧
       ¬ portRoom F (demoWith g) g) ∧
    (let g := { demoGroup with ops := manyLoads }
     ∃ F, memForm (.ldLane false .b32 .none .grp 7 4 0) = some F ∧ OnPath (demoWith g) g ∧ portBound F (demoWith g) g ∧
       portRoom F (demoWith g) g ∧ 63 ≤ counter g F.cls) ∧
    (∃ F, memForm (.ldLane false .b32 .none .grp 0 6 7) = some F ∧ portBound F demo demoGroup ∧ portRoom F demo demoGroup ∧
      counter demoGroup F.cls < 63 ∧ 0 ∈ memLanes F demo ∧ F.place demo demoGroup 0 = .error (0x03, 0xF00000000001E) ∧
      (∀ k ∈ memLanes F demo, k < 0 → ∃ x, F.place demo demoGroup k = .ok x) ∧ HandlerTakes demo demoGroup 0x03 0) ∧
    (∃ F, memForm (.atom false .add false .none .dev true 7 4 0 0) = some F ∧ portBound F demo demoGroup ∧ portRoom F demo demoGroup ∧
      counter demoGroup F.cls < 63 ∧ (∀ l ∈ memLanes F demo, ∃ x, F.place demo demoGroup l = .ok x) ∧ F.ord = true ∧
      memLanes F demo ≠ [] ∧ ordBad demo demoGroup = true ∧ HandlerTakes demo demoGroup 0x1C 0) ∧
    (let s := { demo with teams := [(1, { launch := 1, hdr := { localBytes := 4096 }, groups := [0], live := 1, copy := 1 })] }
     ∃ F, memForm (.atomUniform .add false .none .dev false 31 4 0) = some F ∧ OnPath s demoGroup ∧
       (∀ l ∈ memLanes F s, ∃ x, F.place s demoGroup l = .ok x) ∧ F.ord = false ∧ F.cls = .ld ∧
       (∃ op wide, F.kind = .atomic op wide true) ∧ twinCopy s demoGroup = true ∧ 64 ∈ memLanes F s ∧
       isGlobal (memAcc F s demoGroup 64) = true) := by
  have none_ : ∀ {F : MemForm} {s g}, F.port = none → portBound F s g ∧ portRoom F s g := by
    intro F s g h
    exact ⟨fun p hp => absurd (h.symm.trans hp) (by simp), fun p hp => absurd (h.symm.trans hp) (by simp)⟩
  refine ⟨⟨_, rfl, fun h => absurd (h 7 rfl (by decide)) (by decide), demo_handler rfl rfl rfl rfl (by decide)⟩,
    ⟨_, rfl, demo_on _, ?_, fun h => absurd (h 0 rfl (by decide)) (by decide)⟩,
    ⟨_, rfl, demo_on _, (none_ rfl).1, (none_ rfl).2, by decide +kernel⟩,
    ⟨_, rfl, (none_ rfl).1, (none_ rfl).2, by decide, by decide, err_of (by decide), fun k _ h => absurd h (Nat.not_lt_zero k),
      demo_handler rfl rfl rfl rfl (by decide)⟩,
    ⟨_, rfl, (none_ rfl).1, (none_ rfl).2, by decide, places_of [0] (by decide) (by decide), rfl, by decide, by decide,
      demo_handler rfl rfl rfl rfl (by decide)⟩,
    ⟨_, rfl, demo_on_of rfl rfl, places_of [64] (by decide) (by decide), rfl, rfl, ⟨_, _, rfl⟩, by decide, by decide, by decide⟩⟩
  intro p hp _
  have : p = 0 := (Option.some.inj (show some 0 = some p from hp)).symm
  subst this
  rfl

/-- CPA from v5:v4 to v0 with the barrier of g0, which is unarmed, with none, and with a handle past the team's; from the misaligned
v7:v6. -/
theorem witness_CopiesIssue : OnPath demo demoGroup ∧ InCounts demoGroup [4, 5, 0] [0] ∧
    NotPending demoGroup (actMask false demo) [4, 5, 0] [0] ∧ counter demoGroup .cp < 63 ∧ actMask false demo = 1 ∧
    (getRegPair (getFibre demoGroup 0) 4).toNat % 16 = 0 ∧ (getReg (getFibre demoGroup 0) 0).toNat % 16 = 0 ∧
    localOffset (getRegPair (getFibre demoGroup 0) 4).toNat = none ∧ localOk demoGroup 0 16 = true ∧
    captureBar demo demoGroup 0 = .error (0x09, 0) ∧ captureBar demo demoGroup 0xF0000 = .error (0x09, 0) ∧
    outstanding demo demo.cur.core + 1 ≤ 2048 ∧ (getRegPair (getFibre demoGroup 0) 6).toNat % 4 ≠ 0 ∧
    HandlerTakes demo demoGroup 0x03 0 ∧ HandlerTakes demo demoGroup 0x09 0 :=
  ⟨demo_on _, demo_counts rfl, demo_pending .., by decide, by decide, by decide, by decide, by decide, by decide,
    err_of (by decide), err_of (by decide), by decide, by decide, demo_handler rfl rfl rfl rfl (by decide), demo_handler rfl rfl rfl rfl (by decide)⟩

/-- AMSEND to handler 0 of cluster 0 of this device, and to a target word with a reserved bit; RTRET to v5:v4 and to the misaligned
v7:v6. -/
theorem witness_MessagesIssue :
    (OnPath demo demoGroup ∧ InCounts demoGroup [0, 0, 1, 2, 3, 4, 5, 6, 7] [] ∧ counter demoGroup .st < 63 ∧
      NotPending demoGroup (actMask false demo) [0, 0, 1, 2, 3, 4, 5, 6, 7] [] ∧ actMask false demo = 1 ∧
      ((getReg (getFibre demoGroup 0) 0).extractLsb' 20 12).toNat = demo.dev.num.toNat ∧
      (getReg (getFibre demoGroup 0) 0).extractLsb' 8 6 = 0 ∧ demo.dev.clusterMask.getLsbD 0 = true) ∧
    (let g := demoGroupOf [(0, { demoFibre with regs := [0x100] })]
     OnPath (demoWith g) g ∧ (getReg (getFibre g 0) 0).extractLsb' 8 6 ≠ 0 ∧ HandlerTakes (demoWith g) g 0x05 0) ∧
    InCounts demoGroup [4, 5, 0] [] ∧ placeOf demo demo.cur.core demoGroup 128 16 .load = .ok (.glob 128 0 0) ∧
    (getRegPair (getFibre demoGroup 0) 6).toNat % 16 ≠ 0 ∧ HandlerTakes demo demoGroup 0x03 0 :=
  ⟨⟨demo_on _, demo_counts rfl, by decide, demo_pending .., by decide, by decide, by decide, by decide⟩,
    ⟨demo_on _, by decide, demo_handler rfl rfl rfl rfl (by decide)⟩, demo_counts rfl, ok_of (by decide), by decide,
    demo_handler rfl rfl rfl rfl (by decide)⟩

/-- STCMP from v5:v4, which can be stored to; from the misaligned v7:v6; ordered in a launch that is not; and one whose element 1
is in a page that may only be read, with and without an earlier store that it must wait for. -/
theorem witness_StoreCompact :
    (OnPath demo demoGroup ∧ InCounts demoGroup [4, 5, 0] [] ∧ NotPending demoGroup (actMask false demo) [4, 5, 0] [] ∧
      counter demoGroup .st < 63 ∧ actMask false demo ≠ 0 ∧ (getRegPair (getFibre demoGroup 0) 4).toNat % 4 = 0 ∧
      placeAt .store 4 128 demo demoGroup = .ok (128, .glob 128 0 0) ∧
      outstanding demo demo.cur.core + 1 ≤ 2048 ∧ (getRegPair (getFibre demoGroup 0) 6).toNat % 4 ≠ 0 ∧
      ordBad demo demoGroup = true ∧ HandlerTakes demo demoGroup 0x03 0 ∧ HandlerTakes demo demoGroup 0x1C 0) ∧
    (let f := { demoFibre with regs := [1, 2, 3, 4, 65532, 0] }
     let st : Op := { seq := 0, cls := .st, kind := .store, pc := 0, mask := 1, act := 1,
                      accs := [{ lane := 0, loc := .glob 65532 0 0, va := 65532, len := 4 }] }
     let e : Acc := { lane := 0, loc := .glob 65532 0 0, va := 65532, len := 4, data := [1, 0, 0, 0] }
     let o : Op := { seq := 1, cls := .st, kind := .stcmp 4, pc := 0, mask := 3, act := 3, accs := [e] }
     let g := { demoGroupOf [(0, f), (1, f)] with ops := [st], opSeq := 1 }
     let g0 := demoGroupOf [(0, f), (1, f)]
     let s := fun (g : Group) => { demoWith g with
       cores := [(0, { tlb := [demoPage, { demoPage with va := 65536, pa := 65536, w := false }] })], cur := { mask := 3 } }
     (getRegPair (getFibre g 0) 4).toNat % 4 = 0 ∧ placeAt .store 4 65532 (s g) g = .ok (65532, .glob 65532 0 0) ∧
       placeAt .store 4 65536 (s g) g = .error (0x05, 65536) ∧ blocks (s g) (curGid (s g)) g st o e = true ∧ g0.ops = []) := by
  refine ⟨⟨demo_on _, demo_counts rfl, demo_pending .., by decide, by decide, by decide, ok_of (by decide), by decide, by decide, by decide,
    demo_handler rfl rfl rfl rfl (by decide), demo_handler rfl rfl rfl rfl (by decide)⟩, by decide, ok_of (by decide), err_of (by decide),
    by decide, rfl⟩

/-- FENCE.rel while a store, and FENCE.acq while a load, is outstanding, and with none; WAIT with a counter above its field, with one
operation to cover, and with one whose error it delivers. -/
theorem witness_OrderingInstructions :
    (let o : Op := { seq := 0, cls := .ld, kind := .load .b32, pc := 0, mask := 1, act := 1, dest := 7, dests := 1 }
     let g := { demoGroup with ops := [o], opSeq := 1 }
     OnPath (demoWith g) g ∧ o ∈ g.ops ∧ o.done = false ∧ heldOp (demoWith g) g o = false ∧ overlaps (opFibres o) (demoWith g).cur.mask = true ∧
       (0#6).toNat < counter g .ld) ∧
    (let o : Op := { seq := 0, cls := .st, kind := .store, pc := 0, mask := 1, act := 1 }
     let g := { demoGroup with ops := [o], opSeq := 1 }
     OnPath (demoWith g) g ∧ o ∈ g.ops ∧ o.done = false ∧ heldOp (demoWith g) g o = false ∧ isWriter o = true ∧
       overlaps (opFibres o) (demoWith g).cur.mask = true ∧ counter g .st = 1) ∧
    (demoGroup.ops = [] ∧ MemOk demo ∧ (∀ e ∈ (getCore demo demo.cur.core).l1, e.2.dirty ≠ 0 → e.2.pa ∉ demo.ecc) ∧
      3 ≤ effScope demo demoGroup .clu) ∧
    (let o : Op := { seq := 0, cls := .ld, kind := .load .b32, pc := 0, mask := 1, act := 1, dest := 7, dests := 1, done := true }
     let g := { demoGroup with ops := [o, { o with seq := 1, err := some { code := 0x1A, detail := 0, addr := 128 } }], opSeq := 2 }
     OnPath (demoWith g) g ∧ counter g .ld ≤ (0#6).toNat ∧ errHere (demoWith g).cur.mask o = false ∧
       errHere (demoWith g).cur.mask { o with seq := 1, err := some { code := 0x1A, detail := 0, addr := 128 } } = true ∧ HandlerTakes (demoWith g) g 0x1A 0) :=
  ⟨⟨demo_on _, by decide, rfl, rfl, by decide, by decide⟩, ⟨demo_on _, by decide, rfl, rfl, by decide, by decide, by decide⟩,
    ⟨rfl, rfl, by decide, by decide⟩,
    ⟨demo_on _, by decide, by decide, by decide, demo_handler rfl rfl rfl rfl (by decide)⟩⟩

/-- The machine with a barrier object at the start of the team's local memory. -/
def demoBar (b : Bar) : State :=
  { demo with teams := [(1, { launch := 1, hdr := { localBytes := 4096 }, groups := [0], live := 1, mem := memPut [] 0 (bytesOfBar b) })] }

/-- A barrier that expects two arrivals and one sector. -/
def demoObj : Bar :=
  { phase := 15, arrive := 2, reload := 2, sect := 1, gen := 0, error := false, orphan := false, invalid := false, busy := false, rest := 0 }

/-- The handle in g0 names each of some objects: armed, about to complete, busy, invalid, unarmed, with an error, with nothing more
to arrive, and at the top of its sectors. -/
theorem witness_BarrierInstructions :
    ∀ b ∈ [demoObj, { demoObj with arrive := 1, sect := 0 }, { demoObj with busy := true }, { demoObj with invalid := true },
        { demoObj with reload := 0 }, { demoObj with error := true }, { demoObj with arrive := 0 }, { demoObj with sect := 2 ^ 31 - 1 },
        { demoObj with arrive := 0, sect := -1 }],
      OnPath (demoBar b) demoGroup ∧ BarNames (demoBar b) demoGroup (getU demoGroup 0).toNat 0 b ∧
        Memory.wf (getTeam (demoBar b) 1).mem = true ∧ NoCopyFault (demoBar b) 1 0 0 := by
  intro b hb
  have key : BarNames (demoBar b) demoGroup (getU demoGroup 0).toNat 0 b ∧ Memory.wf (getTeam (demoBar b) 1).mem = true := by
    have h : (barAt (demoBar b) 1 0 = b ∧ b.gen = 0) ∧ Memory.wf (getTeam (demoBar b) 1).mem = true := by
      revert b; decide +kernel
    exact ⟨⟨by decide, by decide, (by decide : 16 * (getU demoGroup 0).toNat + 16 ≤ 4096), h.1.1.symm, _, rfl, rfl, rfl, h.1.2⟩, h.2⟩
  refine ⟨demo_on_of rfl rfl, key.1, key.2, ?_⟩
  intro k x hk _ o ho
  by_cases h0 : k = 0
  · subst h0
    have : demoGroup = x := Option.some.inj hk
    subst this
    exact absurd ho (by simp [demoGroup, demoGroupOf, newGroup])
  · simp [demoBar, demo, demoWith, kvGet, Ne.symm h0] at hk

/-- The group of a spawn, a handle past the team's range, an entry that is not valid, and a generation that has passed. -/
theorem witness_BarrierHandles :
    ({ demoGroup.place with kind := .spawned } : Place).kind = .spawned ∧ ¬ (0xF0000 < 4096 ∧ 16 * 0xF0000 + 16 ≤ 4096) ∧
    (255 < 4096 ∧ 16 * 255 + 16 ≤ (getTeam demo 1).hdr.localBytes) ∧
    (({ v := false, gen := 0, off := 0 } : BarEnt).v = false) ∧
    (barAt (demoBar { demoObj with gen := 1 }) 1 0).gen ≠ ({ v := true, gen := 0, off := 0 } : BarEnt).gen ∧
    HandlerTakes demo demoGroup 0x05 0 ∧ HandlerTakes demo demoGroup 0x08 0 ∧ HandlerTakes demo demoGroup 0x09 0 :=
  ⟨rfl, by decide, by decide, rfl, by decide +kernel, demo_handler rfl rfl rfl rfl (by decide), demo_handler rfl rfl rfl rfl (by decide),
    demo_handler rfl rfl rfl rfl (by decide)⟩

/-! ### Outstanding work -/

/-- An access of lane 0 to the start of local memory, and one to global memory. -/
def accLocal : Acc := { lane := 0, loc := .loc 1 0, va := 0xF000000000000, len := 4, data := [1, 2, 3, 4] }
def accGlobal : Acc := { lane := 0, loc := .glob 128 0 0, va := 128, len := 4, data := [1, 2, 3, 4] }

/-- An operation of lane 0 that is outstanding, and the group with it. -/
def demoOp (cls : OpCls) (kind : OpKind) (order : Order) (a : Acc) : Op :=
  { seq := 0, cls := cls, kind := kind, pc := 0, mask := 1, act := 1, order := order, accs := [a] }
def demoBusy (o : Op) : Group := { demoGroup with ops := [o], opSeq := 1 }

theorem demo_names (o : Op) (a : Acc) (ha : a.lane = 0) (ho : o.accs = [a]) : NamesOne o a 1 := by
  refine ⟨by omega, fun l _ => ?_, .inr fun b hb => ?_⟩
  · rw [ha]; simp [inMask, BitVec.getLsbD_one, eq_comm]
  · rw [ho] at hb
    rw [List.mem_singleton.mp hb, ha]
    decide

theorem demo_teams {g : Group} : (∃ x, kvGet (demoWith g).teams 1 = some x) ∧ Memory.wf (getTeam (demoWith g) 1).mem = true :=
  ⟨⟨_, rfl⟩, rfl⟩

/-- A load from local memory and from global memory, a store and an STCMP element to each, atomics with and without a result, and a
release. -/
theorem witness_MemoryOperationsComplete :
    (∀ a ∈ [accLocal, accGlobal], ∀ k ∈ [(OpCls.ld, OpKind.load .b32, Order.acq), (.st, .store, .none), (.st, .store, .rel),
        (.st, .stcmp 4, .none), (.ld, .atomic .add false true, .none), (.st, .atomic .add false false, .rel)],
      let o := demoOp k.1 k.2.1 k.2.2 a
      let g := demoBusy o
      AccNow (demoWith g) 0 g o a ∧ NamesOne o a 1 ∧ twinCopy (demoWith g) g = false ∧ ServedHere (demoWith g) 0 a.loc 4 ∧
        (∀ e ∈ (getCore (demoWith g) 0).l1, e.2.dirty ≠ 0 → e.2.pa ∉ (demoWith g).ecc)) ∧
    (∀ a ∈ [accLocal], needsService (demoWith demoGroup) (demoOp .ld (.atomic .add false true) .none a) a = false) := by
  refine ⟨fun a ha k hk => ?_, by decide⟩
  have hl : a.lane = 0 ∧ a.done = false := by revert a; decide
  refine ⟨?_, demo_names _ _ hl.1 rfl, rfl, ?_, fun e he => by cases (show e ∈ [] from he)⟩
  · refine ⟨rfl, rfl, ?_, hl.2, ?_, fun h => absurd h (by simp [demoOp]), ?_⟩
    · simp [demoOp]
    · clear hl; revert k; revert a; decide +kernel
    · clear hl; revert k; revert a; decide +kernel
  · simp only [List.mem_cons, List.not_mem_nil, or_false] at ha
    rcases ha with rfl | rfl
    · exact demo_teams
    · clear hl
      have h : peerOf (demoWith (demoBusy (demoOp k.1 k.2.1 k.2.2 accGlobal))) 128 = none ∧
          0 < l1Ways (demoWith (demoBusy (demoOp k.1 k.2.1 k.2.2 accGlobal))) 0 := by
        revert k; decide +kernel
      refine ⟨rfl, by decide, by decide, h.1, ?_⟩
      rw [if_pos (by decide)]
      exact .inr ⟨fun e he => (by cases (show e ∈ [] from he)), 0, h.2, rfl⟩

/-- An access that goes around the L1, as HLD, HST and atomics do. -/
theorem witness_HomeAccess :
    let o := demoOp .ld (.atomic .add false true) .none accGlobal
    let s := demoWith (demoBusy o)
    ServedHere (gaveUp s (whoOf 0 (demoBusy o) o) 4 accGlobal.loc) 0 (around accGlobal.loc) 4 := by
  intro o s
  have h : peerOf (gaveUp s (whoOf 0 (demoBusy o) o) 4 accGlobal.loc) 128 = none ∧
      (getCore (gaveUp s (whoOf 0 (demoBusy o) o) 4 accGlobal.loc) 0).l1 = [] ∧
      Memory.wf (gaveUp s (whoOf 0 (demoBusy o) o) 4 accGlobal.loc).mem = true := by decide +kernel
  refine ⟨h.2.2, by decide, by decide, h.1, ?_⟩
  rw [if_neg (by decide), h.2.1]
  exact ⟨fun e he => (by cases he), fun h => absurd h (by decide)⟩

/-- A staging buffer whose context has no area to spill to, and one that has. -/
theorem witness_SpillBlock : MemOk demo ∧ descWord demo 0 0x20 = 0 ∧
    (let s := { demo with mem := memPut [] (4096 + 0x20) (bytesOfNat 8 4096) }
     Memory.wf s.mem = true ∧ descWord s 0 0x20 = 4096 ∧ (getCtx s 0).spilled = 0) := by
  refine ⟨rfl, by decide +kernel, by decide +kernel⟩

/-- All accesses done, with and without an acquire. -/
theorem witness_FinishedOperations :
    (let o := demoOp .ld (.load .b32) .acq { accLocal with done := true }
     kvGet (demoWith (demoBusy o)).groups 0 = some (demoBusy o) ∧ (demoBusy o).ops.filter (fun o => opOver o && isAcquire o) = [o]) ∧
    (let o := demoOp .st .store .none { accLocal with done := true }
     (demoBusy o).ops.filter (fun o => opOver o && isAcquire o) = []) := ⟨⟨rfl, by decide⟩, by decide⟩

/-- The service queue of cluster 0 with an atomic on global memory; an LDQ of lane 0 that has reserved the entry after the first. -/
theorem witness_ServiceGroupsAndQueues :
    (let o := demoOp .ld (.atomic .add false true) .none accGlobal
     let g := demoBusy o
     let s := { demoWith g with clusters := [(0, { svcQ := [{ gid := 0, seq := 0, lane := 0 }] })] }
     svcQ s 0 = [] ++ ({ gid := 0, seq := 0, lane := 0 } : SvcReq) :: [] ∧ svcTarget s { gid := 0, seq := 0, lane := 0 } = some (g, o, accGlobal) ∧
       AccNow s 0 g o accGlobal ∧ (∀ pa home hcore, accGlobal.loc = .glob pa home hcore → peerOf s pa = none)) ∧
    (let o := demoOp .ld (.ldq 0) .none accLocal
     let g := { demoBusy o with ports := demoGroup.ports.set 0 { kind := 1, fifo := [[7], []] } }
     kvGet (demoWith g).groups 0 = some g ∧ findOp g o.seq = some o ∧ o.done = false ∧ twinCopy (demoWith g) g = false ∧
       (∀ a ∈ o.accs, accReady (demoWith g) 0 g o a = true ∧ accessFails (demoWith g) [] a.loc = none ∧
         ReadsInPlace (demoWith g) 0 a.loc) ∧ (getPort g 0).fifo = [[7]] ++ [] :: [] ∧
       ([[7]].filter fun e : List Word => e == []).length =
         (g.ops.filter fun x => x.kind == .ldq 0 && !x.done && decide (x.seq < o.seq)).length) := by
  refine ⟨⟨rfl, by decide +kernel, ⟨rfl, rfl, by decide, rfl, by decide +kernel, fun h => absurd h (by decide), by decide +kernel⟩, ?_⟩,
    ⟨rfl, rfl, rfl, rfl, ?_, rfl, by decide⟩⟩
  · intro pa home hcore h
    cases h
    decide +kernel
  · intro a ha
    have : a = accLocal := List.mem_singleton.mp ha
    subst this
    refine ⟨by decide +kernel, by decide, demo_teams, ?_⟩
    intro pa home hcore h
    cases h

/-- A landing that leaves a sector to come, one that completes the phase, one below the range, and one of a generation that has
passed. -/
theorem witness_Landings :
    ∀ b ∈ [({ demoObj with sect := 2 }, 0), ({ demoObj with arrive := 0, sect := 1 }, 0), ({ demoObj with sect := -(2 ^ 31) }, 0), (demoObj, 1)],
      let x : Landing := { bar := { off := 0, gen := b.2 }, sectors := 1 }
      let s := { demoBar b.1 with teams := [(1, { launch := 1, hdr := { localBytes := 4096 }, groups := [0], live := 1, landings := [x], mem := memPut [] 0 (bytesOfBar b.1) })] }
      (∃ team, kvGet s.teams 1 = some team ∧ team.landings[0]? = some x ∧ Memory.wf team.mem = true ∧ (getCtx s team.owner).fatal = none) ∧
        barAt s 1 0 = b.1 := by
  intro b hb
  refine ⟨⟨_, rfl, rfl, ?_, rfl⟩, ?_⟩ <;> (revert b; decide +kernel)

/-- A copy of lanes 0 and 1, of one line, whose place is found, fails, and is not mapped. -/
theorem witness_CopyLines :
    (let a : Acc := { lane := 0, loc := .glob 128 0 0, va := 128, len := 4, dst := some 0 }
     let b : Acc := { a with lane := 1, va := 132, dst := some 4 }
     let o := { demoOp .cp (.copy (some { off := 64, gen := 0 })) .none a with accs := [a, b] }
     let g := demoBusy o
     let s := demoWith g
     kvGet s.groups 0 = some g ∧ findOp g o.seq = some o ∧ (∀ x ∈ o.accs, lineOf 128 ≤ lineOf x.va) ∧
       (∀ x ∈ o.accs, accReady s 0 g o x = true) ∧ placeOf s 0 g a.va a.len .load = .ok (.glob 128 0 0) ∧
       accessFails s [] (.glob 128 0 0) = none ∧ accessFails { s with ecc := [128] } [] (.glob 128 0 0) ≠ none ∧
       placeOf { s with cores := [] } 0 g a.va a.len .load = .error 0x04 ∧ (getCtx s g.place.owner).fatal = none ∧
       ServedHere s 0 (.glob 128 0 0) 4) := by
  refine ⟨rfl, rfl, by decide, by decide +kernel, ok_of (by decide), by decide +kernel, by decide +kernel, err_of (by decide +kernel), rfl,
    rfl, by decide, by decide, by decide +kernel, ?_⟩
  rw [if_pos (by decide)]
  exact .inr ⟨fun e he => (by cases (show e ∈ [] from he)), 0, by decide +kernel, rfl⟩

/-! ### Engines -/

/-- SHLD signs cv1, which is new, is being signed here, or is being signed elsewhere. -/
theorem witness_EngineInstructionsSign : ∃ F, engForm (.shld 1 0 4) = some F ∧ OnPath demo demoGroup ∧
    InCounts demoGroup F.lanes (F.unis ++ F.named) ∧ NotPending demoGroup (liveMask demoGroup) F.lanes F.unis ∧
    (getCv demoGroup F.cv).tv = false ∧
    (let g := { demoGroup with cvs := demoGroup.cvs.set 1 { decl := 3, sign := 2, tag := 1, tv := true } }
     OnPath (demoWith g) g ∧ (getCv g F.cv).tv = true ∧ (getCv g F.cv).tag ++ 0#2 ≠ (demoWith g).cur.pc ∧ HandlerTakes (demoWith g) g 0x07 0) :=
  ⟨_, rfl, demo_on _, demo_counts rfl, demo_pending .., rfl, demo_on _, rfl, by decide, demo_handler rfl rfl rfl rfl (by decide)⟩

theorem demo_last (i : Instr) : LastSigner i 0 demo demoGroup := by
  refine ⟨by decide, by decide, fun h => absurd h (by decide), fun l _ h => .inr ?_, fun k hk => absurd hk (Nat.not_lt_zero k)⟩
  have h : kvGet demoGroup.fibres l ≠ none := by simpa using h
  by_cases hl : l = 0
  · subst hl; decide
  · exfalso; apply h
    show kvGet [(0, demoFibre)] l = none
    simp [kvGet, Ne.symm hl]

/-- The last signers of a direct instruction, of a key-value instruction and of a ROUTE, with TL below 63 and at 63. -/
theorem witness_EngineInstructionsIssue :
    (∀ i, LastSigner i 0 demo demoGroup) ∧
    (∃ F, engForm (.shev 0 31) = some F ∧ F.cv = 0 ∧ unitOf (.shev 0 31) = .direct) ∧
    (∃ F, engForm (.kvdrop 0 30) = some F ∧ InCounts demoGroup F.lanes (F.unis ++ F.named) ∧ unitOf (.kvdrop 0 30) = .kv) ∧
    (∃ F, engForm (.route 0 true .drop 3 false false false 31 31 26 0 5) = some F ∧ InCounts demoGroup F.lanes (F.unis ++ F.named) ∧
      NotPending demoGroup (liveMask demoGroup) F.lanes F.unis ∧ unitOf (.route 0 true .drop 3 false false false 31 31 26 0 5) = .route) ∧
    ((getCtx demo demoGroup.place.owner).fatal = none ∧ demoGroup.sched.preempted = false ∧ counter demoGroup .tl < 63 ∧ demoGroup.engQ = []) ∧
    ¬ counter { demoGroup with ops := manyLoads.map fun o => { o with cls := .tl } } .tl < 63 :=
  ⟨demo_last, ⟨_, rfl, rfl, rfl⟩, ⟨_, rfl, demo_counts rfl, rfl⟩, ⟨_, rfl, demo_counts rfl, demo_pending .., rfl⟩,
    ⟨rfl, rfl, by decide, rfl⟩, by decide +kernel⟩

/-- A command of the group that may run: SHLD, SHEV, TOPEN at both ends of its exponent, TREAD.stat, and one of a bank that its team
does not hold. -/
theorem witness_EngineCommandsComplete :
    ∀ k ∈ [CmdKind.shld 0 [] 0, .shev 31, .topen 0 false (-32768), .topen 31 true 32767, .treadStat 0 31, .cmrg true 31],
      let c : Cmd := { id := 1, gid := 0, seq := 0, team := 1, owner := 0, mask := 1, pc := 0, kind := k, hold := true }
      let o : Op := { seq := 0, cls := .tl, kind := .engine 1 none, pc := 0, mask := 1, act := 1 }
      let g := { demoGroup with ops := [o], opSeq := 1 }
      let s := { demoWith g with cores := [(0, { eng := { cmds := [c] } })] }
      (∃ team, findCmd s 0 1 = some c ∧ kvGet s.groups c.gid = some g ∧ g.place.team = c.team ∧ kvGet s.teams c.team = some team ∧
        cmdReady s 0 c = true ∧ kvHas s.groups c.gid = true) ∧
      ((commandEffect 0 c s).isOk ↔ k ≠ .cmrg true 31) := by
  intro k hk
  refine ⟨⟨_, ?_, rfl, rfl, rfl, ?_, rfl⟩, ?_⟩ <;> (revert k; decide +kernel)

/-- A TRED that has its elements still to send, and one that has sent them. -/
theorem witness_TredSends :
    ∀ b ∈ [false, true],
      let c : Cmd := { id := 1, gid := 0, seq := 0, team := 1, owner := 0, mask := 1, pc := 0, kind := .tred 0 [] [], hold := true, sent := b }
      let s := { demo with cores := [(0, { eng := { cmds := [c] } })] }
      findCmd s 0 1 = some c ∧ kvGet s.groups c.gid = some demoGroup ∧ cmdReady s 0 c = true ∧ twinCopy s demoGroup = false ∧
        tredTravels s 1 = false ∧
        tredTravels { s with net := { packets := [{ id := 1, net := .c, src := .cluster 0, dst := .slice 0, len := 2, who := [1] }] } } 1 = true := by
  decide +kernel

/-- Memory in which context 0's descriptor names a handle table of one entry, which holds a sequence without tokens (R157, R238). -/
def kvMem : List Host.Cell :=
  memPut (memPut (memPut [] 4144 (bytesOfNat 8 8192)) 4152 [1]) 8192 (bytesOfNat 32 (2 ^ 64 + 3 * 2 ^ 76 + 2 ^ 128))

/-- KVDROP and ATTN.finish of a handle of that table, and of a table that is empty. -/
theorem witness_KeyValueAcceptance :
    ∀ i ∈ [Instr.kvdrop 0 8, .attnFinish 0 .f32 true 8 8 8],
      let w : EngWait := { instr := i, mask := 1, pc := 0 }
      let s := { demo with mem := kvMem, kv := { queue := [(0, w)] } }
      s.kv.queue = [] ++ (0, w) :: [] ∧ mayAccept s 0 = true ∧ kvHas s.groups 0 = true ∧
      let v := { s with kv := { s.kv with queue := [] } }
      let ok := fun (v : State) => match acceptance i (engEnv v 0 w.mask w.pc) v, attnChecks i (engEnv v 0 w.mask w.pc) v with
        | some (_, r), _ => r.isOk
        | _, some r => r.isOk
        | _, _ => false
      ok v = true ∧ ok { v with mem := [] } = false := by decide +kernel

/-- An ATTN of no block, in each mode and step. -/
def demoAttn (mode : Nat) (st : AttnStep) : Attn :=
  { attnBase (engEnv demo 0 1 0) { at_ := 8192, raw := 2 ^ 64 + 3 * 2 ^ 76 + 2 ^ 128 } mode .f32 0 0 with id := 1, step := st }

theorem witness_AttentionPhases :
    (∀ k ∈ [(0, AttnStep.accepted), (0, .scored), (1, .scored), (2, .summed), (3, .accepted)],
      let a := demoAttn k.1 k.2
      let s := { demo with kv := { attns := [a] } }
      findAttn s 1 = some a ∧ a.step = k.2 ∧ a.mode = k.1 ∧ (arrivedAttn 1 s).1 = some a ∧ twinBlocks s a.gid a.seq = false ∧
        a.got = (attnSlices a).length) ∧
    (∀ y, some y ∈ ([some (5, { j := 0, key := [], val := [], bad := false }), none] : List (Option (Int × KeyRec))) →
      -(2 ^ 63) ≤ y.1) ∧
    (∃ f, fmtOfTy .bf16 = some f) ∧ (2 : Nat).testBit 1 = true ∧ (4 : Nat).testBit 1 = false ∧ (4 : Nat).testBit 2 = true ∧
    (-(25 * 2 ^ 24) - 1 : Int) < -(25 * 2 ^ 24) := by
  refine ⟨by decide +kernel, ?_, ⟨_, rfl⟩, by decide, by decide, by decide, by decide⟩
  intro y h
  simp only [List.mem_cons, Option.some.injEq, reduceCtorEq, List.not_mem_nil, or_false] at h
  subst h
  decide

/-! ### Routed tiles, spawning and messages -/

/-- A ROUTE that waits for an entry, with the tile open and capacity for one pair of value 0, and with none. -/
theorem witness_RouteAcceptance :
    ∀ cap ∈ [1, 0],
      let i := Instr.route 0 true .stall 0 false true false 0 8 8 31 0
      let w : EngWait := { instr := i, mask := 1, pc := 0 }
      let s : State := { demo with
        cores := [(0, { tlb := [demoPage], eng := { routeQ := [(0, w)] } })],
        teams := [(1, { launch := 1, hdr := { localBytes := 4096, tiles := 1 }, groups := [0], live := 1, tileMap := [0],
                        tiles := [(0, { status := 0x20000 })], routeTab := [(0, BitVec.ofNat 64 cap)] })],
        groups := [(0, { demoGroup with uregs := demoGroup.uregs.set 10 16 })] }
      (engOf s 0).routeQ = [] ++ (0, w) :: [] ∧ mayAccept s 0 = true ∧ unusedEnt s 0 1 = some 0 ∧
      let v := modEng 0 (fun x => { x with routeQ := [] }) s
      (∃ r, routeArgs (engEnv v 0 1 0) i = some r ∧ ((routeChecks (engEnv v 0 1 0) r v).isOk = true ↔ cap = 1)) := by
  intro cap hc
  refine ⟨rfl, ?_, ?_, _, rfl, ?_⟩ <;> (revert cap; decide +kernel)

/-- An RTBIND that the route sequencer holds. -/
theorem witness_RouteBinding :
    let i := Instr.rtbind 0 17 30
    let w : EngWait := { instr := i, mask := 1, pc := 0 }
    let s : State := { demo with cores := [(0, { eng := { routeQ := [(0, w)] } })] }
    (engOf s 0).routeQ = [] ++ (0, w) :: [] ∧ mayAccept s 0 = true ∧ unitOf i = .route ∧
      (let v := modEng 0 (fun x => { x with routeQ := [] }) s
       routeArgs (engEnv v 0 1 0) i = none ∧ (acceptance i (engEnv v 0 1 0) v).any (fun r => r.1 && r.2.isOk) = true) := by
  decide +kernel

/-- A reassembly entry of core 0 with some pairs. -/
def demoEnt (pol : Policy) (ps : List RPair) (ringed : List Nat) : RouteEnt :=
  { id := 1, core := 0, num := 0, team := 1, owner := 0, gid := 0, seq := 0, mask := 1, pc := 0, launch := none, gen := 0, tile := 0,
    bf16 := false, pol := pol, len := 1, pairs := ps, ringed := ringed, rows := [{ exp := 1 }], due := some 0, stage := 0 }

/-- A pair of row 0 with value 0. -/
def demoPair (st : PairSt) : RPair := { row := 0, slot := 0, value := 0, weight := 1, st := st }

/-- Its machine: a capacity, and an overflow ring of one slot at 8192, or none. -/
def demoRoute (x : RouteEnt) (cap : Nat) (ring : Bool) : State :=
  { demo with
    mem := if ring then memPut (memPut [] 4160 (bytesOfNat 8 8192)) 4168 [1] else [],
    cores := [(0, { tlb := [demoPage], eng := { ents := [(0, x)] } })],
    teams := [(1, { launch := 1, hdr := { localBytes := 4096 }, groups := [0], live := 1, routeTab := [(0, BitVec.ofNat 64 cap)] })] }

/-- The tag of that pair. -/
def demoTag : PairTag := { core := 0, ent := 0, gen := 0, row := 0, pair := 0 }

theorem demo_sends (pol : Policy) (ps : List RPair) (r : List Nat) (cap : Nat) (ring : Bool) :
    EntSends (demoRoute (demoEnt pol ps r) cap ring) 0 0 (demoEnt pol ps r) :=
  ⟨rfl, by simp [demoEnt], rfl, rfl, fun c h => by simp [demoRoute, engOf, getCore, kvGetD, kvGet] at h⟩

/-- A pair that is sent; one that meets each policy without capacity, with a ring and without; a ringed one that goes on. -/
theorem witness_RouteSends :
    (∀ k ∈ [(1, Policy.stall, false), (0, .stall, false), (0, .drop, false), (0, .spill, false), (0, .spill, true)],
      let x := demoEnt k.2.1 [demoPair .unsent] []
      let s := demoRoute x k.1 k.2.2
      x.pairs[0]? = some (demoPair .unsent) ∧ (rtInfl (rtEntry s 1 0) < rtCap (rtEntry s 1 0) ↔ k.1 = 1) ∧
        earlierWants s 0 x 0 = false ∧ (ringSlot s 0 = some 0 ↔ k.2.2 = true)) ∧
    let x := demoEnt .spill [demoPair (.ringed 0)] [0]
    let s := demoRoute x 1 true
    x.ringed = [] ++ 0 :: [] ∧ x.pairs[0]? = some (demoPair (.ringed 0)) ∧ rtInfl (rtEntry s 1 0) < rtCap (rtEntry s 1 0) ∧
      earlierWants s 0 x 0 = false := by decide +kernel

/-- A return and a drop notice for a pair that is sent, and for one that no entry has; the timeout; a ring slot that lies after
the words that name the ring. -/
def demoRet (st : PairSt) : State :=
  { demoRoute (demoEnt .stall [demoPair st] []) 1 true with
    am := {
      rets := [{ tag := demoTag, dom := 0, gid := 9, seq := 0, lane := 0, va := 0, loc := .glob 0 0 0, pc := 0, entry := 0, left := true,
                 pkt := some 1 }],
      drops := [{ dom := 0, tag := demoTag, pkt := some 2 }] },
    net := { packets := [1, 2].map fun i => { id := i, net := .c, src := .cluster 0, dst := .cluster 0, len := 1, landed := true } } }

theorem witness_RouteResolves :
    ∀ st ∈ [PairSt.sent, .ended],
      let x := demoEnt .stall [demoPair st] []
      let s := demoRet st
      s.am.rets.length = 1 ∧ laneReady s 9 0 0 = true ∧ findOp (getGroup s 9) 0 = none ∧ savedFor s 0 demoTag = none ∧
      s.am.drops[0]? = some { dom := 0, tag := demoTag, pkt := some 2 } ∧ hasLanded s (some 1) = true ∧ landsNext s (some 1) = true ∧
      hasLanded { s with net := { packets := s.net.packets.drop 1 } } (some 2) = true ∧
      landsNext { s with net := { packets := s.net.packets.drop 1 } } (some 2) = true ∧
      ((liveEnt s 0 demoTag == some (0, 0, x, 0, demoPair .sent)) = (st == .sent)) ∧ (liveEnt s 0 demoTag).isSome = (st == .sent) := by
  decide +kernel

theorem witness_RouteTimeout :
    ∀ st ∈ [PairSt.sent, .ended],
      let x := demoEnt .stall [demoPair st] []
      let s := demoRet st
      (match s.am.rets[0]? with | some r => getEnt (returnRow r 0 4 s).st 0 0 == some x | none => false) = true ∧
      getEnt s 0 0 = some x ∧ x.st ≠ .done ∧ x.due = some 0 ∧ 0 ≤ s.dev.clock ∧
      Memory.wf s.mem = true ∧ (getCtx s 0).fatal = none ∧ (getCtx s 0).desc + 0x48 ≤ descWord s 0 0x40 := by decide +kernel

/-- Fibres to age; a port that holds its group; a bin that is full, flushed or late, with resources and without (a header that
asks for more tiles than a core has). -/
theorem witness_SpawnBins :
    kvGet demo.groups 0 = some demoGroup ∧ (takeVote demoGroup).sched.vote = some { p0 := some (0, 1), elig := 1 } ∧
    (∀ l ∈ [12, 13],
      let g := { demoGroup with sched := { leaf := l }, ports := demoGroup.ports.set 1 { kind := 4, recv := true, fifo := [[7]] } }
      let s := { demo with groups := [(0, g)] }
      kvGet s.groups 0 = some g ∧ peerReady s g 1 = true ∧ g.sched.leaf = l) ∧
    ∀ tiles ∈ [0, 33],
      let f : NewFibre := { entry := 64, hdr := {}, wid := 64, args := [5], launch := some 1, message := true }
      let b : Bin := { owner := 0, entry := 64, hdr := { tiles := tiles }, fibres := [(0, f)], last := 0, flush := true }
      let s := { demo with cores := [(0, { banks := [{ owner := 0 }], bins := [(0, b)] })] }
      let s1 := { s with nextId := s.nextId + 1 }
      kvGet (getCore s 0).bins 0 = some b ∧ b.due ≤ s.dev.clock ∧ homeFree s1 0 (binTeam b).hdr = (tiles == 0) ∧
      (getCtx s 0).fatal = none ∧ (placeGroup 0 (binGroup (s.nextId + 1) b) s1).isSome = true ∧ kvGet b.fibres 0 = some f := by
  decide +kernel


/-- An overflow area from which a fibre leaves, and one whose entry goes to an inbox port. -/
theorem witness_SpawnOverflow :
    let f : NewFibre := { entry := 64, hdr := {}, wid := 64, args := [5], launch := some 1 }
    (let s := { demo with ctxs := [(0, { desc := 4096, ovf := [(0, .fibre 0 (some 1) f), (1, .fibre 0 (some 0) f)] })] }
     (getCtx s 0).ovf = [(0, .fibre 0 (some 1) f)] ++ (1, .fibre 0 (some 0) f) :: [] ∧ deliverable s 0 0 (.fibre 0 (some 1) f) = false ∧
       deliverable s 0 0 (.fibre 0 (some 0) f) = true ∧ Memory.wf s.mem = true) ∧
    ∀ n ∈ [1, 4],
      let g := { demoGroup with ports := demoGroup.ports.set 7 { kind := if n = 1 then 2 else 3 } }
      let s := { demo with groups := [(0, g)] }
      kvGet s.groups 0 = some g ∧ groupOfTeam s 1 0 = some 0 ∧ portOfKind g (if n = 1 then 2 else 3) = some 7 := by decide +kernel

/-- A message of context 0 for handler id 5. -/
def demoMsg : Msg := { left := true, payload := List.replicate 8 7, hid := 5, addr := some (2 ^ 33 + 1) }

/-- A message without a binding; one for an inbox port; one for a kernel of which a bin waits. -/
theorem witness_AmArrival :
    (let s := { demo with am := { msgs := [demoMsg] } }
     s.am.msgs[0]? = some demoMsg ∧ msgReady s 0 demoMsg = true ∧ demoMsg.dev = s.dev.num.toNat ∧ demoMsg.gid = none ∧
       bindingOf s demoMsg = none) ∧
    (let g := { demoGroup with ports := demoGroup.ports.set 7 { kind := 2 } }
     let s := { demo with groups := [(0, g)], am := { msgs := [demoMsg], binds := [{ dom := 0, clu := 0, hid := 5, target := .inbox 1 0 0 }] } }
     bindingOf s demoMsg = some (.inbox 1 0 0) ∧ groupOfTeam s 1 0 = some 0 ∧ kvGet s.groups 0 = some g ∧ portOfKind g 2 = some 7 ∧
       (getPort g 7).fifo.length < 16 ∧ entryWaits s g.place.owner g.place.team g.place.num 1 = false ∧ demoMsg.payload.length = 8) ∧
    (let h : Hdr := { entry := 64, regs := 16 }
     let f := msgFibre demoMsg 0 h 3 0
     let b : Bin := { owner := 0, entry := 64, hdr := h, fibres := [(0, f)], last := 0 }
     let s := { demo with
       cores := [(0, { banks := [{ owner := 0 }] }), (1, { bins := [(63, b)] })],
       am := { msgs := [demoMsg], binds := [{ dom := 0, clu := 0, hid := 5, target := .kernel 0 h 3 0 1 }] } }
     bindingOf s demoMsg = some (.kernel 0 h 3 0 1) ∧ (getCtx s 0).out = false ∧
       1 = msgCore { s with am := { s.am with msgs := [] } } 0 0 f ∧
       (getCore s 1).bins.find? (fun e => keyOf 0 f e.2) = some (63, b) ∧ emptySlot b = some 1) := by
  refine ⟨by decide +kernel, by decide +kernel, by decide +kernel⟩

/-! ### Queues, launches and teams -/

/-- A kernel header: R236 accepts it. -/
def demoHdr : Nat := 2 ^ 102 + 2 ^ 109 + 2 ^ 128 + 2 ^ 192 + 2 ^ 256 * (1 + 2 ^ 64)

/-- Context 0 with a page table that maps the first 2 MiB to themselves, and queue 0 of one slot: its record, HEAD 0, TAIL and
STATUS. The header is at 12288. -/
def queueMem (record tail status : Nat) : List Host.Cell :=
  [(4096, bytesOfNat 8 65536), (65536, bytesOfNat 8 131073), (131072, bytesOfNat 8 135169), (135168, [45]),
   (4096 + 0x80, bytesOfNat 8 8192), (4096 + 0x88, [1]), (4096 + 0x8C, bytesOfNat 4 tail), (4096 + 0x98, bytesOfNat 1 status),
   (8192, bytesOfNat 88 record), (12288, bytesOfNat 64 demoHdr)].foldl (fun m w => memPut m w.1 w.2) []

theorem demo_hdr : hdrOk demoHdr = true := by decide +kernel

/-- The queue with what the device keeps for it. -/
def demoQueue (record tail status : Nat) (q : Queue) : State :=
  { demo with mem := queueMem record tail status, queues := [(0, q)], launches := [] }

/-- A launch record of the header, with one dependence (which is met) and without; a FENCE record that interrupts; a reserved
kind. -/
def demoRecords : List (Nat × Bool) :=
  let r := 12288 * 2 ^ 64 + 8 * 2 ^ 128
  [(r, true), (r + 2 ^ 14 + 8192 * 2 ^ 192, true), (1 + 2 ^ 10 + r, true), (2 + r, false)]

/-- A doorbell that rings and one of a stopped queue; a pull that takes each record or refuses it; what has just been refused. -/
theorem witness_QueuePull :
    (let s := demoQueue 0 1 0 {}
     (∃ c, (0, c) ∈ s.ctxs ∧ c.dom = 0) ∧ qSize s 0 0 ≠ 0 ∧ qStatus s 0 0 ≠ 3 ∧ qStatus (demoQueue 0 1 3 {}) 0 0 = 3 ∧
       qSize s 0 15 = 0) ∧
    (∀ r ∈ demoRecords,
      let s := demoQueue r.1 1 0 { rung := true }
      s.dev.phase = 5 ∧ kvHas s.ctxs 0 = true ∧ (getCtx s 0).fatal = none ∧ (getQueue s 0 0).rung = true ∧ qStatus s 0 0 ≠ 3 ∧
        qHead s 0 0 ≠ qTail s 0 0 ∧ (getQueue s 0 0).pulled = [] ∧ (getQueue s 0 0).refused = false ∧
        (checkRecord s 0 0 (recordAt s 0 0 0)).isSome = r.2) ∧
    (let s := demoQueue (2 + 12288 * 2 ^ 64) 1 2 { refused := true }
     (getQueue s 0 0).refused = true ∧ recordAddr s 0 0 (qHead s 0 0) = 8192) := by
  refine ⟨⟨⟨_, List.mem_singleton.mpr rfl, rfl⟩, by decide +kernel⟩, by decide +kernel, by decide +kernel⟩

/-- Records that begin: the second, since the first has begun, and one with INVTLB when no launch of the context runs; and a FENCE
record that completes. -/
theorem witness_QueueBegin :
    (∀ inv ∈ [true, false],
      let p : Pulled := { index := 0, fence := false, hdrAddr := 0, karg := 0, begun := true }
      let s := demoQueue 0 2 1 { pulled := [p, { p with index := 1, begun := false, depsMet := true, invtlb := inv }] }
      (getQueue s 0 0).pulled = [p] ++ { p with index := 1, begun := false, depsMet := true, invtlb := inv } :: [] ∧
        launchesOpen s 0 = false ∧ (getCtx s 0).fatal = none) ∧
    let p : Pulled := { index := 0, fence := true, hdrAddr := 16384, karg := 5, begun := true, depsMet := true, irq := true }
    let s := demoQueue 0 1 1 { pulled := [p] }
    (getQueue s 0 0).pulled = p :: [] ∧ (devTranslate s 0 p.hdrAddr .store).isSome = true := by decide +kernel

/-- A launch with a team that waits, by the default heuristic and by a loaded policy on core 7. -/
def demoLaunch : State :=
  { demo with
    dev := { phase := 5, policy := { ownPlacement := true, preempt := true }, clock := 2 ^ 60 }, groups := [], teams := [],
    launches := [(1, { hdr := hdrOf 0 demoHdr, teams := 1, waitSince := 0 })], nextId := 1 }

theorem witness_TeamPlacement :
    let s := demoLaunch
    let l := getLaunch s 1
    let w : Waiter := .team 1 0 0
    kvGet s.launches 1 = some l ∧ placerTurn s w = true ∧ waiterFits s w = some [0] ∧ clusterOfCore 7 ∈ freeClusters s w ∧
    homeFits s w 7 = true ∧
    ∀ cs ∈ [[0], [7]], (placeTeam 2 (waiterTeam s w 2).1 (waiterTeam s w 2).2 cs { s with nextId := 2 }).isSome = true := by
  decide +kernel

/-- A launch whose ordered window is at its only ticket, whose group has retired; one that is over; one that has waited too long;
a cluster that a launch has reserved too long, with a team to stop and without. -/
theorem witness_TeamEvents :
    (let g := { demoGroup with st := .retiring, fibres := [] }
     let s := { demo with groups := [(0, g)] }
     kvGet s.groups 0 = some g ∧ g.st = .retiring ∧ g.halted = false ∧ g.ops = [] ∧ g.engQ = []) ∧
    (let s := { demo with groups := [], teams := [] }
     let l := getLaunch s 1
     kvGet s.launches 1 = some l ∧ l.teams ≤ l.placed ∧ secondCopies s 1 = [] ∧ launchAlive s 1 = false ∧
       (getCtx s l.owner).fatal = none) ∧
    (let s := demoLaunch
     let w : Waiter := .team 1 0 0
     waits s w = true ∧ reserves s w = false ∧ waitingSince s w + cyclesOfUs s s.dev.policy.starve < s.dev.clock ∧
     waitingSince s w + cyclesOfUs s s.dev.policy.starve2 < s.dev.clock ∧ longerWaits s (waitingSince s w) = false ∧
     0 ∈ clustersPresent s ∧ kvHas s.reserved 0 = false ∧ ∀ k ∈ clustersPresent s, kvHas s.reserved k = false → freeSlots s k ≤ freeSlots s 0) ∧
    (let s := { demoLaunch with
       launches := [(1, { hdr := hdrOf 0 demoHdr, teams := 1, prio := 1 })], reserved := [(0, .team 1 0 0)],
       groups := demo.groups, teams := [(1, { launch := 2, groups := [0], live := 1 })] }
     let w : Waiter := .team 1 0 0
     kvGet s.reserved 0 = some w ∧ w ∈ waiters s ∧ s.dev.policy.preempt = true ∧ preemptible s 1 = true ∧
     (getTeam s 1).prio < (waiterTeam s w 0).1.prio ∧ clusterOfCore (getTeam s 1).home = 0) ∧
    let l : Launch := { teams := 2, placed := 1, ord := true, window := some (0, 0) }
    let s := { demo with groups := [], teams := [], launches := [(1, l)] }
    kvGet s.launches 1 = some l ∧ ticketOver s 1 l 0 0 = true ∧ (getCtx s l.owner).fatal = none := by
  refine ⟨by decide +kernel, by decide +kernel, by decide +kernel, by decide +kernel, by decide +kernel⟩

/-! ### Pre-emption, the fatal path and the network -/

/-- A team that may be pre-empted, whose time slice is over; the same team stopped, its drain over; what is saved of it. -/
def demoStopped : State :=
  let s := stopTeam 1 { demo with dev := { phase := 5, clock := 2 ^ 60, policy := { ownPlacement := true } } }
  { s with groups := [(0, demoGroup)] }

theorem witness_Preempt :
    kvGet demo.saved 1 = none ∧ preemptible demo 1 = true ∧ (getTeam demo 1).groups = [0] ∧
    (let s := { demoStopped with teams := demo.teams }
     let t := getTeam s 1
     kvGet s.teams 1 = some t ∧ t.placedAt + cyclesOfUs s s.dev.policy.timeSlice ≤ s.dev.clock ∧ preemptible s 1 = true) ∧
    (let s := demoStopped
     let t := getTeam s 1
     kvGet s.teams 1 = some t ∧ t.stopAt.isSome = true ∧ (getCtx s t.owner).fatal = none ∧ teamDrained s 1 = true ∧
       preemptible s 1 = false) ∧
    let x := savedOf demoStopped 1
    let s := { demoStopped with teams := [], groups := [], saved := [(1, x)] }
    kvGet s.saved 1 = some x ∧ hasTeam s x.team.owner = false ∧ placerTurn s (.saved 1) = true ∧
      waiterFits s (.saved 1) = some [0] ∧ clusterOfCore 7 ∈ freeClusters s (.saved 1) ∧
      resumeHome s x 7 = true ∧ ∀ cs ∈ [[0], [7]], (placeTeam 1 x.team x.groups cs s).isSome = true := by
  refine ⟨by decide +kernel, by decide +kernel, by decide +kernel, by decide +kernel, by decide +kernel, by decide +kernel⟩

/-- Two retired copies whose streams agree, and two that differ in data. -/
theorem witness_TwinCompare :
    ∀ b ∈ [(1 : Byte), 2],
      let t (k : Nat) (b : Byte) : Team :=
        { launch := 1, copy := k, retired := true, streams := [[{ addr := 64, mask := 1, data := [b], loc := .glob 64 0 0 }]] }
      let s := { demo with teams := [(1, t 1 1), (2, t 2 b)] }
      retiredCopy s 1 0 1 = some (1, t 1 1) ∧ retiredCopy s 1 0 2 = some (2, t 2 b) ∧ (getCtx s 0).fatal = none ∧
      streamsDiff (t 1 1).streams (t 2 b).streams = if b = 1 then none else some 64 := by decide +kernel

/-- Each of the watchdog's conditions. -/
theorem witness_Watchdog :
    let late := { demo with dev := { phase := 5, clock := 2 ^ 60 } }
    let limit (s : State) := cyclesOfUs s (1000 * (if descWord s 0 0x70 = 0 then 1000 else descWord s 0 0x70))
    (hasCounted late 0 = true ∧ (getCtx late 0).lastIssue + limit late ≤ late.dev.clock) ∧
    (let o : Op := { seq := 0, cls := .st, kind := .store, pc := 0, mask := 1, act := 1, accs := [], ord := true }
     let s := { late with
       groups := [(0, { demoGroup with place := { demoGroup.place with num := 1 }, ops := [o] })],
       launches := [(1, { window := some (0, 0) })] }
     laterHolds s 1 0 0 = true ∧ (getLaunch s 1).windowAt + limit s ≤ s.dev.clock) ∧
    let s := { late with teams := [(1, { stopAt := some 0 })] }
    0 + cyclesOfUs s 200 < s.dev.clock ∧ kvHas s.ctxs 0 = true ∧ (getCtx s 0).fatal = none := by
  refine ⟨by decide +kernel, by decide +kernel, by decide +kernel⟩

/-- Context 0 on the fatal path, at each step; dumps are on, to device memory at 1 MiB. -/
def demoFatal (step : FatalStep) (wait : Bool) (size : Nat) : State :=
  { demo with
    dev := { phase := 5, clock := 2 ^ 60 }, dumpQ := [0],
    ctxs := [(0, { desc := 4096, fatal := some { recWords := List.replicate 8 0, clock := 0, team := 0, group := 0, cluster := 0,
                                                 depth := 0, regions := [], queued := false, step := step } })],
    domains := [(0, { dumpEn := true, dumpBase := 2 ^ 20, dumpSize := size, dumpWait := wait })] }

/-- The drain's end by itself and by time; a dump, one that is lost for want of an acknowledgement, and one for want of room; the
reset after the dump. -/
theorem witness_FatalPath :
    (let s := demoFatal .halted false (2 ^ 20)
     activeFatal s = some 0 ∧ ctxDrained s 0 = true ∧ kvHas s.ctxs 0 = true ∧ 0 + cyclesOfUs s 200 ≤ s.dev.clock) ∧
    (∀ k ∈ [(true, 2 ^ 20), (false, 2 ^ 20), (false, 0)],
      let s := demoFatal .drained k.1 k.2
      activeFatal s = some 0 ∧ (getDom s 0).dumpWait = k.1 ∧ (dumpLimit s (2 ^ 20) k.2 = k.2)) ∧
    (let s := demoFatal .dumped false (2 ^ 20)
     fatalOf s 0 = 0 :: [] ∧ dumpPending s 0 = false) ∧
    let s := demoQueue 0 1 1 {}
    qSize s 0 0 ≠ 0 ∧ Memory.wf s.mem = true := by
  refine ⟨by decide +kernel, by decide +kernel, by decide +kernel, by decide +kernel⟩

/-- A dump of a context without teams fits its place. -/
theorem witness_FatalDump :
    let s := { demoFatal .drained false (2 ^ 20) with teams := [] }
    let c := getCtx s 0
    ∃ f, c.fatal = some f ∧ 128 + (dumpRecords s f (dumpTeams s 0)).length + (lateSection c).length ≤
      dumpLimit s (2 ^ 20) (2 ^ 20) := ⟨_, rfl, by decide +kernel⟩

/-- A packet that has waited at the head of a FIFO and is the same reduction as another, by each operation; routers in each state; a
peer with one link. -/
def demoNet (op : Nat) : State :=
  let p : Packet := {
    id := 1, net := .c, src := .slice 0, dst := .cluster 63, len := 1, tag := some (.surface 0 2), op := op, elems := [1, -1] }
  { demo with
    dev := { phase := 5, clock := 200 },
    net := {
      packets := [p, { p with id := 2, elems := [-1, 1], count := 2 }],
      chans := [(portKey 3 7 0, { fifo := [{ pkt := 1, idx := 0 }] }), (portKey 3 7 16, { fifo := [{ pkt := 2, idx := 0 }] })],
      routers := [(1, { power := .powering }), (2, { power := .off }), (3, { power := .waking })],
      peers := [(0, { slot := 0, dev := 1, memSize := 1, links := 1 })] } }

theorem witness_Network :
    (∀ op ∈ [0, 1],
      let s := demoNet op
      let a := s.net.packets.getD 0 (smallPacket s 0 0)
      let b := s.net.packets.getD 1 (smallPacket s 0 0)
      s.net.packets[0]? = some a ∧ s.net.packets[1]? = some b ∧ a.id ≠ b.id ∧ a.tag = b.tag ∧ a.op = b.op ∧ a.net = b.net ∧
      a.dst = b.dst ∧ (waitsFor s.net a).isSome = true ∧ waitsFor s.net a = waitsFor s.net b ∧ a.elems.length = b.elems.length ∧
      a.since + s.net.age ≤ 2 * s.dev.clock ∧ (s.net.chans.any fun e => e.2.fifo.head? == some { pkt := 1, idx := 0 }) = true ∧
      (∀ r ∈ [(0, RouterPower.on), (1, .powering), (2, .off), (3, .waking)], (getRouter s r.1).power = r.2) ∧
      (getRouter s 0).idleSince + 128 ≤ 2 * s.dev.clock ∧ (s.net.chans.all fun e => decide (3 < keyRouter e.1)) = true ∧
      (∀ e ∈ s.net.chans, e.2.fifo.length ≤ 4) ∧ (getRouter s 3).wakeEnd ≤ 2 * s.dev.clock) ∧
    (let s := demoNet 0
     let down := { s with net := { s.net with links := s.net.links &&& ~~~(1#16 <<< 0) } }
     ∀ e ∈ s.net.peers, (e.2.links.getLsbD 0 = true ∧ e.2.links &&& s.net.links ≠ 0 ∧ e.2.links &&& down.net.links = 0) ∧
       e.2.dev ≠ s.dev.num) ∧
    (∀ e ∈ demo.net.peers, e.2.links = 0) ∧ routerOf (.cluster 63) < 40 := by
  refine ⟨by decide +kernel, by decide +kernel, by decide +kernel, by decide⟩

/-! ### The host -/

/-- Values on each side of each limit; a domain whose reset is due. -/
theorem witness_MailboxSettings : demo.dev.phase = 5 ∧ State.reset.dev.phase ≠ 5 ∧ (0 : Nat) < 64 ∧ 15 ≤ 15 ∧ 15 < 16 ∧
    ((List.replicate 32 (1 : Word)).length = 32 ∧ (List.replicate 32 (1 : Word)).all (fun w => !w.getLsbD 1) = true) ∧
    (∃ w ∈ [(2 : Word)], w.getLsbD 1 = true) ∧ 2 ^ 20 + 4096 ≤ deviceBytes ∧
    paHost demo (2 ^ 47) = true ∧ paValid demo (2 ^ 47) = true ∧ qSize (demoQueue 0 1 3 {}) 0 0 ≠ 0 ∧
    qStatus (demoQueue 0 1 3 {}) 0 0 = 3 ∧ Memory.wf (demoQueue 0 1 3 {}).mem = true ∧ resetDue demo 0 = false ∧
    resetDue (demoFatal .dumped false 0) 0 = true := by
  refine ⟨by decide, by decide, by decide, by decide, by decide, by decide +kernel, ⟨2, by simp, by decide⟩, by decide +kernel,
    by decide +kernel, by decide +kernel, by decide +kernel, by decide +kernel, by decide +kernel, by decide +kernel, by decide +kernel⟩

/-- A system map of two slots, the second disabled. -/
theorem witness_SystemMap :
    let slots : List PeerArgs := [{ slot := 63, enabled := true, dev := 1, memSize := 2 ^ 40, links := 1 }]
    (∀ p ∈ slots, p.slot < 64 ∧ p.memSize ≤ 2 ^ 40) ∧ ∃ p, slots = [] ++ p :: [] ∧ p.enabled = true :=
  ⟨by decide, _, rfl, rfl⟩

/-- A context to make, one to destroy, one that is busy; a suspended group; a session; a migration. -/
theorem witness_ContextCommands :
    (let s := { demo with dev := { phase := 5, mapped := true } }
     s.dev.mapped = true ∧ kvHas s.ctxs 1 = false ∧ (∀ j, j < 1 → kvHas s.ctxs (64 * 0 + j) = true) ∧ 4096 + 0x280 ≤ deviceBytes ∧
       ctxBusy s 0 = true ∧ demo.dev.mapped = false) ∧
    (let s := { demo with groups := [], teams := [], launches := [] }
     kvHas s.ctxs 0 = true ∧ 0 / 64 = 0 ∧ ctxBusy s 0 = false) ∧
    (∀ stcmp ∈ [true, false],
      let t : TrapInfo := { code := 4, stcmp := stcmp, mask := 1 }
      let g := { demoGroup with st := .suspended, trap := { pageFault := some t } }
      let s := { demo with groups := [(0, g)] }
      kvGet s.groups 0 = some g ∧ g.trap.pageFault = some t ∧ g.place.dom = 0 ∧ (getCtx s g.place.owner).fatal = none) ∧
    (let g := { demoGroup with trap := { deliveredAt := some 0 } }
     kvGet (demoWith g).groups 0 = some g ∧ g.halted = false ∧ g.trap.deliveredAt = some (demoWith g).dev.clock ∧
       demo.groups.all (fun e => e.2.trap.deliveredAt != some demo.dev.clock) = true) ∧
    (∀ e ∈ [1, 0x21], e ∈ eventSet) ∧
    (let p : Profile := { events := [1, 2], totals := [0, 0], absent := [false, false], pcEvent := 0, kerEvent := 1 }
     let s := { demo with domains := [(0, { profile := some p, session := true })] }
     (getDom s 0).profile = some p ∧ (getDom s 0).session = true ∧ p.absent.length = p.events.length ∧ paHost s (2 ^ 47) = true ∧
       paValid s (2 ^ 47) = true ∧ p.events.getD 1 0 ∉ [1]) := by
  refine ⟨by decide +kernel, by decide +kernel, by decide +kernel, by decide +kernel, by decide +kernel, by decide +kernel⟩

/-- The device's phases, and a core whose sample is due, with a group of the domain and without. -/
theorem witness_DeviceEvents : State.reset.dev.phase = 0 ∧
    (∃ s, exec .deviceResetRelease State.reset = .next s ∧ s.dev.phase = 1 ∧ (bringUp s.dev).phase = 2 ∧
      ∃ t, exec (.firmwareLoad true 0 0 []) { s with dev := bringUp s.dev } = .next t ∧ t.dev.phase = 3) ∧
    (∀ i, i < 8 → accessAt i = .ro) ∧ mailAt 0x20008 = some (some 0) ∧ 0x20008 % 4096 + 8 ≤ 64 ∧ mailAt 0x60038 = some none ∧
    ∀ here ∈ [true, false],
      let t : Trace := { base := 2 ^ 20, size := 256, mask := 7, period := 1024 }
      let s := { demo with
        groups := if here then demo.groups else [], cores := [(0, { samples := [(0, (0, 1))] })], domains := [(0, { trace := some t })] }
      (getDom s 0).trace = some t ∧ kvGet (getCore s 0).samples 0 = some (0, 1) ∧ 0 ≤ s.dev.clock ∧
      (s.groups.any (fun e => coreOfGid e.1 == 0 && e.2.place.dom == 0)) = here := by
  refine ⟨rfl, ⟨_, rfl, rfl, rfl, _, rfl, rfl⟩, by decide, by decide, by decide, by decide, by decide +kernel⟩

/-- Plain and pinned pages; a failed line with one owner and with none; a prefetched line; a slice that an owner waits for. -/
theorem witness_OutsideAccess :
    (Memory.wf demo.mem = true ∧ (∀ i ∈ [0, 1], sramHome demo (deviceBytes - 2 + i) = none) ∧ deviceBytes - 2 + 2 ≤ deviceBytes ∧
      deviceBytes < deviceBytes - 2 + 3) ∧
    (let p : SramPage := { pa := 65536, bytes := [(1, 7)] }
     let s := { demo with cores := [(0, { sram := [p] })] }
     sramHome s 65537 = some 0 ∧ lineOf 65537 ∉ s.ecc ∧ (getCore s 0).sram.find? (fun q => q.pa == 65536) = some p ∧
       Memory.wf p.bytes = true) ∧
    (∀ own ∈ [true, false],
      let s := { demo with ecc := [128], slices := if own then [(0, { lines := [(0, { pa := 128 })] })] else [] }
      128 ∈ s.ecc ∧ lineOwners s 128 = (if own then [0] else []) ∧ kvHas s.ctxs 0 = true) ∧
    (∀ ecc ∈ [[128], []],
      let p : PfSlot := { owner := 0, pa := 128, home := 0, pc := 0, entry := 0 }
      let s := { demo with ecc := ecc, cores := [(0, { pfSlots := [(0, p)] })] }
      let u := modCore s 0 fun c => { c with pfSlots := kvDel c.pfSlots 0 }
      kvGet (getCore s 0).pfSlots 0 = some p ∧ s.ecc = ecc ∧ l1Find (getCore u 0) p.pa = none) ∧
    (let s := { demo with soft := [128], net := { peers := [(0, { slot := 0, dev := 1, memSize := 1, links := 1 })] } }
     128 ∉ s.ecc ∧ 128 ∈ s.soft ∧ (svcQ s (owningCluster s 128)).length < 1024 ∧
       (s.net.peers.map fun e => e.2).find? (fun p => p.dev.toNat == 1) = some { slot := 0, dev := 1, memSize := 1, links := 1 }) ∧
    let s := { demo with slices := [(3, { wanted := [0] })] }
    0 ∈ (getSlice s 3).wanted ∧ kvHas s.ctxs 0 = true := by
  refine ⟨by decide +kernel, by decide +kernel, by decide +kernel, by decide +kernel, by decide +kernel, by decide +kernel⟩

/-! ### Steps -/

/-- The state in which the path of group 0 has been chosen, if it issues now: its fetch, what it decodes to, and its pipe. -/
def chosen (s : State) : Option (Option Word × Option Word × Option Instr × Bool) :=
  if (dueTurn s).isSome then none
  else
    (nextPath (beginIssue s)).bind fun t =>
      if (heldLeaf t).isSome then none
      else
        let w0 := (fetchWord t t.cur.pc.toNat).toOption
        let w1 := (fetchWord t (t.cur.pc.toNat + 4)).toOption
        some (w0, w1, (decode (w0.getD 0) (if twoWords (w0.getD 0) then w1.getD 0 else 0)).toOption, pipeFree (.nop false) t)

/-- A step that issues an instruction of one word, of two, or a word that is none; one whose fetch fails; one without a path; an
event, and a stall; a pipe that is taken; a path that is held. -/
theorem witness_StepRuns :
    (let s := State.reset.withFetchWord 32 0x74000000
     chosen s = some (some 0x74000000, some 0, some (.nop false), true)) ∧
    (let s := State.reset.withFetchWord 64 (0xF8008090 + 2 ^ 32 * 0x00004005)
     chosen s = some (some 0xF8008090, some 0x4005, some (.atomUniform .add false .none .dev false 5 8 9), true)) ∧
    chosen (State.reset.withFetchWord 32 0) = some (some 0, some 0, none, true) ∧
    (let s := State.reset.withFetchWord 32 0x74000000
     (chosen { s with cores := [] }).map (fun x => x.1) = some none ∧ chosen { s with groups := [] } = none) ∧
    (Instr.traceSample 0 0).isEvent = true ∧ surveyGroup demo (.traceSample 0 0) = none ∧ demo.stage = .events ∧
    (let c : Cmd := { id := 1, gid := 0, seq := 0, team := 1, owner := 0, mask := 1, pc := 0, kind := .svsave none 0, hold := false }
     let s := { demo with stage := .late 0, cores := [(0, { eng := { cmds := [c] } })] }
     surveyGroup s (.engineCommandComplete 0 1) = some 0 ∧ s.stage = .late 0) ∧
    (let s := { demo with dev := { phase := 5 }, cores := [(0, { issued := [(0, 0), (0, 0)] })] }
     pipeFree (.nop false) demo = true ∧ pipeFree (.nop false) s = false) ∧
    heldLeaf demo = none ∧
    (heldLeaf { demo with groups := [(0, { demoGroup with sched := { holds := [{ mask := 1, until_ := 1, leaf := 7 }] } })] }).isSome = true := by
  refine ⟨by decide +kernel, by decide +kernel, by decide +kernel, by decide +kernel, rfl, by decide +kernel, rfl, by decide +kernel,
    by decide +kernel, by decide +kernel, by decide +kernel⟩

/-- The reset state is sound, and so is one that holds bytes. -/
theorem witness_StepKeepsMemory : MemSound State.reset ∧ Memory.wf (State.reset.withFetchWord 32 0x74000001).mem = true ∧
    ∃ t, step State.reset = .next t := by
  refine ⟨⟨rfl, ?_, ?_, ?_⟩, by decide +kernel, ⟨_, rfl⟩⟩ <;> simp [State.reset]

/-- Fibres of a launch and of a bin. -/
theorem witness_StartingState : ∃ l x, (l, x) ∈ launchFibres (hdrOf 0 demoHdr) 1 0 0 :=
  ⟨0, _, List.mem_cons_self ..⟩

/-- Memory that holds a word, and a value that fits. -/
theorem witness_BytesAndWords : Memory.wf (memPut [] 4 [1, 0, 2]) = true ∧ 65537 < 256 ^ 4 ∧
    twoWords (BitVec.ofNat 32 (natOfBytes (memBytes (memPut [] 0 (bytesOfNat 8 0xF8008090)) 0 4))) = true := by decide +kernel

theorem witness_DecodeEncode : (Instr.atomUniform .add false .none .dev false 5 8 9).wf = true := by decide
end Sys2Proof.Tests
end

section
/-! The byte order of the device (R7), and the words that the manual prints. -/

namespace Sys2Proof.Proofs

open Sys2Proof Sys2Proof.Machine Sys2Proof.Laws

/-! ## Byte order (R7) -/

/-- The decoder puts four bytes together as memory reads them: the first is the least significant. -/
theorem ofNat_natOfBytes_four (b0 b1 b2 b3 : Byte) :
    BitVec.ofNat 32 (natOfBytes [b0, b1, b2, b3]) = Sys2Proof.wordOfBytes b0 b1 b2 b3 := by
  apply BitVec.eq_of_toNat_eq
  rw [Sys2Proof.wordOfBytes, BitVec.toNat_append, BitVec.toNat_append, BitVec.toNat_append,
    ← Nat.shiftLeft_add_eq_or_of_lt b2.isLt, ← Nat.shiftLeft_add_eq_or_of_lt b1.isLt,
    ← Nat.shiftLeft_add_eq_or_of_lt b0.isLt]
  simp only [natOfBytes, BitVec.toNat_ofNat, Nat.shiftLeft_eq]
  omega

theorem natOfBytes_memBytes_memPut {m : List Host.Cell} (a n v : Nat) (hm : Memory.wf m = true) (hv : v < 256 ^ n) :
    natOfBytes (memBytes (memPut m a (bytesOfNat n v)) a n) = v := by
  have h := memBytes_memPut a (bytesOfNat n v) hm
  rw [length_bytesOfNat] at h
  rw [h, natOfBytes_bytesOfNat, Nat.mod_eq_of_lt hv]

/-- A two-word instruction is decoded from its two words in memory, word 0 at the lower address (R38). -/
theorem decodeBytes_memBytes_eight (m : List Host.Cell) (a : Nat) (rest : List Byte)
    (h : twoWords (BitVec.ofNat 32 (natOfBytes (memBytes m a 4))) = true) :
    decodeBytes (memBytes m a 8 ++ rest) =
      (decode (BitVec.ofNat 32 (natOfBytes (memBytes m a 4))) (BitVec.ofNat 32 (natOfBytes (memBytes m (a + 4) 4)))).map
        fun i => (i, rest) := by
  simp only [memBytes, ofNat_natOfBytes_four] at h ⊢
  simp only [List.cons_append, List.nil_append, decodeBytes, h, if_true]
  cases decode _ _ <;> rfl

/-- Settles O57: the low byte, word or register comes first, and each printed word evaluates to its instruction. -/
theorem bytesAndWords : Obligations.BytesAndWords := by
  unfold Obligations.BytesAndWords
  refine ⟨fun _ _ _ => rfl, fun _ a n v hm hv => natOfBytes_memBytes_memPut a n v hm hv,
    fun m a rest h => decodeBytes_memBytes_eight m a rest h,
    fun f d => ⟨BitVec.extractLsb'_append_eq_right, BitVec.extractLsb'_append_eq_left⟩,
    fun g d => ⟨BitVec.extractLsb'_append_eq_right, BitVec.extractLsb'_append_eq_left⟩, ?_⟩
  exact ⟨rfl, rfl, rfl, rfl, rfl, rfl, rfl, rfl, rfl, rfl, rfl, rfl, rfl, rfl, rfl, rfl, rfl, rfl, rfl, rfl, rfl⟩

end Sys2Proof.Proofs
end

section
/-! Bring-up, power, registers and trace samples (R8, R288, R294 to R299). -/

namespace Sys2Proof.Proofs

open Sys2Proof Sys2Proof.Machine Sys2Proof.Laws

/-! ## Bring-up: the end of a cycle (R298) -/

/-- What the steps of bring-up look at. -/
def bringUpPart (d : Dev) : Nat × Nat × List Byte := (d.phase, d.err, d.image)

theorem bringUp_congr {d e : Dev} (h : bringUpPart d = bringUpPart e) :
    (bringUp d).phase = (bringUp e).phase ∧ (bringUp d).err = (bringUp e).err := by
  simp only [bringUpPart, Prod.mk.injEq] at h
  obtain ⟨hp, he, hi⟩ := h
  unfold bringUp
  rw [hp, hi]
  split
  · exact ⟨rfl, he⟩
  · split
    · split
      · exact ⟨rfl, he⟩
      · exact ⟨rfl, rfl⟩
    · exact ⟨hp, he⟩

theorem bringUpPart_countEvent (core dom id w pc entry : Nat) (s : State) :
    bringUpPart (countEvent core dom id w pc entry s).dev = bringUpPart s.dev := by
  rw [(keeps_countEvent core dom id w pc entry s).1.dev]
  rfl

theorem foldl_preserves {α β : Type} (p : State → β) (f : State → α → State) (h : ∀ s a, p (f s a) = p s) (l : List α)
    (s : State) : p (l.foldl f s) = p s := by
  induction l generalizing s with
  | nil => rfl
  | cons a l ih => exact (ih _).trans (h s a)

theorem bringUpPart_chargeSub (core sub slots : Nat) (s : State) :
    bringUpPart (chargeSub core sub slots s).dev = bringUpPart s.dev := by
  unfold chargeSub
  split
  · rfl
  · refine foldl_preserves (fun s => bringUpPart s.dev) _ (fun s e => ?_) _ s
    dsimp only
    split
    · rfl
    · exact bringUpPart_countEvent ..

theorem bringUpPart_chargeCore (core : Nat) (s : State) : bringUpPart (chargeCore core s).dev = bringUpPart s.dev := by
  rw [chargeCore, modCore_dev]
  exact foldl_preserves (fun s => bringUpPart s.dev) _ (fun s _ => bringUpPart_chargeSub _ _ _ s) _ s

/-- Charging the slots of a cycle touches nothing of the device but its session and its count of pending cycles. -/
theorem bringUpPart_charged (s : State) :
    bringUpPart (chargeRest ((s.cores.map fun e => e.1).foldl (fun s c => chargeCore c s) s)).dev = bringUpPart s.dev :=
  foldl_preserves (fun s => bringUpPart s.dev) _ (fun s c => bringUpPart_chargeCore c s) _ s

theorem passCycle_bringUp (s : State) :
    (passCycle s).dev.phase = (bringUp s.dev).phase ∧ (passCycle s).dev.err = (bringUp s.dev).err :=
  bringUp_congr (bringUpPart_charged s)

theorem bringUp_cases (d : Dev) : (d.phase = 1 → bringUp d = { d with phase := 2 }) ∧
    (d.phase = 3 → bringUp d = if Config.imageOk d.image then { d with phase := 4 } else { d with phase := 15, err := 1 }) ∧
    (d.phase ≠ 1 → d.phase ≠ 3 → bringUp d = d) := by
  unfold bringUp
  exact ⟨fun h => by rw [if_pos h], fun h => by rw [if_neg (by omega), if_pos h], fun h1 h3 => by rw [if_neg h1, if_neg h3]⟩

/-! ## Request slots (R296) -/

theorem length_requestSlot {α : Type} (op seq : Nat) (x : α) : (requestSlot op seq x).length = 64 := by
  simp [requestSlot, packOf]

theorem take_requestSlot {α : Type} (op seq : Nat) (x : α) (h : op < 256) :
    (requestSlot op seq x).take 4 = bytesOfNat 4 (op + 2 ^ 16 * (seq % 2 ^ 16)) := by
  rw [requestSlot, List.take_left' (length_bytesOfNat ..), Nat.mod_eq_of_lt (show op < 2 ^ 8 from h)]

/-- A mailbox event that sets its request slot, and ends in a reply, is served. -/
theorem served_of {α : Type} {mgmt : Bool} {dom seq op status value : Nat} {i : Instr} {s t : State} {P : State → State → Prop}
    (x : α) (hop : op < 256) (hP : P (setRequest (if mgmt then none else some dom) (requestSlot op seq x) s) t)
    (hx : exec i s = .next (putReply mgmt dom seq status value t)) : Served mgmt dom seq op status value i s P :=
  ⟨requestSlot op seq x, t, length_requestSlot .., take_requestSlot _ _ _ hop, hP, hx⟩

/-- FIRMWARE_LOAD while the device waits for firmware (R298). -/
theorem firmwareLoad_waiting (dom seq : Nat) (image : List Byte) (s : State) (h : s.dev.phase = 2) :
    (image.length ≤ 2 ^ 22 → Served true dom seq 0x22 0 0 (.firmwareLoad true dom seq image) s fun u t =>
      t = { u with dev := { u.dev with phase := 3, image := image } }) ∧
    (2 ^ 22 < image.length → Refused true dom seq 0x22 1 (.firmwareLoad true dom seq image) s) ∧
    (dom < 64 → Refused false dom seq 0x22 3 (.firmwareLoad false dom seq image) s) := by
  refine ⟨fun hl => served_of () (by decide) rfl ?_, fun hl => served_of () (by decide) rfl ?_,
    fun hd => served_of () (by decide) rfl ?_⟩
  · change execFirmwareLoad true dom seq image s = _
    rw [execFirmwareLoad, if_pos ⟨rfl, h⟩, if_neg (by omega)]
    rfl
  · change execFirmwareLoad true dom seq image s = _
    rw [execFirmwareLoad, if_pos ⟨rfl, h⟩, if_pos hl]
    rfl
  · change execFirmwareLoad false dom seq image s = _
    rw [execFirmwareLoad, if_neg (by simp), if_pos ⟨h, hd⟩]
    rfl

/-! ## Power (R299) -/

theorem mem_liveDoms (s : State) (d : Nat) :
    d ∈ liveDoms s ↔ d < 64 ∧ ((∃ e ∈ s.ctxs, e.2.dom = d) ∨ (getDom s d).evBase.isSome = true) := by
  simp [liveDoms]

theorem powerThrottle_tells (die : BitVec 2) (current temp : Bool) (s : State) (h : current = true ∨ temp = true) :
    exec (.powerThrottle die current temp) s =
      .next (postAll 0x0C (die.toNat + (if current then 256 else 0) + if temp then 512 else 0)
        { s with dev := { s.dev with clkStep := 4 } }) := by
  have hc : (current || temp) = true := by simpa using h
  change execPowerThrottle die current temp s = _
  rw [execPowerThrottle, if_pos hc]
  cases current <;> cases temp <;> rfl

theorem powerCap_step (steps : Nat) (s : State) :
    exec (.powerCap steps) s = .next { s with dev := { s.dev with clkStep := if steps ≤ 12 then 16 - steps else 4 } } := by
  have hmax : max 4 (16 - steps) = if steps ≤ 12 then 16 - steps else 4 := by split <;> omega
  change execPowerCap steps s = _
  rw [execPowerCap, hmax]

/-! ## The register window (R8, R294) -/

theorem getD_bytesOfNat {n k : Nat} (v : Nat) (h : k < n) : (bytesOfNat n v).getD k 0 = BitVec.ofNat 8 (v / 256 ^ k) := by
  induction n generalizing k v with
  | zero => omega
  | succ n ih =>
    cases k with
    | zero => simp [bytesOfNat]
    | succ k =>
      rw [bytesOfNat, List.getD_cons_succ, ih _ (by omega), Nat.div_div_eq_div_mul, ← Nat.pow_succ']

/-- The bytes of a value are its bit fields of eight, the lowest first (R7). -/
theorem getD_bytesOfNat_toNat {w n k : Nat} (v : BitVec w) (h : k < n) :
    (bytesOfNat n v.toNat).getD k 0 = v.extractLsb' (8 * k) 8 := by
  rw [getD_bytesOfNat _ h, BitVec.extractLsb', Nat.shiftRight_eq_div_pow, Nat.pow_mul]

/-- REGISTER_WRITE, byte after byte. -/
theorem registerWrite_eq (off n : Nat) (v : DWord) (s : State) :
    exec (.registerWrite off n v) s =
      .next ((List.range (min n 8)).foldl (fun s i => windowWrite (off + i) (v.extractLsb' (8 * i) 8) s) s) := by
  have hzip : (List.range (min n 8)).zip (bytesOfNat 8 v.toNat) =
      (List.range (min n 8)).map fun i => (i, v.extractLsb' (8 * i) 8) := by
    refine List.ext_getElem (by simp) fun i h1 h2 => ?_
    have hi : i < 8 := by simp at h2; omega
    have hb : (bytesOfNat 8 v.toNat)[i]'(by simpa using hi) = v.extractLsb' (8 * i) 8 :=
      (List.getElem_eq_getD 0).trans (getD_bytesOfNat_toNat v hi)
    rw [List.getElem_zip, List.getElem_map, List.getElem_range, hb]
  change execRegisterWrite off n v s = _
  rw [execRegisterWrite, hzip, List.foldl_map]

theorem windowWrite_readOnly {off : Nat} (b : Byte) (s : State) (h : accessAt off = .ro) : windowWrite off b s = s := by
  unfold windowWrite
  split
  · exact if_pos h
  · rfl

theorem registerWrite_readOnly (off n : Nat) (v : DWord) (s : State) (h : ∀ i, i < n → accessAt (off + i) = .ro) :
    exec (.registerWrite off n v) s = .next s := by
  rw [registerWrite_eq]
  congr 1
  refine List.foldlRecOn (motive := fun t => t = s) _ _ rfl fun t ht i hi => ?_
  rw [windowWrite_readOnly _ _ (h i (by simp at hi; omega)), ht]

/-! ### Request slots take what is written to them (R296) -/

/-- The request slot of a mailbox holds `f`, and nothing else has changed. -/
structure RequestBecomes (d : Option Nat) (f : Nat → Byte) (s t : State) : Prop where
  slot : ∀ k, k < 64 → (requestOf t d).getD k 0 = f k
  others : ∀ e, e ≠ d → requestOf t e = requestOf s e
  rest : t = { s with domains := t.domains, dev := { s.dev with request := t.dev.request } }

theorem requestBecomes_refl (d : Option Nat) (s : State) : RequestBecomes d (fun k => (requestOf s d).getD k 0) s s :=
  ⟨fun _ _ => rfl, fun _ _ => rfl, rfl⟩

theorem requestBecomes_trans {d : Option Nat} {f g : Nat → Byte} {s t u : State} (h1 : RequestBecomes d f s t)
    (h2 : RequestBecomes d g t u) : RequestBecomes d g s u :=
  ⟨h2.slot, fun e he => (h2.others e he).trans (h1.others e he), by rw [h2.rest, h1.rest]⟩

theorem requestBecomes_setRequest (d : Option Nat) (bs : List Byte) (s : State) :
    RequestBecomes d (fun k => bs.getD k 0) s (setRequest d bs s) := by
  cases d with
  | none =>
    refine ⟨fun _ _ => rfl, fun e he => ?_, rfl⟩
    cases e with
    | none => exact absurd rfl he
    | some e => rfl
  | some d =>
    refine ⟨fun k _ => by simp [requestOf, setRequest, getDom], fun e he => ?_, rfl⟩
    cases e with
    | none => rfl
    | some e =>
      have hne : e ≠ d := fun h => he (congrArg some h)
      simp [requestOf, setRequest, getDom, kvGetD_kvSet, hne]

/-- Within the request slot of a mailbox, all offsets name that mailbox. -/
theorem mailAt_add {off i : Nat} {d : Option Nat} (h : mailAt off = some d) (hi : off % 4096 + i < 4096) :
    mailAt (off + i) = some d := by
  unfold mailAt at h ⊢
  split at h
  · rw [if_pos (by omega), show (off + i - 0x20000) / 0x1000 = (off - 0x20000) / 0x1000 by omega, h]
  · split at h
    · rw [if_neg (by omega), if_pos (by omega), h]
    · cases h

theorem getD_padded (l : List Byte) {k : Nat} (h : k < 64) : ((l ++ List.replicate 64 0).take 64).getD k 0 = l.getD k 0 := by
  simp only [List.getD_eq_getElem?_getD, List.getElem?_take, h, if_true, List.getElem?_append, List.getElem?_replicate]
  by_cases hk : k < l.length
  · rw [if_pos hk]
  · rw [if_neg hk, List.getElem?_eq_none (by omega)]
    split <;> rfl

theorem windowWrite_request {off : Nat} {d : Option Nat} (b : Byte) (s : State) (h : mailAt off = some d)
    (ho : off % 4096 < 64) :
    RequestBecomes d (fun k => if k = off % 4096 then b else (requestOf s d).getD k 0) s (windowWrite off b s) := by
  have hrw : accessAt off = .rw := by simp [accessAt, h, ho]
  simp only [windowWrite, h, hrw, regAfter]
  rw [if_neg (by decide)]
  have hset := requestBecomes_setRequest d
    (((requestOf s d ++ List.replicate 64 0).take 64).set (off % 4096) b) s
  refine ⟨fun k hk => (hset.slot k hk).trans ?_, hset.others, hset.rest⟩
  have hpad := getD_padded (requestOf s d) hk
  have hlen : ((requestOf s d ++ List.replicate 64 0).take 64).length = 64 := by simp
  split
  · subst_vars
    simp [List.getD_eq_getElem?_getD, hk]
  · rw [← hpad]
    simp only [List.getD_eq_getElem?_getD]
    rw [List.getElem?_set_ne (by omega)]

theorem windowWrites_request {off : Nat} {d : Option Nat} (v : DWord) (s : State) (h : mailAt off = some d) (n : Nat)
    (hn : off % 4096 + n ≤ 64) :
    RequestBecomes d (fun k => if off % 4096 ≤ k ∧ k < off % 4096 + n then v.extractLsb' (8 * (k - off % 4096)) 8
        else (requestOf s d).getD k 0) s
      ((List.range n).foldl (fun s i => windowWrite (off + i) (v.extractLsb' (8 * i) 8) s) s) := by
  induction n with
  | zero =>
    have h0 := requestBecomes_refl d s
    exact ⟨fun k _ => by rw [if_neg (by omega)]; rfl, h0.others, h0.rest⟩
  | succ n ih =>
    have before := ih (by omega)
    rw [List.range_succ, List.foldl_append]
    have hoff : (off + n) % 4096 = off % 4096 + n := by omega
    have last (u : State) := windowWrite_request (v.extractLsb' (8 * n) 8) u (mailAt_add (i := n) h (by omega)) (by omega)
    have both := requestBecomes_trans before (last _)
    refine ⟨fun k hk => (both.slot k hk).trans ?_, both.others, both.rest⟩
    rw [hoff, before.slot k hk]
    by_cases hlast : k = off % 4096 + n
    · rw [if_pos hlast, if_pos (by omega), show k - off % 4096 = n by omega]
    · rw [if_neg hlast]
      by_cases hin : off % 4096 ≤ k ∧ k < off % 4096 + n
      · rw [if_pos hin, if_pos (by omega)]
      · rw [if_neg hin, if_neg (by omega)]

/-! ### DEVSTAT (R298) -/

theorem devStat_fields (s : State) (h : s.dev.phase < 16) :
    (devStat s).extractLsb' 0 4 = BitVec.ofNat 4 s.dev.phase ∧ (devStat s).extractLsb' 8 8 = BitVec.ofNat 8 s.dev.err ∧
    (devStat s).extractLsb' 16 12 = s.dev.stackFail := by
  have hf := s.dev.stackFail.isLt
  refine ⟨BitVec.eq_of_toNat_eq ?_, BitVec.eq_of_toNat_eq ?_, BitVec.eq_of_toNat_eq ?_⟩
  · simp only [devStat, BitVec.extractLsb'_toNat, BitVec.toNat_ofNat, Nat.shiftRight_eq_div_pow]
    omega
  · simp only [devStat, BitVec.extractLsb'_toNat, BitVec.toNat_ofNat, Nat.shiftRight_eq_div_pow]
    omega
  · simp only [devStat, BitVec.extractLsb'_toNat, BitVec.toNat_ofNat, Nat.shiftRight_eq_div_pow]
    omega

theorem windowByte_devStat (s : State) {k : Nat} (h : k < 4) :
    windowByte s (0x10000 + k) = (devStat s).extractLsb' (8 * k) 8 := by
  rw [windowByte, if_neg (by omega), if_pos (by omega), Nat.add_sub_cancel_left, getD_bytesOfNat_toNat _ h]

/-! ## Trace samples (R288) -/

/-- A group of a domain that is on a core. -/
def OnCore (s : State) (core dom gid : Nat) : Prop := ∃ g, (gid, g) ∈ s.groups ∧ coreOfGid gid = core ∧ g.place.dom = dom

/-- The groups among which a core samples. -/
theorem mem_sampled (s : State) (core dom gid : Nat) :
    gid ∈ (s.groups.filter fun e => coreOfGid e.1 == core && e.2.place.dom == dom).map (fun e => e.1) ↔
      OnCore s core dom gid := by
  simp [OnCore]

theorem nextSampled_none {s : State} {core dom : Nat} (next : Nat) (h : ∀ gid, ¬ OnCore s core dom gid) :
    nextSampled s core dom next = none := by
  have hnil : (s.groups.filter fun e => coreOfGid e.1 == core && e.2.place.dom == dom).map (fun e => e.1) = [] :=
    List.eq_nil_iff_forall_not_mem.2 fun gid hg => h gid ((mem_sampled s core dom gid).1 hg)
  rw [nextSampled, hnil]
  rfl

/-- Round robin: a group in a slot from `next` on, or any group when there is none. -/
theorem nextSampled_some {s : State} {core dom k : Nat} (next : Nat) (h : OnCore s core dom k) :
    ∃ gid, nextSampled s core dom next = some gid ∧ OnCore s core dom gid ∧
      (next ≤ slotOfGid gid ∨ ∀ k, OnCore s core dom k → slotOfGid k < next) := by
  have hmem := mem_sampled s core dom
  rw [nextSampled]
  generalize (s.groups.filter fun e => coreOfGid e.1 == core && e.2.place.dom == dom).map (fun e => e.1) = gs at hmem ⊢
  cases hf : gs.find? fun g => decide (next ≤ slotOfGid g) with
  | some gid => exact ⟨gid, rfl, (hmem gid).1 (List.mem_of_find?_eq_some hf), .inl (by simpa using List.find?_some hf)⟩
  | none =>
    have hlow : ∀ k, OnCore s core dom k → slotOfGid k < next := fun k hk => by
      simpa using List.find?_eq_none.1 hf k ((hmem k).2 hk)
    cases gs with
    | nil => exact absurd ((hmem k).2 h) List.not_mem_nil
    | cons gid gs => exact ⟨gid, rfl, (hmem gid).1 List.mem_cons_self, .inr hlow⟩

/-- The core's samples of a domain, with the next one a period later and from a slot on. -/
def withSample (core dom due n : Nat) (s : State) : State :=
  modCore s core fun c => { c with samples := kvSet c.samples dom (due, n) }

theorem getCore_withSample (core dom due n : Nat) (s : State) :
    getCore (withSample core dom due n s) core =
      { getCore s core with samples := kvSet (getCore s core).samples dom (due, n) } := by
  rw [withSample, getCore_modCore, if_pos rfl]

theorem traceSample_due {core dom due next : Nat} {s : State} {t : Trace} (ht : (getDom s dom).trace = some t)
    (hs : kvGet (getCore s core).samples dom = some (due, next)) (hd : due ≤ s.dev.clock) :
    exec (.traceSample core dom) s = .next (match nextSampled s core dom next with
      | none => withSample core dom (due + t.period) next s
      | some gid =>
        let u := withSample core dom (due + t.period) (slotOfGid gid + 1) s
        traceRecord gid 1 2 0 (samplePc (getGroup u gid)) u) := by
  change execTraceSample core dom s = _
  rw [execTraceSample, ht, hs]
  dsimp only
  rw [if_neg (by omega)]
  cases nextSampled s core dom next <;> rfl

/-! ## The statement -/

/-- Settles O54, part by part: the end of a cycle leaves what bring-up looks at; a mailbox event is served by its request slot; the
bytes of a register write change one request slot each; and a due sample goes by the core's groups of the domain. -/
theorem deviceEvents : Obligations.DeviceEvents := by
  unfold Obligations.DeviceEvents
  refine ⟨fun s h => ?_, passCycle_bringUp, bringUp_cases, fun dom seq image s h => firmwareLoad_waiting dom seq image s h,
    fun fail s h => ?_, fun die current temp s h => powerThrottle_tells die current temp s h,
    fun code detail d s => ⟨rfl, mem_liveDoms s d⟩, powerCap_step, fun old v => ⟨rfl, rfl, rfl⟩, registerWrite_readOnly,
    fun off n d v s h hn ho => ?_, fun s h => ?_, fun core dom due next s t ht hs hd => ⟨fun hnone => ?_, fun hsome => ?_⟩⟩
  · change execDeviceResetRelease s = _
    rw [execDeviceResetRelease, if_pos h]
  · change execMemoryTraining fail s = _
    rw [execMemoryTraining, if_neg fun hn => hn h]
    split <;> rfl
  · have hw := windowWrites_request v s h n ho
    exact ⟨_, by rw [registerWrite_eq, Nat.min_eq_left hn], hw.slot, hw.others, hw.rest⟩
  · obtain ⟨hphase, herr, hstacks⟩ := devStat_fields s h
    exact ⟨hphase, herr, hstacks, fun k hk => windowByte_devStat s hk⟩
  · refine ⟨_, by rw [traceSample_due ht hs hd, nextSampled_none next hnone], rfl, getCore_withSample ..⟩
  · obtain ⟨k, hk⟩ := hsome
    obtain ⟨gid, hgid, hon, hround⟩ := nextSampled_some next hk
    exact ⟨_, gid, by rw [traceSample_due ht hs hd, hgid], hon, ⟨rfl, getCore_withSample ..⟩, hround⟩

end Sys2Proof.Proofs
end

section
/-! Accesses from outside, and what reaches the caches without an instruction (R8, R113, R116, R123, R214, R218, R236, R274, R294). -/

namespace Sys2Proof.Proofs

open Sys2Proof Sys2Proof.Machine Sys2Proof.Laws

/-! ## Bytes at their homes (R116, R123) -/

/-- One byte to a plain page: it reads as written, unless its line has failed. -/
theorem busWrite_plain {pa : Nat} {s : State} (b : Byte) (hm : Memory.wf s.mem = true) (hh : sramHome s pa = none) :
    ∃ m, busWrite pa b s = { s with mem := m } ∧ Memory.wf m = true ∧
      ∀ a, memByte m a = if a = pa ∧ lineOf a ∉ s.ecc then b else memByte s.mem a := by
  unfold busWrite
  by_cases hecc : lineOf pa ∈ s.ecc
  · refine ⟨s.mem, if_pos (by simpa using hecc), hm, fun a => (if_neg ?_).symm⟩
    rintro ⟨rfl, ha⟩
    exact ha hecc
  · rw [if_neg (by simpa using hecc), hh]
    refine ⟨_, rfl, wf_memPut _ _ hm, fun a => ?_⟩
    rw [memByte_memPut _ _ hm]
    by_cases ha : a = pa
    · subst ha
      simp [hecc]
    · rw [if_neg (by simp; omega), if_neg (fun h => ha h.1)]

theorem busWrites_plain (data : List Byte) {pa : Nat} {s : State} (hm : Memory.wf s.mem = true)
    (hh : ∀ i, i < data.length → sramHome s (pa + i) = none) :
    ∃ m, busWrites pa data s = { s with mem := m } ∧ ∀ a, memByte m a =
      if pa ≤ a ∧ a < pa + data.length ∧ lineOf a ∉ s.ecc then data.getD (a - pa) 0 else memByte s.mem a := by
  induction data generalizing pa s with
  | nil => exact ⟨s.mem, rfl, fun a => (if_neg (by simp; omega)).symm⟩
  | cons b bs ih =>
    obtain ⟨m, hw, hm', hb⟩ := busWrite_plain (pa := pa) b hm (hh 0 (by simp))
    have hrest : ∀ i, i < bs.length → sramHome { s with mem := m } (pa + 1 + i) = none := fun i hi => by
      have := hh (i + 1) (by simp; omega)
      rwa [show pa + (i + 1) = pa + 1 + i by omega] at this
    obtain ⟨m2, hw2, hb2⟩ := ih (s := { s with mem := m }) hm' hrest
    refine ⟨m2, by rw [busWrites, hw, hw2], fun a => ?_⟩
    rw [hb2 a, hb a, List.length_cons]
    by_cases ha : a = pa
    · subst ha
      rw [if_neg (by omega), Nat.sub_self]
      by_cases he : lineOf a ∈ s.ecc
      · simp [he]
      · simp [he]
    · by_cases hin : pa + 1 ≤ a ∧ a < pa + 1 + bs.length ∧ lineOf a ∉ s.ecc
      · obtain ⟨k, rfl⟩ : ∃ k, a = pa + 1 + k := ⟨a - (pa + 1), by omega⟩
        rw [if_pos hin, if_pos ⟨by omega, by omega, hin.2.2⟩, show pa + 1 + k - pa = k + 1 by omega, List.getD_cons_succ,
          Nat.add_sub_cancel_left]
      · rw [if_neg hin, if_neg (fun h => ha h.1), if_neg (fun h => hin ⟨by omega, by omega, h.2.2⟩)]

theorem busWrite_pinned {pa c : Nat} {s : State} (b : Byte) (hh : sramHome s pa = some c) (he : lineOf pa ∉ s.ecc) :
    busWrite pa b s = sramWrite c pa [b] s := by
  rw [busWrite, if_neg (by simpa using he), hh]

theorem busWrite_ctxs (pa : Nat) (b : Byte) (s : State) : (busWrite pa b s).ctxs = s.ctxs := by
  unfold busWrite
  split
  · rfl
  · split <;> rfl

/-! ## The host's accesses (R8, R294) -/

theorem hostMemoryAccess_eq (write : Bool) (pa : Nat) (data : List Byte) (s : State) :
    exec (.hostMemoryAccess write pa data) s =
      if pa + data.length ≤ deviceBytes then
        .next (if write then noteRewrite pa data.length (hostWrites pa data s) else s)
      else .fault (.noSuchPhysicalAddress pa) := rfl

/-- R8, R233: HEAD, DONE, STATUS and the reserved field of a queue's descriptor. -/
def ReadOnlyField (s : State) (a : Nat) : Prop :=
  ∃ e ∈ s.ctxs, ∃ q o, q < 16 ∧ 16 ≤ o ∧ o < 32 ∧ a = e.2.desc + 0x80 + 32 * q + o

theorem hostReadOnly_iff (s : State) (a : Nat) : hostReadOnly s a = true ↔ ReadOnlyField s a := by
  simp only [hostReadOnly, ReadOnlyField, List.any_eq_true, Bool.and_eq_true, decide_eq_true_eq]
  constructor
  · rintro ⟨e, he, ⟨hlo, hhi⟩, hfield⟩
    exact ⟨e, he, (a - (e.2.desc + 0x80)) / 32, (a - (e.2.desc + 0x80)) % 32, by omega, hfield, by omega, by omega⟩
  · rintro ⟨e, he, q, o, hq, ho, ho', rfl⟩
    exact ⟨e, he, ⟨by omega, by omega⟩, by omega⟩

theorem hostWrites_writable (data : List Byte) {pa : Nat} {s : State} (h : ∀ i, i < data.length → ¬ ReadOnlyField s (pa + i)) :
    hostWrites pa data s = busWrites pa data s := by
  induction data generalizing pa s with
  | nil => rfl
  | cons b bs ih =>
    have hfirst : ¬ hostReadOnly s pa = true := fun hr => h 0 (by simp) ((hostReadOnly_iff s pa).1 hr)
    rw [hostWrites, if_neg hfirst, busWrites]
    refine ih fun i hi => ?_
    have hnext := h (i + 1) (by simp; omega)
    rw [show pa + (i + 1) = pa + 1 + i by omega] at hnext
    rwa [ReadOnlyField, busWrite_ctxs]

theorem hostWrites_readOnly (data : List Byte) {pa : Nat} {s : State} (h : ∀ i, i < data.length → ReadOnlyField s (pa + i)) :
    hostWrites pa data s = s := by
  induction data generalizing pa with
  | nil => rfl
  | cons b bs ih =>
    rw [hostWrites, if_pos ((hostReadOnly_iff s pa).2 (h 0 (by simp)))]
    refine ih fun i hi => ?_
    rw [show pa + 1 + i = pa + (i + 1) by omega]
    exact h (i + 1) (by simp; omega)

/-! ## A peer's accesses (R274) -/

theorem remoteAccess_eq (dev pa : Nat) (acc : BusAccess) (wide : Bool) (data : List Byte) (s : State) :
    exec (.remoteAccess ⟨dev, acc⟩ wide pa data) s =
      if pa + busLen acc wide data ≤ deviceBytes then
        .next (if devReady s then busAccess dev acc wide pa data s else s)
      else .fault (.noSuchPhysicalAddress pa) := rfl

/-- An access inside device memory is performed once the device is ready. -/
theorem remoteAccess_ready {dev pa : Nat} {acc : BusAccess} {wide : Bool} {data : List Byte} {s : State} (hr : s.dev.phase = 5)
    (h : pa + busLen acc wide data ≤ deviceBytes) :
    exec (.remoteAccess ⟨dev, acc⟩ wide pa data) s = .next (busAccess dev acc wide pa data s) := by
  rw [remoteAccess_eq, if_pos h, if_pos (by rw [devReady, hr]; rfl)]

theorem busReply_known {dev : Nat} {s : State} {p : Peer} (pa : Nat) (bs : List Byte)
    (h : (s.net.peers.map fun e => e.2).find? (fun p => p.dev.toNat == dev) = some p) :
    (p.links &&& s.net.links ≠ 0 → ∃ r, busReply dev pa bs s = { s with net := { s.net with peerOut := s.net.peerOut ++ [r] } } ∧
      r.dev = dev ∧ r.pa = pa ∧ r.op = .reply ∧ r.data = bs) ∧
    (p.links &&& s.net.links = 0 → busReply dev pa bs s = s) := by
  have hdev : p.dev.toNat = dev := by simpa using List.find?_some h
  have hreply : busReply dev pa bs s = if peerDown s p then s else sendPeer p .p pa .reply bs.length bs s := by
    rw [busReply, h]
  rw [hreply]
  refine ⟨fun hup => ?_, fun hdown => if_pos (by simpa [peerDown] using hdown)⟩
  rw [if_neg (by simpa [peerDown] using hup)]
  exact ⟨_, rfl, hdev, rfl, rfl, rfl⟩

/-! ## A page that a core gives back (R116) -/

theorem memByte_shiftUp (m : List Host.Cell) (a x : Nat) : memByte (m.map fun c => (c.1 + a, c.2)) (x + a) = memByte m x := by
  induction m with
  | nil => rfl
  | cons e m ih =>
    obtain ⟨k, v⟩ := e
    simp only [List.map_cons, memByte, ih, Nat.add_right_cancel_iff, Nat.add_lt_add_iff_right]

/-- What memory holds after a page is pasted over a range. -/
theorem memByte_memPaste {m page : List Host.Cell} (a n : Nat) (hm : Memory.wf m = true) (hp : Memory.wf page = true) (x : Nat) :
    memByte (memPaste m a n page) x = if a ≤ x ∧ x < a + n then memByte page (x - a) else memByte m x := by
  have hnew : cellsFrom a ((page.filter fun c => decide (c.1 < n)).map fun c => (c.1 + a, c.2)) = true := by
    simpa using cellsFrom_shiftUp a (cellsFrom_filter (fun c => decide (c.1 < n)) hp)
  have hbelow : ∀ c ∈ (page.filter fun c => decide (c.1 < n)).map (fun c => (c.1 + a, c.2)), c.1 < a + n := fun c hc => by
    obtain ⟨d, hd, rfl⟩ := List.mem_map.1 hc
    have : d.1 < n := by simpa using (List.mem_filter.1 hd).2
    simp only; omega
  refine ((splice hm hnew hbelow).2 x).trans ?_
  split
  · rename_i hx
    obtain ⟨k, rfl⟩ : ∃ k, x = k + a := ⟨x - a, by omega⟩
    rw [memByte_shiftUp, memByte_filter _ (fun y => decide (y < n)) (fun _ => rfl) hp, Nat.add_sub_cancel,
      if_pos (by simp; omega)]
  · rfl

/-- The state without a page of a core's SRAM. -/
def withoutPage (core page : Nat) (s : State) : State :=
  modCore s core fun c => { c with sram := c.sram.filter fun q => q.pa != page }

theorem getCore_withoutPage (core page : Nat) (s : State) : getCore (withoutPage core page s) core =
    { getCore s core with sram := (getCore s core).sram.filter fun q => q.pa != page } := by
  rw [withoutPage, getCore_modCore, if_pos rfl]

theorem pageUnmap_page {core page : Nat} {s : State} {p : SramPage}
    (h : (getCore s core).sram.find? (fun q => q.pa == page) = some p) :
    exec (.pageUnmap core page) s = .next { withoutPage core page s with mem := memPaste s.mem page 65536 p.bytes } := by
  change execPageUnmap core page s = _
  rw [execPageUnmap, h]
  rfl

/-! ## The patrol (R123) -/

theorem eccPatrol_failed {line : Nat} {s : State} (h : line ∈ s.ecc) :
    exec (.eccPatrol line) s = .next
      (if (lineOwners s line).isEmpty then postAll 0x0B line s else (lineOwners s line).foldl (eccAlone line) s) := by
  change execEccPatrol line s = _
  rw [execEccPatrol, if_pos (by simpa using h)]

theorem eccPatrol_corrected {line : Nat} {s : State} (h : line ∉ s.ecc) (hsoft : line ∈ s.soft) :
    exec (.eccPatrol line) s = .next (deviceAdd 0x0003 1 { s with soft := s.soft.filter fun l => l != line }) := by
  change execEccPatrol line s = _
  rw [execEccPatrol, if_neg (by simpa using h), if_pos (by simpa using hsoft)]

/-! ## Prefetches and banks that land (R214, R218) -/

theorem prefetchLand_slot {core slot : Nat} {s : State} {p : PfSlot} (h : kvGet (getCore s core).pfSlots slot = some p) :
    exec (.prefetchLand core slot) s = .next (landPrefetch core slot p s) := by
  change execPrefetchLand core slot s = _
  rw [execPrefetchLand, h]

theorem landPrefetch_cases (core slot : Nat) (p : PfSlot) (s : State) :
    let u := modCore s core fun c => { c with pfSlots := kvDel c.pfSlots slot }
    let v := sliceAccess { core := core, owner := p.owner, pc := p.pc, entry := p.entry } p.pa p.home u
    (p.pa ∈ s.ecc ∨ l1Find (getCore u core) p.pa ≠ none → landPrefetch core slot p s = u) ∧
    (p.pa ∉ s.ecc → l1Find (getCore u core) p.pa = none →
      landPrefetch core slot p s = (l1Install core p.owner (l1SigIndex p.pc) p.pa p.home true v).2.2) := by
  dsimp only
  unfold landPrefetch
  refine ⟨fun h => if_pos ?_, fun he hl => ?_⟩
  · rw [Bool.or_eq_true, Option.isSome_iff_ne_none]
    exact h.imp_left fun he => by simpa using he
  · refine (if_neg ?_).trans rfl
    rw [Bool.or_eq_true, Option.isSome_iff_ne_none]
    exact fun h => h.elim (fun hc => he (by simpa using hc)) fun hn => hn hl

theorem getSlice_modSlice_same (n : Nat) (f : Slice → Slice) (s : State) : getSlice (modSlice n f s) n = f (getSlice s n) := by
  simp [getSlice, modSlice]

theorem sliceBankSwitch_wanted {slice owner : Nat} {s : State} (h : owner ∈ (getSlice s slice).wanted)
    (hc : kvHas s.ctxs owner = true) :
    exec (.sliceBankSwitch slice owner) s = .next (residentSliceBank slice owner
      (modSlice slice (fun x => { x with wanted := x.wanted.filter fun o => o != owner }) s)) := by
  change execSliceBankSwitch slice owner s = _
  rw [execSliceBankSwitch, if_pos (by simpa using h)]
  exact congrArg _ (if_pos hc)

/-! ## The statement -/

/-- Settles O55, part by part: a write from outside goes byte after byte to its home, and each event of a core, a slice or the patrol
is its one case that is not without effect. -/
theorem outsideAccess : Obligations.OutsideAccess := by
  unfold Obligations.OutsideAccess
  refine ⟨fun pa data s hm hh => ?_, fun pa c b s hh he => busWrite_pinned b hh he,
    fun pa data s => ⟨fun h => ?_, fun h write => ?_⟩, fun pa data s => ⟨hostWrites_writable data, hostWrites_readOnly data⟩,
    fun dev pa wide data s hr => ⟨fun n h => remoteAccess_ready hr h, fun h => remoteAccess_ready hr h, fun op h hroom => ?_,
      fun h => remoteAccess_ready hr h, fun dom clu hid words rel h => ?_⟩,
    fun dev pa acc wide data s h => ?_, fun x s => rfl, fun dev pa bs s p h => busReply_known pa bs h,
    fun core page s p h => ?_, fun line s h => ⟨fun hnone => ?_, fun o hone hctx => ?_⟩,
    fun line s h hsoft => eccPatrol_corrected h hsoft, fun core slot s p h => ?_, fun slice owner s h hctx => ?_⟩
  · obtain ⟨m, hw, hb⟩ := busWrites_plain data hm hh
    exact ⟨_, hw, rfl, hb⟩
  · rw [hostMemoryAccess_eq, hostMemoryAccess_eq, if_pos h, if_pos h]
    exact ⟨rfl, rfl⟩
  · rw [hostMemoryAccess_eq, if_neg (by omega)]
  · refine (remoteAccess_ready hr h).trans ?_
    rw [busAccess, busAtomic, if_neg (by omega)]
  · exact ⟨_, remoteAccess_ready hr h, rfl, rfl, rfl, rfl, rfl, rfl, rfl⟩
  · rw [remoteAccess_eq, if_neg (by omega)]
  · exact ⟨_, pageUnmap_page h, rfl, getCore_withoutPage core page s, fun hm hp => memByte_memPaste page 65536 hm hp⟩
  · rw [eccPatrol_failed h, hnone]
    rfl
  · rw [eccPatrol_failed h, hone]
    exact congrArg _ (if_pos hctx)
  · rw [prefetchLand_slot h]
    obtain ⟨hdrop, hinstall⟩ := landPrefetch_cases core slot p s
    exact ⟨fun hd => congrArg _ (hdrop hd), fun he hl => congrArg _ (hinstall he hl)⟩
  · exact ⟨_, sliceBankSwitch_wanted h hctx, rfl, getSlice_modSlice_same ..⟩

end Sys2Proof.Proofs
end

section
/-! Decoding is the inverse of encoding (R38 to R58): the words of every well-formed instruction, map by map. -/

namespace Sys2Proof.Proofs

open Sys2Proof Sys2Proof.Laws

/-! ## From words to bytes (R7, R38) -/

theorem wordOfBytes_bytesOfWord (w : Word) :
    wordOfBytes (w.extractLsb' 0 8) (w.extractLsb' 8 8) (w.extractLsb' 16 8) (w.extractLsb' 24 8) = w := by
  have h16 : w.extractLsb' 24 8 ++ w.extractLsb' 16 8 = w.extractLsb' 16 16 :=
    BitVec.extractLsb'_append_extractLsb'_eq_extractLsb' rfl
  have h24 : w.extractLsb' 16 16 ++ w.extractLsb' 8 8 = w.extractLsb' 8 24 :=
    BitVec.extractLsb'_append_extractLsb'_eq_extractLsb' rfl
  have h32 : w.extractLsb' 8 24 ++ w.extractLsb' 0 8 = w.extractLsb' 0 32 :=
    BitVec.extractLsb'_append_extractLsb'_eq_extractLsb' rfl
  rw [wordOfBytes, h16, h24, h32, BitVec.extractLsb'_eq_self]

theorem decodeRaw_zero (w1 : Word) : decodeRaw 0 w1 = none := rfl

theorem decodeRaw_allOnes (w1 : Word) : decodeRaw 0xFFFFFFFF w1 = none := rfl

/-- The two permanently illegal words (R58) hide no instruction: their majors are reserved. -/
theorem decode_of_decodeRaw {w0 w1 : Word} {i : Instr} (hd : decodeRaw w0 w1 = some i) (hwf : i.wf = true) :
    decode w0 w1 = .ok i := by
  have hzero : w0 ≠ 0x00000000#32 := by
    rintro rfl
    exact absurd ((decodeRaw_zero w1).symm.trans hd) nofun
  have hones : w0 ≠ 0xFFFFFFFF#32 := by
    rintro rfl
    exact absurd ((decodeRaw_allOnes w1).symm.trans hd) nofun
  simp [decode, hzero, hones, hd, hwf]

/-- The bytes of an instruction decode to it and leave what follows them, and are as many as its length. -/
def RoundTrips (i : Instr) : Prop :=
  ∀ rest : List Byte, decodeBytes (encodeBytes i ++ rest) = .ok (i, rest) ∧ (encodeBytes i).length = i.size

theorem roundTrips_oneWord {i : Instr} {w : Word} (hwf : i.wf = true) (he : encode i = [w]) (hsize : i.size = 4)
    (hlen : twoWords w = false) (hd : decodeRaw w 0 = some i) : RoundTrips i := by
  intro rest
  have hbytes : encodeBytes i = bytesOfWord w := by rw [encodeBytes, he, List.flatMap_singleton]
  rw [hbytes, hsize]
  refine ⟨?_, rfl⟩
  simp only [bytesOfWord, List.cons_append, List.nil_append, decodeBytes, wordOfBytes_bytesOfWord, hlen,
    decode_of_decodeRaw hd hwf, if_false, Bool.false_eq_true]

theorem roundTrips_twoWords {i : Instr} {w0 w1 : Word} (hwf : i.wf = true) (he : encode i = [w0, w1]) (hsize : i.size = 8)
    (hlen : twoWords w0 = true) (hd : decodeRaw w0 w1 = some i) : RoundTrips i := by
  intro rest
  have hbytes : encodeBytes i = bytesOfWord w0 ++ bytesOfWord w1 := by
    rw [encodeBytes, he, List.flatMap_cons, List.flatMap_singleton]
  rw [hbytes, hsize]
  refine ⟨?_, rfl⟩
  simp only [bytesOfWord, List.cons_append, List.nil_append, decodeBytes, wordOfBytes_bytesOfWord, hlen,
    decode_of_decodeRaw hd hwf, if_true]

/-! ## The maps of chapter 02 -/

/-- The maps that give instructions their encodings. -/
inductive EncodingMap where
  /-- the lane majors below 0x20, which compute values (R51) -/
  | laneValue
  /-- the lane majors 0x20 to 0x3D: predicates, cross-lane moves, memory and control (R51) -/
  | laneControl
  /-- two-word lane instructions (R52) -/
  | laneTwoWord
  /-- one-word uniform instructions (R53, R54) -/
  | uniform
  /-- the two-word ATOM of the uniform map (R53), and the engine map (R55) -/
  | uniformTwoWord

/-- The map of each instruction; events have none. -/
def mapOf : Instr → Option EncodingMap
  | .icmpLane .. | .fcmp .. | .pandLane .. | .porLane .. | .pxorLane .. | .pandnLane .. | .pornLane .. | .gsel ..
  | .sel .. | .ppack .. | .punpack .. | .shfl .. | .vscan .. | .vbal .. | .vred .. | .ldLane .. | .stLane ..
  | .ldq .. | .pref .. | .braLane .. | .jmpLane .. | .callLane .. | .nop .. | .exit .. | .yield .. | .spawn ..
  | .rjset .. | .rjwait .. | .trap .. | .brk .. => some .laneControl
  | .atom .. | .red .. | .cpa .. | .stcmp .. | .hld .. | .hst .. | .amsend .. | .rtret .. => some .laneTwoWord
  | .iaddUniform .. | .isubUniform .. | .imulUniform .. | .andUniform .. | .orUniform .. | .xorUniform ..
  | .andnUniform .. | .shlUniform .. | .shrNUniform .. | .shrSUniform .. | .rotUniform .. | .popcUniform ..
  | .clzUniform .. | .brevUniform .. | .iabsUniform .. | .inegUniform .. | .leaUniform .. | .imadUniform ..
  | .iminUniform .. | .imaxUniform .. | .bfxUniform .. | .bfxsUniform .. | .bfiUniform .. | .jmpUniform ..
  | .callUniform .. | .bcast .. | .tret .. | .binit .. | .barv .. | .bwait .. | .bexp .. | .binval .. | .ordrel ..
  | .iaddiUniform .. | .pick .. | .sread .. | .swrite .. | .movkUniform .. | .movkHiUniform .. | .enter ..
  | .leave .. | .icmpUniform .. | .pandUniform .. | .porUniform .. | .pxorUniform .. | .pandnUniform ..
  | .pornUniform .. | .ldUniform .. | .stUniform .. | .fence .. | .braUniform .. | .movx .. | .wait .. => some .uniform
  | .shld .. | .shev .. | .tld .. | .tst .. | .mldb .. | .mma .. | .topen .. | .tread .. | .treadStat ..
  | .tred .. | .attn .. | .attnMaxima .. | .attnGiven .. | .attnFinish .. | .kvapp .. | .kvfork .. | .kvdrop ..
  | .cins .. | .cmrg .. | .crdCent .. | .crdSum .. | .crdCnt .. | .crdStat .. | .ccfg .. | .ccfgKeep ..
  | .ccfgFree .. | .ssmld .. | .ssmscan .. | .ssmstep .. | .ssmst .. | .ssmstFree .. | .route .. | .rtbind ..
  | .rtrd .. | .rtrdFree .. | .svrd .. | .svwr .. | .svclr .. | .svsave .. | .svload .. | .ambind ..
  | .ambindAll .. | .ambindInbox .. | .ambindNone .. | .atomUniform .. => some .uniformTwoWord
  | i => if i.isEvent then none else some .laneValue

/-! ## Instructions of two words -/

theorem decodeRaw_fmtLR_LW (g d a b f) (w1 : Word) :
    decodeRaw (fmtLR 0x3E g d a b f) w1 = decodeLW (fmtLR 0x3E g d a b f) w1 := by
  simp [-BitVec.getLsbD_eq_getElem, decodeRaw, decodeLane, fmtLR_fields]

theorem roundTrips_LW {i : Instr} {g d a b f} {w1 : Word} (hwf : i.wf = true) (he : encode i = [fmtLR 0x3E g d a b f, w1])
    (hsize : i.size = 8) (hd : decodeLW (fmtLR 0x3E g d a b f) w1 = some i) : RoundTrips i :=
  roundTrips_twoWords hwf he hsize (by simp [-BitVec.getLsbD_eq_getElem, twoWords, fmtLR_fields])
    ((decodeRaw_fmtLR_LW g d a b f w1).trans hd)

/-- The majors 0x30 to 0x3B are left to the engine map (R55). -/
theorem decodeUniform_engine {w : Word} (w1 : Word) (hlo : 0x30 ≤ (fld w 25 6).toNat) (hhi : (fld w 25 6).toNat < 0x3C) :
    decodeUniform w w1 = decodeGW w w1 := by
  unfold decodeUniform
  dsimp only
  split
  case h_38 => rfl
  all_goals omega

theorem roundTrips_engine {i : Instr} {m sub a b x} {w1 : Word} (hwf : i.wf = true) (he : encode i = [fmtGW0 m sub a b x, w1])
    (hsize : i.size = 8) (hmajor : 0x30 ≤ m.toNat ∧ m.toNat < 0x3C)
    (hd : decodeGW (fmtGW0 m sub a b x) w1 = some i) : RoundTrips i := by
  obtain ⟨hbit, hm, -⟩ := fmtGW0_fields m sub a b x
  refine roundTrips_twoWords hwf he hsize ?_ ?_
  · simp only [twoWords, hbit, hm, if_true, Bool.and_eq_true, decide_eq_true_eq]
    omega
  · rw [decodeRaw, if_pos hbit, decodeUniform_engine w1 (by rw [hm]; exact hmajor.1) (by rw [hm]; exact hmajor.2), hd]

theorem nib_low_ne_two (b : Bool) : nib false false false b ≠ 2#4 := by
  revert b; decide

/-! ## Each map

The laws of the formats read a bit by `getLsbD`, so `simp` must not turn that into `getElem`. -/

/-- The lane majors below 0x20, of the formats LR, LI and LK (R40, R51). -/
theorem roundTrips_of_laneValue {i : Instr} (hwf : i.wf = true) (hmap : mapOf i = some .laneValue) : RoundTrips i := by
  cases i with
  | iaddLane | isubLane | imulLane | imadLane | iminLane | imaxLane | andLane | orLane | xorLane | andnLane
  | shlLane | shrNLane | shrSLane | rotLane | popcLane | clzLane | brevLane | iabsLane | inegLane | bfiLane
  | leaLane | fadd | fsub | fmul | fma | fmin | fmax | fabs | fneg | frndRn | frndRz | frndDn | frndUp | frcp
  | frsq | fsqrt | fexp2 | flog2 | cvtsE4m3Pack | cvtsE4m3Unpack | cvtsE5m2Pack | cvtsE5m2Unpack | cvtsE2m1Pack
  | cvtsE2m1Unpack =>
    exact roundTrips_oneWord hwf rfl rfl (by simp [-BitVec.getLsbD_eq_getElem, twoWords, fmtLR_fields])
      (by simp [-BitVec.getLsbD_eq_getElem, decodeRaw, decodeLane, fmtLR_fields, zeroed, nPart, packPart, unpackPart
        , Sat_ofBits_bits, MulPart_ofBits_bits, FType_ofBits_bits])
  | iaddiLane | bfxLane | bfxsLane | cvt =>
    exact roundTrips_oneWord hwf rfl rfl (by simp [-BitVec.getLsbD_eq_getElem, twoWords, fmtLI_fields])
      (by simp [-BitVec.getLsbD_eq_getElem, decodeRaw, decodeLane, fmtLI_fields, lenPosPart, cvtPart, Ty_ofBits_bits
        , Rm_ofBits_bits])
  | movkLane | movkHiLane =>
    exact roundTrips_oneWord hwf rfl rfl (by simp [-BitVec.getLsbD_eq_getElem, twoWords, fmtLK_fields])
      (by simp [-BitVec.getLsbD_eq_getElem, decodeRaw, decodeLane, fmtLK_fields])
  | _ => exact absurd hmap nofun

/-- The lane majors from 0x20 on, of the formats LR, LM, LK and LI (R40, R51). BRK is the code 0 of TRAP. -/
theorem roundTrips_of_laneControl {i : Instr} (hwf : i.wf = true) (hmap : mapOf i = some .laneControl) : RoundTrips i := by
  cases i with
  | icmpLane | fcmp | pandLane | porLane | pxorLane | pandnLane | pornLane | gsel | sel | ppack | punpack | shfl
  | vscan | vbal | vred | jmpLane | callLane | nop | exit | yield | spawn | rjset | rjwait =>
    exact roundTrips_oneWord hwf rfl rfl (by simp [-BitVec.getLsbD_eq_getElem, twoWords, fmtLR_fields])
      (by simp [-BitVec.getLsbD_eq_getElem, decodeRaw, decodeLane, fmtLR_fields, zeroed, Laws.negPart, lowPart, highPart
        , cvPart, ICond_ofBits_bits, FCond_ofBits_bits, Shfl_ofBits_bits, Scan_ofBits_bits, Red_ofBits_bits])
  | ldLane | stLane | ldq | pref =>
    exact roundTrips_oneWord hwf rfl rfl (by simp [-BitVec.getLsbD_eq_getElem, twoWords, fmtLM_fields])
      (by simp [-BitVec.getLsbD_eq_getElem, decodeRaw, decodeLane, fmtLM_fields, zeroed, Laws.fmtLM_clear, Size_ofBits_bits
        , Order_ofBits_bits, Scope_ofBits_bits])
  | braLane =>
    exact roundTrips_oneWord hwf rfl rfl (by simp [-BitVec.getLsbD_eq_getElem, twoWords, fmtLK_fields])
      (by simp [-BitVec.getLsbD_eq_getElem, decodeRaw, decodeLane, fmtLK_fields])
  | brk =>
    exact roundTrips_oneWord hwf rfl rfl (by simp [-BitVec.getLsbD_eq_getElem, twoWords, fmtLI_fields])
      (by simp [-BitVec.getLsbD_eq_getElem, decodeRaw, decodeLane, fmtLI_fields])
  | trap g code =>
    have hcode : code ≠ 0 := by simpa [Instr.wf] using hwf
    exact roundTrips_oneWord hwf rfl rfl (by simp [-BitVec.getLsbD_eq_getElem, twoWords, fmtLI_fields])
      (by simpa [-BitVec.getLsbD_eq_getElem, decodeRaw, decodeLane, fmtLI_fields] using hcode)
  | _ => exact absurd hmap nofun

/-- The two-word lane map (R52). -/
theorem roundTrips_of_laneTwoWord {i : Instr} (hwf : i.wf = true) (hmap : mapOf i = some .laneTwoWord) : RoundTrips i := by
  cases i with
  | atom | red | stcmp =>
    exact roundTrips_LW hwf rfl rfl
      (by simp [-BitVec.getLsbD_eq_getElem, decodeLW, zeroed, fmtLR_fields, fmtLW1_fields, lwFlags_fields, AOp_ofBits_bits
        , wideOf_wideBits, Order_ofBits_bits, Scope_ofBits_bits])
  | cpa | hld | hst =>
    exact roundTrips_LW hwf rfl rfl
      (by simp [-BitVec.getLsbD_eq_getElem, decodeLW, zeroed, fmtLR_fields, fmtLW1_fields, lwFlags_fields, Size_ofBits_bits
        , Order.ofBits])
  | amsend g rel sys =>
    cases rel <;> cases sys <;>
      exact roundTrips_LW hwf rfl rfl
        (by simp [-BitVec.getLsbD_eq_getElem, decodeLW, zeroed, fmtLR_fields, fmtLW1_fields, lwFlags_fields, Order.ofBits])
  | rtret g rel =>
    cases rel <;>
      exact roundTrips_LW hwf rfl rfl
        (by simp [-BitVec.getLsbD_eq_getElem, decodeLW, zeroed, fmtLR_fields, fmtLW1_fields, Order.ofBits])
  | _ => exact absurd hmap nofun

/-- The uniform map (R44, R53, R54). -/
theorem roundTrips_of_uniform {i : Instr} (hwf : i.wf = true) (hmap : mapOf i = some .uniform) : RoundTrips i := by
  cases i with
  | iaddUniform | isubUniform | imulUniform | andUniform | orUniform | xorUniform | andnUniform | shlUniform
  | shrNUniform | shrSUniform | rotUniform | popcUniform | clzUniform | brevUniform | iabsUniform | inegUniform
  | leaUniform =>
    exact roundTrips_oneWord hwf rfl rfl (by simp [-BitVec.getLsbD_eq_getElem, twoWords, fmtGRF_fields])
      (by simp [-BitVec.getLsbD_eq_getElem, decodeRaw, decodeUniform, fmtGRF_fields, Sat_ofBits_bits, MulPart_ofBits_bits])
  | imadUniform | iminUniform | imaxUniform | bfxUniform | bfxsUniform | bfiUniform | jmpUniform | callUniform
  | bcast | binit | barv | bwait | bexp | binval =>
    exact roundTrips_oneWord hwf rfl rfl (by simp [-BitVec.getLsbD_eq_getElem, twoWords, fmtGR_fields])
      (by simp [-BitVec.getLsbD_eq_getElem, decodeRaw, decodeUniform, fmtGR_fields, zeroed, lanePart])
  | tret | ordrel => exact roundTrips_oneWord hwf rfl rfl rfl rfl
  | iaddiUniform | pick | sread | swrite =>
    exact roundTrips_oneWord hwf rfl rfl (by simp [-BitVec.getLsbD_eq_getElem, twoWords, fmtGI_fields])
      (by simp [-BitVec.getLsbD_eq_getElem, decodeRaw, decodeUniform, fmtGI_fields, zeroed, lanePart, pickPart, srPart])
  | movkUniform | movkHiUniform | enter | leave =>
    exact roundTrips_oneWord hwf rfl rfl (by simp [-BitVec.getLsbD_eq_getElem, twoWords, fmtGK_fields])
      (by simp [-BitVec.getLsbD_eq_getElem, decodeRaw, decodeUniform, fmtGK_fields])
  | icmpUniform | pandUniform | porUniform | pxorUniform | pandnUniform | pornUniform =>
    exact roundTrips_oneWord hwf rfl rfl (by simp [-BitVec.getLsbD_eq_getElem, twoWords, fmtGC_fields])
      (by simp [-BitVec.getLsbD_eq_getElem, decodeRaw, decodeUniform, fmtGC_fields, zeroed, condPart, predPart
        , ICond_ofBits_bits])
  | ldUniform | stUniform | fence =>
    exact roundTrips_oneWord hwf rfl rfl (by simp [-BitVec.getLsbD_eq_getElem, twoWords, fmtGM_fields])
      (by simp [-BitVec.getLsbD_eq_getElem, decodeRaw, decodeUniform, fmtGM_fields, zeroed, Order_ofBits_bits
        , Scope_ofBits_bits])
  | braUniform =>
    exact roundTrips_oneWord hwf rfl rfl (by simp [-BitVec.getLsbD_eq_getElem, twoWords, fmtGB_fields])
      (by simp [-BitVec.getLsbD_eq_getElem, decodeRaw, decodeUniform, fmtGB_fields])
  | movx =>
    exact roundTrips_oneWord hwf rfl rfl (by simp [-BitVec.getLsbD_eq_getElem, twoWords, fmtGX_fields])
      (by simp [-BitVec.getLsbD_eq_getElem, decodeRaw, decodeUniform, fmtGX_fields, zeroed])
  | wait =>
    exact roundTrips_oneWord hwf rfl rfl (by simp [-BitVec.getLsbD_eq_getElem, twoWords, fmtGT_fields])
      (by simp [-BitVec.getLsbD_eq_getElem, decodeRaw, decodeUniform, fmtGT_fields, zeroed])
  | _ => exact absurd hmap nofun

/-- The engine map (R46, R55), and the uniform ATOM (R53). -/
theorem roundTrips_of_uniformTwoWord {i : Instr} (hwf : i.wf = true) (hmap : mapOf i = some .uniformTwoWord) :
    RoundTrips i := by
  cases i with
  | shld | shev | tld | tst | mldb | mma | topen | tread | treadStat | tred | attn | attnMaxima | attnGiven
  | attnFinish | kvapp | kvfork | kvdrop | cins | cmrg | crdCent | crdSum | crdCnt | crdStat | ccfg | ccfgKeep
  | ccfgFree | ssmld | ssmscan | ssmstep | ssmst | ssmstFree | rtbind | rtrd | rtrdFree | svrd | svwr | svclr
  | svsave | svload | ambind | ambindAll | ambindInbox | ambindNone =>
    exact roundTrips_engine hwf rfl rfl (by decide)
      (by simp [-BitVec.getLsbD_eq_getElem, decodeGW, zeroed, fmtGW0_fields, fmtGW1_fields, nib_fields, nib_low
        , nib_low_ne_two, nib_mode, Ty_ofBits_bits])
  | route cv bf =>
    cases bf <;>
      exact roundTrips_engine hwf rfl rfl (by decide)
        (by simp [-BitVec.getLsbD_eq_getElem, decodeGW, fmtGW0_fields, fmtGW1_fields, nib_fields, atomPart, Policy_ofBits_bits])
  | atomUniform =>
    exact roundTrips_twoWords hwf rfl rfl (by simp [-BitVec.getLsbD_eq_getElem, twoWords, fmtGW0_fields])
      (by simp [-BitVec.getLsbD_eq_getElem, decodeRaw, decodeUniform, decodeGA, zeroed, fmtGW0_fields, fmtGA1_fields, atomPart,
        AOp_ofBits_bits, wideOf_wideBits, Order_ofBits_bits, Scope_ofBits_bits])
  | _ => exact absurd hmap nofun

/-- Only events have no map, and an event is not well-formed as an instruction (R58). -/
theorem wf_of_mapOf_none {i : Instr} (h : mapOf i = none) : i.wf = false := by
  cases i <;> cases h <;> rfl

theorem roundTrips_of_wf {i : Instr} (hwf : i.wf = true) : RoundTrips i := by
  cases hmap : mapOf i with
  | none => exact absurd ((wf_of_mapOf_none hmap).symm.trans hwf) Bool.false_ne_true
  | some m =>
    cases m with
    | laneValue => exact roundTrips_of_laneValue hwf hmap
    | laneControl => exact roundTrips_of_laneControl hwf hmap
    | laneTwoWord => exact roundTrips_of_laneTwoWord hwf hmap
    | uniform => exact roundTrips_of_uniform hwf hmap
    | uniformTwoWord => exact roundTrips_of_uniformTwoWord hwf hmap

/-- Settles O58: each format's fields read back as they were laid out, each code names the value that it was made from, and the
fields that must be zero are. -/
theorem decodeEncode : Obligations.DecodeEncode := by
  unfold Obligations.DecodeEncode
  exact fun i rest hwf => roundTrips_of_wf hwf rest

end Sys2Proof.Proofs
end

section
/-! What decoding and R59 refuse: words that are no instruction, fetches that fail, and register checks. -/

namespace Sys2Proof.Proofs

open Sys2Proof Sys2Proof.Machine Sys2Proof.Laws

/-! ## Fetches (R57, R58, R245, R312) -/

/-- The lane that the trap record of a failed fetch or of an illegal word names (R243; log 13 where word 0 is not known). -/
def fetchLane (s : State) : Nat := if curIsUniform s then 0 else lowLane s.cur.mask

/-- The PC of the word whose fetch fails: word 1 once word 0 is fetched. -/
def failedPc (s : State) : Nat :=
  match fetchWord s s.cur.pc.toNat with
  | .ok _ => s.cur.pc.toNat + 4
  | .error _ => s.cur.pc.toNat

theorem fetchLane_of_ok {s : State} {w : Word} (h : fetchWord s s.cur.pc.toNat = .ok w) :
    fetchLane s = if w.getLsbD 31 then 0 else lowLane s.cur.mask := by
  rw [fetchLane, curIsUniform, h]

theorem fetchLane_of_error {s : State} {c : FetchCause} (h : fetchWord s s.cur.pc.toNat = .error c) :
    fetchLane s = lowLane s.cur.mask := by
  rw [fetchLane, curIsUniform, h]
  rfl

theorem failedPc_of_ok {s : State} {w : Word} (h : fetchWord s s.cur.pc.toNat = .ok w) : failedPc s = s.cur.pc.toNat + 4 := by
  rw [failedPc, h]

theorem failedPc_of_error {s : State} {c : FetchCause} (h : fetchWord s s.cur.pc.toNat = .error c) :
    failedPc s = s.cur.pc.toNat := by
  rw [failedPc, h]

theorem exec_illegalOp (s : State) : exec .illegalOp s = .next (trapNow 0x01 0 (fetchLane s) s) := rfl

theorem exec_fetchPermission {s : State} {g : Group} (hs : OnPath s g) :
    exec (.instructionFetchFault .permission) s =
      .next (trapNow 0x05 (codeVa s g.place.owner (failedPc s)) (fetchLane s) s) := by
  rw [← curGroup_of hs]
  rfl

theorem exec_fetchPageAbsent {s : State} {g : Group} (hs : OnPath s g) :
    exec (.instructionFetchFault .pageAbsent) s =
      .next (trapNow 0x04 (codeVa s g.place.owner (failedPc s)) (fetchLane s) s) := by
  rw [← curGroup_of hs]
  rfl

/-- A trap is held only while a handler runs or the group is suspended (R82). -/
theorem holdsTrap_free {s : State} {g : Group} (hs : OnPath s g) (hh : g.trap.handler = none) (hst : g.st ≠ .suspended) :
    holdsTrap s = false := by
  simp [holdsTrap, curGroup_of hs, hh, hst]

/-- PAGE_ABSENT of a group that nothing holds goes to the host runtime first (R245). -/
theorem trapNow_pageAbsent {s : State} {g : Group} (hs : OnPath s g) (hh : g.trap.handler = none) (hst : g.st ≠ .suspended)
    (hf : (getCtx s g.place.owner).fatal = none) (addr k : Nat) :
    trapNow 0x04 addr k s = postEvent g.place.dom g.place.owner 0x03 (addr % 2 ^ 52)
      (setCurGroup s { g with st := .suspended, trap := { g.trap with pageFault := some (preciseInfo s 0x04 addr k) } }) := by
  have hsuspend : deliverOrSuspend (curGid s) (preciseTrap s 0x04 addr k) s =
      suspendGroup (curGid s) (preciseTrap s 0x04 addr k) s := by
    refine if_pos ⟨rfl, ?_⟩
    rw [getGroup_of hs, hf]
    rfl
  rw [trapNow, raiseTrap, holdsTrap_free hs hh hst, if_neg Bool.false_ne_true, hsuspend, suspendGroup, getGroup_of hs]
  rfl

/-- Settles O22: each of the two events raises the precise trap of its cause, with the lane and the word that the fetch of word 0
decides. -/
theorem unfetchableWordsTrap : Obligations.UnfetchableWordsTrap := by
  unfold Obligations.UnfetchableWordsTrap
  intro s g hs
  have hall : TrapsTo (exec .illegalOp s) s g 0x01 0 (fetchLane s) ∧
      TrapsTo (exec (.instructionFetchFault .permission) s) s g 0x05 (codeVa s g.place.owner (failedPc s)) (fetchLane s) ∧
      (g.trap.handler = none → g.st ≠ .suspended → (getCtx s g.place.owner).fatal = none →
        exec (.instructionFetchFault .pageAbsent) s = .next (postEvent g.place.dom g.place.owner 0x03
          (codeVa s g.place.owner (failedPc s) % 2 ^ 52) (setCurGroup s { g with st := .suspended, trap := { g.trap with
            pageFault := some (preciseInfo s 0x04 (codeVa s g.place.owner (failedPc s)) (fetchLane s)) } }))) := by
    refine ⟨?_, ?_, fun hh hst hf => ?_⟩
    · rw [exec_illegalOp]
      exact trapNow_law hs
    · rw [exec_fetchPermission hs]
      exact trapNow_law hs
    · rw [exec_fetchPageAbsent hs, trapNow_pageAbsent hs hh hst hf]
  cases hw : fetchWord s s.cur.pc.toNat with
  | ok w =>
    rw [fetchLane_of_ok hw, failedPc_of_ok hw] at hall
    exact hall
  | error c =>
    rw [fetchLane_of_error hw, failedPc_of_error hw] at hall
    exact hall

/-! ## Register checks (R59, steps 2 and 3) -/

/-- Every lane integer instruction is one lane operation on the registers of its form. -/
theorem exec_laneInt {i : Instr} {F : LaneForm} (h : laneIntForm i = some F) (s : State) :
    ∃ f, exec i s = laneAlu F.g F.d F.srcs f s := by
  cases i with
  | iaddLane | isubLane | iaddiLane | imulLane | imadLane | iminLane | imaxLane | andLane | orLane | xorLane | andnLane
  | shlLane | shrNLane | shrSLane | rotLane | popcLane | clzLane | brevLane | iabsLane | inegLane | bfxLane | bfxsLane
  | bfiLane | leaLane | movkLane | movkHiLane =>
    cases h
    unfold exec
    exact ⟨_, rfl⟩
  | _ => exact absurd h nofun

/-- The registers' checks come before the ports' (R59). -/
theorem lanePre_trap {act : LaneMask} {u : Use} {s : State} {code addr k : Nat} (h : regPre true act u s = .trap code addr k) :
    lanePre act u s = .trap code addr k := by
  rw [lanePre, h]
  rfl

theorem laneAlu_trap {gb : Bool} {d : VReg} {srcs : List VReg} {s : State} {g : Group} {code addr k : Nat}
    (f : List Word → Word) (hs : OnPath s g)
    (h : regPre true (actMask gb s) { vr := srcs.map BitVec.toNat, vw := [d.toNat] } s = .trap code addr k) :
    TrapsTo (laneAlu gb d srcs f s) s g code addr k := by
  unfold laneAlu laneOp
  exact runPre_trap hs (lanePre_trap h)

/-- Settles O23: the checks of the one lane operation that each of these instructions is. -/
theorem registerChecks : Obligations.RegisterChecks := by
  unfold Obligations.RegisterChecks
  intro i F s g hF hs
  obtain ⟨f, hexec⟩ := exec_laneInt hF s
  rw [hexec]
  exact ⟨fun hcount => laneAlu_trap f hs (regPre_count hs hcount),
    fun l hcount hact hpend hlow => laneAlu_trap f hs (regPre_pending hs hcount hact hpend hlow)⟩

end Sys2Proof.Proofs
end

section
/-! The guard and the paths: GSEL, SEL and PPACK, branches, rejoining, and the return from a trap. -/

namespace Sys2Proof.Proofs

open Sys2Proof Sys2Proof.Machine Sys2Proof.Laws

/-! ## GSEL, SEL and PPACK (R73, R332, R360, R368) -/

/-- The fibre that an acting lane of the issuing path sees is the one that it writes. -/
theorem getFibre_laneEnv {s : State} {g : Group} (hs : OnPath s g) (act : LaneMask) (rs : List Nat) {l : Nat} {x : Fibre}
    (hx : kvGet g.fibres l = some x) : getFibre (laneEnv s act rs).grp l = x := by
  show getFibre (curGroup s) l = x
  rw [curGroup_of hs, getFibre_of hx]

/-- The acting lanes take a guard selection (R332). -/
theorem gsel_law (gb : Bool) (p : PReg) (neg : Bool) {s : State} {g : Group} (hs : OnPath s g) :
    ∃ t h, exec (.gsel gb p neg) s = .next t ∧ PathStep 0 (some 4) s t h ∧ h = { g with fibres := h.fibres } ∧
      LanesRelate g h (actMask gb s) fun _ x y => y = { x with guardP := p, guardN := neg } := by
  obtain ⟨t, h, hexec, hstep, -, -, hframe, hlanes⟩ := laneOp_law (gb := gb) (u := {})
    (f := fun _ _ => { guard := some (p, neg) }) hs ⟨nofun, nofun⟩ ⟨fun _ _ => nofun, nofun⟩ nofun fun _ => nofun
  refine ⟨t, h, hexec, hstep, hframe nofun, lanesRelate_of hlanes fun l x _ _ => ?_⟩
  simp [applyOut]

/-- Each lane of the path takes one of two operands by its own guard, which is its guard selection's predicate (R368). -/
theorem sel_law (d a b : VReg) {s : State} {g : Group} (hs : OnPath s g)
    (hc : InCounts g [a.toNat, b.toNat, d.toNat] []) (hp : NotPending g s.cur.mask [a.toNat, b.toNat, d.toNat] [])
    (hd : d.toNat < 120) (hf : s.cur.mask ≠ 0 → PortsFull g [a.toNat, b.toNat]) :
    ∃ t h, exec (.sel d a b) s = .next t ∧ PathStep 0 (some 4) s t h ∧
      h = { g with fibres := h.fibres, ports := h.ports } ∧ PortsPopped g h [a.toNat, b.toNat] (s.cur.mask != 0) ∧
      LanesRelate g h s.cur.mask fun l x y =>
        let v := if getPred x x.guardP.toNat != x.guardN then operandOf g l a.toNat else operandOf g l b.toNat
        y = { x with regs := x.regs.set d.toNat v } := by
  have hact := actMask_false s
  obtain ⟨t, h, hexec, hstep, hframe, hports, -, hlanes⟩ := laneOp_law (gb := false)
    (u := { vr := [a.toNat, b.toNat], vw := [d.toNat] })
    (f := fun e l => { regs := [(d.toNat, if admits (getFibre e.grp l) then laneVal e l a.toNat else laneVal e l b.toNat)] })
    hs hc (by rwa [hact]) (by simpa using hd) (by rwa [hact])
  rw [hact] at hports hlanes
  refine ⟨t, h, hexec, hstep, hframe, hports, lanesRelate_of hlanes fun l x hx _ => ?_⟩
  rw [getFibre_laneEnv hs _ _ hx, laneVal_law _ _ _ _ a.toNat (by simp), laneVal_law _ _ _ _ b.toNat (by simp),
    curGroup_of hs]
  simp [applyOut, setReg, admits]

/-- The word of a quarter holds its predicates, p0 as 1 (R360). -/
theorem getLsbD_packPreds (x : Fibre) (q i : Nat) (hi : i < 32) : (packPreds x q).getLsbD i = getPred x (32 * q + i) := by
  have hsum : (List.range 32).foldl (fun v i => v + (if getPred x (32 * q + i) then 2 ^ i else 0)) 0 =
      ((List.range 32).filter fun i => getPred x (32 * q + i)).foldl (fun v i => v + 2 ^ i) 0 := by
    rw [List.foldl_filter]
    congr 1
    funext v i
    split <;> rfl
  rw [packPreds, hsum, BitVec.getLsbD_ofNat, (maskSum_law _ 32).2 i]
  simp [hi]

/-- The acting lanes write a quarter of their predicates into a register (R360). -/
theorem ppack_law (gb : Bool) (d : VReg) (q : BitVec 2) {s : State} {g : Group} (hs : OnPath s g)
    (hc : InCounts g [d.toNat] []) (hp : NotPending g (actMask gb s) [d.toNat] []) (hd : d.toNat < 120) :
    ∃ t h, exec (.ppack gb d q) s = .next t ∧ PathStep 0 (some 4) s t h ∧ h = { g with fibres := h.fibres } ∧
      LanesRelate g h (actMask gb s) fun _ x y => ∃ v : Word, y = { x with regs := x.regs.set d.toNat v } ∧
        ∀ i, i < 32 → v.getLsbD i = getPred x (32 * q.toNat + i) := by
  obtain ⟨t, h, hexec, hstep, -, -, hframe, hlanes⟩ := laneOp_law (gb := gb) (u := { vw := [d.toNat] })
    (f := fun e l => { regs := [(d.toNat, packPreds (getFibre e.grp l) q.toNat)] }) hs hc hp (by simpa using hd) fun _ => nofun
  refine ⟨t, h, hexec, hstep, hframe nofun, lanesRelate_of hlanes fun l x hx _ => ?_⟩
  refine ⟨packPreds x q.toNat, ?_, fun i hi => getLsbD_packPreds x q.toNat i hi⟩
  rw [getFibre_laneEnv hs _ _ hx]
  simp [applyOut, setReg]

/-- Settles O7: each of the three is one lane operation on the lanes that act. -/
theorem guardAndSelect : Obligations.GuardAndSelect := by
  unfold Obligations.GuardAndSelect
  exact ⟨fun gb p neg s g hs => gsel_law gb p neg hs, fun d a b s g hs hc hp hd hf => sel_law d a b hs hc hp hd hf,
    fun gb d q s g hs hc hp hd => ppack_law gb d q hs hc hp hd⟩

/-! ## BRA (R70, R72, R220, R312) -/


theorem ofInt_four_mul_toInt {n : Nat} (off : BitVec n) : BitVec.ofInt 32 (4 * off.toInt) = 4 * off.signExtend 32 := by
  rw [BitVec.ofInt_mul]
  rfl

/-- The lanes of the issuing path that a branch takes are among the path's. -/
theorem maskOf_act_and (gb : Bool) (s : State) (p : Nat → Bool) :
    (maskOf fun l => inMask s.cur.mask l && (inMask (actMask gb s) l && p l)) = maskOf fun l => inMask (actMask gb s) l && p l := by
  congr 1
  funext l
  cases h : inMask (actMask gb s) l
  · simp
  · simp [actMask_path h]

theorem maskOf_all_or_none (m : LaneMask) (b : Bool) : (maskOf fun l => inMask m l && b) = if b = true then m else 0 := by
  refine mask_ext fun l hl => ?_
  rw [inMask_maskOf, decide_eq_true hl]
  cases b
  · simp [inMask]
  · simp

theorem exec_braLane (gb : Bool) (p : PReg) (neg : Bool) (off : BitVec 16) {s : State} {g : Group} (hs : OnPath s g) :
    exec (.braLane gb p neg off) s =
      .next (noteIssue 0 (branch (maskOf fun l => inMask (actMask gb s) l && (getPred (getFibre g l) p.toNat != neg))
        (fun _ => s.cur.pc + 4 * off.signExtend 32) s)) := by
  rw [← ofInt_four_mul_toInt, ← curGroup_of hs]
  rfl

theorem exec_braUniform (p : GPReg) (neg : Bool) (off : BitVec 20) {s : State} {g : Group} (hs : OnPath s g) :
    exec (.braUniform p neg off) s =
      .next (noteIssue 1 (branch (if (getGp g p.toNat != neg) = true then s.cur.mask else 0)
        (fun _ => s.cur.pc + 4 * off.signExtend 32) s)) := by
  rw [← ofInt_four_mul_toInt, ← curGroup_of hs]
  rfl

/-- Settles O11: both forms are one branch of the issuing path, whose group they do not change otherwise. -/
theorem branches : Obligations.Branches := by
  unfold Obligations.Branches
  constructor
  · intro gb p neg off s g hs
    have h := branch_law 0 (fun l => inMask (actMask gb s) l && (getPred (getFibre g l) p.toNat != neg))
      (fun _ => s.cur.pc + 4 * off.signExtend 32) hs rfl rfl
    rw [maskOf_act_and, setCurGroup_eq hs] at h
    exact ⟨_, exec_braLane gb p neg off hs, h⟩
  · intro p neg off s g hs
    have h := branch_law 1 (fun _ => getGp g p.toNat != neg) (fun _ => s.cur.pc + 4 * off.signExtend 32) hs rfl rfl
    rw [maskOf_all_or_none, setCurGroup_eq hs] at h
    exact ⟨_, exec_braUniform p neg off hs, h⟩

/-! ## Signing a convergence register (R74 to R80) -/

theorem lanesRelate_modLanes {g h : Group} {m : LaneMask} {f : Nat → Fibre → Fibre} {R : Nat → Fibre → Fibre → Prop}
    (hh : h.fibres = (modLanes g m f).fibres) (hr : ∀ l x, inMask m l = true → R l x (f l x)) : LanesRelate g h m R :=
  lanesRelate_of (fun l => by rw [hh]; exact getFibre_modLanes g m f l) fun l x _ hm => hr l x hm

/-- The mark of an issue on a fibre does not depend on what else the instruction does to the fibre's PC and state. -/
theorem pathStep_modLanes {k : Nat} {n : Option Nat} {s t : State} {h : Group} (m : LaneMask) (f : Nat → Fibre → Fibre)
    (hf : ∀ l x, movedBy n (f l x) = f l (movedBy n x)) (hp : PathStep k n s t h) :
    PathStep k n s (setCurGroup t (modLanes (curGroup t) m f)) (modLanes h m f) := by
  obtain ⟨fs, hcur, hfs⟩ := curGroup_pathStep hp
  rw [hcur]
  refine pathStep_set _ hp rfl fun l => ?_
  simp only [modLanes, kvGet_kvMap, hfs, Option.map_map]
  cases kvGet h.fibres l with
  | none => rfl
  | some x => by_cases hm : inMask m l = true <;> by_cases hc : inMask s.cur.mask l = true <;> simp [hm, hc, hf]

theorem pathStep_cvs {k : Nat} {n : Option Nat} {s t : State} {h : Group} (cvs : List CvReg) (hp : PathStep k n s t h) :
    PathStep k n s (setCurGroup t { curGroup t with cvs := cvs }) { h with cvs := cvs } := by
  obtain ⟨fs, hcur, hfs⟩ := curGroup_pathStep hp
  rw [hcur]
  exact pathStep_set _ hp rfl hfs

/-- The register as the first signer leaves it, but for SIGN: its TAG names the instruction, and it keeps an engine's (log 6). -/
def signing (c : CvReg) (pc : Word) (eng : Option Instr) : CvReg :=
  if c.tv then c else { c with tag := pc.extractLsb' 2 30, tv := true, eng := eng }

theorem signing_sign (c : CvReg) (pc : Word) (eng : Option Instr) : (signing c pc eng).sign = c.sign := by
  unfold signing
  split <;> rfl

/-- The registers of a group after a signature of one of them. -/
def signedCvs (g : Group) (n : Nat) (m : LaneMask) (pc : Word) (eng : Option Instr) : List CvReg :=
  g.cvs.set n { signing (getCv g n) pc eng with sign := (getCv g n).sign ||| m }

/-- A signature writes its register, and its lanes become blocked. -/
theorem signCv_eq (n : Nat) (m : LaneMask) (why : Block) (eng : Option Instr) (s : State) :
    let t := setCurGroup s { curGroup s with cvs := signedCvs (curGroup s) n m s.cur.pc eng }
    signCv n m why eng s = setCurGroup t (modLanes (curGroup t) m fun _ x => { x with st := .blocked why }) := by
  intro t
  rw [curGroup_setCurGroup, setCurGroup_setCurGroup, signedCvs, ← signing_sign (getCv (curGroup s) n) s.cur.pc eng]
  rfl

/-- Signing goes on beside the issue of the path's instruction. -/
theorem pathStep_signCv {k : Nat} {s t : State} {h : Group} (n : Nat) (m : LaneMask) (why : Block) (eng : Option Instr)
    (hp : PathStep k none s t h) :
    PathStep k none s (signCv n m why eng t)
      (modLanes { h with cvs := signedCvs h n m s.cur.pc eng } m fun _ x => { x with st := .blocked why }) := by
  obtain ⟨fs, hcur, -⟩ := curGroup_pathStep hp
  have hcvs : signedCvs (curGroup t) n m s.cur.pc eng = signedCvs h n m s.cur.pc eng := by rw [hcur]; rfl
  rw [signCv_eq, cur_issued hp.1, hcvs]
  exact pathStep_modLanes m _ (fun _ _ => rfl) (pathStep_cvs _ hp)

theorem signMismatch_iff {s : State} {g : Group} (hs : OnPath s g) (n : Nat) :
    signMismatch s n = true ↔ (getCv g n).tv = true ∧ (getCv g n).tag ++ 0#2 ≠ s.cur.pc := by
  simp [signMismatch, curGroup_of hs, tagPc]

theorem signMismatch_false {s : State} {g : Group} (hs : OnPath s g) {n : Nat}
    (h : (getCv g n).tv = true → (getCv g n).tag ++ 0#2 = s.cur.pc) : signMismatch s n = false := by
  rw [Bool.eq_false_iff, ne_eq, signMismatch_iff hs]
  exact fun hm => hm.2 (h hm.1)

/-! ## RJSET and RJWAIT (R76, R77) -/

theorem exec_rjset (gb : Bool) (cv : CvNum) {s : State} {g : Group} (hs : OnPath s g) :
    exec (.rjset gb cv) s = .next (advance 4 (noteIssue 0 (setCurGroup s { g with
      cvs := g.cvs.set cv.toNat { getCv g cv.toNat with
        decl := ((getCv g cv.toNat).decl &&& ~~~s.cur.mask) ||| actMask gb s } }))) := by
  rw [← curGroup_of hs]
  rfl

theorem exec_rjwait_mismatch (gb : Bool) (cv : CvNum) {s : State} (h : signMismatch s cv.toNat = true) :
    exec (.rjwait gb cv) s = .next (trapNow 0x07 0 (lowLane s.cur.mask) s) := if_pos h

theorem exec_rjwait_sign (gb : Bool) (cv : CvNum) {s : State} (h : signMismatch s cv.toNat = false) :
    exec (.rjwait gb cv) s = .next (signCv cv.toNat (actMask gb s) (.rejoin cv.toNat) none
      (advanceLanes (s.cur.mask &&& ~~~actMask gb s) 4 (noteIssue 0 s))) :=
  if_neg (by simp [h])

/-- The lanes of RJWAIT whose guard is false go on, before the acting lanes sign. -/
theorem advanceLanes_law (m : LaneMask) {s : State} {g : Group} (hs : OnPath s g) :
    PathStep 0 none s (advanceLanes m 4 (noteIssue 0 s)) (modLanes g m fun _ x => { x with pc := x.pc + 4 }) :=
  pathStep_modLanes m _ (fun _ _ => rfl) (issue_self 0 hs)

theorem inMask_and (a b : LaneMask) (l : Nat) : inMask (a &&& b) l = (inMask a l && inMask b l) := BitVec.getLsbD_and

theorem rjwait_lanes {act m : LaneMask} {why : Block} {g h : Group} (hact : ∀ l, inMask act l = true → inMask m l = true)
    (hh : h.fibres = (modLanes (modLanes g (m &&& ~~~act) fun _ x => { x with pc := x.pc + 4 }) act
      fun _ x => { x with st := .blocked why }).fibres) :
    LanesRelate g h m fun l x y => y = if inMask act l then { x with st := .blocked why } else { x with pc := x.pc + 4 } := by
  refine lanesRelate_of (f := fun l x => if inMask act l then { x with st := .blocked why } else { x with pc := x.pc + 4 })
    (fun l => ?_) fun _ _ _ _ => rfl
  rw [hh]
  simp only [modLanes, kvGet_kvMap, Option.map_map]
  congr 1
  funext x
  by_cases hm : inMask m l = true
  · by_cases ha : inMask act l = true <;> simp [ha, hm, inMask_andNot _ _ _ hm]
  · have ha : ¬ inMask act l = true := fun ha => hm (hact l ha)
    simp [ha, hm, inMask_and]

/-- Settles O16: RJSET writes DECL alone; RJWAIT traps on another PC, and else the admitted lanes sign and the others go on. -/
theorem rejoinSetAndWait : Obligations.RejoinSetAndWait := by
  unfold Obligations.RejoinSetAndWait
  intro gb cv s g hs
  refine ⟨⟨_, exec_rjset gb cv hs, advance_law 4 0 s _ (by rw [curGroup_of hs])⟩, fun htv htag => ?_, fun htag => ?_⟩
  · rw [exec_rjwait_mismatch gb cv ((signMismatch_iff hs _).2 ⟨htv, htag⟩)]
    exact trapNow_law hs
  · refine ⟨_, _, exec_rjwait_sign gb cv (signMismatch_false hs htag), pathStep_signCv _ _ _ _ (advanceLanes_law _ hs), rfl,
      rjwait_lanes (fun _ => actMask_path) rfl⟩

/-! ## Completion (R75, R78) -/

theorem within_iff (a b : LaneMask) : within a b = true ↔ ∀ l, l < 64 → inMask a l = true → inMask b l = true := by
  rw [within, beq_iff_eq]
  constructor
  · intro h l hl ha
    have hbit := congrArg (fun m : LaneMask => m.getLsbD l) h
    simp only [inMask] at ha ⊢
    simpa [ha, hl] using hbit
  · refine fun h => BitVec.eq_of_getLsbD_eq fun l hl => ?_
    have := h l hl
    simp only [inMask] at this
    cases ha : a.getLsbD l
    · simp [ha]
    · simp [ha, this ha]

/-- The declared lanes; those of cv0 are the fibres of the group (R78). -/
theorem inMask_declOf (g : Group) (n : Nat) {l : Nat} (hl : l < 64) :
    inMask (declOf g n) l = true ↔ if n = 0 then kvGet g.fibres l ≠ none else inMask (getCv g n).decl l = true := by
  unfold declOf
  split
  · rw [liveMask, inMask_maskOf, decide_eq_true hl, Bool.true_and, kvHas_iff, ne_eq, Option.eq_none_iff_forall_ne_some]
    simp
  · exact Iff.rfl

theorem cvComplete_iff (g : Group) (n : Nat) : cvComplete g n = true ↔ (getCv g n).sign ≠ 0 ∧
    ∀ l, l < 64 → (if n = 0 then kvGet g.fibres l ≠ none else inMask (getCv g n).decl l = true) →
      inMask (getCv g n).sign l = true := by
  rw [cvComplete, Bool.and_eq_true, bne_iff_ne, within_iff]
  refine and_congr_right fun _ => forall₂_congr fun l hl => ?_
  rw [inMask_declOf g n hl]

theorem modGroup_setGroup (s : State) (gid : Nat) (g : Group) (f : Group → Group) :
    modGroup (setGroup s gid g) gid f = setGroup s gid (f g) := by
  rw [modGroup_of (kvGet_setGroup ..), setGroup_setGroup]

theorem completeCv_incomplete {gid n : Nat} {s : State} {g : Group} (hg : kvGet s.groups gid = some g)
    (h : cvComplete g n = false) : completeCv gid n s = s :=
  if_neg (by rw [getGroup_of hg, h]; exact Bool.false_ne_true)

/-- The signers of a rejoin go on past it. -/
theorem completeCv_rejoin {gid n : Nat} {s : State} {g : Group} (hg : kvGet s.groups gid = some g)
    (h : cvComplete g n = true) (he : (getCv g n).eng = none) :
    completeCv gid n s = setGroup s gid
      { modLanes g (getCv g n).sign (fun _ x => { x with st := .resident, pc := tagPc (getCv g n) + 4 }) with
        cvs := g.cvs.set n { decl := (getCv g n).decl, tag := (getCv g n).tag } } := by
  have hstep : completeCv gid n s = resumeLanes gid (getCv g n).sign (tagPc (getCv g n) + 4)
      (setGroup s gid { g with cvs := g.cvs.set n { decl := (getCv g n).decl, tag := (getCv g n).tag } }) := by
    simp only [completeCv, getGroup_of hg, h, he, if_true]
  rw [hstep, resumeLanes, modGroup_setGroup]
  rfl

theorem completedCv_eq {c : CvReg} (he : c.eng = none) :
    ({ c with sign := 0, tv := false } : CvReg) = { decl := c.decl, tag := c.tag } := by
  cases c
  cases he
  rfl

/-- Settles O17: completion is the test that every declared lane has signed. -/
theorem convergenceCompletes : Obligations.ConvergenceCompletes := by
  unfold Obligations.ConvergenceCompletes
  intro gid n s g hg _
  refine ⟨fun hc => completeCv_incomplete hg ?_, fun hc he => ?_⟩
  · rwa [Bool.eq_false_iff, ne_eq, cvComplete_iff]
  · refine ⟨_, completeCv_rejoin hg ((cvComplete_iff g n).2 hc) he, ?_, lanesRelate_modLanes rfl fun _ _ _ => rfl⟩
    rw [completedCv_eq he]
    rfl

/-! ## TRET (R82, R154, R250) -/


theorem deliverHeld_nil {gid : Nat} {s : State} (h : (getGroup s gid).trap.held = []) : deliverHeld gid s = s := by
  rw [deliverHeld]
  simp only [h]

/-- The group of a handler's return: the trapped path goes to TRAPREC1, an STCMP resumes, and the handler has ended. -/
def returned (g : Group) (k : Handler) : Group :=
  let pc := g.trap.words.getD 1 0
  let r : StcmpAt := { pc := pc, mask := k.mask, elt := (g.trap.words.getD 6 0).toNat }
  { modLanes g k.mask (fun _ x => { x with pc := pc }) with trap := { g.trap with
      handler := none
      stcmpAt := if k.stcmp = true ∧ pc = k.faultPc then r :: g.trap.stcmpAt.filter (fun x => !overlaps x.mask k.mask)
        else g.trap.stcmpAt } }

theorem returnFromTrap_eq (k : Handler) (s : State) :
    returnFromTrap (curGid s) k s = deliverHeld (curGid s) (setCurGroup s (returned (curGroup s) k)) := by
  have hg : getGroup s (curGid s) = curGroup s := rfl
  unfold returnFromTrap returned
  dsimp only
  rw [hg]
  by_cases h : k.stcmp = true ∧ (curGroup s).trap.words.getD 1 0 = k.faultPc
  · rw [if_pos h, if_pos h, endHandler, modGroup_setGroup]
    rfl
  · rw [if_neg h, if_neg h, endHandler, modGroup_setGroup]
    rfl

theorem exec_tret_return {s : State} {g : Group} {k : Handler} (hs : OnPath s g) (hk : g.trap.handler = some k)
    (hpc : (g.trap.words.getD 1 0).extractLsb' 0 2 = 0) :
    exec .tret s = .next (returnFromTrap (curGid s) k (noteIssue 1 s)) := by
  have hbad : pcBad (g.trap.words.getD 1 0) = false := by rw [pcBad, hpc]; rfl
  show execTret s = _
  simp only [execTret, curGroup_of hs, hk, hbad]
  rfl

theorem exec_tret_misaligned {s : State} {g : Group} {k : Handler} (hs : OnPath s g) (hk : g.trap.handler = some k)
    (hpc : (g.trap.words.getD 1 0).extractLsb' 0 2 ≠ 0) :
    exec .tret s = .next (trapNow 0x02 (g.trap.words.getD 1 0).toNat 0 s) := by
  have hbad : pcBad (g.trap.words.getD 1 0) = true := by rw [pcBad]; exact bne_iff_ne.2 hpc
  show execTret s = _
  simp only [execTret, curGroup_of hs, hk, hbad]
  rfl

theorem exec_tret_outside {s : State} {g : Group} (hs : OnPath s g) (hk : g.trap.handler = none) :
    exec .tret s = .next (trapNow 0x01 0 0 s) := by
  show execTret s = _
  simp only [execTret, curGroup_of hs, hk]

/-- A precise trap of the path whose handler runs is fatal (R249). -/
theorem trapNow_nested {s : State} {g : Group} {k : Handler} {c : Ctx} {code : Nat} (addr progress : Nat) (hs : OnPath s g)
    (hk : g.trap.handler = some k) (hm : overlaps k.mask s.cur.mask = true) (hc : kvGet s.ctxs g.place.owner = some c)
    (hf : c.fatal = none) (hcode : code ≠ 4) :
    trapNow code addr progress s = fatalTrap (curGid s) { preciseInfo s code addr progress with nested := true } s := by
  have hg : getGroup s (curGid s) = g := getGroup_of hs
  have hholds : holdsTrap s = false := by simp [holdsTrap, curGroup_of hs, hk, hm]
  have hctx : (getCtx s g.place.owner).fatal = none := by rw [getCtx, kvGetD, hc]; exact hf
  have hprec : (preciseTrap s code addr progress).code = code := rfl
  simp only [trapNow, raiseTrap, hholds, deliverOrSuspend, hprec, hcode, false_and, if_false, deliverTrap, hg, hctx, hk]
  rfl

/-- Steps 1 and 2 of the fatal path change no byte, and record the fault (R251). -/
theorem goFatal_law {s : State} {gid : Nat} {g : Group} {c : Ctx} (f : Fatal) (hg : kvGet s.groups gid = some g)
    (hc : kvGet s.ctxs g.place.owner = some c) (hst : f.step = .halted) :
    let t := goFatal g.place.owner f s
    SameBytes s t ∧ kvGet t.groups gid = some (haltedGroup g) ∧
      ∃ d e, kvGet t.ctxs g.place.owner = some d ∧ d.fatal = some e ∧ e.step = .halted ∧ e.recWords = f.recWords := by
  refine ⟨⟨fun _ => rfl, fun _ _ => rfl⟩, ?_, ?_⟩
  · show kvGet (kvMap s.groups fun _ x => if x.place.owner = g.place.owner then haltedGroup x else x) gid = _
    rw [kvGet_kvMap, hg, Option.map_some, if_pos rfl]
  · refine ⟨{ c with fatal := some { f with
      queued := fatalBusy s, clock := s.dev.clock, started := startedTlds s g.place.owner, copies := startedCopies s g.place.owner } },
      _, ?_, rfl, hst, rfl⟩
    show kvGet (kvMod s.ctxs _ _) _ = _
    rw [kvGet_kvMod_same, hc]
    rfl

theorem haltedGroup_of {g : Group} (h : g.trap.pageFault = none) :
    haltedGroup g = { g with halted := true, sched := { g.sched with stopPending := false } } := by
  unfold haltedGroup
  split
  next hp => rw [h] at hp; exact absurd hp nofun
  next => rfl

/-- Settles O21: a return moves the trapped path and ends the handler; the other two cases are a nested, hence fatal, trap and a
precise one. -/
theorem returnFromTrap : Obligations.ReturnFromTrap := by
  unfold Obligations.ReturnFromTrap
  intro s g hs
  refine ⟨fun k hk hpc => ?_, fun k c hk hpc hm hpf hc hf => ?_, fun hk => ?_⟩
  · have hp := issue_self 1 hs
    have hgid := curGid_issued hp.1
    obtain ⟨fs, hcur, -⟩ := curGroup_pathStep hp
    have hon : OnPath (noteIssue 1 s) (curGroup (noteIssue 1 s)) := by
      obtain ⟨-, -, g', hg', -⟩ := hp
      rw [curGroup_of (g := g') (by rw [OnPath, hgid]; exact hg'), OnPath, hgid]
      exact hg'
    have hwords : (curGroup (noteIssue 1 s)).trap.words = g.trap.words := by rw [hcur]; rfl
    refine ⟨_, _, returned (curGroup (noteIssue 1 s)) k, hp, hon, ⟨?_, fun hheld => deliverHeld_nil ?_⟩, ?_, ?_, ?_⟩
    · rw [exec_tret_return hs hk hpc, ← hgid, returnFromTrap_eq]
    · rw [← hgid]
      show (curGroup (setCurGroup _ _)).trap.held = []
      rw [curGroup_setCurGroup]
      show (curGroup (noteIssue 1 s)).trap.held = []
      rw [hcur]
      exact hheld
    · rfl
    · rw [← hwords]
      rfl
    · rw [← hwords]
      exact lanesRelate_modLanes rfl fun _ _ _ => rfl
  · rw [exec_tret_misaligned hs hk hpc, trapNow_nested _ _ hs hk hm hc hf (by decide)]
    obtain ⟨hbytes, hgrp, d, e, hd, he, hstep, hrec⟩ := goFatal_law (gid := curGid s)
      { recWords := trapWords { preciseInfo s 0x02 (g.trap.words.getD 1 0).toNat 0 with nested := true } (!g.trap.held.isEmpty)
          g.depth (topRegion g),
        clock := 0, team := g.place.teamId.toNat, group := g.place.num,
        cluster := clusterOfCore (coreOfGid (curGid s)), depth := g.depth, regions := regionView g, queued := false } hs hc rfl
    rw [haltedGroup_of hpf] at hgrp
    refine ⟨_, d, e, congrArg _ ?_, hbytes, hgrp, hd, he, hstep, hrec⟩
    rw [← getGroup_of hs]
    rfl
  · rw [exec_tret_outside hs hk]
    exact trapNow_law hs

end Sys2Proof.Proofs
end

section
/-! Engine instructions: signing their convergence register, their issue once it is complete, and acceptance. -/

namespace Sys2Proof.Proofs

open Sys2Proof Sys2Proof.Machine Sys2Proof.Laws

/-! ## Signing (R79, R303) -/

/-- An engine instruction signs its register once the registers of its form have been checked. -/
structure SignsAs (i : Instr) (F : EngForm) (cv : CvNum) (u : Use) (named : List Nat) : Prop where
  exec : ∀ s, exec i s = engSign cv i u named s
  cv : F.cv = cv.toNat
  lanes : u.vr ++ u.vw = F.lanes
  unis : (u.gr ++ u.gw).Perm F.unis
  named : named = F.named

theorem signsAs_of_engForm {i : Instr} {F : EngForm} (h : engForm i = some F) : ∃ cv u named, SignsAs i F cv u named := by
  cases i with
  | shld | shev | tld | tst | mldb | mma | topen | tread | treadStat | tred | attn | attnMaxima | attnGiven | attnFinish
  | kvapp | kvfork | kvdrop | cins | cmrg | crdCent | crdSum | crdStat | ccfg | ccfgKeep | ccfgFree | ssmld | ssmscan
  | ssmstep | ssmst | ssmstFree | route | rtbind | rtrd | rtrdFree | svrd | svwr | svclr | svsave | svload | ambind
  | ambindAll | ambindInbox | ambindNone =>
    cases h
    exact ⟨_, _, _, fun _ => rfl, rfl, by simp [span, regRange],
      .of_eq (by simp [span, regRange, pairAtReg]), rfl⟩
  | crdCnt =>
    cases h
    exact ⟨_, _, _, fun _ => rfl, rfl, rfl, .swap .., rfl⟩
  | _ => exact absurd h nofun

/-- Registers below the counts and not pending pass the checks (R59, R303). -/
theorem engRegs_go {i : Instr} {F : EngForm} {cv : CvNum} {u : Use} {named : List Nat} {s : State} {g : Group}
    (h : SignsAs i F cv u named) (hs : OnPath s g) (hc : InCounts g F.lanes (F.unis ++ F.named))
    (hp : NotPending g (liveMask g) F.lanes F.unis) : engRegs u named s = .go := by
  obtain ⟨hlanes, hunis⟩ := hc
  obtain ⟨hlp, hup⟩ := hp
  have hnamed : countsOk g { gr := named } = true := by
    refine countsOk_of ⟨nofun, fun r hr => hunis r (List.mem_append_right _ ?_)⟩
    rw [← h.named]
    simpa using hr
  have hregs : regPre false (liveMask g) u s = .go := by
    refine regPre_go (curGroup_of hs) ⟨?_, fun r hr => hunis r (List.mem_append_left _ (h.unis.mem_iff.1 hr))⟩
      ⟨?_, fun r hr => hup r (h.unis.mem_iff.1 hr)⟩
    · rw [h.lanes]
      exact hlanes
    · rw [h.lanes]
      exact hlp
  rw [engRegs, curGroup_of hs, hnamed, hregs]
  rfl

section
variable {i : Instr} {F : EngForm} {s : State} {g : Group}

/-- A signature at another PC is CONV_MISMATCH (R77, R79). -/
theorem exec_engine_mismatch (hF : engForm i = some F) (hs : OnPath s g) (hc : InCounts g F.lanes (F.unis ++ F.named))
    (hp : NotPending g (liveMask g) F.lanes F.unis) (hm : signMismatch s F.cv = true) :
    exec i s = .next (trapNow 0x07 0 0 s) := by
  obtain ⟨cv, u, named, h⟩ := signsAs_of_engForm hF
  rw [h.cv] at hm
  rw [h.exec, engSign, engRegs_go h hs hc hp, hm]
  rfl

/-- All lanes of the path sign, and its issue is noted but for the watchdog's time (R79, R255). -/
theorem exec_engine_sign (hF : engForm i = some F) (hs : OnPath s g) (hc : InCounts g F.lanes (F.unis ++ F.named))
    (hp : NotPending g (liveMask g) F.lanes F.unis) (hm : signMismatch s F.cv = false) :
    exec i s = .next (signCv F.cv s.cur.mask (.engine F.cv) (some i) (noteSlot 3 s)) := by
  obtain ⟨cv, u, named, h⟩ := signsAs_of_engForm hF
  rw [h.cv] at hm ⊢
  rw [h.exec, engSign, engRegs_go h hs hc hp, hm]
  rfl

end

/-- The group of a path that has signed a register for an engine instruction, but for the marks of the issue. -/
def engineSigned (s : State) (g : Group) (n : Nat) (i : Instr) : Group :=
  modLanes { g with cvs := signedCvs g n s.cur.mask s.cur.pc (some i) } s.cur.mask fun _ x => { x with st := .blocked (.engine n) }

theorem engineSigned_lanes (s : State) (g : Group) (n : Nat) (i : Instr) :
    LanesRelate g (engineSigned s g n i) s.cur.mask fun _ x y => y = { x with st := .blocked (.engine n) } :=
  lanesRelate_modLanes rfl fun _ _ _ => rfl

/-- With the watchdog's time restarted, the path has issued. -/
theorem signCv_issued {s : State} {g : Group} (hs : OnPath s g) (n : Nat) (i : Instr) :
    PathStep 3 none s (noteRun g.place.owner (signCv n s.cur.mask (.engine n) (some i) (noteSlot 3 s))) (engineSigned s g n i) := by
  have hcomm : noteRun g.place.owner (signCv n s.cur.mask (.engine n) (some i) (noteSlot 3 s)) =
      signCv n s.cur.mask (.engine n) (some i) (noteIssue 3 s) := by
    rw [noteIssue, curGroup_of hs]
    rfl
  rw [hcomm]
  exact pathStep_signCv n _ _ _ (issue_self 3 hs)

theorem signStep_signCv {s : State} {g : Group} (hs : OnPath s g) (n : Nat) (i : Instr) :
    SignStep s (signCv n s.cur.mask (.engine n) (some i) (noteSlot 3 s)) g (engineSigned s g n i) :=
  ⟨noteSlot_ctxs 3 s, signCv_issued hs n i⟩

/-- Settles O40: the form's registers pass the checks, and the path traps on another PC or signs. -/
theorem engineInstructionsSign : Obligations.EngineInstructionsSign := by
  unfold Obligations.EngineInstructionsSign
  intro i F s g hF hs hc hp
  refine ⟨fun htv htag => ?_, fun htag => ?_⟩
  · rw [exec_engine_mismatch hF hs hc hp ((signMismatch_iff hs _).2 ⟨htv, htag⟩)]
    exact trapNow_law hs
  · exact ⟨_, _, exec_engine_sign hF hs hc hp (signMismatch_false hs htag), signStep_signCv hs F.cv i, rfl,
      engineSigned_lanes s g F.cv i⟩

/-! ## The check of R75 at the end of the cycle -/

/-- The registers before the first complete one are left as they are. -/
theorem settle_first {gid n : Nat} {s : State} (hn : n < 16) (hk : kvHas s.groups gid = true)
    (hbefore : ∀ k, k < n → completeCv gid k s = s) : settle gid s = settleAfter gid n (completeCv gid n s) := by
  have hskip : ∀ m, m ≤ n → (List.range m).foldl (fun s k => completeCv gid k s) s = s := by
    intro m hm
    induction m with
    | zero => rfl
    | succ m ih =>
      rw [List.range_succ, List.foldl_append, ih (Nat.le_of_succ_le hm)]
      exact hbefore m hm
  have hsplit : List.range 16 = List.range n ++ n :: (List.range 16).drop (n + 1) := by
    have h := (List.take_append_drop n (List.range 16)).symm
    rwa [List.take_range, Nat.min_eq_left (Nat.le_of_lt hn), List.drop_eq_getElem_cons (i := n) (by simpa using hn),
      List.getElem_range] at h
  rw [settle, if_pos hk, hsplit, List.foldl_append, hskip n (Nat.le_refl n)]
  rfl

/-- Whether a register is complete follows from the register and from which lanes hold a fibre. -/
theorem cvComplete_congr {g h : Group} {k : Nat} (hcv : getCv h k = getCv g k)
    (hf : ∀ l, kvHas h.fibres l = kvHas g.fibres l) : cvComplete h k = cvComplete g k := by
  have hlive : liveMask h = liveMask g := by simp only [liveMask, hf]
  simp only [cvComplete, declOf, hcv, hlive]

theorem getCv_set_same {g : Group} {n : Nat} (hn : n < g.cvs.length) (c : CvReg) : getCv { g with cvs := g.cvs.set n c } n = c := by
  simp [getCv, hn]

theorem getCv_set_ne (g : Group) {n k : Nat} (hk : k ≠ n) (c : CvReg) : getCv { g with cvs := g.cvs.set n c } k = getCv g k := by
  simp [getCv, Ne.symm hk]

theorem completeCv_engine {gid n : Nat} {s : State} {g : Group} {i : Instr} (hg : kvGet s.groups gid = some g)
    (h : cvComplete g n = true) (he : (getCv g n).eng = some i) :
    completeCv gid n s = engineIssue gid i (getCv g n).sign (tagPc (getCv g n)) (noteRun g.place.owner
      (setGroup s gid { g with cvs := g.cvs.set n { decl := (getCv g n).decl, tag := (getCv g n).tag } })) := by
  simp only [completeCv, getGroup_of hg, h, he, if_true]


/-! ## Acceptance (R100, R132) -/

/-- The engines of a core take the instructions that neither sequencer queues (R100). -/
theorem acceptDirect_of_unit {i : Instr} {F : EngForm} (hF : engForm i = some F) (hu : unitOf i = .direct) (e : EngEnv)
    (s : State) : ∃ home r, acceptance i e s = some (home, r) ∧
      acceptDirect i e s = acceptCmd (if home then homeOf s e.g else coreOfGid e.gid) e r s := by
  cases i with
  | shld | shev | tld | tst | mldb | mma | topen | tread | treadStat | tred | cins | cmrg | crdCent | crdSum | crdCnt | crdStat
  | ccfg | ccfgKeep | ccfgFree | ssmld | ssmscan | ssmstep | ssmst | ssmstFree | svrd | svwr | svclr | svsave | svload | ambind
  | ambindAll | ambindInbox | ambindNone => exact ⟨_, _, rfl, rfl⟩
  | attn | attnMaxima | attnGiven | attnFinish | kvapp | kvfork | kvdrop | route | rtbind | rtrd | rtrdFree =>
    exact absurd hu nofun
  | _ => exact absurd hF nofun

/-- The fibres of a group are as they were. -/
theorem lanesRelate_same {g h : Group} {m : LaneMask} {R : Nat → Fibre → Fibre → Prop} (hh : h.fibres = g.fibres)
    (hr : ∀ l x, R l x x) : LanesRelate g h m R :=
  lanesRelate_of (f := fun _ x => x) (fun l => by simp [hh]) fun l x _ _ => hr l x

/-- The operation that an accepted instruction of a group counts as on TL (R132). -/
def tlOp (s : State) (g : Group) (e : EngEnv) (a : Accepted) : Op :=
  { seq := g.opSeq, cls := .tl, kind := .engine (s.nextId + 1) a.bar, pc := e.pc, mask := e.mask, act := e.mask,
    unif := decide (0 < a.dests), dest := a.dest, dests := a.dests, ord := a.ord, seen := g.twin.length, err := lineErr a.bad }

/-- Its group, before the signers go on. -/
def countedGroup (s : State) (g : Group) (e : EngEnv) (a : Accepted) : Group :=
  { g with
    ops := g.ops ++ [tlOp s g e a], opSeq := g.opSeq + 1,
    upend := if 0 < a.dests then g.upend ||| BitVec.ofNat 1024 (2 ^ a.dest * (2 ^ a.dests - 1)) else g.upend }

/-- A core with an accepted command more. -/
def coreWithCmd (c : Cmd) (x : Core) : Core := { x with eng := { x.eng with cmds := x.eng.cmds ++ [c] } }

/-- The state with the accepted command, before the signers go on. -/
def withCmd (core : Nat) (s : State) (g : Group) (e : EngEnv) (a : Accepted) : State :=
  modCore (setGroup { s with nextId := s.nextId + 1 } e.gid (countedGroup s g e a)) core (coreWithCmd (commandOf s e a))

theorem pushCmd_eq (core : Nat) {e : EngEnv} (a : Accepted) {s : State} {g : Group} (hg : kvGet s.groups e.gid = some g) :
    pushCmd core e a s = if a.hold then withCmd core s g e a
      else resumeLanes e.gid e.mask (e.pc + 8) (withCmd core s g e a) := by
  have hg1 : getGroup { s with nextId := s.nextId + 1 } e.gid = getGroup s e.gid := rfl
  simp only [pushCmd, freshId, countTl, hg1, getGroup_of hg, withCmd, countedGroup, tlOp, commandOf]
  rfl

theorem getCore_withCmd (core : Nat) (s : State) (g : Group) (e : EngEnv) (a : Accepted) (c : Nat) :
    getCore (withCmd core s g e a) c = if c = core then coreWithCmd (commandOf s e a) (getCore s c) else getCore s c := by
  rw [withCmd, getCore_modCore]
  split
  · next h =>
    rw [h]
    rfl
  · rfl

/-- An accepted command is the last of its core's; it counts on TL, and its signers go on unless it holds them (R79, R132). -/
theorem pushCmd_law (core : Nat) {e : EngEnv} (a : Accepted) {s : State} {g : Group} (hg : kvGet s.groups e.gid = some g) :
    EngAccepted core e a s (pushCmd core e a s) := by
  have hcores := getCore_withCmd core s g e a
  rw [pushCmd_eq core a hg]
  cases ha : a.hold
  · have hg1 : kvGet (withCmd core s g e a).groups e.gid = some (countedGroup s g e a) := kvGet_setGroup ..
    rw [if_neg Bool.false_ne_true, resumeLanes, modGroup_of hg1]
    refine ⟨g, modLanes (countedGroup s g e a) e.mask fun _ x => { x with st := .resident, pc := e.pc + 8 }, hg,
      kvGet_setGroup .., fun k hk => ?_, rfl, hcores, rfl, lanesRelate_modLanes rfl fun _ _ _ => by simp [ha]⟩
    show kvGet (kvSet (kvSet s.groups _ _) _ _) k = _
    rw [kvSet_kvSet, kvGet_kvSet_ne _ _ hk]
  · exact ⟨g, countedGroup s g e a, hg, kvGet_setGroup .., fun k hk => kvGet_kvSet_ne _ _ hk, rfl, hcores, rfl,
      lanesRelate_same rfl fun _ _ => by simp [ha]⟩

/-! ## The queue of a group (R132) -/

theorem drainEngQ_busy {gid : Nat} {s : State} (h : mayAccept s gid = false) : drainEngQ gid s = s := by
  unfold drainEngQ
  cases (getGroup s gid).engQ.length with
  | zero => rfl
  | succ n =>
    unfold drainFrom
    rw [h]
    split <;> rfl

theorem mayAccept_of {gid : Nat} {s : State} {g : Group} (hg : kvGet s.groups gid = some g) :
    mayAccept s gid = true ↔ (getCtx s g.place.owner).fatal = none ∧ g.sched.preempted = false ∧ counter g .tl < 63 := by
  simp only [mayAccept, kvHas, hg, getGroup_of hg, Option.isSome_some, Bool.true_and, Bool.and_eq_true, Option.isNone_iff_eq_none,
    Bool.not_eq_true', decide_eq_true_eq, and_assoc]

/-- Whether a group's instructions may be accepted does not depend on those that wait. -/
theorem mayAccept_engQ {gid : Nat} {s : State} {g : Group} (hg : kvGet s.groups gid = some g) (q : List EngWait) :
    mayAccept (setGroup s gid { g with engQ := q }) gid = mayAccept s gid := by
  rw [Bool.eq_iff_iff, mayAccept_of hg, mayAccept_of (kvGet_setGroup ..)]
  rfl

theorem drainEngQ_one {gid : Nat} {s : State} {g : Group} (w : EngWait) (hg : kvGet s.groups gid = some g)
    (hq : g.engQ = []) (h : mayAccept s gid = true) :
    drainEngQ gid (setGroup s gid { g with engQ := [w] }) = acceptDirect w.instr (engEnv s gid w.mask w.pc) s := by
  have hback : modGroup (setGroup s gid { g with engQ := [w] }) gid (fun g => { g with engQ := [] }) = s := by
    rw [modGroup_setGroup, ← hq]
    exact setGroup_self hg
  simp only [drainEngQ, getGroup_of (kvGet_setGroup s gid { g with engQ := [w] }), List.length_singleton, drainFrom,
    mayAccept_engQ hg, h, if_true, hback]

section
variable {i : Instr} {gid : Nat} {m : LaneMask} {pc : Word} {s : State} {g : Group}

/-- An instruction of the group's engines waits in the group while it may not be accepted. -/
theorem engineIssue_busy (hu : unitOf i = .direct) (hg : kvGet s.groups gid = some g) (h : mayAccept s gid = false) :
    engineIssue gid i m pc s = modGroup s gid fun g => { g with engQ := g.engQ ++ [{ instr := i, mask := m, pc := pc }] } := by
  rw [engineIssue, hu]
  refine drainEngQ_busy ?_
  rw [modGroup_of hg, mayAccept_engQ hg, h]

/-- With none waiting before it, it is taken at once when it may be accepted. -/
theorem engineIssue_free (hu : unitOf i = .direct) (hg : kvGet s.groups gid = some g) (hq : g.engQ = [])
    (h : mayAccept s gid = true) : engineIssue gid i m pc s = acceptDirect i (engEnv s gid m pc) s := by
  rw [engineIssue, hu]
  show drainEngQ _ (modGroup _ _ _) = _
  rw [modGroup_of hg, hq]
  exact drainEngQ_one _ hg hq h

end

/-! ## The last signature and the issue (R75, R79) -/

theorem extract_append_zero {pc : Word} (h : pc.extractLsb' 0 2 = 0) : pc.extractLsb' 2 30 ++ 0#2 = pc := by
  rw [← show pc.extractLsb' 0 2 = 0#2 from h]
  exact BitVec.extractLsb'_append_extractLsb'_eq_extractLsb' rfl |>.trans BitVec.extractLsb'_eq_self

/-- The register as the last signer of an engine instruction leaves it. -/
def lastSigned (s : State) (g : Group) (n : Nat) (i : Instr) : CvReg :=
  { signing (getCv g n) s.cur.pc (some i) with sign := (getCv g n).sign ||| s.cur.mask }

section
variable {i : Instr} {n : Nat} {s : State} {g : Group}

theorem lastSigned_decl : (lastSigned s g n i).decl = (getCv g n).decl := by
  simp only [lastSigned, signing]
  split <;> rfl

theorem lastSigned_eng (h : LastSigner i n s g) : (lastSigned s g n i).eng = some i := by
  simp only [lastSigned, signing]
  split
  next htv => exact (h.first htv).2
  next => rfl

theorem lastSigned_tag (h : LastSigner i n s g) : (lastSigned s g n i).tag = s.cur.pc.extractLsb' 2 30 := by
  simp only [lastSigned, signing]
  split
  next htv =>
    rw [← (h.first htv).1]
    exact BitVec.extractLsb'_append_eq_left.symm
  next => rfl

theorem tagPc_lastSigned (h : LastSigner i n s g) : tagPc (lastSigned s g n i) = s.cur.pc := by
  rw [tagPc, lastSigned_tag h, extract_append_zero h.aligned]

/-- Every declared lane has signed, for there is a signer and the path's lanes are the last. -/
theorem cvComplete_lastSigned {g' : Group} (h : LastSigner i n s g) (hcv : getCv g' n = lastSigned s g n i)
    (hf : ∀ l, kvHas g'.fibres l = kvHas g.fibres l) : cvComplete g' n = true := by
  rw [cvComplete_iff, hcv]
  refine ⟨fun hz => h.acts ?_, fun l hl hdecl => ?_⟩
  · refine mask_ext fun l _ => ?_
    have hl := congrArg (inMask · l) hz
    simp only [lastSigned, inMask_or] at hl
    simp only [inMask, BitVec.ofNat_eq_ofNat, BitVec.getLsbD_zero, Bool.or_eq_false_iff] at hl ⊢
    exact hl.2
  · rw [lastSigned_decl] at hdecl
    have hg : if n = 0 then kvGet g.fibres l ≠ none else inMask (getCv g n).decl l = true := by
      have := hf l
      rw [Bool.eq_iff_iff, kvHas_iff, kvHas_iff] at this
      simpa only [ne_eq, Option.ne_none_iff_exists', this] using hdecl
    simp only [lastSigned, inMask_or, Bool.or_eq_true]
    exact h.all l hl hg

/-- The state after the path's signature. -/
def signedState (i : Instr) (n : Nat) (s : State) : State := signCv n s.cur.mask (.engine n) (some i) (noteSlot 3 s)

/-- The group of the path after its signature, with the marks of the issue. -/
theorem signedState_group (hs : OnPath s g) : ∃ g', kvGet (signedState i n s).groups (curGid s) = some g' ∧
    g' = { engineSigned s g n i with
      fibres := g'.fibres, sched := issuedSched s (engineSigned s g n i), trap := issuedTrap s (engineSigned s g n i) } ∧
    ∀ l, kvHas g'.fibres l = kvHas g.fibres l := by
  obtain ⟨-, -, g', hg', heq, hfib⟩ := signCv_issued hs n i
  refine ⟨g', hg', heq, fun l => ?_⟩
  rw [kvHas, hfib l, Option.isSome_map]
  simp only [engineSigned, getFibre_modLanes, Option.isSome_map, kvHas]

/-- SIGN and TV of a register are cleared as it completes; DECL and TAG stay (R75). -/
def clearedCvs (g : Group) (n : Nat) : List CvReg := g.cvs.set n { decl := (getCv g n).decl, tag := (getCv g n).tag }

/-- The state when the register is complete and the instruction issues. -/
def issueState (i : Instr) (n : Nat) (s : State) (g' : Group) : State :=
  noteRun g'.place.owner (setGroup (signedState i n s) (curGid s) { g' with cvs := clearedCvs g' n })

theorem kvGet_issueState (g' : Group) :
    kvGet (issueState i n s g').groups (curGid s) = some { g' with cvs := clearedCvs g' n } := kvGet_setGroup ..

theorem signedBy_issueState {g' : Group} (hs : OnPath s g) (h : LastSigner i n s g)
    (hg' : kvGet (signedState i n s).groups (curGid s) = some g') (hplace : g'.place = g.place)
    (hcv : getCv g' n = lastSigned s g n i) (hcvs : g'.cvs = (engineSigned s g n i).cvs) :
    SignedBy n s (issueState i n s g') g { engineSigned s g n i with cvs := clearedCvs g' n } := by
  have hp : PathStep 3 none s (noteRun g'.place.owner (signedState i n s)) (engineSigned s g n i) := by
    rw [hplace]
    exact signCv_issued hs n i
  have hgid := curGid_issued hp.1
  have hcur : curGroup (noteRun g'.place.owner (signedState i n s)) = g' := by
    rw [curGroup, hgid]
    exact getGroup_of hg'
  refine ⟨?_, ?_, engineSigned_lanes s g n i⟩
  · have hclear := pathStep_cvs (clearedCvs g' n) hp
    rw [hcur, setCurGroup, hgid] at hclear
    exact hclear
  · have hset : clearedCvs g' n = g.cvs.set n { decl := (getCv g n).decl, tag := s.cur.pc.extractLsb' 2 30 } := by
      rw [clearedCvs, hcv, lastSigned_decl, lastSigned_tag h, hcvs]
      exact List.set_set ..
    rw [hset]
    rfl

/-- The check of R75 leaves the registers before this one, and issues the instruction for all its signers. -/
theorem settle_signed {g' : Group} (hn : n < 16) (h : LastSigner i n s g)
    (hg' : kvGet (signedState i n s).groups (curGid s) = some g') (hf : ∀ l, kvHas g'.fibres l = kvHas g.fibres l)
    (hcv : getCv g' n = lastSigned s g n i) (hother : ∀ k, k ≠ n → getCv g' k = getCv g k) :
    settle (curGid s) (signedState i n s) = settleAfter (curGid s) n
      (engineIssue (curGid s) i ((getCv g n).sign ||| s.cur.mask) s.cur.pc (issueState i n s g')) := by
  have hbefore : ∀ k, k < n → completeCv (curGid s) k (signedState i n s) = signedState i n s := fun k hk =>
    completeCv_incomplete hg' ((cvComplete_congr (hother k (Nat.ne_of_lt hk)) hf).trans (h.before k hk))
  rw [settle_first hn ((kvHas_iff ..).2 ⟨g', hg'⟩) hbefore,
    completeCv_engine hg' (cvComplete_lastSigned h hcv hf) (by rw [hcv, lastSigned_eng h]), hcv, tagPc_lastSigned h]
  show _ = settleAfter _ _ (engineIssue _ _ (lastSigned s g n i).sign _ _)
  rw [← hcv]
  rfl

end

theorem cv_lt_of_engForm {i : Instr} {F : EngForm} (h : engForm i = some F) : F.cv < 16 := by
  obtain ⟨cv, u, named, hsign⟩ := signsAs_of_engForm h
  rw [hsign.cv]
  exact cv.isLt

/-- An instruction that the group's engines take at once is accepted, or its signers trap. -/
theorem acceptCmd_law {core : Nat} {e : EngEnv} {r : Accept} {s : State} :
    (∀ f, r = .error f → acceptCmd core e r s = engineTrap e.gid e.mask e.pc f s) ∧
    ∀ a u, r = .ok (a, u) → kvHas u.groups e.gid = true → EngAccepted core e a u (acceptCmd core e r s) := by
  refine ⟨fun f hr => by rw [hr]; rfl, fun a u hr hk => ?_⟩
  obtain ⟨g, hg⟩ := (kvHas_iff ..).1 hk
  rw [hr]
  exact pushCmd_law core a hg

theorem signMismatch_lastSigner {i : Instr} {n : Nat} {s : State} {g : Group} (hs : OnPath s g) (h : LastSigner i n s g) :
    signMismatch s n = false :=
  signMismatch_false hs fun htv => (h.first htv).1

/-- Settles O41: the last signature completes the register, whose instruction then goes to its sequencer, waits in its group, or
is taken by its engine at once. -/
theorem engineInstructionsIssue : Obligations.EngineInstructionsIssue := by
  unfold Obligations.EngineInstructionsIssue
  intro i F s g hF hs hn hc hp hl
  obtain ⟨g', hg', heq, hf⟩ := signedState_group (i := i) (n := F.cv) hs
  have hplace : g'.place = g.place := by rw [heq]; rfl
  have hcvs : g'.cvs = (engineSigned s g F.cv i).cvs := by rw [heq]
  have hcv : getCv g' F.cv = lastSigned s g F.cv i := by
    rw [getCv, hcvs]
    exact getCv_set_same hn _
  have hother : ∀ k, k ≠ F.cv → getCv g' k = getCv g k := fun k hk => by
    rw [getCv, hcvs]
    exact getCv_set_ne g hk _
  have hsettle := settle_signed (cv_lt_of_engForm hF) hl hg' hf hcv hother
  have hsigned := signedBy_issueState hs hl hg' hplace hcv hcvs
  have hv := kvGet_issueState (i := i) (n := F.cv) (s := s) g'
  have hmay : mayAccept (issueState i F.cv s g') (curGid s) = true ↔
      (getCtx s g.place.owner).fatal = none ∧ g.sched.preempted = false ∧ counter g .tl < 63 := by
    have hctx := getCtx_noteIssue hsigned.1.1 g.place.owner
    rw [mayAccept_of hv]
    show (getCtx (issueState i F.cv s g') g'.place.owner).fatal = none ∧ g'.sched.preempted = false ∧ counter g' .tl < 63 ↔ _
    rw [hplace, hctx, heq]
    rfl
  refine ⟨_, issueState i F.cv s g', _, exec_engine_sign hF hs hc hp (signMismatch_lastSigner hs hl), hsigned,
    fun hu => ?_, fun hu => ?_, fun hu hbusy => ?_, fun hu hfree => ?_⟩
  · exact hsettle.trans (by rw [engineIssue, hu])
  · exact hsettle.trans (by rw [engineIssue, hu])
  · exact hsettle.trans (by rw [engineIssue_busy hu hv (by rwa [Bool.eq_false_iff, ne_eq, hmay])])
  · obtain ⟨hfatal, hpre, htl, hq⟩ := hfree
    have hq' : ({ g' with cvs := clearedCvs g' F.cv } : Group).engQ = [] := by
      rw [heq]
      exact hq
    obtain ⟨home, r, hacc, hdirect⟩ := acceptDirect_of_unit hF hu
      (engEnv (issueState i F.cv s g') (curGid s) ((getCv g F.cv).sign ||| s.cur.mask) s.cur.pc) (issueState i F.cv s g')
    rw [engineIssue_free hu hv hq' (hmay.2 ⟨hfatal, hpre, htl⟩), hdirect] at hsettle
    refine ⟨home, r, hacc, fun f hr => ?_, fun a u hr hk => ⟨_, hsettle, acceptCmd_law.2 a u hr hk⟩⟩
    rw [acceptCmd_law.1 f hr] at hsettle
    exact hsettle

end Sys2Proof.Proofs
end

section
/-! Accepted engine commands: their effects and their completion. -/

namespace Sys2Proof.Proofs

open Sys2Proof Sys2Proof.Machine Sys2Proof.Laws

/-! ## Completing a command (R79, R103, R132) -/

/-- A command that runs has its effect and is complete, or is undone. -/
theorem runCmd_eq (core : Nat) (c : Cmd) (s : State) : runCmd core c s = settleCmd core c (commandEffect core c s) s := by
  unfold runCmd commandEffect
  cases c.kind <;> rfl

/-- A core without a command. -/
def coreWithoutCmd (id : Nat) (x : Core) : Core := { x with eng := { x.eng with cmds := x.eng.cmds.filter fun d => d.id != id } }

/-- A command's group once its operation is done. -/
def doneGroup (g : Group) (seq : Nat) : Group :=
  prune { g with ops := g.ops.map fun o => if o.seq = seq then { o with done := true } else o }

/-- The state with a command's operation done, before the signers that it held go on. -/
def withoutCmd (core : Nat) (c : Cmd) (g : Group) (s : State) : State :=
  setGroup (modCore s core (coreWithoutCmd c.id)) c.gid (doneGroup g c.seq)

theorem finishCmd_eq (core : Nat) (c : Cmd) {s : State} {g : Group} (hg : kvGet s.groups c.gid = some g) :
    finishCmd core c s = if c.hold then resumeLanes c.gid c.mask (c.pc + 8) (withoutCmd core c g s) else withoutCmd core c g s := by
  have hfin : finishTl c.gid c.seq (modCore s core (coreWithoutCmd c.id)) = withoutCmd core c g s :=
    modGroup_of (s := modCore s core (coreWithoutCmd c.id)) hg _
  rw [← hfin]
  rfl

theorem finishCmd_law (core : Nat) (c : Cmd) {s : State} (hk : kvHas s.groups c.gid = true) :
    EngDone core c s (finishCmd core c s) := by
  obtain ⟨g, hg⟩ := (kvHas_iff ..).1 hk
  have hcores : ∀ k, getCore (withoutCmd core c g s) k = if k = core then coreWithoutCmd c.id (getCore s k) else getCore s k := by
    intro k
    rw [show getCore (withoutCmd core c g s) k = getCore (modCore s core (coreWithoutCmd c.id)) k from rfl, getCore_modCore]
    split
    · next h => rw [h]
    · rfl
  rw [finishCmd_eq core c hg]
  cases hh : c.hold
  · exact ⟨g, doneGroup g c.seq, hg, kvGet_setGroup .., fun k hk => kvGet_kvSet_ne _ _ hk, rfl, hcores, rfl,
      lanesRelate_same rfl fun _ _ => by simp [hh]⟩
  · have hg1 : kvGet (withoutCmd core c g s).groups c.gid = some (doneGroup g c.seq) := kvGet_setGroup ..
    rw [if_pos rfl, resumeLanes, modGroup_of hg1]
    refine ⟨g, modLanes (doneGroup g c.seq) c.mask fun _ x => { x with st := .resident, pc := c.pc + 8 }, hg, kvGet_setGroup ..,
      fun k hk => ?_, rfl, hcores, rfl, lanesRelate_modLanes rfl fun _ _ _ => by simp [hh]⟩
    show kvGet (kvSet (kvSet s.groups _ _) _ _) k = _
    rw [kvSet_kvSet, kvGet_kvSet_ne _ _ hk]

theorem abortCmd_eq (core : Nat) (c : Cmd) (f : EngErr) {s : State} {g : Group} (hg : kvGet s.groups c.gid = some g) :
    abortCmd core c f s = engineTrap c.gid c.mask c.pc f (setGroup
      (modEng core (fun x => { x with cmds := x.cmds.filter fun d => d.id != c.id }) s) c.gid
      { g with ops := g.ops.filter fun o => o.seq != c.seq }) := by
  rw [abortCmd]
  exact congrArg _ (modGroup_of (s := modEng core _ s) hg _)

/-! ## The completion events -/

theorem findCmd_id {s : State} {core id : Nat} {c : Cmd} (h : findCmd s core id = some c) : c.id = id := by
  have := List.find?_some h
  simpa using this

section
variable {core id : Nat} {s : State} {c : Cmd} {g : Group}

theorem cmdAlive_of (hg : kvGet s.groups c.gid = some g) (ht : g.place.team = c.team) : cmdAlive s c = true := by
  rw [cmdAlive, kvHas, hg, getGroup_of hg, ht]
  simp

theorem completeCmd_of {kind : CmdKind → Bool} (hc : findCmd s core id = some c) (hk : kind c.kind = true)
    (ha : cmdAlive s c = true) (hr : cmdReady s core c = true) :
    completeCmd kind core id s = drainEngQ c.gid (settleRoutes core (settleCmd core c (commandEffect core c s) s)) := by
  simp only [completeCmd, hc, hk, ha, hr, Bool.and_self, if_true, runCmd_eq]

/-- A TRED that has not sent its elements sends them (R97, R272). -/
theorem exec_tred_sends {t : Nat} {head : List Piece} {rows : List (List Piece)} (hc : findCmd s core id = some c)
    (hk : c.kind = .tred t head rows) (hg : kvGet s.groups c.gid = some g) (ha : cmdAlive s c = true)
    (hr : cmdReady s core c = true) (hs : c.sent = false ∧ twinCopy s g = false) :
    exec (.tredComplete core id) s = .next (markSent core id (sendTred c t rows s)) := by
  show Host.Outcome.next (tredComplete core id s) = _
  simp only [tredComplete, hc, hk, getGroup_of hg, hs.1, hs.2, ha, hr]
  rfl

/-- One that has waits until they have been added (R97). -/
theorem exec_tred_sent {t : Nat} {head : List Piece} {rows : List (List Piece)} (hc : findCmd s core id = some c)
    (hk : c.kind = .tred t head rows) (hg : kvGet s.groups c.gid = some g) (hs : ¬ (c.sent = false ∧ twinCopy s g = false)) :
    exec (.tredComplete core id) s = .next (if tredTravels s id then s else completeCmd isTred core id s) := by
  have hsent : (c.sent || twinCopy s g) = true := eq_true_of_ne_false fun h => hs (Bool.or_eq_false_iff.1 h)
  show Host.Outcome.next (tredComplete core id s) = _
  simp only [tredComplete, hc, hk, getGroup_of hg, hsent, if_true]

/-- The event of a command's kind completes it. -/
theorem exec_commandEvent (hc : findCmd s core id = some c) (hg : kvGet s.groups c.gid = some g) (ha : cmdAlive s c = true)
    (hr : cmdReady s core c = true)
    (htred : ∀ t head rows, c.kind = .tred t head rows → ¬ (c.sent = false ∧ twinCopy s g = false) ∧ tredTravels s id = false) :
    exec (commandEvent c.kind core id) s =
      .next (drainEngQ c.gid (settleRoutes core (settleCmd core c (commandEffect core c s) s))) := by
  have hrun : ∀ kind : CmdKind → Bool, kind c.kind = true → completeCmd kind core id s =
      drainEngQ c.gid (settleRoutes core (settleCmd core c (commandEffect core c s) s)) := fun kind hk => completeCmd_of hc hk ha hr
  cases hk : c.kind with
  | tld | tst | mldb | mma => exact congrArg _ (hrun _ (by rw [hk]))
  | tred t head rows =>
    obtain ⟨hsent, htravels⟩ := htred t head rows hk
    show exec (.tredComplete core id) s = _
    rw [exec_tred_sent hc hk hg hsent, htravels]
    exact congrArg _ (hrun isTred (by rw [hk]; rfl))
  | _ => exact congrArg _ (hrun (fun k => !ownEvent k) (by rw [hk]; rfl))

end

/-! ## Effects (R92, R263, R369, R379) -/

/-- A run of elements in global memory enters network C as one packet with the line's combine tag (R263, R272). -/
theorem sendRun_packet (c : Cmd) (p : Piece) (es : List (BitVec 64)) (s : State) {pa hcore : Nat} {home : BitVec 2}
    (hp : p.loc = .glob pa home hcore) : ∃ k : Packet,
    sendRun c p es s = { s with net := inject k s.net, nextId := s.nextId + 1 } ∧ k.net = .c ∧
    k.src = .cluster (coreOfGid c.gid / 4) ∧ k.len = 1 + (es.length + 7) / 8 ∧ k.tag = some (.surface pa es.length) ∧ k.op = 1 ∧
    k.count = 1 ∧ k.elems = es ∧ k.place = [p] ∧ k.who = [c.id] := by
  rw [sendRun, hp]
  exact ⟨_, rfl, rfl, rfl, rfl, rfl, rfl, rfl, rfl, rfl, rfl⟩

theorem getTeam_of {s : State} {k : Nat} {team : Team} (h : kvGet s.teams k = some team) : getTeam s k = team := by
  rw [getTeam, kvGetD, h]
  rfl

/-- A command whose effect is a change of its team. -/
def ChangesTeam (core : Nat) (c : Cmd) (s : State) (t : Team) : Prop :=
  ∃ u, commandEffect core c s = .ok u ∧ u = { s with teams := u.teams } ∧ getTeam u c.team = t ∧
    ∀ k, k ≠ c.team → getTeam u k = getTeam s k

theorem changesTeam_of {core : Nat} {c : Cmd} {s : State} {team : Team} (ht : kvGet s.teams c.team = some team)
    (f : Team → Team) (h : commandEffect core c s = .ok (modTeam s c.team f)) : ChangesTeam core c s (f team) := by
  refine ⟨_, h, rfl, ?_, fun k hk => ?_⟩
  · rw [getTeam_modTeam ht, if_pos rfl, getTeam_of ht]
  · rw [getTeam_modTeam ht, if_neg hk]

theorem unsignedOf_lt (n : Nat) (v : Int) : unsignedOf n v < 2 ^ n := by
  have hpos : (0 : Int) < Int.ofNat (2 ^ n) := Int.natCast_pos.2 (Nat.two_pow_pos n)
  rw [unsignedOf, Int.toNat_lt (Int.emod_nonneg _ (Int.ne_of_gt hpos))]
  exact Int.emod_lt_of_pos _ hpos

theorem toNat_statusWord (auto : Bool) (e : Int) :
    (statusWord auto e).toNat = unsignedOf 16 e + (if auto then 2 ^ 16 else 0) + 2 ^ 17 := by
  have hlt := unsignedOf_lt 16 e
  rw [statusWord, BitVec.toNat_ofNat, Nat.mod_eq_of_lt]
  split <;> omega

/-- The status word of an opened tile: E, MODE and OPEN (R92). -/
theorem statusWord_fields (auto : Bool) {e : Int} (hlo : -32768 ≤ e) (hhi : e ≤ 32767) :
    ((statusWord auto e).extractLsb' 0 16).toInt = e ∧ (statusWord auto e).getLsbD 16 = auto ∧
    (statusWord auto e).getLsbD 17 = true ∧ (statusWord auto e).extractLsb' 18 14 = 0 := by
  have hlt := unsignedOf_lt 16 e
  have hw := toNat_statusWord auto e
  have he : (unsignedOf 16 e : Int) = e % 65536 := by
    rw [unsignedOf, Int.toNat_of_nonneg (Int.emod_nonneg _ (by decide))]
    rfl
  refine ⟨?_, ?_, ?_, ?_⟩
  · have hlow : ((statusWord auto e).extractLsb' 0 16).toNat = unsignedOf 16 e := by
      rw [BitVec.extractLsb'_toNat, hw, Nat.shiftRight_zero]
      split <;> omega
    rw [BitVec.toInt_eq_toNat_cond, hlow]
    split <;> omega
  · rw [← BitVec.testBit_toNat, hw, Nat.testBit_eq_decide_div_mod_eq]
    cases auto
    · simp only [Bool.false_eq_true, if_false, decide_eq_false_iff_not]
      omega
    · simp only [if_true, decide_eq_true_eq]
      omega
  · rw [← BitVec.testBit_toNat, hw, Nat.testBit_eq_decide_div_mod_eq, decide_eq_true_eq]
    split <;> omega
  · apply BitVec.eq_of_toNat_eq
    rw [BitVec.extractLsb'_toNat, hw, Nat.shiftRight_eq_div_pow]
    show _ = 0
    split <;> omega

/-- Settles O42: a command's event runs it, its effect is that of its kind, and a TRED first sends its elements. -/
theorem engineCommandsComplete : Obligations.EngineCommandsComplete := by
  unfold Obligations.EngineCommandsComplete
  intro core id s c g team hc hg hteam ht hr
  have ha := cmdAlive_of hg hteam
  refine ⟨fun t head rows hk hs => exec_tred_sends hc hk hg ha hr hs, fun t head rows hk hs htr => ?_,
    fun p es pa home hcore hp => sendRun_packet c p es s hp, fun htred => ⟨fun u hu hk => ?_, fun f hf => ?_⟩,
    fun n words phys hk => ?_, fun n hk => ?_, fun n auto e hk hlo hhi => ?_, fun n d hk => ?_⟩
  · rw [exec_tred_sent hc hk hg hs, htr]
    rfl
  · refine ⟨finishCmd core c u, ?_, finishCmd_law core c hk⟩
    rw [exec_commandEvent hc hg ha hr htred, hu]
    rfl
  · rw [exec_commandEvent hc hg ha hr htred, hf, settleCmd, abortCmd_eq core c f hg]
  · exact changesTeam_of ht (fun t => { t with shapes := kvPut t.shapes n (some { words := words, phys := phys }) })
      (by rw [commandEffect, hk]; rfl)
  · exact changesTeam_of ht (fun t => { t with shapes := kvPut t.shapes n none }) (by rw [commandEffect, hk]; rfl)
  · refine ⟨statusWord auto e, changesTeam_of ht (fun t => { t with tiles := kvSet t.tiles n { status := statusWord auto e } })
      (by rw [commandEffect, hk]; rfl), statusWord_fields auto hlo hhi⟩
  · have hstat : (getTile s c.team n).status = (kvGetD team.tiles n {}).status := by rw [getTile, getTeam_of ht]
    have hput : cmdSetU c d (getTile s c.team n).status.toNat s = setGroup s c.gid (setU g d (kvGetD team.tiles n {}).status) := by
      rw [cmdSetU, modGroup_of hg, hstat, BitVec.ofNat_toNat, BitVec.setWidth_eq]
    rw [commandEffect, hk, ← hput]

end Sys2Proof.Proofs
end

section
/-! Values with flags: the floating-point instructions, and the ballot and the reductions over the acting lanes. -/

namespace Sys2Proof.Proofs

open Sys2Proof Sys2Proof.Machine Sys2Proof.Laws

/-! ## Lane instructions with one destination and flags (R42, R85) -/

/-- What a lane instruction gives each lane that writes one register and raises flags. -/
def flagOut (d : VReg) (out : LaneEnv → Nat → Word × Word) (e : LaneEnv) (l : Nat) : LaneOut :=
  { regs := [(d.toNat, (out e l).1)], flags := (out e l).2 }

theorem applyOut_flagOut (d : VReg) (out : LaneEnv → Nat → Word × Word) (e : LaneEnv) (l : Nat) (x : Fibre) :
    applyOut (flagOut d out e l) x =
      { x with regs := x.regs.set d.toNat (out e l).1, fpctl := x.fpctl ||| (out e l).2 } := rfl

/-- Each acting lane takes its word and its flags, and every operand that is a queue port is popped once (R41, R85). -/
theorem laneOp_flagOut_law {gb : Bool} {d : VReg} {vs : List Nat} {out : LaneEnv → Nat → Word × Word} {s : State} {g : Group}
    {R : Nat → Fibre → Fibre → Prop} (hs : OnPath s g) (hc : InCounts g (vs ++ [d.toNat]) [])
    (hp : NotPending g (actMask gb s) (vs ++ [d.toNat]) []) (hd : d.toNat < 120)
    (hf : actMask gb s ≠ 0 → PortsFull g vs)
    (hR : ∀ l x, kvGet g.fibres l = some x → inMask (actMask gb s) l = true →
      let r := out (laneEnv s (actMask gb s) vs) l
      R l x { x with regs := x.regs.set d.toNat r.1, fpctl := x.fpctl ||| r.2 }) :
    ∃ t h, laneOp gb { vr := vs, vw := [d.toNat] } (flagOut d out) s = .next t ∧ PathStep 0 (some 4) s t h ∧
      h = { g with fibres := h.fibres, ports := h.ports } ∧ PortsPopped g h vs (actMask gb s != 0) ∧
      LanesRelate g h (actMask gb s) R := by
  obtain ⟨t, h, hexec, hstep, hframe, hports, -, hlanes⟩ := laneOp_law (gb := gb) (u := { vr := vs, vw := [d.toNat] })
    (f := flagOut d out) hs hc hp (by simpa using hd) hf
  refine ⟨t, h, hexec, hstep, hframe, hports, lanesRelate_of hlanes fun l x hx hm => ?_⟩
  rw [applyOut_flagOut]
  exact hR l x hx hm

/-! ## Floating-point instructions (R85, R88, R321, R324 to R327, R331) -/

/-- A lane's word and flags, from its own FPCTL and its operands. -/
def floatOut (srcs : List VReg) (out : Word → List Word → Word × Word) (e : LaneEnv) (l : Nat) : Word × Word :=
  out (getFibre e.grp l).fpctl (srcs.map fun r => laneVal e l r.toNat)

theorem floatOut_laneEnv {s : State} {g : Group} (hs : OnPath s g) (act : LaneMask) (srcs : List VReg)
    (out : Word → List Word → Word × Word) {l : Nat} {x : Fibre} (hx : kvGet g.fibres l = some x) :
    floatOut srcs out (laneEnv s act (srcs.map BitVec.toNat)) l =
      out x.fpctl ((srcs.map BitVec.toNat).map (operandOf g l)) := by
  rw [floatOut, getFibre_laneEnv hs _ _ hx, laneVals_law hs _ _ _ fun r hr => List.mem_map_of_mem hr]

/-- The rule of NaN operands (R85), in words: the canonical NaN, with INV when the operand is signalling. -/
theorem unary32_eq (op : Nat → FVal → Rounded) (ctl w : Word) :
    let x := fval fp32 w.toNat
    let r : Rounded := if isNaN x then { code := fp32.nan, flags := snanFlag [x] } else op w.toNat x
    unary32 op ctl [w] = (BitVec.ofNat 32 r.code, r.flags) := by
  simp only [unary32, List.getD_cons_zero, isNaN_fval, snanFlag, List.any_cons, List.any_nil, Bool.or_false, isSNaN_fval]
  split <;> rfl

theorem laneFp1_eq (gb : Bool) (op : Nat → FVal → Rounded) (d a : VReg) (s : State) :
    laneFp1 gb op d a s =
      laneOp gb { vr := [a.toNat], vw := [d.toNat] } (flagOut d (floatOut [a] (unary32 op))) s := by
  rw [laneFp1]
  congr 1
  funext e l
  simp only [flagOut, floatOut, List.map_cons, List.map_nil, unary32_eq]

/-- Every floating-point instruction is one lane operation, with the registers and the values of its form. -/
theorem exec_float {i : Instr} {F : FloatForm} (h : floatForm i = some F) (s : State) :
    exec i s = laneOp F.g { vr := F.srcs.map BitVec.toNat, vw := [F.d.toNat] } (flagOut F.d (floatOut F.srcs F.out)) s := by
  cases i with
  | fadd | fsub | fmul | fma | fmin | fmax | cvtsE4m3Pack | cvtsE4m3Unpack | cvtsE5m2Pack | cvtsE5m2Unpack | cvtsE2m1Pack
  | cvtsE2m1Unpack =>
    cases h
    rfl
  | fabs | fneg | frndRn | frndRz | frndDn | frndUp | frcp | frsq | fsqrt | fexp2 | flog2 =>
    cases h
    unfold exec
    exact laneFp1_eq ..
  | _ => exact absurd h nofun

/-- Settles O3: the instruction is one lane operation, whose lanes take what `floatForm` gives from their operands. -/
theorem laneFloatResult : Obligations.LaneFloatResult := by
  unfold Obligations.LaneFloatResult
  intro i F s g hF hs act vs hc hp hd hf
  rw [exec_float hF]
  refine laneOp_flagOut_law hs hc hp hd hf fun l x hx _ => ?_
  rw [floatOut_laneEnv hs _ _ _ hx]

/-! ## VBAL (R383) -/

/-- A bit of a doubleword is one of its low word or of its high word (R7). -/
theorem getLsbD_of_words (m : DWord) {l : Nat} (hl : l < 64) :
    (if l < 32 then (m.extractLsb' 0 32).getLsbD l else (m.extractLsb' 32 32).getLsbD (l - 32)) = m.getLsbD l := by
  split
  · simp [*]
  · simp [show l - 32 < 32 by omega, show 32 + (l - 32) = l by omega]

/-- The acting lanes whose predicate is true. -/
def ballot (e : LaneEnv) (p : Nat) : LaneMask := maskOf fun l => inMask e.act l && getPred (getFibre e.grp l) p

theorem getLsbD_ballot {s : State} {g : Group} (hs : OnPath s g) (act : LaneMask) (rs : List Nat) (p : Nat) {l : Nat}
    (hl : l < 64) : (ballot (laneEnv s act rs) p).getLsbD l = (inMask act l && getPred (getFibre g l) p) := by
  have hmask := inMask_maskOf (fun l => inMask act l && getPred (getFibre g l) p) l
  rw [decide_eq_true hl, Bool.true_and] at hmask
  rw [← hmask, ballot, inMask, ← curGroup_of hs]
  rfl

/-- VBAL is one lane operation, which gives every lane the two words of the ballot. -/
theorem exec_vbal (gb : Bool) (d : VReg) (p : PReg) (s : State) :
    exec (.vbal gb d p) s = laneOp gb { vw := [d.toNat, d.toNat + 1] } (fun e _ =>
      { regs := [(d.toNat, (ballot e p.toNat).extractLsb' 0 32), (d.toNat + 1, (ballot e p.toNat).extractLsb' 32 32)] }) s :=
  rfl

/-- Each acting lane takes the mask of the acting lanes whose predicate is true (R383). -/
theorem vbal_law (gb : Bool) (d : VReg) (p : PReg) {s : State} {g : Group} (hs : OnPath s g)
    (hc : InCounts g [d.toNat, d.toNat + 1] []) (hp : NotPending g (actMask gb s) [d.toNat, d.toNat + 1] [])
    (hd : d.toNat + 1 < 120) :
    ∃ t h, exec (.vbal gb d p) s = .next t ∧ PathStep 0 (some 4) s t h ∧ h = { g with fibres := h.fibres } ∧
      LanesRelate g h (actMask gb s) fun _ x y => ∃ lo hi : Word,
        y = { x with regs := (x.regs.set d.toNat lo).set (d.toNat + 1) hi } ∧
        ∀ l, l < 64 → (if l < 32 then lo.getLsbD l else hi.getLsbD (l - 32)) =
          (inMask (actMask gb s) l && getPred (getFibre g l) p.toNat) := by
  have hlow : d.toNat < 120 := by omega
  have hregs : ∀ r ∈ [d.toNat, d.toNat + 1], r < 120 := by simp [hlow, hd]
  rw [exec_vbal]
  obtain ⟨t, h, hexec, hstep, -, -, hframe, hlanes⟩ := laneOp_law (gb := gb) (u := { vw := [d.toNat, d.toNat + 1] })
    (f := fun e _ => { regs := [(d.toNat, (ballot e p.toNat).extractLsb' 0 32),
      (d.toNat + 1, (ballot e p.toNat).extractLsb' 32 32)] }) hs hc hp hregs fun _ => nofun
  refine ⟨t, h, hexec, hstep, hframe nofun, lanesRelate_of hlanes fun _ x _ _ => ⟨_, _, ?_, fun l hl =>
    (getLsbD_of_words _ hl).trans (getLsbD_ballot hs _ [] _ hl)⟩⟩
  simp [applyOut, setReg]

/-! ## VRED (R95, R384) -/

/-- The sum of words, modulo 2^32. -/
theorem toNat_sumWords (ws : List Word) : (sumWords ws).toNat = (ws.map BitVec.toNat).sum % 2 ^ 32 := by
  have hfold : ∀ v : Word, (ws.foldl (· + ·) v).toNat = (v.toNat + (ws.map BitVec.toNat).sum) % 2 ^ 32 := by
    induction ws with
    | nil => intro v; simp [Nat.mod_eq_of_lt v.isLt]
    | cons w ws ih =>
      intro v
      rw [List.foldl_cons, ih, BitVec.toNat_add, List.map_cons, List.sum_cons, Nat.mod_add_mod, Nat.add_assoc]
  rw [sumWords, hfold]
  simp

theorem sumWords_law (ls : List Nat) (a : Nat → Word) : sumIs ls a (sumWords (ls.map a)) := by
  rw [sumIs, toNat_sumWords, List.map_map]
  rfl

/-- The least element of a list by an integer key. -/
theorem leastBy_key {α : Type} (key : α → Int) (xs : List α) (hne : xs ≠ []) :
    ∃ y, leastBy (fun a b => decide (key a < key b)) xs = some y ∧ y ∈ xs ∧ ∀ x ∈ xs, key y ≤ key x := by
  induction xs with
  | nil => exact absurd rfl hne
  | cons x xs ih =>
    cases xs with
    | nil => exact ⟨x, rfl, by simp⟩
    | cons z zs =>
      obtain ⟨y, hy, hmem, hle⟩ := ih (by simp)
      rw [leastBy, hy]
      by_cases hlt : key y < key x
      · refine ⟨y, by simp [hlt], List.mem_cons_of_mem _ hmem, fun w hw => ?_⟩
        rcases List.mem_cons.1 hw with rfl | hw
        · omega
        · exact hle w hw
      · refine ⟨x, by simp [hlt], List.mem_cons_self, fun w hw => ?_⟩
        rcases List.mem_cons.1 hw with rfl | hw
        · omega
        · have := hle w hw
          omega

/-- The greatest, or least, of the words of some lanes is one of them, and none lies beyond it. -/
theorem extreme_law (mx : Bool) {ls : List Nat} (hne : ls ≠ []) (a : Nat → Word) :
    extremeIs mx ls a (extreme mx (ls.map a)) := by
  obtain ⟨y, hy, hmem, hle⟩ := leastBy_key (fun w : Word => if mx then -w.toInt else w.toInt) (ls.map a) (by simpa using hne)
  have hext : extreme mx (ls.map a) = y := by
    have htest : (fun a b : Word => if mx then decide (b.toInt < a.toInt) else decide (a.toInt < b.toInt)) =
        fun a b : Word => decide ((if mx then -a.toInt else a.toInt) < if mx then -b.toInt else b.toInt) := by
      cases mx <;> simp
    rw [extreme, htest, hy, Option.getD_some]
  rw [hext]
  refine ⟨List.mem_map.1 hmem, fun k hk => ?_⟩
  have hk := hle (a k) (List.mem_map_of_mem hk)
  cases mx
  · simpa using hk
  · simpa using hk

/-- A reduction of words, with the flags that it raises. -/
def redOut (f : Red) (ws : List Word) : Word × Word :=
  match f with
  | .add => (sumWords ws, 0)
  | .maxS => (extreme true ws, 0)
  | .minS => (extreme false ws, 0)
  | .faddExact => (BitVec.ofNat 32 (faddExact ws).code, (faddExact ws).flags)

/-- Over at least one acting lane the reduction is that of R384 and R95. -/
theorem redOut_law (f : Red) {act : LaneMask} (hne : lanesOf act ≠ []) (a : Nat → Word) :
    redRule f act a (redOut f ((lanesOf act).map a)).1 (redOut f ((lanesOf act).map a)).2 := by
  cases f with
  | add => exact ⟨sumWords_law _ a, rfl⟩
  | maxS => exact ⟨extreme_law true hne a, rfl⟩
  | minS => exact ⟨extreme_law false hne a, rfl⟩
  | faddExact => exact ⟨rfl, rfl⟩

/-- VRED is one lane operation, which gives every lane the reduction of the acting lanes' words. -/
theorem exec_vred (gb : Bool) (f : Red) (d a : VReg) (s : State) :
    exec (.vred gb f d a) s = laneOp gb { vr := [a.toNat], vw := [d.toNat] }
      (flagOut d fun e _ => redOut f ((lanesOf e.act).map fun k => laneVal e k a.toNat)) s := by
  cases f <;> rfl

/-- Each acting lane takes the reduction of the acting lanes' words, and its flags (R384). -/
theorem vred_law (gb : Bool) (f : Red) (d a : VReg) {s : State} {g : Group} (hs : OnPath s g)
    (hc : InCounts g [a.toNat, d.toNat] []) (hp : NotPending g (actMask gb s) [a.toNat, d.toNat] [])
    (hd : d.toNat < 120) (hf : actMask gb s ≠ 0 → PortsFull g [a.toNat]) :
    ∃ t h, exec (.vred gb f d a) s = .next t ∧ PathStep 0 (some 4) s t h ∧
      h = { g with fibres := h.fibres, ports := h.ports } ∧ PortsPopped g h [a.toNat] (actMask gb s != 0) ∧
      LanesRelate g h (actMask gb s) fun _ x y => ∃ v fl,
        redRule f (actMask gb s) (fun k => operandOf g k a.toNat) v fl ∧
        y = { x with regs := x.regs.set d.toNat v, fpctl := x.fpctl ||| fl } := by
  rw [exec_vred]
  refine laneOp_flagOut_law hs hc hp hd hf fun l x _ hm => ⟨_, _, ?_, rfl⟩
  have hne : lanesOf (actMask gb s) ≠ [] := List.ne_nil_of_mem ((mem_lanesOf _ l).2 hm)
  have hops : (fun k => laneVal (laneEnv s (actMask gb s) [a.toNat]) k a.toNat) = fun k => operandOf g k a.toNat := by
    funext k
    rw [laneVal_law _ _ _ _ _ (by simp), curGroup_of hs]
  rw [hops]
  exact redOut_law f hne _

/-- Settles O10: each of the two is one lane operation, on the values of the acting lanes. -/
theorem ballotAndReduce : Obligations.BallotAndReduce := by
  unfold Obligations.BallotAndReduce
  exact ⟨fun gb d p s g hs hc hp hd => vbal_law gb d p hs hc hp hd,
    fun gb f d a s g hs hc hp hd hf => vred_law gb f d a hs hc hp hd hf⟩

end Sys2Proof.Proofs
end

section
/-! Landings at a barrier, and the copies that send them (R110, R134, R139, R140, R144, R318). -/

namespace Sys2Proof.Proofs

open Sys2Proof Sys2Proof.Machine Sys2Proof.Laws

/-! ## Lines that L1s give up (R119, R134) -/

theorem postEvent_teams (dom owner code detail : Nat) (s : State) : (postEvent dom owner code detail s).teams = s.teams := by
  unfold postEvent
  split
  · rfl
  · dsimp only
    split <;> rfl

theorem fatalCtx_teams (owner code detail addr : Nat) (s : State) : (fatalCtx owner code detail addr s).teams = s.teams := by
  unfold fatalCtx
  dsimp only
  split <;> rfl

theorem writeBack_teams (l : Line) (s : State) : (writeBack l s).teams = s.teams := by
  unfold writeBack eccAlone
  split
  · split
    · exact (fatalCtx_teams ..).trans (postEvent_teams ..)
    · rfl
  · rfl

theorem flushLines_teams (core : Nat) (p : Line → Bool) (s : State) : (flushLines core p s).teams = s.teams := by
  refine foldl_preserves State.teams _ (fun s e => ?_) _ s
  split
  · exact writeBack_teams ..
  · rfl

/-- Whatever happens to the lines, no team changes. -/
theorem dropLines_teams (k : Nat) (lines : List Nat) (s : State) : (dropLines k lines s).teams = s.teams := by
  unfold dropLines
  split
  · rfl
  · exact foldl_preserves State.teams _ (fun s core => flushLines_teams core _ s) _ s

/-- Lines without an uncorrectable error are written back into memory, and nothing else changes. -/
theorem writeBacks_mem (p : Line → Bool) (ls : KV Line) (s : State) (h : ∀ e ∈ ls, e.2.dirty ≠ 0 → e.2.pa ∉ s.ecc) :
    ∃ m, ls.foldl (fun s e => if p e.2 then writeBack e.2 s else s) s = { s with mem := m } := by
  induction ls generalizing s with
  | nil => exact ⟨s.mem, rfl⟩
  | cons e ls ih =>
    have hfirst : ∃ m, (if p e.2 then writeBack e.2 s else s) = { s with mem := m } := by
      split
      · have hsound : (s.ecc.contains e.2.pa && e.2.dirty != 0) = false := by
          by_cases hd : e.2.dirty = 0
          · rw [hd, bne_self_eq_false, Bool.and_false]
          · rw [Bool.eq_false_iff.2 (mt List.contains_iff_mem.1 (h e List.mem_cons_self hd)), Bool.false_and]
        exact ⟨_, by rw [writeBack, hsound]; rfl⟩
      · exact ⟨s.mem, rfl⟩
    obtain ⟨m, hm⟩ := hfirst
    rw [List.foldl_cons, hm]
    exact ih { s with mem := m } fun x hx => h x (List.mem_cons_of_mem _ hx)

/-- A state that differs in memory and in its cores, the L1s of some of which have given up the lines of a test. -/
def GivesUp (p : Line → Bool) (cs : List Nat) (s u : State) : Prop :=
  u = { s with mem := u.mem, cores := u.cores } ∧
  ∀ c, (getCore u c).l1 = if c ∈ cs then (getCore s c).l1.filter fun e => !p e.2 else (getCore s c).l1

theorem flushLines_givesUp (core : Nat) (p : Line → Bool) {s : State}
    (h : ∀ e ∈ (getCore s core).l1, e.2.dirty ≠ 0 → e.2.pa ∉ s.ecc) : GivesUp p [core] s (flushLines core p s) := by
  obtain ⟨m, hm⟩ := writeBacks_mem p _ s h
  have heq : flushLines core p s =
      modCore { s with mem := m } core fun c => { c with l1 := c.l1.filter fun e => !p e.2 } := by rw [flushLines, hm]
  rw [heq]
  refine ⟨rfl, fun c => ?_⟩
  rw [getCore_modCore]
  by_cases hc : c = core
  · subst hc
    rw [if_pos rfl, if_pos (List.mem_singleton.2 rfl)]
    rfl
  · rw [if_neg hc, if_neg (mt List.mem_singleton.1 hc)]
    rfl

theorem flushAll_givesUp (p : Line → Bool) (cs : List Nat) {s : State}
    (h : ∀ c, ∀ e ∈ (getCore s c).l1, e.2.dirty ≠ 0 → e.2.pa ∉ s.ecc) :
    GivesUp p cs s (cs.foldl (fun s core => flushLines core p s) s) := by
  induction cs generalizing s with
  | nil => exact ⟨rfl, fun c => (if_neg List.not_mem_nil).symm⟩
  | cons core cs ih =>
    obtain ⟨hrest, hl1⟩ := flushLines_givesUp core p (h core)
    have hecc : (flushLines core p s).ecc = s.ecc := by rw [hrest]
    obtain ⟨hrest', hl1'⟩ := ih (s := flushLines core p s) fun c e he => by
      rw [hecc]
      rw [hl1 c] at he
      split at he
      · exact h c e (List.mem_filter.1 he).1
      · exact h c e he
    refine ⟨?_, fun c => ?_⟩
    · rw [List.foldl_cons, hrest', hrest]
    · rw [List.foldl_cons, hl1' c, hl1 c]
      by_cases hc : c = core
      · rw [hc, if_pos (List.mem_singleton.2 rfl), if_pos List.mem_cons_self]
        split
        · simp only [List.filter_filter, Bool.and_self]
        · rfl
      · simp only [List.mem_cons, hc, false_or, List.not_mem_nil, if_false]

theorem dropLines_givesUp (k : Nat) (lines : List Nat) {s : State}
    (h : ∀ c, ∀ e ∈ (getCore s c).l1, e.2.dirty ≠ 0 → e.2.pa ∉ s.ecc) :
    GivesUp (fun l => lines.contains l.pa) ((getTeam s k).groups.map coreOfGid).eraseDups s (dropLines k lines s) := by
  unfold dropLines
  split
  · next hnil =>
    rw [List.isEmpty_iff.1 hnil]
    refine ⟨rfl, fun c => ?_⟩
    have hall : (getCore s c).l1.filter (fun e => !([] : List Nat).contains e.2.pa) = (getCore s c).l1 :=
      List.filter_eq_self.2 fun _ _ => rfl
    rw [hall, ite_self]
  · exact flushAll_givesUp _ _ h

/-! ## The object that a landing updates (R139, R140) -/

theorem kvGet_modTeam {s : State} {k : Nat} {team : Team} (hk : kvGet s.teams k = some team) (f : Team → Team) :
    kvGet (modTeam s k f).teams k = some (f team) := by
  rw [modTeam_teams, kvGet_kvMod_same, hk, Option.map_some]

/-- What a team notes of its barriers' ERROR is no part of an object. -/
theorem barBecomes_noteOld {s u : State} {k off : Nat} {b : Bar} {y : Team} (hk : kvGet u.teams k = some y)
    (f : Team → KV Bool) (h : BarBecomes s u k off b) : BarBecomes s (modTeam u k fun t => { t with barOld := f t }) k off b := by
  obtain ⟨hrest, hbytes, hother, hteam, hteams⟩ := h
  have hsame : getTeam (modTeam u k fun t => { t with barOld := f t }) k = { getTeam u k with barOld := f (getTeam u k) } := by
    rw [getTeam_modTeam hk, if_pos rfl]
  refine ⟨?_, ?_, fun a ha => ?_, ?_, fun j hj => ?_⟩
  · rw [modTeam, hrest]
  · rw [localRead, hsame]
    exact hbytes
  · rw [hsame]
    exact hother a ha
  · rw [hsame, hteam]
  · rw [getTeam_modTeam hk, if_neg hj]
    exact hteams j hj

/-- An object is updated twice. -/
theorem barBecomes_trans {s u v : State} {k off : Nat} {b c : Bar} (h1 : BarBecomes s u k off b) (h2 : BarBecomes u v k off c) :
    BarBecomes s v k off c := by
  obtain ⟨hrest, -, hother, hteam, hteams⟩ := h1
  obtain ⟨hrest', hbytes', hother', hteam', hteams'⟩ := h2
  refine ⟨?_, hbytes', fun a ha => (hother' a ha).trans (hother a ha), ?_, fun j hj => (hteams' j hj).trans (hteams j hj)⟩
  · rw [hrest', hrest]
  · rw [hteam', hteam]

/-- Whether a landing sets ERROR: its copy faulted, or the count leaves the signed range (R140). -/
def landingErrs (x : Landing) (b : Bar) : Bool := x.fault || decide (b.sect - x.sectors < -(2 ^ 31 : Int))

/-- An object with the sectors of a landing counted. -/
def landedBar (x : Landing) (b : Bar) : Bar :=
  { b with
    sect := if decide (b.sect - x.sectors < -(2 ^ 31 : Int)) then -(2 ^ 31) else b.sect - x.sectors,
    error := b.error || landingErrs x b }

/-- An object whose phase ends; ERROR goes when it was set before the phase that ends began (R139). -/
def nextBar (old : Bool) (y : Bar) : Bar :=
  { y with phase := (y.phase + 1) % 16, arrive := y.reload, busy := false, error := y.error && !old }

/-- The state once a landing is counted, before the phase is looked at. -/
def landed (k : Nat) (x : Landing) (s : State) : State :=
  let b := barAt s k x.bar.off
  let u := putBar k x.bar.off (landedBar x b) s
  if landingErrs x b then modTeam u k fun y => { y with barOld := kvSet y.barOld x.bar.off false } else u

/-- The object `b` of a team takes a landing; what the team noted of its ERROR goes when the landing sets it. -/
structure Counted (k : Nat) (x : Landing) (b : Bar) (team : Team) (s u : State) : Prop where
  bar : BarBecomes s u k x.bar.off (landedBar x b)
  groups : u.groups = s.groups
  object : barAt u k x.bar.off = landedBar x b
  wf : Memory.wf (getTeam u k).mem = true
  held : ∃ y, kvGet u.teams k = some y
  old : kvGetD (getTeam u k).barOld x.bar.off false = (!landingErrs x b && kvGetD team.barOld x.bar.off false)

theorem barFits_landed (x : Landing) {b : Bar} (h : BarFits b) : BarFits (landedBar x b) := by
  obtain ⟨hphase, harrive, hreload, ⟨hlo, hhi⟩, hgen, hrest⟩ := h
  refine ⟨hphase, harrive, hreload, ?_, hgen, hrest⟩
  show -2 ^ 31 ≤ (if decide (b.sect - x.sectors < -(2 ^ 31 : Int)) then -(2 ^ 31) else b.sect - x.sectors : Int) ∧
    (if decide (b.sect - x.sectors < -(2 ^ 31 : Int)) then -(2 ^ 31) else b.sect - x.sectors : Int) < 2 ^ 31
  simp only [decide_eq_true_eq]
  split <;> omega

section
variable {s : State} {k : Nat} {team : Team}

theorem landed_law (x : Landing) (hk : kvGet s.teams k = some team) (hm : Memory.wf (getTeam s k).mem = true) :
    Counted k x (barAt s k x.bar.off) team s (landed k x s) := by
  let y := landedBar x (barAt s k x.bar.off)
  obtain ⟨hbar, hwf, -, hold, hgroups, z, hz⟩ := putBar_law hk x.bar.off y hm
  have hfits : BarFits y := barFits_landed x (barFits s k x.bar.off)
  cases herr : landingErrs x (barAt s k x.bar.off) with
  | true =>
    let noted := modTeam (putBar k x.bar.off y s) k fun t => { t with barOld := kvSet t.barOld x.bar.off false }
    have hu : landed k x s = noted := if_pos herr
    have hteam : getTeam noted k = { getTeam (putBar k x.bar.off y s) k with
        barOld := kvSet (getTeam (putBar k x.bar.off y s) k).barOld x.bar.off false } := by
      rw [getTeam_modTeam hz, if_pos rfl]
    have hnoted : BarBecomes s noted k x.bar.off y := barBecomes_noteOld hz (fun t => kvSet t.barOld x.bar.off false) hbar
    rw [hu]
    refine ⟨hnoted, hgroups, barAt_put hnoted hfits, by rw [hteam]; exact hwf, ⟨_, kvGet_modTeam hz _⟩, ?_⟩
    rw [hteam, herr]
    exact kvGetD_kvSet_same ..
  | false =>
    have hu : landed k x s = putBar k x.bar.off y s := if_neg (by rw [herr]; exact Bool.false_ne_true)
    rw [hu]
    refine ⟨hbar, hgroups, barAt_put hbar hfits, hwf, ⟨z, hz⟩, ?_⟩
    rw [hold, getTeam_of hk, herr]
    rfl

/-! ## The end of a phase (R139) -/

theorem noCopyFault_congr {u v : State} {t off gen : Nat} (hg : v.groups = u.groups) (h : NoCopyFault u t off gen) :
    NoCopyFault v t off gen := by
  rw [NoCopyFault, hg]
  exact h

theorem checkBar_unfinished {off : Nat} (h : ¬ ((barAt s k off).arrive = 0 ∧ (barAt s k off).sect = 0)) : checkBar k off s = s := by
  rw [checkBar]
  exact if_neg fun hc => h hc.2

/-- A phase ends: the object goes to its next phase, and the paths that wait are released. -/
theorem checkBar_finished {off : Nat} {y : Bar} (hk : kvGet s.teams k = some team) (hm : Memory.wf (getTeam s k).mem = true)
    (hy : barAt s k off = y) (harmed : barArmed y = true) (harrive : y.arrive = 0) (hsect : y.sect = 0) :
    let next := nextBar (kvGetD (getTeam s k).barOld off false) y
    next.error = false ∨ NoCopyFault s k off y.gen →
      ∃ u, BarBecomes s u k off next ∧ u.groups = s.groups ∧ Released u (checkBar k off s) k off (some y.phase) (!next.error) := by
  intro next hnone
  obtain ⟨hbar, -, -, -, hgroups, z, hz⟩ := putBar_law hk off next hm
  let u := modTeam (putBar k off next s) k fun t => { t with barOld := kvSet t.barOld off next.error }
  have hcheck : checkBar k off s = releaseWaiters k off (some y.phase) next u := by
    rw [checkBar, hy]
    exact if_pos ⟨harmed, harrive, hsect⟩
  have hvalid : next.invalid = false := by
    have := (Bool.and_eq_true_iff.1 harmed).2
    rwa [Bool.not_eq_true'] at this
  have hfault : next.invalid = true ∨ next.error = false ∨ NoCopyFault u k off next.gen :=
    .inr (hnone.imp_right (noCopyFault_congr hgroups))
  refine ⟨u, barBecomes_noteOld hz (fun t => kvSet t.barOld off next.error) hbar, hgroups, ?_⟩
  have hrel := releaseWaiters_law (some y.phase) hfault
  rwa [hvalid, Bool.not_false, Bool.true_and, ← hcheck] at hrel

end

/-! ## SECTOR_LANDING (R139, R140, R144) -/

/-- The state once a landing has left those on their way to its team. -/
def withoutLanding (k i : Nat) (s : State) : State := modTeam s k fun y => { y with landings := y.landings.eraseIdx i }

/-- The state with the lines of a landing given up, and its copy's fault for a BWAIT to raise (R134, R141). -/
def readyToCount (k : Nat) (x : Landing) (s : State) : State :=
  let u := dropLines k x.lines s
  if x.fault then modOp x.gid x.seq (fun o => { o with err := o.err.map fun e => { e with counted := true } }) u else u

theorem readyToCount_teams (k : Nat) (x : Landing) (s : State) : (readyToCount k x s).teams = s.teams := by
  unfold readyToCount
  dsimp only
  split <;> exact dropLines_teams ..

theorem countLanding_eq (k : Nat) (x : Landing) (s : State) :
    countLanding k x s = checkBar k x.bar.off (landed k x (readyToCount k x s)) := rfl

theorem barArmed_iff (b : Bar) : barArmed b = true ↔ b.reload ≠ 0 ∧ b.invalid = false := by
  rw [barArmed, Bool.and_eq_true, bne_iff_ne, Bool.not_eq_true']

/-- An event counted in a group changes no team and no context. -/
theorem groupEvent_rest (gid id w : Nat) (pc : Word) (s : State) :
    (groupEvent gid id w pc s).teams = s.teams ∧ (groupEvent gid id w pc s).ctxs = s.ctxs := by
  have h := (quiet_countEvent (coreOfGid gid) (getGroup s gid).place.dom id w pc.toNat (getGroup s gid).place.hdr.entry.toNat s).1
  rw [groupEvent, h]
  exact ⟨rfl, rfl⟩

/-- A landing at an object that does not count it (R140, R144, R259). -/
theorem orphanLanding_law {k : Nat} {s : State} {team : Team} (x : Landing) (hk : kvGet s.teams k = some team)
    (hm : Memory.wf (getTeam s k).mem = true) :
    ∃ u, BarBecomes s u k x.bar.off { barAt s k x.bar.off with orphan := true } ∧ u.groups = s.groups ∧
      orphanLanding k x s =
        let w := groupEvent x.gid 0x0005 1 x.pc u
        if (getCtx s team.owner).fatal = none then w else
          lateTrap x.gid { code := 0x19, detail := 0xFF, addr := x.bar.off, async := true, retPc := x.pc, mask := x.mask } w := by
  obtain ⟨hbar, -, -, -, hgroups, -⟩ := putBar_law hk x.bar.off { barAt s k x.bar.off with orphan := true } hm
  let u := putBar k x.bar.off { barAt s k x.bar.off with orphan := true } s
  let w := groupEvent x.gid 0x0005 1 x.pc u
  obtain ⟨hteams, hctxs⟩ := groupEvent_rest x.gid 0x0005 1 x.pc u
  have howner : (getTeam w k).owner = team.owner := by
    have ⟨_, _, _, hteam, _⟩ := hbar
    have hsame : getTeam w k = getTeam u k := by rw [getTeam, hteams, getTeam]
    rw [hsame, hteam, getTeam_of hk]
  have hctx : getCtx w team.owner = getCtx s team.owner := by
    rw [getCtx, hctxs]
    rfl
  have horphan : orphanLanding k x s = if (getCtx w (getTeam w k).owner).fatal.isSome then
      lateTrap x.gid { code := 0x19, detail := 0xFF, addr := x.bar.off, async := true, retPc := x.pc, mask := x.mask } w
    else w := rfl
  refine ⟨u, hbar, hgroups, horphan.trans ?_⟩
  rw [howner, hctx]
  by_cases hf : (getCtx s team.owner).fatal = none
  · rw [if_neg (mt Option.isSome_iff_ne_none.1 (not_not_intro hf))]
    exact (if_pos hf).symm
  · rw [if_pos (Option.isSome_iff_ne_none.2 hf)]
    exact (if_neg hf).symm

section
variable {k i : Nat} {s : State} {team : Team} {x : Landing}

theorem withoutLanding_team (hk : kvGet s.teams k = some team) :
    kvGet (withoutLanding k i s).teams k = some { team with landings := team.landings.eraseIdx i } :=
  kvGet_modTeam hk _

theorem readyToCount_team (hk : kvGet s.teams k = some team) : kvGet (readyToCount k x (withoutLanding k i s)).teams k =
    some { team with landings := team.landings.eraseIdx i } := by
  rw [readyToCount_teams, withoutLanding_team hk]

/-- The object of a team's memory. -/
theorem barAt_of {u : State} {y : Team} (hk : kvGet s.teams k = some team) (hy : kvGet u.teams k = some y)
    (hm : y.mem = team.mem) (off : Nat) : barAt u k off = barAt s k off := by
  rw [barAt, barAt, localRead, localRead, getTeam_of hk, getTeam_of hy, hm]

theorem exec_sectorLanding (hk : kvGet s.teams k = some team) (hx : team.landings[i]? = some x) :
    exec (.sectorLanding k i) s = .next (applyLanding k x (withoutLanding k i s)) := by
  show execSectorLanding k i s = _
  rw [execSectorLanding, getTeam_of hk, hx]
  rfl

/-- A landing counts in the object that it captured, while that is armed (R140, R144). -/
def LandingCounts (x : Landing) (b : Bar) : Prop := b.gen = x.bar.gen ∧ b.reload ≠ 0 ∧ b.invalid = false

theorem exec_landing_counts (hk : kvGet s.teams k = some team) (hx : team.landings[i]? = some x)
    (hc : LandingCounts x (barAt s k x.bar.off)) : exec (.sectorLanding k i) s =
      .next (checkBar k x.bar.off (landed k x (readyToCount k x (withoutLanding k i s)))) := by
  rw [exec_sectorLanding hk hx, applyLanding, barAt_of hk (withoutLanding_team hk) rfl,
    if_pos ⟨hc.1, (barArmed_iff _).2 hc.2⟩, countLanding_eq]

theorem landed_ready_law (hk : kvGet s.teams k = some team) (hm : Memory.wf team.mem = true) :
    let s2 := readyToCount k x (withoutLanding k i s)
    Counted k x (barAt s k x.bar.off) team s2 (landed k x s2) := by
  have hk2 := readyToCount_team (x := x) (i := i) hk
  have hlaw := landed_law x hk2 (by rw [getTeam_of hk2]; exact hm)
  rw [barAt_of hk hk2 rfl] at hlaw
  exact ⟨hlaw.bar, hlaw.groups, hlaw.object, hlaw.wf, hlaw.held, hlaw.old⟩

/-- A landing that leaves something to expect. -/
theorem landing_counts_open (hk : kvGet s.teams k = some team) (hx : team.landings[i]? = some x)
    (hm : Memory.wf team.mem = true) (hc : LandingCounts x (barAt s k x.bar.off))
    (hopen : ¬ ((landedBar x (barAt s k x.bar.off)).arrive = 0 ∧ (landedBar x (barAt s k x.bar.off)).sect = 0)) :
    let s2 := readyToCount k x (withoutLanding k i s)
    ∃ t, exec (.sectorLanding k i) s = .next t ∧ BarBecomes s2 t k x.bar.off (landedBar x (barAt s k x.bar.off)) ∧
      t.groups = s2.groups := by
  obtain ⟨hbar, hgroups, hat, -, -, -⟩ := landed_ready_law (x := x) (i := i) hk hm
  rw [exec_landing_counts hk hx hc, checkBar_unfinished (by rw [hat]; exact hopen)]
  exact ⟨_, rfl, hbar, hgroups⟩

/-- A landing that leaves nothing to expect ends the phase. -/
theorem landing_counts_last (hk : kvGet s.teams k = some team) (hx : team.landings[i]? = some x)
    (hm : Memory.wf team.mem = true) (hc : LandingCounts x (barAt s k x.bar.off))
    (harrive : (landedBar x (barAt s k x.bar.off)).arrive = 0) (hsect : (landedBar x (barAt s k x.bar.off)).sect = 0) :
    let off := x.bar.off
    let b := barAt s k off
    let s2 := readyToCount k x (withoutLanding k i s)
    let next := nextBar (!landingErrs x b && kvGetD team.barOld off false) (landedBar x b)
    next.error = false ∨ NoCopyFault s2 k off b.gen →
      ∃ u t, exec (.sectorLanding k i) s = .next t ∧ BarBecomes s2 u k off next ∧ u.groups = s2.groups ∧
        Released u t k off (some b.phase) (!next.error) := by
  intro off b s2 next hnone
  obtain ⟨hbar, hgroups, hat, hwf, ⟨z, hz⟩, hold⟩ := landed_ready_law (x := x) (i := i) hk hm
  have hlast := checkBar_finished hz hwf hat ((barArmed_iff _).2 hc.2) harrive hsect
  rw [hold] at hlast
  obtain ⟨u, hu, hug, hrel⟩ := hlast (hnone.imp_right (noCopyFault_congr hgroups))
  exact ⟨u, _, exec_landing_counts hk hx hc, barBecomes_trans hbar hu, hug.trans hgroups, hrel⟩

/-- A landing that does not count. -/
theorem landing_orphan (hk : kvGet s.teams k = some team) (hx : team.landings[i]? = some x)
    (hm : Memory.wf team.mem = true) (hc : ¬ LandingCounts x (barAt s k x.bar.off)) :
    ∃ u v, exec (.sectorLanding k i) s = .next v ∧
      BarBecomes (withoutLanding k i s) u k x.bar.off { barAt s k x.bar.off with orphan := true } ∧ u.groups = s.groups ∧
      v = let w := groupEvent x.gid 0x0005 1 x.pc u
        if (getCtx s team.owner).fatal = none then w else
          lateTrap x.gid { code := 0x19, detail := 0xFF, addr := x.bar.off, async := true, retPc := x.pc, mask := x.mask } w := by
  have hk0 := withoutLanding_team (i := i) hk
  have hb0 : barAt (withoutLanding k i s) k x.bar.off = barAt s k x.bar.off := barAt_of hk hk0 rfl _
  have happly : applyLanding k x (withoutLanding k i s) = orphanLanding k x (withoutLanding k i s) := by
    rw [applyLanding, hb0]
    exact if_neg fun h => hc ⟨h.1, (barArmed_iff _).1 h.2⟩
  obtain ⟨u, hu, hug, hv⟩ := orphanLanding_law x hk0 (by rw [getTeam_of hk0]; exact hm)
  rw [hb0] at hu
  exact ⟨u, _, (exec_sectorLanding hk hx).trans (congrArg _ happly), hu, hug, hv⟩

end

/-! ## The next line of a copy (R110, R318) -/

section
variable {gid line : Nat} {s : State} {g : Group} {o : Op}

/-- The accesses of a copy that are still to be made on a line. -/
def lineAccs (o : Op) (line : Nat) : List Acc := (o.accs.filter fun a => !a.done).filter fun a => lineOf a.va == line

theorem mem_lineAccs {a : Acc} : a ∈ lineAccs o line ↔ a ∈ (o.accs.filter fun a => !a.done) ∧ lineOf a.va = line := by
  rw [lineAccs, List.mem_filter, beq_iff_eq]

theorem leastBy_nat {ns : List Nat} {n : Nat} (hn : n ∈ ns) (hle : ∀ m ∈ ns, n ≤ m) :
    leastBy (fun a b : Nat => decide (a < b)) ns = some n := by
  obtain ⟨y, hy, hmem, hmin⟩ := leastBy_key (fun a : Nat => (a : Int)) ns (List.ne_nil_of_mem hn)
  have hyn : y = n := Nat.le_antisymm (Int.ofNat_le.1 (hmin n hn)) (hle y hmem)
  rw [← hyn, ← hy]
  simp only [Int.ofNat_lt]

theorem nextLine_eq (hne : lineAccs o line ≠ []) (hle : ∀ a ∈ o.accs.filter fun a => !a.done, line ≤ lineOf a.va) :
    nextLine o = lineAccs o line := by
  have hmem : line ∈ (o.accs.filter fun a => !a.done).map fun a => lineOf a.va := by
    obtain ⟨a, ha⟩ := List.exists_mem_of_ne_nil _ hne
    obtain ⟨htodo, hline⟩ := mem_lineAccs.1 ha
    exact List.mem_map.2 ⟨a, htodo, hline⟩
  have hmin : ∀ m ∈ (o.accs.filter fun a => !a.done).map fun a => lineOf a.va, line ≤ m :=
    List.forall_mem_map.2 hle
  have hleast := leastBy_nat hmem hmin
  rw [nextLine, hleast]
  rfl

/-- A line whose lanes all translate and read has no cause. -/
theorem lineCause_none {lost : List Nat} {as : List Acc}
    (h : ∀ a ∈ as, ∃ l, placeOf s (coreOfGid gid) g a.va a.len .load = .ok l ∧ accessFails s lost l = none) :
    lineCause s gid g lost as = none := by
  refine List.findSome?_eq_none_iff.2 fun a ha => ?_
  obtain ⟨l, hl, hf⟩ := h a ha
  simp only [hl, hf]
  rfl

/-- The cause is that of the first lane that does not. -/
theorem lineCause_some {lost : List Nat} {good rest : List Acc} {a : Acc} {c : Nat}
    (h : ∀ b ∈ good, ∃ l, placeOf s (coreOfGid gid) g b.va b.len .load = .ok l ∧ accessFails s lost l = none)
    (ha : placeOf s (coreOfGid gid) g a.va a.len .load = .error c ∨
      (c = 0x1A ∧ ∃ l, placeOf s (coreOfGid gid) g a.va a.len .load = .ok l ∧ accessFails s lost l ≠ none)) :
    lineCause s gid g lost (good ++ a :: rest) = some c := by
  have hgood : lineCause s gid g lost good = none := lineCause_none h
  rw [lineCause] at hgood ⊢
  rw [List.findSome?_append, hgood, Option.none_or, List.findSome?_cons]
  rcases ha with ha | ⟨rfl, l, hl, hf⟩
  · simp only [ha]
  · have hsome : (accessFails s lost l).isSome = true := Option.isSome_iff_ne_none.2 hf
    simp only [hl, hsome, if_true]

/-- Whether an access is that of a lane of the line. -/
def ofLine (as : List Acc) (a : Acc) : Bool := as.any fun b => b.lane == a.lane

/-- The sectors that some accesses of a copy complete: no access still to be made writes them. -/
def wholeSectors (o : Op) (as : List Acc) : List Nat :=
  (sectorsOf as).filter fun x => !(sectorsOf (o.accs.filter fun a => !a.done && !ofLine as a)).contains x

/-- Whether a sector that is whole after a line holds bytes that an earlier line failed to bring. -/
def wholeFailed (o : Op) (as : List Acc) : Bool :=
  o.accs.any fun a => a.failed && (wholeSectors o as).contains ((a.dst.getD 0) / 32)

/-- What is left of a line transfer once the bytes have landed or the fault is recorded: the accesses are made, and the
sectors that are whole go to the barrier. -/
def lineMoved (gid : Nat) (g : Group) (o : Op) (bar : Option BarCap) (as : List Acc) (fault bad : Bool) (s : State) : State :=
  let u := modOp gid o.seq
    (fun o => { o with accs := o.accs.map fun a => if ofLine as a then { a with done := true, failed := fault } else a }) s
  finishOps gid (match bar with
    | some b => if (wholeSectors o as).isEmpty then u else sendLanding g.place.team
        { bar := b, sectors := (wholeSectors o as).length, fault := bad, gid := gid, seq := o.seq, pc := o.pc, mask := o.mask } u
    | none => u)

/-- CPA_LINE_TRANSFER moves the next line, or records its fault. -/
theorem exec_cpaLineTransfer {bar : Option BarCap} (hg : kvGet s.groups gid = some g) (ho : findOp g o.seq = some o)
    (hkind : o.kind = .copy bar) (hdone : o.done = false) (hne : lineAccs o line ≠ [])
    (hle : ∀ a ∈ o.accs.filter fun a => !a.done, line ≤ lineOf a.va) (hmoves : copyMoves s gid g o = true)
    (hready : ∀ a ∈ lineAccs o line, accReady s gid g o a = true) :
    exec (.cpaLineTransfer gid o.seq) s = .next (match lineCause s gid g o.lost (lineAccs o line) with
      | none => lineMoved gid g o bar (lineAccs o line) false (wholeFailed o (lineAccs o line))
          (landLine gid g o (lineAccs o line) s)
      | some c => lineMoved gid g o bar (lineAccs o line) true true
          (setErr gid o.seq { code := 0x19, detail := c, addr := line } s)) := by
  have hnext := nextLine_eq hne hle
  have hgo : (o.done || (lineAccs o line).isEmpty || !copyMoves s gid g o ||
      !((lineAccs o line).all fun a => accReady s gid g o a)) = false := by
    have hall : ((lineAccs o line).all fun a => accReady s gid g o a) = true := List.all_eq_true.2 hready
    rw [hdone, hmoves, hall, List.isEmpty_eq_false_iff.2 hne]
    rfl
  have haddr : lineOf ((lineAccs o line).headD { lane := 0, loc := .loc 0 0, va := 0, len := 0 }).va = line := by
    obtain ⟨a, as, has⟩ := List.exists_cons_of_ne_nil hne
    have ha : a ∈ lineAccs o line := by rw [has]; exact List.mem_cons_self
    rw [has]
    exact (mem_lineAccs.1 ha).2
  show execCpaLineTransfer gid o.seq s = _
  simp only [execCpaLineTransfer, getGroup_of hg, ho, hkind, hnext, hgo, haddr]
  cases lineCause s gid g o.lost (lineAccs o line) <;> cases bar <;> rfl

end

/-! ## The bytes that a lane lands (R110) -/

theorem length_seenBytes (s : State) (core : Nat) (l : Loc) (n : Nat) : (seenBytes s core l n).length = n := by
  cases l with
  | loc t off => exact length_memBytes ..
  | glob pa home hcore =>
    unfold seenBytes
    dsimp only
    split
    · split
      · rw [List.length_map, List.length_range]
      · exact length_memBytes ..
    · split
      · unfold sramRead
        split <;> exact length_memBytes ..
      · exact length_memBytes ..

theorem mem_zip_regRange (at_ : Nat) (bs : List Byte) (x : Nat) (v : Byte) :
    (x, v) ∈ (regRange at_ bs.length).zip bs ↔ at_ ≤ x ∧ x < at_ + bs.length ∧ v = bs.getD (x - at_) 0 := by
  rw [List.mem_iff_getElem?]
  constructor
  · rintro ⟨j, hj⟩
    rw [List.getElem?_zip_eq_some] at hj
    obtain ⟨hx, hv⟩ := hj
    have hlt : j < bs.length := (List.getElem?_eq_some_iff.1 hv).1
    have hxj : x = at_ + j := by
      rw [regRange, List.getElem?_map, List.getElem?_range hlt] at hx
      exact (Option.some.inj hx).symm
    refine ⟨by omega, by omega, ?_⟩
    rw [hxj, Nat.add_sub_cancel_left, List.getD_eq_getElem?_getD, hv, Option.getD_some]
  · rintro ⟨hlo, hhi, rfl⟩
    have hlt : x - at_ < bs.length := by omega
    refine ⟨x - at_, List.getElem?_zip_eq_some.2 ⟨?_, ?_⟩⟩
    · rw [regRange, List.getElem?_map, List.getElem?_range hlt, Option.map_some, Nat.add_sub_cancel' hlo]
    · rw [List.getD_eq_getElem?_getD, List.getElem?_eq_getElem hlt, Option.getD_some]

/-- A byte of local memory that a higher lane of the copy has landed stays (R110). -/
def LandedLater (o : Op) (a : Acc) (x : Nat) : Prop :=
  ∃ b ∈ o.accs, a.lane < b.lane ∧ b.done = true ∧ b.failed = false ∧ b.dst.getD 0 ≤ x ∧ x < b.dst.getD 0 + b.len

theorem landedLater_iff (o : Op) (a : Acc) (x : Nat) :
    ((o.accs.filter fun b => decide (a.lane < b.lane) && b.done && !b.failed).any fun b =>
      rangesMeet x 1 (b.dst.getD 0) b.len) = true ↔ LandedLater o a x := by
  simp only [List.any_eq_true, List.mem_filter, Bool.and_eq_true, decide_eq_true_eq, Bool.not_eq_true', rangesMeet,
    LandedLater]
  constructor
  · rintro ⟨b, ⟨hb, ⟨hlane, hdone⟩, hfailed⟩, hhi, hlo⟩
    exact ⟨b, hb, hlane, hdone, hfailed, by omega, hhi⟩
  · rintro ⟨b, hb, hlane, hdone, hfailed, hlo, hhi⟩
    exact ⟨b, ⟨hb, ⟨hlane, hdone⟩, hfailed⟩, hhi, by omega⟩

theorem mem_landBytes (o : Op) (a : Acc) (bs : List Byte) (x : Nat) (v : Byte) : (x, v) ∈ landBytes o a bs ↔
    (a.dst.getD 0 ≤ x ∧ x < a.dst.getD 0 + bs.length ∧ v = bs.getD (x - a.dst.getD 0) 0) ∧ ¬ LandedLater o a x := by
  rw [landBytes, List.mem_filter, mem_zip_regRange, ← landedLater_iff, Bool.not_eq_true', Bool.not_eq_true]

/-- Local memory after a lane's bytes have landed. -/
theorem memByte_landed (o : Op) (a : Acc) (bs : List Byte) {m : List Host.Cell} (hm : Memory.wf m = true) (x : Nat) :
    memByte (memPutAt m (landBytes o a bs)) x =
      if a.dst.getD 0 ≤ x ∧ x < a.dst.getD 0 + bs.length ∧ (∀ b ∈ o.accs, a.lane < b.lane → b.done = true →
          b.failed = false → ¬ (b.dst.getD 0 ≤ x ∧ x < b.dst.getD 0 + b.len)) then bs.getD (x - a.dst.getD 0) 0
      else memByte m x := by
  have hlater : (∀ b ∈ o.accs, a.lane < b.lane → b.done = true → b.failed = false →
      ¬ (b.dst.getD 0 ≤ x ∧ x < b.dst.getD 0 + b.len)) ↔ ¬ LandedLater o a x := by
    simp only [LandedLater, not_exists, not_and]
  split
  · next hin =>
    obtain ⟨hlo, hhi, hfree⟩ := hin
    refine memPutAt_same _ hm _ _ ((mem_landBytes ..).2 ⟨⟨hlo, hhi, rfl⟩, hlater.1 hfree⟩) fun e he hx => ?_
    obtain ⟨⟨-, -, hv⟩, -⟩ := (mem_landBytes o a bs e.1 e.2).1 he
    rw [hv, hx]
  · next hout =>
    refine memPutAt_other _ hm _ fun e he hx => hout ?_
    obtain ⟨⟨hlo, hhi, -⟩, hfree⟩ := (mem_landBytes o a bs e.1 e.2).1 he
    rw [hx] at hlo hhi hfree
    exact ⟨hlo, hhi, hlater.2 hfree⟩

theorem notePlace_teams (core : Nat) (g : Group) (va : Nat) (s : State) : (notePlace core g va s).teams = s.teams := by
  rw [(keeps_notePlace core g va s).1.rest]

/-- A lane lands the bytes that its core sees at its source (R110, R318). -/
theorem landLine_single {gid : Nat} {s : State} {g : Group} {a : Acc} {l : Loc} (o : Op)
    (hplace : placeOf s (coreOfGid gid) g a.va a.len .load = .ok l) (htwin : twinCopy s g = false)
    (hserved : ServedHere (notePlace (coreOfGid gid) g a.va s) (coreOfGid gid) l a.len) :
    let s0 := notePlace (coreOfGid gid) g a.va s
    let bs := seenBytes s0 (coreOfGid gid) l a.len
    ∃ v, OnlyCaches s0 v ∧
      landLine gid g o [a] s = modTeam v g.place.team fun t => { t with mem := memPutAt t.mem (landBytes o a bs) } := by
  obtain ⟨v, hread, hcaches⟩ := readLoc_law (whoOf gid g o) l a.len _ hserved
  have hv : twinCopy v g = false := by
    have hteams : v.teams = s.teams := by rw [hcaches]; exact notePlace_teams ..
    rw [twinCopy, getTeam, hteams]
    exact htwin
  have htwinRead : ∀ bs, twinRead v g o.seen l bs = bs := by
    intro bs
    cases l with
    | loc t off => rfl
    | glob pa home hcore => simp only [twinRead, hv, Bool.false_eq_true, if_false]
  refine ⟨v, hcaches, ?_⟩
  simp only [landLine, List.foldl_cons, List.foldl_nil, hplace, hread, htwinRead]
  rfl

/-- Local memory after the transfer of a line of one lane; beside it only caches change. -/
theorem landLine_law {gid : Nat} {s : State} {g : Group} {a : Acc} {l : Loc} {team : Team} (o : Op)
    (hplace : placeOf s (coreOfGid gid) g a.va a.len .load = .ok l) (htwin : twinCopy s g = false)
    (hteam : kvGet s.teams g.place.team = some team) (hm : Memory.wf team.mem = true) :
    let at_ := a.dst.getD 0
    let s0 := notePlace (coreOfGid gid) g a.va s
    ServedHere s0 (coreOfGid gid) l a.len →
    ∃ u, landLine gid g o [a] s = u ∧ OnlyCaches { s0 with teams := u.teams } u ∧
      (∀ x, memByte (getTeam u g.place.team).mem x =
        if at_ ≤ x ∧ x < at_ + a.len ∧ (∀ b ∈ o.accs, a.lane < b.lane → b.done = true → b.failed = false →
            ¬ (b.dst.getD 0 ≤ x ∧ x < b.dst.getD 0 + b.len)) then (seenBytes s0 (coreOfGid gid) l a.len).getD (x - at_) 0
        else memByte team.mem x) ∧
      ∀ j, j ≠ g.place.team → getTeam u j = getTeam s j := by
  intro at_ s0 hserved
  obtain ⟨v, hcaches, hland⟩ := landLine_single o hplace htwin hserved
  have hteams : v.teams = s.teams := by rw [hcaches]; exact notePlace_teams ..
  have hv : kvGet v.teams g.place.team = some team := by rw [hteams]; exact hteam
  refine ⟨_, hland, ?_, fun x => ?_, fun j hj => ?_⟩
  · rw [OnlyCaches, modTeam, hcaches]
  · rw [getTeam_modTeam hv, if_pos rfl, getTeam_of hv, memByte_landed o a _ hm x, length_seenBytes]
  · rw [getTeam_modTeam hv, if_neg hj, getTeam, hteams]
    rfl

/-- Settles O39: a landing is counted or orphaned, L1s give up its lines, and a copy's next line lands or faults. -/
theorem copiesLand : Obligations.CopiesLand := by
  unfold Obligations.CopiesLand
  refine ⟨fun k i s team x hk hx hm => ⟨landing_counts_open hk hx hm, landing_counts_last hk hx hm, landing_orphan hk hx hm⟩,
    fun k lines s hsound => ?_,
    fun gid line s g o bar hg ho hkind hdone hne hle hmoves hready => ⟨fun hgood => ?_, fun good a rest c has hgood ha => ?_⟩,
    fun gid s g o a l team hplace htwin hteam hm hserved => landLine_law o hplace htwin hteam hm hserved⟩
  · obtain ⟨hrest, hl1⟩ := dropLines_givesUp k lines hsound
    refine ⟨_, rfl, hrest, fun gid hgid => ?_⟩
    rw [hl1, if_pos (List.mem_eraseDups.2 (List.mem_map.2 ⟨gid, hgid, rfl⟩))]
  · have hcause : lineCause s gid g o.lost (lineAccs o line) = none := lineCause_none hgood
    rw [exec_cpaLineTransfer hg ho hkind hdone hne hle hmoves hready, hcause]
    cases bar <;> rfl
  · have hcause : lineCause s gid g o.lost (lineAccs o line) = some c := by
      rw [show lineAccs o line = good ++ a :: rest from has]
      exact lineCause_some hgood ha
    rw [exec_cpaLineTransfer hg ho hkind hdone hne hle hmoves hready, hcause]
    cases bar <;> rfl

end Sys2Proof.Proofs
end

section
/-! The key-value sequencer: which instruction it takes, and what the acceptance of an ATTN leaves. -/

namespace Sys2Proof.Proofs

open Sys2Proof Sys2Proof.Machine Sys2Proof.Laws

/-! ## The oldest that may go on (R160) -/

/-- The state without the instruction that the sequencer has taken from its queue. -/
def kvTaken (s : State) (q : List (Nat × EngWait)) : State := { s with kv := { s.kv with queue := q } }

section
variable {s : State} {before after : List (Nat × EngWait)} {gid : Nat} {w : EngWait}

/-- The sequencer finds the first instruction whose group may go on. -/
theorem find_mayAccept (hbefore : ∀ q ∈ before, mayAccept s q.1 = false) (h : mayAccept s gid = true) :
    (before ++ (gid, w) :: after).find? (fun q => mayAccept s q.1) = some (gid, w) := by
  have hnone : before.find? (fun q => mayAccept s q.1) = none :=
    List.find?_eq_none.2 fun q hq => Bool.eq_false_iff.1 (hbefore q hq)
  rw [List.find?_append, hnone, Option.none_or]
  exact List.find?_cons_of_pos h

/-- It takes that one away: an equal one further ahead would have gone on. -/
theorem erase_mayAccept (hbefore : ∀ q ∈ before, mayAccept s q.1 = false) (h : mayAccept s gid = true) :
    (before ++ (gid, w) :: after).erase (gid, w) = before ++ after := by
  have hnew : (gid, w) ∉ before := fun hmem => Bool.false_ne_true ((hbefore _ hmem).symm.trans h)
  rw [List.erase_append_right _ hnew, List.erase_cons_head]

theorem exec_kvAccept (hq : s.kv.queue = before ++ (gid, w) :: after) (hbefore : ∀ q ∈ before, mayAccept s q.1 = false)
    (h : mayAccept s gid = true) : exec .kvAccept s = .next (acceptKv w.instr
      (engEnv (kvTaken s (before ++ after)) gid w.mask w.pc) (kvTaken s (before ++ after))) := by
  show execKvAccept s = _
  simp only [execKvAccept, hq, find_mayAccept hbefore h, erase_mayAccept hbefore h]
  rfl

end

/-! ## Acceptance (R160, R166) -/

/-- An operation on an entry is a command of the team's home core. -/
theorem acceptKv_of_acceptance {i : Instr} {e : EngEnv} {s : State} {home : Bool} {r : Accept} (hu : unitOf i = .kv)
    (h : acceptance i e s = some (home, r)) : acceptKv i e s = acceptCmd (homeOf s e.g) e r s := by
  cases i with
  | kvapp | kvfork | kvdrop =>
    cases h
    rfl
  | attn | attnMaxima | attnGiven | attnFinish => exact absurd h nofun
  | _ => exact absurd hu nofun

/-- The sequencer itself holds an ATTN. -/
theorem acceptKv_of_attnChecks {i : Instr} {e : EngEnv} {s : State} {r : Except EngErr (Attn × Option Nat × State)}
    (h : attnChecks i e s = some r) : acceptKv i e s = acceptAttn e r s := by
  cases i with
  | attn | attnMaxima | attnGiven | attnFinish =>
    cases h
    rfl
  | _ => exact absurd h nofun

/-- The state with an accepted ATTN, which counts on TL as a command with no destination does, before the signers go on. -/
def withAttn (s : State) (g : Group) (e : EngEnv) (a : Attn) (bad : Option Nat) : State :=
  setGroup { s with
    nextId := s.nextId + 1,
    kv := { s.kv with attns := s.kv.attns ++ [{ a with id := s.nextId + 1, seq := g.opSeq }] } }
    e.gid (countedGroup s g e { kind := .kvapp, bad := bad })

theorem acceptAttn_eq {e : EngEnv} (a : Attn) (bad : Option Nat) {s u : State} {g : Group} (hg : kvGet u.groups e.gid = some g) :
    acceptAttn e (.ok (a, bad, u)) s = resumeLanes e.gid e.mask (e.pc + 8) (withAttn u g e a bad) := by
  have hg1 : getGroup { u with nextId := u.nextId + 1 } e.gid = g := getGroup_of hg
  simp only [acceptAttn, freshId, countTl, hg1]
  rfl

/-- An ATTN is accepted: the sequencer holds it with its number and that of its operation on TL (R132), and its signers go on at
PC + 8. -/
structure AttnAccepted (e : EngEnv) (a : Attn) (bad : Option Nat) (u t : State) (g h : Group) : Prop where
  group : kvGet t.groups e.gid = some h
  others : OtherGroups u t e.gid
  state : t = { u with
    groups := t.groups, nextId := u.nextId + 1,
    kv := { u.kv with attns := u.kv.attns ++ [{ a with id := u.nextId + 1, seq := g.opSeq }] } }
  counted : h = { countedGroup u g e { kind := .kvapp, bad := bad } with fibres := h.fibres }
  lanes : LanesRelate g h e.mask fun _ x y => y = { x with st := .resident, pc := e.pc + 8 }

theorem acceptAttn_law {e : EngEnv} (a : Attn) (bad : Option Nat) {s u : State} {g : Group} (hg : kvGet u.groups e.gid = some g) :
    ∃ h, AttnAccepted e a bad u (acceptAttn e (.ok (a, bad, u)) s) g h := by
  have hg1 : kvGet (withAttn u g e a bad).groups e.gid = some (countedGroup u g e { kind := .kvapp, bad := bad }) :=
    kvGet_setGroup ..
  rw [acceptAttn_eq a bad hg, resumeLanes, modGroup_of hg1]
  refine ⟨_, kvGet_setGroup .., fun k hk => ?_, rfl, rfl, lanesRelate_modLanes rfl fun _ _ _ => rfl⟩
  show kvGet (kvSet (kvSet u.groups _ _) _ _) k = _
  rw [kvSet_kvSet, kvGet_kvSet_ne _ _ hk]

/-- Settles O43: the first instruction whose group may go on leaves the queue, and what its checks find decides. -/
theorem keyValueAcceptance : Obligations.KeyValueAcceptance := by
  unfold Obligations.KeyValueAcceptance
  intro s before after gid w hq hbefore hmay v e
  have hexec : exec .kvAccept s = .next (acceptKv w.instr e v) := exec_kvAccept hq hbefore hmay
  refine ⟨fun home r hacc hu => ?_, fun r hchecks => ?_⟩
  · rw [hexec, acceptKv_of_acceptance hu hacc]
    exact ⟨fun f hr => congrArg _ (acceptCmd_law.1 f hr), fun a u hr hk => ⟨_, rfl, acceptCmd_law.2 a u hr hk⟩⟩
  · rw [hexec, acceptKv_of_attnChecks hchecks]
    refine ⟨fun f hr => by rw [hr]; rfl, fun a bad u g hr hg => ?_⟩
    obtain ⟨h, hattn⟩ := acceptAttn_law (e := e) (s := v) a bad hg
    rw [hr]
    exact ⟨_, h, rfl, hattn.group, hattn.others, hattn.state, hattn.counted, hattn.lanes⟩

end Sys2Proof.Proofs
end

section
/-! Training of the fetch predictor: the next PC that a branch gives a port, the owner's bank that it writes, and the port that it holds. -/

namespace Sys2Proof.Proofs

open Sys2Proof Sys2Proof.Machine Sys2Proof.Laws

/-! ## The next PC of a port (R220) -/

/-- PCs are ordered as the numbers that they hold, so there is a least one. -/
theorem leastBy_word {ws : List Word} (hne : ws ≠ []) :
    ∃ w, leastBy (fun a b : Word => decide (a < b)) ws = some w ∧ w ∈ ws ∧ ∀ x ∈ ws, w ≤ x := by
  have hkey : (fun a b : Word => decide (a < b)) = fun a b => decide ((a.toNat : Int) < b.toNat) := by
    funext a b
    rw [decide_eq_decide, Int.ofNat_lt, BitVec.lt_def]
  obtain ⟨w, hw, hmem, hle⟩ := leastBy_key (fun a : Word => (a.toNat : Int)) ws hne
  rw [← hkey] at hw
  exact ⟨w, hw, hmem, fun x hx => BitVec.le_def.2 (Int.ofNat_le.1 (hle x hx))⟩

theorem portNext_least {m : LaneMask} (next : Nat → Word) (hm : m ≠ 0) :
    (∃ l, inMask m l = true ∧ portNext m next = next l) ∧ ∀ l, inMask m l = true → portNext m next ≤ next l := by
  have hne : (lanesOf m).map next ≠ [] := fun h => hm ((lanesOf_eq_nil m).1 (List.map_eq_nil_iff.1 h))
  obtain ⟨w, hw, hmem, hle⟩ := leastBy_word hne
  obtain ⟨l, hl, hlw⟩ := List.mem_map.1 hmem
  have hport : portNext m next = w := by rw [portNext, hw, Option.getD_some]
  rw [hport]
  exact ⟨⟨l, (mem_lanesOf m l).1 hl, hlw.symm⟩,
    fun k hk => hle _ (List.mem_map_of_mem ((mem_lanesOf m k).2 hk))⟩

/-! ## The owner's bank (R213, R222) -/

/-- A change of an owner's bank that keeps its owner is found in its bank. -/
theorem findBank_modBank (core owner : Nat) {f : Bank → Bank} (hf : ∀ b, (f b).owner = b.owner) (s : State) :
    findBank (modBank core owner f s) core owner = (findBank s core owner).map f := by
  have hrest : ((getCore s core).banks.filter fun b => b.owner != owner).find? (fun b => b.owner == owner) = none :=
    List.find?_eq_none.2 fun b hb => by simpa using (List.mem_filter.1 hb).2
  have hkeep : ((fun b => b.owner == owner) ∘ f) = fun b : Bank => b.owner == owner := by
    funext b
    rw [Function.comp_apply, hf]
  rw [findBank, modBank, getCore_modCore, if_pos rfl, List.find?_append, hrest, Option.or_none, List.find?_map, hkeep,
    List.find?_filter]
  simp only [and_self, Bool.decide_eq_true]
  rfl

/-! ## Training (R220) -/

/-- The entry of the fetch predictor that the issuing path's branch trains: its sub-core's, at bits 9 to 2 of its PC. -/
def trainedEntry (s : State) : Nat := 256 * (s.cur.slot / 32) + s.cur.pc.toNat / 4 % 256

/-- The state in which a branch has trained its entry of its owner's bank. -/
def withTraining (owner : Nat) (entry : BitVec 256) (s : State) : State :=
  modBank s.cur.core owner (fun b => { b with fetch := kvSet b.fetch (trainedEntry s) entry }) s

theorem findBank_withTraining {owner : Nat} {b : Bank} (entry : BitVec 256) {s : State}
    (hb : findBank s s.cur.core owner = some b) :
    findBank (withTraining owner entry s) s.cur.core owner =
      some { b with fetch := kvSet b.fetch (trainedEntry s) entry } := by
  rw [withTraining, findBank_modBank, hb, Option.map_some]
  exact fun _ => rfl

section
variable {s : State} {g : Group} {b : Bank} (taken : Option Word) (next : Word) (hs : OnPath s g)
include hs

theorem trainBranch_of_absent (hb : findBank s s.cur.core g.place.owner = none) : trainBranch taken next s = s := by
  simp only [trainBranch, curGroup_of hs, hb]

theorem trainBranch_of_resident (hb : findBank s s.cur.core g.place.owner = some b) :
    trainBranch taken next s =
      let e := kvGetD b.fetch (trainedEntry s) 0
      let u := withTraining g.place.owner (fetchStep e s.cur.pc taken) s
      if predictedPc e s.cur.pc = next then u else holdPort 4 u := by
  simp only [trainBranch, curGroup_of hs, hb]
  rfl

theorem trainBranch_sameBytes : SameBytes s (trainBranch taken next s) := by
  rw [(trainBranch_frame taken next hs).1]
  exact sameBytes_refl s

theorem trainBranch_bank (hb : findBank s s.cur.core g.place.owner = some b) :
    findBank (trainBranch taken next s) s.cur.core g.place.owner = some { b with
      fetch := kvSet b.fetch (trainedEntry s) (fetchStep (kvGetD b.fetch (trainedEntry s) 0) s.cur.pc taken) } := by
  rw [trainBranch_of_resident taken next hs hb, ← findBank_withTraining _ hb]
  dsimp only
  split <;> rfl

theorem trainBranch_group (hb : findBank s s.cur.core g.place.owner = some b) :
    kvGet (trainBranch taken next s).groups (curGid s) = some
      (if predictedPc (kvGetD b.fetch (trainedEntry s) 0) s.cur.pc = next then g
       else { g with sched := { g.sched with
         portHolds := kvSet g.sched.portHolds s.cur.port (s.dev.clock + 5) } }) := by
  rw [trainBranch_of_resident taken next hs hb]
  dsimp only
  split
  · exact hs
  · have hg : curGroup (withTraining g.place.owner (fetchStep (kvGetD b.fetch (trainedEntry s) 0) s.cur.pc taken) s) = g :=
      curGroup_of hs
    rw [holdPort, hg]
    exact kvGet_kvSet_same ..

end

/-- Settles O13: the port's next PC is the least of the lanes', and a branch whose owner's bank is resident writes its entry
there and holds its port on a wrong prediction. -/
theorem branchTraining : Obligations.BranchTraining := by
  unfold Obligations.BranchTraining
  refine ⟨fun m next hm => portNext_least next hm, fun taken next s g hs => ?_⟩
  obtain ⟨hframe, hothers, -⟩ := trainBranch_frame taken next hs
  exact ⟨trainBranch_sameBytes taken next hs, hothers, hframe, trainBranch_of_absent taken next hs,
    fun b hb => ⟨trainBranch_bank taken next hs hb, trainBranch_group taken next hs hb⟩⟩

end Sys2Proof.Proofs
end
